-- ==== Sys2Proof/Word.lean ====
section
/-! DEFINITION. The word types of the PX-860 (R4): little-endian bytes, 32-bit instruction words, 64-bit lanes. -/
namespace Sys2Proof

/-- One byte of memory. -/
abbrev Byte := BitVec 8
/-- One instruction word (R264). -/
abbrev Word32 := BitVec 32
/-- One lane or scalar register (R166). -/
abbrev Word64 := BitVec 64
/-- A scalar register number, s0 to s63. -/
abbrev SReg := BitVec 6
/-- A vector register number as the extended form names it (R270). -/
abbrev VReg := BitVec 10
/-- A mask register number, k0 to k15. -/
abbrev KReg := BitVec 4
/-- An accumulator tile number, a0 to a15. -/
abbrev AReg := BitVec 4

end Sys2Proof
end

