-- ==== Sys2Proof/Operand.lean ====
section
/-! DEFINITION. The operand types of the instructions, as the spec's operand rules read them (R269 to R278, R358). -/
namespace Sys2Proof

/-- The second source of a scalar instruction: a register or a 64-bit literal (R274, R278). -/
inductive SOpd where
  | reg (r : SReg)
  | lit (v : Word64)
deriving DecidableEq, Repr

/-- The immediate of an SI instruction: imm11, imm32 or a literal (R272, R275). -/
inductive SImm where
  | i11 (v : BitVec 11)
  | i32 (v : Word32)
  | lit (v : Word64)
deriving DecidableEq, Repr

/-- A PC-relative word offset of slit and sadr: imm11 or imm32 (R275, R277). -/
inductive POff where
  | i11 (v : BitVec 11)
  | i32 (v : Word32)
deriving DecidableEq, Repr

/-- A branch's word offset: 14 bits in the base form, imm32 in the extended form (R284). -/
inductive BOff where
  | o14 (v : BitVec 14)
  | o32 (v : Word32)
deriving DecidableEq, Repr

/-- The second source of a vector instruction: a register, imm32 or a literal (R314). -/
inductive VOpd where
  | reg (r : VReg)
  | imm (v : Word32)
  | lit (v : Word64)
deriving DecidableEq, Repr

/-- The width of an integer element, in the order of ty2 (R269). -/
inductive IW where
  | w64 | w32 | w16 | w8
deriving DecidableEq, Repr

/-- A float element type, in the order of ty2 (R269). -/
inductive FTy where
  | f64 | f32 | bf16 | f16
deriving DecidableEq, Repr

/-- An element type as type5 encodes it (R271). -/
inductive Ty5 where
  | f64 | f32 | bf16 | f16 | e4m3 | e5m2 | n4
  | s64 | s32 | s16 | s8 | z64 | z32 | z16 | z8
deriving DecidableEq, Repr

/-- A rounding mode, rnd3 000 to 100 (R246). -/
inductive Rnd where
  | rne | rtz | rup | rdn | rna
deriving DecidableEq, Repr

/-- Destination, two sources and execution mask of a vector instruction (R267, R270). -/
structure VBin where
  d : VReg
  a : VReg
  b : VOpd
  k : KReg
deriving DecidableEq, Repr

/-- Destination, source and execution mask of a unary vector instruction. -/
structure VUn where
  d : VReg
  a : VReg
  k : KReg
deriving DecidableEq, Repr

/-- Destination, two register sources and execution mask (R336). -/
structure VTri where
  d : VReg
  a : VReg
  b : VReg
  k : KReg
deriving DecidableEq, Repr

/-- The value operand of vli: an immediate under a type5, or a literal (R317). -/
inductive VLiVal where
  | imm (t : Ty5) (v : Word32)
  | lit (v : Word64)
deriving DecidableEq, Repr

/-- vpack's saturation: none, to the signed or to the unsigned range (R348). -/
inductive Sat where
  | off | toS | toZ
deriving DecidableEq, Repr

/-- Ordering, scope and hint of a memory instruction, as word 2 codes them (R358). -/
structure MemQ where
  ord : BitVec 2
  scope : BitVec 3
  hint : BitVec 2
deriving DecidableEq, Repr

/-- The operation fields of an atomic (R358, R364). -/
structure AtOp where
  aop : BitVec 4
  w64 : Bool
  nr : Bool
  r : Rnd
  off : BitVec 21
  ord : BitVec 2
  scope : BitVec 3
deriving DecidableEq, Repr

/-- The length operand of cpy: a register, or LEN24 of the extended form (R378, R379). -/
inductive CpyLen where
  | reg (b : SReg)
  | imm (n : BitVec 24)
deriving DecidableEq, Repr

/-- What a matrix step carries beyond its base form: the two scale registers and the rounding mode (R396). -/
inductive MxForm where
  | base
  | ext (sa sb : VReg) (r : Rnd)
deriving DecidableEq, Repr

end Sys2Proof
end

