-- ==== Sys2Proof/Syntax.lean ====
section
/-! DEFINITION. The steps of the PX-860, one constructor of Instr per row of the opcode table: the instructions with
their operands (base and extended form of one function are one constructor), and the device's events (messages, engine
progress, timers, queue and admin commands, management requests). An event has no words; what it carries is the Event
that stands first in State.agenda, which step puts into State.ev when the event comes up. -/
namespace Sys2Proof

/-- One constructor per row of the opcode table. DEDUCED, log 39. -/
inductive Instr where
  -- scalar integer, OP7 0x01 (R293 to R295)
  | sadd (d a : SReg) (b : SOpd)
  | ssub (d a : SReg) (b : SOpd)
  | smul (d a : SReg) (b : SOpd)
  | smulh_s (d a : SReg) (b : SOpd)
  | smulh_z (d a : SReg) (b : SOpd)
  | sdiv_s (d a : SReg) (b : SOpd)
  | sdiv_z (d a : SReg) (b : SOpd)
  | srem_s (d a : SReg) (b : SOpd)
  | srem_z (d a : SReg) (b : SOpd)
  | sand (d a : SReg) (b : SOpd)
  | sor (d a : SReg) (b : SOpd)
  | sxor (d a : SReg) (b : SOpd)
  | sandn (d a : SReg) (b : SOpd)
  | sshl (d a : SReg) (b : SOpd)
  | sshr (d a : SReg) (b : SOpd)
  | ssra (d a : SReg) (b : SOpd)
  | srol (d a : SReg) (b : SOpd)
  | smin_s (d a : SReg) (b : SOpd)
  | smin_z (d a : SReg) (b : SOpd)
  | smax_s (d a : SReg) (b : SOpd)
  | smax_z (d a : SReg) (b : SOpd)
  | sclz (d a : SReg)
  | sctz (d a : SReg)
  | spopc (d a : SReg)
  | sbrev (d a : SReg)
  | sbswap (d a : SReg)
  | smov (d a : SReg)
  | sbfx_s (d a : SReg) (pos len1 : BitVec 6)
  | sbfx_z (d a : SReg) (pos len1 : BitVec 6)
  | sbfi (d a : SReg) (pos len1 : BitVec 6)
  -- scalar compare, OP7 0x02 (R297)
  | scmp_eq (d a : SReg) (b : SOpd)
  | scmp_ne (d a : SReg) (b : SOpd)
  | scmp_lt (d a : SReg) (b : SOpd)
  | scmp_le (d a : SReg) (b : SOpd)
  | scmp_ltz (d a : SReg) (b : SOpd)
  | scmp_lez (d a : SReg) (b : SOpd)
  | ssel (d a : SReg) (b : SOpd)
  -- scalar immediate, OP7 0x03 to 0x0D (R275, R276, R280, R296)
  | sadd_imm (d a : SReg) (i : SImm)
  | sand_imm (d a : SReg) (i : SImm)
  | sor_imm (d a : SReg) (i : SImm)
  | sxor_imm (d a : SReg) (i : SImm)
  | sshl_imm (d a : SReg) (i : SImm)
  | sshr_imm (d a : SReg) (i : SImm)
  | ssra_imm (d a : SReg) (i : SImm)
  | sli (d : SReg) (i : SImm)
  | sfadd_code (t : FTy) (d a : SReg) (c : BitVec 8)
  | sfmul_code (t : FTy) (d a : SReg) (c : BitVec 8)
  | slit (d : SReg) (o : POff)
  | sadr (d : SReg) (o : POff)
  -- scalar float, OP7 0x0E, 0x0F (R298 to R301)
  | sfadd (t : FTy) (r : Rnd) (d a : SReg) (b : SOpd)
  | sfsub (t : FTy) (r : Rnd) (d a : SReg) (b : SOpd)
  | sfmul (t : FTy) (r : Rnd) (d a : SReg) (b : SOpd)
  | sfdiv (t : FTy) (r : Rnd) (d a : SReg) (b : SOpd)
  | sfsqrt (t : FTy) (r : Rnd) (d a : SReg)
  | sfma (t : FTy) (r : Rnd) (d a : SReg) (b : SOpd) (c : SReg)
  | sfcvt (dst src : Ty5) (r : Rnd) (d a : SReg)
  | sfcmp (c : BitVec 3) (t : FTy) (d a : SReg) (b : SOpd)
  -- branches, calls, loops, pauses (R302 to R308)
  | b (o : BOff)
  | bz (a : SReg) (o : BOff)
  | bnz (a : SReg) (o : BOff)
  | bc_lt (a : SReg) (o : BOff)
  | bc_ge (a : SReg) (o : BOff)
  | bc_gt (a : SReg) (o : BOff)
  | bc_le (a : SReg) (o : BOff)
  | bk_any (k : KReg) (o : BOff)
  | bk_all (k : KReg) (o : BOff)
  | bk_none (k : KReg) (o : BOff)
  | call (o : BOff)
  | bx (a : SReg)
  | ret
  | sloop (a : SReg) (o : BOff)
  | nop
  | yield
  | sleep (a : SReg)
  | exit
  -- masks (R309, R310)
  | kand (d a b : KReg)
  | kor (d a b : KReg)
  | kxor (d a b : KReg)
  | kandn (d a b : KReg)
  | knot (d a : KReg)
  | kmov (d a : KReg)
  | kexit (a : KReg)
  | kset (d : KReg) (a : SReg)
  | kget (d : SReg) (a : KReg)
  | kpopc (d : SReg) (a : KReg)
  | kffs (d : SReg) (a : KReg)
  -- vector integer, OP7 0x18 to 0x2F (R315 to R320)
  | vadd (w : IW) (o : VBin)
  | vsub (w : IW) (o : VBin)
  | vadds_s (w : IW) (o : VBin)
  | vadds_z (w : IW) (o : VBin)
  | vsubs_s (w : IW) (o : VBin)
  | vsubs_z (w : IW) (o : VBin)
  | vmul (w : IW) (o : VBin)
  | vmulh_s (w : IW) (o : VBin)
  | vmulh_z (w : IW) (o : VBin)
  | vmad (w : IW) (o : VBin) (c : VReg)
  | vand (o : VBin)
  | vor (o : VBin)
  | vxor (o : VBin)
  | vandn (o : VBin)
  | vshl (w : IW) (o : VBin)
  | vshr (w : IW) (o : VBin)
  | vsra (w : IW) (o : VBin)
  | vmin_s (w : IW) (o : VBin)
  | vmin_z (w : IW) (o : VBin)
  | vmax_s (w : IW) (o : VBin)
  | vmax_z (w : IW) (o : VBin)
  | vcmp (c : BitVec 3) (w : IW) (kd : KReg) (a : VReg) (b : VOpd) (k : KReg)
  | vnot (o : VUn)
  | vabs (w : IW) (o : VUn)
  | vneg (w : IW) (o : VUn)
  | vclz (w : IW) (o : VUn)
  | vpopc (w : IW) (o : VUn)
  | vmov (o : VUn)
  | viota (w : IW) (d : VReg) (k : KReg)
  | vli (d : VReg) (v : VLiVal) (k : KReg)
  | vbfx_s (w : IW) (o : VUn) (pos len1 : BitVec 6)
  | vbfx_z (w : IW) (o : VUn) (pos len1 : BitVec 6)
  | vbfi (w : IW) (o : VUn) (pos len1 : BitVec 6)
  | vsel (o : VBin) (c : VReg)
  -- vector float, OP7 0x30 to 0x3F (R321 to R332)
  | vfadd (t : FTy) (r : Rnd) (o : VBin)
  | vfsub (t : FTy) (r : Rnd) (o : VBin)
  | vfmul (t : FTy) (r : Rnd) (o : VBin)
  | vfdiv (t : FTy) (r : Rnd) (o : VBin)
  | vfma (t : FTy) (r : Rnd) (o : VBin) (c : VReg)
  | vfms (t : FTy) (r : Rnd) (o : VBin) (c : VReg)
  | vfnma (t : FTy) (r : Rnd) (o : VBin) (c : VReg)
  | vfnms (t : FTy) (r : Rnd) (o : VBin) (c : VReg)
  | vfmin (t : FTy) (o : VBin)
  | vfmax (t : FTy) (o : VBin)
  | vfminnum (t : FTy) (o : VBin)
  | vfmaxnum (t : FTy) (o : VBin)
  | vfcpys (t : FTy) (o : VBin)
  | vfcmp (c : BitVec 3) (t : FTy) (kd : KReg) (a : VReg) (b : VOpd) (k : KReg)
  | vfabs (t : FTy) (o : VUn)
  | vfneg (t : FTy) (o : VUn)
  | vfsqrt (t : FTy) (r : Rnd) (o : VUn)
  | vfrcp (t : FTy) (r : Rnd) (o : VUn)
  | vfrsq (t : FTy) (r : Rnd) (o : VUn)
  | vfexp2 (t : FTy) (r : Rnd) (o : VUn)
  | vflog2 (t : FTy) (r : Rnd) (o : VUn)
  | vfsinpi (t : FTy) (r : Rnd) (o : VUn)
  | vfcospi (t : FTy) (r : Rnd) (o : VUn)
  | vftanh (t : FTy) (r : Rnd) (o : VUn)
  | vfrnd (t : FTy) (r : Rnd) (o : VUn)
  | vfclass (t : FTy) (o : VUn)
  | vfcvt (dst src : Ty5) (nsat : Bool) (r : Rnd) (o : VUn) (part : BitVec 4) (q seg : BitVec 2) (sc : VReg)
  | vfdot2 (t : FTy) (r : Rnd) (o : VBin) (c : VReg)
  | vfscale (t : FTy) (r : Rnd) (o : VBin)
  -- cross-lane, OP7 0x40 to 0x4C (R337 to R351)
  | vshf_o (w : IW) (o : VTri) (sg : BitVec 4)
  | vshf_w (w : IW) (o : VTri) (sg : BitVec 4)
  | vshf_c (w : IW) (o : VTri) (sg : BitVec 4)
  | vnbr (f : BitVec 3) (w : IW) (o : VUn) (dist : BitVec 9)
  | vbcast (w : IW) (o : VUn) (b : SReg) (sg : BitVec 4)
  | vvote (f : BitVec 2) (o : VUn)
  | vred (f : BitVec 4) (t : BitVec 2) (r : Rnd) (o : VUn)
  | vscan_inc (f : BitVec 4) (t : BitVec 2) (r : Rnd) (o : VUn) (c : VReg)
  | vscan_exc (f : BitVec 4) (t : BitVec 2) (r : Rnd) (o : VUn) (c : VReg)
  | vperm (o : VTri) (c : VReg)
  | vpack (w : IW) (sat : Sat) (o : VTri)
  | vunpk (w : IW) (sx : Bool) (part : BitVec 1) (o : VUn)
  | vxshf (o : VUn) (b : SReg)
  -- memory, OP7 0x50 to 0x5F (R353 to R370)
  | ld_s (d a : SReg) (w : IW) (sx : Bool) (off : BitVec 21) (q : MemQ)
  | st_s (d a : SReg) (w : IW) (off : BitVec 21) (q : MemQ)
  | ld_v (d : VReg) (a : SReg) (k : KReg) (off : BitVec 21) (q : MemQ)
  | st_v (d : VReg) (a : SReg) (k : KReg) (off : BitVec 21) (q : MemQ)
  | ld_g (d a : VReg) (w : IW) (sx : Bool) (k : KReg) (off : BitVec 21) (q : MemQ)
  | st_g (d a : VReg) (w : IW) (k : KReg) (off : BitVec 21) (q : MemQ)
  | ld_x (am : BitVec 2) (d a : VReg) (w : IW) (sx : Bool) (k : KReg) (off : BitVec 21) (q : MemQ)
  | st_x (am : BitVec 2) (d a : VReg) (w : IW) (k : KReg) (off : BitVec 21) (q : MemQ)
  | pf (l2 : Bool) (lanes : Bool) (a : VReg) (k : KReg) (off : BitVec 21)
  | at_s (o : AtOp) (d a b c : SReg)
  | at_g (o : AtOp) (d a b c : VReg) (k : KReg)
  | at_x (am : BitVec 2) (o : AtOp) (d a b c : VReg) (k : KReg)
  | fence (kind : BitVec 2) (scope : BitVec 3)
  | cwb (a b : SReg)
  | cinv (a b : SReg)
  | smap (d a b c : SReg)
  | sunmap (d a : SReg)
  -- copies, byte barriers, waits, queue window, OP7 0x60 to 0x67 (R373 to R386)
  | cpy (dir : BitVec 2) (d a : SReg) (n : CpyLen) (r : SReg)
  | cpyt_ld (d a b : SReg)
  | cpyt_st (d a b : SReg)
  | cpym (sx : Bool) (d a b r : SReg)
  | cpyg (d a b r : SReg)
  | bbinit (a b : SReg)
  | bbexp (a b : SReg)
  | bbseal (a : SReg)
  | bbwait (d a b : SReg)
  | waitc (ld st cp mx : BitVec 6)
  | waitp (c : BitVec 2) (a : SReg)
  | qpush (v : VReg)
  | qpop (v : VReg)
  | qstat (d : SReg)
  -- matrix, OP7 0x68 to 0x6F (R388 to R405)
  | tidset (v : VReg) (t : BitVec 8)
  | tidget (v : VReg) (t : BitVec 8)
  | mxzero (a : AReg)
  | mxstep (a : AReg) (t c : SReg) (f : MxForm)
  | mxloop (a : AReg) (t c n : SReg) (f : MxForm)
  | mxfence (d : SReg)
  | mxwait (a : SReg)
  | lda (v : VReg) (a : AReg) (k : KReg)
  | sta (v : VReg) (a : AReg) (k : KReg)
  -- progress, windows, tasks, system, OP7 0x70 to 0x7E (R407 to R430)
  | bar_arr (d : SReg) (b : BitVec 6)
  | bar_wait (a : SReg) (b : BitVec 6)
  | bar_setm (a : SReg) (b : BitVec 6)
  | fwait_pass (d a b : SReg)
  | fwait_reach (d a b : SReg)
  | pinc (a b c : SReg)
  | pdec (a b c : SReg)
  | pmove (a b c : SReg)
  | wemit (v : VReg) (b : SReg) (k : KReg)
  | wsend (v : VReg) (a b : SReg) (k : KReg)
  | wclose (k : KReg)
  | winfo (d : VReg) (k : KReg)
  | launch_child (d a : SReg)
  | jobput (d a : SReg)
  | wait_v (d a b : SReg)
  | wake (a : SReg)
  | bow_get (d : SReg)
  | bow_pass
  | safe (i : Word32)
  | sigchk (i : Word32)
  | sigrd (d : SReg)
  | trap (i : BitVec 16)
  | bkpt (i : BitVec 16)
  | retf
  | mappg (d a b : SReg)
  | unmappg (d a : SReg)
  | rgrel (a b : SReg)
  | tunack (d a : SReg)
  | scan_run (d a b : SReg)
  | srd (d : SReg) (g : BitVec 8)
  | swr (a : SReg) (g : BitVec 8)
  -- words outside the opcode map (R281)
  | ill (w : Word32)
  -- fault deliveries and engines
  | parked_fault_delivery
  | eccu_delivery
  | park
  | copy_progress
  | barrier_update
  | matrix_step
  | transfer_finish
  -- messages of the registration protocol: core numbers are cluster*256 + core, sectors are PA bits 51:7
  | rds
  | rego
  | wt
  | wb
  | atom
  | fwdrd
  | rvk
  | fill
  | fwddata
  | rvkdata
  | atomrsp
  | regack
  | wtack
  | wback
  | retry
  | region_home_lookup
  | refused_message_reoffer
  -- host ports, expanders, base dies
  | memrd
  | memwr
  | birsp
  | biconflict
  | snpdata
  | snpinv
  | snpcur
  | cxl_cache_data
  | expander_memrd_data
  -- progress units, peers
  | batch
  | frontier_announcement
  | fret_forward
  | batch_acknowledgement
  | peer_flit
  | peer_batch
  | peer_batch_ack
  | link_retrain
  | exchange_restore
  -- window engines
  | window_engine_step
  | window_group_start
  | window_group_timeout
  | peg_load
  -- dispatch
  | team_start
  | part_start
  | part_exit
  | job_chunk_deal
  | bow_receive
  -- timers
  | urgent
  | yield_expiry
  | sleep_expiry
  | vnbr_timeout
  | vxshf_timeout
  | forced_save
  -- tuning, scan, recovery
  | tuning_event
  | tune_deadline
  | scan_pattern_start
  | scan_compare
  | pair_mismatch
  | patrol_scrub
  -- records, doorbells, commands
  | fault_record
  | completion_record
  | doorbell
  | launch
  | job
  | stream_put
  | stream_advance
  | wait_stamp
  | signal
  | xfer
  | pin
  | tune_ack
  | ctx_create
  | ctx_destroy
  | q_create
  | q_destroy
  | stream_reset
  | park_resume
  | preempt
  | resume
  | checkpoint
  -- start-up and management
  | start
  | start_watchdog
  | fails_clear
  | admin_queue_create
  | fault_ring_set
  | tenant_reset
  | context_pairing
  | get_version
  | get_capabilities
  | negotiate_algorithms
  | get_digests
  | get_certificate
  | challenge
  | get_measurements
  | base_die_reply
  | host_port_completion
  | pcie_host_access
  | checkpoint_stream_end
deriving DecidableEq, Repr

end Sys2Proof
end

