-- ==== Sys2Proof/WellFormed.lean ====
section
/-! DEFINITION. Which operands an encoding can carry (R269 to R274, R282 and the encoding sections): the checks that the
operand types do not already make. -/
namespace Sys2Proof

def IW.width : IW → Nat
  | .w64 => 64
  | .w32 => 32
  | .w16 => 16
  | .w8 => 8

def SImm.isLit : SImm → Bool
  | .lit _ => true
  | _ => false

def VOpd.isImm : VOpd → Bool
  | .imm _ => true
  | _ => false

/-- A qualifier of R358 and R359. -/
def MemQ.wf (q : MemQ) (store scratch : Bool) : Bool :=
  decide (q.scope.toNat < 5) && decide (q.hint.toNat < 3) && (q.ord != 0 || q.scope == 0) && q.ord != 3
    && (if store then q.ord != 1 else q.ord != 2) && (!scratch || q.hint == 0)

/-- An atomic's fields (R358, R359, R364); only fadd carries a rounding mode, NR leaves no destination. -/
def AtOp.wf (o : AtOp) (dZero cZero : Bool) : Bool :=
  decide (o.aop.toNat < 12) && decide (o.scope.toNat < 5) && (o.ord != 0 || o.scope == 0)
    && (o.aop == 11 || o.r == .rne) && (!o.nr || dZero) && (o.aop == 10 || cZero)

/-- The scratch forms' address mode: AM 00 names scalar registers and takes no mask (R357, R358). -/
def amWf (am : BitVec 2) (d a : VReg) (k : KReg) : Bool :=
  am != 3 && (am != 0 || (decide (d.toNat < 64) && decide (a.toNat < 64) && k == 0)) && (am != 1 || decide (a.toNat < 64))

/-- Rounding modes are carried by fadd and aff only, and the base form of a register c by aff only (R336, R343). -/
def redWf (f : BitVec 4) (r : Rnd) (c : VReg) (scan : Bool) : Bool :=
  (if scan then decide (f.toNat < 12) else decide (f.toNat < 11)) && (f == 1 || f == 11 || r == .rne) && (f == 11 || c == 0)

def IW.logN : IW → Nat
  | .w64 => 5
  | .w32 => 6
  | .w16 => 7
  | .w8 => 8

def Ty5.isF : Ty5 → Bool
  | .f64 | .f32 | .bf16 | .f16 => true
  | _ => false

def Ty5.isF8 : Ty5 → Bool
  | .e4m3 | .e5m2 => true
  | _ => false

def Ty5.isI : Ty5 → Bool
  | .s64 | .s32 | .s16 | .s8 | .z64 | .z32 | .z16 | .z8 => true
  | _ => false

def Ty5.width : Ty5 → Nat
  | .f64 | .s64 | .z64 => 64
  | .f32 | .s32 | .z32 => 32
  | .bf16 | .f16 | .s16 | .z16 => 16
  | .e4m3 | .e5m2 | .s8 | .z8 => 8
  | .n4 => 4

/-- The pairs of R329. -/
def cvtPair (dst src : Ty5) : Bool :=
  dst.isF || (dst.isF8 && (src.isF || src.isF8)) || (dst == .n4 && src.isF) || (dst.isI && src.isF)

/-- Well-formedness: what R283's encoding check asks of the operands. Events carry no encoding. -/
def Instr.wf (i : Instr) : Bool :=
  match i with
  | .sbfx_s _ _ p l | .sbfx_z _ _ p l | .sbfi _ _ p l => decide (p.toNat + l.toNat < 64)
  | .sfcvt dst src _ _ _ => (dst.isF && (src.isF || src.isI)) || (dst.isI && src.isF)
  | .sloop a _ => a != 0
  | .vcmp c _ _ _ _ _ => decide (c.toNat < 6)
  | .vli _ v _ => match v with
    | .imm t _ => t != .n4
    | .lit _ => true
  | .vbfx_s w _ p l | .vbfx_z w _ p l | .vbfi w _ p l => decide (p.toNat + l.toNat < w.width)
  | .vfexp2 t _ _ | .vflog2 t _ _ | .vfsinpi t _ _ | .vfcospi t _ _ | .vftanh t _ _ => t != .f64
  | .vfcvt dst src nsat _ _ part q seg sc =>
    cvtPair dst src && decide (part.toNat < Nat.max dst.width src.width / Nat.min dst.width src.width)
      && (dst == .n4 || src == .n4 || (q == 0 && seg == 0 && sc == 0)) && (!nsat || dst.isF8)
  | .vfdot2 t _ o _ => t != .f64 && !o.b.isImm
  | .vfscale _ _ o => !o.b.isImm
  | .vshf_o w _ sg | .vshf_w w _ sg | .vshf_c w _ sg | .vbcast w _ _ sg => decide (sg.toNat ≤ w.logN)
  | .vnbr f w _ d => decide (f.toNat < 6) && decide (d.toNat ≤ 2 ^ w.logN)
  | .vvote f _ => f != 3
  | .vred f _ r _ => redWf f r 0 false
  | .vscan_inc f _ r _ c | .vscan_exc f _ r _ c => redWf f r c true
  | .vpack w _ _ => w != .w8
  | .vunpk w _ _ _ => w != .w64
  | .ld_s _ _ _ _ _ q | .ld_v _ _ _ _ q | .ld_g _ _ _ _ _ _ q => q.wf false false
  | .st_s _ _ _ _ q | .st_v _ _ _ _ q | .st_g _ _ _ _ _ q => q.wf true false
  | .ld_x am d a w s k _ q => q.wf false true && amWf am d a k && (am != 1 || (w == .w64 && !s))
  | .st_x am d a w k _ q => q.wf true true && amWf am d a k && (am != 1 || w == .w64)
  | .pf _ lanes a k _ => lanes || (decide (a.toNat < 64) && k == 0)
  | .at_s o d _ _ c => o.wf (d == 0) (c == 0)
  | .at_g o d _ _ c _ => o.wf (d == 0) (c == 0)
  | .at_x am o d a bb c k =>
    o.wf (d == 0) (c == 0) && (am == 2 || (am == 0 && decide (d.toNat < 64) && decide (a.toNat < 64) && decide (bb.toNat < 64)
      && decide (c.toNat < 64) && k == 0))
  | .fence _ s => decide (s.toNat < 5)
  | .cpy _ _ _ n r => n != .reg 0 || decide (r.toNat < 8)
  | .ill w => let op := w.extractLsb' 23 7
    op == (0 : BitVec 7) || op == 0x7F || op == 0x4D || op == 0x4E || op == 0x4F || op == 0x7B
  | _ => true

/-- Whether a row is an instruction of the opcode map, with words of its own, and no event. -/
def Instr.isEvent (i : Instr) : Bool :=
  match i with
  | .parked_fault_delivery | .eccu_delivery | .park | .copy_progress | .barrier_update | .matrix_step
  | .transfer_finish | .rds | .rego | .wt | .wb | .atom | .fwdrd | .rvk | .fill | .fwddata
  | .rvkdata | .atomrsp | .regack | .wtack | .wback | .retry | .region_home_lookup
  | .refused_message_reoffer | .memrd | .memwr | .birsp | .biconflict | .snpdata | .snpinv | .snpcur
  | .cxl_cache_data | .expander_memrd_data | .batch | .frontier_announcement | .fret_forward
  | .batch_acknowledgement | .peer_flit | .peer_batch | .peer_batch_ack | .link_retrain | .exchange_restore
  | .window_engine_step | .window_group_start | .window_group_timeout | .peg_load | .team_start
  | .part_start | .part_exit | .job_chunk_deal | .bow_receive | .urgent | .yield_expiry | .sleep_expiry
  | .vnbr_timeout | .vxshf_timeout | .forced_save | .tuning_event | .tune_deadline | .scan_pattern_start
  | .scan_compare | .pair_mismatch | .patrol_scrub | .fault_record | .completion_record | .doorbell
  | .launch | .job | .stream_put | .stream_advance | .wait_stamp | .signal | .xfer | .pin
  | .tune_ack | .ctx_create | .ctx_destroy | .q_create | .q_destroy | .stream_reset | .park_resume
  | .preempt | .resume | .checkpoint | .start | .start_watchdog | .fails_clear | .admin_queue_create
  | .fault_ring_set | .tenant_reset | .context_pairing | .get_version | .get_capabilities
  | .negotiate_algorithms | .get_digests | .get_certificate | .challenge | .get_measurements | .base_die_reply
  | .host_port_completion | .pcie_host_access | .checkpoint_stream_end => true
  | _ => false

end Sys2Proof
end

