-- ==== Sys2Proof/Decode.lean ====
section
/-! DEFINITION. From instruction words to instructions and back (R264 to R282 and each class's encoding section).
The decoder is total: a word it does not accept is refused by name, and the step raises F_ILLOP for it (R283). -/
namespace Sys2Proof

/-- Why the decoder refuses. Both are F_ILLOP in the encoding check of R283, but for `truncated`, which only a caller
that gives too few words meets. -/
inductive DecodeError where
  | truncated
  | encoding (op : BitVec 7)
deriving DecidableEq, Repr

/-- n bits of a word from bit lo up. -/
def fld {w : Nat} (x : BitVec w) (lo n : Nat) : BitVec n := x.extractLsb' lo n

def chk (b : Bool) (i : Instr) : Option Instr := if b then some i else none

def opOf (w : Word32) : BitVec 7 := fld w 23 7
def lenOf (w : Word32) : BitVec 2 := fld w 30 2

/-- The number of words LEN gives (R264). -/
def wordsOf (w : Word32) : Nat :=
  match (lenOf w).toNat with
  | 0 => 1
  | 3 => 5
  | _ => 3

/-! ### Fields -/

def f22 (w : Word32) : BitVec 6 := fld w 17 6
def f16 (w : Word32) : BitVec 6 := fld w 11 6
def f10 (w : Word32) : BitVec 6 := fld w 5 6
def fn5 (w : Word32) : BitVec 5 := fld w 0 5
def fImm (w : Word32) : BitVec 11 := fld w 0 11
def fOff (w : Word32) : BitVec 14 := fld w 0 14
def fCond (w : Word32) : BitVec 3 := fld w 14 3
def fMask (w : Word32) : KReg := (fld w 2 3).zeroExtend 4
def fTy2 (w : Word32) : BitVec 2 := fld w 0 2
def xD (w0 : Word32) : BitVec 10 := fld w0 13 10
def xA (w0 : Word32) : BitVec 10 := fld w0 3 10
def xF (w0 : Word32) : BitVec 3 := fld w0 0 3
def xB (w1 : Word32) : BitVec 10 := fld w1 22 10
def xC (w1 : Word32) : BitVec 10 := fld w1 12 10
def xT (w1 : Word32) : BitVec 5 := fld w1 7 5
def xK (w1 : Word32) : KReg := fld w1 3 4
def xR (w1 : Word32) : BitVec 3 := fld w1 0 3

/-- A 10-bit field that names a scalar register: bits 9:6 are reserved (R270). -/
def sOk (f : BitVec 10) : Bool := fld f 6 4 == 0
def sOf (f : BitVec 10) : SReg := fld f 0 6
/-- A 10-bit field that names a mask register: bits 9:4 are reserved (R270). -/
def kOk (f : BitVec 10) : Bool := fld f 4 6 == 0
def kOf (f : BitVec 10) : KReg := fld f 0 4
/-- A 6-bit field that names a mask register: bits 5:4 are reserved (R268). -/
def k6Ok (f : BitVec 6) : Bool := fld f 4 2 == 0
def k6Of (f : BitVec 6) : KReg := fld f 0 4
def v6 (f : BitVec 6) : VReg := f.zeroExtend 10

def iwOf (t : BitVec 2) : IW :=
  match t.toNat with
  | 0 => .w64
  | 1 => .w32
  | 2 => .w16
  | _ => .w8

def ftyOf (t : BitVec 2) : FTy :=
  match t.toNat with
  | 0 => .f64
  | 1 => .f32
  | 2 => .bf16
  | _ => .f16

/-- The W field of memory instructions: 00 8 bits to 11 64 bits (R357). -/
def memW (t : BitVec 2) : IW := iwOf (3 - t)

/-- Table of R271. -/
def ty5Of (t : BitVec 5) : Option Ty5 :=
  match t.toNat with
  | 0 => some .f64
  | 1 => some .f32
  | 2 => some .bf16
  | 3 => some .f16
  | 4 => some .e4m3
  | 5 => some .e5m2
  | 6 => some .n4
  | 8 => some .s64
  | 9 => some .s32
  | 10 => some .s16
  | 11 => some .s8
  | 12 => some .z64
  | 13 => some .z32
  | 14 => some .z16
  | 15 => some .z8
  | _ => none

/-- An integer type5 as width and signedness (true: an s type). -/
def intTy (t : BitVec 5) : Option (IW × Bool) :=
  match t.toNat with
  | 8 => some (.w64, true)
  | 9 => some (.w32, true)
  | 10 => some (.w16, true)
  | 11 => some (.w8, true)
  | 12 => some (.w64, false)
  | 13 => some (.w32, false)
  | 14 => some (.w16, false)
  | 15 => some (.w8, false)
  | _ => none

/-- A float type5 of the arithmetic types. -/
def fltTy (t : BitVec 5) : Option FTy :=
  match t.toNat with
  | 0 => some .f64
  | 1 => some .f32
  | 2 => some .bf16
  | 3 => some .f16
  | _ => none

def rndOf (r : BitVec 3) : Option Rnd :=
  match r.toNat with
  | 0 => some .rne
  | 1 => some .rtz
  | 2 => some .rup
  | 3 => some .rdn
  | 4 => some .rna
  | _ => none

/-! ### Scalar classes -/

abbrev Lit := Option Word64

/-- sb of an SB word: a register, or the literal with sb zero (R274). -/
def sopd6 (f : BitVec 6) : Lit → Option SOpd
  | none => some (.reg f)
  | some v => if f == 0 then some (.lit v) else none

def sopd10 (f : BitVec 10) : Lit → Option SOpd
  | none => if sOk f then some (.reg (sOf f)) else none
  | some v => if f == 0 then some (.lit v) else none

/-- Binary functions of OP7 0x01 and 0x02 (R282). -/
def intBin (op fn : Nat) : Option (SReg → SReg → SOpd → Instr) :=
  match op, fn with
  | 1, 0 => some .sadd
  | 1, 1 => some .ssub
  | 1, 2 => some .smul
  | 1, 3 => some .smulh_s
  | 1, 4 => some .smulh_z
  | 1, 5 => some .sdiv_s
  | 1, 6 => some .sdiv_z
  | 1, 7 => some .srem_s
  | 1, 8 => some .srem_z
  | 1, 9 => some .sand
  | 1, 10 => some .sor
  | 1, 11 => some .sxor
  | 1, 12 => some .sandn
  | 1, 13 => some .sshl
  | 1, 14 => some .sshr
  | 1, 15 => some .ssra
  | 1, 16 => some .srol
  | 1, 17 => some .smin_s
  | 1, 18 => some .smin_z
  | 1, 19 => some .smax_s
  | 1, 20 => some .smax_z
  | 2, 0 => some .scmp_eq
  | 2, 1 => some .scmp_ne
  | 2, 2 => some .scmp_lt
  | 2, 3 => some .scmp_le
  | 2, 4 => some .scmp_ltz
  | 2, 5 => some .scmp_lez
  | 2, 6 => some .ssel
  | _, _ => none

/-- Unary functions of OP7 0x01. -/
def intUn (op fn : Nat) : Option (SReg → SReg → Instr) :=
  match op, fn with
  | 1, 21 => some .sclz
  | 1, 22 => some .sctz
  | 1, 23 => some .spopc
  | 1, 24 => some .sbrev
  | 1, 25 => some .sbswap
  | 1, 26 => some .smov
  | _, _ => none

/-- Bit-field functions of OP7 0x01, extended form only. -/
def intBf (op fn : Nat) : Option (SReg → SReg → BitVec 6 → BitVec 6 → Instr) :=
  match op, fn with
  | 1, 27 => some .sbfx_s
  | 1, 28 => some .sbfx_z
  | 1, 29 => some .sbfi
  | _, _ => none

def decIntB (op : Nat) (w : Word32) (l : Lit) : Option Instr :=
  match intBin op (fn5 w).toNat, intUn op (fn5 w).toNat with
  | some f, _ => (sopd6 (f10 w) l).map (f (f22 w) (f16 w))
  | none, some f => chk (f10 w == 0 && l.isNone) (f (f22 w) (f16 w))
  | none, none => none

def decIntX (op : Nat) (w0 w1 w2 : Word32) (l : Lit) : Option Instr :=
  let fn := (fn5 w2).toNat
  let ok := sOk (xD w0) && sOk (xA w0) && xF w0 == 0 && fld w1 0 22 == 0
  let d := sOf (xD w0)
  let a := sOf (xA w0)
  match intBin op fn, intUn op fn, intBf op fn with
  | some f, _, _ => if ok && fld w2 5 27 == 0 then (sopd10 (xB w1) l).map (f d a) else none
  | none, some f, _ => chk (ok && fld w2 5 27 == 0 && xB w1 == 0 && l.isNone) (f d a)
  | none, none, some f =>
    let pos := fld w2 8 6
    let ln := fld w2 16 6
    chk (ok && xB w1 == 0 && l.isNone && fld w2 5 3 == 0 && fld w2 14 2 == 0 && fld w2 22 10 == 0
      && decide (pos.toNat + ln.toNat < 64)) (f d a pos ln)
  | none, none, none => none

/-- The immediates of OP7 0x03 to 0x0A (R275). -/
def siOp (op : Nat) : Option (SReg → SReg → SImm → Instr) :=
  match op with
  | 3 => some .sadd_imm
  | 4 => some .sand_imm
  | 5 => some .sor_imm
  | 6 => some .sxor_imm
  | 7 => some .sshl_imm
  | 8 => some .sshr_imm
  | 9 => some .ssra_imm
  | _ => none

def simm11 (v : BitVec 11) : Lit → Option SImm
  | none => some (.i11 v)
  | some x => if v == 0 then some (.lit x) else none

def simm32 (v : Word32) : Lit → Option SImm
  | none => some (.i32 v)
  | some x => if v == 0 then some (.lit x) else none

def decSiB (op : Nat) (w : Word32) (l : Lit) : Option Instr :=
  match siOp op, simm11 (fImm w) l with
  | some f, some i => some (f (f22 w) (f16 w) i)
  | none, some i => chk (op == 10 && f16 w == 0) (.sli (f22 w) i)
  | _, none => none

def decSiX (op : Nat) (w0 w1 w2 : Word32) (l : Lit) : Option Instr :=
  let ok := sOk (xD w0) && sOk (xA w0) && xF w0 == 0 && w1 == 0
  match siOp op, simm32 w2 l with
  | some f, some i => chk ok (f (sOf (xD w0)) (sOf (xA w0)) i)
  | none, some i => chk (ok && op == 10 && xA w0 == 0) (.sli (sOf (xD w0)) i)
  | _, none => none

/-- OP7 0x0B: a float code (R276). -/
def decCode (w : Word32) : Option Instr :=
  let t := ftyOf (fld w 9 2)
  if fld w 8 1 == 0 then some (.sfadd_code t (f22 w) (f16 w) (fld w 0 8))
  else some (.sfmul_code t (f22 w) (f16 w) (fld w 0 8))

def decPcB (op : Nat) (w : Word32) : Option Instr :=
  if op == 12 then chk (f16 w == 0) (.slit (f22 w) (.i11 (fImm w)))
  else chk (f16 w == 0) (.sadr (f22 w) (.i11 (fImm w)))

def decPcX (op : Nat) (w0 w1 w2 : Word32) : Option Instr :=
  let ok := sOk (xD w0) && xA w0 == 0 && xF w0 == 0 && w1 == 0
  if op == 12 then chk ok (.slit (sOf (xD w0)) (.i32 w2)) else chk ok (.sadr (sOf (xD w0)) (.i32 w2))

/-- Binary functions of OP7 0x0E (bits 4:2 of the function). -/
def sfBin (fn : Nat) : Option (FTy → Rnd → SReg → SReg → SOpd → Instr) :=
  match fn with
  | 0 => some .sfadd
  | 1 => some .sfsub
  | 2 => some .sfmul
  | 3 => some .sfdiv
  | _ => none

def decSfB (w : Word32) (l : Lit) : Option Instr :=
  let t := ftyOf (fld w 0 2)
  match sfBin (fld w 2 3).toNat with
  | some f => (sopd6 (f10 w) l).map (f t .rne (f22 w) (f16 w))
  | none => chk (fld w 2 3 == 4 && f10 w == 0 && l.isNone) (.sfsqrt t .rne (f22 w) (f16 w))

/-- Types sfcvt takes (R300): a float and an integer type, or two float types, among f64, f32, bf16, f16. -/
def sfcvtOk (dst src : Ty5) : Bool :=
  let f := fun t : Ty5 => match t with | .f64 | .f32 | .bf16 | .f16 => true | _ => false
  let n := fun t : Ty5 => match t with | .s64 | .s32 | .s16 | .s8 | .z64 | .z32 | .z16 | .z8 => true | _ => false
  (f dst && (f src || n src)) || (n dst && f src)

def decSfX (w0 w1 w2 : Word32) (l : Lit) : Option Instr :=
  let ok := sOk (xD w0) && sOk (xA w0) && xF w0 == 0 && xK w1 == 0 && fld w2 0 2 == 0
  let d := sOf (xD w0)
  let a := sOf (xA w0)
  let plain := ok && fld w2 5 27 == 0
  match rndOf (xR w1), fltTy (xT w1), sfBin (fld w2 2 3).toNat with
  | some r, some t, some f => if plain && xC w1 == 0 then (sopd10 (xB w1) l).map (f t r d a) else none
  | some r, ft, none =>
    if fld w2 2 3 == 4 then
      match ft with
      | some t => chk (plain && xB w1 == 0 && xC w1 == 0 && l.isNone) (.sfsqrt t r d a)
      | none => none
    else if fld w2 2 3 == 5 then
      match ft, sopd10 (xB w1) l with
      | some t, some b => chk (plain && sOk (xC w1)) (.sfma t r d a b (sOf (xC w1)))
      | _, _ => none
    else if fld w2 2 3 == 6 then
      match ty5Of (xT w1), ty5Of (fld w2 8 5) with
      | some dst, some src =>
        chk (ok && xB w1 == 0 && xC w1 == 0 && l.isNone && fld w2 5 3 == 0 && fld w2 13 19 == 0 && sfcvtOk dst src)
          (.sfcvt dst src r d a)
      | _, _ => none
    else none
  | _, _, _ => none

def decSfcmpB (w : Word32) (l : Lit) : Option Instr :=
  (sopd6 (f10 w) l).map (.sfcmp (fld w 2 3) (ftyOf (fld w 0 2)) (f22 w) (f16 w))

def decSfcmpX (w0 w1 w2 : Word32) (l : Lit) : Option Instr :=
  match fltTy (xT w1), sopd10 (xB w1) l with
  | some t, some b =>
    chk (sOk (xD w0) && sOk (xA w0) && xF w0 == 0 && xC w1 == 0 && xK w1 == 0 && xR w1 == 0 && fld w2 0 2 == 0
      && fld w2 5 27 == 0) (.sfcmp (fld w2 2 3) t (sOf (xD w0)) (sOf (xA w0)) b)
  | _, _ => none

/-- Branches by OP7, condition and register field (R282, R302). -/
def decBr (op : Nat) (cond : Nat) (a : BitVec 6) (o : BOff) : Option Instr :=
  match op, cond with
  | 16, 0 => chk (a == 0) (.b o)
  | 16, 1 => some (.bz a o)
  | 16, 2 => some (.bnz a o)
  | 16, 3 => some (.bc_lt a o)
  | 16, 4 => some (.bc_ge a o)
  | 16, 5 => some (.bc_gt a o)
  | 16, 6 => some (.bc_le a o)
  | 17, 0 => chk (k6Ok a) (.bk_any (k6Of a) o)
  | 17, 1 => chk (k6Ok a) (.bk_all (k6Of a) o)
  | 17, 2 => chk (k6Ok a) (.bk_none (k6Of a) o)
  | 18, 0 => chk (a == 0) (.call o)
  | 20, 0 => chk (a != 0) (.sloop a o)
  | _, _ => none

def decBrB (op : Nat) (w : Word32) : Option Instr :=
  decBr op (fCond w).toNat (f22 w) (.o14 (fOff w))

def decBrX (op : Nat) (w0 w1 w2 : Word32) : Option Instr :=
  if sOk (xA w0) && xD w0 == 0 && w1 == 0 then decBr op (xF w0).toNat (sOf (xA w0)) (.o32 w2) else none

/-- OP7 0x13, 0x15, 0x16, 0x17 from their three register fields and function (R282, R303, R306, R309). -/
def decSb (op fn : Nat) (d a b : BitVec 6) : Option Instr :=
  match op, fn with
  | 19, 0 => chk (d == 0 && b == 0) (.bx a)
  | 19, 1 => chk (d == 0 && a == 0 && b == 0) .ret
  | 21, 0 => chk (d == 0 && a == 0 && b == 0) .nop
  | 21, 1 => chk (d == 0 && a == 0 && b == 0) .yield
  | 21, 2 => chk (d == 0 && b == 0) (.sleep a)
  | 21, 3 => chk (d == 0 && a == 0 && b == 0) .exit
  | 22, 0 => chk (k6Ok d && k6Ok a && k6Ok b) (.kand (k6Of d) (k6Of a) (k6Of b))
  | 22, 1 => chk (k6Ok d && k6Ok a && k6Ok b) (.kor (k6Of d) (k6Of a) (k6Of b))
  | 22, 2 => chk (k6Ok d && k6Ok a && k6Ok b) (.kxor (k6Of d) (k6Of a) (k6Of b))
  | 22, 3 => chk (k6Ok d && k6Ok a && k6Ok b) (.kandn (k6Of d) (k6Of a) (k6Of b))
  | 22, 4 => chk (k6Ok d && k6Ok a && b == 0) (.knot (k6Of d) (k6Of a))
  | 22, 5 => chk (k6Ok d && k6Ok a && b == 0) (.kmov (k6Of d) (k6Of a))
  | 22, 6 => chk (d == 0 && k6Ok a && b == 0) (.kexit (k6Of a))
  | 23, 0 => chk (k6Ok d && b == 0) (.kset (k6Of d) a)
  | 23, 1 => chk (k6Ok a && b == 0) (.kget d (k6Of a))
  | 23, 2 => chk (k6Ok a && b == 0) (.kpopc d (k6Of a))
  | 23, 3 => chk (k6Ok a && b == 0) (.kffs d (k6Of a))
  | _, _ => none

def decSbB (op : Nat) (w : Word32) : Option Instr :=
  decSb op (fn5 w).toNat (f22 w) (f16 w) (f10 w)

def decSbX (op : Nat) (w0 w1 w2 : Word32) : Option Instr :=
  if sOk (xD w0) && sOk (xA w0) && sOk (xB w1) && xF w0 == 0 && fld w1 0 22 == 0 && fld w2 5 27 == 0 then
    decSb op (fn5 w2).toNat (sOf (xD w0)) (sOf (xA w0)) (sOf (xB w1))
  else none

/-! ### Vector classes -/

/-- vb of a VB word: a register, or the literal with vb zero. -/
def vopd6 (f : BitVec 6) : Lit → Option VOpd
  | none => some (.reg (v6 f))
  | some v => if f == 0 then some (.lit v) else none

/-- vb10 with IMM: a register, imm32 or a literal; what is replaced must be zero (R273, R274). -/
def vopdX (f : BitVec 10) (imm : Bool) (w2 : Word32) : Lit → Option VOpd
  | none => if imm then (if f == 0 then some (.imm w2) else none)
            else (if w2 == 0 then some (.reg f) else none)
  | some v => if f == 0 && !imm && w2 == 0 then some (.lit v) else none

/-- Integer operations that take any integer type, by OP7 (R315). -/
def viAny (op : Nat) : Option (IW → VBin → Instr) :=
  match op with
  | 0x18 => some .vadd
  | 0x19 => some .vsub
  | 0x1E => some .vmul
  | 0x26 => some .vshl
  | 0x27 => some .vshr
  | 0x28 => some .vsra
  | _ => none

/-- Integer operations that carry a signedness, with it (R315). -/
def viSgn (op : Nat) : Option (Bool × (IW → VBin → Instr)) :=
  match op with
  | 0x1A => some (true, .vadds_s)
  | 0x1B => some (false, .vadds_z)
  | 0x1C => some (true, .vsubs_s)
  | 0x1D => some (false, .vsubs_z)
  | 0x1F => some (true, .vmulh_s)
  | 0x20 => some (false, .vmulh_z)
  | 0x29 => some (true, .vmin_s)
  | 0x2A => some (false, .vmin_z)
  | 0x2B => some (true, .vmax_s)
  | 0x2C => some (false, .vmax_z)
  | _ => none

/-- Whole-lane operations (R269). -/
def viLane (op : Nat) : Option (VBin → Instr) :=
  match op with
  | 0x22 => some .vand
  | 0x23 => some .vor
  | 0x24 => some .vxor
  | 0x25 => some .vandn
  | _ => none

/-- Rounding float operations of two sources (R321). -/
def vfBin (op : Nat) : Option (FTy → Rnd → VBin → Instr) :=
  match op with
  | 0x30 => some .vfadd
  | 0x31 => some .vfsub
  | 0x32 => some .vfmul
  | 0x33 => some .vfdiv
  | _ => none

/-- Fused float operations (R321). -/
def vfTri (op : Nat) : Option (FTy → Rnd → VBin → VReg → Instr) :=
  match op with
  | 0x34 => some .vfma
  | 0x35 => some .vfms
  | 0x36 => some .vfnma
  | 0x37 => some .vfnms
  | _ => none

/-- Float operations that do not round (R322, R323). -/
def vfSel (op : Nat) : Option (FTy → VBin → Instr) :=
  match op with
  | 0x38 => some .vfmin
  | 0x39 => some .vfmax
  | 0x3A => some .vfminnum
  | 0x3B => some .vfmaxnum
  | 0x3C => some .vfcpys
  | _ => none

/-- The element type a signless or signed class takes in the extended form. -/
def ty5Sgn (t : BitVec 5) (sgn : Bool) : Option IW :=
  match intTy t with
  | some (w, s) => if s == sgn then some w else none
  | none => none

/-- OP7 0x18 to 0x2C, 0x2F and 0x30 to 0x3C on decoded operands. ty gives the integer width for a signedness the opcode
asks of it (none: any), ft the float type, whole whether the type field is zero, r the rounding mode. -/
def decVbin (op : Nat) (anyW : Option IW) (sgnW : Bool → Option IW) (ft : Option FTy) (whole : Bool) (rz : Bool)
    (r : Option Rnd) (cz : Bool) (c : VReg) (o : VBin) : Option Instr :=
  match viAny op, viSgn op, viLane op with
  | some f, _, _ => if rz && cz then anyW.map (fun w => f w o) else none
  | none, some (s, f), _ => if rz && cz then (sgnW s).map (fun w => f w o) else none
  | none, none, some f => chk (rz && cz && whole) (f o)
  | none, none, none =>
    if op == 0x21 then (if rz then anyW.map (fun w => .vmad w o c) else none)
    else if op == 0x2F then chk (rz && whole) (.vsel o c)
    else
      match vfBin op, vfTri op, vfSel op with
      | some f, _, _ => match ft, r with
        | some t, some m => chk cz (f t m o)
        | _, _ => none
      | none, some f, _ => match ft, r with
        | some t, some m => some (f t m o c)
        | _, _ => none
      | none, none, some f => match ft with
        | some t => chk (rz && cz) (f t o)
        | none => none
      | none, none, none => none

def decVbinB (op : Nat) (w : Word32) (l : Lit) : Option Instr :=
  match vopd6 (f10 w) l with
  | some b =>
    let t := fTy2 w
    decVbin op (some (iwOf t)) (fun _ => some (iwOf t)) (some (ftyOf t)) (t == 0) true (some .rne) true (v6 (f22 w))
      (VBin.mk (v6 (f22 w)) (v6 (f16 w)) b (fMask w))
  | none => none

def decVbinX (op : Nat) (w0 w1 w2 : Word32) (l : Lit) : Option Instr :=
  match vopdX (xB w1) (fld w0 0 1 == 1) w2 l with
  | some b =>
    if fld w0 1 2 == 0 then
      decVbin op ((intTy (xT w1)).map Prod.fst) (ty5Sgn (xT w1)) (fltTy (xT w1)) (xT w1 == 0) (xR w1 == 0)
        (rndOf (xR w1)) (xC w1 == 0) (xC w1) (VBin.mk (xD w0) (xA w0) b (xK w1))
    else none
  | none => none

/-- OP7 0x2D and 0x3D, comparisons (R282, R319, R324). -/
def decVcmpB (op : Nat) (w : Word32) (l : Lit) : Option Instr :=
  match vopd6 (f10 w) l with
  | some b =>
    let c := fld w 20 3
    let kd : KReg := (fld w 17 3).zeroExtend 4
    if op == 0x2D then chk (decide (c.toNat < 6)) (.vcmp c (iwOf (fTy2 w)) kd (v6 (f16 w)) b (fMask w))
    else some (.vfcmp c (ftyOf (fTy2 w)) kd (v6 (f16 w)) b (fMask w))
  | none => none

def decVcmpX (op : Nat) (w0 w1 w2 : Word32) (l : Lit) : Option Instr :=
  match vopdX (xB w1) (fld w0 0 1 == 1) w2 l with
  | some b =>
    let c := fld w0 17 3
    let kd := fld w0 13 4
    let ok := fld w0 1 2 == 0 && fld w0 20 3 == 0 && xC w1 == 0 && xR w1 == 0
    if op == 0x2D then
      match intTy (xT w1) with
      | some (w, s) =>
        chk (ok && decide (c.toNat < 6) && (if c == 2 || c == 3 then s else true) && (if c == 4 || c == 5 then !s else true))
          (.vcmp c w kd (xA w0) b (xK w1))
      | none => none
    else
      match fltTy (xT w1) with
      | some t => chk ok (.vfcmp c t kd (xA w0) b (xK w1))
      | none => none
  | none => none

/-- Functions 1 to 4 of OP7 0x2E (R317). -/
def viUn (fn : Nat) : Option (IW → VUn → Instr) :=
  match fn with
  | 1 => some .vabs
  | 2 => some .vneg
  | 3 => some .vclz
  | 4 => some .vpopc
  | _ => none

/-- Bit-field functions of OP7 0x2E with the signedness they need (R318). -/
def viBf (fn : Nat) : Option (Option Bool × (IW → VUn → BitVec 6 → BitVec 6 → Instr)) :=
  match fn with
  | 8 => some (some true, .vbfx_s)
  | 9 => some (some false, .vbfx_z)
  | 10 => some (none, .vbfi)
  | _ => none

def IW.bits : IW → Nat
  | .w64 => 64
  | .w32 => 32
  | .w16 => 16
  | .w8 => 8

def decViUnB (w : Word32) (l : Lit) : Option Instr :=
  let o : VUn := VUn.mk (v6 (f22 w)) (v6 (f16 w)) (fMask w)
  let t := fTy2 w
  match l with
  | some v => chk (f10 w == 7 && t == 0 && f16 w == 0) (.vli o.d (.lit v) o.k)
  | none =>
    match viUn (f10 w).toNat with
    | some f => some (f (iwOf t) o)
    | none =>
      if f10 w == 0 then chk (t == 0) (.vnot o)
      else if f10 w == 5 then chk (t == 0) (.vmov o)
      else if f10 w == 6 then chk (f16 w == 0) (.viota (iwOf t) o.d o.k)
      else none

def decViUnX (w0 w1 w2 : Word32) (l : Lit) : Option Instr :=
  let o : VUn := VUn.mk (xD w0) (xA w0) (xK w1)
  let imm := fld w0 0 1 == 1
  let ok := fld w0 1 2 == 0 && xC w1 == 0 && xR w1 == 0
  if xB w1 == 7 then
    match l with
    | some v => chk (ok && !imm && xT w1 == 0 && w2 == 0 && xA w0 == 0) (.vli o.d (.lit v) o.k)
    | none =>
      match ty5Of (xT w1) with
      | some t => chk (ok && imm && t != .n4 && xA w0 == 0) (.vli o.d (.imm t w2) o.k)
      | none => none
  else if ok && !imm && l.isNone then
    match viUn (xB w1).toNat, viBf (xB w1).toNat, intTy (xT w1) with
    | some f, _, some (w, _) => chk (w2 == 0) (f w o)
    | none, some (need, f), some (w, s) =>
      let pos := fld w2 8 6
      let ln := fld w2 16 6
      chk (fld w2 0 8 == 0 && fld w2 14 2 == 0 && fld w2 22 10 == 0 && (need == none || need == some s)
        && decide (pos.toNat + ln.toNat < w.bits)) (f w o pos ln)
    | none, none, ty =>
      if xB w1 == 0 then chk (xT w1 == 0 && w2 == 0) (.vnot o)
      else if xB w1 == 5 then chk (xT w1 == 0 && w2 == 0) (.vmov o)
      else if xB w1 == 6 then
        match ty with
        | some (w, _) => chk (w2 == 0 && xA w0 == 0) (.viota w o.d o.k)
        | none => none
      else none
    | _, _, none => none
  else none

/-- Rounding functions of OP7 0x3E; the Bool says whether f64 is refused (R257, R325). -/
def vfUn (fn : Nat) : Option (Bool × (FTy → Rnd → VUn → Instr)) :=
  match fn with
  | 2 => some (false, .vfsqrt)
  | 3 => some (false, .vfrcp)
  | 4 => some (false, .vfrsq)
  | 5 => some (true, .vfexp2)
  | 6 => some (true, .vflog2)
  | 7 => some (true, .vfsinpi)
  | 8 => some (true, .vfcospi)
  | 9 => some (true, .vftanh)
  | 10 => some (false, .vfrnd)
  | _ => none

/-- Functions of OP7 0x3E that do not round. -/
def vfUn0 (fn : Nat) : Option (FTy → VUn → Instr) :=
  match fn with
  | 0 => some .vfabs
  | 1 => some .vfneg
  | 11 => some .vfclass
  | _ => none

def decVfUn (fn : Nat) (t : FTy) (rz : Bool) (r : Option Rnd) (o : VUn) : Option Instr :=
  match vfUn fn, vfUn0 fn with
  | some (no64, f), _ => match r with
    | some m => chk (!(no64 && t == .f64)) (f t m o)
    | none => none
  | none, some f => chk rz (f t o)
  | none, none => none

def decVfUnB (w : Word32) : Option Instr :=
  decVfUn (f10 w).toNat (ftyOf (fTy2 w)) true (some .rne) (VUn.mk (v6 (f22 w)) (v6 (f16 w)) (fMask w))

def decVfUnX (w0 w1 w2 : Word32) : Option Instr :=
  match fltTy (xT w1) with
  | some t =>
    if xF w0 == 0 && xC w1 == 0 && w2 == 0 then
      decVfUn (xB w1).toNat t (xR w1 == 0) (rndOf (xR w1)) (VUn.mk (xD w0) (xA w0) (xK w1))
    else none
  | none => none

/-- Width in bits of a type5 (R239, R240, R242). -/
def Ty5.bits : Ty5 → Nat
  | .f64 | .s64 | .z64 => 64
  | .f32 | .s32 | .z32 => 32
  | .bf16 | .f16 | .s16 | .z16 => 16
  | .e4m3 | .e5m2 | .s8 | .z8 => 8
  | .n4 => 4

/-- Kinds of type5: 0 the four arithmetic floats, 1 e4m3 and e5m2, 2 N4, 3 integers. -/
def Ty5.kind : Ty5 → Nat
  | .f64 | .f32 | .bf16 | .f16 => 0
  | .e4m3 | .e5m2 => 1
  | .n4 => 2
  | _ => 3

/-- The conversion pairs of R329. -/
def vcvtOk (dst src : Ty5) : Bool :=
  match dst.kind, src.kind with
  | 0, _ => true
  | 1, 0 => true
  | 1, 1 => true
  | 2, 0 => true
  | 3, 0 => true
  | _, _ => false

/-- The number of parts of a conversion (R328). -/
def cvtParts (dst src : Ty5) : Nat := Nat.max dst.bits src.bits / Nat.min dst.bits src.bits

/-- OP7 0x3F (R327, R328). -/
def decVcvtX (w0 w1 w2 : Word32) (l : Lit) : Option Instr :=
  let ok := fld w0 2 1 == 0 && fld w0 0 1 == 0 && fld w2 5 23 == 0
  let nsat := fld w0 1 1 == 1
  match rndOf (xR w1) with
  | none => none
  | some r =>
    if fld w2 28 4 == 0 then
      match ty5Of (xT w1), ty5Of (fld w2 0 5) with
      | some dst, some src =>
        let part := fld (xB w1) 0 4
        let q := fld (xB w1) 4 2
        let seg := fld (xB w1) 6 2
        let isN4 := dst == .n4 || src == .n4
        chk (ok && l.isNone && fld (xB w1) 8 2 == 0 && vcvtOk dst src && decide (part.toNat < cvtParts dst src)
          && (isN4 || (q == 0 && seg == 0 && xC w1 == 0)) && (!nsat || dst == .e4m3 || dst == .e5m2))
          (.vfcvt dst src nsat r (VUn.mk (xD w0) (xA w0) (xK w1)) part q seg (xC w1))
      | _, _ => none
    else
      match fltTy (xT w1), vopdX (xB w1) false 0 l with
      | some t, some b =>
        let o : VBin := VBin.mk (xD w0) (xA w0) b (xK w1)
        if fld w2 28 4 == 1 then chk (ok && !nsat && fld w2 0 5 == 0 && t != .f64) (.vfdot2 t r o (xC w1))
        else if fld w2 28 4 == 2 then chk (ok && !nsat && fld w2 0 5 == 0 && xC w1 == 0) (.vfscale t r o)
        else none
      | _, _ => none

/-! ### Cross-lane class (R336) -/

/-- log2 of the number of elements of width w in a register (R334). -/
def IW.log2n : IW → Nat
  | .w64 => 5
  | .w32 => 6
  | .w16 => 7
  | .w8 => 8

def vshfOp (op : Nat) : Option (IW → VTri → BitVec 4 → Instr) :=
  match op with
  | 0x40 => some .vshf_o
  | 0x41 => some .vshf_w
  | 0x42 => some .vshf_c
  | _ => none

/-- Which types a reduction or scan function takes: 0 any integer, 1 float, 2 s, 3 z (R343). -/
def redClass (fn : Nat) : Nat :=
  match fn with
  | 1 | 6 | 7 | 11 => 1
  | 2 | 4 => 2
  | 3 | 5 => 3
  | _ => 0

def redTy (fn : Nat) (t : BitVec 5) : Option (BitVec 2) :=
  let iw := fun w : IW => match w with
    | .w64 => (0 : BitVec 2)
    | .w32 => 1
    | .w16 => 2
    | .w8 => 3
  match redClass fn with
  | 1 => match fltTy t with
    | some .f64 => some 0
    | some .f32 => some 1
    | some .bf16 => some 2
    | some .f16 => some 3
    | none => none
  | 2 => (ty5Sgn t true).map iw
  | 3 => (ty5Sgn t false).map iw
  | _ => (intTy t).map (fun p => iw p.1)

/-- rnd3 is used by fadd and aff only (R343). -/
def redRnd (fn : Nat) (r : BitVec 3) : Option Rnd :=
  if fn == 1 || fn == 11 then rndOf r else (if r == 0 then some .rne else none)

def decRed (op fn : Nat) (f : BitVec 4) (t : Option (BitVec 2)) (r : Option Rnd) (o : VUn) (c : VReg) : Option Instr :=
  match t, r with
  | some ty, some m =>
    if op == 0x46 then chk (decide (fn < 11) && c == 0) (.vred f ty m o)
    else if op == 0x47 then chk (decide (fn < 12) && (fn == 11 || c == 0)) (.vscan_inc f ty m o c)
    else if op == 0x48 then chk (decide (fn < 12) && (fn == 11 || c == 0)) (.vscan_exc f ty m o c)
    else none
  | _, _ => none

def decLaneB (op : Nat) (w : Word32) : Option Instr :=
  let d := v6 (f22 w)
  let a := v6 (f16 w)
  let b := f10 w
  let k := fMask w
  let t := fTy2 w
  match vshfOp op with
  | some f => some (f (iwOf t) (VTri.mk d a (v6 b) k) 0)
  | none =>
    if op == 0x43 then chk (decide (b.toNat < 6)) (.vnbr (fld b 0 3) (iwOf t) (VUn.mk d a k) 0)
    else if op == 0x44 then some (.vbcast (iwOf t) (VUn.mk d a k) b 0)
    else if op == 0x45 then chk (decide (b.toNat < 3) && t == 0) (.vvote (fld b 0 2) (VUn.mk d a k))
    else if op == 0x49 then chk (t == 0) (.vperm (VTri.mk d a (v6 b) k) d)
    else if op == 0x4A then chk (t != 3) (.vpack (iwOf t) .off (VTri.mk d a (v6 b) k))
    else if op == 0x4B then
      chk (t != 0 && fld b 2 4 == 0) (.vunpk (iwOf t) (fld b 1 1 == 1) (fld b 0 1) (VUn.mk d a k))
    else if op == 0x4C then chk (t == 0) (.vxshf (VUn.mk d a k) b)
    else decRed op b.toNat (fld b 0 4) (if b.toNat < 12 && !(redClass b.toNat == 1 && t == 3) then some t else none) (some .rne) (VUn.mk d a k)
      (if b == 11 then d else 0)

def decLaneX (op : Nat) (w0 w1 w2 : Word32) : Option Instr :=
  let d := xD w0
  let a := xA w0
  let b := xB w1
  let k := xK w1
  let rz := xR w1 == 0
  let plain := xF w0 == 0 && rz && xC w1 == 0
  match vshfOp op with
  | some f => match intTy (xT w1) with
    | some (w, _) => chk (plain && fld w2 4 28 == 0 && decide ((fld w2 0 4).toNat ≤ w.log2n)) (f w (VTri.mk d a b k) (fld w2 0 4))
    | none => none
  | none =>
    if op == 0x43 then
      match intTy (xT w1) with
      | some (w, _) =>
        chk (plain && decide (b.toNat < 6) && fld w2 9 23 == 0 && decide ((fld w2 0 9).toNat ≤ 2 ^ w.log2n))
          (.vnbr (fld b 0 3) w (VUn.mk d a k) (fld w2 0 9))
      | none => none
    else if op == 0x44 then
      match intTy (xT w1) with
      | some (w, _) =>
        chk (plain && sOk b && fld w2 4 28 == 0 && decide ((fld w2 0 4).toNat ≤ w.log2n)) (.vbcast w (VUn.mk d a k) (sOf b) (fld w2 0 4))
      | none => none
    else if op == 0x45 then chk (plain && xT w1 == 0 && w2 == 0 && decide (b.toNat < 3)) (.vvote (fld b 0 2) (VUn.mk d a k))
    else if op == 0x49 then chk (xF w0 == 0 && rz && xT w1 == 0 && w2 == 0) (.vperm (VTri.mk d a b k) (xC w1))
    else if op == 0x4A then
      match intTy (xT w1) with
      | some (w, s) =>
        let sat := if fld w0 0 1 == 0 then Sat.off else if s then Sat.toS else Sat.toZ
        chk (fld w0 1 2 == 0 && rz && xC w1 == 0 && w2 == 0 && w != .w8) (.vpack w sat (VTri.mk d a b k))
      | none => none
    else if op == 0x4B then
      match intTy (xT w1) with
      | some (w, s) => chk (plain && w2 == 0 && w != .w64 && fld b 1 9 == 0) (.vunpk w s (fld b 0 1) (VUn.mk d a k))
      | none => none
    else if op == 0x4C then chk (plain && xT w1 == 0 && w2 == 0 && sOk b) (.vxshf (VUn.mk d a k) (sOf b))
    else if xF w0 == 0 && w2 == 0 && decide (b.toNat < 12) then
      decRed op b.toNat (fld b 0 4) (redTy b.toNat (xT w1)) (redRnd b.toNat (xR w1)) (VUn.mk d a k) (xC w1)
    else none

/-! ### Memory class (R357 to R359) -/

def q0 : MemQ := MemQ.mk 0 0 0

/-- log2 of the access width in bytes. -/
def IW.shift : IW → Nat
  | .w64 => 3
  | .w32 => 2
  | .w16 => 1
  | .w8 => 0

/-- A base-form offset in units of 2^sh bytes. -/
def offU {n : Nat} (o : BitVec n) (sh : Nat) : BitVec 21 := (o.signExtend 21) <<< sh

/-- Word 2's qualifier, for loads (0), stores (1) and scratch forms (hint refused); R358, R359. -/
def memQ (w2 : Word32) (store scratch : Bool) : Option MemQ :=
  let ord := fld w2 30 2
  let scope := fld w2 27 3
  let hint := fld w2 25 2
  if decide (scope.toNat < 5) && decide (hint.toNat < 3) && fld w2 21 4 == 0
    && (ord != 0 || scope == 0) && ord != 3 && (if store then ord != 1 else ord != 2)
    && (!scratch || hint == 0) then some (MemQ.mk ord scope hint) else none

def decMemB (op : Nat) (w : Word32) : Option Instr :=
  let d := f22 w
  let a := f16 w
  let wd := memW (fld w 9 2)
  let sx := fld w 8 1 == 1
  let k : KReg := (fld w 5 3).zeroExtend 4
  let off := offU (fld w 0 5) wd.shift
  let offV := offU (fld w 0 5) 8
  match op with
  | 0x50 => chk (k == 0) (.ld_s d a wd sx off q0)
  | 0x51 => chk (k == 0 && !sx) (.st_s d a wd off q0)
  | 0x52 => chk (fld w 8 3 == 0) (.ld_v (v6 d) a k offV q0)
  | 0x53 => chk (fld w 8 3 == 0) (.st_v (v6 d) a k offV q0)
  | 0x54 => some (.ld_g (v6 d) (v6 a) wd sx k off q0)
  | 0x55 => chk (!sx) (.st_g (v6 d) (v6 a) wd k off q0)
  | 0x56 =>
    let am := fld w 3 2
    if am == 1 then chk (fld w 8 3 == 0) (.ld_x 1 (v6 d) (v6 a) .w64 false k (offU (fld w 0 3) 8) q0)
    else chk (am != 3 && (am != 0 || k == 0)) (.ld_x am (v6 d) (v6 a) wd sx k (offU (fld w 0 3) wd.shift) q0)
  | 0x57 =>
    let am := fld w 3 2
    if am == 1 then chk (fld w 8 3 == 0) (.st_x 1 (v6 d) (v6 a) .w64 k (offU (fld w 0 3) 8) q0)
    else chk (am != 3 && (am != 0 || k == 0) && !sx) (.st_x am (v6 d) (v6 a) wd k (offU (fld w 0 3) wd.shift) q0)
  | 0x58 =>
    let lanes := fld w 17 1 == 1
    chk (fld w 19 4 == 0 && fld w 8 3 == 0 && (lanes || k == 0))
      (.pf (fld w 18 1 == 1) lanes (v6 a) k (offU (fld w 0 5) 7))
  | _ => none

def decMemX (op : Nat) (w0 w1 w2 : Word32) : Option Instr :=
  let d := xD w0
  let a := xA w0
  let k := xK w1
  let off : BitVec 21 := fld w2 0 21
  let plain := xB w1 == 0 && xC w1 == 0 && xR w1 == 0
  let x0 := plain && xF w0 == 0
  match op with
  | 0x50 => match intTy (xT w1), memQ w2 false false with
    | some (w, s), some q => chk (x0 && sOk d && sOk a && k == 0) (.ld_s (sOf d) (sOf a) w s off q)
    | _, _ => none
  | 0x51 => match intTy (xT w1), memQ w2 true false with
    | some (w, _), some q => chk (x0 && sOk d && sOk a && k == 0) (.st_s (sOf d) (sOf a) w off q)
    | _, _ => none
  | 0x52 => match memQ w2 false false with
    | some q => chk (x0 && sOk a && xT w1 == 0) (.ld_v d (sOf a) k off q)
    | none => none
  | 0x53 => match memQ w2 true false with
    | some q => chk (x0 && sOk a && xT w1 == 0) (.st_v d (sOf a) k off q)
    | none => none
  | 0x54 => match intTy (xT w1), memQ w2 false false with
    | some (w, s), some q => chk x0 (.ld_g d a w s k off q)
    | _, _ => none
  | 0x55 => match intTy (xT w1), memQ w2 true false with
    | some (w, _), some q => chk x0 (.st_g d a w k off q)
    | _, _ => none
  | 0x56 =>
    let am := fld w0 0 2
    match memQ w2 false true with
    | none => none
    | some q =>
      if am == 1 then chk (plain && fld w0 2 1 == 0 && sOk a && xT w1 == 0) (.ld_x 1 d a .w64 false k off q)
      else match intTy (xT w1) with
        | some (w, s) =>
          chk (plain && fld w0 2 1 == 0 && am != 3 && (am != 0 || (sOk d && sOk a && k == 0))) (.ld_x am d a w s k off q)
        | none => none
  | 0x57 =>
    let am := fld w0 0 2
    match memQ w2 true true with
    | none => none
    | some q =>
      if am == 1 then chk (plain && fld w0 2 1 == 0 && sOk a && xT w1 == 0) (.st_x 1 d a .w64 k off q)
      else match intTy (xT w1) with
        | some (w, _) =>
          chk (plain && fld w0 2 1 == 0 && am != 3 && (am != 0 || (sOk d && sOk a && k == 0))) (.st_x am d a w k off q)
        | none => none
  | 0x58 =>
    let lanes := fld w0 0 1 == 1
    chk (plain && fld w0 2 1 == 0 && d == 0 && xT w1 == 0 && fld w2 21 11 == 0 && (lanes || (sOk a && k == 0)))
      (.pf (fld w0 1 1 == 1) lanes a k off)
  | _ => none

/-- Whether a base-form atomic operation exists (R364). -/
def aopOk (aop : BitVec 4) : Bool := decide (aop.toNat < 12)

def decAtB (op : Nat) (w : Word32) : Option Instr :=
  let aop := fld w 1 4
  let o : AtOp := AtOp.mk aop (fld w 0 1 == 1) false .rne 0 0 0
  let d := f22 w
  let c := if aop == 10 then d else 0
  if aopOk aop then
    match op with
    | 0x59 => some (.at_s o d (f16 w) (f10 w) c)
    | 0x5A => some (.at_g o (v6 d) (v6 (f16 w)) (v6 (f10 w)) (v6 c) 0)
    | 0x5B => some (.at_x 2 o (v6 d) (v6 (f16 w)) (v6 (f10 w)) (v6 c) 0)
    | _ => none
  else none

/-- type5 against AOP (R364): the width, or none. -/
def atTy (aop : BitVec 4) (t : BitVec 5) : Option Bool :=
  if aop == 11 then
    match fltTy t with
    | some .f32 => some false
    | some .f64 => some true
    | _ => none
  else
    match intTy t with
    | some (.w64, s) =>
      if (aop == 5 || aop == 7) && !s then none else if (aop == 6 || aop == 8) && s then none else some true
    | some (.w32, s) =>
      if (aop == 5 || aop == 7) && !s then none else if (aop == 6 || aop == 8) && s then none else some false
    | _ => none

def decAtX (op : Nat) (w0 w1 w2 : Word32) : Option Instr :=
  let aop := fld w2 21 4
  let am := fld w0 0 2
  let nr := fld w0 2 1 == 1
  let scope := fld w2 27 3
  let ord := fld w2 30 2
  let d := xD w0
  let a := xA w0
  let b := xB w1
  let c := xC w1
  match atTy aop (xT w1), (if aop == 11 then rndOf (xR w1) else if xR w1 == 0 then some Rnd.rne else none) with
  | some w64, some r =>
    let o : AtOp := AtOp.mk aop w64 nr r (fld w2 0 21) ord scope
    let ok := aopOk aop && decide (scope.toNat < 5) && fld w2 25 2 == 0 && (ord != 0 || scope == 0)
      && (!nr || d == 0) && (aop == 10 || c == 0)
    let sc := sOk d && sOk a && sOk b && sOk c && xK w1 == 0
    match op with
    | 0x59 => chk (ok && am == 0 && sc) (.at_s o (sOf d) (sOf a) (sOf b) (sOf c))
    | 0x5A => chk (ok && am == 0) (.at_g o d a b c (xK w1))
    | 0x5B => chk (ok && (am == 2 || (am == 0 && sc))) (.at_x am o d a b c (xK w1))
    | _ => none
  | _, _ => none

def decFence (kind : BitVec 2) (scope : BitVec 3) (ok : Bool) : Option Instr :=
  chk (ok && decide (scope.toNat < 5)) (.fence kind scope)

/-! ### OP7 0x5C to 0x7E, whose operands are register numbers and small fields -/

/-- The three 6-bit register fields, the low function field, the wide immediate of the form and what else must hold, for
the OP7s whose base and extended forms differ only in where the fields lie. -/
structure Flat where
  d : BitVec 10
  a : BitVec 10
  b : BitVec 10
  c : BitVec 10
  sub : Nat
  imm : Word32
  k : KReg
  ext : Bool

/-- Reads a base word of the SUB layouts. -/
def flatB (w : Word32) : Flat :=
  { d := v6 (f22 w), a := v6 (f16 w), b := v6 (f10 w), c := 0, sub := (fld w 0 3).toNat, imm := 0, k := 0, ext := false }

def flatX (w0 w1 w2 : Word32) : Flat :=
  { d := xD w0, a := xA w0, b := xB w1, c := xC w1, sub := (xF w0).toNat, imm := w2, k := xK w1, ext := true }

/-- OP7 whose instructions name up to three scalar registers and nothing else: checks which of the fields are used. -/
def regs3 (f : Flat) (ud ua ub : Bool) (i : SReg → SReg → SReg → Instr) : Option Instr :=
  chk (sOk f.d && sOk f.a && sOk f.b && (ud || f.d == 0) && (ua || f.a == 0) && (ub || f.b == 0) && f.c == 0 && f.imm == 0
    && f.k == 0) (i (sOf f.d) (sOf f.a) (sOf f.b))

/-- The SUB-selected functions of R282 that take scalar registers only. -/
def decSub (op : Nat) (f : Flat) : Option Instr :=
  match op, f.sub with
  | 0x5D, 0 => regs3 f false true true (fun _ a b => .cwb a b)
  | 0x5E, 0 => regs3 f false true true (fun _ a b => .cinv a b)
  | 0x5F, 0 =>
    chk (f.ext && sOk f.d && sOk f.a && sOk f.b && sOk f.c && f.imm == 0 && f.k == 0)
      (.smap (sOf f.d) (sOf f.a) (sOf f.b) (sOf f.c))
  | 0x5F, 1 => regs3 f true true false (fun d a _ => .sunmap d a)
  | 0x61, 0 => regs3 f true true true .cpyt_ld
  | 0x61, 1 => regs3 f true true true .cpyt_st
  | 0x64, 0 => regs3 f false true true (fun _ a b => .bbinit a b)
  | 0x64, 1 => regs3 f false true true (fun _ a b => .bbexp a b)
  | 0x64, 2 => regs3 f false true false (fun _ a _ => .bbseal a)
  | 0x64, 3 => regs3 f true true true .bbwait
  | 0x67, 0 => chk (f.a == 0 && f.b == 0 && f.c == 0 && f.imm == 0 && f.k == 0) (.qpush f.d)
  | 0x67, 1 => chk (f.a == 0 && f.b == 0 && f.c == 0 && f.imm == 0 && f.k == 0) (.qpop f.d)
  | 0x67, 2 => regs3 f true false false (fun d _ _ => .qstat d)
  | 0x6D, 0 => regs3 f true false false (fun d _ _ => .mxfence d)
  | 0x6E, 0 => regs3 f false true false (fun _ a _ => .mxwait a)
  | 0x71, 0 => regs3 f true true true .fwait_pass
  | 0x71, 1 => regs3 f true true true .fwait_reach
  | 0x72, 0 => regs3 f true true true .pinc
  | 0x72, 1 => regs3 f true true true .pdec
  | 0x72, 2 => regs3 f true true true .pmove
  | 0x73, 0 => chk (f.a == 0 && sOk f.b && f.c == 0 && f.imm == 0) (.wemit f.d (sOf f.b) f.k)
  | 0x73, 1 => chk (sOk f.a && sOk f.b && f.c == 0 && f.imm == 0) (.wsend f.d (sOf f.a) (sOf f.b) f.k)
  | 0x75, 0 => regs3 f true true false (fun d a _ => .launch_child d a)
  | 0x76, 0 => regs3 f true true false (fun d a _ => .jobput d a)
  | 0x77, 0 => regs3 f true true true .wait_v
  | 0x77, 1 => regs3 f false true false (fun _ a _ => .wake a)
  | 0x78, 0 => regs3 f true false false (fun d _ _ => .bow_get d)
  | 0x78, 1 => regs3 f false false false (fun _ _ _ => .bow_pass)
  | 0x7A, 1 => regs3 f true false false (fun d _ _ => .sigrd d)
  | 0x7D, 0 => regs3 f true true true .mappg
  | 0x7D, 1 => regs3 f true true false (fun d a _ => .unmappg d a)
  | 0x7D, 2 => regs3 f false true true (fun _ a b => .rgrel a b)
  | 0x7D, 3 => regs3 f true true false (fun d a _ => .tunack d a)
  | 0x7D, 4 => regs3 f true true true .scan_run
  | _, _ => none

/-- The last group: OP7s whose fields need a layout of their own, base form. -/
def decMiscB (op : Nat) (w : Word32) : Option Instr :=
  let d := f22 w
  let a := f16 w
  let b := f10 w
  let k : KReg := (fld w 5 3).zeroExtend 4
  let sub := (fld w 0 3).toNat
  match op with
  | 0x5C => decFence (fld w 0 2) (fld w 2 3) (fld w 5 18 == 0)
  | 0x60 => some (.cpy (fld w 0 2) d a (.reg b) ((fld w 2 3).zeroExtend 6))
  | 0x62 => chk (fld w 0 1 == 0) (.cpym (fld w 1 1 == 1) d a b ((fld w 2 3).zeroExtend 6))
  | 0x63 => chk (fld w 0 2 == 0) (.cpyg d a b ((fld w 2 3).zeroExtend 6))
  | 0x65 => some (.waitc d a b (if fn5 w == 31 then 63 else (fn5 w).zeroExtend 6))
  | 0x66 => chk (d == 0 && fld w 2 9 == 0) (.waitp (fld w 0 2) a)
  | 0x68 => chk (fld w 0 9 == 0) (.tidset (v6 d) (fld w 9 8))
  | 0x69 => chk (fld w 0 9 == 0) (.tidget (v6 d) (fld w 9 8))
  | 0x6A => chk (fld w 0 19 == 0) (.mxzero (fld w 19 4))
  | 0x6B => chk (fld w 0 7 == 0) (.mxstep (fld w 19 4) (fld w 13 6) (fld w 7 6) .base)
  | 0x6C => chk (fld w 0 1 == 0) (.mxloop (fld w 19 4) (fld w 13 6) (fld w 7 6) (fld w 1 6) .base)
  | 0x6F =>
    let ok := fld w 8 5 == 0 && fld w 3 2 == 0
    if sub == 0 then chk ok (.lda (v6 d) (fld w 13 4) k)
    else chk (ok && sub == 1) (.sta (v6 d) (fld w 13 4) k)
  | 0x70 =>
    let ok := fld w 3 8 == 0
    match sub with
    | 0 => chk ok (.bar_arr d a)
    | 1 => chk ok (.bar_wait d a)
    | 2 => chk ok (.bar_setm d a)
    | _ => none
  | 0x74 =>
    let ok := fld w 8 9 == 0 && fld w 3 2 == 0
    match sub with
    | 0 => chk (ok && d == 0) (.wclose k)
    | 1 => chk ok (.winfo (v6 d) k)
    | _ => none
  | 0x79 => some (.safe ((fld w 0 23).zeroExtend 32))
  | 0x7C =>
    let ok := fld w 3 4 == 0
    match sub with
    | 0 => chk ok (.trap (fld w 7 16))
    | 1 => chk ok (.bkpt (fld w 7 16))
    | 2 => chk (ok && fld w 7 16 == 0) .retf
    | _ => none
  | 0x7E =>
    match sub with
    | 0 => chk (a == 0) (.srd d (fld w 3 8))
    | 1 => chk (a == 0) (.swr d (fld w 3 8))
    | _ => none
  | 0x5D | 0x5E | 0x61 | 0x64 | 0x67 | 0x71 | 0x72 | 0x73 | 0x75 | 0x76 | 0x77 | 0x78 | 0x7D =>
    if fld w 3 2 == 0 then decSub op (flatB w) else none
  | 0x5F | 0x6D | 0x6E | 0x7A =>
    if fld w 3 2 == 0 && b == 0 then decSub op (flatB w) else none
  | _ => none

def decMiscX (op : Nat) (w0 w1 w2 : Word32) : Option Instr :=
  let d := xD w0
  let a := xA w0
  let b := xB w1
  let c := xC w1
  let k := xK w1
  let tz := xT w1 == 0 && xR w1 == 0
  let w1z := w1 == 0
  let sub := (xF w0).toNat
  match op with
  | 0x5C => decFence (fld w2 0 2) (fld w2 2 3) (fld w0 0 23 == 0 && w1z && fld w2 5 27 == 0)
  | 0x60 =>
    let ok := tz && k == 0 && fld w0 2 1 == 0 && sOk d && sOk a && sOk b && sOk c
    if b == 0 then chk (ok && fld w2 24 8 == 0) (.cpy (fld w0 0 2) (sOf d) (sOf a) (.imm (fld w2 0 24)) (sOf c))
    else chk (ok && w2 == 0) (.cpy (fld w0 0 2) (sOf d) (sOf a) (.reg (sOf b)) (sOf c))
  | 0x62 =>
    chk (tz && k == 0 && fld w0 1 2 == 0 && sOk d && sOk a && sOk b && sOk c && w2 == 0)
      (.cpym (fld w0 0 1 == 1) (sOf d) (sOf a) (sOf b) (sOf c))
  | 0x63 =>
    chk (tz && k == 0 && xF w0 == 0 && sOk d && sOk a && sOk b && sOk c && w2 == 0)
      (.cpyg (sOf d) (sOf a) (sOf b) (sOf c))
  | 0x65 =>
    chk (fld w0 0 23 == 0 && w1z && fld w2 24 8 == 0) (.waitc (fld w2 0 6) (fld w2 6 6) (fld w2 12 6) (fld w2 18 6))
  | 0x66 => chk (d == 0 && sOk a && fld w0 2 1 == 0 && w1z && w2 == 0) (.waitp (fld w0 0 2) (sOf a))
  | 0x68 => chk (a == 0 && xF w0 == 0 && w1z && fld w2 8 24 == 0) (.tidset d (fld w2 0 8))
  | 0x69 => chk (a == 0 && xF w0 == 0 && w1z && fld w2 8 24 == 0) (.tidget d (fld w2 0 8))
  | 0x6A =>
    -- rnd3, vb10 and vc10 are not used by mxzero and so are reserved (R268)
    chk (kOk d && a == 0 && xF w0 == 0 && w1z && w2 == 0) (.mxzero (kOf d))
  | 0x6B => match rndOf (xR w1) with
    | some r => chk (kOk d && sOk a && xF w0 == 0 && xT w1 == 0 && k == 0 && fld w2 6 26 == 0)
        (.mxstep (kOf d) (sOf a) (fld w2 0 6) (.ext b c r))
    | none => none
  | 0x6C => match rndOf (xR w1) with
    | some r => chk (kOk d && sOk a && xF w0 == 0 && xT w1 == 0 && k == 0 && fld w2 12 20 == 0)
        (.mxloop (kOf d) (sOf a) (fld w2 0 6) (fld w2 6 6) (.ext b c r))
    | none => none
  | 0x6F =>
    let ok := tz && kOk a && b == 0 && c == 0 && w2 == 0
    if sub == 0 then chk ok (.lda d (kOf a) k) else chk (ok && sub == 1) (.sta d (kOf a) k)
  | 0x70 =>
    let ok := sOk d && a == 0 && w1z && fld w2 6 26 == 0
    match sub with
    | 0 => chk ok (.bar_arr (sOf d) (fld w2 0 6))
    | 1 => chk ok (.bar_wait (sOf d) (fld w2 0 6))
    | 2 => chk ok (.bar_setm (sOf d) (fld w2 0 6))
    | _ => none
  | 0x74 =>
    let ok := tz && a == 0 && b == 0 && c == 0 && w2 == 0
    match sub with
    | 0 => chk (ok && d == 0) (.wclose k)
    | 1 => chk ok (.winfo d k)
    | _ => none
  | 0x79 => chk (fld w0 0 23 == 0 && w1z) (.safe w2)
  | 0x7A =>
    if sub == 0 then chk (fld w0 0 23 == 0 && w1z) (.sigchk w2)
    else if tz then decSub op (flatX w0 w1 w2) else none
  | 0x7C =>
    let ok := d == 0 && a == 0 && w1z && fld w2 16 16 == 0
    match sub with
    | 0 => chk ok (.trap (fld w2 0 16))
    | 1 => chk ok (.bkpt (fld w2 0 16))
    | 2 => chk (ok && w2 == 0) .retf
    | _ => none
  | 0x7E =>
    let ok := sOk d && a == 0 && w1z && fld w2 8 24 == 0
    match sub with
    | 0 => chk ok (.srd (sOf d) (fld w2 0 8))
    | 1 => chk ok (.swr (sOf d) (fld w2 0 8))
    | _ => none
  | 0x5D | 0x5E | 0x5F | 0x61 | 0x64 | 0x67 | 0x6D | 0x6E | 0x71 | 0x72 | 0x73 | 0x75 | 0x76 | 0x77 | 0x78 | 0x7D =>
    if tz then decSub op (flatX w0 w1 w2) else none
  | _ => none

/-! ### The decoder -/

/-- A base word, with the literal that follows it when LEN is 10. -/
def decodeB (w : Word32) (l : Lit) : Option Instr :=
  let op := (opOf w).toNat
  let nl := l.isNone
  if op == 1 || op == 2 then decIntB op w l
  else if op < 0x0B then decSiB op w l
  else if op == 0x0B then (if nl then decCode w else none)
  else if op < 0x0E then (if nl then decPcB op w else none)
  else if op == 0x0E then decSfB w l
  else if op == 0x0F then decSfcmpB w l
  else if op == 0x13 || op == 0x15 || op == 0x16 || op == 0x17 then (if nl then decSbB op w else none)
  else if op < 0x18 then (if nl then decBrB op w else none)
  else if op == 0x2D || op == 0x3D then decVcmpB op w l
  else if op == 0x2E then decViUnB w l
  else if op == 0x3E then (if nl then decVfUnB w else none)
  else if op < 0x3E then decVbinB op w l
  else if op == 0x3F then none
  else if op < 0x50 then (if nl then decLaneB op w else none)
  else if op < 0x59 then (if nl then decMemB op w else none)
  else if op < 0x5C then (if nl then decAtB op w else none)
  else if nl then decMiscB op w else none

/-- The three words of an extended form, with the literal that follows them when LEN is 11. -/
def decodeX (w0 w1 w2 : Word32) (l : Lit) : Option Instr :=
  let op := (opOf w0).toNat
  let nl := l.isNone
  if op == 1 || op == 2 then decIntX op w0 w1 w2 l
  else if op < 0x0B then decSiX op w0 w1 w2 l
  else if op == 0x0B then none
  else if op < 0x0E then (if nl then decPcX op w0 w1 w2 else none)
  else if op == 0x0E then decSfX w0 w1 w2 l
  else if op == 0x0F then decSfcmpX w0 w1 w2 l
  else if op == 0x13 || op == 0x15 || op == 0x16 || op == 0x17 then (if nl then decSbX op w0 w1 w2 else none)
  else if op < 0x18 then (if nl then decBrX op w0 w1 w2 else none)
  else if op == 0x2D || op == 0x3D then decVcmpX op w0 w1 w2 l
  else if op == 0x2E then decViUnX w0 w1 w2 l
  else if op == 0x3E then (if nl then decVfUnX w0 w1 w2 else none)
  else if op < 0x3E then decVbinX op w0 w1 w2 l
  else if op == 0x3F then decVcvtX w0 w1 w2 l
  else if op < 0x50 then (if nl then decLaneX op w0 w1 w2 else none)
  else if op < 0x59 then (if nl then decMemX op w0 w1 w2 else none)
  else if op < 0x5C then (if nl then decAtX op w0 w1 w2 else none)
  else if nl then decMiscX op w0 w1 w2 else none

/-- OP7 0x00, 0x7F and the unassigned OP7s of R281: the table's ILL row, in every form (R266). -/
def illOp (op : BitVec 7) : Bool :=
  op == 0 || op == 0x7F || op == 0x4D || op == 0x4E || op == 0x4F || op == 0x7B

/-- Decodes an instruction from its first word and the four words after it; a form shorter than five words ignores the
rest. -/
def decodeWords (w0 w1 w2 w3 w4 : Word32) : Option Instr :=
  if illOp (opOf w0) then some (.ill w0)
  else
    match (lenOf w0).toNat with
    | 0 => decodeB w0 none
    | 1 => decodeX w0 w1 w2 none
    | 2 => decodeB w0 (some (w2 ++ w1))
    | _ => decodeX w0 w1 w2 (some (w4 ++ w3))

/-- The decoder: the words at the pc give the instruction and its length in bytes, or a refusal. DESIGN CHOICE, log 37. -/
def decode (ws : List Word32) : Except DecodeError (Instr × Nat) :=
  match ws with
  | [] => .error .truncated
  | w0 :: rest =>
    if rest.length + 1 < wordsOf w0 then .error .truncated
    else
      match decodeWords w0 (rest.getD 0 0) (rest.getD 1 0) (rest.getD 2 0) (rest.getD 3 0) with
      | some i => .ok (i, 4 * wordsOf w0)
      | none => .error (.encoding (opOf w0))

/-! ### The encoder

One encoding of each well-formed instruction: the base word where it always reaches every operand, and otherwise the
extended form. -/

def packSB (op : BitVec 7) (d a b : BitVec 6) (f : BitVec 5) : Word32 :=
  ((0 : BitVec 2) ++ op ++ d ++ a ++ b ++ f : BitVec (2 + 7 + 6 + 6 + 6 + 5))
def packSBL (op : BitVec 7) (d a b : BitVec 6) (f : BitVec 5) : Word32 :=
  ((2 : BitVec 2) ++ op ++ d ++ a ++ b ++ f : BitVec (2 + 7 + 6 + 6 + 6 + 5))
def packSI (len : BitVec 2) (op : BitVec 7) (d a : BitVec 6) (i : BitVec 11) : Word32 :=
  (len ++ op ++ d ++ a ++ i : BitVec (2 + 7 + 6 + 6 + 11))
def packBR (op : BitVec 7) (a : BitVec 6) (c : BitVec 3) (o : BitVec 14) : Word32 :=
  ((0 : BitVec 2) ++ op ++ a ++ c ++ o : BitVec (2 + 7 + 6 + 3 + 14))
def packX0 (lit : Bool) (op : BitVec 7) (d a : BitVec 10) (x : BitVec 3) : Word32 :=
  ((if lit then (3 : BitVec 2) else 1) ++ op ++ d ++ a ++ x : BitVec (2 + 7 + 10 + 10 + 3))
def packX1 (b c : BitVec 10) (t : BitVec 5) (k : BitVec 4) (r : BitVec 3) : Word32 :=
  (b ++ c ++ t ++ k ++ r : BitVec (10 + 10 + 5 + 4 + 3))

def litWords (v : Word64) : List Word32 := [v.extractLsb' 0 32, v.extractLsb' 32 32]
def s10 (r : SReg) : BitVec 10 := r.zeroExtend 10
def k10 (r : KReg) : BitVec 10 := r.zeroExtend 10
def k6 (r : KReg) : BitVec 6 := r.zeroExtend 6

def Rnd.code : Rnd → BitVec 3
  | .rne => 0
  | .rtz => 1
  | .rup => 2
  | .rdn => 3
  | .rna => 4

def FTy.code : FTy → BitVec 2
  | .f64 => 0
  | .f32 => 1
  | .bf16 => 2
  | .f16 => 3

def FTy.t5 (t : FTy) : BitVec 5 := t.code.zeroExtend 5

def IW.code : IW → BitVec 2
  | .w64 => 0
  | .w32 => 1
  | .w16 => 2
  | .w8 => 3

/-- type5 of an integer width, as an s type or a z type. -/
def IW.t5 (w : IW) (s : Bool) : BitVec 5 := (if s then (2 : BitVec 3) else 3) ++ w.code

def Ty5.code : Ty5 → BitVec 5
  | .f64 => 0
  | .f32 => 1
  | .bf16 => 2
  | .f16 => 3
  | .e4m3 => 4
  | .e5m2 => 5
  | .n4 => 6
  | .s64 => 8
  | .s32 => 9
  | .s16 => 10
  | .s8 => 11
  | .z64 => 12
  | .z32 => 13
  | .z16 => 14
  | .z8 => 15

def encSB (op : BitVec 7) (f : BitVec 5) (d a : SReg) : SOpd → List Word32
  | .reg b => [packSB op d a b f]
  | .lit v => packSBL op d a 0 f :: litWords v

def encSI (op : BitVec 7) (d a : SReg) : SImm → List Word32
  | .i11 v => [packSI 0 op d a v]
  | .i32 v => [packX0 false op (s10 d) (s10 a) 0, 0, v]
  | .lit v => packSI 2 op d a 0 :: litWords v

def encBR (op : BitVec 7) (a : BitVec 6) (c : BitVec 3) : BOff → List Word32
  | .o14 v => [packBR op a c v]
  | .o32 v => [packX0 false op 0 (s10 a) c, 0, v]

def encPO (op : BitVec 7) (d : SReg) : POff → List Word32
  | .i11 v => [packSI 0 op d 0 v]
  | .i32 v => [packX0 false op (s10 d) 0 0, 0, v]

/-- Extended form of a scalar float instruction: word 2 holds the function in bits 4:2 and, for sfcvt, the source type. -/
def encSF (f : BitVec 3) (op : BitVec 7) (t : BitVec 5) (src : BitVec 5) (r : Rnd) (d a : SReg) (c : SReg) : SOpd → List Word32
  | .reg b => [packX0 false op (s10 d) (s10 a) 0, packX1 (s10 b) (s10 c) t 0 r.code,
      ((0 : BitVec 19) ++ src ++ (0 : BitVec 3) ++ f ++ (0 : BitVec 2) : BitVec (19 + 5 + 3 + 3 + 2))]
  | .lit v => packX0 true op (s10 d) (s10 a) 0 :: packX1 0 (s10 c) t 0 r.code ::
      ((0 : BitVec 19) ++ src ++ (0 : BitVec 3) ++ f ++ (0 : BitVec 2) : BitVec (19 + 5 + 3 + 3 + 2)) :: litWords v

/-- Extended form of a vector instruction with an operand b. -/
def encV (op : BitVec 7) (d a : BitVec 10) (c : BitVec 10) (t : BitVec 5) (k : KReg) (r : BitVec 3) : VOpd → List Word32
  | .reg b => [packX0 false op d a 0, packX1 b c t k r, 0]
  | .imm v => [packX0 false op d a 1, packX1 0 c t k r, v]
  | .lit v => packX0 true op d a 0 :: packX1 0 c t k r :: 0 :: litWords v

/-- Extended form with every field given. -/
def encX (op : BitVec 7) (d a b c : BitVec 10) (x : BitVec 3) (t : BitVec 5) (k : KReg) (r : BitVec 3) (w2 : Word32) :
    List Word32 := [packX0 false op d a x, packX1 b c t k r, w2]

def bfW2 (fn : BitVec 5) (pos ln : BitVec 6) : Word32 :=
  ((0 : BitVec 10) ++ ln ++ (0 : BitVec 2) ++ pos ++ (0 : BitVec 3) ++ fn : BitVec (10 + 6 + 2 + 6 + 3 + 5))

def memW2 (q : MemQ) (aop : BitVec 4) (off : BitVec 21) : Word32 :=
  (q.ord ++ q.scope ++ q.hint ++ aop ++ off : BitVec (2 + 3 + 2 + 4 + 21))

def atT5 (o : AtOp) : BitVec 5 :=
  if o.aop == 11 then (if o.w64 then 0 else 1)
  else (if o.w64 then IW.w64 else IW.w32).t5 (o.aop == 5 || o.aop == 7)

def redT5 (f : BitVec 4) (t : BitVec 2) : BitVec 5 :=
  match redClass f.toNat with
  | 1 => t.zeroExtend 5
  | 2 => (2 : BitVec 3) ++ t
  | _ => (3 : BitVec 3) ++ t

def encAt (op : BitVec 7) (am : BitVec 2) (o : AtOp) (d a b c : BitVec 10) (k : KReg) : List Word32 :=
  encX op d a b c ((if o.nr then (1 : BitVec 1) else 0) ++ am) (atT5 o) k o.r.code
    (memW2 (MemQ.mk o.ord o.scope 0) o.aop o.off)

def sub3 (op : BitVec 7) (f : BitVec 3) (d a b : BitVec 6) : List Word32 := [packSB op d a b (f.zeroExtend 5)]

/-- The words of an instruction; an event has none. DESIGN CHOICE, log 37. -/
def encode (i : Instr) : List Word32 :=
  match i with
  | .sadd d a b => encSB 1 0 d a b
  | .ssub d a b => encSB 1 1 d a b
  | .smul d a b => encSB 1 2 d a b
  | .smulh_s d a b => encSB 1 3 d a b
  | .smulh_z d a b => encSB 1 4 d a b
  | .sdiv_s d a b => encSB 1 5 d a b
  | .sdiv_z d a b => encSB 1 6 d a b
  | .srem_s d a b => encSB 1 7 d a b
  | .srem_z d a b => encSB 1 8 d a b
  | .sand d a b => encSB 1 9 d a b
  | .sor d a b => encSB 1 10 d a b
  | .sxor d a b => encSB 1 11 d a b
  | .sandn d a b => encSB 1 12 d a b
  | .sshl d a b => encSB 1 13 d a b
  | .sshr d a b => encSB 1 14 d a b
  | .ssra d a b => encSB 1 15 d a b
  | .srol d a b => encSB 1 16 d a b
  | .smin_s d a b => encSB 1 17 d a b
  | .smin_z d a b => encSB 1 18 d a b
  | .smax_s d a b => encSB 1 19 d a b
  | .smax_z d a b => encSB 1 20 d a b
  | .sclz d a => [packSB 1 d a 0 21]
  | .sctz d a => [packSB 1 d a 0 22]
  | .spopc d a => [packSB 1 d a 0 23]
  | .sbrev d a => [packSB 1 d a 0 24]
  | .sbswap d a => [packSB 1 d a 0 25]
  | .smov d a => [packSB 1 d a 0 26]
  | .sbfx_s d a pos ln => encX 1 (s10 d) (s10 a) 0 0 0 0 0 0 (bfW2 27 pos ln)
  | .sbfx_z d a pos ln => encX 1 (s10 d) (s10 a) 0 0 0 0 0 0 (bfW2 28 pos ln)
  | .sbfi d a pos ln => encX 1 (s10 d) (s10 a) 0 0 0 0 0 0 (bfW2 29 pos ln)
  | .scmp_eq d a b => encSB 2 0 d a b
  | .scmp_ne d a b => encSB 2 1 d a b
  | .scmp_lt d a b => encSB 2 2 d a b
  | .scmp_le d a b => encSB 2 3 d a b
  | .scmp_ltz d a b => encSB 2 4 d a b
  | .scmp_lez d a b => encSB 2 5 d a b
  | .ssel d a b => encSB 2 6 d a b
  | .sadd_imm d a i => encSI 3 d a i
  | .sand_imm d a i => encSI 4 d a i
  | .sor_imm d a i => encSI 5 d a i
  | .sxor_imm d a i => encSI 6 d a i
  | .sshl_imm d a i => encSI 7 d a i
  | .sshr_imm d a i => encSI 8 d a i
  | .ssra_imm d a i => encSI 9 d a i
  | .sli d i => encSI 10 d 0 i
  | .sfadd_code t d a c => [packSI 0 11 d a ((t.code ++ (0 : BitVec 1) ++ c : BitVec (2 + 1 + 8)))]
  | .sfmul_code t d a c => [packSI 0 11 d a ((t.code ++ (1 : BitVec 1) ++ c : BitVec (2 + 1 + 8)))]
  | .slit d o => encPO 12 d o
  | .sadr d o => encPO 13 d o
  | .sfadd t r d a b => encSF 0 14 t.t5 0 r d a 0 b
  | .sfsub t r d a b => encSF 1 14 t.t5 0 r d a 0 b
  | .sfmul t r d a b => encSF 2 14 t.t5 0 r d a 0 b
  | .sfdiv t r d a b => encSF 3 14 t.t5 0 r d a 0 b
  | .sfsqrt t r d a => encSF 4 14 t.t5 0 r d a 0 (.reg 0)
  | .sfma t r d a b c => encSF 5 14 t.t5 0 r d a c b
  | .sfcvt dst src r d a => encSF 6 14 dst.code src.code r d a 0 (.reg 0)
  | .sfcmp c t d a b => encSF c 15 t.t5 0 .rne d a 0 b
  | .b o => encBR 16 0 0 o
  | .bz a o => encBR 16 a 1 o
  | .bnz a o => encBR 16 a 2 o
  | .bc_lt a o => encBR 16 a 3 o
  | .bc_ge a o => encBR 16 a 4 o
  | .bc_gt a o => encBR 16 a 5 o
  | .bc_le a o => encBR 16 a 6 o
  | .bk_any k o => encBR 17 (k6 k) 0 o
  | .bk_all k o => encBR 17 (k6 k) 1 o
  | .bk_none k o => encBR 17 (k6 k) 2 o
  | .call o => encBR 18 0 0 o
  | .bx a => [packSB 19 0 a 0 0]
  | .ret => [packSB 19 0 0 0 1]
  | .sloop a o => encBR 20 a 0 o
  | .nop => [packSB 21 0 0 0 0]
  | .yield => [packSB 21 0 0 0 1]
  | .sleep a => [packSB 21 0 a 0 2]
  | .exit => [packSB 21 0 0 0 3]
  | .kand d a b => [packSB 22 (k6 d) (k6 a) (k6 b) 0]
  | .kor d a b => [packSB 22 (k6 d) (k6 a) (k6 b) 1]
  | .kxor d a b => [packSB 22 (k6 d) (k6 a) (k6 b) 2]
  | .kandn d a b => [packSB 22 (k6 d) (k6 a) (k6 b) 3]
  | .knot d a => [packSB 22 (k6 d) (k6 a) 0 4]
  | .kmov d a => [packSB 22 (k6 d) (k6 a) 0 5]
  | .kexit a => [packSB 22 0 (k6 a) 0 6]
  | .kset d a => [packSB 23 (k6 d) a 0 0]
  | .kget d a => [packSB 23 d (k6 a) 0 1]
  | .kpopc d a => [packSB 23 d (k6 a) 0 2]
  | .kffs d a => [packSB 23 d (k6 a) 0 3]
  | .vadd w o => encV 0x18 o.d o.a 0 (w.t5 false) o.k 0 o.b
  | .vsub w o => encV 0x19 o.d o.a 0 (w.t5 false) o.k 0 o.b
  | .vadds_s w o => encV 0x1A o.d o.a 0 (w.t5 true) o.k 0 o.b
  | .vadds_z w o => encV 0x1B o.d o.a 0 (w.t5 false) o.k 0 o.b
  | .vsubs_s w o => encV 0x1C o.d o.a 0 (w.t5 true) o.k 0 o.b
  | .vsubs_z w o => encV 0x1D o.d o.a 0 (w.t5 false) o.k 0 o.b
  | .vmul w o => encV 0x1E o.d o.a 0 (w.t5 false) o.k 0 o.b
  | .vmulh_s w o => encV 0x1F o.d o.a 0 (w.t5 true) o.k 0 o.b
  | .vmulh_z w o => encV 0x20 o.d o.a 0 (w.t5 false) o.k 0 o.b
  | .vmad w o c => encV 0x21 o.d o.a c (w.t5 false) o.k 0 o.b
  | .vand o => encV 0x22 o.d o.a 0 0 o.k 0 o.b
  | .vor o => encV 0x23 o.d o.a 0 0 o.k 0 o.b
  | .vxor o => encV 0x24 o.d o.a 0 0 o.k 0 o.b
  | .vandn o => encV 0x25 o.d o.a 0 0 o.k 0 o.b
  | .vshl w o => encV 0x26 o.d o.a 0 (w.t5 false) o.k 0 o.b
  | .vshr w o => encV 0x27 o.d o.a 0 (w.t5 false) o.k 0 o.b
  | .vsra w o => encV 0x28 o.d o.a 0 (w.t5 false) o.k 0 o.b
  | .vmin_s w o => encV 0x29 o.d o.a 0 (w.t5 true) o.k 0 o.b
  | .vmin_z w o => encV 0x2A o.d o.a 0 (w.t5 false) o.k 0 o.b
  | .vmax_s w o => encV 0x2B o.d o.a 0 (w.t5 true) o.k 0 o.b
  | .vmax_z w o => encV 0x2C o.d o.a 0 (w.t5 false) o.k 0 o.b
  | .vcmp c w kd a b k =>
    encV 0x2D ((0 : BitVec 3) ++ c ++ kd : BitVec (3 + 3 + 4)) a 0 (w.t5 (c == 2 || c == 3)) k 0 b
  | .vnot o => encX 0x2E o.d o.a 0 0 0 0 o.k 0 0
  | .vabs w o => encX 0x2E o.d o.a 1 0 0 (w.t5 false) o.k 0 0
  | .vneg w o => encX 0x2E o.d o.a 2 0 0 (w.t5 false) o.k 0 0
  | .vclz w o => encX 0x2E o.d o.a 3 0 0 (w.t5 false) o.k 0 0
  | .vpopc w o => encX 0x2E o.d o.a 4 0 0 (w.t5 false) o.k 0 0
  | .vmov o => encX 0x2E o.d o.a 5 0 0 0 o.k 0 0
  | .viota w d k => encX 0x2E d 0 6 0 0 (w.t5 false) k 0 0
  | .vli d v k => match v with
    | .imm t x => encX 0x2E d 0 7 0 1 t.code k 0 x
    | .lit x => packX0 true 0x2E d 0 0 :: packX1 7 0 0 k 0 :: 0 :: litWords x
  | .vbfx_s w o pos ln => encX 0x2E o.d o.a 8 0 0 (w.t5 true) o.k 0 (bfW2 0 pos ln)
  | .vbfx_z w o pos ln => encX 0x2E o.d o.a 9 0 0 (w.t5 false) o.k 0 (bfW2 0 pos ln)
  | .vbfi w o pos ln => encX 0x2E o.d o.a 10 0 0 (w.t5 false) o.k 0 (bfW2 0 pos ln)
  | .vsel o c => encV 0x2F o.d o.a c 0 o.k 0 o.b
  | .vfadd t r o => encV 0x30 o.d o.a 0 t.t5 o.k r.code o.b
  | .vfsub t r o => encV 0x31 o.d o.a 0 t.t5 o.k r.code o.b
  | .vfmul t r o => encV 0x32 o.d o.a 0 t.t5 o.k r.code o.b
  | .vfdiv t r o => encV 0x33 o.d o.a 0 t.t5 o.k r.code o.b
  | .vfma t r o c => encV 0x34 o.d o.a c t.t5 o.k r.code o.b
  | .vfms t r o c => encV 0x35 o.d o.a c t.t5 o.k r.code o.b
  | .vfnma t r o c => encV 0x36 o.d o.a c t.t5 o.k r.code o.b
  | .vfnms t r o c => encV 0x37 o.d o.a c t.t5 o.k r.code o.b
  | .vfmin t o => encV 0x38 o.d o.a 0 t.t5 o.k 0 o.b
  | .vfmax t o => encV 0x39 o.d o.a 0 t.t5 o.k 0 o.b
  | .vfminnum t o => encV 0x3A o.d o.a 0 t.t5 o.k 0 o.b
  | .vfmaxnum t o => encV 0x3B o.d o.a 0 t.t5 o.k 0 o.b
  | .vfcpys t o => encV 0x3C o.d o.a 0 t.t5 o.k 0 o.b
  | .vfcmp c t kd a b k => encV 0x3D ((0 : BitVec 3) ++ c ++ kd : BitVec (3 + 3 + 4)) a 0 t.t5 k 0 b
  | .vfabs t o => encX 0x3E o.d o.a 0 0 0 t.t5 o.k 0 0
  | .vfneg t o => encX 0x3E o.d o.a 1 0 0 t.t5 o.k 0 0
  | .vfsqrt t r o => encX 0x3E o.d o.a 2 0 0 t.t5 o.k r.code 0
  | .vfrcp t r o => encX 0x3E o.d o.a 3 0 0 t.t5 o.k r.code 0
  | .vfrsq t r o => encX 0x3E o.d o.a 4 0 0 t.t5 o.k r.code 0
  | .vfexp2 t r o => encX 0x3E o.d o.a 5 0 0 t.t5 o.k r.code 0
  | .vflog2 t r o => encX 0x3E o.d o.a 6 0 0 t.t5 o.k r.code 0
  | .vfsinpi t r o => encX 0x3E o.d o.a 7 0 0 t.t5 o.k r.code 0
  | .vfcospi t r o => encX 0x3E o.d o.a 8 0 0 t.t5 o.k r.code 0
  | .vftanh t r o => encX 0x3E o.d o.a 9 0 0 t.t5 o.k r.code 0
  | .vfrnd t r o => encX 0x3E o.d o.a 10 0 0 t.t5 o.k r.code 0
  | .vfclass t o => encX 0x3E o.d o.a 11 0 0 t.t5 o.k 0 0
  | .vfcvt dst src nsat r o part q seg sc =>
    encX 0x3F o.d o.a ((0 : BitVec 2) ++ seg ++ q ++ part : BitVec (2 + 2 + 2 + 4)) sc (if nsat then 2 else 0) dst.code o.k
      r.code (src.code.zeroExtend 32)
  | .vfdot2 t r o c => match o.b with
    | .reg b => encX 0x3F o.d o.a b c 0 t.t5 o.k r.code 0x10000000
    | .imm _ => []
    | .lit v => packX0 true 0x3F o.d o.a 0 :: packX1 0 c t.t5 o.k r.code :: 0x10000000 :: litWords v
  | .vfscale t r o => match o.b with
    | .reg b => encX 0x3F o.d o.a b 0 0 t.t5 o.k r.code 0x20000000
    | .imm _ => []
    | .lit v => packX0 true 0x3F o.d o.a 0 :: packX1 0 0 t.t5 o.k r.code :: 0x20000000 :: litWords v
  | .vshf_o w o sg => encX 0x40 o.d o.a o.b 0 0 (w.t5 false) o.k 0 (sg.zeroExtend 32)
  | .vshf_w w o sg => encX 0x41 o.d o.a o.b 0 0 (w.t5 false) o.k 0 (sg.zeroExtend 32)
  | .vshf_c w o sg => encX 0x42 o.d o.a o.b 0 0 (w.t5 false) o.k 0 (sg.zeroExtend 32)
  | .vnbr f w o dist => encX 0x43 o.d o.a (f.zeroExtend 10) 0 0 (w.t5 false) o.k 0 (dist.zeroExtend 32)
  | .vbcast w o b sg => encX 0x44 o.d o.a (s10 b) 0 0 (w.t5 false) o.k 0 (sg.zeroExtend 32)
  | .vvote f o => encX 0x45 o.d o.a (f.zeroExtend 10) 0 0 0 o.k 0 0
  | .vred f t r o => encX 0x46 o.d o.a (f.zeroExtend 10) 0 0 (redT5 f t) o.k r.code 0
  | .vscan_inc f t r o c => encX 0x47 o.d o.a (f.zeroExtend 10) c 0 (redT5 f t) o.k r.code 0
  | .vscan_exc f t r o c => encX 0x48 o.d o.a (f.zeroExtend 10) c 0 (redT5 f t) o.k r.code 0
  | .vperm o c => encX 0x49 o.d o.a o.b c 0 0 o.k 0 0
  | .vpack w sat o => match sat with
    | .off => encX 0x4A o.d o.a o.b 0 0 (w.t5 false) o.k 0 0
    | .toS => encX 0x4A o.d o.a o.b 0 1 (w.t5 true) o.k 0 0
    | .toZ => encX 0x4A o.d o.a o.b 0 1 (w.t5 false) o.k 0 0
  | .vunpk w s p o => encX 0x4B o.d o.a (p.zeroExtend 10) 0 0 (w.t5 s) o.k 0 0
  | .vxshf o b => encX 0x4C o.d o.a (s10 b) 0 0 0 o.k 0 0
  | .ld_s d a w s off q => encX 0x50 (s10 d) (s10 a) 0 0 0 (w.t5 s) 0 0 (memW2 q 0 off)
  | .st_s d a w off q => encX 0x51 (s10 d) (s10 a) 0 0 0 (w.t5 false) 0 0 (memW2 q 0 off)
  | .ld_v d a k off q => encX 0x52 d (s10 a) 0 0 0 0 k 0 (memW2 q 0 off)
  | .st_v d a k off q => encX 0x53 d (s10 a) 0 0 0 0 k 0 (memW2 q 0 off)
  | .ld_g d a w s k off q => encX 0x54 d a 0 0 0 (w.t5 s) k 0 (memW2 q 0 off)
  | .st_g d a w k off q => encX 0x55 d a 0 0 0 (w.t5 false) k 0 (memW2 q 0 off)
  | .ld_x am d a w s k off q =>
    encX 0x56 d a 0 0 (am.zeroExtend 3) (if am == 1 then 0 else w.t5 s) k 0 (memW2 q 0 off)
  | .st_x am d a w k off q =>
    encX 0x57 d a 0 0 (am.zeroExtend 3) (if am == 1 then 0 else w.t5 false) k 0 (memW2 q 0 off)
  | .pf l2 lanes a k off =>
    encX 0x58 0 a 0 0 ((0 : BitVec 1) ++ (if l2 then (1 : BitVec 1) else 0) ++ (if lanes then (1 : BitVec 1) else 0) : BitVec (1 + 1 + 1))
      0 k 0 (off.zeroExtend 32)
  | .at_s o d a b c => encAt 0x59 0 o (s10 d) (s10 a) (s10 b) (s10 c) 0
  | .at_g o d a b c k => encAt 0x5A 0 o d a b c k
  | .at_x am o d a b c k => encAt 0x5B am o d a b c k
  | .fence k s => [packSB 0x5C 0 0 0 (s ++ k)]
  | .cwb a b => [packSB 0x5D 0 a b 0]
  | .cinv a b => [packSB 0x5E 0 a b 0]
  | .smap d a b c => encX 0x5F (s10 d) (s10 a) (s10 b) (s10 c) 0 0 0 0 0
  | .sunmap d a => sub3 0x5F 1 d a 0
  | .cpy dir d a n r => match n with
    | .reg b =>
      -- in the extended form, field b zero means LEN24, so s0 as the length has the base form alone
      if b == 0 then [packSB 0x60 d a 0 (fld r 0 3 ++ dir)]
      else encX 0x60 (s10 d) (s10 a) (s10 b) (s10 r) (dir.zeroExtend 3) 0 0 0 0
    | .imm l => encX 0x60 (s10 d) (s10 a) 0 (s10 r) (dir.zeroExtend 3) 0 0 0 (l.zeroExtend 32)
  | .cpyt_ld d a b => sub3 0x61 0 d a b
  | .cpyt_st d a b => sub3 0x61 1 d a b
  | .cpym sx d a b r => encX 0x62 (s10 d) (s10 a) (s10 b) (s10 r) (if sx then 1 else 0) 0 0 0 0
  | .cpyg d a b r => encX 0x63 (s10 d) (s10 a) (s10 b) (s10 r) 0 0 0 0 0
  | .bbinit a b => sub3 0x64 0 0 a b
  | .bbexp a b => sub3 0x64 1 0 a b
  | .bbseal a => sub3 0x64 2 0 a 0
  | .bbwait d a b => sub3 0x64 3 d a b
  | .waitc ld st cp mx =>
    encX 0x65 0 0 0 0 0 0 0 0 ((0 : BitVec 8) ++ mx ++ cp ++ st ++ ld : BitVec (8 + 6 + 6 + 6 + 6))
  | .waitp c a => [packSB 0x66 0 a 0 (c.zeroExtend 5)]
  | .qpush v => encX 0x67 v 0 0 0 0 0 0 0 0
  | .qpop v => encX 0x67 v 0 0 0 1 0 0 0 0
  | .qstat d => sub3 0x67 2 d 0 0
  | .tidset v t => encX 0x68 v 0 0 0 0 0 0 0 (t.zeroExtend 32)
  | .tidget v t => encX 0x69 v 0 0 0 0 0 0 0 (t.zeroExtend 32)
  | .mxzero a => encX 0x6A (k10 a) 0 0 0 0 0 0 0 0
  | .mxstep a t c f => match f with
    | .base => [((0 : BitVec 2) ++ (0x6B : BitVec 7) ++ a ++ t ++ c ++ (0 : BitVec 7) : BitVec (2 + 7 + 4 + 6 + 6 + 7))]
    | .ext sa sb r => encX 0x6B (k10 a) (s10 t) sa sb 0 0 0 r.code (c.zeroExtend 32)
  | .mxloop a t c n f => match f with
    | .base => [((0 : BitVec 2) ++ (0x6C : BitVec 7) ++ a ++ t ++ c ++ n ++ (0 : BitVec 1) : BitVec (2 + 7 + 4 + 6 + 6 + 6 + 1))]
    | .ext sa sb r => encX 0x6C (k10 a) (s10 t) sa sb 0 0 0 r.code ((0 : BitVec 20) ++ n ++ c : BitVec (20 + 6 + 6))
  | .mxfence d => sub3 0x6D 0 d 0 0
  | .mxwait a => sub3 0x6E 0 0 a 0
  | .lda v a k => encX 0x6F v (k10 a) 0 0 0 0 k 0 0
  | .sta v a k => encX 0x6F v (k10 a) 0 0 1 0 k 0 0
  | .bar_arr d b => sub3 0x70 0 d b 0
  | .bar_wait a b => sub3 0x70 1 a b 0
  | .bar_setm a b => sub3 0x70 2 a b 0
  | .fwait_pass d a b => sub3 0x71 0 d a b
  | .fwait_reach d a b => sub3 0x71 1 d a b
  | .pinc a b c => sub3 0x72 0 a b c
  | .pdec a b c => sub3 0x72 1 a b c
  | .pmove a b c => sub3 0x72 2 a b c
  | .wemit v b k => encX 0x73 v 0 (s10 b) 0 0 0 k 0 0
  | .wsend v a b k => encX 0x73 v (s10 a) (s10 b) 0 1 0 k 0 0
  | .wclose k => encX 0x74 0 0 0 0 0 0 k 0 0
  | .winfo d k => encX 0x74 d 0 0 0 1 0 k 0 0
  | .launch_child d a => sub3 0x75 0 d a 0
  | .jobput d a => sub3 0x76 0 d a 0
  | .wait_v d a b => sub3 0x77 0 d a b
  | .wake a => sub3 0x77 1 0 a 0
  | .bow_get d => sub3 0x78 0 d 0 0
  | .bow_pass => sub3 0x78 1 0 0 0
  | .safe i => encX 0x79 0 0 0 0 0 0 0 0 i
  | .sigchk i => encX 0x7A 0 0 0 0 0 0 0 0 i
  | .sigrd d => sub3 0x7A 1 d 0 0
  | .trap i => encX 0x7C 0 0 0 0 0 0 0 0 (i.zeroExtend 32)
  | .bkpt i => encX 0x7C 0 0 0 0 1 0 0 0 (i.zeroExtend 32)
  | .retf => sub3 0x7C 2 0 0 0
  | .mappg d a b => sub3 0x7D 0 d a b
  | .unmappg d a => sub3 0x7D 1 d a 0
  | .rgrel a b => sub3 0x7D 2 0 a b
  | .tunack d a => sub3 0x7D 3 d a 0
  | .scan_run d a b => sub3 0x7D 4 d a b
  | .srd d g => encX 0x7E (s10 d) 0 0 0 0 0 0 0 (g.zeroExtend 32)
  | .swr a g => encX 0x7E (s10 a) 0 0 0 1 0 0 0 (g.zeroExtend 32)
  | .ill w => w :: List.replicate (wordsOf w - 1) 0
  | _ => []

/-! ### Bytes and the table's numbering -/

/-- Word j of an instruction given as one number with the first word lowest. -/
def wordAt (w j : Nat) : Word32 := BitVec.ofNat 32 (w >>> (32 * j))

/-- The bytes of an instruction of at most five words, in the order memory holds them (R4, R264). -/
def tableBytes (w : Nat) : List Byte := (List.range 20).map (fun i => BitVec.ofNat 8 (w >>> (8 * i)))

/-- Four bytes as a little-endian word. -/
def wordOfBytes (b0 b1 b2 b3 : Byte) : Word32 := (b3 ++ b2 ++ b1 ++ b0 : BitVec (8 + 8 + 8 + 8))

/-- The words of a byte list, a last incomplete word dropped. -/
def wordsOfBytes : List Byte → List Word32
  | b0 :: b1 :: b2 :: b3 :: rest => wordOfBytes b0 b1 b2 b3 :: wordsOfBytes rest
  | _ => []

/-- The decoder on bytes. -/
def decodeBytes (bs : List Byte) : Except DecodeError (Instr × Nat) := decode (wordsOfBytes bs)

/-- What the decoder reads from an instruction whose bits are w as the opcode table numbers them; the bits above nbits
are zero. -/
def decodeTableWord (nbits w : Nat) : Option Instr :=
  match decodeBytes (tableBytes (w % 2 ^ nbits)) with
  | .ok (i, _) => some i
  | .error _ => none

end Sys2Proof
end

