-- ==== Sys2Proof/Machine/Flags.lean ====
section
/-! DEFINITION. The float flags of FPSTAT (R247, R248): their places, and the OR that makes them sticky (R249). -/
namespace Sys2Proof.Machine

/-- A set of float flags: IV 4, DZ 3, OF 2, UF 1, NX 0 (R247). -/
abbrev FFlags := BitVec 5

def flagNX : FFlags := 1
def flagUF : FFlags := 2
def flagOF : FFlags := 4
def flagDZ : FFlags := 8
def flagIV : FFlags := 16

/-- A flag set if a condition holds. -/
def flagIf (c : Bool) (f : FFlags) : FFlags := if c then f else 0

/-- FPSTAT after flags are ORed into it; bits 63:5 are reserved (R247, R249). -/
def fpstatOr (st : BitVec 5) (f : FFlags) : BitVec 5 := st ||| f

end Sys2Proof.Machine
end

