-- ==== Sys2Proof/Machine/Float.lean ====
section
/-! DEFINITION. Number formats and exact arithmetic (R239 to R259): values are exact numbers, and one function rounds. -/
namespace Sys2Proof.Machine

/-- A float format: exponent bits, fraction bits, and whether it is e4m3, whose top exponent holds finite values (R240). -/
structure FFmt where
  eb : Nat
  fb : Nat
  e4 : Bool
deriving DecidableEq, Repr

def fmt64 : FFmt := ⟨11, 52, false⟩
def fmt32 : FFmt := ⟨8, 23, false⟩
def fmtBf16 : FFmt := ⟨8, 7, false⟩
def fmt16 : FFmt := ⟨5, 10, false⟩
def fmtE4m3 : FFmt := ⟨4, 3, true⟩
def fmtE5m2 : FFmt := ⟨5, 2, false⟩

def FFmt.width (f : FFmt) : Nat := f.eb + f.fb + 1
def FFmt.bias (f : FFmt) : Nat := 2 ^ (f.eb - 1) - 1
/-- The exponent of the least normal number. -/
def FFmt.emin (f : FFmt) : Int := 1 - (f.bias : Int)
/-- The exponent of the greatest finite number. -/
def FFmt.emax (f : FFmt) : Int := if f.e4 then (f.bias : Int) + 1 else f.bias
/-- The greatest significand at that exponent. -/
def FFmt.mmax (f : FFmt) : Nat := if f.e4 then 14 else 2 ^ (f.fb + 1) - 1

def fmtOf : FTy → FFmt
  | .f64 => fmt64
  | .f32 => fmt32
  | .bf16 => fmtBf16
  | .f16 => fmt16

/-- An exact value: a NaN with its sign and whether it signals, an infinity, or (-1)^s * m * 2^e. -/
inductive FVal where
  | nan (s : Bool) (sig : Bool)
  | inf (s : Bool)
  | fin (s : Bool) (m : Nat) (e : Int)
deriving DecidableEq, Repr

/-- What an encoding means (R240, R241). -/
def fUnpack (f : FFmt) (x : Nat) : FVal :=
  let s := x.testBit (f.eb + f.fb)
  let e := x / 2 ^ f.fb % 2 ^ f.eb
  let m := x % 2 ^ f.fb
  if e = 2 ^ f.eb - 1 then
    if f.e4 then (if m = 7 then .nan s false else .fin s (m + 2 ^ f.fb) ((e : Int) - f.bias - f.fb))
    else if m = 0 then .inf s
    else .nan s (f.fb != 2 && !m.testBit (f.fb - 1))
  else if e = 0 then .fin s m (1 - (f.bias : Int) - f.fb)
  else .fin s (m + 2 ^ f.fb) ((e : Int) - f.bias - f.fb)

def fSignBit (f : FFmt) (s : Bool) : Nat := if s then 2 ^ (f.eb + f.fb) else 0

/-- The canonical quiet NaN (R241). -/
def fNan (f : FFmt) (s : Bool) : Nat :=
  fSignBit f s + (if f.e4 then 127 else (2 ^ f.eb - 1) * 2 ^ f.fb + 2 ^ (f.fb - 1))

def fInf (f : FFmt) (s : Bool) : Nat := fSignBit f s + (2 ^ f.eb - 1) * 2 ^ f.fb

def fMax (f : FFmt) (s : Bool) : Nat :=
  fSignBit f s + (if f.e4 then 126 else (2 ^ f.eb - 2) * 2 ^ f.fb + (2 ^ f.fb - 1))

def fZero (f : FFmt) (s : Bool) : Nat := fSignBit f s

def FVal.isNan : FVal → Bool
  | .nan .. => true
  | _ => false

def FVal.isSnan : FVal → Bool
  | .nan _ sg => sg
  | _ => false

def FVal.sign : FVal → Bool
  | .nan s _ => s
  | .inf s => s
  | .fin s _ _ => s

def FVal.isZero : FVal → Bool
  | .fin _ m _ => m == 0
  | _ => false

def FVal.neg : FVal → FVal
  | .nan s g => .nan s g
  | .inf s => .inf (!s)
  | .fin s m e => .fin (!s) m e

/-- Whether a magnitude between two candidates goes to the greater one (R246): rem against half of unit, a sticky rest
below rem, and whether the lesser candidate is odd. -/
def roundsUp (mode : Rnd) (s odd : Bool) (rem unit : Nat) (sticky : Bool) : Bool :=
  match mode with
  | .rne => decide (unit < 2 * rem) || (decide (2 * rem = unit) && (sticky || odd))
  | .rna => decide (unit ≤ 2 * rem)
  | .rtz => false
  | .rup => !s && (decide (rem ≠ 0) || sticky)
  | .rdn => s && (decide (rem ≠ 0) || sticky)

/-- m * 2^e, with a sticky rest below it, rounded to a multiple of 2^q: the multiple, and whether it is inexact. -/
def roundAt (mode : Rnd) (s : Bool) (m : Nat) (e q : Int) (sticky : Bool) : Nat × Bool :=
  if e ≥ q then
    let m' := m * 2 ^ (e - q).toNat
    (if roundsUp mode s (m' % 2 == 1) 0 1 sticky then m' + 1 else m', sticky)
  else
    let u := 2 ^ (q - e).toNat
    let lo := m / u
    let rem := m % u
    (if roundsUp mode s (lo % 2 == 1) rem u sticky then lo + 1 else lo, rem != 0 || sticky)

/-- What R248 delivers on overflow: true for the infinity, false for the greatest finite number. -/
def overflowsToInf (mode : Rnd) (s : Bool) : Bool :=
  match mode with
  | .rne | .rna => true
  | .rtz => false
  | .rup => !s
  | .rdn => s

/-- The outcome of rounding a non-zero magnitude: the encoding without overflow, or an overflow. -/
def fRoundMag (f : FFmt) (mode : Rnd) (s : Bool) (m : Nat) (e : Int) (sticky : Bool) : Option (Nat × FFlags) :=
  let top := (m.log2 : Int) + e
  -- far outside the exponent range the rounding needs no exact significand
  if top > f.emax + 1 then none
  else
    let far := decide (top < f.emin - f.fb - 3)
    let m := if far then 1 else m
    let e := if far then f.emin - f.fb - 4 else e
    let sticky := sticky || far
    let top := (m.log2 : Int) + e
    -- with an unbounded exponent: overflow, and tininess after rounding
    let u := roundAt mode s m e (top - f.fb) sticky
    let carry := decide (u.1 ≥ 2 ^ (f.fb + 1))
    let mu := if carry then 2 ^ f.fb else u.1
    let topu := if carry then top + 1 else top
    if topu > f.emax || (topu == f.emax && decide (mu > f.mmax)) then none
    else
      let q := if top - f.fb ≥ f.emin - f.fb then top - f.fb else f.emin - f.fb
      let r := roundAt mode s m e q sticky
      let fl := flagIf r.2 flagNX ||| flagIf (r.2 && decide (topu < f.emin)) flagUF
      -- a multiple n of 2^q with q at its least encodes as n itself; above that the exponent field adds
      let bits := r.1 + (q - (f.emin - f.fb)).toNat * 2 ^ f.fb
      some (fSignBit f s + bits, fl)

/-- round(x, type, mode) of a finite number (R246, R248); a zero keeps its sign. -/
def fRound (f : FFmt) (mode : Rnd) (s : Bool) (m : Nat) (e : Int) (sticky : Bool) : Nat × FFlags :=
  if m = 0 then (fZero f s, 0)
  else
    match fRoundMag f mode s m e sticky with
    | some r => r
    | none =>
      -- e4m3 has no infinity: its NaN stands there (R254); a saturating conversion replaces it
      (if overflowsToInf mode s then (if f.e4 then fNan f s else fInf f s) else fMax f s, flagOF ||| flagNX)

/-- The first NaN among operands, in operand order. -/
def firstNan : List FVal → Option Bool
  | [] => none
  | .nan s _ :: _ => some s
  | _ :: t => firstNan t

/-- A signed term of an exact sum: invalid (∞ × 0), infinite, finite, or absent (a NaN among its factors). -/
inductive FTerm where
  | skip
  | bad
  | inf (s : Bool)
  | fin (s : Bool) (m : Nat) (e : Int)
deriving DecidableEq, Repr

def termOf (neg : Bool) : FVal → FTerm
  | .nan .. => .skip
  | .inf s => .inf (s != neg)
  | .fin s m e => .fin (s != neg) m e

def prodOf (neg : Bool) (a b : FVal) : FTerm :=
  match a, b with
  | .nan .., _ => .skip
  | _, .nan .. => .skip
  | .inf s, .inf t => .inf ((s != t) != neg)
  | .inf s, .fin t m _ => if m = 0 then .bad else .inf ((s != t) != neg)
  | .fin s m _, .inf t => if m = 0 then .bad else .inf ((s != t) != neg)
  | .fin s m e, .fin t n g => .fin ((s != t) != neg) (m * n) (e + g)

def FTerm.isBad : FTerm → Bool
  | .bad => true
  | _ => false

def hasInf (s : Bool) : List FTerm → Bool
  | [] => false
  | .inf t :: r => (s == t) || hasInf s r
  | _ :: r => hasInf s r

/-- The least exponent of the non-zero terms. -/
def minExp : List FTerm → Option Int
  | [] => none
  | .fin _ m e :: r =>
    match minExp r with
    | none => if m = 0 then none else some e
    | some x => if m = 0 then some x else some (if e ≤ x then e else x)
  | _ :: r => minExp r

/-- The exact sum in units of 2^lo. -/
def sumAt (lo : Int) : List FTerm → Int
  | [] => 0
  | .fin s m e :: r =>
    (if m = 0 then 0 else (if s then -1 else 1) * ((m * 2 ^ (e - lo).toNat : Nat) : Int)) + sumAt lo r
  | _ :: r => sumAt lo r

/-- Whether every finite term has the sign s. -/
def allSign (s : Bool) : List FTerm → Bool
  | [] => true
  | .fin t _ _ :: r => (s == t) && allSign s r
  | _ :: r => allSign s r

/-- An exact sum of terms rounded once (R246, R252), the terms being finite. -/
def fSumFin (f : FFmt) (mode : Rnd) (ts : List FTerm) : Nat × FFlags :=
  let rd : Bool := mode == .rdn
  match minExp ts with
  | some lo =>
    let t := sumAt lo ts
    if t = 0 then (fZero f rd, 0) else fRound f mode (decide (t < 0)) t.natAbs lo false
  | none => (fZero f (if allSign false ts then false else if allSign true ts then true else rd), 0)

/-- The sum of terms with the special values of R248, R251 and R259; ops are the operands in their order. -/
def fSum (f : FFmt) (mode : Rnd) (ops : List FVal) (ts : List FTerm) : Nat × FFlags :=
  let bad := ts.any FTerm.isBad
  match firstNan ops with
  | some s => (fNan f s, flagIf (bad || (hasInf false ts && hasInf true ts) || ops.any FVal.isSnan) flagIV)
  | none =>
    if bad || (hasInf false ts && hasInf true ts) then (fNan f false, flagIV)
    else if hasInf false ts then (fInf f false, 0)
    else if hasInf true ts then (fInf f true, 0)
    else fSumFin f mode ts

def fAdd (f : FFmt) (mode : Rnd) (a b : Nat) : Nat × FFlags :=
  let a := fUnpack f a
  let b := fUnpack f b
  fSum f mode [a, b] [termOf false a, termOf false b]

def fSub (f : FFmt) (mode : Rnd) (a b : Nat) : Nat × FFlags :=
  let a := fUnpack f a
  let b := fUnpack f b
  fSum f mode [a, b] [termOf false a, termOf true b]

def fMul (f : FFmt) (mode : Rnd) (a b : Nat) : Nat × FFlags :=
  let a := fUnpack f a
  let b := fUnpack f b
  fSum f mode [a, b] [prodOf false a b]

/-- The fused forms of R321: the product negated, the addend negated, one rounding. -/
def fFma (f : FFmt) (mode : Rnd) (np nc : Bool) (a b c : Nat) : Nat × FFlags :=
  let a := fUnpack f a
  let b := fUnpack f b
  let c := fUnpack f c
  fSum f mode [a, b, c] [prodOf np a b, termOf nc c]

/-- The paired dot product of R331; g is the result format. -/
def fDot2 (f g : FFmt) (mode : Rnd) (a0 a1 b0 b1 c : Nat) : Nat × FFlags :=
  let a0 := fUnpack f a0
  let a1 := fUnpack f a1
  let b0 := fUnpack f b0
  let b1 := fUnpack f b1
  let c := fUnpack g c
  fSum g mode [a0, a1, b0, b1, c] [prodOf false a0 b0, prodOf false a1 b1, termOf false c]

def interleave : List (FVal × FVal) → List FVal
  | [] => []
  | (a, b) :: r => a :: b :: interleave r

/-- One element of a matrix step (R259): the accumulator element and K products, in the NaN order of R251. -/
def fDotK (f : FFmt) (mode : Rnd) (acc : FVal) (ps : List (FVal × FVal)) : Nat × FFlags :=
  fSum f mode (acc :: interleave ps) (termOf false acc :: ps.map (fun p => prodOf false p.1 p.2))

/-- The result for NaN operands, if there is one (R248, R251). -/
def nanRes (f : FFmt) (ops : List FVal) : Option (Nat × FFlags) :=
  match firstNan ops with
  | some s => some (fNan f s, flagIf (ops.any FVal.isSnan) flagIV)
  | none => none

/-- A quotient of exact values, correctly rounded (R248, R257). -/
def fDivV (f : FFmt) (mode : Rnd) (a b : FVal) : Nat × FFlags :=
  match nanRes f [a, b] with
  | some r => r
  | none =>
    let s := a.sign != b.sign
    match a, b with
    | .inf _, .inf _ => (fNan f false, flagIV)
    | .inf _, _ => (fInf f s, 0)
    | _, .inf _ => (fZero f s, 0)
    | .fin _ m e, .fin _ n g =>
      if n = 0 then (if m = 0 then (fNan f false, flagIV) else (fInf f s, flagDZ))
      else if m = 0 then (fZero f s, 0)
      else
        let k := f.fb + 5 + n.log2 - m.log2
        let num := m * 2 ^ k
        fRound f mode s (num / n) (e - g - k) (num % n != 0)
    | _, _ => (fNan f false, 0)

def fDiv (f : FFmt) (mode : Rnd) (a b : Nat) : Nat × FFlags := fDivV f mode (fUnpack f a) (fUnpack f b)

def fRcp (f : FFmt) (mode : Rnd) (a : Nat) : Nat × FFlags := fDivV f mode (.fin false 1 0) (fUnpack f a)

/-- The integer square root, found bit by bit from bit k - 1 down. -/
def isqrtFrom (n : Nat) : Nat → Nat → Nat
  | 0, r => r
  | k + 1, r => if (r + 2 ^ k) * (r + 2 ^ k) ≤ n then isqrtFrom n k (r + 2 ^ k) else isqrtFrom n k r

def isqrt (n : Nat) : Nat := isqrtFrom n (n.log2 / 2 + 1) 0

/-- m and e with e made even. -/
def evenExp (m : Nat) (e : Int) : Nat × Int := if e % 2 = 0 then (m, e) else (2 * m, e - 1)

def fSqrt (f : FFmt) (mode : Rnd) (a : Nat) : Nat × FFlags :=
  match fUnpack f a with
  | .nan s g => (fNan f s, flagIf g flagIV)
  | .inf s => if s then (fNan f false, flagIV) else (fInf f false, 0)
  | .fin s m e =>
    if m = 0 then (fZero f s, 0)
    else if s then (fNan f false, flagIV)
    else
      let p := evenExp m e
      let n := p.1 * 2 ^ (2 * (f.fb + 6))
      let r := isqrt n
      fRound f mode false r (p.2 / 2 - (f.fb + 6 : Nat)) (r * r != n)

def fRsq (f : FFmt) (mode : Rnd) (a : Nat) : Nat × FFlags :=
  match fUnpack f a with
  | .nan s g => (fNan f s, flagIf g flagIV)
  | .inf s => if s then (fNan f false, flagIV) else (fZero f false, 0)
  | .fin s m e =>
    if m = 0 then (fInf f s, flagDZ)
    else if s then (fNan f false, flagIV)
    else
      let p := evenExp m e
      let k := f.fb + 8 + p.1.log2 / 2 + 1
      let q := 2 ^ (2 * k) / p.1
      let r := isqrt q
      fRound f mode false r (-(k : Int) - p.2 / 2) (2 ^ (2 * k) % p.1 != 0 || r * r != q)

/-- The order of two values that are no NaN: true when a < b. −0 and +0 are equal. -/
def fLtV (a b : FVal) : Bool :=
  match a, b with
  | .nan .., _ => false
  | _, .nan .. => false
  | .inf s, .inf t => s && !t
  | .inf s, .fin .. => s
  | .fin .., .inf t => !t
  | .fin s m e, .fin t n g =>
    let lo := if e ≤ g then e else g
    let x : Int := (if s then -1 else 1) * ((m * 2 ^ (e - lo).toNat : Nat) : Int)
    let y : Int := (if t then -1 else 1) * ((n * 2 ^ (g - lo).toNat : Nat) : Int)
    decide (x < y)

/-- Minimum and maximum (R322): −0 lies below +0, the chosen operand is returned bit for bit. -/
def fMinMax (f : FFmt) (big num : Bool) (a b : Nat) : Nat × FFlags :=
  let x := fUnpack f a
  let y := fUnpack f b
  let fl := flagIf (x.isSnan || y.isSnan) flagIV
  if x.isNan || y.isNan then
    if num && !(x.isNan && y.isNan) then (if x.isNan then b else a, fl)
    else (fNan f (if x.isNan then x.sign else y.sign), fl)
  else
    let lt := fLtV x y || (!fLtV y x && x.sign && !y.sign)
    let gt := fLtV y x || (!fLtV x y && y.sign && !x.sign)
    if big then (if lt then b else a, fl) else (if gt then b else a, fl)

/-- The eight float conditions, in the order of cond: eq, ne, lt, le, gt, ge, un, ord (R282, R301). -/
def fCmp (f : FFmt) (c : BitVec 3) (a b : Nat) : Bool × FFlags :=
  let x := fUnpack f a
  let y := fUnpack f b
  let un := x.isNan || y.isNan
  let sn := x.isSnan || y.isSnan
  let lt := fLtV x y
  let gt := fLtV y x
  match c.toNat with
  | 0 => (!un && !lt && !gt, flagIf sn flagIV)
  | 1 => (un || lt || gt, flagIf sn flagIV)
  | 2 => (lt, flagIf un flagIV)
  | 3 => (!un && !gt, flagIf un flagIV)
  | 4 => (gt, flagIf un flagIV)
  | 5 => (!un && !lt, flagIf un flagIV)
  | 6 => (un, flagIf sn flagIV)
  | _ => (!un, flagIf sn flagIV)

/-- vfclass: one bit of 9:0 (R326). -/
def fClass (f : FFmt) (a : Nat) : Nat :=
  match fUnpack f a with
  | .nan _ g => if g then 2 ^ 8 else 2 ^ 9
  | .inf s => if s then 1 else 2 ^ 7
  | .fin s m _ =>
    if m = 0 then (if s then 2 ^ 3 else 2 ^ 4)
    else if m < 2 ^ f.fb then (if s then 2 ^ 2 else 2 ^ 5)
    else (if s then 2 ^ 1 else 2 ^ 6)

/-- vfrnd: to an integral value of the same type (R325). -/
def fRndInt (f : FFmt) (mode : Rnd) (a : Nat) : Nat × FFlags :=
  match fUnpack f a with
  | .nan s g => (fNan f s, flagIf g flagIV)
  | .inf _ => (a, 0)
  | .fin s m e =>
    if m = 0 || decide (e ≥ 0) then (a, 0)
    else
      let r := roundAt mode s m e 0 false
      if r.2 then ((fRound f mode s r.1 0 false).1, flagNX) else (a, 0)

/-- vfscale: a × 2^n (R332). -/
def fScale (f : FFmt) (mode : Rnd) (a : Nat) (n : Int) : Nat × FFlags :=
  match fUnpack f a with
  | .nan s g => (fNan f s, flagIf g flagIV)
  | .inf s => (fInf f s, 0)
  | .fin s m e => fRound f mode s m (e + n) false

/-- vfcpys, vfabs, vfneg: operations on the sign bit (R323). -/
def fSetSign (f : FFmt) (a : Nat) (s : Bool) : Nat := a % 2 ^ (f.eb + f.fb) + fSignBit f s

/-! ### Conversions -/

/-- A value to a wider or equal float format (R253). -/
def fCvtF (g : FFmt) (mode : Rnd) (v : FVal) : Nat × FFlags :=
  match v with
  | .nan s sg => (fNan g s, flagIf sg flagIV)
  | .inf s => (fInf g s, 0)
  | .fin s m e => fRound g mode s m e false

/-- A value to e4m3 or e5m2 (R254). -/
def fCvt8 (g : FFmt) (nsat : Bool) (mode : Rnd) (v : FVal) : Nat × FFlags :=
  match v with
  | .nan s sg => (fNan g s, flagIf sg flagIV)
  | .inf s => if !nsat then (fMax g s, 0) else if g.e4 then (fNan g s, flagIV) else (fInf g s, 0)
  | .fin s m e =>
    let r := fRound g mode s m e false
    if !nsat && r.2 &&& flagOF != 0 then (fMax g s, flagOF ||| flagNX) else r

/-- A value to an integer of w bits (R256). The result is the integer modulo 2^w. -/
def fCvtI (w : Nat) (sgn : Bool) (mode : Rnd) (v : FVal) : Nat × FFlags :=
  let lo : Int := if sgn then -((2 ^ (w - 1) : Nat) : Int) else 0
  let hi : Int := if sgn then ((2 ^ (w - 1) : Nat) : Int) - 1 else ((2 ^ w : Nat) : Int) - 1
  let wrap (x : Int) : Nat := (x % ((2 ^ w : Nat) : Int)).toNat
  match v with
  | .nan .. => (0, flagIV)
  | .inf s => (wrap (if s then lo else hi), flagIV)
  | .fin s m e =>
    if (m.log2 : Int) + e > 70 then (wrap (if m = 0 then 0 else if s then lo else hi), flagIf (m != 0) flagIV)
    else
      let r := roundAt mode s m e 0 false
      let x : Int := if s then -(r.1 : Int) else r.1
      if x < lo then (wrap lo, flagIV) else if x > hi then (wrap hi, flagIV) else (wrap x, flagIf r.2 flagNX)

/-- An integer's exact value. -/
def intVal (w : Nat) (sgn : Bool) (x : Nat) : FVal :=
  let x := x % 2 ^ w
  if sgn && x.testBit (w - 1) then .fin true (2 ^ w - x) 0 else .fin false x 0

/-! ### N4 (R243 to R245, R255) -/

/-- Magnitudes of N4.F, N4.P and N4.H in eighths, by bits 2:0. -/
def n4Mag (t i : Nat) : Nat :=
  match t with
  | 1 => [0, 4, 8, 12, 16, 24, 32, 48].getD i 0
  | 2 => [0, 1, 2, 4, 8, 16, 32, 64].getD i 0
  | _ => [0, 8, 16, 24, 32, 64, 128, 256].getD i 0

/-- An N4 code's value under a scale byte (R243, R244). -/
def n4Val (code scale : Nat) : FVal :=
  let t := scale / 64 % 4
  let e := scale % 64
  let c := code % 16
  if e = 63 then .nan false false
  else if t = 0 then (if c ≥ 8 then .fin true (16 - c) ((e : Int) - 32) else .fin false c ((e : Int) - 32))
  else .fin (decide (c ≥ 8)) (n4Mag t (c % 8)) ((e : Int) - 35)

/-- The greatest i below 8 with magnitude i at most q, counting down. -/
def n4Floor (t u q : Nat) : Nat → Nat
  | 0 => 0
  | i + 1 => if n4Mag t (i + 1) * u ≤ q then i + 1 else n4Floor t u q i

/-- A value to an N4 code under a scale byte with E below 63 (R254, R255). -/
def n4Enc (mode : Rnd) (scale : Nat) (v : FVal) : Nat × FFlags :=
  let t := scale / 64 % 4
  let e0 := scale % 64
  match v with
  | .nan .. => (0, flagIV)
  | .inf s =>
    if t = 0 then (if s then 8 else 7, 0) else ((if s then 8 else 0) + 7, 0)
  | .fin s m e =>
    if t = 0 then
      let lim := if s then 8 else 7
      let r := roundAt mode s m (e - e0 + 32) 0 false
      if r.1 > lim then (if s then 8 else 7, flagOF ||| flagNX)
      else (if s then (16 - r.1) % 16 else r.1, flagIf r.2 flagNX ||| flagIf (r.2 && r.1 == 0) flagUF)
    else
      -- the quotient in eighths, as q units of 1/u
      let sh := e - e0 + 32 + 3
      let u := if sh ≥ 0 then 1 else 2 ^ (-sh).toNat
      let q := if sh ≥ 0 then m * 2 ^ sh.toNat else m
      let sp := n4Mag t 7 - n4Mag t 6
      let lo := if n4Mag t 7 * u ≤ q then 7 + (q - n4Mag t 7 * u) / (sp * u) else n4Floor t u q 6
      let mag (i : Nat) : Nat := (if i < 8 then n4Mag t i else n4Mag t 7 + (i - 7) * sp) * u
      let rem := q - mag lo
      let up := decide (rem ≠ 0) && roundsUp mode s (lo % 2 == 1) rem (mag (lo + 1) - mag lo) false
      let i := if up then lo + 1 else lo
      let sb := if s then 8 else 0
      if i > 7 then (sb + 7, flagOF ||| flagNX)
      else (sb + i, flagIf (rem != 0) flagNX ||| flagIf (rem != 0 && i == 0) flagUF)

/-! ### The 8-bit float constants and packing -/

/-- The format of a float type5. -/
def fmtOf5 : Ty5 → FFmt
  | .f64 => fmt64
  | .f32 => fmt32
  | .bf16 => fmtBf16
  | .f16 => fmt16
  | .e4m3 => fmtE4m3
  | .e5m2 => fmtE5m2
  | _ => fmt64

def Ty5sgn : Ty5 → Bool
  | .s64 | .s32 | .s16 | .s8 => true
  | _ => false

/-- What an element of a type5 other than N4 means. -/
def tyVal (t : Ty5) (x : Nat) : FVal := if t.isI then intVal t.width (Ty5sgn t) x else fUnpack (fmtOf5 t) x

/-- A conversion between the types of R300 and R329, N4 apart. -/
def cvt (dst : Ty5) (nsat : Bool) (mode : Rnd) (v : FVal) : Nat × FFlags :=
  if dst.isI then fCvtI dst.width (Ty5sgn dst) mode v
  else if dst.isF8 then fCvt8 (fmtOf5 dst) nsat mode v
  else fCvtF (fmtOf5 dst) mode v

end Sys2Proof.Machine
end

