-- ==== Sys2Proof/Config.lean ====
section
/-! DEFINITION. What an implementation fixes and the spec leaves open. Every constant here is opaque: nothing in Lean can
evaluate it or prove a value of it, so a statement about it holds for every value. Each is named in a log entry. -/
namespace Sys2Proof.Config

/-- Free values: the n-th value drawn (DESIGN CHOICE, log 3). -/
opaque free : Nat → Word64

/-- How the completion of a refused declaration names what failed first: a location (0), a reach rule (1), a stream descriptor (2),
the peg store (3) or the translation root (4), and its index (R202, R218; DESIGN CHOICE, log 3). -/
opaque declReport : Nat → Nat → Word64

/-- The signature a healthy core's pattern set gives (R428, held in firmware; DESIGN CHOICE, log 4). -/
opaque scanSignature : Nat → Word64

/-- What the two copies of a pair run show, the quarantined core's beside its partner's, by core and run: each store's address and value,
and SIGM at each sigchk (R466, firmware's test code; DESIGN CHOICE, log 4). -/
opaque pairStores : Nat → Nat → List ((Word64 × Word64) × (Word64 × Word64))
opaque pairSigs : Nat → Nat → List (Word32 × Word32)

/-- Whether a start hangs until its watchdog expires, by FAILS (R489; DESIGN CHOICE, log 5). -/
opaque startHangs : Nat → Bool

/-- The outcome of each part of a start: RSA-3072, SLH-DSA, HBM training, die-to-die links (R488, R489; DESIGN CHOICE, log 5). -/
opaque rsaOk : Nat → Bool
opaque slhOk : Nat → Bool
opaque hbmOk : Nat → Bool
opaque linkOk : Nat → Bool

/-- Whether a host port trains as plain PCIe at a start, by tuning number and port (R484; DESIGN CHOICE, log 5). -/
opaque portPcie : Nat → Nat → Bool

/-- Which of the agents that could act at a device step acts, and whether a destination refuses a message (R84; DESIGN CHOICE, log 10). -/
opaque turn : Nat → Nat
opaque refuse : Nat → Bool

/-- Certificate chains, measurements and the two signatures of attestation (R490; DESIGN CHOICE, log 6). -/
opaque certChain : Nat → List Byte
opaque measurements : List Byte
opaque signRsa : List Byte → List Byte
opaque signSlh : List Byte → List Byte
/-- The OpaqueData element of the Glehus dual-signature extension around a signature. -/
opaque dualElement : List Byte → List Byte
opaque spdmVersion : List Byte
opaque spdmCaps : List Byte
opaque spdmAlgs : List Byte
opaque digest : List Byte → List Byte

end Sys2Proof.Config
end

