-- ==== Sys2Proof/Machine/Cells.lean ====
section
/-! DEFINITION. Finite maps from numbers, in one canonical form: strictly rising keys. Cells are such maps whose
unlisted entries read as zero and which list no zero, so that equal contents are equal data. -/
namespace Sys2Proof.Machine

/-- A finite map, keys strictly rising. -/
abbrev AMap (α : Type) := List (Nat × α)

/-- Bit-vector cells: an unlisted key reads as zero. -/
abbrev Cells (w : Nat) := List (Nat × BitVec w)

/-- Physical memory: bytes by physical address. What an unlisted address reads as is `Memory.unlisted`. -/
abbrev Memory := List Host.Cell

/-- The value at a key. -/
def amGet? {α : Type} : List (Nat × α) → Nat → Option α
  | [], _ => none
  | (k, v) :: t, i => if i = k then some v else amGet? t i

/-- Puts a value at a key, in the keys' order. -/
def amPut {α : Type} : List (Nat × α) → Nat → α → List (Nat × α)
  | [], i, v => [(i, v)]
  | (k, u) :: t, i, v => if i < k then (i, v) :: (k, u) :: t else if i = k then (i, v) :: t else (k, u) :: amPut t i v

/-- Removes a key. -/
def amDel {α : Type} (m : List (Nat × α)) (i : Nat) : List (Nat × α) := m.filter (fun e => decide (e.1 ≠ i))

def amGetD {α : Type} (m : List (Nat × α)) (i : Nat) (d : α) : α := (amGet? m i).getD d

/-- Applies f to the value at a key that is present. -/
def amMod {α : Type} (m : List (Nat × α)) (i : Nat) (f : α → α) : List (Nat × α) :=
  match amGet? m i with
  | some v => amPut m i (f v)
  | none => m

/-- Applies f to every value. -/
def amMap {α : Type} (m : List (Nat × α)) (f : Nat → α → α) : List (Nat × α) := m.map (fun p => (p.1, f p.1 p.2))

/-- Keeps the entries that satisfy p. -/
def amFilter {α : Type} (m : List (Nat × α)) (p : Nat → α → Bool) : List (Nat × α) := m.filter (fun e => p e.1 e.2)

/-- A key above every key in use. -/
def amFresh {α : Type} (m : List (Nat × α)) : Nat :=
  m.foldl (fun a e => if a ≤ e.1 then e.1 + 1 else a) 0

/-- The keys rise strictly, from lo up. -/
def amSorted {α : Type} : Nat → List (Nat × α) → Bool
  | _, [] => true
  | lo, (k, _) :: t => decide (lo ≤ k) && amSorted (k + 1) t

def cellGet {w : Nat} (m : Cells w) (i : Nat) : BitVec w := amGetD m i 0

/-- Writing zero removes the entry. -/
def cellPut {w : Nat} (m : Cells w) (i : Nat) (v : BitVec w) : Cells w := if v = 0 then amDel m i else amPut m i v

/-- The canonical form of cells: keys strictly rising, and no entry equal to what an unlisted key reads as. -/
def cellsWf {w : Nat} (m : Cells w) : Bool := amSorted 0 m && m.all (fun e => decide (e.2 ≠ 0))

/-- What a byte of memory that nothing has written reads as. DESIGN CHOICE (log 1): the spec gives none. -/
def Memory.unlisted : Byte := 0

/-- The canonical form of memory. -/
def Memory.wf (m : Memory) : Bool := cellsWf m

def memGet (m : Memory) (a : Nat) : Byte := amGetD m a Memory.unlisted

def memPut (m : Memory) (a : Nat) (v : Byte) : Memory := cellPut m a v

/-- n bytes from address a, as one little-endian number (R4). -/
def memBytes (m : Memory) (a : Nat) : Nat → Nat
  | 0 => 0
  | n + 1 => (memGet m a).toNat + 256 * memBytes m (a + 1) n

/-- Writes the n low bytes of v from address a up, little-endian. -/
def memPutBytes (m : Memory) (a : Nat) : Nat → Nat → Memory
  | 0, _ => m
  | n + 1, v => memPutBytes (memPut m a (BitVec.ofNat 8 v)) (a + 1) n (v / 256)

/-- Removes every cell of the n keys from a up. -/
def cellClear {w : Nat} (m : Cells w) (a n : Nat) : Cells w := m.filter (fun e => decide (e.1 < a || a + n ≤ e.1))

end Sys2Proof.Machine
end

