-- ==== Sys2Proof/Machine/Event.lean ====
section
/-! DEFINITION. What the device's events carry: one constructor of Event per event row of the opcode table. Queues of
events are plain data of State; exec's arm for the row reads the event at hand from State.ev. -/
namespace Sys2Proof

/-- A stamp: epoch and counter word (R196). -/
structure Stamp where
  epoch : Word64
  cw : Word64
deriving DecidableEq, Repr

/-- One delta of a batch: a signed amount at a placed stamp (R205). -/
structure Delta where
  loc : Nat
  stamp : Stamp
  amt : Int
deriving DecidableEq, Repr

/-- The source of a batch (R205). -/
inductive BatchSrc where
  | group (gid : Nat)
  | engine (cluster : Nat)
  | command
  | peer (dev : Nat)
deriving DecidableEq, Repr

/-- A stop of the fabric (R81, R82): core and slice numbers are cluster * 256 + core and cluster * 64 + slice. -/
inductive Stop where
  | core (n : Nat)
  | slice (n : Nat)
  | windowEngine (cluster : Nat)
  | fret (cluster : Nat)
  | edge (cluster port : Nat)
  | stack (n : Nat)
  | commandProcessor
  | progressUnit
  | transferEngine
  | hostPort (n : Nat)
  | expander (n : Nat)
  | peerHub
deriving DecidableEq, Repr

/-- One leg of a route (R82): a loop by its index, and the stops between which it carries the message. Loops 20 c to 20 c + 19
are cluster c's, 160 to 175 the die-crossing ones. DESIGN CHOICE, log 35. -/
structure Leg where
  loop : Nat
  src : Stop
  dst : Stop
deriving DecidableEq, Repr

/-- Message classes (R55). -/
inductive MsgClass where
  | req | fwd | data | ack | prog | ctrl
deriving DecidableEq, Repr

/-- An update of a byte-counting barrier (R114). -/
inductive BarUpd where
  | expect (n : Nat)
  | credit (k : Nat)
  | seal
deriving DecidableEq, Repr

/-- A fault record, field by field (R456). -/
structure FaultRec where
  src : BitVec 3
  ten : BitVec 4
  ctx : BitVec 6
  grp : BitVec 5
  part : BitVec 6
  first : BitVec 16
  team : Word32
  mask : Word32
  fcode : Word32
  pc : BitVec 56
  fva : Word64
  cmd0 : Word64
  cmd1 : Word64
  cmd2 : Word64
  cmd3 : Word64
  /-- the queue command whose work the record is of, which is not complete before the record is written (R455); no bit of the record -/
  by_ : Option Nat := none
deriving DecidableEq, Repr

/-- A handle use of a command (R439): read, write, handle index. -/
structure HUse where
  rd : Bool
  wr : Bool
  idx : Nat
deriving DecidableEq, Repr

/-- A queue command as read from its slot: its place, header and the 96 body bytes as one number (R439, R440).
id is the device's own name for the command, given in arrival order (R443). -/
structure QCmd where
  id : Nat
  queue : Nat
  admin : Bool
  op : BitVec 8
  ord : Bool
  repl : Bool
  pin : Bool
  det : Bool
  badHdr : Bool
  nh : Nat
  uses : List HUse
  tag : Word64
  body : BitVec 768
deriving DecidableEq, Repr

/-- A completion record of a queue command (R441). -/
structure CompRec where
  queue : Nat
  admin : Bool
  cmd : Nat
  tag : Word64
  code : BitVec 16
  res : BitVec 40
  status : BitVec 7
  /-- handles the command wrote (R445) -/
  wrote : List Nat
deriving DecidableEq, Repr

/-- A transfer as its peer knows it: the issuing context and the paired one, the issuer's name for it, and what its fault record
shows: TAG, bytes done, SRC and DST (R457, R487). -/
structure PeerReq where
  ctx : Nat
  paired : Nat
  id : Nat
  tag : Word64
  done : Nat
  src : Word64
  dst : Word64
deriving DecidableEq, Repr

/-- What a flit of a peer link carries: a progress unit's batch; the peer-side bytes of a transfer of the peer, written here or asked
for, with their poison marks; and the answers to this device's own requests, each with its transfer and the bytes done before it
(R80, R214, R487). DESIGN CHOICE, log 36. -/
inductive PeerMsg where
  | batch (seq ctx : Nat) (ds : List Delta)
  | write (r : PeerReq) (va : Word64) (n data marks : Nat)
  | read (r : PeerReq) (va : Word64) (n : Nat)
  | wrote (id done n : Nat)
  | data (id done n v marks : Nat)
  | faulted (id done : Nat) (code : BitVec 16)
deriving DecidableEq, Repr

/-- Kinds of window entry (R231). -/
inductive WEntry where
  | opn | resume | merge | close
deriving DecidableEq, Repr

/-- Causes of a tuning event (R468): what changes in the tuning record. -/
inductive TuneCause where
  | core (core : Nat)
  | cluster (cluster : Nat)
  | slice (cluster slice : Nat)
  | link (link lanes rate : Nat)
  | expander (port : Nat)
  /-- a start, which publishes its record (R488) -/
  | start
deriving DecidableEq, Repr

/-- A message of the registration protocol names its sector by physical address bits 51:7. Data and byte masks cover
the sector's 128 bytes, byte i at bits 8i+7:8i (R51, R55). -/
structure SectorData where
  mask : BitVec 128
  data : BitVec 1024
deriving DecidableEq, Repr

/-- One lane of an atomic's message: the byte offset of its word in the sector, and its operands. -/
structure AtomLane where
  off : Nat
  b : Word64
  c : Word64
deriving DecidableEq, Repr

/-- One event, with what it carries. DESIGN CHOICE, log 36. -/
inductive Event where
  -- fault deliveries and engines
  | parked_fault_delivery
  | eccu_delivery
  | park (matrix : Bool) (gid slot : Nat) (fcode : Word32) (va : Word64)
  | copy_progress (gid slot n : Nat)
  /-- src is the core of the engine that makes the update -/
  | barrier_update (src core off : Nat) (u : BarUpd)
  | matrix_step (gid slot : Nat)
  | transfer_finish (id : Nat)
  -- messages of the registration protocol: core numbers are cluster*256 + core, sectors are PA bits 51:7
  | rds (core sector : Nat) (bypass : Bool)
  | rego (core sector : Nat) (mask : BitVec 128)
  | wt (core sector : Nat) (d : SectorData) (rel bypass : Bool)
  | wb (core sector : Nat) (d : SectorData)
  /-- one message carries the lanes of one sector, in ascending order (R55, R66) -/
  | atom (core sector : Nat) (aop : BitVec 4) (w64 : Bool) (r : Rnd) (lanes : List AtomLane)
  | fwdrd (owner core sector : Nat)
  | rvk (owner sector : Nat) (words : BitVec 16)
  | fill (core sector : Nat) (data : BitVec 1024) (poison : BitVec 128) (elsewhere : BitVec 16) (fwds : Nat)
  | fwddata (core sector : Nat) (d : SectorData)
  | rvkdata (owner sector : Nat) (words : BitVec 16) (d : SectorData)
  /-- the old values, each with its byte offset in the sector -/
  | atomrsp (core sector : Nat) (w64 : Bool) (olds : List (Nat × Word64))
  | regack (core sector : Nat)
  | wtack (core sector : Nat)
  | wback (core sector : Nat)
  | retry (core region : Nat)
  | region_home_lookup (core region : Nat)
  | refused_message_reoffer
  -- host ports, expanders, base dies
  | memrd (line : Nat)
  | memwr (line : Nat) (mask : BitVec 64) (data : BitVec 512)
  | birsp (line : Nat) (inv : Bool)
  | biconflict (line : Nat)
  | snpdata (line : Nat)
  | snpinv (line : Nat)
  | snpcur (line : Nat)
  | cxl_cache_data (line : Nat) (own : Bool) (keep : Bool)
  | expander_memrd_data (sector : Nat) (data : BitVec 1024) (poison : BitVec 128)
  -- progress units, peers
  | batch (src : BatchSrc) (ctx : Nat) (ds : List Delta)
  | frontier_announcement (ctx loc : Nat)
  | fret_forward (cluster : Nat)
  | batch_acknowledgement (gid : Nat)
  | peer_flit (link : Nat) (crcOk : Bool) (dev : Nat) (msg : PeerMsg)
  | peer_batch (dev seq ctx : Nat) (ds : List Delta)
  | peer_batch_ack (dev seq : Nat)
  | link_retrain (link lanes rate : Nat)
  | exchange_restore (dev : Nat)
  -- window engines
  | window_engine_step (cluster : Nat)
  | window_group_start (cluster ctx sid : Nat) (kind : WEntry)
  | window_group_timeout (cluster ctx sid : Nat) (kind : WEntry)
  | peg_load (ctx sid win : Nat)
  -- dispatch
  | team_start (grid : Nat)
  | part_start (team part : Nat)
  | part_exit (team part : Nat)
  | job_chunk_deal (card : Nat)
  | bow_receive
  -- timers
  | urgent (gid : Nat)
  | yield_expiry (gid : Nat)
  | sleep_expiry (gid : Nat)
  | vnbr_timeout (gid : Nat)
  | vxshf_timeout (gid : Nat)
  | forced_save (gid : Nat)
  -- tuning, scan, recovery
  | tuning_event (c : TuneCause)
  | tune_deadline (ctx : Nat)
  | scan_pattern_start (id : Nat)
  | scan_compare (id : Nat) (obs : Word64)
  | pair_mismatch (core : Nat)
  | patrol_scrub (stack : Nat)
  -- records, doorbells, commands
  | fault_record (r : FaultRec)
  | completion_record (r : CompRec)
  /-- a host's write of n bytes at an offset of the doorbell window (R438) -/
  | doorbell (off n : Nat)
  | launch (c : QCmd)
  | job (c : QCmd)
  | stream_put (c : QCmd)
  | stream_advance (c : QCmd)
  | wait_stamp (c : QCmd)
  | signal (c : QCmd)
  | xfer (c : QCmd)
  | pin (c : QCmd)
  | tune_ack (c : QCmd)
  | ctx_create (c : QCmd)
  | ctx_destroy (c : QCmd)
  | q_create (c : QCmd)
  | q_destroy (c : QCmd)
  | stream_reset (c : QCmd)
  | park_resume (c : QCmd)
  | preempt (c : QCmd)
  | resume (c : QCmd)
  | checkpoint (c : QCmd)
  -- start-up and management
  | start (rsaOk slhOk hbmOk linkOk hangs : Bool)
  | start_watchdog
  | fails_clear
  | admin_queue_create (tenant : BitVec 4) (qcb : Nat)
  | fault_ring_set (tenant : BitVec 4) (rcb : Nat)
  | tenant_reset (tenant : BitVec 4)
  | context_pairing (ctx dev peerCtx : Nat)
  | get_version
  | get_capabilities
  | negotiate_algorithms
  | get_digests
  | get_certificate (slot off len : Nat)
  | challenge (nonce : BitVec 256)
  | get_measurements (nonce : BitVec 256)
  | base_die_reply (sector : Nat) (data : BitVec 1024) (poison : BitVec 128)
  | host_port_completion (gid : Nat) (data : Word64)
  | pcie_host_access (write : Bool) (line : Nat) (mask : BitVec 64) (data : BitVec 512)
  | checkpoint_stream_end (id : Nat)
deriving DecidableEq, Repr

end Sys2Proof
end

