-- ==== Sys2Proof/Machine/State.lean ====
section
/-! DEFINITION. The state of one PX-860 as plain data: groups, teams, cores, the memory hierarchy, the translation
structures, logical time, streams, queues and commands, faults, the tuning record, links, start-up and attestation. -/
namespace Sys2Proof.Machine

/-! ### Groups (R166 to R190) -/

/-- What a group is doing. -/
inductive GStatus where
  /-- issues instructions -/
  | running
  /-- in a wait or a stall; its pc is the instruction that waits, which executes again (R44, R194) -/
  | waiting
  /-- in sleep (R307) -/
  | sleeping
  /-- in yield (R306) -/
  | yielded
  /-- stopped by a breakpoint (R425) or by an escalated fault (R454) -/
  | stopped
  /-- its part's start has not completed (R176) -/
  | starting
  /-- saved by a pre-emption (R459) -/
  | saved
  /-- has executed exit -/
  | gone
deriving DecidableEq, Repr

/-- How a group was saved last (R422, R459, R473). -/
inductive SaveWay where
  /-- at a wait or a stall: every register is kept -/
  | boundary
  /-- at safe, with the entry of the live-register table -/
  | safePoint (e : BitVec 1024)
  /-- by force -/
  | forced
deriving DecidableEq, Repr

inductive GKind where
  | compute | drone | window | job
deriving DecidableEq, Repr

/-- What put the group into its supervisor handler (R35, R43, R425). -/
inductive HandlerCause where
  /-- no handler runs -/
  | none
  /-- a precise fault of acting lanes, which replays them -/
  | precise
  /-- a precise fault of an instruction or access without lanes, which executes again whole -/
  | whole
  /-- a parked engine fault -/
  | parked
  /-- the fault of a stash's write-back (R27) -/
  | back
  /-- trap -/
  | trap
deriving DecidableEq, Repr

/-- A copy command as the engine holds it: its record of R102, with what was captured at acceptance. -/
structure CopyCmd where
  slot : Nat
  opc : BitVec 4
  bv : Bool
  boff : BitVec 15
  tid : BitVec 8
  done : Nat
  total : Nat
  d1 : Word64
  d2 : Word64
  d3 : Word64
  /-- the index list of cpyg, read at acceptance (R105) -/
  idx : List Word32
  /-- the TID entry the command was accepted with (R392) -/
  tident : BitVec 512
  /-- parked with a fault delivery pending, and that fault (R43) -/
  parked : Bool
  fcode : Word32
  fva : Word64
  /-- complete, but behind an older incomplete unit (R117) -/
  finished : Bool
  /-- device step of its acceptance: the group's older stores are performed first (R143) -/
  born : Nat
  /-- host-tracked lines its next byte has had snooped (R76) -/
  claim : List Nat
  /-- source bytes it has overwritten and may still read, each with its poison mark (R108) -/
  ahead : List (Nat × BitVec 9)
deriving DecidableEq, Repr

/-- A matrix command (R396, R397). -/
structure MxCmd where
  slot : Nat
  acc : AReg
  /-- mxzero takes no operands -/
  zero : Bool
  n : Nat
  step : Nat
  opw : Word64
  c0 : Word64
  c1 : Word64
  dn : Word64
  rnd : Rnd
  tida : BitVec 512
  tidb : BitVec 512
  sca : BitVec 512
  scb : BitVec 512
  /-- the two captured scale registers, one number of 2,048 bits each -/
  scra : BitVec 2048
  scrb : BitVec 2048
  /-- batch number; 0 while open (R402) -/
  batch : Nat
  flags : BitVec 5
  parked : Bool
  fcode : Word32
  fva : Word64
  born : Nat
  /-- host-tracked lines its next step has had snooped (R76) -/
  claim : List Nat
  /-- its tile before each step it has taken, oldest first (R147) -/
  past : List (Cells 64)
deriving DecidableEq, Repr

/-- A store unit of the ST counter: its name, and the acknowledgements it awaits (R116). -/
structure StUnit where
  id : Nat
  left : Nat
deriving DecidableEq, Repr

/-- A chained posting of vnbr (R340): the k-th of a group for its successor (l) or predecessor (right). -/
structure ChainPost where
  src : Nat
  right : Bool
  k : Nat
  data : BitVec 2048
deriving DecidableEq, Repr

/-- A pending vxshf (R350), or the image and acting lanes that a match has left for the group dst. -/
structure XPost where
  src : Nat
  dst : Nat
  reply : Bool
  word : Word64
  act : Word32
  data : BitVec 2048
deriving DecidableEq, Repr

/-- A window as a lane of a window group serves it (R231, R232). -/
structure LaneWin where
  win : Nat
  start : Word64
  last : Word64
  count : Word64
  /-- the record the lane handles, by its number; 0 where none -/
  recNo : Nat
deriving DecidableEq, Repr

/-- Who a group is (R174, R175, R182, R207): constant for its life, but for the place of a resumed group. -/
structure GIdent where
  gid : Nat
  kind : GKind
  ctx : Nat
  /-- grid of a compute or drone group; card of a job group; stream index of a window group -/
  work : Nat
  team : Nat
  part : Nat
  /-- index within the part, bits 3:0 of GIDX -/
  gidx : Nat
  core : Nat
  slot : Nat
  tidx : Word32
  ngrp : Nat
  npart : Nat
  nteam : Word32
  pri : Nat
  depth : Nat
  nv : Nat
  ntile : Nat
  accw64 : Bool
  stamp : Stamp
  loc : BitVec 16
  /-- queue window (R183) and the other side of a drone pair -/
  qbase : Nat
  qlen : Nat
  mate : Nat
deriving DecidableEq, Repr

/-- The supervisor state of a group (R34 to R37). -/
structure ExcState where
  /-- privilege: true in the supervisor handler (R15) -/
  sup : Bool
  cause : HandlerCause
  /-- the bank of s56 to s61 and k15 that is not in use (R35) -/
  sbank : Cells 64
  kbank : Word32
  /-- LIVE that retf restores (R35, R310) -/
  liveSave : Word32
  faultMask : Word32
  doneMask : Word32
  faultVa : Word64
  faultCode : Word32
  epc : BitVec 56
  /-- EPC as the entry wrote it, and the acting set fixed at the fault (R36, R37) -/
  epcSet : BitVec 56
  actSet : Word32
  /-- acting set of a replay that is due at pc (R36) -/
  replay : Option Word32
  /-- the replay that was due when the fetch of its instruction faulted: retf makes it due again (R36) -/
  replayKept : Option Word32
  /-- flags of the lanes an atomic has performed before a fault: ORed into FPSTAT when it completes (R364) -/
  dueFlags : BitVec 5
  /-- F_ECCU to be delivered at the next boundary: FVA and ACC (R356, R453) -/
  eccu : Option (Word64 × BitVec 3)
  /-- the store unit of an instruction that has faulted and is to be replayed: it rises once (R362) -/
  unit : Option Nat := none
  /-- faults of stash write-backs to be delivered at the next boundary: FAULTCODE and FAULTVA (R27) -/
  backFlts : List (Word32 × Word64) := []
deriving DecidableEq, Repr

/-- What a group has given to the engines and not yet got back (R101, R116, R208, R402). -/
structure EngState where
  /-- the units of LD in issue order: true for one that is complete behind an older one (R117) -/
  ldq : List Bool
  sts : List StUnit
  /-- copy commands in issue order (R117) -/
  cps : List CopyCmd
  /-- a completed copy of the group had a global destination (R144) -/
  copied : Bool
  /-- matrix commands in issue order -/
  mxs : List MxCmd
  /-- batches closed and not complete, oldest first, and the number the next batch gets (R402) -/
  batches : List Nat
  batchCtr : Nat
  /-- parked commands that await delivery, in the order in which they parked: matrix, slot (R45) -/
  parkQ : List (Bool × Nat)
  /-- progress batches not yet acknowledged (R208) -/
  batchOut : Nat
deriving DecidableEq, Repr

/-- The LD counter (R116). -/
def EngState.ld (n : EngState) : Nat := n.ldq.length

/-- The entry a window group runs (R231, R415). -/
structure WinEntry where
  kind : WEntry
  chunk : Bool
  lanes : List LaneWin
  closed : Word32
  /-- lanes of the wemit at issue whose records are in the ring already (R414) -/
  emitted : Nat
deriving DecidableEq, Repr

/-- One group: the architectural state of R166, and where it stands at issue. -/
structure Group where
  idn : GIdent
  status : GStatus
  /-- the device step since which the group has been ready without issuing, and urgency (R451) -/
  rdy : Nat
  urgent : Bool
  /-- groups a yield still waits for (R306); NSEC at which a sleep ends (R307) -/
  yieldFor : List Nat
  wakeAt : Nat
  /-- a save has been asked for and not yet made (R459) -/
  saveDue : Bool
  /-- how the save that holds it, or is under way, is made -/
  saveWay : SaveWay
  /-- physical word a wait.v watches (R419) -/
  watch : Option Nat
  /-- its wait is one the scheduler sees, and the awaited event has come up for it since it was saved there (R194) -/
  seen : Bool
  woken : Bool
  /-- the event of an fwait: the location, whether the frontier is to reach the stamp or to pass it, and the stamp (R194, R412) -/
  awaits : Option (Nat × Bool × Stamp) := none
  /-- its forced save is due: it issues nothing more until its accesses are performed and it is saved (R459) -/
  halt : Bool := false
  /-- LCLUS and LCORE as the group reads them until it is resumed, where a tuning event has moved its core or cluster since (R469, R470) -/
  posn : Option (Nat × Nat) := none
  /-- a wait of vnbr or vxshf has run out of time (R340, R351) -/
  timedOut : Bool
  /-- the values host-port completions have brought to the access at issue, in lane order (R366), and how many are to come -/
  hostVals : List Word64
  hostDue : Nat
  /-- the bbwait under way: the object's core and offset, its generation number, and the status an update has given it (R384) -/
  bbOn : Option (Nat × Nat × Nat × Option Nat)
  /-- host-tracked lines the access at issue has had snooped, whose host requests wait for it (R76) -/
  snooped : List Nat
  pc : BitVec 56
  sregs : Cells 64
  kregs : Cells 32
  /-- lane l of register r at 32 r + l -/
  vregs : Cells 64
  /-- element (i, j) of tile a at 1024 a + 32 i + j -/
  tiles : Cells 64
  live : Word32
  fpstat : BitVec 5
  tev : Bool
  chz : Bool
  mcp : Bool
  chainr : Word32
  /-- chained reads and postings made, to the left and to the right (R340) -/
  chRdL : Nat
  chRdR : Nat
  chPoL : Nat
  chPoR : Nat
  sigm : Word32
  sigw : Word32
  /-- head and count of the queue window, and whether the other side has exited (R183, R184) -/
  qhead : Nat
  qcount : Nat
  mateGone : Bool
  x : ExcState
  n : EngState
  w : WinEntry
deriving DecidableEq, Repr

/-! ### Teams, grids, cards (R174 to R189) -/

/-- A part-table entry (R24), with the part's declared use of its core. -/
structure PartEnt where
  v : Bool
  st : Bool
  core : Nat
  base : Nat
  size : Nat
  groups : Nat
  exited : Nat
  /-- the part's exit has completed: its allocation is free (R94) -/
  left : Bool
deriving DecidableEq, Repr

/-- A stash map (R26, R95): virtual base, size, scratch offset, and the group that made it. -/
structure StashMap where
  part : Nat
  va : Nat
  size : Nat
  off : Nat
  gid : Nat
deriving DecidableEq, Repr

/-- A named barrier (R409). -/
structure Barrier where
  mask : Word64
  arrived : Word64
  gen : Word64
  pendm : Option Word64
deriving DecidableEq, Repr

/-- A staged write of a deterministic launch (R158), with the order in which it was made. -/
structure StageEnt where
  gid : Nat
  team : Nat
  part : Nat
  gidx : Nat
  seq : Nat
  va : Word64
  mask : BitVec 8
  data : Word64
deriving DecidableEq, Repr

/-- Where a team of a deterministic launch stands with the bow (R160). -/
inductive BowState where
  | off | before | holds | passed
deriving DecidableEq, Repr

structure Team where
  grid : Nat
  isJob : Bool
  tidx : Nat
  ctx : Nat
  cluster : Nat
  parts : List PartEnt
  stash : List StashMap
  bars : List (Nat × Barrier)
  /-- compute groups that have executed exit, as member bits (R410) -/
  exits : Word64
  tids : Cells 512
  bow : BowState
  drained : Bool
  /-- its save block (R462): place and size -/
  savePlace : Nat
  saveSize : Nat
  saved : Bool
  /-- the scheduler has saved it to make room, until an event that it awaits (R194) -/
  swapped : Bool
  /-- the scratchpad images of a saved team, by part * 2^19 + offset, its stash maps and its staged entries (R463) -/
  image : Cells 8
  imagePoison : Cells 1
  savedMaps : List StashMap
  staged : List StageEnt
deriving DecidableEq, Repr

/-- One row of a code object's entry table (R452), ENTRY and DRONE with the load base added. DESIGN CHOICE, log 33. -/
structure EntryRow where
  entry : BitVec 56
  drone : BitVec 56
  window : Bool
  p : Nat
  g : Nat
  acc : Nat
  accw64 : Bool
  vregs : Nat
  dvregs : Nat
  qbase : Nat
  qlen : Nat
  scratch : Nat
  /-- for a window row: bits 127:0 of the stream descriptor, the entries and the ring, by address, 0 for none -/
  desc : BitVec 128
  opn : BitVec 56
  merge : BitVec 56
  close : BitVec 56
  outRsz : Nat
  ring : BitVec 56
  /-- code object the row belongs to -/
  obj : Nat
deriving DecidableEq, Repr

/-- A loaded code object: its address range, live-register table (R422) and TID initial table (R388). DESIGN CHOICE, log 33. -/
structure CodeObj where
  base : Nat
  size : Nat
  strict : Bool
  live : List (BitVec 1024)
  tids : List (BitVec 512)
deriving DecidableEq, Repr

/-- Whom a grid or card reports to: a queue command, a DONEW word (0 for none), and the parent grid (R181, R418). -/
structure Reports where
  cmd : Option QCmd
  donew : Word64
  parent : Nat
deriving DecidableEq, Repr

structure Grid where
  ctx : Nat
  queue : Nat
  depth : Nat
  row : EntryRow
  args : Word64
  stamp : Stamp
  loc : BitVec 16
  nteam : Nat
  nextTeam : Nat
  /-- teams from base up that have exited (R179) -/
  base : Nat
  exitedAbove : List Nat
  teamsUp : Nat
  kids : Nat
  pri : Nat
  cmask : BitVec 8
  det : Bool
  pinned : Bool
  repl : Bool
  /-- still replayable (R465), times replayed, granules snapshotted (R17) -/
  replOk : Bool
  replays : Nat
  snaps : List (Nat × Nat)
  rep : Reports
  /-- the command's place in the begin order (R447) -/
  order : Nat
  /-- team index that has the bow or is to receive it (R160) -/
  bowTeam : Nat
  cancelled : Bool
  /-- cores that a fault has rolled the launch back from: it replays on others (R464) -/
  avoid : List Nat := []
deriving DecidableEq, Repr

structure Card where
  ctx : Nat
  queue : Nat
  row : EntryRow
  base : Word64
  rsize : Nat
  count : Nat
  dealt : Nat
  groupsUp : Nat
  stamp : Stamp
  loc : BitVec 16
  pri : Nat
  cmask : BitVec 8
  rep : Reports
  order : Nat
  cancelled : Bool
deriving DecidableEq, Repr

/-! ### Cores and the memory hierarchy (R51 to R80, R90 to R101, R158) -/


/-- A core: the L1's share of the SRAM in KiB (R90), state towards dispatch, the stage buffer. -/
structure CoreSt where
  l1k : Nat
  closed : Bool
  quarantined : Bool
  clk : Nat
  stage : List StageEnt
deriving DecidableEq, Repr

/-- A sector as an L1 or a stash holds it (R28, R52, R56): tag, bytes, and per word P, O, W and kept. A word with valid
bytes in none of P, O and W is in V. -/
structure L1Sec where
  ctx : Nat
  vsec : Nat
  rd : Bool
  wr : Bool
  ex : Bool
  sup : Bool
  stash : Bool
  valid : BitVec 128
  data : BitVec 1024
  poison : BitVec 128
  p : BitVec 16
  o : BitVec 16
  w : BitVec 16
  kept : BitVec 128
  /-- bytes written here and not yet given up: those that registrations cover (R58), which FWDRD and RVK answer with -/
  reg : BitVec 128
  /-- bytes that have been valid in a stash sector: what its map leaves as scratch bytes (R100) -/
  ever : BitVec 128 := 0
  /-- words that become I at their WTACK (R67) -/
  drop : BitVec 16
  /-- the group whose access brought the sector here: faults of its write-back are that group's (R27) -/
  filler : Nat := 0
  /-- device step of the last access, for replacement (R52) -/
  used : Nat
deriving DecidableEq, Repr

/-- A sector in its L2 home (R53). -/
structure L2Sec where
  dirty : Bool
  data : BitVec 1024
  poison : BitVec 128
  /-- device step of the last access, for replacement -/
  used : Nat := 0
deriving DecidableEq, Repr

inductive OutKind where
  | rego | wt | wb | atom | rds
deriving DecidableEq, Repr

/-- A message a core awaits an answer to (R62), and the store unit it counts for. -/
structure Outst where
  kind : OutKind
  core : Nat
  sector : Nat
  gid : Nat
  unit : Nat
  words : BitVec 16
  /-- virtual address of an atomic's lane (R356) -/
  va : Nat := 0
  /-- its bytes are in the core's L1 or stash: performed at .core already (R130) -/
  near : Bool := false
  /-- further store units that await its answer: group and unit (R369) -/
  also_ : List (Nat × Nat) := []
deriving DecidableEq, Repr

/-- A fill under way (R59). -/
structure FillPend where
  core : Nat
  sector : Nat
  tag : L1Sec
  got : Bool
  data : BitVec 1024
  poison : BitVec 128
  fwds : Nat
  seen : Nat
  overMask : BitVec 128
  overData : BitVec 1024
  alloc : Bool
deriving DecidableEq, Repr

/-- A write-back buffer entry (R61). -/
structure WbEnt where
  core : Nat
  sector : Nat
  mask : BitVec 128
  data : BitVec 1024
deriving DecidableEq, Repr

/-- A 64-byte host line in its home: M, E or S; a line not listed is in I (R74). -/
inductive Mesi where
  | m | e | s
deriving DecidableEq, Repr

structure HostLine where
  st : Mesi
  data : BitVec 512
  poison : BitVec 64 := 0
  /-- device step of the last access, for replacement in its slice -/
  used : Nat := 0
deriving DecidableEq, Repr

/-- A cluster TLB entry: the leaf as walked, its level, and whether a pinned launch locks it (R29, R48). -/
structure TlbEnt where
  cluster : Nat
  ctx : Nat
  level : Nat
  vpage : Nat
  leaf : Word64
  leafPa : Nat
  /-- the pinned launches that lock it, by grid; a PIN command or a launch that has not started yet locks as 0 (R48, R50) -/
  locks : List Nat
deriving DecidableEq, Repr

/-- A first-level TLB entry (R29). -/
structure Tlb1Ent where
  core : Nat
  ctx : Nat
  level : Nat
  vpage : Nat
  leaf : Word64
  leafPa : Nat
deriving DecidableEq, Repr

/-! ### Logical time (R196 to R215) -/

/-- A placed stamp's count (R204). -/
structure Count where
  ctx : Nat
  loc : Nat
  stamp : Stamp
  n : Int
deriving DecidableEq, Repr

/-- A location table entry (R200). -/
structure LocEnt where
  v : Bool
  depth : BitVec 2
  kind : BitVec 2
  shr : Bool
  hf : Bool
  sid : Nat
deriving DecidableEq, Repr

/-- A frontier as last announced, and the clusters subscribed to it (R212). -/
structure Announced where
  ctx : Nat
  loc : Nat
  stamp : Stamp
  subs : List Nat
deriving DecidableEq, Repr

/-- A batch on its way (R205). -/
structure Batch where
  src : BatchSrc
  ctx : Nat
  ds : List Delta
deriving DecidableEq, Repr

/-- A batch sent to a peer and not acknowledged, or a peer's that waits for a lower number; its context is the receiver's of the pair
(R214, R486, R492). -/
structure PeerBatch where
  dev : Nat
  seq : Nat
  ctx : Nat
  ds : List Delta
deriving DecidableEq, Repr

/-- What the progress unit sends to a peer's: a batch, or the acknowledgement of a number it has received (R214, R486). -/
inductive PeerOut where
  | batch (b : PeerBatch)
  | ack (dev seq : Nat)
deriving DecidableEq, Repr

/-! ### Streams and windows (R216 to R237) -/

/-- A stream descriptor as the command processor holds it (R217), with the fault state of R230 and the input frontier
stamp h of R211. -/
structure StreamD where
  desc : BitVec 512
  late : Nat
  faulted : Bool
  h : Stamp
  /-- the stamp of the count it holds at the output location, if it holds one (R235) -/
  hold : Option Stamp
  /-- its delivery has parked on a page fault (R47) -/
  parked : Bool
  /-- records that have arrived so far: the arrival order that a fault record names (R456) -/
  arrived : Nat
deriving DecidableEq, Repr

/-- A record as an engine holds it: its number, arrival order and 512 bytes at most as one number (R219). -/
structure Rec where
  no : Nat
  ctx : Nat
  sid : Nat
  data : BitVec 4096
  /-- entries the record still waits for before its delivery ends (R234) -/
  left : Nat
  opened : List Nat
  /-- its index in the stream's arrival order (R456) -/
  idx : Nat
deriving DecidableEq, Repr

/-- A record in a window's queue: its number, the window a bridge absorbs first (R223, R229), and START, LASTE and COUNT
as they stood after its acceptance (R232). -/
structure QItem where
  recNo : Nat
  absorb : Option Nat
  start : Word64
  last : Word64
  count : Word64
deriving DecidableEq, Repr

inductive WinState where
  | dormant | active | closing
deriving DecidableEq, Repr

/-- A live window: its peg (R225) and its queue (R229). -/
structure Window where
  id : Nat
  ctx : Nat
  sid : Nat
  cluster : Nat
  st : WinState
  clp : Bool
  /-- the open entry is still to run -/
  opening : Bool
  /-- absorbed by a bridge that has not merged yet: no candidate for membership -/
  absorbed : Bool
  key : Word64
  start : Word64
  lastE : Word64
  lastC : Word64
  expiry : Word64
  count : Word64
  /-- state words, 16 of them, word w at bits 64w + 63 : 64w -/
  words : BitVec 1024
  queue : List QItem
  /-- a pane: the windows that contain it and have closed, by start; a closing window of panes: the panes still to merge,
  by number (R224) -/
  folds : List Nat
  pane : Bool
  /-- where the peg lies in the peg store; whether it is cached, and dirty (R226, R227) -/
  pegPa : Nat
  cached : Bool
  dirty : Bool
  /-- number of the member accepted most recently -/
  lastNo : Nat
  firstStamp : Stamp
  /-- the entry it is ready for, and the device step since which it is (R231, R449) -/
  readyFor : Option WEntry
  ready : Nat
deriving DecidableEq, Repr

/-! ### Contexts, queues, commands (R434 to R446) -/

structure Handle where
  va : Word64
  len : Nat
  h : Bool
deriving DecidableEq, Repr

/-- A peer device of a context: the paired context there, and false while the exchange with it is cut (R215, R487, R492). -/
structure Peer where
  dev : Nat
  ctx : Nat
  up : Bool
deriving DecidableEq, Repr

/-- A context: its descriptor's fields (R199, R216, R435) and what the command processor holds for it. -/
structure Ctx where
  tenant : Nat
  pol : Bool
  primax : Nat
  handler : BitVec 56
  root : Nat
  locs : List LocEnt
  /-- rule r of the pair (m, l) at (m * N + l) * 4 + r (R201) -/
  rules : Cells 64
  streams : List StreamD
  /-- VA of the stream table, where LATECNT is written (R217) -/
  strBase : Nat
  pegBase : Nat
  log2b : Nat
  /-- overflow buckets taken from a pool frame and not used yet (R226) -/
  pegFree : List Nat
  handles : List Handle
  plBase : Word64
  plNext : Word64
  objs : List CodeObj
  rows : List EntryRow
  suspended : Bool
  terminated : Bool
  /-- the fault code that its policy has terminated it on (R454, R487) -/
  endCode : Nat := 0
  /-- the tuning number acknowledged, and the deadline under way (R468) -/
  ackTun : Nat
  tunDeadline : Bool
  /-- the peer devices it has paired contexts on (R492) -/
  peers : List Peer
  destroying : Bool
deriving DecidableEq, Repr

/-- A ring control block as kept (R120, R436, R455): entry 0, log2 of the size, interrupt, where the block lies; the
addresses are physical in the admin path and virtual elsewhere. -/
structure Ring where
  block : Word64
  base : Word64
  log2n : Nat
  irq : Bool
  port : Bool
  vec : BitVec 16
deriving DecidableEq, Repr

/-- A queue (R436, R437). -/
structure Queue where
  ctx : Nat
  tenant : Nat
  admin : Bool
  block : Word64
  base : Word64
  log2n : Nat
  pri : Nat
  cmask : BitVec 8
  ring : Ring
  /-- commands read, and commands begun -/
  seen : Word32
  cons : Word32
  stopped : Bool
  /-- commands begun and not completed -/
  open_ : List Nat
  /-- a completion whose write has parked, and those behind it (R503) -/
  parked : List CompRec
  held : Bool
  destroying : Option QCmd
deriving DecidableEq, Repr

/-- A transfer of the block-transfer engine (R119, R122). -/
structure Xfer where
  cmd : QCmd
  ctx : Nat
  done : Nat
  len : Nat
  src : Word64
  dst : Word64
  peer : BitVec 8
  dstPeer : Bool
  srcPeer : Bool
  parked : Bool
  status : BitVec 7
  fcode : BitVec 16
  finished : Bool
  /-- the device step at which it finished: records reach a ring in that order (R123) -/
  finAt : Nat
  ring : Word64
  pri : Nat
  /-- the paired context on the peer; a request to the peer that is not answered; and bytes that the peer has sent and that are not
  written yet: count, value, poison marks (R487) -/
  paired : Nat := 0
  asked : Bool := false
  got : Option (Nat × Nat × Nat) := none
deriving DecidableEq, Repr

/-- A handle use of a command that is not complete, entered at its arrival (R444). -/
structure HandleUse where
  ctx : Nat
  idx : Nat
  cmd : Nat
  wr : Bool
deriving DecidableEq, Repr

/-- A checkpoint under way (R491). -/
structure Ckpt where
  cmd : QCmd
  ctx : Nat
  ranges : List (Nat × Nat)
  dst : Word64
  written : Nat
deriving DecidableEq, Repr

/-- A fault ring (R455) with the records that wait for room. -/
structure FaultRing where
  ring : Ring
  wait : List FaultRec
deriving DecidableEq, Repr

/-- What a fault record stands for until PARK.RESUME brings it back (R47, R425, R440, R503). -/
inductive ParkedFor where
  | brk (gid : Nat)
  | window (ctx sid : Nat)
  | xfer (cmd : Nat)
  | completion (queue : Nat) (admin : Bool)
  | peer (dev : Nat) (msg : PeerMsg)
deriving DecidableEq, Repr

/-! ### Scan, tuning, start-up, management (R428, R466 to R470, R488 to R492) -/

structure Scan where
  core : Nat
  noab : Bool
  thr : Nat
  ctx : Nat
  recVa : Word64
  /-- the pattern set runs, after the core has drained -/
  running : Bool
deriving DecidableEq, Repr

/-- The tuning record's fields (R467). -/
structure Tuning where
  tunn : Nat
  rev : Nat
  clus : BitVec 8
  /-- live-core masks and orders, per physical cluster -/
  cores : List (BitVec 192)
  lorder : List (List Nat)
  slices : List (BitVec 48)
  hbmStacks : BitVec 12
  chans : List (BitVec 16)
  exp : List Word64
  links : List Word32
  rgnt : Nat
  pspill : Nat
  snapBase : Nat
  snapSize : Nat
  saveBase : Nat
  saveSize : Nat
  clorder : List Nat
  /-- where firmware keeps the record -/
  place : Nat
deriving DecidableEq, Repr

/-- Lifetime data (R492). -/
structure Lifetime where
  correctable : Cells 32
  hist : Cells 32
  /-- logical core and 16-byte record of the last scans, oldest first (R428) -/
  scans : List (Nat × BitVec 128)
  events : List (Nat × TuneCause)
  retrains : Cells 32
deriving DecidableEq, Repr

/-- Where an SPDM exchange stands (R490): the transcript bytes so far and what has been negotiated. -/
structure Spdm where
  version : Bool
  caps : Bool
  algs : Bool
  transcript : List Byte
  response : List Byte
deriving DecidableEq, Repr

/-- Start-up state (R488, R489). -/
structure Boot where
  up : Bool
  fails : Nat
  stage : Nat
  reason : BitVec 8
  /-- a start hangs, and its watchdog has not expired yet -/
  hangs : Bool := false
  tunFlash : Nat
  minimal : Bool
  /-- the record of the full configuration, which firmware keeps in flash: a start in minimal mode leaves it -/
  record : Tuning
deriving DecidableEq, Repr

/-- The instruction being executed: its first word and its length in bytes. -/
structure IrState where
  w0 : Word32
  len : Nat
deriving DecidableEq, Repr

/-- Management path reports, newest first (R471, R492). -/
inductive MgmtReport where
  | resetDone (tenant : Nat)
  | refused
  | created (n : Nat)
deriving DecidableEq, Repr

/-! ### The machine -/

/-- The memory system (R51 to R80, R90 to R100). -/
structure MemSys where
  /-- memory by physical address, and the poisoned bytes among it (R80) -/
  mem : Memory
  poison : Cells 1
  /-- scratchpad bytes: core * 2^19 + SRAM offset -/
  sram : Cells 8
  srPoison : Cells 1
  /-- L1 and stash sectors: core * 2^45 + sector -/
  l1 : AMap L1Sec
  l2 : AMap L2Sec
  /-- owner core of each owned word (R57) -/
  dir : AMap Nat
  outs : List Outst
  fills : List FillPend
  wbuf : List WbEnt
  /-- region table (R69), the cores' region-home caches, the reverse map: cluster * 2^36 + granule -/
  regions : Cells 16
  rhome : AMap Nat
  /-- regions whose sectors are homed by hashing: the leaf last used has HOME = 1 (R72) -/
  hashed : Cells 1
  rmap : AMap Nat
  tlb : List TlbEnt
  tlb1 : List Tlb1Ent
  /-- host tracking (R75): false host-shared, true host-any; host lines of KIND 10 (R74) -/
  hfilt : AMap Bool
  hlines : AMap HostLine
  /-- lines with a back-invalidation outstanding (R75) -/
  biPend : List Nat
  /-- messages a home holds until a revocation or a back-invalidation is answered, in arrival order (R57, R76) -/
  held : List Event
  /-- messages refused, with the leg whose destination refuses them, to be offered again (R84, R85) -/
  refused : List (Event × Leg)
  /-- messages on the agenda that are on their way already, each with the legs before it: none once its destination has
  accepted it (R84, R85) -/
  under : List (Event × List Leg)
  /-- snapshot pool contents, by physical address of the byte saved (R17) -/
  snaps : AMap Byte
  /-- the poison marks of snapshotted bytes (R80) -/
  snapPoison : Cells 1
deriving DecidableEq, Repr

/-- Work placed on the device (R174 to R190, R160). -/
structure DispSys where
  cores : AMap CoreSt
  teams : AMap Team
  grids : AMap Grid
  cards : AMap Card
  chain : List ChainPost
  xposts : List XPost
  /-- deterministic grids in the order in which they receive the bow (R160) -/
  bowQ : List Nat
  scans : AMap Scan
  nextGid : Nat
  nextId : Nat
deriving DecidableEq, Repr

/-- Logical time (R204 to R215). -/
structure TimeSys where
  counts : List Count
  ann : List Announced
  /-- batches a cluster's fret aggregator holds (R210) -/
  frets : AMap (List Batch)
  /-- batches that a peer has not acknowledged, and what has been sent to peers, oldest first (R214, R486) -/
  peerOut : List PeerBatch
  peerWire : List PeerOut
  peerSeq : AMap Nat
  peerSeen : AMap Nat
  /-- batches from peers that have overtaken one with a lower number (R486) -/
  peerHeld : List PeerBatch := []
deriving DecidableEq, Repr

/-- Window engines (R219 to R235). -/
structure WinSys where
  recs : AMap Rec
  arrivals : AMap (List Nat)
  wins : AMap Window
deriving DecidableEq, Repr

/-- The command processor and the block-transfer engine (R434 to R446, R119). -/
structure CmdSys where
  queues : AMap Queue
  admins : AMap Queue
  /-- commands read and not begun, in arrival order -/
  cmds : List QCmd
  /-- WAIT.STAMP commands begun and not complete -/
  waits : List QCmd
  /-- PREEMPT commands begun whose context is not wholly saved, with the context (R459) -/
  preempts : List (QCmd × Nat)
  /-- commands begun and not complete, and commands that some completed command's dependants may still ask for -/
  running : List Nat
  uses : List HandleUse
  nextCmd : Nat
  beginNo : Nat
  xfers : AMap Xfer
  ckpts : AMap Ckpt
  frings : AMap FaultRing
  parkedFor : List (FaultRec × ParkedFor)
deriving DecidableEq, Repr

/-- The outside: ports, management path, start-up (R483 to R492). -/
structure HostSys where
  reply : List (Nat × BitVec 512)
  /-- what transfers have sent to peers, oldest first: this device's requests, and its answers to theirs (R487) -/
  peerSent : List (Nat × PeerMsg)
  /-- whether each host port is trained, and whether it runs plain PCIe (R484) -/
  portUp : List Bool
  portPcie : List Bool
  msix : List (Bool × BitVec 16)
  mgmt : List MgmtReport
  life : Lifetime
  boot : Boot
  spdm : Spdm
deriving DecidableEq, Repr

structure State where
  /-- device steps taken -/
  tick : Nat
  /-- the model's own counter of free values drawn so far -/
  free : Nat
  /-- nanoseconds since device start (R429) -/
  nsec : Nat
  /-- the group at issue, and every other group -/
  g : Group
  rest : List Group
  ir : IrState
  /-- the event at hand, events due in order, and timeouts with the device step at which each ends -/
  ev : Option Event
  agenda : List Event
  timers : List (Nat × Event)
  m : MemSys
  d : DispSys
  t : TimeSys
  w : WinSys
  q : CmdSys
  h : HostSys
  ctxs : AMap Ctx
  tun : Tuning
deriving DecidableEq, Repr

/-- Why the machine stops with a fault. -/
inductive Fault where
  /-- Raised by no step: every fault of the PX-860 is a step of the machine (an entry to the handler or a record to the
  host). It stands for a device without a group at issue that is asked for one. Safe: nothing is concluded from it. -/
  | noGroup
deriving DecidableEq, Repr

/-- Why the machine refuses an instruction. -/
inductive Refusal where
  /-- Raised by exec's arm of an instruction without a meaning. Safe: nothing is concluded from it. -/
  | notModelled (mnemonic : String)
deriving DecidableEq, Repr

/-! ### Reset -/

def Stamp.zero : Stamp := ⟨0, 0⟩

/-- No group: what stands at issue when no group does, and what a group's start values build on (R169). DESIGN CHOICE, log 13. -/
def Group.none : Group where
  idn := { gid := 0, kind := .compute, ctx := 0, work := 0, team := 0, part := 0, gidx := 0, core := 0, slot := 0,
           tidx := 0, ngrp := 1, npart := 1, nteam := 1, pri := 0, depth := 1, nv := 32, ntile := 0, accw64 := false,
           stamp := Stamp.zero, loc := 0xFFFF, qbase := 0, qlen := 0, mate := 0 }
  status := .gone
  rdy := 0
  urgent := false
  yieldFor := []
  wakeAt := 0
  saveDue := false
  saveWay := .boundary
  watch := Option.none
  seen := false
  woken := false
  timedOut := false
  hostVals := []
  bbOn := Option.none
  hostDue := 0
  snooped := []
  pc := 0
  sregs := []
  kregs := []
  vregs := []
  tiles := []
  live := 0xFFFFFFFF
  fpstat := 0
  tev := false
  chz := false
  mcp := false
  chainr := 0
  chRdL := 0
  chRdR := 0
  chPoL := 0
  chPoR := 0
  sigm := 0xFFFFFFFF
  sigw := 0xFFFFFFFF
  qhead := 0
  qcount := 0
  mateGone := false
  x := { sup := false, cause := .none, sbank := [], kbank := 0, liveSave := 0xFFFFFFFF, faultMask := 0, doneMask := 0,
         faultVa := 0, faultCode := 0, epc := 0, epcSet := 0, actSet := 0, replay := Option.none, replayKept := Option.none,
         dueFlags := 0, eccu := Option.none }
  n := { ldq := [], sts := [], cps := [], copied := false, mxs := [], batches := [], batchCtr := 1, parkQ := [], batchOut := 0 }
  w := { kind := .opn, chunk := false, lanes := [], closed := 0, emitted := 0 }

/-- No tuning record has been published (R488). DESIGN CHOICE, log 13. -/
def Tuning.none : Tuning where
  tunn := 0
  rev := 1
  clus := 0
  cores := []
  lorder := []
  slices := []
  hbmStacks := 0
  chans := []
  exp := []
  links := []
  rgnt := 0
  pspill := 0
  snapBase := 0
  snapSize := 0
  saveBase := 0
  saveSize := 0
  clorder := []
  place := 0

/-- The machine right after reset: no start has run, nothing is resident, no queue or context exists. DESIGN CHOICE, log 13. -/
def State.reset : State where
  tick := 0
  free := 0
  nsec := 0
  g := Group.none
  rest := []
  ir := { w0 := 0, len := 4 }
  ev := Option.none
  agenda := []
  timers := []
  m := { mem := [], poison := [], sram := [], srPoison := [], l1 := [], l2 := [], dir := [], outs := [], fills := [],
         wbuf := [], regions := [], rhome := [], hashed := [], rmap := [], tlb := [], tlb1 := [], hfilt := [], hlines := [],
         biPend := [], held := [], refused := [], under := [], snaps := [], snapPoison := [] }
  d := { cores := [], teams := [], grids := [], cards := [], chain := [], xposts := [], bowQ := [], scans := [],
         nextGid := 1, nextId := 1 }
  t := { counts := [], ann := [], frets := [], peerOut := [], peerWire := [], peerSeq := [], peerSeen := [] }
  w := { recs := [], arrivals := [], wins := [] }
  q := { queues := [], admins := [], cmds := [], waits := [], preempts := [], running := [], uses := [], nextCmd := 0, beginNo := 0,
         xfers := [], ckpts := [], frings := [], parkedFor := [] }
  h := { reply := [], peerSent := [], portUp := [false, false], portPcie := [false, false], msix := [], mgmt := [],
         life := { correctable := [], hist := [], scans := [], events := [], retrains := [] },
         boot := { up := false, fails := 0, stage := 0, reason := 0, tunFlash := 0, minimal := false, record := Tuning.none },
         spdm := { version := false, caps := false, algs := false, transcript := [], response := [] } }
  ctxs := []
  tun := Tuning.none

end Sys2Proof.Machine
end

