-- ==== Sys2Proof/Machine/Work.lean ====
section
/-! DEFINITION. The tables of groups, contexts, teams, grids and commands, the agenda and its timeouts, completions, the
bow, and what an escalated fault does to its context (R160, R441, R454). -/
namespace Sys2Proof.Machine

/-! ### Bits and numbers -/

/-- A VA's 64 bits from its 56 (R8). -/
def vaOf (p : BitVec 56) : Word64 := p.signExtend 64
def pcOf (v : Word64) : BitVec 56 := v.truncate 56
/-- Canonical form: bits 63:56 all equal bit 55 (R8). -/
def canonical (v : Word64) : Bool := vaOf (pcOf v) == v
def w64 (n : Nat) : Word64 := BitVec.ofNat 64 n
def w32 (n : Nat) : Word32 := BitVec.ofNat 32 n
def bit32 (l : Nat) : Word32 := BitVec.ofNat 32 (2 ^ l)

/-- The number of one bits among the low n bits. -/
def popcount : Nat → Nat → Nat
  | 0, _ => 0
  | n + 1, x => x % 2 + popcount n (x / 2)

/-- The lowest set bit at or above i, looking at n bits. -/
def lowBitFrom : Nat → Nat → Nat → Option Nat
  | 0, _, _ => none
  | n + 1, i, x => if x.testBit i then some i else lowBitFrom n (i + 1) x

/-- The lanes of a mask, in ascending order. -/
def lanesOf (m : Word32) : List Nat := (List.range 32).filter (fun l => m.getLsbD l)

/-- The mask of the lanes that satisfy p. -/
def maskOf (p : Nat → Bool) : Word32 := (List.range 32).foldl (fun a l => if p l then a ||| bit32 l else a) 0

/-! ### Free values -/

/-- Draws a free value: nothing constrains it (DESIGN CHOICE, log 3). -/
def drawFree (s : State) : Word64 × State := (Config.free s.free, { s with free := s.free + 1 })

/-! ### Groups other than the one at issue -/

/-- Applies f to every group that satisfies p, the one at issue among them. -/
def mapGroups (p : Group → Bool) (f : Group → Group) (s : State) : State :=
  { s with g := if p s.g then f s.g else s.g, rest := s.rest.map (fun h => if p h then f h else h) }

/-- Applies f to the group named gid. -/
def modGroup (gid : Nat) (f : Group → Group) (s : State) : State :=
  if s.g.idn.gid = gid then { s with g := f s.g }
  else { s with rest := s.rest.map (fun h => if h.idn.gid = gid then f h else h) }

def findGroup (s : State) (gid : Nat) : Option Group :=
  if s.g.idn.gid = gid then some s.g else s.rest.find? (fun h => h.idn.gid == gid)

def allGroups (s : State) : List Group := s.g :: s.rest

/-- A waiting group becomes ready again; its instruction executes again from its start (R44). A group that watches a
word is left to the events of that word (R419). -/
def wakeGroup (s : State) (g : Group) : Group :=
  if g.status = .waiting && g.watch.isNone then { g with status := .running, rdy := s.tick } else g

def wakeWhere (p : Group → Bool) (s : State) : State := mapGroups p (wakeGroup s) s

def wakeAll (s : State) : State := wakeWhere (fun _ => true) s

def wakeTeam (team : Nat) (s : State) : State := wakeWhere (fun g => g.idn.team == team) s

def wakeGid (gid : Nat) (s : State) : State := wakeWhere (fun g => g.idn.gid == gid) s

/-- Every wait.v on the 8-byte word reads it again (R419, R420); for a group saved in one the event that it awaits has come (R194). -/
def wakeWord (word : Nat) (s : State) : State :=
  mapGroups (fun g => g.watch == some word)
    (fun g => if g.status = .waiting then { g with status := .running, rdy := s.tick, watch := none }
      else if g.status = .saved then { g with woken := true } else g) s

/-! ### The agenda -/

def due (e : Event) (s : State) : State := { s with agenda := s.agenda ++ [e] }

/-- A save that has been asked for is made at a wait or stall that begins after it (R459). -/
def saveAtWait (s : State) : State := if s.g.saveDue && !s.g.x.sup then due (.forced_save s.g.idn.gid) s else s

/-- The group at issue waits or stalls at its instruction. DEDUCED, log 22. -/
def block (s : State) : State := saveAtWait { s with g := { s.g with status := .waiting, urgent := false, seen := false } }

/-- The same at one of the waits that the scheduler sees (R194). -/
def blockSeen (s : State) : State := saveAtWait { s with g := { s.g with status := .waiting, urgent := false, seen := true, awaits := none } }

/-- A wait on a word; the read that found its value is done, and claims no line (R76). -/
def blockOn (word : Nat) (s : State) : State :=
  saveAtWait { s with g := { s.g with status := .waiting, urgent := false, seen := true, awaits := none, snooped := [], watch := some word } }

/-- A wait for a frontier. -/
def blockFor (a : Nat × Bool × Stamp) (s : State) : State :=
  saveAtWait { s with g := { s.g with status := .waiting, urgent := false, seen := true, awaits := some a } }

def dues (es : List Event) (s : State) : State := { s with agenda := s.agenda ++ es }

/-- Sets a timeout of n device steps, unless it is set already. DESIGN CHOICE, log 8. -/
def timer (n : Nat) (e : Event) (s : State) : State :=
  if s.timers.any (fun t => t.2 == e) then s else { s with timers := s.timers ++ [(s.tick + n, e)] }

def noTimer (e : Event) (s : State) : State := { s with timers := s.timers.filter (fun t => t.2 != e) }

/-! ### Tables -/

def ctxOf (s : State) (c : Nat) : Option Ctx := amGet? s.ctxs c

def modCtx (c : Nat) (f : Ctx → Ctx) (s : State) : State := { s with ctxs := amMod s.ctxs c f }

def teamOf (s : State) (t : Nat) : Option Team := amGet? s.d.teams t

def modTeam (t : Nat) (f : Team → Team) (s : State) : State := { s with d := { s.d with teams := amMod s.d.teams t f } }

def modGrid (t : Nat) (f : Grid → Grid) (s : State) : State := { s with d := { s.d with grids := amMod s.d.grids t f } }

def modCard (t : Nat) (f : Card → Card) (s : State) : State := { s with d := { s.d with cards := amMod s.d.cards t f } }

/-- A core starts with a 256 KiB L1 (R91). DESIGN CHOICE, log 13. -/
def CoreSt.fresh : CoreSt := { l1k := 256, closed := false, quarantined := false, clk := 0, stage := [] }

def coreOf (s : State) (c : Nat) : CoreSt := (amGet? s.d.cores c).getD CoreSt.fresh

def setCore (c : Nat) (v : CoreSt) (s : State) : State := { s with d := { s.d with cores := amPut s.d.cores c v } }

/-- The context of the group at issue. -/
def gCtx (s : State) : Option Ctx := ctxOf s s.g.idn.ctx

def handlerOf (s : State) : BitVec 56 := match gCtx s with
  | some c => c.handler
  | none => 0

def clusterOf (core : Nat) : Nat := core / 256

/-! ### Fault codes (R458) -/

def fILLOP : Nat := 1
def fPRIV : Nat := 2
def fALIGN : Nat := 3
def fPAGE : Nat := 4
def fPROT : Nat := 5
def fPINMISS : Nat := 6
def fSPBOUND : Nat := 7
def fPEERGONE : Nat := 8
def fMCMASK : Nat := 9
def fADDROVF : Nat := 10
def fECCU : Nat := 11
def fWLATE : Nat := 12
def fCAPV : Nat := 13
def fSIG : Nat := 14
def fNEST : Nat := 15
def fXSHF : Nat := 16
def fTUNE : Nat := 17
def fDETSTAGE : Nat := 18
def fQWIN : Nat := 19
def fTuning : Nat := 0xFFFC
def fReplayLost : Nat := 0xFFFD
def fBreak : Nat := 0xFFFE
def fTrap : Nat := 0xFFFF

/-- The command a group's work belongs to: its grid's or card's, or an ancestor grid's. -/
def cmdOfGrid (s : State) : Nat → Nat → Option Nat
  | 0, _ => none
  | n + 1, g => match amGet? s.d.grids g with
    | some x => (match x.rep.cmd with
      | some c => some c.id
      | none => cmdOfGrid s n x.rep.parent)
    | none => none

def cmdOfGroup (s : State) (g : Group) : Option Nat :=
  match g.idn.kind with
  | .compute | .drone => cmdOfGrid s 11 g.idn.work
  | .job => (match amGet? s.d.cards g.idn.work with
    | some c => (match c.rep.cmd with
      | some q => some q.id
      | none => cmdOfGrid s 11 c.rep.parent)
    | none => none)
  | .window => none

/-! ### Fault records (R456) -/

/-- Bits of a fault record that name a group (R456). -/
def recOfGroup (s : State) (src : BitVec 3) (fc : Word32) (fva : Word64) (mask : Word32) (pc : BitVec 56) (g : Group) :
    FaultRec :=
  { src := src
    ten := BitVec.ofNat 4 (match ctxOf s g.idn.ctx with | some c => c.tenant | none => 0)
    ctx := BitVec.ofNat 6 g.idn.ctx
    grp := BitVec.ofNat 5 (g.idn.gidx + (if g.idn.kind = .drone then 16 else 0))
    part := BitVec.ofNat 6 g.idn.part
    first := if g.x.sup then g.x.faultCode.truncate 16 else 0
    team := g.idn.tidx
    mask := mask
    fcode := fc
    pc := pc
    fva := fva
    cmd0 := 0
    cmd1 := 0
    cmd2 := 0
    cmd3 := 0
    by_ := cmdOfGroup s g }

/-- A fault record without a group. -/
def recOfCtx (s : State) (src : BitVec 3) (fc : Word32) (fva : Word64) (mask : Word32) (c : Nat) : FaultRec :=
  { src := src, ten := BitVec.ofNat 4 (match ctxOf s c with | some x => x.tenant | none => 0), ctx := BitVec.ofNat 6 c,
    grp := 0, part := 0, first := 0, team := 0, mask := mask, fcode := fc, pc := 0, fva := fva, cmd0 := 0, cmd1 := 0,
    cmd2 := 0, cmd3 := 0 }

/-- Whether a fault record that satisfies p still waits to be written to its ring (R455). -/
def recordWaits (s : State) (p : FaultRec → Bool) : Bool :=
  let q := fun (e : Event) => match e with
    | .fault_record r => p r
    | _ => false
  s.agenda.any q || s.timers.any (fun t => q t.2) || s.q.frings.any (fun e => e.2.wait.any p)

/-! ### Commands and their completions (R441, R443) -/

def findQueue (s : State) (admin : Bool) (n : Nat) : Option Queue :=
  if admin then amGet? s.q.admins n else amGet? s.q.queues n

def modQueue (admin : Bool) (n : Nat) (f : Queue → Queue) (s : State) : State :=
  if admin then { s with q := { s.q with admins := amMod s.q.admins n f } }
  else { s with q := { s.q with queues := amMod s.q.queues n f } }

/-- A command leaves the open commands; what depends on it is satisfied (R444). -/
def closeId (id queue : Nat) (admin : Bool) (s : State) : State :=
  let s := { s with q := { s.q with running := s.q.running.filter (fun i => i ≠ id),
                                    waits := s.q.waits.filter (fun w => w.id ≠ id),
                                    uses := s.q.uses.filter (fun u => u.cmd ≠ id) } }
  modQueue admin queue (fun q => { q with open_ := q.open_.filter (fun i => i ≠ id) }) s

def closeCmd (c : QCmd) (s : State) : State := closeId c.id c.queue c.admin s

/-- Whether a fault record of a command's work is still unwritten: the command is not complete then (R455). -/
def recordHolds (s : State) (cmd : Nat) : Bool := recordWaits s (fun r => r.by_ == some cmd)

/-- Commands that have not begun are dropped, with their handle uses. -/
def dropCmds (p : QCmd → Bool) (s : State) : State :=
  let ids := (s.q.cmds.filter p).map (fun c => c.id)
  { s with q := { s.q with cmds := s.q.cmds.filter (fun c => !p c), uses := s.q.uses.filter (fun u => !ids.contains u.cmd) } }

/-- A command completes: it is closed, and its record is due; where a fault record of its work is unwritten it is closed with that
record (R455). -/
def complete (c : QCmd) (status : Nat) (code res : Nat) (s : State) : State :=
  let s := if recordHolds s c.id then s else closeCmd c s
  due (.completion_record { queue := c.queue, admin := c.admin, cmd := c.id, tag := c.tag, code := BitVec.ofNat 16 code,
                            res := BitVec.ofNat 40 res, status := BitVec.ofNat 7 status,
                            wrote := (c.uses.filter (fun u => u.wr)).map (fun u => u.idx) }) s

/-! ### The bow (R160) -/

/-- The bow goes to the team whose turn it is, if that team has started and does not hold it. -/
def giveBow (s : State) : State :=
  match s.d.bowQ with
  | [] => s
  | gr :: _ =>
    match amGet? s.d.grids gr with
    | none => s
    | some g =>
      match s.d.teams.find? (fun e => e.2.grid == gr && !e.2.isJob && e.2.tidx == g.bowTeam) with
      | some (t, tm) =>
        if tm.bow == .before then due .bow_receive (modTeam t (fun x => { x with bow := .holds, drained := false }) s)
        else s
      | none => s

/-- The bow leaves a grid's team: to the next team, or after the last to the next deterministic launch. -/
def passBowOf (gr : Nat) (s : State) : State :=
  match amGet? s.d.grids gr with
  | none => giveBow { s with d := { s.d with bowQ := s.d.bowQ.filter (fun i => i ≠ gr) } }
  | some g =>
    let s := modGrid gr (fun x => { x with bowTeam := x.bowTeam + 1 }) s
    if g.bowTeam + 1 < g.nteam then giveBow s
    else giveBow { s with d := { s.d with bowQ := s.d.bowQ.filter (fun i => i ≠ gr) } }

/-! ### Discarding work (R454, R464, R471) -/

/-- The groups that satisfy p are gone, with their commands, staged entries, postings and progress units; what waited for room in a
stage buffer looks again (R164). -/
def discardGroups (p : Group → Bool) (s : State) : State :=
  let gone := (s.g :: s.rest).filter p |>.map (fun g => g.idn.gid)
  let s := { s with g := if p s.g then Group.none else s.g, rest := s.rest.filter (fun g => !p g) }
  wakeAll { s with d := { s.d with
      cores := s.d.cores.map (fun e => (e.1, { e.2 with stage := e.2.stage.filter (fun x => !gone.contains x.gid) }))
      chain := s.d.chain.filter (fun x => !gone.contains x.src)
      xposts := s.d.xposts.filter (fun x => !gone.contains x.src && !gone.contains x.dst) } }

/-- The teams that satisfy p are discarded with their groups. -/
def discardTeams (p : Team → Bool) (s : State) : State :=
  let ts := (s.d.teams.filter (fun e => p e.2)).map (fun e => e.1)
  let s := discardGroups (fun g => ts.contains g.idn.team && g.idn.kind != .window && g.status != .gone) s
  let cores := s.d.cores.map (fun c => (c.1, { c.2 with stage := c.2.stage.filter (fun e => !ts.contains e.team) }))
  { s with d := { s.d with teams := s.d.teams.filter (fun e => !p e.2), cores := cores } }

/-- Commands of a context that are begun and not complete. -/
def openCmds (s : State) (c : Nat) : List QCmd :=
  (s.d.grids.filterMap (fun e => if e.2.ctx = c then e.2.rep.cmd else none))
    ++ (s.d.cards.filterMap (fun e => if e.2.ctx = c then e.2.rep.cmd else none))
    ++ s.q.waits.filter (fun w => match amGet? s.q.queues w.queue with | some q => q.ctx == c | none => false)
    ++ (s.q.ckpts.filterMap (fun e => if e.2.ctx = c then some e.2.cmd else none))

/-- The request of a peer's transfer that a message carries. -/
def peerReq : PeerMsg → Option PeerReq
  | .write r .. => some r
  | .read r .. => some r
  | _ => none

/-- What goes out to a peer device. -/
def toPeer (dev : Nat) (m : PeerMsg) (s : State) : State := { s with h := { s.h with peerSent := s.h.peerSent ++ [(dev, m)] } }

/-- The peers' transfers that are parked here in a context that ends learn its fault code, F_PEERGONE where no fault ends it (R487).
DESIGN CHOICE, log 36. -/
def failPeers (c code : Nat) (s : State) : State :=
  let mine := fun (e : FaultRec × ParkedFor) => match e.2 with
    | .peer _ m => (peerReq m).any (fun r => r.paired == c)
    | _ => false
  let s' := { s with q := { s.q with parkedFor := s.q.parkedFor.filter (fun e => !mine e) } }
  (s.q.parkedFor.filter mine).foldl (fun s e => match e.2 with
    | .peer dev m => (match peerReq m with
      | some r => toPeer dev (.faulted r.id r.done (BitVec.ofNat 16 (if code = 0 then fPEERGONE else code))) s
      | none => s)
    | _ => s) s'

/-- Every begun command of a context is cancelled (R454): the command whose work faulted completes with STATUS 1 and the
fault code, the others with STATUS 2. A cancelled pinned launch unlocks its translations. DESIGN CHOICE, log 32. -/
def cancelCtx (c : Nat) (fcmd : Option Nat) (code : Nat) (s : State) : State :=
  let cs := openCmds s c
  let grids := (s.d.grids.filter (fun e => e.2.ctx == c)).map (fun e => e.1)
  let s := discardTeams (fun t => t.ctx == c) s
  let s := discardGroups (fun g => g.idn.ctx == c && g.status != .gone) s
  let s := { s with d := { s.d with
      grids := s.d.grids.filter (fun e => e.2.ctx ≠ c)
      cards := s.d.cards.filter (fun e => e.2.ctx ≠ c)
      bowQ := s.d.bowQ.filter (fun i => !grids.contains i) } }
  let s : State := { s with q := { s.q with
      xfers := s.q.xfers.map (fun e =>
        if e.2.ctx = c ∧ !e.2.finished then (e.1, { e.2 with finished := true, finAt := s.tick, parked := false, status := 2 }) else e)
      ckpts := s.q.ckpts.filter (fun e => e.2.ctx ≠ c) } }
  let s := failPeers c code s
  -- the locks of its pinned launches end as at their retirement. DESIGN CHOICE, log 32.
  let s : State := { s with m := { s.m with tlb := s.m.tlb.map (fun (t : TlbEnt) =>
    if t.ctx = c then { t with locks := t.locks.filter (fun i => i == 0) } else t) } }
  let s := dues ((s.q.xfers.filter (fun e => e.2.ctx == c && e.2.status == 2)).map (fun e => Event.transfer_finish e.1)) s
  giveBow (cs.foldl (fun s q =>
    if fcmd = some q.id then complete q 1 code 0 s else complete q 2 0 0 s) s)

/-- The grid a queue's launch started, of a grid or one of its descendants. -/
def rootGrid (s : State) : Nat → Nat → Nat
  | 0, g => g
  | n + 1, g => match amGet? s.d.grids g with
    | some x => if x.rep.parent = 0 then g else rootGrid s n x.rep.parent
    | none => g

/-- A replayable launch becomes non-replayable, and the host is told (R17, R465). -/
def endReplay (grid detail : Nat) (s : State) : State :=
  match amGet? s.d.grids grid with
  | some gr =>
    if gr.repl && gr.replOk then
      due (.fault_record { recOfCtx s 5 (w32 (fReplayLost + detail * 2 ^ 28)) 0 0 gr.ctx with by_ := gr.rep.cmd.map (fun c => c.id) })
        (modGrid grid (fun g => { g with replOk := false }) s)
    else s
  | none => s

/-! ### Saving (R459) -/

/-- Device steps of a wait given in nanoseconds, at 1.8 GHz (R83; the model's clock, DESIGN CHOICE, log 8). -/
def ticksOf (ns : Nat) : Nat := ns * 9 / 5

/-- 24 hours, from one patrol scrub to the next (R79). -/
def scrubTicks : Nat := ticksOf (86400 * 10 ^ 9)

/-- Whether a record is of a group. -/
def recordOf (s : State) (g : Group) (r : FaultRec) : Bool :=
  let me := recOfGroup s 0 0 0 0 0 g
  r.ctx == me.ctx && r.team == me.team && r.part == me.part && r.grp == me.grp

/-- Asks for the groups that satisfy p to be saved: those in a wait or stall at once, the others at their next safe or
after 50 us. -/
def askSave (p : Group → Bool) (s : State) : State :=
  let q := fun (g : Group) => p g && g.status != .gone && g.status != .saved
  let s := mapGroups q (fun g => { g with saveDue := true }) s
  ((allGroups s).filter q).foldl (fun s g =>
    if g.status = .running ∨ g.x.sup then timer (ticksOf 50000) (.forced_save g.idn.gid) s
    else due (.forced_save g.idn.gid) s) s

/-- The context's policy on an escalated fault (R454): suspend, or terminate. A suspended context's pegs are written back
at the engines' next step (R227). -/
def applyPolicy (c : Nat) (fcmd : Option Nat) (code : Nat) (s : State) : State :=
  match ctxOf s c with
  | none => s
  | some x =>
    if x.pol then cancelCtx c fcmd code (modCtx c (fun y => { y with terminated := true, endCode := if y.terminated then y.endCode else code }) s)
    else dues ((List.range 8).map Event.window_engine_step) (askSave (fun g => g.idn.ctx == c) (modCtx c (fun y => { y with suspended := true }) s))

end Sys2Proof.Machine
end

