-- ==== Sys2Proof/Machine/Ops.lean ====
section
/-! DEFINITION. Operations every meaning shares: registers, retirement with the signature fold, taking an
exception and returning from one, escalation, and free values. -/
namespace Sys2Proof.Machine

/-! ### Registers of the group at issue (R166, R291) -/

def setG (s : State) (g : Group) : State := { s with g := g }

/-- s0 reads zero. -/
def rS (s : State) (r : SReg) : Word64 := if r = 0 then 0 else cellGet s.g.sregs r.toNat

/-- Writes to s0 are discarded. -/
def wS (s : State) (r : SReg) (v : Word64) : State :=
  if r = 0 then s else { s with g := { s.g with sregs := cellPut s.g.sregs r.toNat v } }

/-- k0 reads all-ones. -/
def rK (s : State) (k : KReg) : Word32 := if k = 0 then 0xFFFFFFFF else cellGet s.g.kregs k.toNat

/-- Writes to k0 are discarded. -/
def wK (s : State) (k : KReg) (v : Word32) : State :=
  if k = 0 then s else { s with g := { s.g with kregs := cellPut s.g.kregs k.toNat v } }

def rV (s : State) (r : VReg) (l : Nat) : Word64 := cellGet s.g.vregs (32 * r.toNat + l)

def putLane (g : Group) (r l : Nat) (v : Word64) : Group := { g with vregs := cellPut g.vregs (32 * r + l) v }

/-- Writes f l to lane l of a vector register, for the lanes given. -/
def putLanes (g : Group) (r : Nat) (ls : List Nat) (f : Nat → Word64) : Group :=
  ls.foldl (fun g l => putLane g r l (f l)) g

/-- Writes the acting lanes of a vector register and leaves the others (R311). -/
def wV (s : State) (r : VReg) (act : Word32) (f : Nat → Word64) : State :=
  { s with g := putLanes s.g r.toNat (lanesOf act) f }

/-- ORs float flags into FPSTAT (R249). -/
def orFlags (s : State) (f : FFlags) : State := { s with g := { s.g with fpstat := fpstatOr s.g.fpstat f } }

/-- The acting lanes of an instruction with execution mask k: mask & LIVE (R171); a replay keeps the set fixed at the
fault (R36). An instruction that the host resumes after an escalated fault has no such set: it runs for mask & LIVE again.
DESIGN CHOICE, log 46. -/
def actOf (s : State) (k : KReg) : Word32 :=
  match s.g.x.replay with
  | some m => m
  | none => rK s k &&& s.g.live

/-- The number of a scalar register pair's odd half. -/
def pairOf (r : SReg) : SReg := r + 1

def rStamp (s : State) (r : SReg) : Stamp := ⟨rS s r, rS s (pairOf r)⟩

def wStamp (s : State) (r : SReg) (t : Stamp) : State :=
  if r = 0 then s else wS (wS s r t.epoch) (pairOf r) t.cw

/-! ### The signature (R423) -/

def crcBit (x : Word32) : Word32 := if x.getLsbD 0 then (x >>> 1) ^^^ 0x82F63B78 else x >>> 1

def crcByte (x : Word32) (b : Byte) : Word32 :=
  crcBit (crcBit (crcBit (crcBit (crcBit (crcBit (crcBit (crcBit (x ^^^ b.zeroExtend 32))))))))

/-- Folds the four bytes of a word, lowest first. -/
def crcWord (x w : Word32) : Word32 :=
  crcByte (crcByte (crcByte (crcByte x (w.extractLsb' 0 8)) (w.extractLsb' 8 8)) (w.extractLsb' 16 8)) (w.extractLsb' 24 8)

/-- OP7 0x10 to 0x14, safe, sigchk and sigrd fold nothing. -/
def sigExcluded (w0 : Word32) : Bool :=
  let op := (opOf w0).toNat
  (0x10 ≤ op && op ≤ 0x14) || op == 0x79 || op == 0x7A

/-- The group's signature after an instruction with acting lanes act completes. DEDUCED, log 19. -/
def foldSig (w0 act : Word32) (g : Group) : Group :=
  if g.x.sup || sigExcluded w0 then g else { g with sigw := crcWord g.sigw w0, sigm := crcWord g.sigm act }

/-! ### Retirement -/

/-- The flags of an atomic's lanes, with those of lanes performed before a fault, go into FPSTAT as it completes (R364). -/
def payFlags (s : State) : State :=
  { s with g := { s.g with fpstat := s.g.fpstat ||| s.g.x.dueFlags, x := { s.g.x with dueFlags := 0 } } }

/-- The address after the instruction at issue. -/
def nextPc (s : State) : BitVec 56 := s.g.pc + BitVec.ofNat 56 s.ir.len

/-- Completes the instruction at issue and continues at a given address: folds the signature, ends a replay and clears
DONEMASK outside the handler (R36), and starts the group's wait for its next issue (R451). -/
def retireTo (act : Word32) (target : BitVec 56) (s : State) : State :=
  let g := foldSig s.ir.w0 act s.g
  let x := if g.x.sup then g.x else { g.x with replay := none, doneMask := 0, dueFlags := 0, unit := none }
  { s with g := { g with pc := target, x := x, rdy := s.tick, urgent := false, watch := none, timedOut := false,
                         hostVals := [], snooped := [], bbOn := none } }

def retire (act : Word32) (s : State) : State := retireTo act (nextPc s) s

/-- An instruction without an execution mask: act is the LIVE it started with. DEDUCED, log 19. -/
def retireS (s : State) : State := retire s.g.live s

/-! ### Faults (R32 to R38, R41, R453 to R458) -/

/-- A fault: its code, the fields of FAULTCODE that belong to it, the fault address and FAULTMASK (R41, R42). -/
structure Flt where
  code : Nat
  detail : Nat
  acc : Nat
  level : Nat
  va : Word64
  mask : Word32
deriving DecidableEq, Repr

/-- FAULTCODE of a fault with ENG and SLOT (R41). -/
def faultWord (f : Flt) (eng slot : Nat) : Word32 :=
  w32 (f.code + f.acc * 2 ^ 16 + f.level * 2 ^ 19 + eng * 2 ^ 21 + slot * 2 ^ 24 + f.detail * 2 ^ 28)

/-- A fault of the instruction itself, without an address. -/
def flt (code : Nat) : Flt := { code := code, detail := 0, acc := 0, level := 0, va := 0, mask := 1 }

/-- Whether a fault enters the supervisor handler: F_PAGE at user privilege in a context that names one, unless the pool
is empty; and trap (R32, R46, R454). -/
def entersHandler (s : State) (code detail : Nat) : Bool :=
  !s.g.x.sup && handlerOf s != 0 && (code == fTrap || (code == fPAGE && detail != 11))

/-- s56 to s61 exchanged with the bank (R35). -/
def swapS (regs bank : Cells 64) : Cells 64 × Cells 64 :=
  [56, 57, 58, 59, 60, 61].foldl (fun (p : Cells 64 × Cells 64) n =>
    (cellPut p.1 n (cellGet p.2 n), cellPut p.2 n (cellGet p.1 n))) (regs, bank)

/-- Switches s56 to s61 and k15 to the other bank. -/
def swapBank (g : Group) : Group :=
  let p := swapS g.sregs g.x.sbank
  { g with
    sregs := p.1
    kregs := cellPut g.kregs 15 g.x.kbank
    x := { g.x with sbank := p.2, kbank := cellGet g.kregs 15 } }

/-- Taking an exception into the supervisor handler (R35): EPC and LIVE are saved, LIVE becomes FAULTMASK, the banked
registers change, privilege rises, and fetching goes on at the handler entry. -/
def enterHandler (cause : HandlerCause) (fc : Word32) (fva : Word64) (mask done act : Word32) (epc : BitVec 56)
    (s : State) : State :=
  let g := swapBank s.g
  { s with g := { g with
      status := .running
      hostVals := []
      snooped := []
      bbOn := none
      live := mask
      pc := handlerOf s
      x := { g.x with
        sup := true
        cause := cause
        liveSave := s.g.live
        faultMask := mask
        doneMask := done
        faultVa := fva
        faultCode := fc
        epc := epc
        epcSet := epc
        actSet := act
        replay := none
        replayKept := if cause = .whole then s.g.x.replay else none } } }

/-- Return from the handler (R36, R37): LIVE and the user bank come back, privilege falls, and the group continues at
EPC. A precise fault at an unchanged EPC replays the lanes that were acting, are live and are not done; a fault of the fetch
that came before a replay leaves that replay due, for the lanes still live; any other continuation abandons the replay and
clears DONEMASK. -/
def returnHandler (s : State) : State :=
  let g := swapBank s.g
  let live := s.g.x.liveSave
  let again := (s.g.x.cause == .precise || s.g.x.cause == .whole) && s.g.x.epc == s.g.x.epcSet
  let set := s.g.x.actSet &&& live &&& ~~~s.g.x.doneMask
  { s with g := { g with
      live := live
      -- a store that is not replayed counts no longer than its messages
      n := if again then g.n else { g.n with sts := g.n.sts.dropWhile (fun u => u.left == 0) }
      pc := s.g.x.epc
      rdy := s.tick
      urgent := false
      x := { g.x with
        sup := false
        cause := .none
        doneMask := if again then s.g.x.doneMask else 0
        dueFlags := if again then s.g.x.dueFlags else 0
        unit := if again then s.g.x.unit else none
        replay := if again then (if s.g.x.cause == .precise then some set else s.g.x.replayKept.map (fun m => m &&& live)) else none
        replayKept := none } } }

/-- Escalation of a fault of the group at issue (R38, R454): the group stops where it is, a fault record goes to the
tenant's ring, and the policy applies. A cause that rolls the launch back sets the group aside for the rollback. -/
def escalate (src : BitVec 3) (fc : Word32) (fva : Word64) (mask done : Word32) (pc : BitVec 56)
    (cmd : Word64 × Word64 × Word64 × Word64) (s : State) : State :=
  let r := recOfGroup s src fc fva mask pc s.g
  let r := { r with cmd0 := cmd.1, cmd1 := cmd.2.1, cmd2 := cmd.2.2.1, cmd3 := cmd.2.2.2 }
  -- the registers of R34 are set for a fault of user code; a fault of the handler leaves those it was serving
  let x := if s.g.x.sup then s.g.x else
    { s.g.x with faultMask := mask, doneMask := done, faultVa := fva, faultCode := fc, epc := pc, epcSet := pc }
  let s := { s with g := { s.g with status := .stopped, hostVals := [], snooped := [], bbOn := none, x := x } }
  applyPolicy s.g.idn.ctx (cmdOfGroup s s.g) (fc.toNat % 65536) (due (.fault_record r) s)

/-- Poison consumed: F_ECCU at the next boundary (R80, R356). -/
def notePoison (va : Nat) (acc : BitVec 3) (s : State) : State :=
  match s.g.x.eccu with
  | some _ => s
  | none => { s with g := { s.g with x := { s.g.x with eccu := some (w64 va, acc) } } }

/-- A precise fault of the instruction at issue (R34, R35, R453): nothing of the instruction is performed but for the
lanes in done. Poison that a walk, a fetch or a block read meets is delivered at the boundary before the instruction. -/
def raiseAs (cause : HandlerCause) (f : Flt) (done act : Word32) (s : State) : State :=
  let fc := faultWord f 0 0
  if f.code = fECCU then
    notePoison f.va.toNat (BitVec.ofNat 3 f.acc) { s with g := { s.g with x := { s.g.x with doneMask := s.g.x.doneMask ||| done } } }
  else if entersHandler s f.code f.detail then
    -- the instruction has issued: the group waits for its next issue from now on (R451)
    enterHandler cause fc f.va f.mask (s.g.x.doneMask ||| done) act s.g.pc { s with g := { s.g with rdy := s.tick, urgent := false } }
  else escalate 0 fc f.va f.mask (s.g.x.doneMask ||| done) s.g.pc (0, 0, 0, 0) s

/-- A precise fault of acting lanes: a return to the same instruction replays those not done. -/
def raise (f : Flt) (done act : Word32) (s : State) : State := raiseAs .precise f done act s

/-- A precise fault of an instruction without lanes: a return to it executes it again. -/
def raiseW (f : Flt) (s : State) : State := raiseAs .whole f 0 1 s

/-- A precise fault that concerns the instruction as a whole and no address. -/
def raiseI (code : Nat) (s : State) : State := raiseW (flt code) s

/-- The outcome of a meaning: always a next state (the device's faults are steps of it). -/
abbrev Out := Host.Outcome State Fault Refusal

end Sys2Proof.Machine
end

