-- ==== Sys2Proof/Machine/Home.lean ====
section
/-! DEFINITION. The physical side of global memory: sectors, the L2 homes with their ownership records, the L1 and stash
sectors of a core, homing, the host filter, and the registration protocol's steps as operations (R51 to R80). -/
namespace Sys2Proof.Machine

/-! ### Sector bytes -/

def secByte (d : BitVec 1024) (i : Nat) : Byte := d.extractLsb' (8 * i) 8

/-- Byte i of a sector replaced. -/
def secPut (d : BitVec 1024) (i : Nat) (b : Byte) : BitVec 1024 :=
  (d &&& ~~~((0xFF : BitVec 1024) <<< (8 * i))) ||| (b.zeroExtend 1024 <<< (8 * i))

/-- The positions of a sector's bytes that a mask holds. -/
def secIdx (m : BitVec 128) : List Nat := (List.range 128).filter (fun i => m.getLsbD i)

/-- The bytes of new under the mask over old. -/
def secMerge (old : BitVec 1024) (m : BitVec 128) (new : BitVec 1024) : BitVec 1024 :=
  (secIdx m).foldl (fun a i => secPut a i (secByte new i)) old

/-- The bytes of the words of a 16-bit word mask. -/
def wordBytes (w : BitVec 16) : BitVec 128 :=
  (List.range 16).foldl (fun (a : BitVec 128) i => if w.getLsbD i then a ||| ((0xFF : BitVec 128) <<< (8 * i)) else a) 0

/-- The words a byte mask touches. -/
def maskWords (m : BitVec 128) : BitVec 16 :=
  (List.range 16).foldl (fun (a : BitVec 16) i => if (m >>> (8 * i)).toNat % 256 ≠ 0 then a ||| ((1 : BitVec 16) <<< i) else a) 0

def wordIdx (w : BitVec 16) : List Nat := (List.range 16).filter (fun i => w.getLsbD i)

def bit16 (i : Nat) : BitVec 16 := (1 : BitVec 16) <<< i
def bit128 (i : Nat) : BitVec 128 := (1 : BitVec 128) <<< i

/-- n bits from bit i of a sector mask. -/
def span128 (i n : Nat) : BitVec 128 := BitVec.ofNat 128 ((2 ^ n - 1) * 2 ^ i)

/-! ### Memory behind the homes -/

/-- A sector's bytes in memory, and its poison marks (R80). DESIGN CHOICE, log 1. -/
def memSector (s : State) (sec : Nat) : BitVec 1024 := BitVec.ofNat 1024 (memBytes s.m.mem (128 * sec) 128)
def memPoison (s : State) (sec : Nat) : BitVec 128 :=
  (List.range 128).foldl (fun (a : BitVec 128) i =>
    if cellGet s.m.poison (128 * sec + i) = 1 then a ||| bit128 i else a) 0

/-- Writes the bytes of a sector under a mask to memory, with their poison marks. -/
def putSector (sec : Nat) (m : BitVec 128) (d : BitVec 1024) (po : BitVec 128) (s : State) : State :=
  { s with m := { s.m with
      mem := (secIdx m).foldl (fun mm i => memPut mm (128 * sec + i) (secByte d i)) s.m.mem
      poison := (secIdx m).foldl (fun (pp : Cells 1) i =>
        cellPut pp (128 * sec + i) (if po.getLsbD i then 1 else 0)) s.m.poison } }

/-- One of a list, by a free value: which one goes is open. DESIGN CHOICE, logs 3 and 14. -/
def pickOne {α : Type} (l : List α) (s : State) : Option α × State := (l[(drawFree s).1.toNat % Nat.max 1 l.length]?, (drawFree s).2)

/-! ### Homing (R69 to R72) -/

/-- The region of a physical address. -/
def regionOf (pa : Nat) : Nat := pa / 65536

/-- Live slices of a cluster, in order. -/
def liveSlicesOf (t : Tuning) (c : Nat) : List Nat := (List.range 48).filter (fun i => (t.slices.getD c 0).getLsbD i)

/-- Live slices of the device, as cluster * 64 + slice, in tuning-record order. -/
def liveSlices (t : Tuning) : List Nat :=
  (List.range 8).flatMap (fun c => (liveSlicesOf t c).map (fun i => 64 * c + i))

def absDiff (a b : Nat) : Nat := if a ≤ b then b - a else a - b

/-- The slice of a list nearest to n, ties to the lower index. -/
def nearest (n : Nat) : List Nat → Option Nat
  | [] => none
  | i :: t => match nearest n t with
    | none => some i
    | some j => if absDiff i n ≤ absDiff j n then some i else some j

/-- The home slice the keeper assigns for a request from a core (R70). -/
def homeFor (t : Tuning) (core : Nat) : Nat :=
  let cl := core / 256
  let c := core % 256
  let q := c / 48
  let n := 12 * q + c % 48 / 4
  let live := liveSlicesOf t cl
  let quad := live.filter (fun i => i / 12 == q)
  64 * cl + ((nearest n quad).getD ((nearest n live).getD 0))

/-- The keeper of a region (R70). -/
def keeperOf (t : Tuning) (region : Nat) : Nat :=
  (liveSlices t).getD (if (liveSlices t).length = 0 then 0 else region % (liveSlices t).length) 0

/-- The home of a request from a cluster's window engine or fret aggregator (R70). -/
def homeForEngine (t : Tuning) (cl region : Nat) : Nat :=
  64 * cl + (liveSlicesOf t cl).getD (if (liveSlicesOf t cl).length = 0 then 0 else region % (liveSlicesOf t cl).length) 0

/-- Region table bits: V, CLUS and SLICE of a home (R69). -/
def regionEntry (home : Nat) : BitVec 16 := BitVec.ofNat 16 (2 ^ 15 + home / 64 % 8 * 2 ^ 11 + home % 64 * 2 ^ 5)

def regionHome (s : State) (region : Nat) : Option Nat :=
  let e := (cellGet s.m.regions region).toNat
  if e / 2 ^ 15 % 2 = 1 then some (64 * (e / 2 ^ 11 % 8) + e / 2 ^ 5 % 64) else none

/-- Whether a region's release is under way: REL (R69, R71). -/
def regionRel (s : State) (region : Nat) : Bool := (cellGet s.m.regions region).getLsbD 14

/-- A home lookup: an unhomed region gets the home given (R70); hashed sectors use no entry (R72). -/
def homeRegion (region home : Nat) (s : State) : State :=
  if cellGet s.m.hashed region == 1 then s
  else
  match regionHome s region with
  | some _ => s
  | none => { s with m := { s.m with regions := cellPut s.m.regions region (regionEntry home) } }

/-- A region-home cache of 512 entries makes room: which entry goes is open. DESIGN CHOICE, log 14. -/
def rhomeRoom (core : Nat) (s : State) : State :=
  let mine := s.m.rhome.filter (fun e => e.1 / 2 ^ 36 == core)
  if mine.length < 512 then s
  else match pickOne mine s with
    | (some v, s) => { s with m := { s.m with rhome := amDel s.m.rhome v.1 } }
    | (none, s) => s

/-- A core looks a region up: its region-home cache, then the keeper (R70), who answers nothing while a release is under way
(R71). -/
def lookupHome (core region : Nat) (s : State) : State :=
  let k := core * 2 ^ 36 + region
  -- a cached home that has been released answers RETRY, and the core looks again (R71)
  if regionRel s region || ((amGet? s.m.rhome k).isSome && amGet? s.m.rhome k == regionHome s region) then s
  else
    let s := rhomeRoom core (homeRegion region (homeFor s.tun core) s)
    { s with m := { s.m with rhome := amPut s.m.rhome k ((regionHome s region).getD 0) } }

/-- The home of a hashed sector (R72). -/
def hashHome (t : Tuning) (pa : Nat) : Nat :=
  let x := (pa / 2 ^ 7 % 65536) ^^^ (pa / 2 ^ 23 % 65536) ^^^ (pa / 2 ^ 39 % 8192)
  (liveSlices t).getD (if (liveSlices t).length = 0 then 0 else x % (liveSlices t).length) 0

/-- Whether a region's sectors are homed by hashing (R72). -/
def hashedRegion (s : State) (region : Nat) : Bool := cellGet s.m.hashed region == 1

/-- The home slice of a sector: hashed for a leaf with HOME = 1 and for host memory, which has no region entry (R72). -/
def homeSlice (s : State) (sec : Nat) : Nat :=
  if hashedRegion s (regionOf (128 * sec)) then hashHome s.tun (128 * sec)
  else (regionHome s (regionOf (128 * sec))).getD (hashHome s.tun (128 * sec))

/-- The HOME bit of the leaf by which a region is reached now (R72). Where leaves with HOME = 0 and HOME = 1 reach one region,
the leaf used last decides. DESIGN CHOICE, log 45. -/
def noteHome (region : Nat) (h : Bool) (s : State) : State :=
  if (cellGet s.m.hashed region == 1) = h then s
  else { s with m := { s.m with hashed := cellPut s.m.hashed region (if h then 1 else 0) } }

/-! ### The region table in HBM (R69) -/

/-- The region whose entry is the i-th of the table: HBM, then the expanders. DESIGN CHOICE, log 45. -/
def tableRegion (i : Nat) : Nat := if i < 12 * 2 ^ 20 then i else 2 ^ 28 + (i - 12 * 2 ^ 20)

/-- Whether a line lies in the region table, which the tuning record places (R69). -/
def inTable (s : State) (line : Nat) : Bool :=
  s.tun.rgnt != 0 && decide (s.tun.rgnt ≤ 64 * line ∧ 64 * line < s.tun.rgnt + (24 + 256) * 2 ^ 20)

/-- A line of the region table: 32 entries of 16 bits. -/
def tableLine (s : State) (line : Nat) : BitVec 512 :=
  (List.range 32).foldl (fun (a : BitVec 512) k =>
    a ||| ((cellGet s.m.regions (tableRegion ((64 * line - s.tun.rgnt) / 2 + k))).zeroExtend 512 <<< (16 * k))) 0

/-- A sector of the table: its two lines. -/
def tableSector (s : State) (sec : Nat) : BitVec 1024 :=
  (tableLine s (2 * sec)).zeroExtend 1024 ||| ((tableLine s (2 * sec + 1)).zeroExtend 1024 <<< 512)

/-! ### The home's copy -/

/-- The home's copy of a sector: L2 if the sector is there, else memory (R53, R59). The region table's bytes are the keepers'
entries (R69). -/
def homeSector (s : State) (sec : Nat) : L2Sec :=
  if inTable s (2 * sec) then { dirty := false, data := tableSector s sec, poison := 0 }
  else match amGet? s.m.l2 sec with
  | some x => x
  | none => { dirty := false, data := memSector s sec, poison := memPoison s sec }

/-- A read at the home: a sector that it holds is the one used last (R53). -/
def homeTouch (sec : Nat) (s : State) : State := { s with m := { s.m with l2 := amMod s.m.l2 sec (fun x => { x with used := s.tick }) } }

/-- The home writes its dirty sector back and drops it (R53, R71). -/
def homeDrop (sec : Nat) (s : State) : State :=
  match amGet? s.m.l2 sec with
  | some x =>
    let s := if x.dirty then putSector sec (BitVec.allOnes 128) x.data x.poison s else s
    { s with m := { s.m with l2 := amDel s.m.l2 sec } }
  | none => s

/-- Poison marks of n bytes of memory at pa, byte i at bit i. -/
def memMarks (s : State) (pa n : Nat) : Nat :=
  (List.range n).foldl (fun a i => a + 2 ^ i * (cellGet s.m.poison (pa + i)).toNat) 0

/-- Bytes of host memory itself, with their poison marks (R80). -/
def hostPutM (pa n v po : Nat) (s : State) : State :=
  { s with m := { s.m with
      mem := memPutBytes s.m.mem pa n v
      poison := (List.range n).foldl (fun (pp : Cells 1) i => cellPut pp (pa + i) (BitVec.ofNat 1 (po / 2 ^ i))) s.m.poison } }

def hostPut (pa n v : Nat) (s : State) : State := hostPutM pa n v 0 s

/-- A home's bytes of a host line it holds in M go to the host, and it holds the line no longer: DirtyEvict or CleanEvict
(R74). -/
def hostDrop (line : Nat) (s : State) : State :=
  match amGet? s.m.hlines line with
  | some h =>
    let s := if h.st = .m then hostPutM (64 * line) 64 h.data.toNat h.poison.toNat s else s
    { s with m := { s.m with hlines := amDel s.m.hlines line } }
  | none => s

/-- The set of a 1,024-byte line in its slice (R53). DESIGN CHOICE, log 14. -/
def l2Set (sec : Nat) : Nat := sec / 8 % 128

/-- What a sector's set holds, by sector, with the step of its last access: L2 sectors, and host lines (R53, R74). -/
def l2Near (s : State) (sec : Nat) : List (Nat × Nat) :=
  let near := (s.m.l2.filter (fun e => l2Set e.1 == l2Set sec)).map (fun e => (e.1, e.2.used))
    ++ (s.m.hlines.filter (fun e => l2Set (e.1 / 2) == l2Set sec)).map (fun e => (e.1 / 2, e.2.used))
  if near.length < 16 then [] else near.filter (fun e => homeSlice s e.1 == homeSlice s sec)

/-- The line of a list that was used least recently. -/
def oldestLine (es : List (Nat × Nat)) : List Nat → Nat
  | [] => 0
  | l0 :: ls =>
    let usedOf := fun (ln : Nat) => es.foldl (fun a e => if e.1 / 8 = ln then Nat.max a e.2 else a) 0
    ls.foldl (fun v l => if usedOf l < usedOf v then l else v) l0

/-- Room for a sector in its slice: a set of 16 ways evicts the line used least recently, with every sector of it (R53). -/
def l2Room (sec : Nat) (s : State) : State :=
  let near := l2Near s sec
  let lines := (near.map (fun e => e.1 / 8)).eraseDups
  if lines.length < 16 || lines.contains (sec / 8) then s
  else
    let v := oldestLine near lines
    ((near.filter (fun e => e.1 / 8 == v)).map (fun e => e.1)).eraseDups.foldl
      (fun s x => hostDrop (2 * x + 1) (hostDrop (2 * x) (homeDrop x s))) s

/-- The home allocates the sector, clean; the region table is not cached here. DESIGN CHOICE, log 14. -/
def homeAlloc (sec : Nat) (s : State) : State :=
  if inTable s (2 * sec) then s
  else match amGet? s.m.l2 sec with
  | some x => { s with m := { s.m with l2 := amPut s.m.l2 sec { x with used := s.tick } } }
  | none =>
    let s := l2Room sec s
    { s with m := { s.m with l2 := amPut s.m.l2 sec { homeSector s sec with used := s.tick } } }

/-- The home merges bytes into its sector. Without allocation an absent sector is written in memory (R66, R68). The waits
of wait.v on the words written look again (R419). The region table changes by its keepers only (R69). A reserved field of a
structure in memory keeps the bytes stored: DESIGN CHOICE, log 1. -/
def homeMerge (sec : Nat) (m : BitVec 128) (d : BitVec 1024) (po : BitVec 128) (alloc : Bool) (s : State) : State :=
  if inTable s (2 * sec) then s
  else
  let s := if alloc then homeAlloc sec s else s
  let s := match amGet? s.m.l2 sec with
    | some x =>
      let y : L2Sec := { dirty := true, data := secMerge x.data m d, poison := (x.poison &&& ~~~m) ||| (po &&& m), used := s.tick }
      { s with m := { s.m with l2 := amPut s.m.l2 sec y } }
    | none => putSector sec m d po s
  (wordIdx (maskWords m)).foldl (fun s i => wakeWord (16 * sec + i) s) s

/-! ### Cores' sectors -/

def l1Key (core sec : Nat) : Nat := core * 2 ^ 45 + sec

def l1At (s : State) (core sec : Nat) : Option L1Sec := amGet? s.m.l1 (l1Key core sec)

def l1Put (core sec : Nat) (x : L1Sec) (s : State) : State :=
  { s with m := { s.m with l1 := amPut s.m.l1 (l1Key core sec) x } }

def l1Mod (core sec : Nat) (f : L1Sec → L1Sec) (s : State) : State :=
  { s with m := { s.m with l1 := amMod s.m.l1 (l1Key core sec) f } }

def l1Del (core sec : Nat) (s : State) : State :=
  { s with m := { s.m with l1 := amDel s.m.l1 (l1Key core sec) } }

/-- The sectors a core holds, by sector number. -/
def l1Of (s : State) (core : Nat) : List (Nat × L1Sec) :=
  s.m.l1.filterMap (fun e => if e.1 / 2 ^ 45 = core then some (e.1 % 2 ^ 45, e.2) else none)

/-- Words with a written value that the core answers for (R56). -/
def L1Sec.held (x : L1Sec) : BitVec 16 := x.p ||| x.o ||| x.w

/-- Whether a fill of the sector is pending at the core (R59, R63). -/
def fillPending (s : State) (core sec : Nat) : Bool := s.m.fills.any (fun f => f.core == core && f.sector == sec)

/-- Words that leave P, O and W: they go to V with their bytes (R60), marked kept while a fill is pending (R63). -/
def releaseWords (words : BitVec 16) (pending : Bool) (x : L1Sec) : L1Sec :=
  let took := (x.p ||| x.o) &&& words
  { x with p := x.p &&& ~~~words, o := x.o &&& ~~~words, w := x.w &&& ~~~words,
           kept := if pending then x.kept ||| (wordBytes took &&& x.valid) else x.kept,
           reg := x.reg &&& ~~~wordBytes words }

/-- What an owner answers for the words named: written bytes of its words in P, O and W, or of its write-back buffer
(R59, R60, R61). -/
def ownerBytes (s : State) (core sec : Nat) (words : BitVec 16) : SectorData × BitVec 128 :=
  let wb := s.m.wbuf.foldl (fun (a : SectorData) e =>
    if e.core = core ∧ e.sector = sec then
      { mask := a.mask ||| (e.mask &&& wordBytes words), data := secMerge a.data (e.mask &&& wordBytes words) e.data }
    else a) { mask := 0, data := 0 }
  match l1At s core sec with
  | some x =>
    let m := x.reg &&& wordBytes (x.held &&& words)
    ({ mask := wb.mask ||| m, data := secMerge wb.data m x.data }, x.poison &&& m)
  | none => (wb, 0)

/-! ### The ownership directory (R57) -/

def ownerOf (s : State) (word : Nat) : Option Nat := amGet? s.m.dir word

/-- The words of a sector that some core other than the one given owns. -/
def ownedElsewhere (s : State) (sec : Nat) (me : Option Nat) : BitVec 16 :=
  (List.range 16).foldl (fun (a : BitVec 16) i =>
    match ownerOf s (16 * sec + i) with
    | some c => if some c = me then a else a ||| bit16 i
    | none => a) 0

/-- The owners of the words named, other than me, each once. -/
def ownersOf (s : State) (sec : Nat) (words : BitVec 16) (me : Option Nat) : List Nat :=
  ((wordIdx words).filterMap (fun i => match ownerOf s (16 * sec + i) with
    | some c => if some c = me then none else some c
    | none => none)).eraseDups

/-- Those of the words named that a core owns. -/
def wordsOwnedBy (s : State) (sec : Nat) (words : BitVec 16) (c : Nat) : BitVec 16 :=
  (wordIdx words).foldl (fun (a : BitVec 16) i => if ownerOf s (16 * sec + i) = some c then a ||| bit16 i else a) 0

def setOwner (sec : Nat) (words : BitVec 16) (c : Nat) (s : State) : State :=
  { s with m := { s.m with dir := (wordIdx words).foldl (fun d i => amPut d (16 * sec + i) c) s.m.dir } }

def clearOwner (sec : Nat) (words : BitVec 16) (s : State) : State :=
  { s with m := { s.m with dir := (wordIdx words).foldl (fun d i => amDel d (16 * sec + i)) s.m.dir } }

/-- Registrations under way that a revocation supersedes: their REGACK only completes the store (R60). -/
def supersede (core sec : Nat) (words : BitVec 16) (s : State) : State :=
  { s with m := { s.m with outs := s.m.outs.map (fun o =>
      if o.kind = .rego ∧ o.core = core ∧ o.sector = sec then { o with words := o.words &&& ~~~words } else o) } }

/-- A revocation as one operation: the owner answers, the home merges and clears the owner (R57, R60). -/
def revokeFrom (sec : Nat) (words : BitVec 16) (c : Nat) (s : State) : State :=
  let ws := wordsOwnedBy s sec words c
  let b := ownerBytes s c sec ws
  let s := homeMerge sec b.1.mask b.1.data b.2 true s
  let s := supersede c sec ws (l1Mod c sec (releaseWords ws (fillPending s c sec)) s)
  clearOwner sec ws s

/-- Every owner of the words, but for the core given, is revoked. -/
def revoke (sec : Nat) (words : BitVec 16) (me : Option Nat) (s : State) : State :=
  (ownersOf s sec words me).foldl (fun s c => revokeFrom sec words c s) s

/-- The sector's bytes as a read at its home finds them: the home's copy with the owners' written bytes over it (R59). -/
def cohSector (s : State) (sec : Nat) (me : Option Nat) : L2Sec :=
  (ownersOf s sec (BitVec.allOnes 16) me).foldl (fun (x : L2Sec) c =>
    let b := ownerBytes s c sec (wordsOwnedBy s sec (BitVec.allOnes 16) c)
    { x with data := secMerge x.data b.1.mask b.1.data, poison := (x.poison &&& ~~~b.1.mask) ||| b.2 })
    (homeSector s sec)

/-- One byte and one aligned 8-byte word as a device-scope read finds them. -/
def cohByte (s : State) (pa : Nat) : Byte := secByte (cohSector s (pa / 128) none).data (pa % 128)
def cohWord (s : State) (pa : Nat) : Word64 :=
  (cohSector s (pa / 128) none).data.extractLsb' (8 * (pa % 128)) 64

/-! ### The host filter (R75) -/

/-- Whether a home's write (or ownership record), or its read for a device agent, must snoop the host first. -/
def mustSnoop (s : State) (line : Nat) (write : Bool) : Bool :=
  match amGet? s.m.hfilt line with
  | some any => write || any
  | none => false

def snoopLines (s : State) (sec : Nat) (write : Bool) : List Nat :=
  [2 * sec, 2 * sec + 1].filter (fun l => mustSnoop s l write)

/-- A snoop and its answer as one operation: BISnpInv drops the filter entry of a line to be written, BISnpData leaves one to
be read host-shared (R75). DESIGN CHOICE, log 23. -/
def snoopNow (line : Nat) (write : Bool) (s : State) : State :=
  if mustSnoop s line write then
    { s with m := { s.m with hfilt := if write then amDel s.m.hfilt line else amPut s.m.hfilt line false } }
  else s

/-- The same for both lines of a sector. -/
def snoopSec (sec : Nat) (write : Bool) (s : State) : State := snoopNow (2 * sec + 1) write (snoopNow (2 * sec) write s)

/-- Whether one of n bytes of a sector is poisoned as a device-scope read finds it (R80). -/
def cohPoisoned (s : State) (pa n : Nat) : Bool := (cohSector s (pa / 128) none).poison &&& span128 (pa % 128) n != 0

/-- A device-scope write through the home (R58): owners are revoked first. -/
def homeWrite (sec : Nat) (m : BitVec 128) (d : BitVec 1024) (po : BitVec 128) (alloc : Bool) (s : State) : State :=
  homeMerge sec m d po alloc (revoke sec (maskWords m) none s)

/-- Writes one aligned 8-byte word at device scope; a line the host may hold is snooped first (R75). -/
def cohPutWord (pa : Nat) (v : Word64) (s : State) : State :=
  homeWrite (pa / 128) (span128 (pa % 128) 8) (v.zeroExtend 1024 <<< (8 * (pa % 128))) 0 true (snoopNow (pa / 64) true s)

/-! ### Host memory (KIND 10 and 11) -/

/-- Bytes of a 64-byte host line as the home or the host has it (R74). -/
def hostLineData (s : State) (line : Nat) : BitVec 512 :=
  match amGet? s.m.hlines line with
  | some h => h.data
  | none => BitVec.ofNat 512 (memBytes s.m.mem (64 * line) 64)

/-- Its poison marks. -/
def hostLineMarks (s : State) (line : Nat) : BitVec 64 :=
  match amGet? s.m.hlines line with
  | some h => h.poison
  | none => BitVec.ofNat 64 (memMarks s (64 * line) 64)

/-- The home takes a line in the state given (RdShared, RdOwn). -/
def hostLineGet (line : Nat) (st : Mesi) (s : State) : State :=
  let s := l2Room (line / 2) s
  let h : HostLine := { st := st, data := hostLineData s line, poison := hostLineMarks s line, used := s.tick }
  { s with m := { s.m with hlines := amPut s.m.hlines line h } }

/-- Reads n bytes of KIND 10: each line is taken shared, or read current with by. DESIGN CHOICE, log 23. -/
def hostRead (s : State) (pa n : Nat) : Nat :=
  (List.range n).foldl (fun a i =>
    a + 256 ^ i * ((hostLineData s ((pa + i) / 64)).extractLsb' (8 * ((pa + i) % 64)) 8).toNat) 0

/-- The poison marks of n bytes of KIND 10. -/
def hostMarks (s : State) (pa n : Nat) : Nat :=
  (List.range n).foldl (fun a i => a + 2 ^ i * ((hostLineMarks s ((pa + i) / 64)).toNat / 2 ^ ((pa + i) % 64) % 2)) 0

/-- A read of KIND 10 that takes no line: the lines that the home holds are used last (R53, R74). -/
def hostUse (pa n : Nat) (s : State) : State :=
  [pa / 64, (pa + n - 1) / 64].foldl (fun s l => { s with m := { s.m with hlines := amMod s.m.hlines l (fun h => { h with used := s.tick }) } }) s

def hostTouch (pa n : Nat) (s : State) : State :=
  [pa / 64, (pa + n - 1) / 64].foldl (fun s l =>
    match amGet? s.m.hlines l with
    | some h => { s with m := { s.m with hlines := amPut s.m.hlines l { h with used := s.tick } } }
    | none => hostLineGet l .s s) s

/-- Writes n bytes of KIND 10 with their poison marks po: the home holds each line in M with the bytes merged, and waits on the
words look again (R80, R419). -/
def hostWriteM (pa n v po : Nat) (s : State) : State :=
  let words := ((List.range n).map (fun i => (pa + i) / 8)).eraseDups
  let s := [pa / 64, (pa + n - 1) / 64].foldl (fun s l =>
    if (amGet? s.m.hlines l).isSome then s else hostLineGet l .e s) s
  words.foldl (fun s w => wakeWord w s) <| (List.range n).foldl (fun s i =>
    let l := (pa + i) / 64
    let o := (pa + i) % 64
    let d := hostLineData s l
    let b : BitVec 512 := BitVec.ofNat 512 (v / 256 ^ i % 256)
    let d' := (d &&& ~~~((0xFF : BitVec 512) <<< (8 * o))) ||| (b <<< (8 * o))
    let p' := (hostLineMarks s l &&& ~~~((1 : BitVec 64) <<< o)) ||| (BitVec.ofNat 64 (po / 2 ^ i % 2) <<< o)
    { s with m := { s.m with hlines := amPut s.m.hlines l { st := .m, data := d', poison := p', used := s.tick } } }) s

def hostWrite (pa n v : Nat) (s : State) : State := hostWriteM pa n v 0 s

/-- The sectors with an entry in a slice's ownership directory. -/
def dirSectors (s : State) (slice : Nat) : List Nat :=
  ((s.m.dir.map (fun e => e.1 / 16)).eraseDups).filter (fun x => homeSlice s x == slice)

/-- Whether a sector's first owner record finds its slice's 32,768 directory entries in use (R57). -/
def dirFull (s : State) (sec : Nat) : Bool :=
  decide (32768 ≤ s.m.dir.length) && ownedElsewhere s sec none == 0 && decide (32768 ≤ (dirSectors s (homeSlice s sec)).length)

/-- An entry of the directory is freed: every owner it records is revoked (R57). DESIGN CHOICE, log 14. -/
def dirRoom (sec : Nat) (s : State) : State :=
  if dirFull s sec then
    match pickOne (dirSectors s (homeSlice s sec)) s with
    | (some v, s) => revoke v (BitVec.allOnes 16) none s
    | (none, s) => s
  else s

/-- A store of n bytes of KIND 10 with .by: a line that is not held takes WrCur, which writes host memory and holds nothing;
any other is merged as hostWrite does (R74). -/
def hostWriteBy (pa n v : Nat) (s : State) : State :=
  (List.range n).foldl (fun s i =>
    let b := v / 256 ^ i % 256
    if (amGet? s.m.hlines ((pa + i) / 64)).isSome then hostWrite (pa + i) 1 b s
    else wakeWord ((pa + i) / 8) (hostPut (pa + i) 1 b s)) s

/-! ### Snoops of the host (R75, R76) -/

/-- Snoops are sent for the lines; their answers come as BIRsp. DESIGN CHOICE, log 23. -/
def sendSnoops (ls : List Nat) (s : State) : State :=
  { s with m := { s.m with biPend := s.m.biPend ++ ls.filter (fun l => !s.m.biPend.contains l) } }

/-! ### Outstanding messages and the ST counter (R62, R116) -/

/-- The ST counter falls in issue order: complete units leave from the front (R117). The unit of a store that has faulted and is
to be replayed, wait, is not complete (R362). -/
def settle (wait : Option Nat) (us : List StUnit) : List StUnit := us.dropWhile (fun u => u.left == 0 && wait != some u.id)

/-- Whether a store of the group has a message that is not answered. -/
def storesOut (g : Group) : Bool := g.n.sts.any (fun u => u.left != 0)

/-- The store unit of a group loses one awaited acknowledgement. -/
def ackUnit (gid unit : Nat) (s : State) : State :=
  modGroup gid (fun g => { g with n := { g.n with
    sts := settle g.x.unit (g.n.sts.map (fun u => if u.id = unit then { u with left := u.left - 1 } else u)) } }) s

/-- A store unit of the group at issue awaits k more acknowledgements; it rises if it does not stand (R116). -/
def addUnit (unit k : Nat) (s : State) : State :=
  let us := if s.g.n.sts.any (fun u => u.id == unit) then s.g.n.sts.map (fun u => if u.id = unit then { u with left := u.left + k } else u)
    else s.g.n.sts ++ [{ id := unit, left := k }]
  { s with g := { s.g with n := { s.g.n with sts := settle s.g.x.unit us } } }

/-- Whether the store at issue replays one, whose unit stands (R36, R362). -/
def stJoins (s : State) : Bool := !s.g.x.sup && (match s.g.x.unit with
  | some u => s.g.n.sts.any (fun x => x.id == u)
  | none => false)

/-- The unit of the store at issue: a replay goes on with the unit that its first issue raised. DESIGN CHOICE, log 47. -/
def stUnit (s : State) : Nat := if stJoins s then s.g.x.unit.getD s.tick else s.tick

/-- The unit of the store at issue counts k messages. It waits for no replay. -/
def raiseSt (unit k : Nat) (s : State) : State :=
  addUnit unit k { s with g := { s.g with x := { s.g.x with unit := if s.g.x.sup then s.g.x.unit else none } } }

/-- The unit of a store that faults stands until its replay has performed the lanes left: ST rises once (R362). -/
def holdUnit (unit : Nat) (s : State) : State :=
  let us := if s.g.n.sts.any (fun u => u.id == unit) then s.g.n.sts else s.g.n.sts ++ [{ id := unit, left := 0 }]
  { s with g := { s.g with n := { s.g.n with sts := us }, x := { s.g.x with unit := if s.g.x.sup then s.g.x.unit else some unit } } }

/-- Takes the oldest outstanding message of a kind from a core for a sector (R62). -/
def takeOut (kind : OutKind) (core sec : Nat) : List Outst → Option (Outst × List Outst)
  | [] => none
  | o :: t =>
    if o.kind = kind ∧ o.core = core ∧ o.sector = sec then some (o, t)
    else match takeOut kind core sec t with
      | some (x, r) => some (x, o :: r)
      | none => none

def addOut (o : Outst) (s : State) : State := { s with m := { s.m with outs := s.m.outs ++ [o] } }

/-- The oldest outstanding message of a kind from a core for a sector is answered (R62): its store unit counts it. -/
def answered (kind : OutKind) (core sec : Nat) (f : Outst → State → State) (s : State) : State :=
  match takeOut kind core sec s.m.outs with
  | none => s
  | some (o, rest) =>
    wakeAll (f o (((o.gid, o.unit) :: o.also_).foldl (fun s u => ackUnit u.1 u.2 s) { s with m := { s.m with outs := rest } }))

/-- An entry of a core's write-back buffer is free (R61). -/
def freeWb (core sec : Nat) (s : State) : State :=
  match s.m.wbuf.find? (fun w => w.core == core && w.sector == sec) with
  | some w => { s with m := { s.m with wbuf := s.m.wbuf.erase w } }
  | none => s

/-! ### Scratchpads (R20, R24, R93) -/

def sramKey (core off : Nat) : Nat := core * 2 ^ 19 + off

def partEnt (t : Team) (p : Nat) : Option PartEnt := t.parts[p]?

def partLive (e : PartEnt) : Bool := e.v || e.st

/-- Bytes of a core's SRAM, and their writes. -/
def sramBytes (s : State) (core off : Nat) : Nat → Nat
  | 0 => 0
  | n + 1 => (cellGet s.m.sram (sramKey core off)).toNat + 256 * sramBytes s core (off + 1) n

def sramPut (core off : Nat) : Nat → Nat → State → State
  | 0, _, s => s
  | n + 1, v, s => sramPut core (off + 1) n (v / 256)
      { s with m := { s.m with sram := cellPut s.m.sram (sramKey core off) (BitVec.ofNat 8 v)
                               srPoison := cellPut s.m.srPoison (sramKey core off) 0 } }

def sramPoisoned (s : State) (core off n : Nat) : Bool :=
  (List.range n).any (fun i => cellGet s.m.srPoison (sramKey core (off + i)) == 1)

/-! ### Atomics at the home (R66, R364) -/

/-- The new value of an atomic operation on n bits, with the flags of fadd (R364). -/
def atomNew (aop : Nat) (n : Nat) (r : Rnd) (old b c : Nat) : Nat × FFlags :=
  let o := BitVec.ofNat n old
  let x := BitVec.ofNat n b
  match aop with
  | 0 => ((o + x).toNat, 0)
  | 1 => ((o - x).toNat, 0)
  | 2 => ((o &&& x).toNat, 0)
  | 3 => ((o ||| x).toNat, 0)
  | 4 => ((o ^^^ x).toNat, 0)
  | 5 => ((if o.sle x then o else x).toNat, 0)
  | 6 => ((if o.ule x then o else x).toNat, 0)
  | 7 => ((if o.sle x then x else o).toNat, 0)
  | 8 => ((if o.ule x then x else o).toNat, 0)
  | 9 => (x.toNat, 0)
  | 10 => (if o = x then c % 2 ^ n else old, 0)
  | _ => fAdd (if n = 64 then fmt64 else fmt32) r (old % 2 ^ n) (b % 2 ^ n)

/-- n bytes of a sector as a number, and whether any is poisoned. -/
def secRead (d : BitVec 1024) (po : BitVec 128) (i n : Nat) : Nat × Bool :=
  ((d >>> (8 * i)).toNat % 256 ^ n, decide (po &&& span128 i n ≠ 0))

/-- The poison marks of n bytes of a sector from byte i, byte i + k at bit k. -/
def secMarks (po : BitVec 128) (i n : Nat) : Nat := (po >>> i).toNat % 2 ^ n

/-- n bytes of a sector as a number, with their poison marks. -/
def secMarked (d : BitVec 1024) (po : BitVec 128) (i n : Nat) : Nat × Nat := ((secRead d po i n).1, secMarks po i n)

/-- An atomic on one word at its home or base die (R66): owners are revoked, a poisoned word is left alone. Old value,
flags, poison. -/
def homeAtomic (pa aop n : Nat) (r : Rnd) (b c : Nat) (s : State) : (Nat × FFlags × Bool) × State :=
  let sec := pa / 128
  let m := span128 (pa % 128) (n / 8)
  let s := revoke sec (maskWords m) none s
  let h := homeSector s sec
  let old := secRead h.data h.poison (pa % 128) (n / 8)
  if old.2 then ((old.1, 0, true), s)
  else
    let new := atomNew aop n r old.1 b c
    let alloc := (amGet? s.m.l2 sec).isSome || !hashedRegion s (regionOf pa)
    ((old.1, new.2, false),
     homeMerge sec m (BitVec.ofNat 1024 (new.1 % 2 ^ n) <<< (8 * (pa % 128))) 0 alloc s)

/-! ### The host's lines of device memory (R75, R76) -/

/-- The words and the bytes of a 64-byte line in its sector. -/
def lineWords (line : Nat) : BitVec 16 := if line % 2 = 0 then 0x00FF else 0xFF00
def lineMask (line : Nat) (m : BitVec 64) : BitVec 128 := m.zeroExtend 128 <<< (64 * (line % 2))
def lineData (line : Nat) (d : BitVec 512) : BitVec 1024 := d.zeroExtend 1024 <<< (512 * (line % 2))
def lineOf (line : Nat) (d : BitVec 1024) : BitVec 512 := d.extractLsb' (512 * (line % 2)) 512

def hostReply (line : Nat) (d : BitVec 512) (s : State) : State := { s with h := { s.h with reply := s.h.reply ++ [(line, d)] } }

/-! ### What a home does with a request (R57, R58, R61) -/

/-- Waits of wait.v on the words read them again (R419). -/
def wakeWords (sec : Nat) (words : BitVec 16) (s : State) : State :=
  (wordIdx words).foldl (fun s i => wakeWord (16 * sec + i) s) s

/-- REGO: the sender is recorded, if need be in an entry freed for it, and REGACK sent. -/
def regoServe (core sec : Nat) (words : BitVec 16) (s : State) : State :=
  due (.regack core sec) (wakeWords sec words (setOwner sec words core (dirRoom sec s)))

/-- WT: the bytes merge, REL clears the sender's ownership, WTACK. -/
def wtServe (core sec : Nat) (d : SectorData) (rel bypass : Bool) (s : State) : State :=
  let s := homeMerge sec d.mask d.data 0 (!bypass) s
  due (.wtack core sec) (if rel then clearOwner sec (wordsOwnedBy s sec (maskWords d.mask) core) s else s)

/-- WB: only words whose owner is the sender merge, and lose their owner; WBACK. -/
def wbServe (core sec : Nat) (d : SectorData) (s : State) : State :=
  let ws := wordsOwnedBy s sec (maskWords d.mask) core
  let m := d.mask &&& wordBytes ws
  let s := if m = 0 then s else homeMerge sec m d.data 0 true s
  due (.wback core sec) (clearOwner sec ws s)

/-- RDS without waiting: the FILL carries what the owners would forward (R59). -/
def rdsServe (core sec : Nat) (bypass : Bool) (s : State) : State :=
  let s := if bypass then s else homeAlloc sec s
  let x := cohSector s sec (some core)
  due (.fill core sec x.data x.poison (ownedElsewhere s sec (some core)) 0) s

/-- The lanes of an atomic at their home, in ascending order: old values, and the offset of the first poisoned word. -/
def atomLanes (sec : Nat) (aop : BitVec 4) (w : Bool) (r : Rnd) (ls : List AtomLane) (s : State) :
    (List (Nat × Word64) × Option Nat) × State :=
  ls.foldl (fun (x : (List (Nat × Word64) × Option Nat) × State) l =>
    let y := homeAtomic (128 * sec + l.off) aop.toNat (if w then 64 else 32) r l.b.toNat l.c.toNat x.2
    ((x.1.1 ++ [(l.off, w64 y.1.1)], if y.1.2.2 then some (x.1.2.getD l.off) else x.1.2), y.2)) (([], none), s)

/-- ATOM (R66): the operation performs on every lane; poison that it meets is delivered to the group that issued it (R356). -/
def atomServe (core sec : Nat) (aop : BitVec 4) (w : Bool) (r : Rnd) (ls : List AtomLane) (s : State) : State :=
  let x := atomLanes sec aop w r ls s
  let s := match x.1.2, takeOut .atom core sec x.2.m.outs with
    | some off, some (o, _) => modGroup o.gid (fun g => { g with x := { g.x with
        eccu := some (g.x.eccu.getD (w64 (o.va / 128 * 128 + off), 2)) } }) x.2
    | _, _ => x.2
  due (.atomrsp core sec w x.1.1) s

/-- MemRd: the line goes to the host, and the filter records it host-shared (R76). -/
def memrdServe (line : Nat) (s : State) : State :=
  let s := hostReply line (lineOf line (cohSector s (line / 2) none).data) (homeTouch (line / 2) s)
  { s with m := { s.m with hfilt := amPut s.m.hfilt line false } }

/-- MemWr: the host's bytes merge over the owners' (R76). -/
def memwrServe (line : Nat) (mask : BitVec 64) (data : BitVec 512) (s : State) : State :=
  homeMerge (line / 2) (lineMask line mask) (lineData line data) 0 true s

/-- A request that its home serves without waiting: host copies are snooped and other owners revoked first. DESIGN CHOICE, log 23. -/
def serveReq (e : Event) (s : State) : State :=
  match e with
  | .rds core sec bypass => rdsServe core sec bypass (snoopSec sec false s)
  | .rego core sec m => regoServe core sec (maskWords m) (revoke sec (maskWords m) (some core) (snoopSec sec true s))
  | .wt core sec d rel bypass => wtServe core sec d rel bypass (revoke sec (maskWords d.mask) (some core) (snoopSec sec true s))
  | .wb core sec d => wbServe core sec d s
  | .atom core sec aop w r ls => atomServe core sec aop w r ls (snoopSec sec true s)
  | .memrd line => memrdServe line (revoke (line / 2) (lineWords line) none s)
  | .memwr line mask data => memwrServe line mask data (revoke (line / 2) (lineWords line) none s)
  | _ => s

/-- The sector that a message at a home concerns. -/
def sectorOf : Event → Option Nat
  | .rds _ sec _ => some sec
  | .rego _ sec _ => some sec
  | .wt _ sec _ _ _ => some sec
  | .wb _ sec _ => some sec
  | .atom _ sec .. => some sec
  | .memrd line => some (line / 2)
  | .memwr line .. => some (line / 2)
  | _ => none

/-- A core's own REGO, WT or WB for a sector. -/
def ownReq (core sec : Nat) : Event → Bool
  | .rego c x _ => c == core && x == sec
  | .wt c x .. => c == core && x == sec
  | .wb c x _ => c == core && x == sec
  | _ => false

/-- Whether a message on the agenda has been accepted by its home before (R84). -/
def accepted (s : State) (e : Event) : Bool := s.m.under.any (fun u => u.1 == e && u.2.isEmpty)

/-- Events that come up before everything else that is due: answers that a core gives at once (R63). -/
def dueNow (es : List Event) (s : State) : State := { s with agenda := es ++ s.agenda }

/-- A message waits at the home, behind what the home waits for (R57). -/
def hold (e : Event) (s : State) : State := { s with m := { s.m with held := s.m.held ++ [e] } }

/-- What the homes held is taken up again, before anything newer: the homes have accepted it. Accesses that waited behind it
look again. -/
def unhold (s : State) : State :=
  wakeAll { s with m := { s.m with held := [], under := s.m.under ++ s.m.held.map (fun e => (e, [])) }
                   agenda := s.m.held ++ s.agenda }

/-- A core's requests for a sector that are on their way reach its home, in their order, behind what the home has accepted for
the sector before, and before what follows them (R57, R62, R87). -/
def serveOwn (core sec : Nat) (s : State) : State :=
  let here := fun (e : Event) => sectorOf e == some sec
  let own := ownReq core sec
  let first := s.m.held.filter here ++ s.agenda.filter (fun e => here e && accepted s e)
  let later := (s.m.refused.map (fun r => r.1)).filter own ++ s.agenda.filter (fun e => own e && !accepted s e)
  let es := if later.isEmpty then (first.reverse.dropWhile (fun e => !own e)).reverse else first
  if es.isEmpty && later.isEmpty then s
  else
    let s' := { s with
      agenda := s.agenda.filter (fun e => !own e && !(here e && accepted s e && es.contains e))
      m := { s.m with
        held := s.m.held.filter (fun e => !es.contains e)
        refused := s.m.refused.filter (fun r => !own r.1)
        under := s.m.under.filter (fun u => !own u.1 && !es.contains u.1)
        biPend := s.m.biPend.filter (fun l => l / 2 ≠ sec) } }
    unhold ((es ++ later).foldl (fun s e => serveReq e s) s')

/-- A core whose 16 write-back buffer entries are in use has the oldest one's WB answered (R61). DESIGN CHOICE, log 14. -/
def wbSettle (core : Nat) (s : State) : State :=
  match s.m.wbuf.filter (fun w => w.core == core) with
  | [] => s
  | w :: ws =>
    if ws.length < 15 then s
    else
      let s := serveOwn core w.sector s
      answered .wb core w.sector (fun _ s => freeWb core w.sector s) { s with agenda := s.agenda.erase (.wback core w.sector) }

/-- A message's home is known before it is sent: a region that the core's region-home cache has lost is looked up (R70). -/
def sendHome (core sec : Nat) (s : State) : State :=
  let r := regionOf (128 * sec)
  if hashedRegion s r || (amGet? s.m.rhome (core * 2 ^ 36 + r)).isSome then s else lookupHome core r s

/-! ### What a core does to its sectors -/

/-- The acquire's self-invalidation (R65): every V word of the core's L1 and stash becomes I. -/
def selfInvalidate (core : Nat) (s : State) : State :=
  { s with m := { s.m with l1 := s.m.l1.map (fun e =>
      if e.1 / 2 ^ 45 = core then (e.1, { e.2 with valid := e.2.valid &&& wordBytes e.2.held, kept := 0 }) else e) } }

/-- The core's V copies of words become I (R66, R131). -/
def dropVWord (core sec : Nat) (words : BitVec 16) (s : State) : State :=
  l1Mod core sec (fun x => { x with valid := x.valid &&& ~~~wordBytes (words &&& ~~~x.held),
                                    kept := x.kept &&& ~~~wordBytes (words &&& ~~~x.held) }) s

/-- A core's write-through of words it holds in P or O, with REL set, as one operation, after its earlier requests for the
sector (R66, R67); a word in W that it has stored to since, and owns, goes too (R58). -/
def writeThroughNow (core sec : Nat) (words : BitVec 16) (s0 : State) : State :=
  let s := serveOwn core sec s0
  match l1At s core sec with
  | some x =>
    let ws := (x.p ||| x.o ||| (x.w &&& wordsOwnedBy s sec x.w core)) &&& words
    if ws = 0 then s
    else
      let m := x.reg &&& wordBytes ws
      let s := revoke sec ws (some core) (snoopSec sec true s)
      let s := homeMerge sec m x.data x.poison true s
      let s := l1Mod core sec (releaseWords ws false) s
      clearOwner sec (wordsOwnedBy s sec ws core) s
  | none => s

/-- The SRAM offset of a stash sector on its core: where the map that covers it lies (R95, R97). -/
def stashSpot (s : State) (core : Nat) (x : L1Sec) : Option Nat :=
  s.d.teams.findSome? (fun e =>
    if e.2.ctx ≠ x.ctx then none
    else e.2.stash.findSome? (fun m => match partEnt e.2 m.part with
      | some p =>
        if 256 * e.2.cluster + p.core = core ∧ m.va ≤ 128 * x.vsec ∧ 128 * x.vsec < m.va + m.size then
          some (p.base * 4096 + m.off + (128 * x.vsec - m.va))
        else none
      | none => none))

/-- The bytes of a stash sector that have been valid stand in its scratchpad, with their poison marks (R80, R100). -/
def stashLeave (core sec : Nat) (s : State) : State :=
  match l1At s core sec with
  | some x =>
    if !x.stash || x.ever = 0 then s
    else match stashSpot s core x with
      | none => s
      | some off => (secIdx x.ever).foldl (fun s i => { s with m := { s.m with
          sram := cellPut s.m.sram (sramKey core (off + i)) (secByte x.data i)
          srPoison := cellPut s.m.srPoison (sramKey core (off + i)) (if x.poison.getLsbD i then 1 else 0) } }) s
  | none => s

/-- A core writes a sector back and drops it from its L1 or stash (R19, R30, R31, R96). -/
def flushSector (core sec : Nat) (s : State) : State :=
  l1Del core sec (stashLeave core sec (writeThroughNow core sec (BitVec.allOnes 16) s))

/-- Every sector of a core that satisfies p is written back and dropped. -/
def flushWhere (core : Nat) (p : Nat → L1Sec → Bool) (s : State) : State :=
  ((l1Of s core).filter (fun e => p e.1 e.2)).foldl (fun s e => flushSector core e.1 s) s

/-- The cores that hold any sector. -/
def l1Cores (s : State) : List Nat := (s.m.l1.map (fun e => e.1 / 2 ^ 45)).eraseDups

/-- Every core's sectors that satisfy p are written back and dropped. -/
def flushEverywhere (p : Nat → Nat → L1Sec → Bool) (s : State) : State :=
  (l1Cores s).foldl (fun s c => flushWhere c (p c) s) s

/-- The L2 sectors and owners of a physical range go back to memory. -/
def flushRange (lo n : Nat) (s : State) : State :=
  let inR := fun sec => decide (lo < 128 * sec + 128 ∧ 128 * sec < lo + n)
  let words := (s.m.dir.filter (fun e => inR (e.1 / 16))).map (fun e => e.1 / 16)
  let s := words.eraseDups.foldl (fun s sec => revoke sec (BitVec.allOnes 16) none s) s
  ((s.m.l2.filter (fun e => inR e.1)).map (fun e => e.1)).foldl (fun s sec => homeDrop sec s) s

/-! ### Region release, and the table in HBM (R69, R71) -/

/-- The owners of a region's words, by sector: owner, sector and its words. -/
def regionOwners (s : State) (r : Nat) : List (Nat × Nat × BitVec 16) :=
  (((s.m.dir.map (fun e => e.1 / 16)).eraseDups).filter (fun sec => regionOf (128 * sec) == r)).flatMap (fun sec =>
    (ownersOf s sec (BitVec.allOnes 16) none).map (fun c => (c, sec, wordsOwnedBy s sec (BitVec.allOnes 16) c)))

/-- The end of a release: the home's sectors go back to memory, and the keeper clears V and REL. -/
def endRelease (r : Nat) (s : State) : State :=
  let s := flushRange (65536 * r) 65536 s
  { s with m := { s.m with regions := cellPut s.m.regions r 0 } }

/-- Releases a first-touch region (R71): the keeper sets REL, every owner of its words is revoked, and with the last answer
the release ends. -/
def releaseRegion (r : Nat) (s : State) : State :=
  match regionHome s r with
  | none => s
  | some _ =>
    if regionRel s r then s
    else
      let s := { s with m := { s.m with regions := cellPut s.m.regions r (cellGet s.m.regions r ||| 0x4000) } }
      match regionOwners s r with
      | [] => endRelease r s
      | os => dueNow (os.map (fun o => Event.rvk o.1 o.2.1 o.2.2)) s

/-- Releases the first-touch regions of a physical range. -/
def releaseRegions (lo n : Nat) (s : State) : State :=
  let rs := (s.m.regions.map (fun e => e.1)).filter (fun r => decide (lo ≤ 65536 * r ∧ 65536 * r < lo + n))
  rs.foldl (fun s r => releaseRegion r s) s


end Sys2Proof.Machine
end

