-- ==== Sys2Proof/Machine/Xlate.lean ====
section
/-! DEFINITION. Translation: the physical map, the page table walk, the TLBs, permissions, and the checks of one access
(R8 to R19, R28 to R33, R48, R49). -/
namespace Sys2Proof.Machine

/-! ### Leaves and table entries (R11) -/

def ptePresent (e : Word64) : Bool := e.getLsbD 0
def pteLeaf (e : Word64) : Bool := e.getLsbD 2
def leafRd (e : Word64) : Bool := e.getLsbD 3
def leafA (e : Word64) : Bool := e.getLsbD 4
def leafD (e : Word64) : Bool := e.getLsbD 5
def leafWr (e : Word64) : Bool := e.getLsbD 52
def leafEx (e : Word64) : Bool := e.getLsbD 53
def leafSup (e : Word64) : Bool := e.getLsbD 54
def leafKind (e : Word64) : Nat := e.toNat / 2 ^ 55 % 4
def leafHome (e : Word64) : Bool := e.getLsbD 57
def leafSnap (e : Word64) : Bool := e.getLsbD 58
def leafPin (e : Word64) : Bool := e.getLsbD 59
def pteAddr (e : Word64) : Nat := e.toNat / 2 ^ 8 % 2 ^ 44 * 2 ^ 8
def leafFrame (e : Word64) : Nat := e.toNat / 2 ^ 16 % 2 ^ 36 * 2 ^ 16
def setA (e : Word64) : Word64 := e ||| 0x10
def setD (e : Word64) : Word64 := e ||| 0x30

/-! ### The physical map (R9) -/

def inHbm (pa : Nat) : Bool := decide (pa < 12 * 2 ^ 36)

/-- The live part of the expander behind port p, in bytes (R9, R467). -/
def expLive (t : Tuning) (p : Nat) : Nat :=
  let e := t.exp.getD p 0
  if e.getLsbD 63 then e.toNat % 2 ^ 22 * 2 ^ 20 else 0

def inExpander (t : Tuning) (pa : Nat) : Bool :=
  (List.range 4).any (fun p => decide (2 ^ 44 + p * 2 ^ 41 ≤ pa ∧ pa < 2 ^ 44 + p * 2 ^ 41 + expLive t p))

def inHost (pa : Nat) : Bool := decide (2 ^ 51 ≤ pa ∧ pa < 2 ^ 52)

/-- HBM or the live expander ranges. -/
def inDevMem (t : Tuning) (pa : Nat) : Bool := inHbm pa || inExpander t pa

/-- Whether the host port of a host address runs plain PCIe (R484). -/
def portPcieOf (s : State) (pa : Nat) : Bool := s.h.portPcie.getD (pa / 2 ^ 50 % 2) false

/-- The range of a KIND (R12, R484): for KIND 01 the live part of the expanders, into which the frame's base must fall. DESIGN
CHOICE, log 46. -/
def inKind (s : State) (kind pa : Nat) : Bool :=
  match kind with
  | 0 => inHbm pa
  | 1 => inExpander s.tun pa
  | 2 => inHost pa && !portPcieOf s pa
  | _ => inHost pa

/-! ### The walk (R10, R12) -/

/-- log2 of the span of one entry at a level. -/
def levelShift : Nat → Nat
  | 0 => 39
  | 1 => 30
  | 2 => 21
  | _ => 16

/-- The index a VA gives at a level. -/
def levelIndex (level : Nat) (va : Nat) : Nat :=
  match level with
  | 0 => va / 2 ^ 39 % 2 ^ 17
  | 1 => va / 2 ^ 30 % 512
  | 2 => va / 2 ^ 21 % 512
  | _ => va / 2 ^ 16 % 32

/-- Alignment of the table below a level. -/
def nextTableSize (level : Nat) : Nat := if level = 2 then 256 else 4096

/-- What is wrong with a present entry, as DETAIL (R12, R42). DEDUCED, log 20. -/
def pteFault (s : State) (level : Nat) (e : Word64) : Option Nat :=
  let x := e.toNat
  let reserved := x / 2 ^ 60 % 16 ≠ 0 || x / 2 ^ 6 % 4 ≠ 0 || e.getLsbD 1
  if reserved then some 5
  else if pteLeaf e then
    if level = 0 || x / 2 ^ 8 % 256 ≠ 0 then some 5
    else if leafFrame e % 2 ^ levelShift level ≠ 0 then some 5
    else if !inKind s (leafKind e) (leafFrame e) then some 6
    else none
  else
    if level = 3 then some 5
    else if x / 2 ^ 52 % 256 ≠ 0 || x / 2 ^ 3 % 8 ≠ 0 then some 5
    else if pteAddr e % nextTableSize level ≠ 0 then some 5
    else if !inDevMem s.tun (pteAddr e) then some 5
    else none

/-- How a walk ends: at a leaf, or at an entry that is absent, malformed or poisoned. -/
inductive Walk where
  | leaf (pte : Nat) (e : Word64) (level : Nat)
  | absent (level : Nat)
  | bad (detail level : Nat)
  /-- the entry read has a poisoned byte (R80) -/
  | poisoned (level : Nat)
deriving DecidableEq, Repr

/-- The walk from a table at a level, with fuel for the levels left. -/
def walkFrom (s : State) (va : Nat) : Nat → Nat → Nat → Walk
  | 0, level, _ => .bad 5 level
  | n + 1, level, table =>
    let p := table + 8 * levelIndex level va
    let e := cohWord s p
    if cohPoisoned s p 8 then .poisoned level
    else if !ptePresent e then .absent level
    else match pteFault s level e with
      | some d => .bad d level
      | none => if pteLeaf e then .leaf p e level else walkFrom s va n (level + 1) (pteAddr e)

/-- The 64-byte lines of the entries that a walk reads. -/
def walkLines (s : State) (va : Nat) : Nat → Nat → Nat → List Nat
  | 0, _, _ => []
  | n + 1, level, table =>
    let p := table + 8 * levelIndex level va
    let e := cohWord s p
    if cohPoisoned s p 8 || !ptePresent e || pteLeaf e || (pteFault s level e).isSome then [p / 64]
    else p / 64 :: walkLines s va n (level + 1) (pteAddr e)

/-- The walk of a context's tables (R10). -/
def walk (s : State) (ctx va : Nat) : Walk :=
  match ctxOf s ctx with
  | some c => walkFrom s va 4 0 c.root
  | none => .absent 0

/-! ### Who makes an access -/

/-- An access's agent: its core (none for an agent of the I/O die), its cluster, its context, its privilege, and whether
its launch is pinned. -/
structure Agent where
  core : Option Nat
  cluster : Nat
  ctx : Nat
  sup : Bool
  pinned : Bool
deriving DecidableEq, Repr

/-- Whether a group's launch is pinned (R49). -/
def groupPinned (s : State) (g : Group) : Bool :=
  (g.idn.kind == .compute || g.idn.kind == .drone) &&
    (match amGet? s.d.grids g.idn.work with | some gr => gr.pinned | none => false)

def agentOf (s : State) (g : Group) : Agent :=
  { core := some g.idn.core, cluster := clusterOf g.idn.core, ctx := g.idn.ctx, sup := g.x.sup,
    pinned := groupPinned s g }

/-- The agent of a group's copy and matrix commands: user privilege. DESIGN CHOICE, log 21. -/
def engineOf (s : State) (g : Group) : Agent := { agentOf s g with sup := false }

/-- An agent of the I/O die, or a window engine. DEDUCED, log 42. -/
def ioAgent (cluster ctx : Nat) (sup : Bool) : Agent :=
  { core := none, cluster := cluster, ctx := ctx, sup := sup, pinned := false }

/-! ### Translations -/

/-- The page of a VA at a level. -/
def vpage (level : Nat) (va : Nat) : Nat := va / 2 ^ levelShift level

/-- The physical address of a VA under a leaf. -/
def leafPaOf (e : Word64) (level va : Nat) : Nat := leafFrame e + va % 2 ^ levelShift level

/-- The cluster TLB's entry for a VA (R29). -/
def tlbFind (s : State) (cluster ctx va : Nat) : Option TlbEnt :=
  s.m.tlb.find? (fun t => t.cluster == cluster && t.ctx == ctx && t.vpage == vpage t.level va)

/-- A core's first-level entry for a VA (R29). -/
def tlb1Find (s : State) (core ctx va : Nat) : Option Tlb1Ent :=
  s.m.tlb1.find? (fun t => t.core == core && t.ctx == ctx && t.vpage == vpage t.level va)

/-- Permission failures in the order of R14, as DETAIL. acc: 0 load, 1 store, 2 atomic, 3 fetch, 4 and 5 engine read and
write. -/
def permFault (e : Word64) (sup : Bool) (acc : Nat) : Option Nat :=
  let needR := acc == 0 || acc == 2 || acc == 4
  let needW := acc == 1 || acc == 2 || acc == 5
  if leafSup e && !sup then some 4
  else if needR && !leafRd e then some 1
  else if needW && !leafWr e then some 2
  else if acc == 3 && !leafEx e then some 3
  else none

/-- A translation: the leaf, its level and its entry's address. -/
structure Xl where
  leaf : Word64
  level : Nat
  pte : Nat
deriving DecidableEq, Repr

/-- A fault of an access before its lane and mask are known: code, DETAIL, LEVEL. -/
structure AFlt where
  code : Nat
  detail : Nat
  level : Nat
deriving DecidableEq, Repr

/-- Whether an access stores (R13). -/
def accWrites (acc : Nat) : Bool := acc == 1 || acc == 2 || acc == 5

/-- A leaf with the marks that an access sets. -/
def marked (acc : Nat) (e : Word64) : Word64 := if accWrites acc then setD e else setA e

/-- The translation a TLB holds: the core's first-level TLB, else the cluster's (R29). -/
def tlbHeld (s : State) (a : Agent) (va : Nat) : Option Xl :=
  match a.core.bind (fun c => tlb1Find s c a.ctx va) with
  | some t => some { leaf := t.leaf, level := t.level, pte := t.leafPa }
  | none => (tlbFind s a.cluster a.ctx va).map (fun t => { leaf := t.leaf, level := t.level, pte := t.leafPa })

/-- Whether the walker must mark a held leaf whose entry has changed since it was read: the walk is repeated (R13). -/
def changedSince (s : State) (x : Xl) (acc : Nat) : Bool := marked acc x.leaf != x.leaf && cohWord s x.pte != x.leaf

/-- Permission, the last check of R33. -/
def permit (a : Agent) (acc : Nat) (x : Xl) : Except AFlt Xl :=
  match permFault x.leaf a.sup acc with
  | some d => .error { code := fPROT, detail := d, level := x.level }
  | none => .ok x

/-- A walk's translation, or what it faults with. -/
def walked (s : State) (a : Agent) (va acc : Nat) : Except AFlt Xl :=
  match walk s a.ctx va with
  | .absent l => .error { code := fPAGE, detail := 0, level := l }
  | .bad d l => .error { code := fPROT, detail := d, level := l }
  | .poisoned l => .error { code := fECCU, detail := 0, level := l }
  | .leaf p e l => permit a acc { leaf := e, level := l, pte := p }

/-- Steps 3 to 5 of R33 for one page: pinned miss, presence, malformed entry, permission. -/
def xlate (s : State) (a : Agent) (va acc : Nat) : Except AFlt Xl :=
  match tlbHeld s a va with
  | some x => if changedSince s x acc then walked s a va acc else permit a acc x
  | none => if a.pinned then .error { code := fPINMISS, detail := 0, level := 0 } else walked s a va acc

/-- The leaf that an access reaches before its permission is checked. -/
def leafReached (s : State) (a : Agent) (va : Nat) : Option Word64 :=
  match tlbHeld s a va with
  | some x => some x.leaf
  | none => match walk s a.ctx va with
    | .leaf _ e _ => some e
    | _ => none

/-- Room in a set of the cluster TLB, whose newest entry stands last (R29): 16 ways, of which a locked entry and the newest
stay; which other goes is open, and a set whose ways are all locked grows. DESIGN CHOICE, log 14. -/
def tlbRoom (cl vp : Nat) (s : State) : State :=
  let mine := s.m.tlb.filter (fun t => t.cluster == cl && t.vpage % 1024 == vp % 1024)
  if mine.length ≤ 16 then s
  else match pickOne (mine.dropLast.filter (fun t => t.locks.isEmpty)) s with
    | (some v, s) => { s with m := { s.m with tlb := s.m.tlb.erase v } }
    | (none, s) => s

/-- Room in a core's first-level TLB of 96 entries (R29). DESIGN CHOICE, log 14. -/
def tlb1Room (core : Nat) (s : State) : State :=
  let mine := s.m.tlb1.filter (fun t => t.core == core)
  if mine.length ≤ 96 then s
  else match pickOne mine.dropLast s with
    | (some v, s) => { s with m := { s.m with tlb1 := s.m.tlb1.erase v } }
    | (none, s) => s

/-- The walker's marks in the table (R13): a compare-and-set of the entry, which holds the leaf as it was read but for marks
that others have set since. The leaf as it then stands. -/
def markLeaf (acc : Nat) (x : Xl) (s : State) : Word64 × State :=
  if marked acc x.leaf = x.leaf then (x.leaf, s)
  else
    let cur := cohWord s x.pte
    if setD cur = setD x.leaf then (marked acc cur, if marked acc cur = cur then s else cohPutWord x.pte (marked acc cur) s)
    else (marked acc x.leaf, s)

/-- A region's home as an agent that reaches it looks it up: its core, the cluster's engine, or an agent of the I/O die (R70).
A walk counts as coming from the core it is made for. DESIGN CHOICE, log 45. -/
def agentHome (a : Agent) (region : Nat) (s : State) : State :=
  if hashedRegion s region then s
  else match a.core with
    | some c => lookupHome c region s
    | none => homeRegion region (if a.cluster < 8 then homeForEngine s.tun a.cluster region else keeperOf s.tun region) s

/-- The lines a walk reads: their homes are looked up and have them used last, and the host holds them shared at most (R53, R70,
R75). -/
def walkTouch (a : Agent) (va : Nat) (s : State) : State :=
  match ctxOf s a.ctx with
  | some c => (walkLines s va 4 0 c.root).foldl (fun s l => homeTouch (l / 2) (snoopNow l false (agentHome a (regionOf (64 * l)) s))) s
  | none => s

/-- The same of a translation, which walks where no TLB has the leaf. -/
def walkSnoops (a : Agent) (va acc : Nat) (s : State) : State :=
  if (match tlbHeld s a va with
    | some x => changedSince s x acc
    | none => true) then walkTouch a va s else s

/-- Codes of faults that a translation can end in, but for a pinned launch's miss. -/
def walkCode (code : Nat) : Bool := code == fPAGE || code == fPROT || code == fECCU

/-- What a walk that ends in a fault of the code given has read all the same (R53, R70, R75). -/
def walkFault (a : Agent) (va acc code : Nat) (s : State) : State :=
  if walkCode code && !(a.pinned && (tlbHeld s a va).isNone) then walkSnoops a va acc s else s

/-- The walker's effects when a translation is used: A, and D for a store or an atomic, in the table; the cluster TLB and
the core's first-level TLB hold the leaf (R11, R13, R29). -/
def useXlate (a : Agent) (va acc : Nat) (x : Xl) (s0 : State) : State :=
  let r := markLeaf acc x (walkSnoops a va acc s0)
  let s := r.2
  let vp := vpage x.level va
  let same := fun (t : TlbEnt) => t.cluster == a.cluster && t.ctx == a.ctx && t.level == x.level && t.vpage == vp
  let locks := ((s.m.tlb.filter same).flatMap (fun t => t.locks)).eraseDups
  let new : TlbEnt := { cluster := a.cluster, ctx := a.ctx, level := x.level, vpage := vp, leaf := r.1, leafPa := x.pte, locks := locks }
  let s := tlbRoom a.cluster vp { s with m := { s.m with tlb := s.m.tlb.filter (fun t => !same t) ++ [new] } }
  match a.core with
  | none => s
  | some c =>
    let same1 := fun (t : Tlb1Ent) => t.core == c && t.ctx == a.ctx && t.level == x.level && t.vpage == vp
    let new1 : Tlb1Ent := { core := c, ctx := a.ctx, level := x.level, vpage := vp, leaf := r.1, leafPa := x.pte }
    tlb1Room c { s with m := { s.m with tlb1 := s.m.tlb1.filter (fun t => !same1 t) ++ [new1] } }

/-- Discards every translation of a context's page from every TLB (R19). -/
def dropPage (ctx : Nat) (level vp : Nat) (s : State) : State :=
  let covers (l v : Nat) : Bool := v * 2 ^ levelShift l < (vp + 1) * 2 ^ levelShift level && vp * 2 ^ levelShift level < (v + 1) * 2 ^ levelShift l
  { s with m := { s.m with
      tlb := s.m.tlb.filter (fun t => !(t.ctx == ctx && covers t.level t.vpage))
      tlb1 := s.m.tlb1.filter (fun t => !(t.ctx == ctx && covers t.level t.vpage)) } }

/-- Discards every translation of a context (R18). -/
def dropCtxTlb (ctx : Nat) (s : State) : State :=
  { s with m := { s.m with tlb := s.m.tlb.filter (fun t => t.ctx ≠ ctx), tlb1 := s.m.tlb1.filter (fun t => t.ctx ≠ ctx) } }

/-! ### Segments: the part of an access within one sector -/

/-- A piece of an access: n bytes at va, which lie in one sector at pa; whether L1 or the stash serves it by its tag
(R28), and otherwise its translation. -/
structure Seg where
  va : Nat
  n : Nat
  pa : Nat
  hit : Bool
  x : Xl
deriving DecidableEq, Repr

def Seg.kind (g : Seg) : Nat := if g.hit then 0 else leafKind g.x.leaf

/-- An L1 or stash sector by its virtual tag (R28). -/
def l1ByTag (s : State) (core ctx vsec : Nat) : Option (Nat × L1Sec) :=
  (l1Of s core).find? (fun e => e.2.ctx == ctx && e.2.vsec == vsec)

/-- Whether a tag carries the permission an access needs. -/
def tagAllows (x : L1Sec) (sup : Bool) (acc : Nat) : Bool :=
  (!x.sup || sup) && (if acc = 0 then x.rd else if acc = 1 then x.wr else false)

/-- One segment: an L1 hit, or a translation. A load hits when all its bytes are valid; a store when the sector is there. -/
def segOf (s : State) (a : Agent) (acc va n : Nat) : Except AFlt Seg :=
  let byTag := match a.core with
    | some c => (match l1ByTag s c a.ctx (va / 128) with
      | some (sec, t) =>
        let m := span128 (va % 128) n
        if tagAllows t a.sup acc && (acc = 1 || t.valid &&& m = m) then some sec else none
      | none => none)
    | none => none
  match byTag with
  | some sec => .ok { va := va, n := n, pa := 128 * sec + va % 128, hit := true, x := { leaf := 0, level := 0, pte := 0 } }
  | none =>
    match xlate s a va acc with
    | .error f => .error f
    | .ok x => .ok { va := va, n := n, pa := leafPaOf x.leaf x.level va, hit := false, x := x }

/-- What each piece of n bytes at va gives, at most fuel of them, with its first address. -/
def segResults (s : State) (a : Agent) (acc : Nat) : Nat → Nat → Nat → List (Nat × Except AFlt Seg)
  | 0, _, _ => []
  | fuel + 1, va, n =>
    if n = 0 then []
    else
      let k := Nat.min n (128 - va % 128)
      (va, segOf s a acc va k) :: segResults s a acc fuel ((va + k) % 2 ^ 64) (n - k)

/-- The place of a fault among the checks 3 to 5 of R33: pinned miss, presence, then a malformed entry or permission. -/
def checkRank (f : AFlt) : Nat := if f.code = fPINMISS then 0 else if f.code = fPROT then 2 else 1

/-- The check that fails first for the lane, at its lowest byte that fails it (R33, R34). -/
def firstFault : List (Nat × Except AFlt Seg) → Option (AFlt × Nat)
  | [] => none
  | (v, .error f) :: t => match firstFault t with
    | some e => if checkRank e.1 < checkRank f then some e else some (f, v)
    | none => some (f, v)
  | (_, .ok _) :: t => firstFault t

/-- The pieces that passed. -/
def segsPassed : List (Nat × Except AFlt Seg) → List Seg
  | [] => []
  | (_, .ok g) :: t => g :: segsPassed t
  | _ :: t => segsPassed t

/-- The segments of n bytes at va, at most fuel of them; a fault comes with the address of the lowest byte that fails. -/
def segsOf (s : State) (a : Agent) (acc fuel va n : Nat) : Except (AFlt × Nat) (List Seg) :=
  let rs := segResults s a acc fuel va n
  match firstFault rs with
  | some e => .error e
  | none => .ok (segsPassed rs)

/-- The first of n bytes from va whose address is not canonical. -/
def badByte (va : Nat) : Nat → Option Nat
  | 0 => none
  | n + 1 =>
    match badByte va n with
    | some v => some v
    | none => if canonical (w64 (va + n)) then none else some ((va + n) % 2 ^ 64)

/-- The checks of R33 for a global access of n bytes at va; al is the alignment it needs. -/
def checkGlobal (s : State) (a : Agent) (acc va n al : Nat) : Except (AFlt × Nat) (List Seg) :=
  match badByte va n with
  | some v => .error ({ code := fADDROVF, detail := 0, level := 0 }, v)
  | none =>
    if va % al ≠ 0 then .error ({ code := fALIGN, detail := 0, level := 0 }, va)
    else segsOf s a acc (n / 128 + 2) va n

end Sys2Proof.Machine
end

