-- ==== Sys2Proof/Machine/Access.lean ====
section
/-! DEFINITION. Accesses of memory instructions: lanes and their checks, scratchpads, L1 fills and stores, staging, the
waits at issue, and the shapes of a load, a store and an atomic (R20 to R23, R34, R54 to R68, R93, R125, R158, R353). -/
namespace Sys2Proof.Machine

/-! ### Scratchpads (R20 to R23, R93, R354) -/

/-- Where a scratch access lies: core, SRAM offset, and the part it names. -/
structure SLoc where
  core : Nat
  off : Nat
  part : Nat
deriving DecidableEq, Repr

/-- The part that SEL names for a group, or the DETAIL of the failure (R21). -/
def selPart (t : Team) (own sel : Nat) : Except Nat Nat :=
  if sel = 0xFE then .ok own
  else if sel ≥ 0x40 then .error 9
  else if sel ≥ t.parts.length then .error 10
  else .ok sel

/-- Whether a byte range of a part's allocation touches a live stash map of the part (R96). -/
def inStash (t : Team) (part off n : Nat) : Bool :=
  t.stash.any (fun m => m.part == part && decide (m.off < off + n ∧ off < m.off + m.size))

/-- The checks of R21 for n bytes at an offset of the part SEL names, at a group of team t in part own. -/
def scratchAt (t : Team) (own sel off n : Nat) : Except AFlt SLoc :=
  match selPart t own sel with
  | .error d => .error { code := fSPBOUND, detail := d, level := 0 }
  | .ok p =>
    match partEnt t p with
    | none => .error { code := fSPBOUND, detail := 10, level := 0 }
    | some e =>
      if !partLive e then .error { code := fPEERGONE, detail := 0, level := 0 }
      else if off + n > e.size * 4096 ∨ inStash t p off n then .error { code := fSPBOUND, detail := 8, level := 0 }
      else .ok { core := 256 * t.cluster + e.core, off := e.base * 4096 + off, part := p }

/-- The address of a lane's scratch access: bits 23:0 plus the offset, exactly (R354). -/
def scratchLane (t : Team) (own : Nat) (a : Nat) (d : Int) (n al : Nat) : Except AFlt SLoc :=
  let o : Int := ((a % 2 ^ 24 : Nat) : Int) + d
  if o < 0 ∨ o ≥ 2 ^ 24 then .error { code := fSPBOUND, detail := 8, level := 0 }
  else match scratchAt t own (a / 2 ^ 24 % 256) o.toNat n with
    | .error f => .error f
    | .ok l => if o.toNat % al ≠ 0 then .error { code := fALIGN, detail := 0, level := 0 } else .ok l

/-- The team of the group at issue; a group without one has no allocation. -/
def Team.nil : Team where
  grid := 0
  isJob := false
  tidx := 0
  ctx := 0
  cluster := 0
  parts := []
  stash := []
  bars := []
  exits := 0
  tids := []
  bow := .off
  drained := false
  savePlace := 0
  saveSize := 0
  saved := false
  swapped := false
  image := []
  imagePoison := []
  savedMaps := []
  staged := []

def gTeam (s : State) : Team := (teamOf s s.g.idn.team).getD Team.nil

/-! ### Lanes -/

/-- Where a lane's access lands. -/
inductive Loc where
  | glob (segs : List Seg)
  | scr (l : SLoc)
deriving DecidableEq, Repr

/-- One lane's access: its address, the place of its bytes among those the lanes can share, and what its checks gave. -/
structure LaneAcc where
  lane : Nat
  addr : Nat
  n : Nat
  place : Nat
  res : Except (AFlt × Nat) Loc

def LaneAcc.ok (a : LaneAcc) : Bool := match a.res with
  | .ok _ => true
  | .error _ => false

def LaneAcc.segs (a : LaneAcc) : List Seg := match a.res with
  | .ok (.glob gs) => gs
  | _ => []

def LaneAcc.scr (a : LaneAcc) : Option SLoc := match a.res with
  | .ok (.scr l) => some l
  | _ => none

/-- Whether two lanes address a common byte: places wrap at 2^64 as global addresses do. -/
def overlaps (a b : LaneAcc) : Bool :=
  decide ((b.place + 2 ^ 64 - a.place % 2 ^ 64) % 2 ^ 64 < a.n ∨ (a.place + 2 ^ 64 - b.place % 2 ^ 64) % 2 ^ 64 < b.n)

/-- The lanes that perform: those that fail no check and share no byte with a failing lane (R34). -/
def performing (ls : List LaneAcc) : List LaneAcc :=
  let bad := ls.filter (fun a => !a.ok)
  ls.filter (fun a => a.ok && !bad.any (overlaps a))

def lanesMask (ls : List LaneAcc) : Word32 := ls.foldl (fun m a => m ||| bit32 a.lane) 0

/-- The failing lanes with what failed. -/
def failures (ls : List LaneAcc) : List (Nat × AFlt × Nat) :=
  ls.filterMap (fun a => match a.res with
    | .error (f, v) => some (a.lane, f, v)
    | .ok _ => none)

/-- The fault of an instruction's lanes (R33, R34): that of the lowest failing lane, with every lane of the same fault in
the same granule. -/
def laneFault (acc : Nat) (ls : List LaneAcc) : Option Flt :=
  match failures ls with
  | [] => none
  | (l, f, v) :: t =>
    let same := ((l, f, v) :: t).filter (fun x => x.2.1 = f ∧ x.2.2 / 65536 = v / 65536)
    some { code := f.code, detail := f.detail, acc := acc, level := f.level, va := w64 v,
           mask := same.foldl (fun m x => m ||| bit32 x.1) 0 }

/-- A global lane access. -/
def globLane (s : State) (acc al : Nat) (lane va n : Nat) : LaneAcc :=
  { lane := lane, addr := va, n := n, place := va,
    res := match checkGlobal s (agentOf s s.g) acc va n al with
      | .ok gs => .ok (.glob gs)
      | .error e => .error e }

/-- The place of a scratch byte: the part that SEL names for the group, then the offset; an offset outside 24 bits names no
byte of any part. -/
def scrPlace (own sel : Nat) (o : Int) : Nat := 2 ^ 26 * (if sel = 0xFE then own else sel) + (o + 2 ^ 25).toNat

/-- A scratch lane access: a is the address register's or lane's value, d the displacement. The fault address of an offset
outside 24 bits keeps SEL: DESIGN CHOICE, log 46. -/
def scrLane (s : State) (al : Nat) (lane : Nat) (a : Word64) (d : Int) (n : Nat) : LaneAcc :=
  let t := gTeam s
  let a32 := a.toNat % 2 ^ 32
  let sel := a32 / 2 ^ 24 * 2 ^ 24
  let o := ((((a32 % 2 ^ 24 : Nat) : Int) + d) % 2 ^ 24).toNat
  let place := scrPlace s.g.idn.part (a32 / 2 ^ 24) (((a32 % 2 ^ 24 : Nat) : Int) + d)
  match scratchLane t s.g.idn.part a32 d n al with
  | .ok l => { lane := lane, addr := sel + o, n := n, place := place, res := .ok (.scr l) }
  | .error f =>
    -- the lowest byte that fails
    let i := ((List.range n).find? (fun (i : Nat) => match scratchLane t s.g.idn.part a32 (d + (i : Int)) 1 1 with
      | .error _ => true
      | .ok _ => false)).getD 0
    { lane := lane, addr := sel + o, n := n, place := place, res := .error (f, sel + (o + i) % 2 ^ 24) }

/-- The lanes of a global access in each form (R353): ea for the scalar thread, 8 bytes per lane, or per-lane addresses. -/
def globScalar (s : State) (acc al n : Nat) (a : SReg) (off : BitVec 21) : List LaneAcc :=
  [globLane s acc al 0 (rS s a + off.signExtend 64).toNat n]

def globContig (s : State) (acc al : Nat) (a : SReg) (off : BitVec 21) (act : Word32) : List LaneAcc :=
  (lanesOf act).map (fun l => globLane s acc al l (rS s a + off.signExtend 64 + w64 (8 * l)).toNat 8)

def globGather (s : State) (acc al n : Nat) (a : VReg) (off : BitVec 21) (act : Word32) : List LaneAcc :=
  (lanesOf act).map (fun l => globLane s acc al l (rV s a l + off.signExtend 64).toNat n)

def scrScalar (s : State) (al n : Nat) (a : SReg) (off : BitVec 21) : List LaneAcc :=
  [scrLane s al 0 (rS s a) off.toInt n]

def scrContig (s : State) (al : Nat) (a : SReg) (off : BitVec 21) (act : Word32) : List LaneAcc :=
  (lanesOf act).map (fun l => scrLane s al l (rS s a) (off.toInt + 8 * l) 8)

def scrGather (s : State) (al n : Nat) (a : VReg) (off : BitVec 21) (act : Word32) : List LaneAcc :=
  (lanesOf act).map (fun l => scrLane s al l (rV s a l) off.toInt n)

/-! ### Replayable and deterministic launches -/

/-- The grid of a compute or drone group. -/
def gridOf (s : State) (g : Group) : Option Grid :=
  if g.idn.kind == .compute || g.idn.kind == .drone then amGet? s.d.grids g.idn.work else none

def isDet (s : State) (g : Group) : Bool := match gridOf s g with
  | some gr => gr.det
  | none => false

/-- Whether a group's team holds the bow and has drained (R162). -/
def holdsBow (s : State) (g : Group) : Bool := match teamOf s g.idn.team with
  | some t => t.bow == .holds && t.drained
  | none => false

/-- Whether a group's team has received the bow and drains: it stages no longer (R164). -/
def bowDue (s : State) (g : Group) : Bool := isDet s g && (match teamOf s g.idn.team with
  | some t => t.bow == .holds && !t.drained
  | none => false)

/-- Whether a group of a deterministic launch must wait for the bow (R162). -/
def needsBow (s : State) (g : Group) : Bool := isDet s g && !holdsBow s g

/-- Whether the team has passed the bow: its global writes are refused (R163). -/
def passedBow (s : State) (g : Group) : Bool := isDet s g && (match teamOf s g.idn.team with
  | some t => t.bow == .passed
  | none => false)

/-- GIDX of an identity (R175). -/
def gidxOfIdn (i : GIdent) : Nat := i.gidx + (if i.kind = .drone then 16 else 0)

/-- Key of a saved byte in the snapshot pool: the launch, then the byte's address. -/
def snapKey (grid pa : Nat) : Nat := grid * 2 ^ 52 + pa

/-- The base die copies a granule for a launch, once (R17). -/
def snapGranule (grid gran : Nat) (s : State) : State :=
  match amGet? s.d.grids grid with
  | none => s
  | some gr =>
    if gr.snaps.any (fun e => e.1 == gran) then s
    else if (s.d.grids.foldl (fun a e => a + e.2.snaps.length) 0) * 65536 + 65536 > s.tun.snapSize then endReplay grid 5 s
    else
      let s := flushRange (65536 * gran) 65536 s
      let cells := s.m.mem.filter (fun e => decide (65536 * gran ≤ e.1 ∧ e.1 < 65536 * gran + 65536))
      let s := cells.foldl (fun s e => { s with m := { s.m with snaps := amPut s.m.snaps (snapKey grid e.1) e.2 } }) s
      let marks := s.m.poison.filter (fun e => decide (65536 * gran ≤ e.1 ∧ e.1 < 65536 * gran + 65536))
      let s := { s with m := { s.m with snapPoison := marks.foldl (fun m e => cellPut m (snapKey grid e.1) e.2) s.m.snapPoison } }
      modGrid grid (fun g => { g with snaps := g.snaps ++ [(gran, g.snaps.length)] }) s

/-- The first store or atomic to a leaf in a replayable launch (R17). -/
def noteWrite (g : Group) (leaf : Word64) (pa : Nat) (s : State) : State :=
  if (gridOf s g).isNone then s
  else
    let r := rootGrid s 11 g.idn.work
    match amGet? s.d.grids r with
    | some gr =>
      if gr.repl && gr.replOk then
        (if leafKind leaf ≥ 2 then endReplay r 2 s
         else if leafSnap leaf then snapGranule r (regionOf pa) s
         else endReplay r 1 s)
      else s
    | none => s

/-- The leaf of a segment: as translated, or the leaf in the table for a hit by tag. -/
def segLeaf (s : State) (ctx : Nat) (g : Seg) : Word64 :=
  if g.hit then (match walk s ctx g.va with
    | .leaf _ e _ => e
    | _ => 0)
  else g.x.leaf

/-- The effects of using a segment's translation: the walker's marks, TLBs, the region's home, snapshots. -/
def useSeg (a : Agent) (acc : Nat) (g : Seg) (s : State) : State :=
  if g.hit then s
  else
    let s := useXlate a g.va acc g.x s
    if leafKind g.x.leaf ≥ 2 then s
    else
      agentHome a (regionOf g.pa) (noteHome (regionOf g.pa) (leafHome g.x.leaf) s)

/-! ### L1 and stash (R28, R31, R52, R58, R59, R97) -/

/-- The virtual granule tag the reverse map records (R30). -/
def vGranTag (ctx va : Nat) : Nat := ctx * 2 ^ 48 + va / 65536

/-- The team and the map that a stash sector of a core lies in. -/
def stashMapOf (s : State) (core : Nat) (x : L1Sec) : Option (Team × StashMap) :=
  s.d.teams.findSome? (fun e =>
    if e.2.ctx ≠ x.ctx then none
    else (e.2.stash.find? (fun m => (match partEnt e.2 m.part with
        | some p => 256 * e.2.cluster + p.core == core
        | none => false) && decide (m.va ≤ 128 * x.vsec ∧ 128 * x.vsec < m.va + m.size))).map (fun m => (e.2, m)))

/-- The agent of a stash's write-back: the core, with the privilege that the sector's leaf needs, for a pinned launch where
its map's team is of one (R27, R49). DESIGN CHOICE, log 44. -/
def stashAgent (s : State) (core : Nat) (x : L1Sec) : Agent :=
  { core := some core, cluster := clusterOf core, ctx := x.ctx, sup := x.sup,
    pinned := match stashMapOf s core x with
      | some (t, _) => !t.isJob && (match amGet? s.d.grids t.grid with | some gr => gr.pinned | none => false)
      | none => false }

/-- A fault of a stash's write-back, or of a drain, reaches a group as that of a store: it is delivered at the group's
next boundary, and where the group is gone the host gets its record (R27). DESIGN CHOICE, log 44. -/
def backFaultAt (gid ctx : Nat) (va : Word64) (f : AFlt) (s : State) : State :=
  let fc := faultWord { code := f.code, detail := f.detail, acc := 1, level := f.level, va := va, mask := 1 } 0 0
  match findGroup s gid with
  | some g =>
    if gid = 0 ∨ g.x.backFlts.any (fun e => e.2 == va) then s
    else if f.code = fECCU then modGroup gid (fun g => { g with x := { g.x with eccu := some (g.x.eccu.getD (va, 1)) } }) s
    else wakeGid gid (modGroup gid (fun g => { g with x := { g.x with backFlts := g.x.backFlts ++ [(fc, va)] } }) s)
  | none => applyPolicy ctx none f.code (due (.fault_record (recOfCtx s 0 fc va 0 ctx)) s)

/-- The same of a stash sector. -/
def backFault (gid : Nat) (x : L1Sec) (f : AFlt) (s : State) : State := backFaultAt gid x.ctx (w64 (128 * x.vsec)) f s

/-- A stash's write-back is translated as a store of the sector's page, with the walker's marks; a fault reaches the group
given. Whether it passes (R27). -/
def stashUse (gid core : Nat) (x : L1Sec) (s : State) : Bool × State :=
  let a := stashAgent s core x
  match xlate s a (128 * x.vsec) 1 with
  | .ok l => (true, useXlate a (128 * x.vsec) 1 l s)
  | .error f => (false, backFault gid x f (walkFault a (128 * x.vsec) 1 f.code s))

/-- The group that made the map a stash sector lies in; the one that filled the sector where no map is left. -/
def stashMaker (s : State) (core : Nat) (x : L1Sec) : Nat := match stashMapOf s core x with
  | some (_, m) => m.gid
  | none => x.filler

/-- Whether what a stash sector has written cannot go back yet: its write-back would fault, and the group that the fault reaches
is there to mend it (R27). DESIGN CHOICE, log 44. -/
def backStuck (s : State) (core : Nat) (x : L1Sec) : Bool :=
  x.stash && x.p ||| x.o != 0 && x.filler != 0 && (findGroup s x.filler).isSome
    && (match xlate s (stashAgent s core x) (128 * x.vsec) 1 with
      | .error _ => true
      | .ok _ => false)

/-- A sector goes without its write-back; what has been valid in a stash's stands in the scratchpad. -/
def loseSector (core sec : Nat) (s : State) : State := l1Del core sec (stashLeave core sec s)

/-- A sector leaves a core: what a stash has written goes back as a translated access, whose fault reaches the group that
filled it; while that group can mend it the sector stays, and without it what was written is lost (R27, R30, R31). -/
def backSector (core sec : Nat) (x : L1Sec) (s : State) : State :=
  if !x.stash || x.p ||| x.o = 0 then flushSector core sec s
  else
    let r := stashUse x.filler core x s
    if r.1 then flushSector core sec r.2 else if backStuck s core x then r.2 else loseSector core sec r.2

/-- The sectors of a region in the cores of a cluster, by core and sector. -/
def regionSecs (s : State) (cluster region : Nat) : List (Nat × Nat × L1Sec) :=
  (s.m.l1.filter (fun e => clusterOf (e.1 / 2 ^ 45) == cluster && regionOf (128 * (e.1 % 2 ^ 45)) == region)).map
    (fun e => (e.1 / 2 ^ 45, e.1 % 2 ^ 45, e.2))

/-- Every sector of a region leaves the cores of a cluster. -/
def backRegion (cluster region : Nat) (s : State) : State :=
  (regionSecs s cluster region).foldl (fun s e => backSector e.1 e.2.1 e.2.2 s) s

/-- Whether one of them cannot leave yet. -/
def regionStuck (s : State) (cluster region : Nat) : Bool := (regionSecs s cluster region).any (fun e => backStuck s e.1 e.2.2)

/-- A full reverse map drops an entry: the cluster writes back and invalidates every sector of its granule (R30). DESIGN CHOICE, log 14. -/
def rmapRoom (cluster : Nat) (s : State) : State :=
  let mine := s.m.rmap.filter (fun e => e.1 / 2 ^ 36 == cluster && !regionStuck s cluster (e.1 % 2 ^ 36))
  if s.m.rmap.length < 32768 ∨ mine.length < 32768 then s
  else match pickOne mine s with
    | (some v, s) =>
      let s := backRegion cluster (v.1 % 2 ^ 36) s
      { s with m := { s.m with rmap := amDel s.m.rmap v.1 } }
    | (none, s) => s

/-- Whether another alias of a granule holds its place in a cluster with a stash sector that cannot leave yet (R27, R31). -/
def aliasStuck (s : State) (core ctx va pa : Nat) : Bool :=
  match amGet? s.m.rmap (clusterOf core * 2 ^ 36 + regionOf pa) with
  | some u => u != vGranTag ctx va && regionStuck s (clusterOf core) (regionOf pa)
  | none => false

/-- One alias of a granule per cluster (R31): another alias's sectors are written back and dropped. An access waits while one
cannot leave; that of a handler or a replay of the group that the fault would reach does not, and loses it. DESIGN CHOICE, log 44. -/
def takeAlias (cluster ctx va pa : Nat) (s : State) : State :=
  let k := cluster * 2 ^ 36 + regionOf pa
  let t := vGranTag ctx va
  match amGet? s.m.rmap k with
  | some u =>
    if u = t then s
    else
      let s := backRegion cluster (regionOf pa) s
      let s := (regionSecs s cluster (regionOf pa)).foldl (fun s e => loseSector e.1 e.2.1 s) s
      { s with m := { s.m with rmap := amPut s.m.rmap k t } }
  | none =>
    let s := rmapRoom cluster s
    { s with m := { s.m with rmap := amPut s.m.rmap k t } }

/-- Whether a VA lies in a live stash map of a part on the core, for groups of the context (R97). -/
def stashed (s : State) (core ctx va : Nat) : Bool :=
  s.d.teams.any (fun e => e.2.ctx == ctx && e.2.stash.any (fun m =>
    (match partEnt e.2 m.part with | some p => 256 * e.2.cluster + p.core == core && partLive p | none => false)
      && decide (m.va ≤ va ∧ va < m.va + m.size)))

/-- The sectors that go where a sector's line is allocated: none if the line is there or a way is free, else those of the
line of the set used least recently (R52). -/
def victims (s : State) (core va sec : Nat) : List (Nat × L1Sec) :=
  let sets := (coreOf s core).l1k / 4
  let mine := (l1Of s core).filter (fun e => !e.2.stash && e.2.vsec / 8 % sets == va / 1024 % sets)
  let lines := (mine.map (fun e => e.1 / 8)).eraseDups
  if lines.contains (sec / 8) || lines.length < 4 then []
  else
    let v := oldestLine (mine.map (fun e => (e.1, e.2.used))) lines
    mine.filter (fun e => e.1 / 8 == v)

/-- Whether an eviction for the sector waits: the written sectors it has to copy find too few of the core's 16 write-back
entries free (R61). DESIGN CHOICE, log 14. -/
def evictionWaits (s : State) (core va sec : Nat) : Bool :=
  let n := ((victims s core va sec).filter (fun e => e.2.held != 0)).length
  n != 0 && decide (16 < (s.m.wbuf.filter (fun w => w.core == core)).length + n)

/-- The words named leave P, O and W for a write-back buffer entry, and WB goes out (R61, R99). -/
def writeBack (core sec : Nat) (x : L1Sec) (words : BitVec 16) (s0 : State) : State :=
  let m := x.reg &&& wordBytes words
  let s := sendHome core sec (wbSettle core s0)
  let s := { s with m := { s.m with wbuf := s.m.wbuf ++ [{ core := core, sector := sec, mask := m, data := x.data }] } }
  due (.wb core sec { mask := m, data := x.data })
    (addOut { kind := .wb, core := core, sector := sec, gid := 0, unit := 0, words := words } s)

/-- Room for a line (R52, R61): a set of four ways evicts its least recently used line. DESIGN CHOICE, log 14. -/
def makeRoom (core va sec : Nat) (s : State) : State :=
  (victims s core va sec).foldl (fun s e =>
    if e.2.held = 0 then l1Del core e.1 s else l1Del core e.1 (writeBack core e.1 e.2 e.2.held s)) s

/-- A fresh tag for a sector (R28). -/
def freshSec (s : State) (core ctx va : Nat) (leaf : Word64) : L1Sec :=
  { ctx := ctx, vsec := va / 128, rd := leafRd leaf, wr := leafWr leaf, ex := leafEx leaf, sup := leafSup leaf,
    stash := stashed s core ctx va, valid := 0, data := 0, poison := 0, p := 0, o := 0, w := 0, kept := 0, reg := 0,
    drop := 0, filler := s.g.idn.gid, used := s.tick }

/-- The sector's entry at the core, allocated if it is not there. -/
def allocSec (core ctx va sec : Nat) (leaf : Word64) (s : State) : State :=
  let s := takeAlias (clusterOf core) ctx va (128 * sec) s
  match l1At s core sec with
  | some _ => l1Mod core sec (fun x => { x with used := s.tick }) s
  | none =>
    let s := makeRoom core va sec s
    l1Put core sec (freshSec s core ctx va leaf) s

/-- The merge of a fill (R59): own bytes of held words and kept bytes stay, the rest becomes valid. -/
def fillMerge (c : L2Sec) (x : L1Sec) : L1Sec :=
  let own := (x.valid &&& wordBytes x.held) ||| x.kept
  { x with data := secMerge c.data own x.data, poison := (c.poison &&& ~~~own) ||| (x.poison &&& own),
           valid := BitVec.allOnes 128, kept := 0, ever := if x.stash then BitVec.allOnes 128 else 0 }

/-- A stash that has answered a read of its sector writes the P and O words back by WB, and they go to V: a translated
access, whose fault reaches the group that made the map (R27, R99). -/
def lazyBack (owner sec : Nat) (s : State) : State :=
  match l1At s owner sec with
  | some x =>
    if !x.stash || x.p ||| x.o = 0 then s
    else
      let r := stashUse (stashMaker s owner x) owner x s
      if r.1 then l1Mod owner sec (releaseWords (x.p ||| x.o) (fillPending r.2 owner sec)) (writeBack owner sec x (x.p ||| x.o) r.2)
      else r.2
  | none => s

/-- The owners of a sector other than the reader have answered its read. -/
def lazyBacks (sec : Nat) (me : Option Nat) (s : State) : State :=
  (ownersOf s sec (BitVec.allOnes 16) me).foldl (fun s o => lazyBack o sec s) s

/-- A fill as one operation. DESIGN CHOICE, log 15. -/
def fillNow (core ctx va sec : Nat) (leaf : Word64) (s : State) : State :=
  let s := allocSec core ctx va sec leaf (homeAlloc sec s)
  lazyBacks sec (some core) (l1Mod core sec (fun x => { fillMerge (cohSector s sec (some core)) x with filler := s.g.idn.gid }) s)

/-- What a load without allocation reads: the home's bytes, over them the core's own written bytes and those of the words that hit. DESIGN
CHOICE, log 15. -/
def readThrough (s : State) (core sec : Nat) (hits : BitVec 16) : L2Sec :=
  let c := cohSector s sec (some core)
  match l1At s core sec with
  | some x =>
    let m := x.valid &&& wordBytes (x.held ||| hits)
    { c with data := secMerge c.data m x.data, poison := (c.poison &&& ~~~m) ||| (x.poison &&& m) }
  | none => c

/-- Words of the mask all of whose accessed bytes are valid at the core (R68). -/
def hitWords (s : State) (core sec : Nat) (m : BitVec 128) : BitVec 16 :=
  match l1At s core sec with
  | some x => (wordIdx (maskWords m)).foldl (fun (a : BitVec 16) i =>
      let b := m &&& wordBytes (bit16 i)
      if x.valid &&& b = b then a ||| bit16 i else a) 0
  | none => 0

/-- A sector's bytes as a core holds them. -/
def L1Sec.image (x : L1Sec) : L2Sec := { dirty := false, data := x.data, poison := x.poison }

/-- The sectors that a load has been given, by number: all its lanes read one image of each (R125). -/
abbrev Images := AMap L2Sec

/-- The segments of lanes in device memory. -/
def devSegs (ls : List LaneAcc) : List Seg := (ls.flatMap LaneAcc.segs).filter (fun g => decide (g.kind < 2))

/-- The bytes of a sector that lanes access. -/
def laneBytes (ls : List LaneAcc) (sec : Nat) : BitVec 128 :=
  (devSegs ls).foldl (fun (m : BitVec 128) g => if g.pa / 128 = sec then m ||| span128 (g.pa % 128) g.n else m) 0

/-- The first segment of a sector that the core's tags do not serve. -/
def missOf (ls : List LaneAcc) (sec : Nat) : Option Seg := (devSegs ls).find? (fun g => !g.hit && g.pa / 128 == sec)

/-- The images of the sectors that every lane hits, as they stand before any lane is served. -/
def hitImages (ls : List LaneAcc) (s : State) : Images :=
  (devSegs ls).foldl (fun ims g =>
    if (missOf ls (g.pa / 128)).isSome then ims
    else match l1At s s.g.idn.core (g.pa / 128) with
      | some x => amPut ims (g.pa / 128) x.image
      | none => ims) []

/-- A sector that some lane misses, served once for all of them (R54, R68, R125): a fill, or a read without allocation, after
which the words that missed are V no longer, so that no later load goes back to older bytes (R131). DEDUCED, log 11. -/
def serveSector (hint : BitVec 2) (ls : List LaneAcc) (sec : Nat) (s : State) : L2Sec × State :=
  let core := s.g.idn.core
  match missOf ls sec with
  | none => (homeSector s sec, s)
  | some g =>
    if hint = 0 then
      let s := fillNow core s.g.idn.ctx g.va sec g.x.leaf s
      ((match l1At s core sec with
        | some x => x.image
        | none => homeSector s sec), s)
    else
      let s := if hint = 1 then homeAlloc sec s else homeTouch sec s
      let m := laneBytes ls sec
      let hits := hitWords s core sec m
      (readThrough s core sec hits, lazyBacks sec (some core) (dropVWord core sec (maskWords m &&& ~~~hits) s))

/-- The load of one segment of a load's lanes ls (R54, R68): value, poison marks, images and state after. host is the value a host
port has returned. -/
def loadSeg (hint : BitVec 2) (host : Nat) (ls : List LaneAcc) (g : Seg) (x : Images × State) : (Nat × Nat) × Images × State :=
  let s := x.2
  let sec := g.pa / 128
  let i := g.pa % 128
  match g.kind with
  | 2 => ((hostRead s g.pa g.n, hostMarks s g.pa g.n), x.1, if hint = 2 then hostUse g.pa g.n s else hostTouch g.pa g.n s)
  | 3 => ((host, memMarks s g.pa g.n), x.1, s)
  | _ => match amGet? x.1 sec with
    | some c => (secMarked c.data c.poison i g.n, x.1, if g.hit then l1Mod s.g.idn.core sec (fun y => { y with used := s.tick }) s else s)
    | none =>
      let r := serveSector hint ls sec s
      (secMarked r.1.data r.1.poison i g.n, amPut x.1 sec r.1, r.2)

/-- The stage buffer's bytes of the group over loaded ones (R159): value and poison marks. -/
def stageOver (s : State) (va n : Nat) (v : Nat × Nat) : Nat × Nat :=
  if !isDet s s.g then v
  else
    let es := (coreOf s s.g.idn.core).stage.filter (fun e => e.gid == s.g.idn.gid)
    (List.range n).foldl (fun (a : Nat × Nat) i =>
      let b := (va + i) % 2 ^ 64
      match es.find? (fun e => e.va.toNat == b / 8 * 8 && e.mask.getLsbD (b % 8)) with
      | some e => (a.1 - a.1 / 256 ^ i % 256 * 256 ^ i + (e.data.toNat / 256 ^ (b % 8) % 256) * 256 ^ i,
                   a.2 - a.2 / 2 ^ i % 2 * 2 ^ i)
      | none => a) v

/-- The load of a lane among the lanes ls: its value and whether it read poison. -/
def laneLoad (hint : BitVec 2) (ls : List LaneAcc) (a : LaneAcc) (x : Images × State) : (Nat × Bool) × Images × State :=
  let s := x.2
  let ag := agentOf s s.g
  match a.res with
  | .ok (.glob gs) =>
    let r := gs.foldl (fun (y : Nat × Nat × Nat × Images × State) g =>
      let s := useSeg ag 0 g y.2.2.2.2
      let host := match s.g.hostVals with
        | v :: _ => v.toNat
        | [] => 0
      let s' := if g.kind = 3 then { s with g := { s.g with hostVals := s.g.hostVals.drop 1 } } else s
      let z := loadSeg hint host ls g (y.2.2.2.1, s')
      (y.1 + g.n, y.2.1 + z.1.1 * 256 ^ y.1, y.2.2.1 + z.1.2 * 2 ^ y.1, z.2)) (0, 0, 0, x)
    let v := stageOver r.2.2.2.2 a.addr a.n (r.2.1, r.2.2.1)
    ((v.1, v.2 != 0), r.2.2.2)
  | .ok (.scr l) => ((sramBytes s l.core l.off a.n, sramPoisoned s l.core l.off a.n), x)
  | .error _ => ((0, false), x)

/-- The load of one lane alone. -/
def loadLane (hint : BitVec 2) (a : LaneAcc) (s : State) : (Nat × Bool) × State :=
  let r := laneLoad hint [a] a (hitImages [a] s, s)
  (r.1, r.2.2)

/-! ### Stores (R58, R68, R158) -/

/-- The bytes a store writes to one sector of KIND 00 or 01. -/
structure SecWr where
  sec : Nat
  va : Nat
  mask : BitVec 128
  data : BitVec 1024
  leaf : Word64
deriving DecidableEq, Repr

/-- Adds n bytes of v at pa to the sector writes, later bytes over earlier ones. -/
def addSecWr (g : Seg) (v : Nat) (ws : List SecWr) : List SecWr :=
  let sec := g.pa / 128
  let m := span128 (g.pa % 128) g.n
  let d : BitVec 1024 := BitVec.ofNat 1024 (v % 256 ^ g.n) <<< (8 * (g.pa % 128))
  if ws.any (fun w => w.sec == sec) then
    ws.map (fun w => if w.sec = sec then { w with mask := w.mask ||| m, data := secMerge w.data m d } else w)
  else ws ++ [{ sec := sec, va := g.va / 128 * 128, mask := m, data := d, leaf := g.x.leaf }]

/-- Words of a store that hit (R68): all their accessed bytes are valid, or the core holds them in P, O or W, so that one place takes
the store whole (R126). DEDUCED, log 11. -/
def storeHits (s : State) (core sec : Nat) (m : BitVec 128) : BitVec 16 :=
  hitWords s core sec m ||| (match l1At s core sec with
    | some x => maskWords m &&& x.held
    | none => 0)

/-- Bytes written into the core's words, which go to P or stay in O or W (R58). -/
def writeP (w : SecWr) (m : BitVec 128) (x : L1Sec) : L1Sec :=
  let ws := maskWords m
  { x with data := secMerge x.data m w.data, valid := x.valid ||| m, poison := x.poison &&& ~~~m,
           p := x.p ||| (ws &&& ~~~(x.o ||| x.w)), reg := x.reg ||| m, kept := x.kept &&& ~~~m,
           ever := if x.stash then x.ever ||| m else 0, drop := x.drop &&& ~~~ws }

/-- Bytes of a store that hits under by: the words go to W (R68). DEDUCED, log 11. -/
def writeW (w : SecWr) (m : BitVec 128) (x : L1Sec) : L1Sec :=
  let ws := maskWords m
  { x with data := secMerge x.data m w.data, valid := x.valid ||| m, poison := x.poison &&& ~~~m,
           p := x.p &&& ~~~ws, o := x.o &&& ~~~ws, w := x.w ||| ws, reg := x.reg ||| m,
           ever := if x.stash then x.ever ||| m else 0, drop := x.drop &&& ~~~ws }

/-- A store goes past words that the core does not hold: a copy in V gives up the bytes written, so that the group's next load
finds them (R131). DEDUCED, log 11. -/
def writePast (m : BitVec 128) (x : L1Sec) : L1Sec := { x with valid := x.valid &&& ~~~m, kept := x.kept &&& ~~~m }

/-- A message of a store: it goes on the agenda, is outstanding, and counts for the unit; near: its bytes are in L1. -/
def sendStore (e : Event) (kind : OutKind) (near : Bool) (core sec unit : Nat) (ws : BitVec 16) (x : Nat × State) : Nat × State :=
  (x.1 + 1, due e (addOut { kind := kind, core := core, sector := sec, gid := x.2.g.idn.gid, unit := unit, words := ws, near := near }
    (sendHome core sec x.2)))

/-- The store of one sector's bytes by a core: L1 words, REGO and WT under the hint. The count is of messages sent. -/
def storeSec (core ctx unit : Nat) (hint : BitVec 2) (w : SecWr) (x : Nat × State) : Nat × State :=
  let s := x.2
  let hit := storeHits s core w.sec w.mask
  let tw := maskWords w.mask
  let plain : BitVec 16 := if hint = 0 then tw else if hint = 1 then hit else 0
  let byHit : BitVec 16 := if hint = 2 then hit else 0
  let miss := tw &&& ~~~(plain ||| byHit)
  let mp := w.mask &&& wordBytes plain
  let mb := w.mask &&& wordBytes byHit
  let mm := w.mask &&& wordBytes miss
  -- plain part
  let x := if mp = 0 then x
    else
      let s := allocSec core ctx w.va w.sec w.leaf s
      -- a word in P or O needs no registration for bytes that one covers; a word in W gets one for all of them
      let old := match l1At s core w.sec with
        | some y => y.reg &&& ~~~wordBytes y.w
        | none => 0
      let s := l1Mod core w.sec (writeP w mp) s
      let new := mp &&& ~~~old
      if new = 0 then (x.1, s) else sendStore (.rego core w.sec new) .rego true core w.sec unit (maskWords new) (x.1, s)
  -- by, words present
  let x := if mb = 0 then x
    else
      let s := x.2
      let own := match l1At s core w.sec with
        | some y => (y.p ||| y.o) &&& byHit
        | none => 0
      let s := l1Mod core w.sec (fun y => { writeW w mb y with used := s.tick }) s
      let y := (l1At s core w.sec).getD (freshSec s core ctx w.va w.leaf)
      let relM := y.reg &&& wordBytes own
      let x := (x.1, s)
      let x := if relM = 0 then x
        else sendStore (.wt core w.sec { mask := relM, data := y.data } true false) .wt true core w.sec unit own x
      let vM := mb &&& ~~~wordBytes own
      if vM = 0 then x
      else sendStore (.wt core w.sec { mask := vM, data := y.data } false false) .wt true core w.sec unit (maskWords vM) x
  -- words that miss under a hint
  if mm = 0 then x
  else sendStore (.wt core w.sec { mask := mm, data := w.data } false (hint == 2)) .wt false core w.sec unit miss
    (x.1, l1Mod core w.sec (writePast mm) x.2)

/-- Entries that a store's segment makes or merges in the stage buffer (R158); v holds its bytes. -/
def stageStore (g : Seg) (v : Nat) (s : State) : State :=
  let c := coreOf s s.g.idn.core
  let put := fun (es : List StageEnt) (i : Nat) =>
    let b := (g.va + i) % 2 ^ 64
    let wd := b / 8 * 8
    let byte := w64 (v / 256 ^ i % 256 * 256 ^ (b % 8))
    let bm := (0xFF : Word64) <<< (8 * (b % 8))
    if es.any (fun e => e.gid == s.g.idn.gid && e.va.toNat == wd) then
      es.map (fun e => if e.gid = s.g.idn.gid ∧ e.va.toNat = wd then
        { e with mask := e.mask ||| (1 : BitVec 8) <<< (b % 8), data := (e.data &&& ~~~bm) ||| byte } else e)
    else es ++ [{ gid := s.g.idn.gid, team := s.g.idn.team, part := s.g.idn.part, gidx := gidxOfIdn s.g.idn,
                  seq := s.tick * 1024 + es.length, va := w64 wd, mask := (1 : BitVec 8) <<< (b % 8), data := byte }]
  setCore s.g.idn.core { c with stage := (List.range g.n).foldl put c.stage } s

/-- A lane's staged store: its translation is used, and each segment's words are staged. -/
def stageLane (a : Agent) (gs : List Seg) (v : Nat) (s : State) : State :=
  (gs.foldl (fun (y : Nat × State) g =>
    let s := noteWrite y.2.g (segLeaf y.2 y.2.g.idn.ctx g) g.pa (useSeg a 1 g y.2)
    (y.1 + g.n, stageStore g (v / 256 ^ y.1) s)) (0, s)).2

/-- New entries a store's lanes need: lanes that touch one word share its entry. DESIGN CHOICE, log 43. -/
def stageNeed (s : State) (ls : List LaneAcc) : Nat :=
  let words := (ls.flatMap (fun a => [a.addr / 8 * 8, (a.addr + a.n - 1) / 8 * 8])).eraseDups
  let es := (coreOf s s.g.idn.core).stage.filter (fun e => e.gid == s.g.idn.gid)
  (words.filter (fun w => !es.any (fun e => e.va.toNat == w))).length

/-- The stores of the performing lanes, val giving each lane's bytes (R54, R125). -/
def storeLanes (hint : BitVec 2) (unit : Nat) (ls : List (LaneAcc × Nat)) (s : State) : State :=
  if isDet s s.g && !holdsBow s s.g && ls.any (fun p => p.1.scr.isNone) then
    raiseSt unit 0 (ls.foldl (fun s p => match p.1.scr with
      | some l => sramPut l.core l.off p.1.n p.2 s
      | none => stageLane (agentOf s s.g) p.1.segs p.2 s) s)
  else
    let ag := agentOf s s.g
    -- scratch and host bytes at once, device memory gathered per sector
    let r := ls.foldl (fun (x : List SecWr × State) p =>
      match p.1.scr with
      | some l => (x.1, sramPut l.core l.off p.1.n p.2 x.2)
      | none =>
        let y := p.1.segs.foldl (fun (y : Nat × List SecWr × State) g =>
          let v := p.2 / 256 ^ y.1
          let s := noteWrite s.g (segLeaf y.2.2 s.g.idn.ctx g) g.pa (useSeg ag 1 g y.2.2)
          match g.kind with
          | 2 => (y.1 + g.n, y.2.1, if hint = 2 then hostWriteBy g.pa g.n v s else hostWrite g.pa g.n v s)
          | 3 => (y.1 + g.n, y.2.1, hostPut g.pa g.n v s)
          | _ => (y.1 + g.n, addSecWr g v y.2.1, s)) (0, x.1, x.2)
        y.2) ([], s)
    let m := r.1.foldl (fun x w => storeSec s.g.idn.core s.g.idn.ctx unit hint w x) (0, r.2)
    raiseSt unit m.1 m.2

/-! ### Waits at issue -/

/-- Whether the cumulative drain is done (R134): the core has no word in P or W, and none that left its L1 for the write-back
buffer unacknowledged. -/
def coreDrained (s : State) (core : Nat) : Bool :=
  (l1Of s core).all (fun e => e.2.p == 0 && e.2.w == 0) && !s.m.outs.any (fun o => o.core == core && o.near)

def coreFilling (s : State) (core : Nat) : Bool := s.m.fills.any (fun f => f.core == core)

/-- Whether a release at a scope must still wait (R130, R134): nothing below .core; at .core the group's write-throughs and
atomics that its home has not answered, for the other stores are performed in L1; at .clu and wider every earlier store, and
the cumulative drain. A staged store of a deterministic launch is not waited for (R162). DESIGN CHOICE, log 43. -/
def releaseWaits (s : State) (scope : Nat) : Bool :=
  decide (scope ≥ 1) && (s.m.outs.any (fun o => o.gid == s.g.idn.gid && !o.near)
    || (decide (scope ≥ 2) && (storesOut s.g || !coreDrained s s.g.idn.core)))

/-- Whether a scope's acquire invalidates (R65). -/
def acquireWide (scope : Nat) : Bool := decide (scope ≥ 2)

/-- The acquire part of an access (R133). -/
def acquireNow (scope : Nat) (s : State) : State := if acquireWide scope then selfInvalidate s.g.idn.core s else s

/-- Lines of device memory that an access must have snooped first (R75). -/
def snoopsOf (s : State) (write : Bool) (ls : List LaneAcc) : List Nat :=
  (ls.flatMap (fun a => (a.segs.filter (fun g => !g.hit && decide (g.kind < 2))).flatMap (fun g =>
    snoopLines s (g.pa / 128) write))).eraseDups

/-- Segments of host-uncached memory, whose values the host port returns (R366). -/
def hostSegs (ls : List LaneAcc) : List Seg := ls.flatMap (fun a => a.segs.filter (fun g => g.kind == 3))

/-- Whether a lane's scratch access names a part whose start has not completed (R23). -/
def partStarting (s : State) (ls : List LaneAcc) : Bool :=
  ls.any (fun a => match a.scr with
    | some l => (match partEnt (gTeam s) l.part with | some e => e.st && !e.v | none => false)
    | none => false)

/-- A fill of a sector of the access is pending at the core. -/
def fillsPending (s : State) (ls : List LaneAcc) : Bool :=
  ls.any (fun a => a.segs.any (fun g => fillPending s s.g.idn.core (g.pa / 128)))

/-- Whether the release of a sector's region is under way (R71). -/
def releasing (s : State) (sec : Nat) : Bool := regionRel s (regionOf (128 * sec)) && !hashedRegion s (regionOf (128 * sec))

/-- A back-invalidation of one of the sector's lines is outstanding, or its region is being released (R71, R76). DESIGN CHOICE,
log 23. -/
def homeBusy (s : State) (sec : Nat) : Bool := s.m.biPend.any (fun l => l / 2 == sec) || releasing s sec

/-- Whether an earlier message for the sector waits at the home. -/
def heldBefore (s : State) (sec : Nat) : Bool := s.m.held.any (fun e => sectorOf e == some sec)

/-- Whether an engine's access waits before a sector's home: for messages that came before, or for a release (R57, R71). -/
def engineWaits (s : State) (sec : Nat) : Bool := heldBefore s sec || releasing s sec

/-- Whether the home of a sector would hold a core's request: behind a back-invalidation, an earlier message that waits there,
or one of the core's own that is not answered yet (R57, R62, R76). -/
def queuedAtHome (s : State) (core sec : Nat) : Bool :=
  homeBusy s sec || heldBefore s sec || s.m.outs.any (fun o => o.core == core && o.sector == sec)

/-- Whether an access waits before its homes serve it: in their order of arrival, or for a write-back buffer entry that an
eviction needs (R57, R61, R131). Atomics go to the home even where the core holds the sector. -/
def homesWait (s : State) (allocs : Bool) (ls : List LaneAcc) : Bool :=
  ls.any (fun a => a.segs.any (fun g => !g.hit && decide (g.kind < 2)
    && (queuedAtHome s s.g.idn.core (g.pa / 128) || (allocs && evictionWaits s s.g.idn.core g.va (g.pa / 128)))))

/-- Segments whose sectors would be cached under an alias that another one keeps out. -/
def stuckSegs (s : State) (ls : List LaneAcc) : List Seg :=
  (devSegs ls).filter (fun g => !g.hit && aliasStuck s s.g.idn.core s.g.idn.ctx g.va g.pa
    && !((s.g.x.sup || s.g.x.replay.isSome) && (regionSecs s (clusterOf s.g.idn.core) (regionOf g.pa)).any (fun e => e.2.2.filler == s.g.idn.gid && backStuck s e.1 e.2.2)))

/-- The group waits until the other alias's sectors have left; the faults of their write-backs go to their groups (R27, R31). -/
def waitAlias (gs : List Seg) (s : State) : State :=
  block (gs.foldl (fun s g => backRegion (clusterOf s.g.idn.core) (regionOf g.pa) s) s)

/-- Whether an atomic of the group still waits for its home's answer: it is an earlier load too (R136). -/
def atomsOut (s : State) : Bool := s.m.outs.any (fun o => o.gid == s.g.idn.gid && o.kind == .atom)

/-- Whether one of them is to a word that lanes read: the load comes after it (R131, R140). -/
def atomBefore (s : State) (ls : List LaneAcc) : Bool :=
  s.m.outs.any (fun o => o.gid == s.g.idn.gid && o.kind == .atom && maskWords (laneBytes ls o.sector) &&& o.words != 0)

/-- An acquire that acts on no lane orders as fence.acq does (R371). -/
def acqWaits (s : State) (scope : Nat) (ls : List LaneAcc) : Bool :=
  (acquireWide scope && coreFilling s s.g.idn.core) || (ls.isEmpty && decide (scope ≥ 1) && atomsOut s)

/-- Whether a store waits for a write-back buffer entry that an eviction needs (R61). -/
def storesWait (s : State) (hint : BitVec 2) (ls : List LaneAcc) : Bool :=
  hint != 2 && ls.any (fun a => a.segs.any (fun g => !g.hit && decide (g.kind < 2) && evictionWaits s s.g.idn.core g.va (g.pa / 128)))

/-- The group waits for the host's answers to the snoops. DESIGN CHOICE, log 15. -/
def waitSnoops (ls : List Nat) (s : State) : State :=
  block (sendSnoops ls { s with g := { s.g with snooped := (s.g.snooped ++ ls).eraseDups } })

/-! ### Shapes of memory instructions -/

/-- The walks of an access's failing lanes. -/
def failedWalks (acc : Nat) (ls : List LaneAcc) (s : State) : State :=
  (failures ls).foldl (fun s x => walkFault (agentOf s s.g) x.2.2 acc x.2.1.code s) s

/-- The walk that a fault of the instruction at issue ends. -/
def fltWalk (f : Flt) (s : State) : State := walkFault (agentOf s s.g) f.va.toNat f.acc f.code s

/-- An access that all its lanes' checks decide: with no failing lane it completes by fin; else the performing lanes
perform and the fault is taken (R34). scalar forms have one lane and replay whole. DESIGN CHOICE, log 15. -/
def finishAccess (scalar : Bool) (acc : Nat) (act : Word32) (ls : List LaneAcc) (done : State) (fin : State → State) :
    State :=
  match laneFault acc ls with
  | none => fin done
  | some f =>
    let s := failedWalks acc ls done
    if scalar then raiseW f s else raise f (lanesMask (performing ls)) act s

/-- Loads of lanes in order: put writes a lane's destination (R356: not if it read poison). DESIGN CHOICE, log 15. -/
def loadLanes (hint : BitVec 2) (put : Nat → Nat → State → State) (ls : List LaneAcc) (s : State) : State :=
  (ls.foldl (fun (x : Images × State) a =>
    let r := laneLoad hint ls a x
    (r.2.1, if r.1.2 then notePoison a.addr 0 r.2.2 else put a.lane r.1.1 r.2.2)) (hitImages ls s, s)).2

/-- The group waits for n values of the host port. -/
def awaitHost (n : Nat) (s : State) : State := block { s with g := { s.g with hostVals := [], hostDue := n } }

/-- Requests to the host port for a load's host-uncached segments: each completion brings its value (R366). DESIGN CHOICE, log 23. -/
def hostRequests (gs : List Seg) (s : State) : State :=
  awaitHost gs.length (dues (gs.map (fun g => Event.host_port_completion s.g.idn.gid (w64 (memBytes s.m.mem g.pa g.n)))) s)

/-- The units of LD that are complete leave from the front (R117). -/
def settleLd (q : List Bool) : List Bool := q.dropWhile id

/-- The unit of a load, gather or returning atomic rises in LD; the load unit completes it later, and one of no lane is complete
at once (R116, R362). -/
def raiseLd (none : Bool) (s : State) : State :=
  { s with g := { s.g with n := { s.g.n with ldq := settleLd (s.g.n.ldq ++ [none]) } } }

/-- A load that cannot be served yet waits, has lines snooped, or asks the host port: the state it leaves; none when its lanes
can be served now. alloc: it fills the L1. -/
def loadHeld (alloc : Bool) (ok : List LaneAcc) (s : State) : Option State :=
  if s.g.hostDue ≠ 0 || partStarting s ok || fillsPending s ok || homesWait s alloc ok || atomBefore s ok then some (block s)
  else if alloc && stuckSegs s ok ≠ [] then some (waitAlias (stuckSegs s ok) s)
  else if snoopsOf s false ok ≠ [] then some (waitSnoops (snoopsOf s false ok) s)
  else if s.g.hostVals.length < (hostSegs ok).length then some (hostRequests (hostSegs ok) s)
  else none

/-- A load instruction (R360 to R362): q is its qualifier, ls its lanes, put writes a lane's destination. -/
def loadInstr (scalar : Bool) (q : MemQ) (act : Word32) (ls : List LaneAcc) (put : Nat → Nat → State → State)
    (s : State) : Out :=
  let ok := performing ls
  let acq := q.ord = 1
  if s.g.n.ld ≥ 63 || (acq && acqWaits s q.scope.toNat ls) then .next (block s)
  else match loadHeld (q.hint = 0) ok s with
    | some s => .next s
    | none =>
      let fin := fun s => retire act (raiseLd ls.isEmpty (if acq then acquireNow q.scope.toNat s else s))
      .next (finishAccess scalar 0 act ls (loadLanes q.hint put ok s) fin)

/-- A store that faults keeps its unit (R362). DESIGN CHOICE, log 47. -/
def holdIf (acc : Nat) (ls : List LaneAcc) (unit : Nat) (s : State) : State := if (laneFault acc ls).isSome then holdUnit unit s else s

/-- A store instruction: val gives a lane's bytes. -/
def storeInstr (scalar : Bool) (q : MemQ) (act : Word32) (ls : List LaneAcc) (val : Nat → Nat) (s : State) : Out :=
  let ok := performing ls
  let wait := decide (s.g.n.sts.length ≥ 63) && !stJoins s
  let rel := q.ord = 2
  let global := ok.any (fun a => a.scr.isNone)
  if passedBow s s.g && global then .next (raiseI fDETSTAGE s)
  else if wait || partStarting s ok || storesWait s q.hint ok
      || (q.hint != 0 && fillsPending s ok) || (global && bowDue s s.g)
      || (rel && releaseWaits s q.scope.toNat)
      || (isDet s s.g && !holdsBow s s.g && global
          && decide ((coreOf s s.g.idn.core).stage.length + stageNeed s ok > 1024)) then .next (block s)
  else if q.hint ≠ 2 ∧ stuckSegs s ok ≠ [] then .next (waitAlias (stuckSegs s ok) s)
  else
    let done := storeLanes q.hint (stUnit s) (ok.map (fun a => (a, val a.lane % 256 ^ a.n))) s
    .next (finishAccess scalar 1 act ls (holdIf 1 ls (stUnit s) done) (retire act))

end Sys2Proof.Machine
end

