-- ==== Sys2Proof/Machine/Operands.lean ====
section
/-! DEFINITION. Operand forms: scalar and vector second sources, immediates and literals (R275 to R278, R314), the
sub-elements packed in a lane (R242), the register bounds of R167, R168 and R183, and the shapes of a register-only
instruction. -/
namespace Sys2Proof.Machine

/-! ### Scalar operands -/

/-- The second source: a register, or a literal taken as it is (R278). -/
def sopd (s : State) : SOpd → Word64
  | .reg r => rS s r
  | .lit v => v

/-- An SI immediate, by sign or by zero (R275, R277). -/
def simm (sx : Bool) : SImm → Word64
  | .i11 v => if sx then v.signExtend 64 else v.zeroExtend 64
  | .i32 v => if sx then v.signExtend 64 else v.zeroExtend 64
  | .lit v => v

/-- The byte displacement of a PC-relative form (R275, R277). -/
def poff : POff → Word64
  | .i11 v => v.signExtend 64 <<< 2
  | .i32 v => v.signExtend 64 <<< 2

/-- The byte displacement of a branch (R284). -/
def boff : BOff → Word64
  | .o14 v => v.signExtend 64 <<< 2
  | .o32 v => v.signExtend 64 <<< 2

/-- The value of an 8-bit float code in a type (R276): every code is exact. -/
def codeVal (t : FTy) (c : BitVec 8) : Nat :=
  (fRound (fmtOf t) .rne (c.getLsbD 7) (16 + c.toNat % 16) (((c.toNat / 16 % 8 : Nat) : Int) - 7) false).1

/-! ### Sub-elements (R242) -/

/-- Sub-element e of a lane, n bits wide. -/
def sub (n : Nat) (x : Word64) (e : Nat) : BitVec n := x.extractLsb' (n * e) n

/-- A lane from its sub-elements. -/
def pack (n : Nat) (f : Nat → BitVec n) : Word64 :=
  (List.range (64 / n)).foldl (fun a e => a ||| ((f e).zeroExtend 64 <<< (n * e))) 0

/-- The n low bits repeated over a lane. -/
def splat (n : Nat) (v : BitVec n) : Word64 := pack n (fun _ => v)

/-- Lane-wise integer operations of one, two and three sources. -/
def subs1 (n : Nat) (f : BitVec n → BitVec n) (x : Word64) : Word64 := pack n (fun e => f (sub n x e))
def subs2 (n : Nat) (f : BitVec n → BitVec n → BitVec n) (x y : Word64) : Word64 :=
  pack n (fun e => f (sub n x e) (sub n y e))
def subs3 (n : Nat) (f : BitVec n → BitVec n → BitVec n → BitVec n) (x y z : Word64) : Word64 :=
  pack n (fun e => f (sub n x e) (sub n y e) (sub n z e))

/-- Whether a condition holds for every sub-element (R319). -/
def subsAll (n : Nat) (p : BitVec n → BitVec n → Bool) (x y : Word64) : Bool :=
  (List.range (64 / n)).all (fun e => p (sub n x e) (sub n y e))

/-- Float results of a lane's sub-elements, with their flags. -/
def subsF (n : Nat) (f : Nat → Nat × FFlags) : Word64 × FFlags :=
  (pack n (fun e => BitVec.ofNat n (f e).1), (List.range (64 / n)).foldl (fun a e => a ||| (f e).2) 0)

/-! ### Vector operands -/

/-- The second source of an integer vector instruction (R277, R314): an imm32 is extended by sign or zero for a 64-bit
type, and otherwise truncated and replicated. -/
def vopdI (s : State) (sx : Bool) (w : IW) (o : VOpd) (l : Nat) : Word64 :=
  match o with
  | .reg r => rV s r l
  | .imm v => if w = .w64 then (if sx then v.signExtend 64 else v.zeroExtend 64) else splat w.width (v.truncate w.width)
  | .lit v => v

/-- An imm32 as a value of a float type (R277). -/
def immF (t : Ty5) (v : Word32) : Nat :=
  match t, fUnpack fmt32 v.toNat with
  | .e5m2, .inf s => fInf fmtE5m2 s
  | _, x => (cvt t false .rne x).1

def ty5Of : FTy → Ty5
  | .f64 => .f64
  | .f32 => .f32
  | .bf16 => .bf16
  | .f16 => .f16

def ftyW (t : FTy) : Nat := (ty5Of t).width

/-- The second source of a float vector instruction. -/
def vopdF (s : State) (t : FTy) (o : VOpd) (l : Nat) : Word64 :=
  match o with
  | .reg r => rV s r l
  | .imm v => splat (ftyW t) (BitVec.ofNat (ftyW t) (immF (ty5Of t) v))
  | .lit v => v

/-- The registers a second source names. -/
def vopdRegs : VOpd → List VReg
  | .reg r => [r]
  | _ => []

/-! ### Register bounds (R167, R168, R183) -/

/-- Whether a compute group's register lies in its queue window. -/
def inQWin (g : Group) (r : VReg) : Bool :=
  g.idn.kind == .compute && decide (g.idn.qbase ≤ r.toNat ∧ r.toNat < g.idn.qbase + g.idn.qlen)

/-- The fault of naming vector registers: F_ILLOP at or beyond the group's count, F_QWIN within its queue window. -/
def vregFault (g : Group) (rs : List VReg) : Option Nat :=
  if rs.any (fun r => decide (g.idn.nv ≤ r.toNat)) then some fILLOP
  else if rs.any (inQWin g) then some fQWIN
  else none

/-- The fault of naming an accumulator tile. -/
def tileFault (g : Group) (a : AReg) : Option Nat := if g.idn.ntile ≤ a.toNat then some fILLOP else none

/-! ### Shapes of register-only instructions -/

/-- An instruction that a check stops precisely, or that runs. -/
def checked (c : Option Nat) (s : State) (run : State) : Out :=
  match c with
  | some code => .next (raiseI code s)
  | none => .next run

/-- A scalar instruction writes its result and completes. -/
def scalarOut (d : SReg) (v : Word64) (s : State) : Out := .next (retireS (wS s d v))

/-- A scalar float instruction also ORs its flags (R291). -/
def scalarF (d : SReg) (r : Nat × FFlags) (s : State) : Out := .next (retireS (orFlags (wS s d (w64 r.1)) r.2))

/-- The state after a vector instruction that writes f l to lane l (R311). -/
def vecDone (d : VReg) (k : KReg) (f : Nat → Word64) (s : State) : State :=
  retire (actOf s k) (wV s d (actOf s k) f)

/-- A vector instruction that names the registers rs. -/
def vecOut (rs : List VReg) (d : VReg) (k : KReg) (f : Nat → Word64) (s : State) : Out :=
  checked (vregFault s.g rs) s (vecDone d k f s)

/-- The flags of the acting lanes. -/
def laneFlags (act : Word32) (f : Nat → Word64 × FFlags) : FFlags :=
  (lanesOf act).foldl (fun a l => a ||| (f l).2) 0

/-- The state after a float vector instruction: results and flags (R249, R311). -/
def vecDoneF (d : VReg) (k : KReg) (f : Nat → Word64 × FFlags) (s : State) : State :=
  retire (actOf s k) (orFlags (wV s d (actOf s k) (fun l => (f l).1)) (laneFlags (actOf s k) f))

def vecOutF (rs : List VReg) (d : VReg) (k : KReg) (f : Nat → Word64 × FFlags) (s : State) : Out :=
  checked (vregFault s.g rs) s (vecDoneF d k f s)

/-- A mask register with the bits of the acting lanes replaced (R319). -/
def maskMerge (old act : Word32) (p : Nat → Bool) : Word32 := (old &&& ~~~act) ||| (act &&& maskOf p)

/-- The state after a vector comparison: only the acting lanes' bits of kd change. -/
def cmpDone (kd : KReg) (k : KReg) (p : Nat → Bool × FFlags) (s : State) : State :=
  let act := actOf s k
  retire act (orFlags (wK s kd (maskMerge (rK s kd) act (fun l => (p l).1)))
    ((lanesOf act).foldl (fun a l => a ||| (p l).2) 0))

def cmpOut (rs : List VReg) (kd : KReg) (k : KReg) (p : Nat → Bool × FFlags) (s : State) : Out :=
  checked (vregFault s.g rs) s (cmpDone kd k p s)

end Sys2Proof.Machine
end

