-- ==== Sys2Proof/Machine/Code.lean ====
section
/-! DEFINITION. Instruction fetch, what an undecodable word does, and slit (R265, R266, R280, R283). -/
namespace Sys2Proof.Machine

/-- n bytes read as instruction fetch reads them: EX is needed and the home's bytes are read (R265, R280). DESIGN CHOICE, log 18. -/
def codeRead (s : State) (a : Agent) (va n : Nat) : Except (AFlt × Nat) (Nat × State) :=
  match badByte va n with
  | some v => .error ({ code := fADDROVF, detail := 0, level := 0 }, v)
  | none =>
    match xlate s a va 3 with
    | .error f => .error (f, va)
    | .ok x =>
      let pa := leafPaOf x.leaf x.level va
      let g : Seg := { va := va, n := n, pa := pa, hit := false, x := x }
      let s' := useSeg a 3 g s
      match leafKind x.leaf with
      | 2 => if hostMarks s' pa n ≠ 0 then .error ({ code := fECCU, detail := 0, level := 0 }, va) else .ok (hostRead s' pa n, hostUse pa n s')
      | 3 => if memMarks s' pa n ≠ 0 then .error ({ code := fECCU, detail := 0, level := 0 }, va) else .ok (memBytes s'.m.mem pa n, s')
      | _ =>
        let v := secRead (cohSector s' (pa / 128) none).data (cohSector s' (pa / 128) none).poison (pa % 128) n
        if v.2 then .error ({ code := fECCU, detail := 0, level := 0 }, va)
        else .ok (v.1, lazyBacks (pa / 128) none (homeTouch (pa / 128) s'))

/-- The lines that a code read of n bytes must have snooped first (R75). -/
def codeSnoops (s : State) (a : Agent) (va n : Nat) : List Nat :=
  match xlate s a va 3 with
  | .ok x =>
    let pa := leafPaOf x.leaf x.level va
    if leafKind x.leaf < 2 then [pa / 64, (pa + n - 1) / 64].filter (fun l => mustSnoop s l false) else []
  | .error _ => []

/-- The words after the first, k of them, from va up (R264). -/
def codeWords (a : Agent) : Nat → Nat → State → Except (AFlt × Nat) (List Word32 × State)
  | 0, _, s => .ok ([], s)
  | k + 1, va, s =>
    match codeRead s a va 4 with
    | .error e => .error e
    | .ok (w, s') =>
      match codeWords a k ((va + 4) % 2 ^ 64) s' with
      | .error e => .error e
      | .ok (ws, s'') => .ok (w32 w :: ws, s'')

/-- The instruction at the group's pc: its words, read before any part of it executes (R265). DESIGN CHOICE, log 18. -/
def fetch (s : State) : Except (AFlt × Nat) (List Word32 × State) :=
  let a := agentOf s s.g
  let va := (vaOf s.g.pc).toNat
  match codeRead s a va 4 with
  | .error e => .error e
  | .ok (w, s') =>
    match codeWords a (wordsOf (w32 w) - 1) ((va + 4) % 2 ^ 64) s' with
    | .error e => .error e
    | .ok (ws, s'') => .ok (w32 w :: ws, s'')

/-- The lines that the fetch of the group's next instruction must have snooped first: of its first word, then of the others. -/
def fetchSnoops (s : State) : List Nat :=
  if s.m.hfilt.isEmpty then []
  else
    let a := agentOf s s.g
    let va := (vaOf s.g.pc).toNat
    match codeSnoops s a va 4 with
    | [] => (match fetch s with
      | .ok (ws, _) => (List.range ws.length).flatMap (fun i => codeSnoops s a ((va + 4 * i) % 2 ^ 64) 4)
      | .error _ => [])
    | ls => ls

/-- A fault of a fetch or of a code read (R265, R280). -/
def fetchFlt (e : AFlt × Nat) : Flt :=
  { code := e.1.code, detail := e.1.detail, acc := 3, level := e.1.level, va := w64 e.2, mask := 1 }

/-- slit reads 8 bytes through the instruction cache; poison among them leaves the destination as it was (R356). -/
def execSlit (d : SReg) (o : POff) (s : State) : Out :=
  let va := (vaOf s.g.pc + poff o).toNat
  if !canonical (w64 va) then .next (raiseW { flt fADDROVF with acc := 3, va := w64 va } s)
  else if va % 8 ≠ 0 then .next (raiseW { flt fALIGN with acc := 3, va := w64 va } s)
  else if codeSnoops s (agentOf s s.g) va 8 ≠ [] then .next (waitSnoops (codeSnoops s (agentOf s s.g) va 8) s)
  else match codeRead s (agentOf s s.g) va 8 with
    | .error e => .next (if e.1.code = fECCU then retireS (notePoison va 3 s) else raiseW (fetchFlt e) (fltWalk (fetchFlt e) s))
    | .ok (v, s') => .next (retireS (wS s' d (w64 v)))

/-- A word whose OP7 names no instruction raises F_ILLOP precisely (R266, R281). -/
def execIll (_w : Word32) (s : State) : Out := .next (raiseI fILLOP s)

end Sys2Proof.Machine
end

