-- ==== Sys2Proof/Machine/Tune.lean ====
section
/-! DEFINITION. The tuning record as start-up publishes it, and its logical numbering (R467, R469, R470, R488). -/
namespace Sys2Proof.Machine

/-- Low n bits set. -/
def onesN (w n : Nat) : BitVec w := BitVec.ofNat w (2 ^ n - 1)

/-- The tuning record of a device whose every unit passed, before firmware finds defects (DESIGN CHOICE, log 7): 8 clusters
of 184 live cores in ascending logical order, 384 slices, 12 stacks, four full expanders. -/
def Tuning.shipped : Tuning where
  tunn := 1
  rev := 1
  clus := 0xFF
  cores := List.replicate 8 (onesN 192 184)
  lorder := List.replicate 8 (List.range 184)
  slices := List.replicate 8 (onesN 48 48)
  hbmStacks := 0xFFF
  chans := List.replicate 12 0xFFFF
  exp := List.replicate 4 (BitVec.ofNat 64 (2 ^ 63 + 2 ^ 21))
  links := List.replicate 24 0
  rgnt := 0xBFE8000000
  pspill := 0xBFE0000000
  snapBase := 0xBF80000000
  snapSize := 0x40000000
  saveBase := 0xBFC0000000
  saveSize := 0x20000000
  clorder := List.range 8
  place := 0xBFFFFFF000

/-- Live physical clusters. -/
def clusterLive (t : Tuning) (c : Nat) : Bool := t.clus.getLsbD c

/-- Whether a physical core is live. -/
def coreLive (t : Tuning) (core : Nat) : Bool := clusterLive t (core / 256) && (t.cores.getD (core / 256) 0).getLsbD (core % 256)

def liveCoresOf (t : Tuning) (c : Nat) : List Nat := t.lorder.getD c []

/-- LCORES of a cluster. -/
def lcores (t : Tuning) (c : Nat) : Nat := (liveCoresOf t c).length

/-- The logical index of a physical core in its cluster, and of a physical cluster. -/
def lcoreOf (t : Tuning) (core : Nat) : Nat := (liveCoresOf t (core / 256)).idxOf (core % 256)
def lclusOf (t : Tuning) (c : Nat) : Nat := t.clorder.idxOf c

/-- A core as lifetime data names it: by its logical cluster (R470). -/
def logicalCore (t : Tuning) (core : Nat) : Nat := 256 * lclusOf t (core / 256) + core % 256

/-- A cause as lifetime data names it. -/
def logicalCause (t : Tuning) (c : TuneCause) : TuneCause :=
  match c with
  | .core k => .core (logicalCore t k)
  | .cluster cl => .cluster (lclusOf t cl)
  | .slice cl i => .slice (lclusOf t cl) i
  | .link .. | .expander _ | .start => c

/-- The physical cluster of a logical index. -/
def physCluster (t : Tuning) (l : Nat) : Nat := t.clorder.getD l 0

end Sys2Proof.Machine
end

