-- ==== Sys2Proof/Machine/Fabric.lean ====
section
/-! DEFINITION. The string fabric: stops, loops, routes, and the messages that a destination may refuse (R81 to R85, R87). -/
namespace Sys2Proof.Machine

/-! ### Loops (R81, R82) -/

/-- The 60 stops of a quadrant in the order of its forward loop (R81). -/
def quadStops (cl q : Nat) : List Stop :=
  (List.range 12).flatMap (fun j =>
    (List.range 4).map (fun i => Stop.core (256 * cl + 48 * q + 4 * j + i)) ++ [.slice (64 * cl + 12 * q + j)])

/-- The pairs of quadrants that share spanning loops. -/
def quadPairs : List (Nat × Nat) := [(0, 1), (0, 2), (0, 3), (1, 2), (1, 3), (2, 3)]

/-- The stops of a pair's spanning loops (R81); their order is a DESIGN CHOICE, log 35. -/
def spanStops (cl : Nat) (p : Nat × Nat) : List Stop :=
  quadStops cl p.1 ++ quadStops cl p.2 ++ [.windowEngine cl, .fret cl, .edge cl 0, .edge cl 1]

/-- A ring in both directions. -/
def bothWays (l : List Stop) : List (List Stop) := [l, l.reverse]

/-- The 20 loops of a cluster. -/
def clusterLoops (cl : Nat) : List (List Stop) :=
  (List.range 4).flatMap (fun q => bothWays (quadStops cl q)) ++ quadPairs.flatMap (fun p => bothWays (spanStops cl p))

/-- The stops of the die-crossing loops (R82); their order is a DESIGN CHOICE, log 35. -/
def dieStops : List Stop :=
  (List.range 8).flatMap (fun cl => [Stop.edge cl 0, .edge cl 1]) ++ (List.range 12).map Stop.stack
    ++ [.commandProcessor, .progressUnit, .transferEngine, .hostPort 0, .hostPort 1]
    ++ (List.range 4).map Stop.expander ++ [.peerHub]

/-- The 16 die-crossing loops, eight in each direction. -/
def dieLoops : List (List Stop) := List.replicate 8 dieStops ++ List.replicate 8 dieStops.reverse

/-! ### Routes (R82, R83) -/

/-- Hops from one stop to another along a loop that passes both. -/
def hopsOn (loop : List Stop) (a b : Stop) : Option Nat :=
  match loop.idxOf? a, loop.idxOf? b with
  | some i, some j => some ((j + loop.length - i) % loop.length)
  | _, _ => none

/-- The loop with the fewest hops, the lower index at a tie; base is the index of the first (R83). -/
def bestLoop (loops : List (List Stop)) (base : Nat) (a b : Stop) : Option Leg :=
  ((loops.zipIdx.foldl (fun (x : Option (Nat × Nat)) l =>
    match hopsOn l.1 a b, x with
    | none, x => x
    | some h, none => some (h, l.2)
    | some h, some y => if h < y.1 then some (h, l.2) else some y) none).map (fun x =>
      { loop := base + x.2, src := a, dst := b }))

/-- The cluster a stop lies in; the stops of the I/O die lie in none. -/
def stopCluster : Stop → Option Nat
  | .core n => some (n / 256)
  | .slice n => some (n / 64)
  | .windowEngine cl => some cl
  | .fret cl => some cl
  | .edge cl _ => some cl
  | _ => none

/-- The die-edge port that a destination fixes. DESIGN CHOICE, log 35. -/
def edgePort : Stop → Nat
  | .core n => n % 2
  | .slice n => n % 2
  | .stack n => n % 2
  | .hostPort n => n % 2
  | .expander n => n % 2
  | _ => 0

def clusterLeg (cl : Nat) (a b : Stop) : List Leg := (bestLoop (clusterLoops cl) (20 * cl) a b).toList
def dieLeg (a b : Stop) : List Leg := (bestLoop dieLoops 160 a b).toList

/-- The legs of a message between two stops: one loop of their cluster, or by way of the die-crossing loops (R82). -/
def route (a b : Stop) : List Leg :=
  let p := edgePort b
  match stopCluster a, stopCluster b with
  | some x, some y =>
    if x = y then clusterLeg x a b
    else clusterLeg x a (.edge x p) ++ dieLeg (.edge x p) (.edge y p) ++ clusterLeg y (.edge y p) b
  | some x, none => clusterLeg x a (.edge x p) ++ dieLeg (.edge x p) b
  | none, some y => dieLeg a (.edge y p) ++ clusterLeg y (.edge y p) b
  | none, none => dieLeg a b

/-! ### Messages (R55, R84) -/

/-- The class of a message (R55); what is no message of the fabric has none. No rule names a message of CTRL: here an engine's update
of a barrier object is one. DESIGN CHOICE, log 35. -/
def msgClass : Event → Option MsgClass
  | .rds .. | .rego .. | .wt .. | .wb .. | .atom .. => some .req
  | .fwdrd .. | .rvk .. => some .fwd
  | .fill .. | .fwddata .. | .rvkdata .. | .atomrsp .. => some .data
  | .regack .. | .wtack .. | .wback .. | .retry .. => some .ack
  | .barrier_update .. => some .ctrl
  | .batch .. | .fret_forward .. | .frontier_announcement .. | .peer_batch .. => some .prog
  | _ => none

/-- The home of a sector, as a stop. -/
def homeStop (s : State) (sec : Nat) : Stop := .slice (homeSlice s sec)

/-- The stops that a message which may be refused goes between. An announcement is taken for its first fret. DESIGN CHOICE, log 35. -/
def msgEnds (s : State) : Event → Option (Stop × Stop)
  | .rds core sec _ => some (.core core, homeStop s sec)
  | .rego core sec _ => some (.core core, homeStop s sec)
  | .wt core sec .. => some (.core core, homeStop s sec)
  | .wb core sec _ => some (.core core, homeStop s sec)
  | .atom core sec .. => some (.core core, homeStop s sec)
  | .barrier_update src core .. => some (.core src, .core core)
  | .batch (.group gid) .. => (match findGroup s gid with
    | some g => some (.core g.idn.core, .fret (clusterOf g.idn.core))
    | none => none)
  | .batch (.engine cl) .. => some (.windowEngine cl, .fret cl)
  | .batch .command .. => some (.commandProcessor, .progressUnit)
  | .batch (.peer _) .. => some (.peerHub, .progressUnit)
  | .fret_forward cl => some (.fret cl, .progressUnit)
  | .frontier_announcement .. => some (.progressUnit, .fret (physCluster s.tun 0))
  | .peer_batch .. => some (.peerHub, .progressUnit)
  | _ => none

/-- The legs on which a message may be refused: those of REQ, PROG and CTRL (R84, R85). -/
def refusableLegs (s : State) (e : Event) : List Leg :=
  match msgClass e, msgEnds s e with
  | some .req, some (a, b) | some .prog, some (a, b) | some .ctrl, some (a, b) => route a b
  | _, _ => []

/-- Whether a leg's destination still refuses an earlier message of the class from the leg's source on that loop (R84). -/
def legBlocked (s : State) (c : Option MsgClass) (l : Leg) : Bool :=
  s.m.refused.any (fun r => r.2 == l && msgClass r.1 == c)

/-- Whether a message of the class that its leg's destination has refused stands at the leg's source, to be offered again (R84, R85). -/
def legStands (s : State) (c : Option MsgClass) (l : Leg) : Bool :=
  s.m.under.any (fun u => u.2.head? == some l && msgClass u.1 == c)

end Sys2Proof.Machine
end

