-- ==== Sys2Proof/Machine/MemOps.lean ====
section
/-! DEFINITION. Loads, stores, atomics, prefetches, fences, cache and stash instructions, OP7 0x50 to 0x5F (R353 to
R371). -/
namespace Sys2Proof.Machine

/-- Bytes of an access width. -/
def iwBytes (w : IW) : Nat := w.width / 8

/-- A loaded value extended to 64 bits. -/
def extW (w : IW) (sx : Bool) (v : Nat) : Word64 :=
  if sx then (BitVec.ofNat w.width v).signExtend 64 else BitVec.ofNat 64 (v % 2 ^ w.width)

/-- The destination of a scalar load, and of a lane of a vector load. -/
def putS (d : SReg) (w : IW) (sx : Bool) (_l v : Nat) (s : State) : State := wS s d (extW w sx v)
def putV (d : VReg) (w : IW) (sx : Bool) (l v : Nat) (s : State) : State :=
  { s with g := putLane s.g d.toNat l (extW w sx v) }

/-- A scalar register in a 10-bit field. -/
def sOf (v : VReg) : SReg := v.truncate 6

/-- Runs an instruction that names vector registers unless the names are at fault. -/
def withRegs (rs : List VReg) (s : State) (out : Out) : Out :=
  match vregFault s.g rs with
  | some c => .next (raiseI c s)
  | none => out

/-! ### Loads and stores (R360, R361) -/

def execLdS (d a : SReg) (w : IW) (sx : Bool) (off : BitVec 21) (q : MemQ) (s : State) : Out :=
  loadInstr true q s.g.live (globScalar s 0 1 (iwBytes w) a off) (putS d w sx) s

def execStS (d a : SReg) (w : IW) (off : BitVec 21) (q : MemQ) (s : State) : Out :=
  storeInstr true q s.g.live (globScalar s 1 1 (iwBytes w) a off) (fun _ => (rS s d).toNat) s

def execLdV (d : VReg) (a : SReg) (k : KReg) (off : BitVec 21) (q : MemQ) (s : State) : Out :=
  withRegs [d] s (loadInstr false q (actOf s k) (globContig s 0 1 a off (actOf s k)) (putV d .w64 false) s)

def execStV (d : VReg) (a : SReg) (k : KReg) (off : BitVec 21) (q : MemQ) (s : State) : Out :=
  withRegs [d] s (storeInstr false q (actOf s k) (globContig s 1 1 a off (actOf s k)) (fun l => (rV s d l).toNat) s)

def execLdG (d a : VReg) (w : IW) (sx : Bool) (k : KReg) (off : BitVec 21) (q : MemQ) (s : State) : Out :=
  withRegs [d, a] s
    (loadInstr false q (actOf s k) (globGather s 0 1 (iwBytes w) a off (actOf s k)) (putV d w sx) s)

def execStG (d a : VReg) (w : IW) (k : KReg) (off : BitVec 21) (q : MemQ) (s : State) : Out :=
  withRegs [d, a] s
    (storeInstr false q (actOf s k) (globGather s 1 1 (iwBytes w) a off (actOf s k)) (fun l => (rV s d l).toNat) s)

def execLdX (am : BitVec 2) (d a : VReg) (w : IW) (sx : Bool) (k : KReg) (off : BitVec 21) (q : MemQ) (s : State) : Out :=
  if am = 0 then
    loadInstr true q s.g.live (scrScalar s 1 (iwBytes w) (sOf a) off) (putS (sOf d) w sx) s
  else if am = 1 then
    withRegs [d] s (loadInstr false q (actOf s k) (scrContig s 1 (sOf a) off (actOf s k)) (putV d .w64 false) s)
  else
    withRegs [d, a] s
      (loadInstr false q (actOf s k) (scrGather s 1 (iwBytes w) a off (actOf s k)) (putV d w sx) s)

def execStX (am : BitVec 2) (d a : VReg) (w : IW) (k : KReg) (off : BitVec 21) (q : MemQ) (s : State) : Out :=
  if am = 0 then
    storeInstr true q s.g.live (scrScalar s 1 (iwBytes w) (sOf a) off) (fun _ => (rS s (sOf d)).toNat) s
  else if am = 1 then
    withRegs [d] s
      (storeInstr false q (actOf s k) (scrContig s 1 (sOf a) off (actOf s k)) (fun l => (rV s d l).toNat) s)
  else
    withRegs [d, a] s
      (storeInstr false q (actOf s k) (scrGather s 1 (iwBytes w) a off (actOf s k)) (fun l => (rV s d l).toNat) s)

/-! ### Atomics (R363 to R366) -/

def atBits (o : AtOp) : Nat := if o.w64 then 64 else 32
def atIW (o : AtOp) : IW := if o.w64 then .w64 else .w32

/-- The old value as returned: sign-extended for min.s and max.s. -/
def atRet (o : AtOp) (old : Nat) : Word64 := extW (atIW o) (o.aop == 5 || o.aop == 7) old

/-- One lane of an atomic: old value, flags, whether it read poison. A lane of host-uncached memory has been performed by
the host port, whose value is the next of hostVals. -/
def atLane (o : AtOp) (b c : Nat) (a : LaneAcc) (s : State) : (Nat × FFlags × Bool) × State :=
  let n := atBits o
  match a.res with
  | .ok (.scr l) =>
    let old := sramBytes s l.core l.off (n / 8)
    if sramPoisoned s l.core l.off (n / 8) then ((old, 0, true), s)
    else
      let new := atomNew o.aop.toNat n o.r old b c
      ((old, new.2, false), sramPut l.core l.off (n / 8) new.1 s)
  | .ok (.glob (g :: _)) =>
    let s := noteWrite s.g g.x.leaf g.pa (useSeg (agentOf s s.g) 2 g s)
    match g.kind with
    | 2 =>
      let old := hostRead s g.pa (n / 8)
      if hostMarks s g.pa (n / 8) ≠ 0 then ((old, 0, true), s)
      else
        let new := atomNew o.aop.toNat n o.r old b c
        ((old, new.2, false), hostWrite g.pa (n / 8) new.1 s)
    | 3 =>
      match s.g.hostVals with
      | v :: vs => ((v.toNat, 0, memMarks s g.pa (n / 8) != 0), { s with g := { s.g with hostVals := vs } })
      | [] => ((0, 0, false), s)
    | _ =>
      let core := s.g.idn.core
      let sec := g.pa / 128
      let ws := maskWords (span128 (g.pa % 128) (n / 8))
      let r := homeAtomic g.pa o.aop.toNat n o.r b c (writeThroughNow core sec ws s)
      (r.1, dropVWord core sec ws r.2)
  | _ => ((0, 0, false), s)

/-- Whether a lane has come as far as step 5 of R33 with a page of KIND 11: it passes, or lacks a permission. -/
def atHostPage (s : State) (a : LaneAcc) : Bool :=
  match a.res with
  | .ok _ => a.segs.any (fun g => g.kind == 3)
  | .error (f, v) => f.code == fPROT && (f.detail == 1 || f.detail == 2 || f.detail == 4)
      && (leafReached s (agentOf s s.g) v).any (fun e => leafKind e == 3)

/-- An operation that the host port does not carry raises F_ILLOP for lanes of KIND 11, in the place of step 5 of R33 (R366). -/
def hostOps (s : State) (o : AtOp) (ls : List LaneAcc) : List LaneAcc :=
  if o.aop = 0 ∨ o.aop = 9 ∨ o.aop = 10 then ls
  else ls.map (fun a =>
    let f : AFlt := { code := fILLOP, detail := 0, level := 0 }
    if atHostPage s a then { a with res := .error (f, a.addr) } else a)

/-- The host port performs the AtomicOps of the lanes of KIND 11 and returns their old values; a poisoned word is left alone
(R356, R366). -/
def hostAtomics (o : AtOp) (bv cv : Nat → Nat) (ls : List LaneAcc) (s : State) : State :=
  let n := atBits o
  awaitHost (hostSegs ls).length (ls.foldl (fun s a => match a.segs with
    | g :: _ =>
      if g.kind = 3 then
        let old := memBytes s.m.mem g.pa (n / 8)
        let new := atomNew o.aop.toNat n o.r old (bv a.lane) (cv a.lane)
        due (.host_port_completion s.g.idn.gid (w64 old)) (if memMarks s g.pa (n / 8) = 0 then hostPut g.pa (n / 8) new.1 s else s)
      else s
    | [] => s) s)

/-- Flags of a lane of an atomic wait for the instruction's completion (R364). -/
def noteFlags (s : State) (f : FFlags) : State := { s with g := { s.g with x := { s.g.x with dueFlags := fpstatOr s.g.x.dueFlags f } } }

/-- The lanes in ascending order: destinations, flags, poison (R125, R365). -/
def atLanes (o : AtOp) (bv cv : Nat → Nat) (put : Nat → Word64 → State → State) (ls : List LaneAcc) (s : State) : State :=
  ls.foldl (fun s a =>
    let r := atLane o (bv a.lane) (cv a.lane) a s
    let s := noteFlags r.2 r.1.2.1
    if r.1.2.2 then notePoison a.addr 2 s else if o.nr then s else put a.lane (atRet o r.1.1) s) s

/-- The lanes of an atomic by sector, each sector with the address of its first lane. -/
def atSectors (bv cv : Nat → Nat) (ls : List LaneAcc) : List (Nat × Nat × List AtomLane) :=
  ls.foldl (fun (m : List (Nat × Nat × List AtomLane)) a => match a.segs with
    | g :: _ =>
      let l : AtomLane := { off := g.pa % 128, b := w64 (bv a.lane), c := w64 (cv a.lane) }
      if m.any (fun e => e.1 == g.pa / 128) then m.map (fun e => if e.1 = g.pa / 128 then (e.1, e.2.1, e.2.2 ++ [l]) else e)
      else m ++ [(g.pa / 128, a.addr, [l])]
    | [] => m) []

/-- Non-returning atomics on device memory go to their homes, a message for each sector, which counts for the ST unit (R66,
R116, R365). -/
def atSend (o : AtOp) (bv cv : Nat → Nat) (unit : Nat) (ls : List LaneAcc) (s : State) : State :=
  let s := ls.foldl (fun s a => match a.segs with
    | g :: _ =>
      let s := noteWrite s.g g.x.leaf g.pa (useSeg (agentOf s s.g) 2 g s)
      writeThroughNow s.g.idn.core (g.pa / 128) (maskWords (span128 (g.pa % 128) (atBits o / 8))) s
    | [] => s) s
  let core := s.g.idn.core
  let secs := atSectors bv cv ls
  raiseSt unit secs.length (secs.foldl (fun s e =>
    let ws := e.2.2.foldl (fun (w : BitVec 16) l => w ||| maskWords (span128 l.off (atBits o / 8))) 0
    due (.atom core e.1 o.aop o.w64 o.r e.2.2)
      (addOut { kind := .atom, core := core, sector := e.1, gid := s.g.idn.gid, unit := unit, words := ws, va := e.2.1 }
        (sendHome core e.1 s))) s)

/-- An atomic instruction (R363 to R366). -/
def atomInstr (scalar glob : Bool) (o : AtOp) (act : Word32) (ls : List LaneAcc) (bv cv : Nat → Nat)
    (put : Nat → Word64 → State → State) (s : State) : Out :=
  let ls := hostOps s o ls
  let ok := performing ls
  let acq := o.ord = 1 || o.ord = 3
  let rel := o.ord = 2 || o.ord = 3
  let sc := o.scope.toNat
  let u := stUnit s
  if passedBow s s.g && glob then .next (raiseI fDETSTAGE s)
  else if (glob && needsBow s s.g) || s.g.hostDue ≠ 0 || homesWait s false ok || (o.nr && decide (s.g.n.sts.length ≥ 63) && !stJoins s) || (!o.nr && decide (s.g.n.ld ≥ 63))
      || partStarting s ok || fillsPending s ok || (rel && releaseWaits s sc)
      || (acq && acqWaits s sc ls) then .next (block s)
  else if snoopsOf s true ok ≠ [] then .next (waitSnoops (snoopsOf s true ok) s)
  else if s.g.hostVals.length < (hostSegs ok).length then .next (hostAtomics o bv cv ok s)
  else
    let fin := fun s => retire act (payFlags (if acq then acquireNow sc s else s))
    if o.nr && glob && !acq && o.aop != 11 && ok.all (fun a => a.segs.all (fun g => decide (g.kind < 2))) then
      .next (finishAccess scalar 2 act ls (holdIf 2 ls u (atSend o bv cv u ok s)) fin)
    else
      let s' := atLanes o bv cv put ok s
      .next (finishAccess scalar 2 act ls (if o.nr then holdIf 2 ls u (raiseSt u 0 s') else s') (fun s => fin (if o.nr then s else raiseLd ls.isEmpty s)))

/-- In the base form cas compares with b and swaps d; the extended form names c (R363). -/
def execAtS (o : AtOp) (d a b c : SReg) (s : State) : Out :=
  let n := atBits o
  atomInstr true true o s.g.live (globScalar s 2 (n / 8) (n / 8) a o.off) (fun _ => (rS s b).toNat % 2 ^ n)
    (fun _ => (rS s c).toNat % 2 ^ n) (fun _ v s => wS s d v) s

def execAtG (o : AtOp) (d a b c : VReg) (k : KReg) (s : State) : Out :=
  let n := atBits o
  let act := actOf s k
  withRegs ([a, b] ++ (if o.nr then [] else [d]) ++ (if o.aop = 10 then [c] else [])) s
    (atomInstr false true o act (globGather s 2 (n / 8) (n / 8) a o.off act) (fun l => (rV s b l).toNat % 2 ^ n)
      (fun l => (rV s c l).toNat % 2 ^ n) (fun l v s => { s with g := putLane s.g d.toNat l v }) s)

def execAtX (am : BitVec 2) (o : AtOp) (d a b c : VReg) (k : KReg) (s : State) : Out :=
  let n := atBits o
  if am = 0 then
    atomInstr true false o s.g.live (scrScalar s (n / 8) (n / 8) (sOf a) o.off) (fun _ => (rS s (sOf b)).toNat % 2 ^ n)
      (fun _ => (rS s (sOf c)).toNat % 2 ^ n) (fun _ v s => wS s (sOf d) v) s
  else
    let act := actOf s k
    withRegs ([a, b] ++ (if o.nr then [] else [d]) ++ (if o.aop = 10 then [c] else [])) s
      (atomInstr false false o act (scrGather s (n / 8) (n / 8) a o.off act) (fun l => (rV s b l).toNat % 2 ^ n)
        (fun l => (rV s c l).toNat % 2 ^ n) (fun l v s => { s with g := putLane s.g d.toNat l v }) s)

/-! ### Prefetch (R367) -/

/-- The prefetch of one address; whatever would fault is dropped. The .l2 form reads at the home within the step, and snoops the
host's lines there: DESIGN CHOICE, log 23. -/
def pfOne (l2 : Bool) (va : Nat) (s : State) : State :=
  let a := agentOf s s.g
  if !canonical (w64 va) then s
  else match segOf s a 0 (va / 128 * 128) 128 with
    | .error f => walkFault a (va / 128 * 128) 0 f.code s
    | .ok g =>
      if g.hit || decide (leafKind g.x.leaf ≥ 2) then s
      else
        let s := useSeg a 0 g s
        let core := s.g.idn.core
        let sec := g.pa / 128
        if l2 then homeAlloc sec (snoopSec sec false s)
        else if fillPending s core sec then s
        else
          let tag := freshSec s core s.g.idn.ctx va g.x.leaf
          let f : FillPend := FillPend.mk core sec tag false 0 0 0 0 0 0 true
          due (.rds core sec false) { s with m := { s.m with fills := s.m.fills ++ [f] } }

def execPf (l2 lanes : Bool) (a : VReg) (k : KReg) (off : BitVec 21) (s : State) : Out :=
  if lanes then
    withRegs [a] s (.next (retire (actOf s k)
      ((lanesOf (actOf s k)).foldl (fun s l => pfOne l2 (rV s a l + off.signExtend 64).toNat s) s)))
  else .next (retireS (pfOne l2 (rS s (sOf a) + off.signExtend 64).toNat s))

/-! ### Fences (R136, R137, R368) -/

/-- Whether a fence's kind waits for earlier stores and the drain, and whether it invalidates and waits for earlier atomics. -/
def fenceRel (kind : BitVec 2) : Bool := kind != 0
def fenceAcq (kind : BitVec 2) : Bool := kind != 1

def execFence (kind : BitVec 2) (scope : BitVec 3) (s : State) : Out :=
  let sc := scope.toNat
  if (fenceRel kind && releaseWaits s sc)
      || (fenceAcq kind && ((acquireWide sc && coreFilling s s.g.idn.core) || (decide (sc ≥ 1) && atomsOut s))) then
    .next (block s)
  else .next (retireS (if fenceAcq kind then acquireNow sc s else s))

/-! ### cwb and cinv (R67, R369) -/

/-- The words of a sector at a virtual sector number that a byte range touches. -/
def wordsIn (vsec lo n : Nat) : BitVec 16 :=
  (List.range 16).foldl (fun (a : BitVec 16) i =>
    if 128 * vsec + 8 * i < lo + n ∧ lo < 128 * vsec + 8 * i + 8 then a ||| bit16 i else a) 0

/-- A unit that awaits the WTACKs of words which earlier write-throughs have put in W (R369). -/
def awaitW (core sec unit : Nat) (words : BitVec 16) (x : Nat × State) : Nat × State :=
  let mine := fun (o : Outst) => o.kind == .wt && o.core == core && o.sector == sec && o.words &&& words != 0
  (x.1 + (x.2.m.outs.filter mine).length,
   { x.2 with m := { x.2.m with outs := x.2.m.outs.map (fun o =>
      if mine o then { o with also_ := o.also_ ++ [(x.2.g.idn.gid, unit)] } else o) } })

/-- Words in P or O are written through with REL set and go to W; cinv then drops what is not in W, and W at its WTACK, which
its unit awaits. -/
def cacheOp (inv : Bool) (unit core : Nat) (sec : Nat) (words : BitVec 16) (x : Nat × State) : Nat × State :=
  match l1At x.2 core sec with
  | none => x
  | some l =>
    let po := (l.p ||| l.o) &&& words
    let m := l.reg &&& wordBytes po
    let keep := l.w ||| po
    let l' := { l with p := l.p &&& ~~~po, o := l.o &&& ~~~po, w := keep,
                       valid := if inv then l.valid &&& ~~~wordBytes (words &&& ~~~keep) else l.valid,
                       drop := if inv then l.drop ||| (words &&& keep) else l.drop }
    let x := (x.1, l1Put core sec l' x.2)
    let x := if inv then awaitW core sec unit (words &&& l.w) x else x
    if m = 0 then x
    else sendStore (.wt core sec { mask := m, data := l.data } true false) .wt true core sec unit po x

def cacheRange (inv : Bool) (a b : SReg) (s : State) : Out :=
  let lo := (rS s a).toNat
  let n := (rS s b).toNat
  if n = 0 then .next (retireS s)
  else if lo + n - 1 ≥ 2 ^ 64 ∨ !canonical (w64 lo) ∨ !canonical (w64 (lo + n - 1)) then
    .next (raiseW { flt fADDROVF with acc := 1, va := w64 (if canonical (w64 lo) then lo + n - 1 else lo) } s)
  else if s.g.n.sts.length ≥ 63 then .next (block s)
  else
    let core := s.g.idn.core
    let mine := (l1Of s core).filter (fun e => e.2.ctx == s.g.idn.ctx && wordsIn e.2.vsec lo n != 0)
    let r := mine.foldl (fun x e => cacheOp inv s.tick core e.1 (wordsIn e.2.vsec lo n) x) (0, s)
    .next (retireS (addUnit s.tick r.1 r.2))

def execCwb (a b : SReg) (s : State) : Out := cacheRange false a b s
def execCinv (a b : SReg) (s : State) : Out := cacheRange true a b s

/-! ### The stash (R95, R96, R100, R370) -/

/-- The addresses of the pages of a range of at most 64 KiB: its first byte, and the first byte of a second granule. -/
def rangePages (va n : Nat) : List Nat :=
  if va / 65536 = (va + n - 1) / 65536 then [va] else [va, (va + n - 1) / 65536 * 65536]

/-- The first page whose checks fail (R33). -/
def pagesFault (s : State) (a : Agent) (acc : Nat) : List Nat → Option (AFlt × Nat)
  | [] => none
  | v :: vs => match checkGlobal s a acc v 1 1 with
    | .error e => some e
    | .ok _ => (match xlate s a v acc with
      | .error f => some (f, v)
      | .ok _ => pagesFault s a acc vs)

def overlapR (a n b m : Nat) : Bool := decide (a < b + m ∧ b < a + n)

def execSmap (d a b c : SReg) (s : State) : Out :=
  let va := (rS s a).toNat
  let n := (rS s b).toNat
  let sa := (rS s c).toNat % 2 ^ 32
  let off := sa % 2 ^ 24
  let t := gTeam s
  let part := s.g.idn.part
  let size := match partEnt t part with
    | some e => e.size * 4096
    | none => 0
  let mine := t.stash.filter (fun m => m.part == part)
  let ag := agentOf s s.g
  let st := fun (v : Nat) (s : State) => Host.Outcome.next (retireS (wS s d (w64 v)))
  if n % 128 ≠ 0 ∨ n = 0 ∨ n > 65536 then Host.Outcome.next (raiseI fILLOP s)
  else if va % 128 ≠ 0 ∨ off % 128 ≠ 0 then
    .next (raiseW { flt fALIGN with va := if va % 128 ≠ 0 then rS s a else w64 sa } s)
  else if sa / 2 ^ 24 ≠ 0xFE ∧ sa / 2 ^ 24 ≠ part then .next (raiseW { flt fSPBOUND with detail := 9, va := w64 sa } s)
  else if off + n > size then .next (raiseW { flt fSPBOUND with detail := 8, va := w64 sa } s)
  else match (match badByte va n with
      | some v => some (({ code := fADDROVF, detail := 0, level := 0 } : AFlt), v)
      | none => pagesFault s ag 0 (rangePages va n)) with
    | some (f, v) => .next (raiseW { code := f.code, detail := f.detail, acc := 0, level := f.level, va := w64 v, mask := 1 }
        (walkFault ag v 0 f.code s))
    | none =>
      let kinds := (rangePages va n).map (fun v => match xlate s ag v 0 with
        | .ok x => leafKind x.leaf
        | .error _ => 0)
      if mine.length ≥ 16 then st 1 s
      else if mine.any (fun m => overlapR m.va m.size va n || overlapR m.off m.size off n) then st 2 s
      else if kinds.any (fun k => decide (k ≥ 2)) then st 3 s
      else if s.m.fills.any (fun f => f.core == s.g.idn.core && f.tag.ctx == s.g.idn.ctx && decide (va / 128 ≤ f.tag.vsec ∧ f.tag.vsec < (va + n) / 128)) then
        .next (block s)
      else
        let s := flushWhere s.g.idn.core (fun _ x => x.ctx == s.g.idn.ctx && decide (va / 128 ≤ x.vsec ∧ x.vsec < (va + n) / 128)) s
        st 0 (modTeam s.g.idn.team (fun t => { t with
          stash := t.stash ++ [{ part := part, va := va, size := n, off := off, gid := s.g.idn.gid }] }) s)

/-- The sectors of a map on its core. -/
def mapSectors (s : State) (t : Team) (m : StashMap) : List (Nat × Nat × L1Sec) :=
  match partEnt t m.part with
  | none => []
  | some p =>
    let core := 256 * t.cluster + p.core
    ((l1Of s core).filter (fun e => e.2.stash && e.2.ctx == t.ctx && decide (m.va ≤ 128 * e.2.vsec ∧ 128 * e.2.vsec < m.va + m.size))).map
      (fun e => (core, e.1, e.2))

/-- The first written sector of a map whose write-back fails its checks, with what fails (R27). -/
def mapFault (s : State) (t : Team) (m : StashMap) : Option (AFlt × L1Sec) :=
  (mapSectors s t m).findSome? (fun e =>
    if e.2.2.p ||| e.2.2.o = (0 : BitVec 16) then none
    else match xlate s (stashAgent s e.1 e.2.2) (128 * e.2.2.vsec) 1 with
      | .error f => some (f, e.2.2)
      | .ok _ => none)

/-- A sector of a map that is removed: its P and O words are written back as a store of its page would be, where that passes,
and what has been valid in it stands in the scratchpad (R27, R100). -/
def unmapSector (core sec : Nat) (x : L1Sec) (s : State) : State :=
  if x.p ||| x.o = 0 then flushSector core sec s
  else match xlate s (stashAgent s core x) (128 * x.vsec) 1 with
    | .ok l => flushSector core sec (useXlate (stashAgent s core x) (128 * x.vsec) 1 l s)
    | .error _ => loseSector core sec s

/-- Fills under way for sectors of a map that goes fill the L1 (R97, R100). -/
def unmapFills (t : Team) (m : StashMap) (s : State) : State :=
  { s with m := { s.m with fills := s.m.fills.map (fun f =>
      if (partEnt t m.part).any (fun p => f.core == 256 * t.cluster + p.core) && f.tag.ctx == t.ctx
          && decide (m.va ≤ 128 * f.tag.vsec ∧ 128 * f.tag.vsec < m.va + m.size) then { f with tag := { f.tag with stash := false, ever := 0 } }
      else f) } }

/-- Removes a stash map (R100); the first fault of its write-backs reaches the group that made it (R27). -/
def unmapStash (team : Nat) (m : StashMap) (s0 : State) : State :=
  match teamOf s0 team with
  | none => s0
  | some t =>
    if (partEnt t m.part).isNone then s0
    else
      let s := unmapFills t m ((mapSectors s0 t m).foldl (fun s e => unmapSector e.1 e.2.1 e.2.2 s) s0)
      let s := modTeam team (fun t => { t with stash := t.stash.filter (fun x => !(x.part == m.part && x.va == m.va)) }) s
      match mapFault s0 t m with
      | some (f, x) => backFault m.gid x f s
      | none => s

/-- sunmap (R100, R370). A write-back that would fault reaches the group that made the map (R27): of its own sunmap it is a
precise fault, and another group's waits for it while it lasts. DESIGN CHOICE, log 44. -/
def execSunmap (d a : SReg) (s : State) : Out :=
  match (gTeam s).stash.find? (fun m => m.part == s.g.idn.part && m.va == (rS s a).toNat) with
  | some m => match mapFault s (gTeam s) m with
    | some (f, x) =>
      if m.gid = s.g.idn.gid then
        .next (raiseW { code := f.code, detail := f.detail, acc := 1, level := f.level, va := w64 (128 * x.vsec), mask := 1 }
          (walkFault (stashAgent s s.g.idn.core x) (128 * x.vsec) 1 f.code s))
      else if (findGroup s m.gid).isSome then .next (block (backFault m.gid x f s))
      else
        let s' := unmapStash s.g.idn.team m s
        .next (if s'.g.idn.gid = s.g.idn.gid then retireS (wS s' d 0) else s')
    | none => .next (retireS (wS (unmapStash s.g.idn.team m s) d 0))
  | none => .next (retireS (wS s d 1))

end Sys2Proof.Machine
end

