-- ==== Sys2Proof/Machine/Coherence.lean ====
section
/-! DEFINITION. The messages of the registration protocol as they arrive at homes and cores, home lookups, and messages
refused and offered again (R55 to R71, R84, R85). A message that its home cannot serve yet waits there, and later ones for
the sector behind it (R57). -/
namespace Sys2Proof.Machine

/-- The home that a message went to is being released or is no longer its region's: it is answered by RETRY (R71). -/
def staleHome (s : State) (core sec : Nat) : Bool :=
  let region := regionOf (128 * sec)
  if hashedRegion s region then false
  else if regionRel s region then true
  else match amGet? s.m.rhome (core * 2 ^ 36 + region) with
  | some h => regionHome s region != some h
  | none => (regionHome s region).isNone

/-- A REQ message e from a core at the home of a sector: RETRY where the home was released, and it goes to the new home when the
keeper has named one (R71); it waits behind a
back-invalidation or an earlier waiting message (R57, R76), has tracked lines snooped first (R75), and the owners of the
words named revoked (R57); then serve. -/
def atHome (e : Event) (core sec : Nat) (write : Bool) (words : BitVec 16) (me : Option Nat) (serve : State → State)
    (s : State) : State :=
  if releasing s sec then dueNow [.retry core (regionOf (128 * sec))] (hold e s)
  else if staleHome s core sec then dueNow [.retry core (regionOf (128 * sec)), e] s
  else if homeBusy s sec || heldBefore s sec then hold e s
  else if snoopLines s sec write ≠ [] then hold e (sendSnoops (snoopLines s sec write) s)
  else match ownersOf s sec words me with
    | [] => serve s
    | os => dueNow (os.map (fun c => Event.rvk c sec (wordsOwnedBy s sec words c))) (hold e s)

/-! ### At the home -/

/-- RDS (R59): FILL with the home's copy read now, and FWDRD to each owner. -/
def execRds (s : State) : Out :=
  match s.ev with
  | some (.rds core sec bypass) =>
    .next (atHome (.rds core sec bypass) core sec false 0 (some core) (fun s =>
      let s := if bypass then homeTouch sec s else homeAlloc sec s
      let os := ownersOf s sec (BitVec.allOnes 16) (some core)
      let h := homeSector s sec
      dueNow (os.map (fun o => Event.fwdrd o core sec))
        (due (.fill core sec h.data h.poison (ownedElsewhere s sec (some core)) os.length) s)) s)
  | _ => .next s

/-- REGO (R57, R58): other owners are revoked, the sender is recorded, if need be in an entry freed for it, REGACK. -/
def execRego (s : State) : Out :=
  match s.ev with
  | some (.rego core sec mask) =>
    .next (atHome (.rego core sec mask) core sec true (maskWords mask) (some core)
      (regoServe core sec (maskWords mask)) s)
  | _ => .next s

/-- WT (R58): other owners are revoked, the bytes merge, REL clears the sender's ownership, WTACK. -/
def execWt (s : State) : Out :=
  match s.ev with
  | some (.wt core sec d rel bypass) =>
    .next (atHome (.wt core sec d rel bypass) core sec true (maskWords d.mask) (some core)
      (wtServe core sec d rel bypass) s)
  | _ => .next s

/-- WB (R61): only words whose owner is the sender merge, and lose their owner. -/
def execWb (s : State) : Out :=
  match s.ev with
  | some (.wb core sec d) =>
    .next (atHome (.wb core sec d) core sec false 0 (some core) (wbServe core sec d) s)
  | _ => .next s

/-- The words that lanes at the offsets given touch. -/
def offWords (w64 : Bool) (offs : List Nat) : BitVec 16 :=
  offs.foldl (fun (a : BitVec 16) i => a ||| maskWords (span128 i (if w64 then 8 else 4))) 0

/-- ATOM (R66): every owner of the words is revoked, the operation performs on every lane, ATOMRSP. -/
def execAtom (s : State) : Out :=
  match s.ev with
  | some (.atom core sec aop w64 r ls) =>
    .next (atHome (.atom core sec aop w64 r ls) core sec true (offWords w64 (ls.map (fun l => l.off))) none
      (atomServe core sec aop w64 r ls) s)
  | _ => .next s

/-- RVKDATA (R60, R71): the home merges the bytes, clears the owner, and goes on with what waited; the last one of a region
under release ends the release. -/
def execRvkdata (s : State) : Out :=
  match s.ev with
  | some (.rvkdata owner sec words d) =>
    let s := if d.mask = 0 then s else homeMerge sec d.mask d.data 0 true s
    let s := clearOwner sec (wordsOwnedBy s sec words owner) s
    let r := regionOf (128 * sec)
    .next (unhold (if regionRel s r && regionOwners s r = [] then endRelease r s else s))
  | _ => .next s

/-! ### At an owner -/

/-- FWDRD (R59, R63, R99): the owner answers the requester with what it has written; a stash then writes the words back. -/
def execFwdrd (s : State) : Out :=
  match s.ev with
  | some (.fwdrd owner core sec) =>
    .next (lazyBack owner sec (due (.fwddata core sec (ownerBytes s owner sec (BitVec.allOnes 16)).1) s))
  | _ => .next s

/-- RVK (R60, R63): the owner answers at once; the words go to V and keep their bytes. -/
def execRvk (s : State) : Out :=
  match s.ev with
  | some (.rvk owner sec words) =>
    .next (dueNow [.rvkdata owner sec words (ownerBytes s owner sec words).1]
      (supersede owner sec words (l1Mod owner sec (releaseWords words (fillPending s owner sec)) s)))
  | _ => .next s

/-! ### At a requester -/

/-- A fill is complete when the FILL and every FWDDATA it announces have come (R59). -/
def FillPend.complete (f : FillPend) : Bool := f.got && decide (f.fwds ≤ f.seen)

/-- The filled sector: the FILL's bytes with the owners' bytes over them. -/
def FillPend.filled (f : FillPend) : L2Sec :=
  { dirty := false, data := secMerge f.data f.overMask f.overData, poison := f.poison &&& ~~~f.overMask }

/-- The fill of a sector ends: its bytes merge into the core's sector, or into a new one. A prefetch whose alias another one keeps
out brings nothing (R31, R367). DESIGN CHOICE, log 44. -/
def endFill (f : FillPend) (s : State) : State :=
  let s := { s with m := { s.m with fills := s.m.fills.filter (fun x => x.core ≠ f.core ∨ x.sector ≠ f.sector) } }
  let va := 128 * f.tag.vsec
  if (l1At s f.core f.sector).isNone && aliasStuck s f.core f.tag.ctx va (128 * f.sector) then wakeAll s else
  let s := match l1At s f.core f.sector with
    | some _ => s
    | none => l1Put f.core f.sector { f.tag with used := s.tick }
        (makeRoom f.core va f.sector (takeAlias (clusterOf f.core) f.tag.ctx va (128 * f.sector) s))
  wakeAll (l1Mod f.core f.sector (fun x => { fillMerge f.filled x with filler := f.tag.filler }) s)

/-- Whether a fill that is complete still waits for a write-back buffer entry (R61). -/
def fillWaits (s : State) (f : FillPend) : Bool :=
  (l1At s f.core f.sector).isNone && evictionWaits s f.core (128 * f.tag.vsec) f.sector

/-- The fills of a core that waited for an entry end, now that one is free. -/
def endFills (core : Nat) (s : State) : State :=
  (s.m.fills.filter (fun f => f.core == core && f.complete)).foldl (fun s f => if fillWaits s f then s else endFill f s) s

/-- An arrival for the pending fill of a sector. -/
def fillArrive (core sec : Nat) (up : FillPend → FillPend) (s : State) : State :=
  match s.m.fills.find? (fun f => f.core == core && f.sector == sec) with
  | none => s
  | some f =>
    let f := up f
    if f.complete && !fillWaits s f then endFill f s
    else { s with m := { s.m with fills := s.m.fills.map (fun x => if x.core = core ∧ x.sector = sec then f else x) } }

/-- FILL (R59). -/
def execFill (s : State) : Out :=
  match s.ev with
  | some (.fill core sec data po _ fwds) =>
    .next (fillArrive core sec (fun f => { f with got := true, data := data, poison := po, fwds := fwds }) s)
  | _ => .next s

/-- FWDDATA (R59). -/
def execFwddata (s : State) : Out :=
  match s.ev with
  | some (.fwddata core sec d) =>
    .next (fillArrive core sec
      (fun f => { f with seen := f.seen + 1, overMask := f.overMask ||| d.mask, overData := secMerge f.overData d.mask d.data }) s)
  | _ => .next s

/-- REGACK (R58, R60): words still in P go to O. -/
def execRegack (s : State) : Out :=
  match s.ev with
  | some (.regack core sec) =>
    .next (answered .rego core sec (fun o =>
      l1Mod core sec (fun x => { x with o := x.o ||| (x.p &&& o.words), p := x.p &&& ~~~o.words })) s)
  | _ => .next s

/-- The words of the core's outstanding messages of a kind for a sector. -/
def outWords (s : State) (kind : OutKind) (core sec : Nat) : BitVec 16 :=
  s.m.outs.foldl (fun (a : BitVec 16) u => if u.kind = kind ∧ u.core = core ∧ u.sector = sec then a ||| u.words else a) 0

/-- WTACK (R58, R67): words in W that no other write-through of the core still covers go to V, or to I after cinv. A word
stored to meanwhile, whose registration is under way, goes to P (DEDUCED, log 11). -/
def execWtack (s : State) : Out :=
  match s.ev with
  | some (.wtack core sec) =>
    .next (answered .wt core sec (fun o s =>
      let more := outWords s .wt core sec
      let again := outWords s .rego core sec
      l1Mod core sec (fun x =>
        let ws := x.w &&& o.words &&& ~~~more
        let gone := ws &&& ~~~again
        { x with w := x.w &&& ~~~ws, p := x.p ||| (ws &&& again), drop := x.drop &&& ~~~ws,
                 reg := x.reg &&& ~~~wordBytes gone, valid := x.valid &&& ~~~wordBytes (gone &&& x.drop) }) s) s)
  | _ => .next s

/-- WBACK (R61): the write-back buffer entry is free. -/
def execWback (s : State) : Out :=
  match s.ev with
  | some (.wback core sec) =>
    .next (answered .wb core sec (fun _ s => endFills core (freeWb core sec s)) s)
  | _ => .next s

/-- ATOMRSP (R66): the core's V copies of the addressed words become I. -/
def execAtomrsp (s : State) : Out :=
  match s.ev with
  | some (.atomrsp core sec w64 olds) =>
    .next (answered .atom core sec (fun _ => dropVWord core sec (offWords w64 (olds.map (fun o => o.1)))) s)
  | _ => .next s

/-! ### Homes looked up, messages offered again -/

/-- RETRY (R71): the core drops its cached home and looks it up again. -/
def execRetry (s : State) : Out :=
  match s.ev with
  | some (.retry core region) =>
    .next (dueNow [.region_home_lookup core region]
      { s with m := { s.m with rhome := amDel s.m.rhome (core * 2 ^ 36 + region) } })
  | _ => .next s

/-- A keeper answers or assigns a region's home; a lookup during the release of the region waits until REL clears (R70, R71). -/
def execRegionHomeLookup (s : State) : Out :=
  match s.ev with
  | some (.region_home_lookup core region) =>
    .next (if regionRel s region then { s with m := { s.m with held := .region_home_lookup core region :: s.m.held } }
      else lookupHome core region s)
  | _ => .next s

/-- The legs before a refused message: the one that refused it, and those after it (R85). -/
def legsFrom (s : State) (r : Event × Leg) : List Leg :=
  let ls := refusableLegs s r.1
  if ls.contains r.2 then ls.dropWhile (fun l => l != r.2) else ls

/-- The refused messages in the order in which they are offered again: those that wait further on their way before those that have
still to arrive there, and at one place in their order (R85). -/
def reoffers (s : State) : List (Event × Leg) :=
  let left := fun (r : Event × Leg) => (legsFrom s r).length
  [0, 1, 2].flatMap (fun n => s.m.refused.filter (fun r => left r == n)) ++ s.m.refused.filter (fun r => decide (3 ≤ left r))

/-- Refused messages are offered again, before newer ones of their source, each where it was refused (R84, R85). -/
def execRefusedMessageReoffer (s : State) : Out :=
  .next (dueNow ((reoffers s).map (fun r => r.1))
    { s with m := { s.m with refused := [], under := s.m.under ++ (reoffers s).map (fun r => (r.1, legsFrom s r)) } })

end Sys2Proof.Machine
end

