-- ==== Sys2Proof/Machine/Scalar.lean ====
section
/-! DEFINITION. Scalar integer and float instructions, OP7 0x01 to 0x0F but slit (R291 to R301). -/
namespace Sys2Proof.Machine

/-! ### Integer functions (R293 to R295) -/

/-- Bits 127:64 of the exact product. -/
def mulhS (a b : Word64) : Word64 := BitVec.ofInt 64 (a.toInt * b.toInt / 2 ^ 64)
def mulhZ (a b : Word64) : Word64 := BitVec.ofNat 64 (a.toNat * b.toNat / 2 ^ 64)

/-- Quotient and remainder of R294: division truncates and never traps. -/
def divS (a b : Word64) : Word64 := if b = 0 then BitVec.ofInt 64 (-1) else BitVec.ofInt 64 (Int.tdiv a.toInt b.toInt)
def remS (a b : Word64) : Word64 := if b = 0 then a else BitVec.ofInt 64 (Int.tmod a.toInt b.toInt)
def divZ (a b : Word64) : Word64 := if b = 0 then BitVec.ofInt 64 (-1) else BitVec.ofNat 64 (a.toNat / b.toNat)
def remZ (a b : Word64) : Word64 := if b = 0 then a else BitVec.ofNat 64 (a.toNat % b.toNat)

def shAmt (b : Word64) : Nat := b.toNat % 64

/-- Leading zero bits of an n-bit value. -/
def clzN (n : Nat) (x : Nat) : Nat := if x = 0 then n else n - 1 - x.log2

/-- Trailing zero bits of a 64-bit value. -/
def ctz64 (x : Nat) : Nat := (lowBitFrom 64 0 x).getD 64

/-- Bit i to bit 63 - i. -/
def brev64 (x : Word64) : Word64 := x.reverse

/-- Byte i to byte 7 - i. -/
def bswap64 (x : Word64) : Word64 := pack 8 (fun e => sub 8 x (7 - e))

/-- Bit-field extract and insert on n bits: len1 is LEN - 1 (R295, R318). -/
def bfxZ (n : Nat) (a : BitVec n) (pos len1 : Nat) : BitVec n := BitVec.ofNat n (a.toNat / 2 ^ pos % 2 ^ (len1 + 1))
def bfxS (n : Nat) (a : BitVec n) (pos len1 : Nat) : BitVec n := (a.extractLsb' pos (len1 + 1)).signExtend n
def bfi (n : Nat) (d a : BitVec n) (pos len1 : Nat) : BitVec n :=
  let m := BitVec.ofNat n ((2 ^ (len1 + 1) - 1) * 2 ^ pos)
  (d &&& ~~~m) ||| ((a <<< pos) &&& m)

/-! ### OP7 0x01 -/

def execSadd (d a : SReg) (b : SOpd) (s : State) : Out := scalarOut d (rS s a + sopd s b) s
def execSsub (d a : SReg) (b : SOpd) (s : State) : Out := scalarOut d (rS s a - sopd s b) s
def execSmul (d a : SReg) (b : SOpd) (s : State) : Out := scalarOut d (rS s a * sopd s b) s
def execSmulhS (d a : SReg) (b : SOpd) (s : State) : Out := scalarOut d (mulhS (rS s a) (sopd s b)) s
def execSmulhZ (d a : SReg) (b : SOpd) (s : State) : Out := scalarOut d (mulhZ (rS s a) (sopd s b)) s
def execSdivS (d a : SReg) (b : SOpd) (s : State) : Out := scalarOut d (divS (rS s a) (sopd s b)) s
def execSdivZ (d a : SReg) (b : SOpd) (s : State) : Out := scalarOut d (divZ (rS s a) (sopd s b)) s
def execSremS (d a : SReg) (b : SOpd) (s : State) : Out := scalarOut d (remS (rS s a) (sopd s b)) s
def execSremZ (d a : SReg) (b : SOpd) (s : State) : Out := scalarOut d (remZ (rS s a) (sopd s b)) s
def execSand (d a : SReg) (b : SOpd) (s : State) : Out := scalarOut d (rS s a &&& sopd s b) s
def execSor (d a : SReg) (b : SOpd) (s : State) : Out := scalarOut d (rS s a ||| sopd s b) s
def execSxor (d a : SReg) (b : SOpd) (s : State) : Out := scalarOut d (rS s a ^^^ sopd s b) s
def execSandn (d a : SReg) (b : SOpd) (s : State) : Out := scalarOut d (rS s a &&& ~~~sopd s b) s
def execSshl (d a : SReg) (b : SOpd) (s : State) : Out := scalarOut d (rS s a <<< shAmt (sopd s b)) s
def execSshr (d a : SReg) (b : SOpd) (s : State) : Out := scalarOut d (rS s a >>> shAmt (sopd s b)) s
def execSsra (d a : SReg) (b : SOpd) (s : State) : Out := scalarOut d ((rS s a).sshiftRight (shAmt (sopd s b))) s
def execSrol (d a : SReg) (b : SOpd) (s : State) : Out := scalarOut d ((rS s a).rotateLeft (shAmt (sopd s b))) s
def execSminS (d a : SReg) (b : SOpd) (s : State) : Out :=
  scalarOut d (if (rS s a).sle (sopd s b) then rS s a else sopd s b) s
def execSminZ (d a : SReg) (b : SOpd) (s : State) : Out :=
  scalarOut d (if (rS s a).ule (sopd s b) then rS s a else sopd s b) s
def execSmaxS (d a : SReg) (b : SOpd) (s : State) : Out :=
  scalarOut d (if (rS s a).sle (sopd s b) then sopd s b else rS s a) s
def execSmaxZ (d a : SReg) (b : SOpd) (s : State) : Out :=
  scalarOut d (if (rS s a).ule (sopd s b) then sopd s b else rS s a) s
def execSclz (d a : SReg) (s : State) : Out := scalarOut d (w64 (clzN 64 (rS s a).toNat)) s
def execSctz (d a : SReg) (s : State) : Out := scalarOut d (w64 (ctz64 (rS s a).toNat)) s
def execSpopc (d a : SReg) (s : State) : Out := scalarOut d (w64 (popcount 64 (rS s a).toNat)) s
def execSbrev (d a : SReg) (s : State) : Out := scalarOut d (brev64 (rS s a)) s
def execSbswap (d a : SReg) (s : State) : Out := scalarOut d (bswap64 (rS s a)) s
def execSmov (d a : SReg) (s : State) : Out := scalarOut d (rS s a) s
def execSbfxS (d a : SReg) (pos len1 : BitVec 6) (s : State) : Out :=
  scalarOut d (bfxS 64 (rS s a) pos.toNat len1.toNat) s
def execSbfxZ (d a : SReg) (pos len1 : BitVec 6) (s : State) : Out :=
  scalarOut d (bfxZ 64 (rS s a) pos.toNat len1.toNat) s
def execSbfi (d a : SReg) (pos len1 : BitVec 6) (s : State) : Out :=
  scalarOut d (bfi 64 (rS s d) (rS s a) pos.toNat len1.toNat) s

/-! ### OP7 0x02 (R297) -/

def boolW (b : Bool) : Word64 := if b then 1 else 0

def execScmpEq (d a : SReg) (b : SOpd) (s : State) : Out := scalarOut d (boolW (rS s a == sopd s b)) s
def execScmpNe (d a : SReg) (b : SOpd) (s : State) : Out := scalarOut d (boolW (rS s a != sopd s b)) s
def execScmpLt (d a : SReg) (b : SOpd) (s : State) : Out := scalarOut d (boolW ((rS s a).slt (sopd s b))) s
def execScmpLe (d a : SReg) (b : SOpd) (s : State) : Out := scalarOut d (boolW ((rS s a).sle (sopd s b))) s
def execScmpLtz (d a : SReg) (b : SOpd) (s : State) : Out := scalarOut d (boolW ((rS s a).ult (sopd s b))) s
def execScmpLez (d a : SReg) (b : SOpd) (s : State) : Out := scalarOut d (boolW ((rS s a).ule (sopd s b))) s
def execSsel (d a : SReg) (b : SOpd) (s : State) : Out :=
  scalarOut d (if rS s d ≠ 0 then rS s a else sopd s b) s

/-! ### OP7 0x03 to 0x0A, 0x0D (R275, R280, R296) -/

def execSaddImm (d a : SReg) (i : SImm) (s : State) : Out := scalarOut d (rS s a + simm true i) s
def execSandImm (d a : SReg) (i : SImm) (s : State) : Out := scalarOut d (rS s a &&& simm false i) s
def execSorImm (d a : SReg) (i : SImm) (s : State) : Out := scalarOut d (rS s a ||| simm false i) s
def execSxorImm (d a : SReg) (i : SImm) (s : State) : Out := scalarOut d (rS s a ^^^ simm false i) s
def execSshlImm (d a : SReg) (i : SImm) (s : State) : Out := scalarOut d (rS s a <<< shAmt (simm false i)) s
def execSshrImm (d a : SReg) (i : SImm) (s : State) : Out := scalarOut d (rS s a >>> shAmt (simm false i)) s
def execSsraImm (d a : SReg) (i : SImm) (s : State) : Out :=
  scalarOut d ((rS s a).sshiftRight (shAmt (simm false i))) s
def execSli (d : SReg) (i : SImm) (s : State) : Out := scalarOut d (simm true i) s
def execSadr (d : SReg) (o : POff) (s : State) : Out := scalarOut d (vaOf s.g.pc + poff o) s

/-! ### OP7 0x0B, 0x0E, 0x0F (R298 to R301) -/

/-- The low bits of a register as an operand of a float type (R291). -/
def fopd (t : FTy) (v : Word64) : Nat := v.toNat % 2 ^ ftyW t

def execSfaddCode (t : FTy) (d a : SReg) (c : BitVec 8) (s : State) : Out :=
  scalarF d (fAdd (fmtOf t) .rne (fopd t (rS s a)) (codeVal t c)) s
def execSfmulCode (t : FTy) (d a : SReg) (c : BitVec 8) (s : State) : Out :=
  scalarF d (fMul (fmtOf t) .rne (fopd t (rS s a)) (codeVal t c)) s
def execSfadd (t : FTy) (r : Rnd) (d a : SReg) (b : SOpd) (s : State) : Out :=
  scalarF d (fAdd (fmtOf t) r (fopd t (rS s a)) (fopd t (sopd s b))) s
def execSfsub (t : FTy) (r : Rnd) (d a : SReg) (b : SOpd) (s : State) : Out :=
  scalarF d (fSub (fmtOf t) r (fopd t (rS s a)) (fopd t (sopd s b))) s
def execSfmul (t : FTy) (r : Rnd) (d a : SReg) (b : SOpd) (s : State) : Out :=
  scalarF d (fMul (fmtOf t) r (fopd t (rS s a)) (fopd t (sopd s b))) s
def execSfdiv (t : FTy) (r : Rnd) (d a : SReg) (b : SOpd) (s : State) : Out :=
  scalarF d (fDiv (fmtOf t) r (fopd t (rS s a)) (fopd t (sopd s b))) s
def execSfsqrt (t : FTy) (r : Rnd) (d a : SReg) (s : State) : Out :=
  scalarF d (fSqrt (fmtOf t) r (fopd t (rS s a))) s
def execSfma (t : FTy) (r : Rnd) (d a : SReg) (b : SOpd) (c : SReg) (s : State) : Out :=
  scalarF d (fFma (fmtOf t) r false false (fopd t (rS s a)) (fopd t (sopd s b)) (fopd t (rS s c))) s

/-- An integer destination is extended to 64 bits by its type (R300). -/
def extTy (t : Ty5) (x : Nat) : Word64 :=
  if Ty5sgn t then (BitVec.ofNat t.width x).signExtend 64 else BitVec.ofNat 64 (x % 2 ^ t.width)

def execSfcvt (dst src : Ty5) (r : Rnd) (d a : SReg) (s : State) : Out :=
  let x := cvt dst false r (tyVal src ((rS s a).toNat % 2 ^ src.width))
  .next (retireS (orFlags (wS s d (extTy dst x.1)) x.2))

def execSfcmp (c : BitVec 3) (t : FTy) (d a : SReg) (b : SOpd) (s : State) : Out :=
  let x := fCmp (fmtOf t) c (fopd t (rS s a)) (fopd t (sopd s b))
  .next (retireS (orFlags (wS s d (boolW x.1)) x.2))

end Sys2Proof.Machine
end

