-- ==== Sys2Proof/Machine/Transc.lean ====
section
/-! DEFINITION. The correctly rounded functions 2^x, log2, sin(πx), cos(πx) and tanh (R257, R258). Exact cases come
first; every other value is irrational and is computed to some 300 bits, far past the places that decide a rounding of
an f32, f16 or bf16 operand, and rounds once with a sticky rest (DEDUCED, log 2). -/
namespace Sys2Proof.Machine

/-- Fraction bits of the fixed-point numbers here. -/
def fxP : Nat := 320
/-- ln 2 in fixed point, rounded down. -/
def fxLn2 : Nat := 0xb17217f7d1cf79abc9e3b39803f2f6af40f343267298b62d8a0d175b8baafa2be7b876206debac98
/-- π in fixed point, rounded down. -/
def fxPi : Nat := 0x3243f6a8885a308d313198a2e03707344a4093822299f31d0082efa98ec4e6c89452821e638d01377

def fxMul (a b : Nat) : Nat := a * b / 2 ^ fxP

/-- Σ y^k / k! from the term t of index k on. -/
def fxExpFrom (y : Nat) : Nat → Nat → Nat → Nat
  | 0, _, _ => 0
  | n + 1, k, t => t + fxExpFrom y n (k + 1) (fxMul t y / (k + 1))

/-- e^y for 0 ≤ y < 1. -/
def fxExp (y : Nat) : Nat := fxExpFrom y 80 0 (2 ^ fxP)

/-- Σ z^(2k+1) / (2k+1) from the power t of index k on; z2 is z². -/
def fxAtanhFrom (z2 : Nat) : Nat → Nat → Nat → Nat
  | 0, _, _ => 0
  | n + 1, k, t => t / (2 * k + 1) + fxAtanhFrom z2 n (k + 1) (fxMul t z2)

/-- ln y for 1 ≤ y < 2. -/
def fxLn (y : Nat) : Nat :=
  let z := (y - 2 ^ fxP) * 2 ^ fxP / (y + 2 ^ fxP)
  2 * fxAtanhFrom (fxMul z z) 110 0 z

/-- The sine series from the term t of index k on, alternating. -/
def fxSinFrom (x2 : Nat) : Nat → Nat → Nat → Int
  | 0, _, _ => 0
  | n + 1, k, t => (t : Int) - fxSinFrom x2 n (k + 1) (fxMul t x2 / ((2 * k + 2) * (2 * k + 3)))

/-- sin(π q) for 0 < q ≤ 1/2. -/
def fxSinPi (q : Nat) : Nat :=
  let x := fxMul q fxPi
  (fxSinFrom (fxMul x x) 60 0 x).toNat

/-- An irrational value given to within a few units of the last of fxP fraction bits, times 2^n. -/
def fxRound (f : FFmt) (mode : Rnd) (s : Bool) (a : Nat) (n : Int) : Nat × FFlags :=
  fRound f mode s (a / 256) (n - fxP + 8) true

/-- m * 2^e in fixed point; e is at least -fxP for every operand of these functions. -/
def fxOf (m : Nat) (e : Int) : Nat := m * 2 ^ (e + fxP).toNat

def fExp2 (f : FFmt) (mode : Rnd) (a : Nat) : Nat × FFlags :=
  match fUnpack f a with
  | .nan s g => (fNan f s, flagIf g flagIV)
  | .inf s => if s then (fZero f false, 0) else (fInf f false, 0)
  | .fin s m e =>
    if m = 0 then fRound f mode false 1 0 false
    else if (m.log2 : Int) + e > 10 then fRound f mode false 1 (if s then -3000 else 3000) true
    else
      let x : Int := (if s then -1 else 1) * (fxOf m e : Int)
      let n := x / ((2 ^ fxP : Nat) : Int)
      let r := (x % ((2 ^ fxP : Nat) : Int)).toNat
      if r = 0 then fRound f mode false 1 n false else fxRound f mode false (fxExp (fxMul r fxLn2)) n

def fLog2 (f : FFmt) (mode : Rnd) (a : Nat) : Nat × FFlags :=
  match fUnpack f a with
  | .nan s g => (fNan f s, flagIf g flagIV)
  | .inf s => if s then (fNan f false, flagIV) else (fInf f false, 0)
  | .fin s m e =>
    if m = 0 then (fInf f true, flagDZ)
    else if s then (fNan f false, flagIV)
    else
      let l := m.log2
      let n : Int := (l : Int) + e
      if m = 2 ^ l then fRound f mode (decide (n < 0)) n.natAbs 0 false
      else
        let w := fxLn (m * 2 ^ (fxP - l)) * 2 ^ fxP / fxLn2
        let t := n * ((2 ^ fxP : Nat) : Int) + w
        fxRound f mode (decide (t < 0)) t.natAbs 0

/-- sin(π x / 2^fxP): +0 at integers but for the sign the caller gives, ±1 halfway, else irrational (R258). -/
def fSinPiFx (f : FFmt) (mode : Rnd) (x : Int) (zs : Bool) : Nat × FFlags :=
  let one := 2 ^ fxP
  let r := (x % ((2 * one : Nat) : Int)).toNat
  let sg := decide (r ≥ one)
  let r := if r ≥ one then r - one else r
  let q := if 2 * r ≤ one then r else one - r
  if q = 0 then (fZero f zs, 0)
  else if 2 * q = one then fRound f mode sg 1 0 false
  else fxRound f mode sg (fxSinPi q) 0

def fSinPi (f : FFmt) (mode : Rnd) (a : Nat) : Nat × FFlags :=
  match fUnpack f a with
  | .nan s g => (fNan f s, flagIf g flagIV)
  | .inf _ => (fNan f false, flagIV)
  | .fin s m e => if m = 0 then (fZero f s, 0) else fSinPiFx f mode ((if s then -1 else 1) * (fxOf m e : Int)) s

def fCosPi (f : FFmt) (mode : Rnd) (a : Nat) : Nat × FFlags :=
  match fUnpack f a with
  | .nan s g => (fNan f s, flagIf g flagIV)
  | .inf _ => (fNan f false, flagIV)
  | .fin s m e =>
    fSinPiFx f mode ((if s then -1 else 1) * (fxOf m e : Int) + ((2 ^ (fxP - 1) : Nat) : Int)) false

def fTanh (f : FFmt) (mode : Rnd) (a : Nat) : Nat × FFlags :=
  match fUnpack f a with
  | .nan s g => (fNan f s, flagIf g flagIV)
  | .inf s => fRound f mode s 1 0 false
  | .fin s m e =>
    if m = 0 then (fZero f s, 0)
    else if (m.log2 : Int) + e > 6 then fxRound f mode s (2 ^ fxP - 1) 0
    -- x - tanh x is below x³/3, less than one unit in the 40th place under m
    else if (m.log2 : Int) + e < -36 then fRound f mode s (m * 2 ^ 40 - 1) (e - 40) true
    else
      let y := 2 * fxOf m e
      let n := y / fxLn2
      let g := fxExp (y % fxLn2) * 2 ^ n
      fxRound f mode s ((g - 2 ^ fxP) * 2 ^ fxP / (g + 2 ^ fxP)) 0

end Sys2Proof.Machine
end

