-- ==== Sys2Proof/Machine/VecFloat.lean ====
section
/-! DEFINITION. Vector float instructions, OP7 0x30 to 0x3F (R321 to R332). -/
namespace Sys2Proof.Machine

/-- Sub-element e of a lane as a number. -/
def subN (n : Nat) (x : Word64) (e : Nat) : Nat := (sub n x e).toNat

def vflt2 (t : FTy) (o : VBin) (f : FFmt → Nat → Nat → Nat × FFlags) (s : State) : Out :=
  vecOutF (o.d :: o.a :: vopdRegs o.b) o.d o.k
    (fun l => subsF (ftyW t) (fun e => f (fmtOf t) (subN (ftyW t) (rV s o.a l) e) (subN (ftyW t) (vopdF s t o.b l) e))) s

def vflt1 (t : FTy) (o : VUn) (f : FFmt → Nat → Nat × FFlags) (s : State) : Out :=
  vecOutF [o.d, o.a] o.d o.k (fun l => subsF (ftyW t) (fun e => f (fmtOf t) (subN (ftyW t) (rV s o.a l) e))) s

/-- The fused forms: np negates the product, nc the addend (R321). -/
def vfused (np nc : Bool) (t : FTy) (r : Rnd) (o : VBin) (c : VReg) (s : State) : Out :=
  vecOutF (o.d :: o.a :: c :: vopdRegs o.b) o.d o.k
    (fun l => subsF (ftyW t) (fun e => fFma (fmtOf t) r np nc (subN (ftyW t) (rV s o.a l) e)
      (subN (ftyW t) (vopdF s t o.b l) e) (subN (ftyW t) (rV s c l) e))) s

def execVfadd (t : FTy) (r : Rnd) (o : VBin) (s : State) : Out := vflt2 t o (fun f => fAdd f r) s
def execVfsub (t : FTy) (r : Rnd) (o : VBin) (s : State) : Out := vflt2 t o (fun f => fSub f r) s
def execVfmul (t : FTy) (r : Rnd) (o : VBin) (s : State) : Out := vflt2 t o (fun f => fMul f r) s
def execVfdiv (t : FTy) (r : Rnd) (o : VBin) (s : State) : Out := vflt2 t o (fun f => fDiv f r) s
def execVfma (t : FTy) (r : Rnd) (o : VBin) (c : VReg) (s : State) : Out := vfused false false t r o c s
def execVfms (t : FTy) (r : Rnd) (o : VBin) (c : VReg) (s : State) : Out := vfused false true t r o c s
def execVfnma (t : FTy) (r : Rnd) (o : VBin) (c : VReg) (s : State) : Out := vfused true true t r o c s
def execVfnms (t : FTy) (r : Rnd) (o : VBin) (c : VReg) (s : State) : Out := vfused true false t r o c s
def execVfmin (t : FTy) (o : VBin) (s : State) : Out := vflt2 t o (fun f => fMinMax f false false) s
def execVfmax (t : FTy) (o : VBin) (s : State) : Out := vflt2 t o (fun f => fMinMax f true false) s
def execVfminnum (t : FTy) (o : VBin) (s : State) : Out := vflt2 t o (fun f => fMinMax f false true) s
def execVfmaxnum (t : FTy) (o : VBin) (s : State) : Out := vflt2 t o (fun f => fMinMax f true true) s
def execVfcpys (t : FTy) (o : VBin) (s : State) : Out :=
  vflt2 t o (fun f a b => (fSetSign f a (b.testBit (f.eb + f.fb)), 0)) s

def execVfcmp (c : BitVec 3) (t : FTy) (kd : KReg) (a : VReg) (b : VOpd) (k : KReg) (s : State) : Out :=
  cmpOut (a :: vopdRegs b) kd k
    (fun l => (List.range (64 / ftyW t)).foldl (fun (x : Bool × FFlags) e =>
      let y := fCmp (fmtOf t) c (subN (ftyW t) (rV s a l) e) (subN (ftyW t) (vopdF s t b l) e)
      (x.1 && y.1, x.2 ||| y.2)) (true, 0)) s

def execVfabs (t : FTy) (o : VUn) (s : State) : Out := vflt1 t o (fun f a => (fSetSign f a false, 0)) s
def execVfneg (t : FTy) (o : VUn) (s : State) : Out :=
  vflt1 t o (fun f a => (fSetSign f a (!a.testBit (f.eb + f.fb)), 0)) s
def execVfsqrt (t : FTy) (r : Rnd) (o : VUn) (s : State) : Out := vflt1 t o (fun f => fSqrt f r) s
def execVfrcp (t : FTy) (r : Rnd) (o : VUn) (s : State) : Out := vflt1 t o (fun f => fRcp f r) s
def execVfrsq (t : FTy) (r : Rnd) (o : VUn) (s : State) : Out := vflt1 t o (fun f => fRsq f r) s
def execVfexp2 (t : FTy) (r : Rnd) (o : VUn) (s : State) : Out := vflt1 t o (fun f => fExp2 f r) s
def execVflog2 (t : FTy) (r : Rnd) (o : VUn) (s : State) : Out := vflt1 t o (fun f => fLog2 f r) s
def execVfsinpi (t : FTy) (r : Rnd) (o : VUn) (s : State) : Out := vflt1 t o (fun f => fSinPi f r) s
def execVfcospi (t : FTy) (r : Rnd) (o : VUn) (s : State) : Out := vflt1 t o (fun f => fCosPi f r) s
def execVftanh (t : FTy) (r : Rnd) (o : VUn) (s : State) : Out := vflt1 t o (fun f => fTanh f r) s
def execVfrnd (t : FTy) (r : Rnd) (o : VUn) (s : State) : Out := vflt1 t o (fun f => fRndInt f r) s
def execVfclass (t : FTy) (o : VUn) (s : State) : Out := vflt1 t o (fun f a => (fClass f a, 0)) s

/-! ### vfcvt, vfdot2, vfscale (R327 to R332) -/

/-- Byte b of a scale register: block b has its scale in lane b / 8, byte b mod 8 (R245). -/
def scaleByte (s : State) (sc : VReg) (b : Nat) : Nat := subN 8 (rV s sc (b / 8)) (b % 8)

/-- The block of N4 element j under Q and SEG (R330). -/
def n4Block (q seg : BitVec 2) (j : Nat) : Nat := 64 * q.toNat + 16 * seg.toNat + j / 32

/-- One converted element: x is the source element, j the number of the N4 element on either side. -/
def cvtElem (dst src : Ty5) (nsat : Bool) (r : Rnd) (x scale : Nat) : Nat × FFlags :=
  if dst = .n4 then n4Enc r scale (tyVal src x)
  else if src = .n4 then cvt dst false r (n4Val x scale)
  else cvt dst nsat r (tyVal src x)

/-- A lane of vfcvt (R328): narrowing fills part PART of the old destination lane, widening reads part PART. -/
def cvtLane (dst src : Ty5) (nsat : Bool) (r : Rnd) (part : Nat) (sc : Nat → Nat) (l : Nat) (a d : Word64) :
    Word64 × FFlags :=
  let ws := src.width
  let wd := dst.width
  let ns := 64 / ws
  let nd := 64 / wd
  if wd < ws then
    (List.range ns).foldl (fun (x : Word64 × FFlags) e =>
      let j := part * ns + e
      let y := cvtElem dst src nsat r (subN ws a e) (sc (l * nd + j))
      (pack wd (fun i => if i = j then BitVec.ofNat wd y.1 else sub wd x.1 i), x.2 ||| y.2)) (d, 0)
  else
    subsF wd (fun e => cvtElem dst src nsat r (subN ws a (part * nd + e)) (sc (l * ns + part * nd + e)))

/-- Whether an acting element of a conversion to N4 has a scale byte with E = 63. -/
def cvtBadScale (dst src : Ty5) (act : Word32) (part : Nat) (sc : Nat → Nat) : Bool :=
  dst == .n4 && (lanesOf act).any (fun l =>
    (List.range (64 / src.width)).any (fun e => sc (l * 16 + part * (64 / src.width) + e) % 64 == 63))

def execVfcvt (dst src : Ty5) (nsat : Bool) (r : Rnd) (o : VUn) (part : BitVec 4) (q seg : BitVec 2) (sc : VReg)
    (s : State) : Out :=
  let scf := fun j => scaleByte s sc (n4Block q seg j)
  let regs := if dst = .n4 ∨ src = .n4 then [o.d, o.a, sc] else [o.d, o.a]
  match vregFault s.g regs with
  | some c => .next (raiseI c s)
  | none =>
    if cvtBadScale dst src (actOf s o.k) part.toNat scf then .next (raiseI fILLOP s)
    else .next (vecDoneF o.d o.k (fun l => cvtLane dst src nsat r part.toNat scf l (rV s o.a l) (rV s o.d l)) s)

/-- The result format of vfdot2 (R331). -/
def dotFmt (t : FTy) : FFmt := if t = .f32 then fmt64 else fmt32

def execVfdot2 (t : FTy) (r : Rnd) (o : VBin) (c : VReg) (s : State) : Out :=
  let w := ftyW t
  vecOutF (o.d :: o.a :: c :: vopdRegs o.b) o.d o.k
    (fun l => subsF (2 * w) (fun e =>
      let a := rV s o.a l
      let b := vopdF s t o.b l
      fDot2 (fmtOf t) (dotFmt t) r (subN w a (2 * e)) (subN w a (2 * e + 1)) (subN w b (2 * e)) (subN w b (2 * e + 1))
        (subN (2 * w) (rV s c l) e))) s

def execVfscale (t : FTy) (r : Rnd) (o : VBin) (s : State) : Out :=
  vecOutF (o.d :: o.a :: vopdRegs o.b) o.d o.k
    (fun l => subsF (ftyW t) (fun e =>
      fScale (fmtOf t) r (subN (ftyW t) (rV s o.a l) e) (sub (ftyW t) (vopdF s t o.b l) e).toInt)) s

end Sys2Proof.Machine
end

