-- ==== Sys2Proof/Machine/VecInt.lean ====
section
/-! DEFINITION. Vector integer instructions, OP7 0x18 to 0x2F (R311 to R320). -/
namespace Sys2Proof.Machine

/-- A binary integer vector instruction with sub-element function f; sx says how a 64-bit imm32 is extended (R314). -/
def vint2 (sx : Bool) (w : IW) (o : VBin) (f : BitVec w.width → BitVec w.width → BitVec w.width) (s : State) : Out :=
  vecOut (o.d :: o.a :: vopdRegs o.b) o.d o.k (fun l => subs2 w.width f (rV s o.a l) (vopdI s sx w o.b l)) s

/-- A unary one. -/
def vint1 (w : IW) (o : VUn) (f : BitVec w.width → BitVec w.width) (s : State) : Out :=
  vecOut [o.d, o.a] o.d o.k (fun l => subs1 w.width f (rV s o.a l)) s

/-- A whole-lane binary one. -/
def vlane2 (o : VBin) (f : Word64 → Word64 → Word64) (s : State) : Out :=
  vecOut (o.d :: o.a :: vopdRegs o.b) o.d o.k (fun l => f (rV s o.a l) (vopdI s false .w64 o.b l)) s

def vlane1 (o : VUn) (f : Word64 → Word64) (s : State) : Out :=
  vecOut [o.d, o.a] o.d o.k (fun l => f (rV s o.a l)) s

/-! ### Sub-element functions (R315, R316) -/

/-- An exact result clamped to the signed range of n bits. -/
def satS (n : Nat) (x : Int) : BitVec n :=
  let hi : Int := (2 ^ (n - 1) : Nat) - 1
  let lo : Int := -((2 ^ (n - 1) : Nat) : Int)
  BitVec.ofInt n (if x > hi then hi else if x < lo then lo else x)

/-- An exact result clamped to the unsigned range. -/
def satZ (n : Nat) (x : Int) : BitVec n :=
  let hi : Int := (2 ^ n : Nat) - 1
  BitVec.ofInt n (if x > hi then hi else if x < 0 then 0 else x)

/-- The high half of the exact product. -/
def vmulhS_ (n : Nat) (a b : BitVec n) : BitVec n := BitVec.ofInt n (a.toInt * b.toInt / 2 ^ n)
def vmulhZ_ (n : Nat) (a b : BitVec n) : BitVec n := BitVec.ofNat n (a.toNat * b.toNat / 2 ^ n)

/-- A shift amount: the sub-element modulo the width. -/
def shN (n : Nat) (b : BitVec n) : Nat := b.toNat % n

/-- The conditions of vcmp (R282). -/
def cmpI (c : BitVec 3) (n : Nat) (a b : BitVec n) : Bool :=
  match c.toNat with
  | 0 => a == b
  | 1 => a != b
  | 2 => a.slt b
  | 3 => a.sle b
  | 4 => a.ult b
  | _ => a.ule b

/-! ### OP7 0x18 to 0x2C -/

def execVadd (w : IW) (o : VBin) (s : State) : Out := vint2 true w o (fun a b => a + b) s
def execVsub (w : IW) (o : VBin) (s : State) : Out := vint2 true w o (fun a b => a - b) s
def execVaddsS (w : IW) (o : VBin) (s : State) : Out :=
  vint2 true w o (fun a b => satS w.width (a.toInt + b.toInt)) s
def execVaddsZ (w : IW) (o : VBin) (s : State) : Out :=
  vint2 false w o (fun a b => satZ w.width ((a.toNat : Int) + b.toNat)) s
def execVsubsS (w : IW) (o : VBin) (s : State) : Out :=
  vint2 true w o (fun a b => satS w.width (a.toInt - b.toInt)) s
def execVsubsZ (w : IW) (o : VBin) (s : State) : Out :=
  vint2 false w o (fun a b => satZ w.width ((a.toNat : Int) - b.toNat)) s
def execVmul (w : IW) (o : VBin) (s : State) : Out := vint2 true w o (fun a b => a * b) s
def execVmulhS (w : IW) (o : VBin) (s : State) : Out := vint2 true w o (vmulhS_ w.width) s
def execVmulhZ (w : IW) (o : VBin) (s : State) : Out := vint2 false w o (vmulhZ_ w.width) s
def execVmad (w : IW) (o : VBin) (c : VReg) (s : State) : Out :=
  vecOut (o.d :: o.a :: c :: vopdRegs o.b) o.d o.k
    (fun l => subs3 w.width (fun a b c => a * b + c) (rV s o.a l) (vopdI s true w o.b l) (rV s c l)) s
def execVand (o : VBin) (s : State) : Out := vlane2 o (fun a b => a &&& b) s
def execVor (o : VBin) (s : State) : Out := vlane2 o (fun a b => a ||| b) s
def execVxor (o : VBin) (s : State) : Out := vlane2 o (fun a b => a ^^^ b) s
def execVandn (o : VBin) (s : State) : Out := vlane2 o (fun a b => a &&& ~~~b) s
def execVshl (w : IW) (o : VBin) (s : State) : Out := vint2 false w o (fun a b => a <<< shN w.width b) s
def execVshr (w : IW) (o : VBin) (s : State) : Out := vint2 false w o (fun a b => a >>> shN w.width b) s
def execVsra (w : IW) (o : VBin) (s : State) : Out := vint2 false w o (fun a b => a.sshiftRight (shN w.width b)) s
def execVminS (w : IW) (o : VBin) (s : State) : Out := vint2 true w o (fun a b => if a.sle b then a else b) s
def execVminZ (w : IW) (o : VBin) (s : State) : Out := vint2 false w o (fun a b => if a.ule b then a else b) s
def execVmaxS (w : IW) (o : VBin) (s : State) : Out := vint2 true w o (fun a b => if a.sle b then b else a) s
def execVmaxZ (w : IW) (o : VBin) (s : State) : Out := vint2 false w o (fun a b => if a.ule b then b else a) s

/-! ### OP7 0x2D (R319) -/

def execVcmp (c : BitVec 3) (w : IW) (kd : KReg) (a : VReg) (b : VOpd) (k : KReg) (s : State) : Out :=
  cmpOut (a :: vopdRegs b) kd k
    (fun l => (subsAll w.width (cmpI c w.width) (rV s a l) (vopdI s (decide (c.toNat < 4)) w b l), 0)) s

/-! ### OP7 0x2E (R317, R318) -/

def execVnot (o : VUn) (s : State) : Out := vlane1 o (fun a => ~~~a) s
def execVabs (w : IW) (o : VUn) (s : State) : Out := vint1 w o (fun a => if a.slt 0 then -a else a) s
def execVneg (w : IW) (o : VUn) (s : State) : Out := vint1 w o (fun a => -a) s
def execVclz (w : IW) (o : VUn) (s : State) : Out :=
  vint1 w o (fun a => BitVec.ofNat w.width (clzN w.width a.toNat)) s
def execVpopc (w : IW) (o : VUn) (s : State) : Out :=
  vint1 w o (fun a => BitVec.ofNat w.width (popcount w.width a.toNat)) s
def execVmov (o : VUn) (s : State) : Out := vlane1 o (fun a => a) s
def execViota (w : IW) (d : VReg) (k : KReg) (s : State) : Out :=
  vecOut [d] d k (fun l => pack w.width (fun e => BitVec.ofNat w.width (l * (64 / w.width) + e))) s

/-- The value of vli: an immediate extended by the type's signedness or replicated, or a literal (R317). -/
def vliVal : VLiVal → Word64
  | .lit v => v
  | .imm t v =>
    if t.isF || t.isF8 then splat t.width (BitVec.ofNat t.width (immF t v))
    else if t.width = 64 then (if Ty5sgn t then v.signExtend 64 else v.zeroExtend 64)
    else splat t.width (v.truncate t.width)

def execVli (d : VReg) (v : VLiVal) (k : KReg) (s : State) : Out := vecOut [d] d k (fun _ => vliVal v) s
def execVbfxS (w : IW) (o : VUn) (pos len1 : BitVec 6) (s : State) : Out :=
  vint1 w o (fun a => bfxS w.width a pos.toNat len1.toNat) s
def execVbfxZ (w : IW) (o : VUn) (pos len1 : BitVec 6) (s : State) : Out :=
  vint1 w o (fun a => bfxZ w.width a pos.toNat len1.toNat) s
def execVbfi (w : IW) (o : VUn) (pos len1 : BitVec 6) (s : State) : Out :=
  vecOut [o.d, o.a] o.d o.k
    (fun l => subs2 w.width (fun d a => bfi w.width d a pos.toNat len1.toNat) (rV s o.d l) (rV s o.a l)) s

/-! ### OP7 0x2F (R320) -/

def execVsel (o : VBin) (c : VReg) (s : State) : Out :=
  vecOut (o.d :: o.a :: c :: vopdRegs o.b) o.d o.k
    (fun l => (rV s o.a l &&& rV s c l) ||| (vopdI s false .w64 o.b l &&& ~~~rV s c l)) s

end Sys2Proof.Machine
end

