-- ==== Sys2Proof/Machine/CrossLane.lean ====
section
/-! DEFINITION. Cross-lane instructions, OP7 0x40 to 0x4C (R334 to R351). -/
namespace Sys2Proof.Machine

/-! ### Elements and supplied values (R334) -/

/-- Element i of a register given lane by lane, n bits wide. -/
def elemOf (n : Nat) (x : Nat → Word64) (i : Nat) : Nat := subN n (x (i / (64 / n))) (i % (64 / n))

/-- The lane a register supplies: its value where live, else 0. -/
def supLane (s : State) (r : VReg) (l : Nat) : Word64 := if s.g.live.getLsbD l then rV s r l else 0

/-- The supplied value of element i. -/
def supElem (s : State) (n : Nat) (r : VReg) (i : Nat) : Nat := elemOf n (supLane s r) i

/-- Elements in a register. -/
def elems (n : Nat) : Nat := 32 * (64 / n)

/-- A lane built from element numbers. -/
def laneOfElems (n : Nat) (f : Nat → Nat) (l : Nat) : Word64 :=
  pack n (fun e => BitVec.ofNat n (f (l * (64 / n) + e)))

/-- An instruction of the class that writes element f i to element i. -/
def elemOut (rs : List VReg) (n : Nat) (d : VReg) (k : KReg) (f : Nat → Nat) (s : State) : Out :=
  vecOut rs d k (laneOfElems n f) s

/-- The sub-group size of SG (R337). -/
def groupOf (n : Nat) (sg : BitVec 4) : Nat := if sg = 0 then elems n else 2 ^ sg.toNat

/-! ### Shuffles and broadcast (R337, R341) -/

/-- The source of element i in a shuffle: mode 0 own, 1 wrap, 2 clamp. -/
def shufSrc (mode g i j : Nat) : Nat :=
  let base := i - i % g
  if j < g then base + j else if mode = 0 then i else if mode = 1 then base + j % g else base + g - 1

def shuffle (mode : Nat) (w : IW) (o : VTri) (sg : BitVec 4) (s : State) : Out :=
  elemOut [o.d, o.a, o.b] w.width o.d o.k
    (fun i => supElem s w.width o.a (shufSrc mode (groupOf w.width sg) i (elemOf w.width (rV s o.b) i))) s

def execVshfO (w : IW) (o : VTri) (sg : BitVec 4) (s : State) : Out := shuffle 0 w o sg s
def execVshfW (w : IW) (o : VTri) (sg : BitVec 4) (s : State) : Out := shuffle 1 w o sg s
def execVshfC (w : IW) (o : VTri) (sg : BitVec 4) (s : State) : Out := shuffle 2 w o sg s

def execVbcast (w : IW) (o : VUn) (b : SReg) (sg : BitVec 4) (s : State) : Out :=
  let g := groupOf w.width sg
  elemOut [o.d, o.a] w.width o.d o.k (fun i => supElem s w.width o.a (i - i % g + (rS s b).toNat % g)) s

/-! ### Votes (R342) -/

/-- The ballot of the live lanes. -/
def ballot (s : State) (r : VReg) : Word32 := maskOf (fun l => s.g.live.getLsbD l && rV s r l != 0)

def execVvote (f : BitVec 2) (o : VUn) (s : State) : Out :=
  let b := ballot s o.a
  let v : Word64 := if f = 0 then boolW (b != 0) else if f = 1 then boolW (b == s.g.live) else b.zeroExtend 64
  vecOut [o.d, o.a] o.d o.k (fun _ => v) s

/-! ### Neighbour reads (R338 to R340) -/

/-- A register's supplied image, lane l at bits 64 l + 63 : 64 l. -/
def imageOf (s : State) (r : VReg) : BitVec 2048 :=
  (List.range 32).foldl (fun (a : BitVec 2048) l => a ||| ((supLane s r l).zeroExtend 2048 <<< (64 * l))) 0

def imageLane (x : BitVec 2048) (l : Nat) : Word64 := x.extractLsb' (64 * l) 64

/-- GIDX bits 4:0 of a group (R175). -/
def gidxOf (g : Group) : Nat := g.idn.gidx + (if g.idn.kind = .drone then 16 else 0)

/-- The part and GIDX that CHAINR names as predecessor or successor. -/
def chainNames (r : Word32) (succ : Bool) : Option (Nat × Nat) :=
  let x := r.toNat
  if succ then (if r.getLsbD 15 then some (x / 2 ^ 9 % 64, x / 2 ^ 4 % 32) else none)
  else (if r.getLsbD 31 then some (x / 2 ^ 25 % 64, x / 2 ^ 20 % 32) else none)

/-- The partner of a valid link (R339): the group named, if it names this one back and has not exited. -/
def linkOf (s : State) (succ : Bool) : Option Group :=
  match chainNames s.g.chainr succ with
  | none => none
  | some (p, i) =>
    match (allGroups s).find? (fun h => h.idn.team == s.g.idn.team && h.idn.part == p && gidxOf h == i && h.status != .gone) with
    | none => none
    | some h => if chainNames h.chainr (!succ) = some (s.g.idn.part, gidxOf s.g) then some h else none

/-- The element at distance D, or the number of the edge element beyond. -/
def nbrAt (n d i : Nat) (right : Bool) : Nat ⊕ Nat :=
  let m := elems n
  if right then (if i + d < m then .inl (i + d) else .inr (i + d - m))
  else (if d ≤ i then .inl (i - d) else .inr (i + m - d))

def nbrDone (n : Nat) (d : Nat) (right : Bool) (o : VUn) (edge : Nat → Nat) (s : State) : State :=
  vecDone o.d o.k (laneOfElems n (fun i => match nbrAt n d i right with
    | .inl k => supElem s n o.a k
    | .inr k => edge k)) s

def chRd (g : Group) (right : Bool) : Nat := if right then g.chRdR else g.chRdL
def chPo (g : Group) (right : Bool) : Nat := if right then g.chPoR else g.chPoL
def chReadDone (right : Bool) (s : State) : State :=
  { s with g := if right then { s.g with chRdR := s.g.chRdR + 1 } else { s.g with chRdL := s.g.chRdL + 1 } }

/-- The wait of a chained read: 1 ms. -/
def chWait (s : State) : State := timer (ticksOf 1000000) (.vnbr_timeout s.g.idn.gid) (block s)

/-- A group's posting for its direction, made once per read (R340): none while the reader has not taken the last one. The
wait for that and the wait for the partner's posting have 1 ms each. -/
def chPostNow (right : Bool) (a : VReg) (s : State) : Option State :=
  let k := chRd s.g right + 1
  if chPo s.g right ≥ k then some s
  else if (linkOf s (!right)).isSome
      && s.d.chain.any (fun p => p.src == s.g.idn.gid && p.right == right && p.k + 1 == k) then none
  else
    let post : ChainPost := { src := s.g.idn.gid, right := right, k := k, data := imageOf s a }
    let s := { s with d := { s.d with chain := s.d.chain ++ [post] } }
    some (wakeTeam s.g.idn.team
      { noTimer (.vnbr_timeout s.g.idn.gid) s with g := if right then { s.g with chPoR := k } else { s.g with chPoL := k } })

/-- A chained neighbour read. A wait whose link a write of CHAINR has made invalid ends as a read without a link. DESIGN CHOICE, log 48. -/
def chained (n d : Nat) (right : Bool) (o : VUn) (s : State) : State :=
  let tooLate := fun (s : State) => raiseI fXSHF { s with g := { s.g with timedOut := false } }
  match chPostNow right o.a s with
  | none => if s.g.timedOut then tooLate s else chWait s
  | some s =>
    match linkOf s right with
    | none => nbrDone n d right o (fun _ => 0) (noTimer (.vnbr_timeout s.g.idn.gid) (chReadDone right { s with g := { s.g with chz := true } }))
    | some h =>
      let k := chRd s.g right + 1
      match s.d.chain.find? (fun p => p.src == h.idn.gid && p.right == right && p.k == k) with
      | some p =>
        let s := { s with d := { s.d with chain := s.d.chain.filter (fun q => !(q.src == h.idn.gid && q.right == right && q.k ≤ k)) } }
        nbrDone n d right o (fun i => elemOf n (imageLane p.data) i)
          (noTimer (.vnbr_timeout s.g.idn.gid) (wakeTeam s.g.idn.team (chReadDone right s)))
      | none => if s.g.timedOut then tooLate s else chWait s

def execVnbr (f : BitVec 3) (w : IW) (o : VUn) (dist : BitVec 9) (s : State) : Out :=
  let n := w.width
  let d := if dist = 0 then 1 else dist.toNat
  let right := decide (f.toNat ≥ 3)
  checked (vregFault s.g [o.d, o.a]) s
    (match f.toNat % 3 with
     | 0 => nbrDone n d right o (fun _ => 0) s
     | 1 => nbrDone n d right o (supElem s n o.a) s
     | _ => chained n d right o s)

/-! ### Reductions and scans (R343 to R346) -/

/-- Element widths and formats of a reduction's function and ty2. -/
def redTy (t : BitVec 2) : FTy := match t.toNat with
  | 0 => .f64
  | 1 => .f32
  | 2 => .bf16
  | _ => .f16
def redIsF (f : BitVec 4) : Bool := f == 1 || f == 6 || f == 7 || f == 11
def redW (f : BitVec 4) (t : BitVec 2) : Nat :=
  if redIsF f then ftyW (redTy t) else match t.toNat with
    | 0 => 64
    | 1 => 32
    | 2 => 16
    | _ => 8

/-- x ⊕ y on n-bit elements (R343). -/
def redOp (f : BitVec 4) (t : BitVec 2) (r : Rnd) (x y : Nat) : Nat × FFlags :=
  let n := redW f t
  let bx := BitVec.ofNat n x
  let bY := BitVec.ofNat n y
  let ff := fmtOf (redTy t)
  match f.toNat with
  | 0 => ((bx + bY).toNat, 0)
  | 1 => fAdd ff r x y
  | 2 => ((if bx.sle bY then bx else bY).toNat, 0)
  | 3 => ((if bx.ule bY then bx else bY).toNat, 0)
  | 4 => ((if bx.sle bY then bY else bx).toNat, 0)
  | 5 => ((if bx.ule bY then bY else bx).toNat, 0)
  | 6 => fMinMax ff false false x y
  | 7 => fMinMax ff true false x y
  | 8 => ((bx &&& bY).toNat, 0)
  | 9 => ((bx ||| bY).toNat, 0)
  | _ => ((bx ^^^ bY).toNat, 0)

/-- The identity of a function. -/
def redId (f : BitVec 4) (t : BitVec 2) : Nat :=
  let n := redW f t
  let ff := fmtOf (redTy t)
  match f.toNat with
  | 1 => fZero ff true
  | 2 => 2 ^ (n - 1) - 1
  | 3 => 2 ^ n - 1
  | 4 => 2 ^ (n - 1)
  | 6 => fInf ff false
  | 7 => fInf ff true
  | 8 => 2 ^ n - 1
  | _ => 0

/-- The elements of the acting lanes, the identity elsewhere. -/
def redElems (s : State) (act : Word32) (n idv : Nat) (r : VReg) : List Nat :=
  (List.range (elems n)).map (fun i => if act.getLsbD (i / (64 / n)) then elemOf n (rV s r) i else idv)

/-- One level of the pairwise tree. -/
def pairUp {α : Type} (op : α → α → α × FFlags) : List α → List α × FFlags
  | x :: y :: t =>
    let r := pairUp op t
    let z := op x y
    (z.1 :: r.1, z.2 ||| r.2)
  | t => (t, 0)

/-- The tree, with fuel for its levels. -/
def treeRed {α : Type} (op : α → α → α × FFlags) : Nat → List α → FFlags → List α × FFlags
  | 0, xs, fl => (xs, fl)
  | n + 1, xs, fl =>
    let r := pairUp op xs
    treeRed op n r.1 (fl ||| r.2)

def execVred (f : BitVec 4) (t : BitVec 2) (r : Rnd) (o : VUn) (s : State) : Out :=
  let n := redW f t
  let act := actOf s o.k
  let x := treeRed (redOp f t r) (Nat.log2 (elems n)) (redElems s act n (redId f t) o.a) 0
  checked (vregFault s.g [o.d, o.a]) s
    (if act = 0 then retire 0 s
     else retire act (orFlags (wV s o.d act (laneOfElems n (fun _ => x.1.headD 0))) x.2))

/-- One step of a scan: y[i] := y[i - k] ⊕ y[i] for i ≥ k. -/
def scanStep {α : Type} (op : α → α → α × FFlags) (k : Nat) (ys : List α) : List α × FFlags :=
  let zs := List.zipWith op ys (ys.drop k)
  (ys.take k ++ zs.map (fun z => z.1), zs.foldl (fun a z => a ||| z.2) 0)

/-- The steps for k, 2k, 4k and so on. -/
def scanFrom {α : Type} (op : α → α → α × FFlags) : Nat → Nat → List α → FFlags → List α × FFlags
  | 0, _, ys, fl => (ys, fl)
  | n + 1, k, ys, fl =>
    let r := scanStep op k ys
    scanFrom op n (2 * k) r.1 (fl ||| r.2)

/-- An affine pair's composition (R346). -/
def affOp (f : FFmt) (r : Rnd) (x y : Nat × Nat) : (Nat × Nat) × FFlags :=
  let a := fMul f r y.1 x.1
  let b := fFma f r false false y.1 x.2 y.2
  ((a.1, b.1), a.2 ||| b.2)

/-- A scan's results: inclusive, or exclusive with the identity first. -/
def scanRes {α : Type} (exc : Bool) (idv : α) (ys : List α) : List α := if exc then idv :: ys else ys

/-- vscan: where va and vd of an aff scan are one register, B remains in it. DESIGN CHOICE, log 48. -/
def scanOut (exc : Bool) (f : BitVec 4) (t : BitVec 2) (r : Rnd) (o : VUn) (c : VReg) (s : State) : Out :=
  let n := redW f t
  let act := actOf s o.k
  let steps := Nat.log2 (elems n)
  if f = 11 then
    let ff := fmtOf (redTy t)
    let one := (fRound ff .rne false 1 0 false).1
    let idv := (one, fZero ff true)
    let as := redElems s act n one o.a
    let bs := redElems s act n (fZero ff true) c
    let x := scanFrom (affOp ff r) steps 1 (List.zip as bs) 0
    let ys := scanRes exc idv x.1
    checked (vregFault s.g [o.d, o.a, c]) s
      (if act = 0 then retire 0 s
       else retire act (orFlags (wV (wV s o.a act (laneOfElems n (fun i => (ys.getD i idv).1)))
         o.d act (laneOfElems n (fun i => (ys.getD i idv).2))) x.2))
  else
    let x := scanFrom (redOp f t r) steps 1 (redElems s act n (redId f t) o.a) 0
    let ys := scanRes exc (redId f t) x.1
    checked (vregFault s.g [o.d, o.a]) s
      (if act = 0 then retire 0 s
       else retire act (orFlags (wV s o.d act (laneOfElems n (fun i => ys.getD i 0))) x.2))

def execVscanInc (f : BitVec 4) (t : BitVec 2) (r : Rnd) (o : VUn) (c : VReg) (s : State) : Out :=
  scanOut false f t r o c s
def execVscanExc (f : BitVec 4) (t : BitVec 2) (r : Rnd) (o : VUn) (c : VReg) (s : State) : Out :=
  scanOut true f t r o c s

/-! ### Permute, pack, unpack (R347 to R349) -/

def execVperm (o : VTri) (c : VReg) (s : State) : Out :=
  vecOut [o.d, o.a, o.b, c] o.d o.k
    (fun l => let j := (rV s c l).toNat % 64
              if j < 32 then supLane s o.a j else supLane s o.b (j - 32)) s

/-- An n-bit value clamped to a signedness at half the width. -/
def packVal (n : Nat) (sat : Sat) (x : Nat) : Nat :=
  match sat with
  | .off => x % 2 ^ (n / 2)
  | .toS => (satS (n / 2) (BitVec.ofNat n x).toInt).toNat
  | .toZ => (satZ (n / 2) (x : Int)).toNat

def execVpack (w : IW) (sat : Sat) (o : VTri) (s : State) : Out :=
  let n := w.width
  elemOut [o.d, o.a, o.b] (n / 2) o.d o.k
    (fun i => packVal n sat (if i < elems n then supElem s n o.a i else supElem s n o.b (i - elems n))) s

def execVunpk (w : IW) (sx : Bool) (part : BitVec 1) (o : VUn) (s : State) : Out :=
  let n := w.width
  elemOut [o.d, o.a] (2 * n) o.d o.k
    (fun i => let x := supElem s n o.a (part.toNat * (elems n / 2) + i)
              if sx then ((BitVec.ofNat n x).signExtend (2 * n)).toNat else x) s

/-! ### Paired shuffle (R350, R351) -/

/-- Fields of a pairing word. -/
def xwTag (w : Word64) : Nat := w.toNat / 2 ^ 48
def xwGidx (w : Word64) : Nat := w.toNat / 2 ^ 38 % 32
def xwPart (w : Word64) : Nat := w.toNat / 2 ^ 32 % 64
def xwTeam (w : Word64) : Nat := w.toNat % 2 ^ 32
def xwBad (w : Word64) : Bool := w.toNat / 2 ^ 43 % 32 ≠ 0

/-- Whether a pairing word names a group. -/
def xwNames (w : Word64) (g : Group) : Bool :=
  xwGidx w == gidxOf g && xwPart w == g.idn.part && xwTeam w == g.idn.tidx.toNat

/-- Where the partner stands. -/
inductive XPartner where
  | never | exited | absent | here (g : Group)

def xPartner (s : State) (w : Word64) : XPartner :=
  match amGet? s.d.grids s.g.idn.work with
  | none => .never
  | some gr =>
    if xwTeam w ≥ gr.nteam || xwPart w ≥ s.g.idn.npart || xwGidx w % 16 ≥ s.g.idn.ngrp
        || (xwGidx w ≥ 16 && gr.row.drone = 0) then .never
    else if xwTeam w < gr.base || gr.exitedAbove.contains (xwTeam w) then .exited
    else match s.d.teams.find? (fun e => e.2.grid == s.g.idn.work && !e.2.isJob && e.2.tidx == xwTeam w) with
      | none => .absent
      | some (t, tm) =>
        match partEnt tm (xwPart w) with
        | none => .never
        | some p =>
          if p.st && !p.v then .absent
          else match (allGroups s).find? (fun h => h.idn.team == t && h.idn.part == xwPart w && gidxOf h == xwGidx w && h.status != .gone) with
            | some h => if h.status = .saved then .absent else .here h
            | none => .exited

/-- The own side of a match: lanes that both sides act on take the partner's value. -/
def xshfDone (o : VUn) (theirs : Word32) (img : BitVec 2048) (s : State) : State :=
  noTimer (.vxshf_timeout s.g.idn.gid)
    (vecDone o.d o.k (fun l => if theirs.getLsbD l then imageLane img l else supLane s o.a l) s)

/-- A group's unmatched vxshf is withdrawn (R44, R351). -/
def withdraw (gid : Nat) (s : State) : State :=
  { s with d := { s.d with xposts := s.d.xposts.filter (fun p => !(p.src == gid && !p.reply)) } }

def xshf (o : VUn) (w : Word64) (s : State) : State :=
  let me := s.g.idn.gid
  let fail := fun (s : State) => raiseI fXSHF (withdraw me (noTimer (.vxshf_timeout me) { s with g := { s.g with timedOut := false } }))
  match s.d.xposts.find? (fun p => p.reply && p.dst == me) with
  | some p => xshfDone o p.act p.data { s with d := { s.d with xposts := s.d.xposts.filter (fun q => !(q.reply && q.dst == me)) } }
  | none =>
    match xPartner s w with
    | .never => fail s
    | .exited => fail s
    | x =>
      let h? := match x with
        | .here h => some h
        | _ => none
      let post : XPost := { src := me, dst := 0, reply := false, word := w, act := actOf s o.k, data := imageOf s o.a }
      match h? with
      | some h =>
        if h.idn.gid = me then xshfDone o (actOf s o.k) (imageOf s o.a) s
        else match s.d.xposts.find? (fun p => p.src == h.idn.gid && !p.reply && xwTag p.word == xwTag w && xwNames p.word s.g) with
          | some p =>
            let ps := s.d.xposts.filter (fun q => !(q.src == h.idn.gid && !q.reply) && !(q.src == me && !q.reply))
            let s := { s with d := { s.d with xposts := ps ++ [{ post with dst := h.idn.gid, reply := true }] } }
            xshfDone o p.act p.data (wakeGid h.idn.gid s)
          | none =>
            if s.g.timedOut then fail s
            else timer (ticksOf 1000000) (.vxshf_timeout me)
              (block { s with d := { s.d with xposts := s.d.xposts.filter (fun q => !(q.src == me && !q.reply)) ++ [post] } })
      | none =>
        if s.g.timedOut then fail s
        else timer (ticksOf 1000000) (.vxshf_timeout me)
          (block { s with d := { s.d with xposts := s.d.xposts.filter (fun q => !(q.src == me && !q.reply)) ++ [post] } })

def execVxshf (o : VUn) (b : SReg) (s : State) : Out :=
  let w := rS s b
  match vregFault s.g [o.d, o.a] with
  | some c => .next (raiseI c s)
  | none =>
    if s.g.idn.kind = .window ∨ s.g.idn.kind = .job ∨ xwBad w then .next (raiseI fILLOP s)
    else .next (xshf o w s)

end Sys2Proof.Machine
end

