-- ==== Sys2Proof/Machine/Engine.lean ====
section
/-! DEFINITION. What the copy engine, the matrix slice and the block-transfer engine do to one byte, and tensors: the TID
entry, element addresses and edges (R54, R80, R105, R106, R110, R389, R390, R399). -/
namespace Sys2Proof.Machine

/-! ### Bytes -/

/-- A byte an engine reads or writes: a value of no memory, a global byte, or a byte of a part's allocation. -/
inductive Pt where
  | val (v : Nat)
  | glob (va : Nat)
  | scr (part off : Nat)
deriving DecidableEq, Repr

/-- What became of one byte: done with its value and a mark (poison of a read, a dropped delivery of a write), a fault
with its address, or a wait for lines whose snoops have been sent. -/
inductive EngRes where
  | ok (v : Nat) (mark : Bool) (s : State)
  | fault (f : AFlt) (va : Nat)
  | wait (ls : List Nat) (s : State)

/-- A scratch address of a part and an offset. -/
def scrAddr (part off : Nat) : Nat := part * 2 ^ 24 + off

/-- Lines to be snooped before an engine touches a byte of device memory (R75). -/
def engSnoops (s : State) (pa : Nat) (write : Bool) : List Nat := [pa / 64].filter (fun l => mustSnoop s l write)

/-- One global byte translated for an engine, after the check of its canonical form (R8). -/
def engSeg (s : State) (a : Agent) (acc va : Nat) : Except AFlt Seg :=
  if !canonical (w64 va) then .error { code := fADDROVF, detail := 0, level := 0 }
  else match xlate s a va acc with
  | .error f => .error f
  | .ok x => .ok { va := va, n := 1, pa := leafPaOf x.leaf x.level va, hit := false, x := x }

/-- An engine reads a byte: through the homes with no L1 allocation, after which a stash that has answered writes back (R99), or of
the part's SRAM. late allows a part that has
left the part table and still waits for its readers (R94). -/
def engRead (a : Agent) (t : Team) (late : Bool) (p : Pt) (s : State) : EngRes :=
  match p with
  | .val v => .ok v false s
  | .glob va =>
    match engSeg s a 4 va with
    | .error f => .fault f va
    | .ok g =>
      if g.kind < 2 && engineWaits s (g.pa / 128) then .wait [] s
      else if g.kind < 2 ∧ engSnoops s g.pa false ≠ [] then .wait (engSnoops s g.pa false) (sendSnoops (engSnoops s g.pa false) s)
      else
        let s := useSeg a 4 g s
        match g.kind with
        | 2 => .ok (hostRead s g.pa 1) (hostMarks s g.pa 1 != 0) (hostTouch g.pa 1 s)
        | 3 => .ok (memBytes s.m.mem g.pa 1) (memMarks s g.pa 1 != 0) s
        | _ =>
          let c := cohSector s (g.pa / 128) none
          .ok (secByte c.data (g.pa % 128)).toNat (c.poison.getLsbD (g.pa % 128)) (lazyBacks (g.pa / 128) none (homeAlloc (g.pa / 128) s))
  | .scr part off =>
    match partEnt t part with
    | none => .fault { code := fSPBOUND, detail := 10, level := 0 } (scrAddr part off)
    | some e =>
      if e.st && !e.v then .wait [] s
      else if !e.v && !(late && !e.left) then .fault { code := fPEERGONE, detail := 0, level := 0 } (scrAddr part off)
      else if off ≥ e.size * 4096 ∨ inStash t part off 1 then
        .fault { code := fSPBOUND, detail := 8, level := 0 } (scrAddr part off)
      else
        let core := 256 * t.cluster + e.core
        let o := e.base * 4096 + off
        .ok (sramBytes s core o 1) (sramPoisoned s core o 1) s

/-- The bits of v under a mask put into an old byte. -/
def putBits (old m v : Nat) : Nat := (old &&& (0xFF ^^^ m)) ||| (v &&& m)

/-- An engine writes the bits m of a byte: as a write-through at its home, or into the part's SRAM. A part that has exited
takes no delivery (R110). g is the group whose command it is, if there is one. -/
def engWrite (a : Agent) (t : Team) (g : Option Group) (p : Pt) (m v : Nat) (po : Bool) (s : State) : EngRes :=
  match p with
  | .val _ => .ok 0 false s
  | .glob va =>
    match engSeg s a 5 va with
    | .error f => .fault f va
    | .ok x =>
      if x.kind < 2 && engineWaits s (x.pa / 128) then .wait [] s
      else if x.kind < 2 ∧ engSnoops s x.pa true ≠ [] then .wait (engSnoops s x.pa true) (sendSnoops (engSnoops s x.pa true) s)
      else
        let s := useSeg a 5 x s
        let s := match g with
          | some g => noteWrite g x.x.leaf x.pa s
          | none => s
        match x.kind with
        | 2 => .ok 0 false (hostWriteM x.pa 1 (putBits (hostRead s x.pa 1) m v) (if po then 1 else 0) s)
        | 3 => .ok 0 false (hostPutM x.pa 1 (putBits (memBytes s.m.mem x.pa 1) m v) (if po then 1 else 0) s)
        | _ =>
          let i := x.pa % 128
          let b := putBits (secByte (cohSector s (x.pa / 128) none).data i).toNat m v
          .ok 0 false (homeWrite (x.pa / 128) (bit128 i) (BitVec.ofNat 1024 b <<< (8 * i)) (if po then bit128 i else 0) true s)
  | .scr part off =>
    match partEnt t part with
    | none => .fault { code := fSPBOUND, detail := 10, level := 0 } (scrAddr part off)
    | some e =>
      if e.st && !e.v then .wait [] s
      else if !e.v then .ok 0 true s
      else if off ≥ e.size * 4096 ∨ inStash t part off 1 then
        .fault { code := fSPBOUND, detail := 8, level := 0 } (scrAddr part off)
      else
        let core := 256 * t.cluster + e.core
        let o := e.base * 4096 + off
        let s := sramPut core o 1 (putBits (sramBytes s core o 1) m v) s
        .ok 0 false { s with m := { s.m with srPoison := cellPut s.m.srPoison (sramKey core o) (if po then 1 else 0) } }

/-! ### TID entries (R389, R390) -/

def tf (e : BitVec 512) (lo n : Nat) : Nat := (e.extractLsb' lo n).toNat

def tidV (e : BitVec 512) : Bool := e.getLsbD 511
def tidFmt (e : BitVec 512) : Option Ty5 := Sys2Proof.ty5Of (e.extractLsb' 506 5)
def tidD (e : BitVec 512) : Nat := tf e 503 3
def tidSpace (e : BitVec 512) : Nat := tf e 501 2
def tidScs (e : BitVec 512) : Nat := tf e 499 2
def tidSctid (e : BitVec 512) : Nat := tf e 491 8
def tidEdge (e : BitVec 512) : Nat := tf e 488 2
def tidFill (e : BitVec 512) : Nat := tf e 424 64
def tidBase (e : BitVec 512) : Nat := tf e 368 56
def tidExt (e : BitVec 512) (d : Nat) : Nat := if d < 5 then tf e (208 + 32 * d) 32 else 0
def tidTn (e : BitVec 512) (d : Nat) : Nat := if d < 5 then tf e (128 + 16 * d) 16 else 0
/-- STRIDE_d of dimension 1 to 4. -/
def tidStride (e : BitVec 512) (d : Nat) : Int := if 1 ≤ d ∧ d < 5 then (e.extractLsb' (32 * (d - 1)) 32).toInt else 0

def tidTy (e : BitVec 512) : Ty5 := (tidFmt e).getD .z8

/-- The element size in half bytes. -/
def tidNib (e : BitVec 512) : Nat := (tidTy e).width / 4

/-- R390: an entry that tidset and a code object's section may hold. -/
def tidWf (e : BitVec 512) : Bool :=
  !tidV e ||
  ((tidFmt e).isSome && decide (1 ≤ tidD e ∧ tidD e ≤ 5 ∧ tidSpace e < 2 ∧ tidScs e < 3 ∧ tidEdge e < 3)
    && !e.getLsbD 490
    && (List.range 5).all (fun d =>
      if d < tidD e then decide (tidExt e d ≠ 0 ∧ tidTn e d ≠ 0)
      else decide (tidExt e d = 0 ∧ tidTn e d = 0 ∧ tidStride e d = 0))
    && (tidScs e == 0 || tidTy e == .n4)
    && (tidSpace e == 0 || decide (tidBase e < 2 ^ 32))
    && (tidTy e != .n4 || (decide (tidExt e 0 % 32 = 0 ∧ tidTn e 0 % 32 = 0)
      && (List.range 5).all (fun d => d == 0 || decide (tidStride e d % 16 = 0)))))

/-- The entry tidset writes: V = 0 is the all-zero entry. -/
def tidNorm (e : BitVec 512) : BitVec 512 := if tidV e then e else 0

/-! ### Elements -/

/-- Whether indices lie in the tensor. -/
def tidInside (e : BitVec 512) (xs : List Int) : Bool :=
  (List.range (tidD e)).all (fun d => decide (0 ≤ xs.getD d 0 ∧ xs.getD d 0 < (tidExt e d : Int)))

/-- The indices an EDGE of 01 or 10 reads (R106). -/
def tidEdgeIdx (e : BitVec 512) (xs : List Int) : List Int :=
  (List.range (tidD e)).map (fun d =>
    let x := xs.getD d 0
    let n : Int := tidExt e d
    if tidEdge e = 1 then (if x < 0 then 0 else if x ≥ n then n - 1 else x) else x % n)

/-- The address of an element in half bytes from the base. -/
def tidRel (e : BitVec 512) (xs : List Int) : Int :=
  xs.getD 0 0 * (tidNib e : Int)
    + (List.range (tidD e)).foldl (fun (a : Int) d => a + xs.getD d 0 * tidStride e d * 2) 0

/-- The part a selector names for a group of part own; R21 has refused the others. -/
def selOf (own sel : Nat) : Nat := if sel = 0xFE then own else sel

/-- A byte at a distance from the tensor's base. -/
def tidPt (e : BitVec 512) (own : Nat) (rel : Int) : Pt :=
  if tidSpace e = 1 then
    let o : Int := ((tidBase e % 2 ^ 24 : Nat) : Int) + rel
    .scr (selOf own (tidBase e / 2 ^ 24 % 256)) (if o < 0 then 2 ^ 24 else o.toNat)
  else .glob (vaOf (BitVec.ofNat 56 (tidBase e)) + BitVec.ofInt 64 rel).toNat

/-- Byte b of the element at indices xs, and the bits it starts at; an outside element reads the fill value under EDGE 00.
none where nothing is to be written. -/
def tidByte (e : BitVec 512) (own : Nat) (store : Bool) (xs : List Int) (b : Nat) : Option (Pt × Nat) :=
  if tidInside e xs then
    let r := tidRel e xs
    some (tidPt e own (r / 2 + (b : Int)), if r % 2 = 0 then 0 else 4)
  else if store then none
  else if tidEdge e = 0 then some (.val (tidFill e / 256 ^ b % 256), 0)
  else
    let r := tidRel e (tidEdgeIdx e xs)
    some (tidPt e own (r / 2 + (b : Int)), if r % 2 = 0 then 0 else 4)

/-! ### Boxes (R105, R398) -/

/-- The exact bounds of a term (c + i) * stride over i below n, in bytes. -/
def termLo (a b : Int) : Int := if a ≤ b then a else b
def termHi (a b : Int) : Int := if a ≤ b then b else a

/-- The terms at the two ends of a box in dimension d. -/
def boxTerms (e : BitVec 512) (c : Int) (n d : Nat) : Int × Int :=
  if d = 0 then (c * (tidNib e : Int) / 2, (c + (n : Int) - 1) * (tidNib e : Int) / 2)
  else (c * tidStride e d, (c + (n : Int) - 1) * tidStride e d)

/-- The lowest and highest byte of a box with origin cs and extents ns, and whether every term fits s64. -/
def boxBounds (e : BitVec 512) (base : Int) (cs : List Int) (ns : List Nat) : Int × Int × Bool :=
  (List.range (tidD e)).foldl (fun (x : Int × Int × Bool) d =>
    let t := boxTerms e (cs.getD d 0) (ns.getD d 1) d
    (x.1 + termLo t.1 t.2, x.2.1 + termHi t.1 t.2,
     x.2.2 && decide (-2 ^ 63 ≤ termLo t.1 t.2 ∧ termHi t.1 t.2 < 2 ^ 63)))
    (base, base + ((tidNib e / 2 : Nat) : Int) - (if tidNib e = 1 then 0 else 1), true)

/-- Whether an exact address is a canonical 64-bit one, in two's complement. -/
def addrOk (x : Int) : Bool := decide (-2 ^ 55 ≤ x ∧ x < 2 ^ 55)

def boxOk (e : BitVec 512) (cs : List Int) (ns : List Nat) : Bool :=
  let b := boxBounds e (BitVec.ofNat 56 (tidBase e)).toInt cs ns
  b.2.2 && addrOk b.1 && addrOk b.2.1

/-- The whole tensor's box. -/
def tidExts (e : BitVec 512) : List Nat := (List.range (tidD e)).map (tidExt e)

/-- R105 for a tile box: the box, and under EDGE 01 or 10 the whole tensor. Scratch tensors have no such check. -/
def tileBoxOk (e : BitVec 512) (cs : List Int) (ns : List Nat) : Bool :=
  tidSpace e == 1 || (boxOk e cs ns && (tidEdge e == 0 || boxOk e [] (tidExts e)))

/-! ### Scratch ranges (R21, R374) -/

/-- The first byte that fails of n bytes at an offset whose range check has failed with DETAIL 8. -/
def firstBad (t : Team) (part off n size : Nat) : Nat :=
  let maps := (t.stash.filter (fun m => m.part == part && decide (m.off < off + n ∧ off < m.off + m.size))).map (fun m => Nat.max off m.off)
  (maps ++ (if off + n > size then [Nat.max off size] else [])).foldl Nat.min (off + n)

/-- R21 over a scratch range of n bytes at a 32-bit scratch address: the failure, with its address. DEDUCED, log 20. -/
def scratchRange (t : Team) (own a n : Nat) : Option (AFlt × Nat) :=
  let off := a % 2 ^ 24
  match scratchAt t own (a / 2 ^ 24 % 256) off n with
  | .ok _ => none
  | .error f =>
    let p := selOf own (a / 2 ^ 24 % 256)
    let size := match partEnt t p with
      | some e => e.size * 4096
      | none => 0
    some (f, if f.detail = 8 then a - off + firstBad t p off n size else a)

/-- R21 for the bytes of a scratch tensor: from its base to its last element (R398). -/
def tensorScratch (t : Team) (own : Nat) (e : BitVec 512) : Option (AFlt × Nat) :=
  if tidSpace e ≠ 1 then none
  else
    let off : Nat := tidBase e % 2 ^ 24
    let b := boxBounds e (Int.ofNat off) [] (tidExts e)
    if b.1 < 0 then some ({ code := fSPBOUND, detail := 8, level := 0 }, tidBase e)
    else scratchRange t own (tidBase e - off + b.1.toNat) ((b.2.1 - b.1).toNat + 1)

end Sys2Proof.Machine
end

