-- ==== Sys2Proof/Machine/Copy.lean ====
section
/-! DEFINITION. The copy engine and the instructions of OP7 0x60 to 0x67: copies, byte-counting barriers, counter waits
and the queue window (R101 to R117, R143 to R145, R150, R183, R184, R373 to R387). -/
namespace Sys2Proof.Machine

/-! ### Commands (R102, R103) -/

def lo32 (v : Word64) : Nat := v.toNat % 2 ^ 32
def hi32 (v : Word64) : Nat := v.toNat / 2 ^ 32
def va56 (v : Word64) : Nat := (vaOf (pcOf v)).toNat

/-- Position among a group's incomplete copy commands (R102). -/
def copyRank (g : Group) (slot : Nat) : Nat :=
  ((g.n.cps.filter (fun c => !c.finished)).takeWhile (fun c => c.slot ≠ slot)).length

/-- Dword 0 of the command record. -/
def copyDword0 (g : Group) (c : CopyCmd) : Word64 :=
  w64 (c.opc.toNat * 2 ^ 60 + c.slot % 8 * 2 ^ 57 + g.idn.slot % 16 * 2 ^ 53 + (if c.parked then 2 ^ 52 else 0)
    + (if c.bv then 2 ^ 51 else 0) + c.boff.toNat * 2 ^ 36 + c.tid.toNat * 2 ^ 28 + copyRank g c.slot % 16 * 2 ^ 24 + c.done % 2 ^ 24)

/-- LEN and OFF of cpym, and its SX. -/
def mcLen (c : CopyCmd) : Nat := c.d2.toNat / 2 ^ 24 % 2 ^ 24
def mcOff (c : CopyCmd) : Nat := c.d2.toNat % 2 ^ 24
def mcSx (c : CopyCmd) : Bool := c.d2.getLsbD 63
/-- The receiving parts of cpym. -/
def mcParts (c : CopyCmd) : List Nat := (List.range 64).filter (fun p => c.d3.getLsbD p)

/-- Row length and stride of cpyg. -/
def cgLen (c : CopyCmd) : Nat := c.d3.toNat % 2 ^ 24
def cgStride (c : CopyCmd) : Int := (c.d3.extractLsb' 24 40).toInt

/-- The global address of a row of cpyg: the canonical address that R382's exact sum has, whose low 56 bits the record gives. -/
def cgRow (c : CopyCmd) (k : Nat) : Int :=
  (BitVec.ofInt 56 ((vaOf (pcOf c.d1)).toInt + ((c.idx.getD k 0).toNat : Int) * cgStride c)).toInt

/-- The five coordinates of a tensor copy. -/
def ctCoords (c : CopyCmd) : List Int :=
  [(c.d1.extractLsb' 32 32).toInt, (c.d2.extractLsb' 0 32).toInt, (c.d2.extractLsb' 32 32).toInt,
   (c.d3.extractLsb' 0 32).toInt, (c.d3.extractLsb' 32 32).toInt]

/-- A byte of a scratch range. -/
def scrPt (own a i : Nat) : Pt := .scr (selOf own (a / 2 ^ 24 % 256)) (a % 2 ^ 24 + i)

/-- A range of a command: global (none) or of a part, from lo, n bytes. -/
structure Rng where
  part : Option Nat
  lo : Int
  n : Nat
deriving DecidableEq, Repr

def scrRng (own a n : Nat) : Rng := { part := some (selOf own (a / 2 ^ 24 % 256)), lo := Int.ofNat (a % 2 ^ 24), n := n }
def globRng (v : Word64) (n : Nat) : Rng := { part := none, lo := (vaOf (pcOf v)).toInt, n := n }

def Rng.meets (a b : Rng) : Bool :=
  a.part == b.part && decide (a.lo < b.lo + (b.n : Int) ∧ b.lo < a.lo + (a.n : Int))

/-- The bounding range of a tensor copy's tensor side (R105, R108). -/
def ctRng (own : Nat) (c : CopyCmd) : List Rng :=
  let e := c.tident
  let base : Int := if tidSpace e = 1 then Int.ofNat (tidBase e % 2 ^ 24) else (BitVec.ofNat 56 (tidBase e)).toInt
  let part := if tidSpace e = 1 then some (selOf own (tidBase e / 2 ^ 24 % 256)) else none
  let rng := fun (b : Int × Int × Bool) => ({ part := part, lo := b.1, n := (b.2.1 - b.1).toNat + 1 } : Rng)
  let tile := rng (boxBounds e base (ctCoords c) ((List.range (tidD e)).map (tidTn e)))
  if c.opc = 4 ∧ tidEdge e ≠ 0 then [tile, rng (boxBounds e base [] (tidExts e))] else [tile]

/-- The ranges a command reads, and those it writes. -/
def copyReads (own : Nat) (c : CopyCmd) : List Rng :=
  match c.opc.toNat with
  | 0 => [globRng c.d1 c.total]
  | 1 => [scrRng own (lo32 c.d1) c.total]
  | 2 => [scrRng own (lo32 c.d1) c.total]
  | 3 => [globRng c.d1 c.total]
  | 4 => ctRng own c
  | 5 => [scrRng own (lo32 c.d1) c.total]
  | 6 => [if mcSx c then scrRng own (lo32 c.d1) c.total else globRng c.d1 c.total]
  | _ => (List.range c.idx.length).map (fun k => ({ part := none, lo := cgRow c k, n := cgLen c } : Rng))

def copyWrites (own : Nat) (c : CopyCmd) : List Rng :=
  match c.opc.toNat with
  | 0 => [scrRng own (lo32 c.d2) c.total]
  | 1 => [globRng c.d2 c.total]
  | 2 => [scrRng own (lo32 c.d2) c.total]
  | 3 => [globRng c.d2 c.total]
  | 4 => [scrRng own (lo32 c.d1) c.total]
  | 5 => ctRng own c
  | 6 => (mcParts c).map (fun p => ({ part := some p, lo := Int.ofNat (mcOff c), n := c.total } : Rng))
  | _ => [scrRng own (lo32 c.d2) c.total]

/-- Whether a command's byte order runs down from its last byte (R103). -/
def copyDown (own : Nat) (c : CopyCmd) : Bool :=
  match c.opc.toNat with
  | 2 | 3 =>
    (match copyReads own c, copyWrites own c with
     | r :: _, w :: _ => r.meets w && decide (w.lo > r.lo)
     | _, _ => false)
  | 6 =>
    (match copyReads own c with
     | r :: _ =>
       let w : Rng := { part := some own, lo := Int.ofNat (mcOff c), n := c.total }
       (mcParts c).contains own && r.meets w && decide (w.lo > r.lo)
     | _ => false)
  | _ => false

/-- Whether a command has a global destination, or any global address. -/
def copyToGlobal (c : CopyCmd) : Bool := c.opc == 1 || c.opc == 3 || (c.opc == 5 && tidSpace c.tident == 0)

/-- One piece of a moved byte: its bits in the byte, and the same bits at a place of memory, higher by up. -/
structure Piece where
  mask : Nat
  pt : Pt
  /-- the bits lie 4 higher, or 4 lower, in memory than in the moved byte -/
  up : Bool
  down : Bool
deriving DecidableEq, Repr

def whole (p : Pt) : Piece := { mask := 0xFF, pt := p, up := false, down := false }

/-- Indices of element n of a tile, dimension 0 fastest. -/
def tileIdx (e : BitVec 512) : Nat → Nat → Nat → List Int
  | 0, _, _ => []
  | k + 1, d, n => Int.ofNat (n % Nat.max 1 (tidTn e d)) :: tileIdx e k (d + 1) (n / Nat.max 1 (tidTn e d))

/-- The pieces at the tensor of byte j of a tile. -/
def tilePieces (own : Nat) (c : CopyCmd) (store : Bool) (j : Nat) : List Piece :=
  let e := c.tident
  let at_ := fun n => (tileIdx e (tidD e) 0 n).zipWith (fun i x => i + x) (ctCoords c)
  if tidNib e = 1 then
    [0, 1].filterMap (fun h => match tidByte e own store (at_ (2 * j + h)) 0 with
      | some (p, o) => some { mask := if h = 0 then 0xF else 0xF0, pt := p, up := o = 4 ∧ h = 0, down := o = 0 ∧ h = 1 }
      | none => none)
  else
    let w := tidNib e / 2
    match tidByte e own store (at_ (j / w)) (j % w) with
    | some (p, _) => [whole p]
    | none => []

/-- Where byte j of a command's byte order comes from, and where it goes. -/
def copyFrom (own : Nat) (c : CopyCmd) (j : Nat) : List Piece :=
  let i := if copyDown own c then c.total - 1 - j else j
  match c.opc.toNat with
  | 0 | 3 => [whole (.glob ((va56 c.d1 + i) % 2 ^ 64))]
  | 1 | 2 | 5 => [whole (scrPt own (lo32 c.d1) i)]
  | 4 => tilePieces own c false j
  | 6 => [whole (if mcSx c then scrPt own (lo32 c.d1) i else .glob ((va56 c.d1 + i) % 2 ^ 64))]
  | _ => [whole (.glob (BitVec.ofInt 64 (cgRow c (j / Nat.max 1 (cgLen c)) + ((j % Nat.max 1 (cgLen c) : Nat) : Int))).toNat)]

def copyTo (own : Nat) (c : CopyCmd) (j : Nat) : List Piece :=
  let i := if copyDown own c then c.total - 1 - j else j
  match c.opc.toNat with
  | 0 | 2 | 7 => [whole (scrPt own (lo32 c.d2) i)]
  | 1 | 3 => [whole (.glob ((va56 c.d2 + i) % 2 ^ 64))]
  | 4 => [whole (scrPt own (lo32 c.d1) i)]
  | 5 => tilePieces own c true j
  | _ => (mcParts c).map (fun p => whole (.scr p (mcOff c + i)))

/-! ### Overlap within one command (R108) -/

/-- A key for a byte of memory. -/
def ptKey : Pt → Option Nat
  | .val _ => none
  | .glob va => some (2 ^ 64 + va)
  | .scr p o => some (scrAddr p o)

def ptRng : Pt → Option Rng
  | .val _ => none
  | .glob va => some { part := none, lo := (w64 va).toInt, n := 1 }
  | .scr p o => some { part := some p, lo := Int.ofNat o, n := 1 }

/-- Whether a command's byte order alone does not keep its source bytes: a tensor copy, or a cpym from a part that also
receives. -/
def copyMixes (own : Nat) (c : CopyCmd) : Bool :=
  (c.opc == 4 || c.opc == 5 || c.opc == 6) && !copyDown own c
    && (copyReads own c).any (fun r => (copyWrites own c).any r.meets)

/-- A source byte as it stood before the command's own writes. -/
def aheadOf (c : CopyCmd) (p : Pt) (v : Nat) (po : Bool) : Nat × Bool :=
  match (ptKey p).bind (fun k => amGet? c.ahead k) with
  | some b => (b.toNat % 256, b.getLsbD 8)
  | none => (v, po)

/-- The source bytes that the writes to some places are about to change, added to those kept. -/
def keepAhead (a : Agent) (t : Team) (own : Nat) (c : CopyCmd) (ps : List Piece) (s : State) : List (Nat × BitVec 9) :=
  if !copyMixes own c then c.ahead
  else ps.foldl (fun l p => match ptKey p.pt, ptRng p.pt with
    | some k, some r =>
      if (amGet? l k).isSome || !(copyReads own c).any r.meets then l
      else (match engRead a t true p.pt s with
        | .ok v m _ => l ++ [(k, BitVec.ofNat 9 (v % 256 + if m then 256 else 0))]
        | _ => l)
    | _, _ => l) c.ahead

/-! ### Progress (R107 to R110) -/

/-- Reads the pieces of a byte: value and poison. -/
def readPieces (a : Agent) (t : Team) (c : CopyCmd) : List Piece → Nat → Bool → State → EngRes
  | [], v, po, s => .ok v po s
  | p :: ps, v, po, s =>
    match engRead a t true p.pt s with
    | .ok x m s =>
      let b := aheadOf c p.pt x m
      let y := if p.up then b.1 / 16 else if p.down then b.1 * 16 else b.1
      readPieces a t c ps (v ||| (y &&& p.mask)) (po || b.2) s
    | r => r

/-- Writes a byte to its pieces; the mark says that a delivery was dropped. -/
def writePieces (a : Agent) (t : Team) (g : Group) (v : Nat) (po : Bool) : List Piece → Bool → State → EngRes
  | [], dr, s => .ok 0 dr s
  | p :: ps, dr, s =>
    let m := if p.up then p.mask * 16 else if p.down then p.mask / 16 else p.mask
    let x := if p.up then v * 16 else if p.down then v / 16 else v
    match engWrite a t (some g) p.pt m x po s with
    | .ok _ d s => writePieces a t g v po ps (dr || d) s
    | r => r

/-- The parts whose barrier a command credits (R109, R375). -/
def copyBarParts (own : Nat) (c : CopyCmd) : List Nat :=
  match c.opc.toNat with
  | 0 | 2 | 7 => [selOf own (lo32 c.d2 / 2 ^ 24)]
  | 1 | 4 | 5 => [selOf own (lo32 c.d1 / 2 ^ 24)]
  | 3 => [own]
  | _ => mcParts c

/-- A part whose entry is no longer valid and not starting: its deliveries are dropped (R110). -/
def partGone (t : Team) (p : Nat) : Bool := match partEnt t p with
  | some e => !e.v && !e.st
  | none => false

/-- R21 over the command's barrier objects in the parts that are there: a map laid over one since is a failure (R96). -/
def barRange (t : Team) (own : Nat) (c : CopyCmd) : Option (AFlt × Nat) :=
  if !c.bv then none
  else (copyBarParts own c).findSome? (fun p =>
    if partGone t p then none else scratchRange t own (scrAddr p (16 * c.boff.toNat)) 16)

/-- The scratch ranges a command names: whether it writes there, the scratch address, and the bytes. -/
def scrRanges (c : CopyCmd) : List (Bool × Nat × Nat) :=
  match c.opc.toNat with
  | 0 => [(true, lo32 c.d2, c.total)]
  | 1 => [(false, lo32 c.d1, c.total)]
  | 2 => [(false, lo32 c.d1, c.total), (true, lo32 c.d2, c.total)]
  | 3 => []
  | 4 => [(true, lo32 c.d1, c.total)]
  | 5 => [(false, lo32 c.d1, c.total)]
  | 6 => (if mcSx c then [(false, lo32 c.d1, c.total)] else []) ++ (mcParts c).map (fun p => (true, scrAddr p (mcOff c), c.total))
  | _ => [(true, lo32 c.d2, c.total)]

/-- The check of scratch ranges at a reissue (R111): a destination part that has gone does not fail it. The failure, its
address, and whether a write fails. -/
def reissueFails (t : Team) (own : Nat) (c : CopyCmd) : Option (AFlt × Nat × Bool) :=
  let range := (scrRanges c).findSome? (fun x =>
    if x.1 && partGone t (selOf own (x.2.1 / 2 ^ 24)) then none
    else (scratchRange t own x.2.1 x.2.2).map (fun f => (f.1, f.2, x.1)))
  let tensor : Option (AFlt × Nat × Bool) :=
    if (c.opc = 4 ∨ c.opc = 5) ∧ !(c.opc == 5 && partGone t (selOf own (tidBase c.tident / 2 ^ 24 % 256))) then
      (tensorScratch t own c.tident).map (fun f => (f.1, f.2, c.opc == 5))
    else none
  match range, tensor with
  | some r, _ => some r
  | none, some r => some r
  | none, none => (barRange t own c).map (fun f => (f.1, f.2, true))

/-- Why a run of bytes ended. -/
inductive CopyEnd where
  | going
  | waits (ls : List Nat)
  | faults (f : AFlt) (va : Nat) (write : Bool)
deriving DecidableEq, Repr

/-- A run of bytes: how many moved, whether a delivery was dropped, why it ended, the source bytes kept, the state after. -/
structure CopyMoved where
  k : Nat
  dropped : Bool
  why : CopyEnd
  ahead : List (Nat × BitVec 9)
  s : State

/-- Moves up to n bytes from DONE. DESIGN CHOICE, log 21. -/
def copyRun (a : Agent) (t : Team) (g : Group) (c : CopyCmd) : Nat → Nat → Bool → State → CopyMoved
  | 0, k, dr, s => ⟨k, dr, .going, c.ahead, s⟩
  | n + 1, k, dr, s =>
    if c.done + k ≥ c.total then ⟨k, dr, .going, c.ahead, s⟩
    else match readPieces a t c (copyFrom g.idn.part c (c.done + k)) 0 false s with
      | .wait ls s => ⟨k, dr, .waits ls, c.ahead, s⟩
      | .fault f va => ⟨k, dr, .faults f va false, c.ahead, walkFault a va 4 f.code s⟩
      | .ok v po s =>
        let dst := copyTo g.idn.part c (c.done + k)
        let l := keepAhead a t g.idn.part c dst s
        match writePieces a t g v po dst false s with
        | .wait ls s => ⟨k, dr, .waits ls, c.ahead, s⟩
        | .fault f va => ⟨k, dr, .faults f va true, c.ahead, walkFault a va 5 f.code s⟩
        | .ok _ d s => copyRun a t g { c with ahead := l } n (k + 1) (dr || d) s

/-- The credits of k bytes, from the engine of core src. -/
def copyCredits (src : Nat) (t : Team) (own : Nat) (c : CopyCmd) (k : Nat) : List Event :=
  if !c.bv || k = 0 then []
  else (copyBarParts own c).filterMap (fun p => match partEnt t p with
    | some e => if e.v then some (.barrier_update src (256 * t.cluster + e.core) (e.base * 4096 + 16 * c.boff.toNat) (.credit k)) else none
    | none => none)

/-- Complete units leave the CP counter from the front (R117). -/
def settleCps (cs : List CopyCmd) : List CopyCmd := cs.dropWhile (fun c => c.finished)

def modCopy (gid slot : Nat) (f : CopyCmd → CopyCmd) (s : State) : State :=
  modGroup gid (fun g => { g with n := { g.n with
    cps := settleCps (g.n.cps.map (fun c => if c.slot = slot ∧ !c.finished then f c else c)) } }) s

def findCopy (g : Group) (slot : Nat) : Option CopyCmd := g.n.cps.find? (fun c => c.slot == slot && !c.finished)

/-- The older incomplete commands of the group that a command waits for (R108). -/
def copyAfterOlder (g : Group) (c : CopyCmd) : Bool :=
  let own := g.idn.part
  let older := (g.n.cps.filter (fun o => !o.finished)).takeWhile (fun o => o.slot ≠ c.slot)
  older.any (fun o =>
    (copyWrites own c).any (fun w => (copyWrites own o).any w.meets || (copyReads own o).any w.meets)
      || (copyReads own c).any (fun r => (copyWrites own o).any r.meets))

/-- Whether a copy's global writes may begin: in a deterministic launch, once the team has the bow (R162). -/
def copyBow (s : State) (g : Group) (c : CopyCmd) : Bool :=
  !copyToGlobal c || !needsBow s g || passedBow s g || decide (c.done > 0)

/-- Whether every store unit of the group older than a command's acceptance is performed (R143). -/
def storesDone (g : Group) (born : Nat) : Bool := g.n.sts.all (fun u => decide (u.id > born) || u.left == 0)

def groupRuns (g : Group) : Bool := g.status != .gone && g.status != .saved

/-- Whether a group's staged stores older than a command's acceptance are performed (R143). -/
def stagesDone (s : State) (g : Group) (c : CopyCmd) : Bool :=
  (coreOf s g.idn.core).stage.all (fun e => e.gid != g.idn.gid || decide (e.seq ≥ 1024 * (c.born + 1)))

/-- Whether a piece's byte can move now: a starting part makes it wait (R110), and so do a snoop under way and messages that
wait at the home (R57). -/
def pieceReady (s : State) (t : Team) (a : Agent) (acc : Nat) (p : Piece) : Bool :=
  match p.pt with
  | .val _ => true
  | .scr part _ => (match partEnt t part with
    | some e => !(e.st && !e.v)
    | none => true)
  | .glob va => (match engSeg s a acc va with
    | .ok g => decide (g.kind ≥ 2)
      || (!engineWaits s (g.pa / 128) && (engSnoops s g.pa (acc == 5)).all (fun l => !s.m.biPend.contains l))
    | .error _ => true)

/-- Whether a command can move its next byte. -/
def copyReady (s : State) (g : Group) (c : CopyCmd) : Bool :=
  let t := (teamOf s g.idn.team).getD Team.nil
  !c.finished && !c.parked && groupRuns g && !copyAfterOlder g c && copyBow s g c && storesDone g c.born && stagesDone s g c
    && (copyFrom g.idn.part c c.done).all (pieceReady s t (engineOf s g) 4)
    && (copyTo g.idn.part c c.done).all (pieceReady s t (engineOf s g) 5)

/-- FAULTCODE of an engine fault (R41). -/
def engCode (f : AFlt) (write matrix : Bool) (slot : Nat) : Word32 :=
  faultWord { code := f.code, detail := f.detail, acc := if write then 5 else 4, level := f.level, va := 0, mask := 0 }
    (if matrix then 2 else 1) slot

/-- The copy engine moves up to n bytes of a command: DONE advances, the barrier is credited as one update, the command
completes, or it parks (R107, R109). DESIGN CHOICE, log 21. -/
def copyProgress (gid slot n : Nat) (s : State) : State :=
  match findGroup s gid with
  | none => s
  | some g =>
    match findCopy g slot with
    | none => s
    | some c =>
      if !copyReady s g c then s
      else
        let t := (teamOf s g.idn.team).getD Team.nil
        let bad := barRange t g.idn.part c
        let r := if bad.isSome then ⟨0, false, .going, c.ahead, s⟩ else copyRun (engineOf s g) t g c n 0 false s
        let s := r.s
        let s := if r.dropped then modGroup gid (fun h => { h with mcp := true }) s else s
        let s := dues (copyCredits g.idn.core t g.idn.part c r.k) s
        let fin := decide (c.done + r.k ≥ c.total)
        let s := if fin && copyToGlobal c then modGroup gid (fun h => { h with n := { h.n with copied := true } }) s else s
        let ls := match r.why with
          | .waits ls => ls
          | _ => []
        let claim := if r.k = 0 then (c.claim ++ ls).eraseDups else ls
        let s := modCopy gid slot (fun c => { c with done := c.done + r.k, finished := fin, claim := claim, ahead := r.ahead }) s
        let s := if fin then wakeWhere (fun h => h.idn.core == g.idn.core || h.idn.team == g.idn.team) s else s
        match (match bad with
          | some (f, va) => CopyEnd.faults f va true
          | none => r.why) with
        | .faults f va w => due (.park false gid slot (engCode f w false slot) (w64 va)) s
        | _ => s

/-- COPY_PROGRESS (R107). -/
def execCopyProgress (s : State) : Out :=
  match s.ev with
  | some (.copy_progress gid slot n) => .next (copyProgress gid slot n s)
  | _ => .next s

/-! ### Acceptance (R101, R104, R373 to R375) -/

/-- Whether the group's or the core's copy slots are all in use. -/
def copySlots (g : Group) : List Nat := (g.n.cps.filter (fun c => !c.finished)).map (fun c => c.slot)
def copyFull (s : State) : Bool :=
  decide ((copySlots s.g).length ≥ 8) || decide (s.g.n.cps.length ≥ 63)
    || decide (((allGroups s).filter (fun h => h.idn.core == s.g.idn.core && groupRuns h)).foldl (fun a h => a + (copySlots h).length) 0 ≥ 32)

def lowestFree (used : List Nat) (n : Nat) : Nat := ((List.range n).find? (fun i => !used.contains i)).getD 0

/-- A failure of an acceptance check, as a fault of the instruction. -/
def engFlt (acc : Nat) (f : AFlt) (va : Nat) : Flt :=
  { code := f.code, detail := f.detail, acc := acc, level := f.level, va := w64 va, mask := 1 }

/-- R105 of a linear global range: from a canonical address, 2^24 bytes cannot pass the ends of two's complement. -/
def linOvf (v : Word64) (n acc : Nat) : Option Flt :=
  if !canonical v then some { flt fADDROVF with acc := acc, va := v }
  else if !canonical (w64 (v.toNat + n - 1)) then
    some { flt fADDROVF with acc := acc, va := w64 (v.toNat + n - 1) }
  else none

def scrChk (s : State) (a n acc : Nat) : Option Flt :=
  match scratchRange (gTeam s) s.g.idn.part a n with
  | some (f, va) => some (engFlt acc f va)
  | none => none

/-- The barrier object of a copy: it lies in the part named, at an offset that is a multiple of 16 (R375). -/
def barChk (s : State) (r : SReg) (parts : List Nat) : Option Flt :=
  if r = 0 then none
  else
    let a := lo32 (rS s r)
    match scrChk s a 16 2 with
    | some f => some f
    | none =>
      if !parts.contains (selOf s.g.idn.part (a / 2 ^ 24)) then some { flt fSPBOUND with detail := 9, acc := 2, va := w64 a }
      else if a % 16 ≠ 0 then some { flt fALIGN with acc := 2, va := w64 a }
      else none

/-- The first of a list of checks that fails. -/
def firstFail : List (Option Flt) → Option Flt
  | [] => none
  | some f :: _ => some f
  | none :: t => firstFail t

/-- Accepts a command into the lowest free slot. DEDUCED, log 20. -/
def accept (c : CopyCmd) (s : State) : State :=
  let c := { c with slot := lowestFree (copySlots s.g) 8, born := s.tick }
  { s with g := { s.g with n := { s.g.n with cps := s.g.n.cps ++ [c] } } }

/-- A copy instruction: it stalls for a slot, then its checks decide (R101, R104, R163). -/
def copyInstr (chk : List (Option Flt)) (c : CopyCmd) (s : State) : Out :=
  if passedBow s s.g && copyToGlobal c then .next (raiseI fDETSTAGE s)
  else if copyFull s then .next (block s)
  else match firstFail chk with
    | some f => .next (raiseW f s)
    | none => .next (retireS (accept c s))

/-- A command before its acceptance. -/
def mkCopy (s : State) (opc : BitVec 4) (r : SReg) (total : Nat) (d1 d2 d3 : Word64) : CopyCmd where
  slot := 0
  opc := opc
  bv := r != 0
  boff := BitVec.ofNat 15 (if r = 0 then 0 else lo32 (rS s r) % 2 ^ 24 / 16)
  tid := 0
  done := 0
  total := total
  d1 := d1
  d2 := d2
  d3 := d3
  idx := []
  tident := 0
  parked := false
  fcode := 0
  fva := 0
  finished := false
  born := 0
  claim := []
  ahead := []

def sizeChk (n : Nat) : Option Flt := if n = 0 ∨ n ≥ 2 ^ 24 then some (flt fILLOP) else none

def vaField (v : Word64) : Word64 := (pcOf v).zeroExtend 64
def scrField (v : Word64) : Word64 := w64 (lo32 v)

def cpyLen (s : State) : CpyLen → Nat
  | .reg b => (rS s b).toNat
  | .imm n => n.toNat

def execCpy (dir : BitVec 2) (d a : SReg) (n : CpyLen) (r : SReg) (s : State) : Out :=
  let len := cpyLen s n
  let sg := dir = 0 ∨ dir = 3
  let dg := dir = 1 ∨ dir = 3
  let f := fun (g : Bool) v => if g then vaField v else scrField v
  let c := mkCopy s (dir.zeroExtend 4) r len (f sg (rS s a)) (f dg (rS s d)) (w64 (len % 2 ^ 24))
  copyInstr
    [sizeChk len,
     if sg then linOvf (rS s a) len 4 else none,
     if dg then linOvf (rS s d) len 5 else none,
     if sg then none else scrChk s (lo32 (rS s a)) len 4,
     if dg then none else scrChk s (lo32 (rS s d)) len 5,
     barChk s r (copyBarParts s.g.idn.part c)] c s

/-- The entry of a TID of the group's team. -/
def tidOf (s : State) (n : Nat) : BitVec 512 := cellGet (gTeam s).tids n

/-- Registers a + i as S reads them. -/
def rSn (s : State) (a : SReg) (i : Nat) : Word64 := rS s (a + BitVec.ofNat 6 i)

def cpyt (store : Bool) (d a r : SReg) (s : State) : Out :=
  let tid := (rS s d).toNat / 2 ^ 32 % 256
  let e := tidOf s tid
  let dims := tidD e
  let need := (dims + 1) / 2
  let co := fun i => if i < dims then (if i % 2 = 0 then lo32 (rSn s a (i / 2)) else hi32 (rSn s a (i / 2))) else 0
  let tns := (List.range dims).map (tidTn e)
  let bytes := tns.foldl (fun x n => x * n) (tidNib e) / 2
  let c := { mkCopy s (if store then 5 else 4) r bytes (w64 (lo32 (rS s d) + co 0 * 2 ^ 32)) (w64 (co 1 + co 2 * 2 ^ 32)) (w64 (co 3 + co 4 * 2 ^ 32)) with
    tid := BitVec.ofNat 8 tid, tident := e }
  copyInstr
    [if !tidV e then some (flt fILLOP) else none,
     if a = 0 ∨ a.toNat + need - 1 > 63 then some (flt fILLOP) else none,
     sizeChk bytes,
     if tileBoxOk e (ctCoords c) tns then none else some { flt fADDROVF with acc := if store then 5 else 4 },
     scrChk s (lo32 (rS s d)) bytes (if store then 4 else 5),
     match tensorScratch (gTeam s) s.g.idn.part e with
     | some (f, va) => some (engFlt (if store then 5 else 4) f va)
     | none => none,
     barChk s r (copyBarParts s.g.idn.part c)] c s

def execCpytLd (d a b : SReg) (s : State) : Out := cpyt false d a b s
def execCpytSt (d a b : SReg) (s : State) : Out := cpyt true d a b s

def execCpym (sx : Bool) (d a b r : SReg) (s : State) : Out :=
  let len := (rS s b).toNat / 2 ^ 24 % 2 ^ 24
  let off := (rS s b).toNat % 2 ^ 24
  let c := mkCopy s 6 r len (if sx then scrField (rS s a) else vaField (rS s a))
    (w64 ((if sx then 2 ^ 63 else 0) + len * 2 ^ 24 + off)) (rS s d)
  copyInstr
    [sizeChk len,
     if sx then none else linOvf (rS s a) len 4,
     if rS s d = 0 ∨ (rS s d).toNat ≥ 2 ^ s.g.idn.npart then some (flt fMCMASK) else none,
     if sx then scrChk s (lo32 (rS s a)) len 4 else none,
     scrChk s (0xFE * 2 ^ 24 + off) len 5,
     barChk s r [s.g.idn.part]] c s

/-- The index list of cpyg, read at acceptance (R382). -/
def cpygList (s : State) (rows loff : Nat) : List Word32 :=
  match scratchAt (gTeam s) s.g.idn.part 0xFE loff (4 * rows) with
  | .ok l => (List.range rows).map (fun k => w32 (sramBytes s l.core (l.off + 4 * k) 4))
  | .error _ => []

def execCpyg (d a b r : SReg) (s : State) : Out :=
  let w := (rS s b).toNat
  let x := rSn s b 1
  let rows := w / 2 ^ 56 + 1
  let loff := w / 2 ^ 32 % 2 ^ 24
  let rl := x.toNat % 2 ^ 24
  let idx := cpygList s rows loff
  let c := { mkCopy s 7 r (rows * rl) (vaField (rS s a)) (w64 ((rows - 1) * 2 ^ 56 + loff * 2 ^ 32 + lo32 (rS s d))) x with idx := idx }
  let row := fun k => (rS s a).toInt + ((idx.getD k 0).toNat : Int) * cgStride c
  let bad := (List.range rows).find? (fun k => !(addrOk (row k) && addrOk (row k + (rl : Int) - 1)))
  copyInstr
    [if b.getLsbD 0 then some (flt fILLOP) else none,
     if rl = 0 then some (flt fILLOP) else none,
     sizeChk (rows * rl),
     scrChk s (0xFE * 2 ^ 24 + loff) (4 * rows) 4,
     if loff % 4 ≠ 0 then some { flt fALIGN with acc := 4, va := w64 (0xFE * 2 ^ 24 + loff) } else none,
     match bad with
     | some k => some { flt fADDROVF with acc := 4, va := BitVec.ofInt 64 (if addrOk (row k) then row k + (rl : Int) - 1 else row k) }
     | none => none,
     scrChk s (lo32 (rS s d)) (rows * rl) 5,
     barChk s r (copyBarParts s.g.idn.part c)] c s

/-! ### Byte-counting barriers (R112 to R115, R383, R384) -/

/-- A barrier object's fields. -/
structure BarObj where
  gen : Nat
  init : Nat
  open_ : Nat
  errs : Bool
  errc : Bool
  landb : Nat
  expb : Nat
deriving DecidableEq, Repr

def barOf (x : Nat) : BarObj where
  gen := x / 2 ^ 112 % 65536
  init := x / 2 ^ 96 % 65536
  open_ := x / 2 ^ 80 % 65536
  errs := x.testBit 65
  errc := x.testBit 64
  landb := x / 2 ^ 32 % 2 ^ 32
  expb := x % 2 ^ 32

def barBits (b : BarObj) : Nat :=
  b.gen % 65536 * 2 ^ 112 + b.init % 65536 * 2 ^ 96 + b.open_ % 65536 * 2 ^ 80 + (if b.errs then 2 ^ 65 else 0)
    + (if b.errc then 2 ^ 64 else 0) + b.landb % 2 ^ 32 * 2 ^ 32 + b.expb % 2 ^ 32

/-- The completion test. -/
def barTest (b : BarObj) : BarObj :=
  if b.open_ = 0 ∧ b.landb = b.expb then
    { b with gen := (b.gen + 1) % 65536, expb := 0, landb := 0, open_ := b.init }
  else b

/-- One update (R114). -/
def barUpd (u : BarUpd) (b : BarObj) : BarObj :=
  match u with
  | .seal => if b.open_ = 0 then { b with errs := true } else barTest { b with open_ := b.open_ - 1 }
  | .expect n => if b.expb + n ≥ 2 ^ 32 then { b with errc := true } else barTest { b with expb := b.expb + n }
  | .credit k => if b.landb + k ≥ 2 ^ 32 then { b with errc := true } else barTest { b with landb := b.landb + k }

/-- What a bbwait for a generation finds in the object: 1 after an error, 0 when the generation has completed. -/
def barEnds (b : BarObj) (gen : Nat) : Option Nat :=
  if b.errs || b.errc then some 1 else if b.gen = gen then none else some 0

/-- A bbwait under way on the object looks at it after an update: the first that ends the wait decides (R384). -/
def barSeen (core off : Nat) (b : BarObj) (g : Group) : Group :=
  match g.bbOn with
  | some (c, o, gen, none) => if c = core ∧ o = off then { g with bbOn := some (c, o, gen, barEnds b gen) } else g
  | _ => g

/-- An update at the barrier's SRAM, after which the waits on it look at the object. -/
def barApply (core off : Nat) (u : BarUpd) (s : State) : State :=
  let b := barUpd u (barOf (sramBytes s core off 16))
  wakeWhere (fun g => clusterOf g.idn.core == clusterOf core)
    (mapGroups (fun g => g.bbOn.isSome) (barSeen core off b) (sramPut core off 16 (barBits b) s))

/-- BARRIER_UPDATE (R114). -/
def execBarrierUpdate (s : State) : Out :=
  match s.ev with
  | some (.barrier_update _ core off u) => .next (barApply core off u s)
  | _ => .next s

/-- The checks of a barrier instruction's object (R383). DEDUCED, log 20. -/
def barAcc (a : SReg) (s : State) : LaneAcc := scrLane s 16 0 (rS s a) 0 16

/-- An update instruction: a non-returning scratch atomic; release is the hold of R134 at .clu. -/
def barInstr (release : Bool) (a : SReg) (upd : Nat → Nat → State → State) (s : State) : Out :=
  let l := barAcc a s
  match l.scr with
  | none => .next (match laneFault 2 [l] with
    | some f => raiseW f s
    | none => s)
  | some p =>
    if s.g.n.sts.length ≥ 63 || partStarting s [l] || (release && releaseWaits s 2) then .next (block s)
    else .next (retireS (addUnit s.tick 0 (upd p.core p.off s)))

def execBbinit (a b : SReg) (s : State) : Out :=
  let n := (rS s b).toNat
  if n > 65535 then .next (raiseI fILLOP s)
  else barInstr false a (fun core off s => wakeWhere (fun g => clusterOf g.idn.core == clusterOf core)
    (sramPut core off 16 (barBits { gen := 0, init := n, open_ := n, errs := false, errc := false, landb := 0, expb := 0 }) s)) s

def execBbexp (a b : SReg) (s : State) : Out :=
  barInstr false a (fun core off => barApply core off (.expect (rS s b).toNat)) s

def execBbseal (a : SReg) (s : State) : Out := barInstr true a (fun core off => barApply core off .seal) s

/-- The scope code of .dev. -/
def scDev : Nat := 3

/-- The end of a bbwait with the status an update or the object has given: an acquire where the generation is complete. -/
def bbEnds (d : SReg) (on : Nat × Nat × Nat) (r : Nat) (s : State) : State :=
  if r = 1 then retireS (wS s d 1)
  else if coreFilling s s.g.idn.core then blockSeen { s with g := { s.g with bbOn := some (on.1, on.2.1, on.2.2, some r) } }
  else retireS (acquireNow scDev (wS s d 0))

/-- bbwait (R384): the first update that ended a wait under way has decided it, whatever has become of the part since. -/
def execBbwait (d a b : SReg) (s : State) : Out :=
  match s.g.bbOn with
  | some (c, o, n, some r) => .next (bbEnds d (c, o, n) r s)
  | _ =>
    let l := barAcc a s
    match l.scr with
    | none => .next (match laneFault 0 [l] with
      | some f => raiseW f s
      | none => s)
    | some p =>
      if partStarting s [l] then .next (block s)
      else
        let gen := (rS s b).toNat % 65536
        match barEnds (barOf (sramBytes s p.core p.off 16)) gen with
        | some r => .next (bbEnds d (p.core, p.off, gen) r s)
        | none => .next (blockSeen { s with g := { s.g with bbOn := some (p.core, p.off, gen, none) } })

/-! ### Counter waits (R116 to R118, R144, R145, R385) -/

def ctrLd (g : Group) : Nat := g.n.ld
/-- A handler does not wait for the unit of the store that it serves, which completes after it. DESIGN CHOICE, log 47. -/
def ctrSt (g : Group) : Nat := (if g.x.sup then g.n.sts.filter (fun u => u.left != 0 || g.x.unit != some u.id) else g.n.sts).length
def ctrCp (g : Group) : Nat := g.n.cps.length
def ctrMx (g : Group) : Nat := g.n.batches.length

/-- A threshold of 63 always holds. -/
def under (n : Nat) (t : Nat) : Bool := decide (t ≥ 63) || decide (n ≤ t)

/-- The acquire of a satisfied CP condition (R144). -/
def copyAcquire (s : State) : State := if s.g.n.copied then acquireNow scDev s else s

def execWaitc (ld st cp mx : BitVec 6) (s : State) : Out :=
  if under (ctrLd s.g) ld.toNat && under (ctrSt s.g) st.toNat && under (ctrCp s.g) cp.toNat && under (ctrMx s.g) mx.toNat
      && !(s.g.n.copied && coreFilling s s.g.idn.core) then .next (retireS (copyAcquire s))
  else .next (block s)

def execWaitp (c : BitVec 2) (a : SReg) (s : State) : Out :=
  let n := match c.toNat with
    | 0 => ctrLd s.g
    | 1 => ctrSt s.g
    | 2 => ctrCp s.g
    | _ => ctrMx s.g
  if under n (rS s a).toNat && !(c == 2 && s.g.n.copied && coreFilling s s.g.idn.core) then
    .next (retireS (if c = 2 then copyAcquire s else s))
  else .next (blockSeen s)

/-! ### The queue window (R150, R183, R184, R386) -/

def execQpush (v : VReg) (s : State) : Out :=
  match vregFault s.g [v] with
  | some c => .next (raiseI c s)
  | none =>
    if s.g.idn.kind ≠ .drone ∨ s.g.mateGone then .next (raiseI fQWIN s)
    else match findGroup s s.g.idn.mate with
      | none => .next (raiseI fQWIN s)
      | some h =>
        if h.qcount ≥ h.idn.qlen then .next (blockSeen s)
        else if releaseWaits s 1 then .next (block s)
        else
          let r := h.idn.qbase + (h.qhead + h.qcount) % h.idn.qlen
          .next (retireS (modGroup h.idn.gid (fun h =>
            wakeGroup s { putLanes h r (List.range 32) (rV s v) with qcount := h.qcount + 1 }) s))

def execQpop (v : VReg) (s : State) : Out :=
  match vregFault s.g [v] with
  | some c => .next (raiseI c s)
  | none =>
    if s.g.idn.kind ≠ .compute ∨ s.g.idn.qlen = 0 then .next (raiseI fQWIN s)
    else if s.g.qcount = 0 then .next (if s.g.mateGone then raiseI fQWIN s else blockSeen s)
    else
      let r := s.g.idn.qbase + s.g.qhead
      let g := putLanes s.g v.toNat (List.range 32) (fun l => cellGet s.g.vregs (32 * r + l))
      .next (retireS (wakeGid g.idn.mate
        { s with g := { g with qhead := (g.qhead + 1) % g.idn.qlen, qcount := g.qcount - 1 } }))

/-- The status word of the pair's window. -/
def qword (q head count : Nat) (px : Bool) : Word64 :=
  w64 ((if px then 2 ^ 31 else 0) + q * 2 ^ 24 + (head + count) % Nat.max 1 q * 2 ^ 16 + head * 2 ^ 8 + count)

def execQstat (d : SReg) (s : State) : Out :=
  let g := s.g
  if (g.idn.kind ≠ .compute ∧ g.idn.kind ≠ .drone) ∨ g.idn.qlen = 0 then scalarOut d 0 s
  else if g.idn.kind = .compute then scalarOut d (qword g.idn.qlen g.qhead g.qcount g.mateGone) s
  else match findGroup s g.idn.mate with
    | some h => scalarOut d (qword g.idn.qlen h.qhead h.qcount g.mateGone) s
    | none => scalarOut d (qword g.idn.qlen 0 0 true) s

end Sys2Proof.Machine
end

