-- ==== Sys2Proof/Machine/Progress.lean ====
section
/-! DEFINITION. Stamps, reach rules, frontiers and the progress unit; named barriers, frontier waits and counts, OP7 0x70
to 0x72 (R196 to R215, R407 to R413). -/
namespace Sys2Proof.Machine

/-! ### Stamps (R196 to R198) -/

/-- Loop counter j, 1 to 3, of a counter word. -/
def cwI (w : Word64) (j : Nat) : Nat := (w.extractLsb' (64 - 16 * j) 16).toNat
def cwDepth (w : Word64) : Nat := (w.extractLsb' 14 2).toNat

def mkCw (i1 i2 i3 d : Nat) : Word64 := w64 (i1 % 65536 * 2 ^ 48 + i2 % 65536 * 2 ^ 32 + i3 % 65536 * 2 ^ 16 + d % 4 * 2 ^ 14)

def stampWf (t : Stamp) : Bool :=
  decide (t.cw.toNat % 2 ^ 14 = 0) && t.epoch != BitVec.allOnes 64
    && [1, 2, 3].all (fun j => decide (j ≤ cwDepth t.cw) || cwI t.cw j == 0)

/-- A stamp's place in the order: epoch, then the loop counters; DEPTH takes no part. -/
def stampKey (t : Stamp) : Nat := t.epoch.toNat * 2 ^ 48 + t.cw.toNat / 2 ^ 16

def stampLt (a b : Stamp) : Bool := decide (stampKey a < stampKey b)
def stampLe (a b : Stamp) : Bool := decide (stampKey a ≤ stampKey b)

def stampTop (d : Nat) : Stamp where
  epoch := BitVec.allOnes 64
  cw := mkCw (if d ≥ 1 then 65535 else 0) (if d ≥ 2 then 65535 else 0) (if d ≥ 3 then 65535 else 0) d

/-- The end stamp of an epoch at a depth (R221). -/
def endStamp (e : Word64) (d : Nat) : Stamp := { stampTop d with epoch := e }

def stampAt (e : Word64) (d : Nat) : Stamp := { epoch := e, cw := mkCw 0 0 0 d }

/-! ### Locations and reach rules (R200 to R203) -/

def locOf (c : Ctx) (l : Nat) : Option LocEnt := match c.locs[l]? with
  | some e => if e.v then some e else none
  | none => none

def ruleAt (c : Ctx) (m l r : Nat) : Word64 := cellGet c.rules ((m * c.locs.length + l) * 4 + r)
def ruleV (w : Word64) : Bool := w.getLsbD 0
def ruleDch (w : Word64) : Nat := (w.extractLsb' 2 2).toNat
/-- Level code and addend of level j. -/
def ruleL (w : Word64) (j : Nat) : Nat := (w.extractLsb' (10 - 2 * j) 2).toNat
def ruleA (w : Word64) (j : Nat) : Nat := cwI w j

/-- One level of a carried stamp. -/
def carryLevel (w : Word64) (t : Stamp) (j : Nat) : Option Nat :=
  if ruleL w j = 1 then (if cwI t.cw j + ruleA w j > 65535 then none else some (cwI t.cw j + ruleA w j))
  else if ruleL w j = 2 then some 0
  else some (cwI t.cw j)

/-- A stamp carried along a rule (R203). -/
def carry (w : Word64) (t : Stamp) : Option Stamp :=
  match carryLevel w t 1, carryLevel w t 2, carryLevel w t 3 with
  | some a, some b, some c =>
    let d := cwDepth t.cw
    if ruleDch w = 1 then some { epoch := t.epoch, cw := mkCw a b c (d + 1) }
    else if ruleDch w = 2 then
      some { epoch := t.epoch, cw := mkCw (if d = 1 then 0 else a) (if d = 2 then 0 else b) (if d = 3 then 0 else c) (d - 1) }
    else some { epoch := t.epoch, cw := mkCw a b c d }
  | _, _, _ => none

/-- The stamps that (m, t) may arrive as at l. -/
def carries (c : Ctx) (m l : Nat) (t : Stamp) : List Stamp :=
  (List.range 4).filterMap (fun r => let w := ruleAt c m l r; if ruleV w then carry w t else none)

/-! ### Frontiers (R204) -/

def stampMin (a b : Stamp) : Stamp := if stampLt b a then b else a

def frontier (s : State) (ctx l : Nat) : Stamp :=
  match ctxOf s ctx with
  | none => stampTop 0
  | some c =>
    let top := stampTop (match c.locs[l]? with
      | some e => e.depth.toNat
      | none => 0)
    s.t.counts.foldl (fun f x =>
      if x.ctx = ctx ∧ x.n ≠ 0 then
        let f := if x.loc = l then stampMin f x.stamp else f
        (carries c x.loc l x.stamp).foldl stampMin f
      else f) top

/-- The frontier of a location as last announced. -/
def announcedOf (s : State) (ctx l : Nat) : Option Announced := s.t.ann.find? (fun a => a.ctx == ctx && a.loc == l)

def reaches (f t : Stamp) : Bool := stampLe t f
def passes (f t : Stamp) : Bool := stampLt t f

/-- Sets a location's announced frontier; sub adds a subscribed cluster. -/
def setAnn (ctx l : Nat) (f : Stamp) (sub : List Nat) (s : State) : State :=
  let ann := if s.t.ann.any (fun a => a.ctx == ctx && a.loc == l) then
      s.t.ann.map (fun a => if a.ctx = ctx ∧ a.loc = l then { a with stamp := f, subs := (a.subs ++ sub).eraseDups } else a)
    else s.t.ann ++ [{ ctx := ctx, loc := l, stamp := f, subs := sub }]
  { s with t := { s.t with ann := ann } }

/-- Whether a shared location is cut off from a peer (R215). -/
def cutOff (s : State) (ctx l : Nat) : Bool := match ctxOf s ctx with
  | some c => c.peers.any (fun p => !p.up) && (match locOf c l with | some e => e.shr | none => false)
  | none => false

/-- What may be announced of a location: its frontier, but nothing below what was announced before (R212, R213). -/
def toAnnounce (s : State) (ctx l : Nat) : Stamp :=
  let f := frontier s ctx l
  match announcedOf s ctx l with
  | some a => if stampLt f a.stamp then a.stamp else f
  | none => f

/-- A subscriber obtains the current frontier (R212, R412), and stays one. DESIGN CHOICE, log 48. -/
def subscribe (ctx l cl : Nat) (s : State) : State :=
  if (announcedOf s ctx l).any (fun a => a.subs.contains cl) || cutOff s ctx l then s else setAnn ctx l (toAnnounce s ctx l) [cl] s

/-! ### The progress unit (R209, R212 to R214) -/

def countOf (s : State) (ctx l : Nat) (t : Stamp) : Int :=
  match s.t.counts.find? (fun x => x.ctx == ctx && x.loc == l && x.stamp == t) with
  | some x => x.n
  | none => 0

def addCount (ctx l : Nat) (t : Stamp) (n : Int) (s : State) : State :=
  let v := countOf s ctx l t + n
  let rest := s.t.counts.filter (fun x => !(x.ctx == ctx && x.loc == l && x.stamp == t))
  let counts := if v = 0 then rest else rest ++ [{ ctx := ctx, loc := l, stamp := t, n := v }]
  { s with t := { s.t with counts := counts } }

/-- Whether an increment at (l, u) lies below an announced frontier, at l or where it reaches (R213). -/
def wouldLower (s : State) (ctx l : Nat) (u : Stamp) : Bool :=
  match ctxOf s ctx with
  | none => false
  | some c =>
    let below := fun m v => match announcedOf s ctx m with
      | some a => stampLt v a.stamp
      | none => false
    below l u || (List.range c.locs.length).any (fun m => (carries c l m u).any (below m))

def inS64 (n : Int) : Bool := decide (-2 ^ 63 ≤ n ∧ n < 2 ^ 63)

/-- The progress unit's report of a discarded delta, and the context's policy (R213). -/
def progressFault (ctx : Nat) (s : State) : State :=
  applyPolicy ctx none fCAPV (due (.fault_record (recOfCtx s 6 (w32 fCAPV) 0 0 ctx)) s)

/-- One delta applied, or discarded with a report. -/
def applyDelta (ctx : Nat) (d : Delta) (s : State) : State :=
  if !inS64 (countOf s ctx d.loc d.stamp + d.amt) || (decide (d.amt > 0) && wouldLower s ctx d.loc d.stamp) then progressFault ctx s
  else addCount ctx d.loc d.stamp d.amt s

/-- A batch applied whole, its increments first (R209). -/
def applyBatch (ctx : Nat) (ds : List Delta) (s : State) : State :=
  let s := (ds.filter (fun d => decide (d.amt > 0))).foldl (fun s d => applyDelta ctx d s) s
  (ds.filter (fun d => decide (d.amt ≤ 0))).foldl (fun s d => applyDelta ctx d s) s

/-- Locations of a context with a subscriber: a cluster's aggregator or the command processor, or a stream (R212). -/
def watched (s : State) (ctx : Nat) : List Nat :=
  match ctxOf s ctx with
  | none => []
  | some c => (List.range c.locs.length).filter (fun l => (announcedOf s ctx l).isSome
      || (match locOf c l with | some e => e.kind == 1 | none => false))

/-- A batch that changes a frontier makes its announcement due (R212). -/
def applyAnnounce (ctx : Nat) (ds : List Delta) (s : State) : State :=
  let before := (watched s ctx).map (fun l => (l, frontier s ctx l))
  let s' := applyBatch ctx ds s
  dues ((before.filter (fun p => frontier s' ctx p.1 != p.2)).map (fun p => Event.frontier_announcement ctx p.1)) s'

/-- Whether a batch touches a location whose counts are exchanged. -/
def batchShared (c : Ctx) (ds : List Delta) : Bool :=
  ds.any (fun d => match locOf c d.loc with
    | some e => e.shr
    | none => false)

/-- A batch goes on to one peer, for the context paired there, and stays until that peer acknowledges it; while the exchange is cut it
is not sent (R214, R215, R486, R492). -/
def sendTo (ds : List Delta) (s : State) (p : Peer) : State :=
  let q := (amGet? s.t.peerSeq p.dev).getD 1
  let b : PeerBatch := { dev := p.dev, seq := q, ctx := p.ctx, ds := ds }
  { s with t := { s.t with peerSeq := amPut s.t.peerSeq p.dev (q + 1), peerOut := s.t.peerOut ++ [b]
                           peerWire := s.t.peerWire ++ (if p.up then [.batch b] else []) } }

/-- A batch of this device that touches a shared location goes on to each peer of its context (R214). -/
def sendPeer (ctx : Nat) (ds : List Delta) (s : State) : State :=
  match ctxOf s ctx with
  | none => s
  | some c => if batchShared c ds then c.peers.foldl (sendTo ds) s else s

/-- BATCH (R209): a context that is gone has no counts (R471). A peer's batch is not forwarded again: that peer sends it to each device itself (R214). DESIGN CHOICE, log 36. -/
def batchArrives (src : BatchSrc) (ctx : Nat) (ds : List Delta) (s : State) : State :=
  let s := applyAnnounce ctx ds s
  match src with
  | .group gid => sendPeer ctx ds (due (.batch_acknowledgement gid) s)
  | .peer _ => s
  | _ => sendPeer ctx ds s

def execBatch (s : State) : Out :=
  match s.ev with
  | some (.batch src ctx ds) => .next (if (ctxOf s ctx).isNone then s else batchArrives src ctx ds s)
  | _ => .next s

/-- Live clusters. -/
def liveClusters (t : Tuning) : List Nat := (List.range 8).filter (clusterLive t)

/-- Whether a stream's input location is l. -/
def streamAt (c : Ctx) (l : Nat) : Bool := match locOf c l with
  | some e => e.kind == 1
  | none => false

/-- Completes the WAIT.STAMP commands of a context that its announced frontiers satisfy (R440). -/
def waitSatisfied (s : State) (ctx : Nat) (w : QCmd) : Bool :=
  (match amGet? s.q.queues w.queue with | some q => q.ctx == ctx | none => false) &&
  (let t : Stamp := ⟨w.body.extractLsb' 0 64, w.body.extractLsb' 64 64⟩
   match announcedOf s ctx (w.body.extractLsb' 128 16).toNat with
   | some a => if w.body.extractLsb' 144 8 = 0 then passes a.stamp t else reaches a.stamp t
   | none => false)

/-- Whether an announced frontier ends an fwait for a location: it reaches the stamp, or passes it (R412). -/
def fwaitEnds (reach : Bool) (f t : Stamp) : Bool := if reach then reaches f t else passes f t

/-- The event that a saved group's fwait awaits has come (R194). -/
def noteFrontier (ctx l : Nat) (f : Stamp) (s : State) : State :=
  mapGroups (fun g => g.status == .saved && g.seen && g.idn.ctx == ctx && g.awaits.any (fun a => a.1 == l && fwaitEnds a.2.1 f a.2.2))
    (fun g => { g with woken := true }) s

/-- FRONTIER_ANNOUNCEMENT (R212): the current frontier becomes the announced one, unless it lies lower, and those who wait on
it look again. -/
def announce (ctx l : Nat) (s : State) : State :=
  if cutOff s ctx l then s
  else
    let f := toAnnounce s ctx l
    let s := noteFrontier ctx l f (wakeWhere (fun g => g.idn.ctx == ctx) (setAnn ctx l f [] s))
    let s := (s.q.waits.filter (waitSatisfied s ctx)).foldl (fun s w => complete w 0 0 0 s) s
    match ctxOf s ctx with
    | some c => if streamAt c l then dues ((liveClusters s.tun).map (fun k => Event.window_engine_step k)) s else s
    | none => s

def execFrontierAnnouncement (s : State) : Out :=
  match s.ev with
  | some (.frontier_announcement ctx l) => .next (announce ctx l s)
  | _ => .next s

/-! ### Fret aggregators (R210) -/

/-- A group's batch enters its cluster's aggregator. DESIGN CHOICE, log 34. -/
def sendBatch (ds : List Delta) (s : State) : State :=
  let cl := clusterOf s.g.idn.core
  let b : Batch := { src := .group s.g.idn.gid, ctx := s.g.idn.ctx, ds := ds }
  let s := { s with t := { s.t with frets := amPut s.t.frets cl ((amGet? s.t.frets cl).getD [] ++ [b]) } }
  due (.fret_forward cl) { s with g := { s.g with n := { s.g.n with batchOut := s.g.n.batchOut + 1 } } }

/-- FRET_FORWARD: the oldest batch goes on to the progress unit. DESIGN CHOICE, log 34. -/
def fretForward (cl : Nat) (s : State) : State :=
  match (amGet? s.t.frets cl).getD [] with
  | [] => s
  | b :: bs => due (.batch b.src b.ctx b.ds) { s with t := { s.t with frets := amPut s.t.frets cl bs } }

def execFretForward (s : State) : Out :=
  match s.ev with
  | some (.fret_forward cl) => .next (fretForward cl s)
  | _ => .next s

/-- BATCH_ACKNOWLEDGEMENT (R208). -/
def execBatchAcknowledgement (s : State) : Out :=
  match s.ev with
  | some (.batch_acknowledgement gid) =>
    .next (wakeGid gid (modGroup gid (fun g => { g with n := { g.n with batchOut := g.n.batchOut - 1 } }) s))
  | _ => .next s

/-! ### Capabilities (R207) -/

/-- Whether a placed stamp names a valid location at its depth. -/
def placedOk (c : Ctx) (l : Nat) (t : Stamp) : Bool := match locOf c l with
  | some e => e.depth.toNat == cwDepth t.cw
  | none => false

/-- Whether a group may increment (m, u). -/
def allowed (c : Ctx) (g : Group) (m : Nat) (u : Stamp) : Bool :=
  let l := g.idn.loc.toNat
  l != 0xFFFF && ((m == l && stampLe g.idn.stamp u)
    || (decide (l < c.locs.length) && (carries c l m g.idn.stamp).any (fun v => stampLe v u)))

/-! ### fwait, pinc, pdec, pmove (R412, R413) -/

def fwait (reach : Bool) (d a b : SReg) (s : State) : Out :=
  let t := rStamp s b
  let l := (rS s a).toNat
  if b.getLsbD 0 || d.getLsbD 0 then .next (raiseI fILLOP s)
  else if l ≥ 65536 || !stampWf t then .next (raiseI fILLOP s)
  else match gCtx s with
    | none => .next (raiseI fCAPV s)
    | some c =>
      if !placedOk c l t then .next (raiseI fCAPV s)
      else
        let s := subscribe s.g.idn.ctx l (clusterOf s.g.idn.core) s
        match announcedOf s s.g.idn.ctx l with
        | none => .next (blockFor (l, reach, t) s)
        | some f =>
          if fwaitEnds reach f.stamp t && !cutOff s s.g.idn.ctx l && !coreFilling s s.g.idn.core then
            .next (retireS (acquireNow scDev (wStamp s d f.stamp)))
          else .next (blockFor (l, reach, t) s)

def execFwaitPass (d a b : SReg) (s : State) : Out := fwait false d a b s
def execFwaitReach (d a b : SReg) (s : State) : Out := fwait true d a b s

/-- An action of the group at issue that ends its launch's replayability (R465). -/
def leaveReplay (detail : Nat) (s : State) : State := if (gridOf s s.g).isSome then endReplay (rootGrid s 11 s.g.idn.work) detail s else s

/-- A count instruction's batch: the checks of R413, the release of a decrement, then the batch (R153, R465). -/
def countInstr (ill : Bool) (ds : List Delta) (s : State) : Out :=
  if ill then .next (raiseI fILLOP s)
  else match gCtx s with
    | none => .next (raiseI fCAPV s)
    | some c =>
      if !ds.all (fun d => placedOk c d.loc d.stamp && (decide (d.amt ≤ 0) || allowed c s.g d.loc d.stamp)) then .next (raiseI fCAPV s)
      else if ds.any (fun d => decide (d.amt < 0)) && releaseWaits s scDev then .next (block s)
      else
        let s := leaveReplay 3 s
        .next (retireS (sendBatch ds s))

def execPinc (a b c : SReg) (s : State) : Out :=
  let l := (rS s a).toNat
  let n := (rS s c).toNat
  let t := rStamp s b
  if b.getLsbD 0 then .next (raiseI fILLOP s)
  else countInstr (decide (l ≥ 65536) || decide (n ≥ 2 ^ 32) || decide (n = 0) || !stampWf t) [{ loc := l, stamp := t, amt := (n : Int) }] s

def execPdec (a b c : SReg) (s : State) : Out :=
  let l := (rS s a).toNat
  let n := (rS s c).toNat
  let t := rStamp s b
  if b.getLsbD 0 then .next (raiseI fILLOP s)
  else countInstr (decide (l ≥ 65536) || decide (n ≥ 2 ^ 32) || decide (n = 0) || !stampWf t) [{ loc := l, stamp := t, amt := -(n : Int) }] s

def execPmove (a b c : SReg) (s : State) : Out :=
  let x := (rS s a).toNat
  let t := rStamp s b
  let u := rStamp s c
  if b.getLsbD 0 || c.getLsbD 0 then .next (raiseI fILLOP s)
  else countInstr (decide (x ≥ 2 ^ 32) || !stampWf t || !stampWf u)
    [{ loc := x / 65536, stamp := u, amt := 1 }, { loc := x % 65536, stamp := t, amt := -1 }] s

/-! ### Named barriers (R409 to R411) -/

/-- Members of a group's team, P × G. -/
def memberCount (g : Group) : Nat := g.idn.npart * g.idn.ngrp
def memberIdx (g : Group) : Nat := g.idn.part * g.idn.ngrp + g.idn.gidx

def Barrier.fresh (members : Nat) : Barrier :=
  { mask := BitVec.ofNat 64 (2 ^ members - 1), arrived := 0, gen := 0, pendm := none }

def barrierAt (t : Team) (members b : Nat) : Barrier := (amGet? t.bars b).getD (Barrier.fresh members)

/-- The completion test. -/
def barrierTest (exits : Word64) (b : Barrier) : Barrier :=
  if b.mask &&& ~~~(b.arrived ||| exits) = 0 then
    { mask := b.pendm.getD b.mask, arrived := 0, gen := b.gen + 1, pendm := none }
  else b

def bit64 (n : Nat) : Word64 := (1 : Word64) <<< n

/-- Whether a group may use named barriers. -/
def barrierUser (g : Group) : Bool := g.idn.kind == .compute || g.idn.kind == .job

def setBarrier (n : Nat) (b : Barrier) (s : State) : State :=
  wakeTeam s.g.idn.team (modTeam s.g.idn.team (fun t => { t with bars := amPut t.bars n b }) s)

def execBarArr (d : SReg) (b : BitVec 6) (s : State) : Out :=
  let t := gTeam s
  let x := barrierAt t (memberCount s.g) b.toNat
  let me := bit64 (memberIdx s.g)
  if !barrierUser s.g || x.mask &&& me = 0 then .next (raiseI fILLOP s)
  else if x.arrived &&& me ≠ 0 || releaseWaits s 2 then .next (block s)
  else .next (retireS (wS (setBarrier b.toNat (barrierTest t.exits { x with arrived := x.arrived ||| me }) s) d x.gen))

def execBarWait (a : SReg) (b : BitVec 6) (s : State) : Out :=
  let x := barrierAt (gTeam s) (memberCount s.g) b.toNat
  if !barrierUser s.g then .next (raiseI fILLOP s)
  else if (rS s a).toNat < x.gen.toNat && !coreFilling s s.g.idn.core then .next (retireS (acquireNow 2 s))
  else .next (blockSeen s)

def execBarSetm (a : SReg) (b : BitVec 6) (s : State) : Out :=
  let x := barrierAt (gTeam s) (memberCount s.g) b.toNat
  let m := rS s a
  if !barrierUser s.g || m.toNat ≥ 2 ^ memberCount s.g then .next (raiseI fILLOP s)
  else .next (retireS (setBarrier b.toNat (if x.arrived = 0 then { x with mask := m } else { x with pendm := some m }) s))

/-- A member's exit: the completion test of every barrier it is a member of. -/
def barrierExit (g : Group) (s : State) : State :=
  let me := bit64 (memberIdx g)
  wakeTeam g.idn.team (modTeam g.idn.team (fun t =>
    let ex := t.exits ||| me
    { t with exits := ex
             bars := (List.range 64).foldl (fun bs n =>
               let x := barrierAt t (memberCount g) n
               if x.mask &&& me = 0 then bs else
                 let y := barrierTest ex x
                 if y = Barrier.fresh (memberCount g) then amDel bs n else amPut bs n y) t.bars }) s)

end Sys2Proof.Machine
end

