-- ==== Sys2Proof/Machine/Matrix.lean ====
section
/-! DEFINITION. The tensor identifier table and the matrix engine slice, OP7 0x68 to 0x6F (R146, R147, R259, R260, R388 to
R406). -/
namespace Sys2Proof.Machine

/-! ### tidset and tidget (R391, R392) -/

/-- Lanes 0 to 7 of a register as an entry. -/
def entryOf (s : State) (v : VReg) : BitVec 512 :=
  (List.range 8).foldl (fun (a : BitVec 512) q => a ||| ((rV s v q).zeroExtend 512 <<< (64 * q))) 0

/-- The TIDs an incomplete command names. -/
def copyTids (c : CopyCmd) : List Nat := if !c.finished && (c.opc == 4 || c.opc == 5) then [c.tid.toNat] else []

def mxSteps (c : MxCmd) : Nat := if c.zero then 1 else c.n
def mxDone (c : MxCmd) : Bool := decide (c.step ≥ mxSteps c)

def mxTids (c : MxCmd) : List Nat :=
  if c.zero || mxDone c then []
  else [c.opw.toNat % 256, c.opw.toNat / 256 % 256]
    ++ (if tidScs c.tida = 2 then [tidSctid c.tida] else []) ++ (if tidScs c.tidb = 2 then [tidSctid c.tidb] else [])

/-- Whether an incomplete command of the team names the TID. -/
def tidBusy (s : State) (n : Nat) : Bool :=
  (allGroups s).any (fun g => g.idn.team == s.g.idn.team && g.status != .gone
    && ((g.n.cps.flatMap copyTids).contains n || (g.n.mxs.flatMap mxTids).contains n))

def execTidset (v : VReg) (t : BitVec 8) (s : State) : Out :=
  match vregFault s.g [v] with
  | some c => .next (raiseI c s)
  | none =>
    let e := entryOf s v
    if !tidWf e then .next (raiseI fILLOP s)
    else if tidBusy s t.toNat then .next (block s)
    else .next (retireS (modTeam s.g.idn.team (fun x => { x with tids := cellPut x.tids t.toNat (tidNorm e) }) s))

def execTidget (v : VReg) (t : BitVec 8) (s : State) : Out :=
  match vregFault s.g [v] with
  | some c => .next (raiseI c s)
  | none =>
    let e := tidOf s t.toNat
    .next (retireS { s with g := putLanes s.g v.toNat (List.range 8) (fun q => e.extractLsb' (64 * q) 64) })

/-! ### Formats and origins (R393 to R395, R397) -/

/-- K and the tile width of a pairing. -/
def mxPair (a b : Ty5) : Option (Nat × Bool) :=
  match a, b with
  | .f64, .f64 => some (4, true)
  | .f32, .f32 => some (8, false)
  | .bf16, .bf16 => some (16, false)
  | .f16, .f16 => some (16, false)
  | .n4, .n4 => some (64, false)
  | x, y => if x.isF8 && y.isF8 then some (32, false) else none

def mxK (c : MxCmd) : Nat := match mxPair (tidTy c.tida) (tidTy c.tidb) with
  | some p => p.1
  | none => 0

/-- The two halves of a register as s32. -/
def s32lo (v : Word64) : Int := (v.extractLsb' 0 32).toInt
def s32hi (v : Word64) : Int := (v.extractLsb' 32 32).toInt

/-- The s16 at bits 16 i of the step register. -/
def s16at (v : Word64) (i : Nat) : Int := (v.extractLsb' (16 * i) 16).toInt

/-- The origin of an operand at a step. -/
def mxOrigin (c : Word64) (dn : Word64) (b : Bool) (step : Nat) : Int × Int :=
  (s32lo c + (step : Int) * s16at dn (if b then 2 else 0), s32hi c + (step : Int) * s16at dn (if b then 3 else 1))

/-! ### Operand elements (R394, R395) -/

/-- Reads the bytes of an element: its bits, and whether any is poisoned. -/
def elemBytes (a : Agent) (t : Team) (e : BitVec 512) (own : Nat) (xs : List Int) : Nat → Nat → Nat → Bool → State → EngRes
  | 0, _, v, po, s => .ok v po s
  | n + 1, b, v, po, s =>
    match tidByte e own false xs b with
    | none => .ok v po s
    | some (p, o) =>
      match engRead a t false p s with
      | .ok x m s =>
        let y := if tidNib e = 1 then x / 2 ^ o % 16 else x
        elemBytes a t e own xs n (b + 1) (v + y * 256 ^ b) (po || m) s
      | r => r

def elemRead (a : Agent) (t : Team) (e : BitVec 512) (own : Nat) (xs : List Int) (s : State) : EngRes :=
  elemBytes a t e own xs (Nat.max 1 (tidNib e / 2)) 0 0 false s

/-- Where the scale of an N4 element comes from: a quarter of a register, or a scale tensor. -/
structure ScaleSrc where
  tensor : BitVec 512
  reg : BitVec 2048
  q : Nat
deriving DecidableEq, Repr

/-- The indices whose scale an element takes (R395). -/
def scaleIdx (e : BitVec 512) (xs : List Int) : List Int :=
  let ys := if tidInside e xs || tidEdge e == 0 then xs else tidEdgeIdx e xs
  [ys.getD 0 0 / 32, ys.getD 1 0]

/-- The scale byte of an element (R395): r is its row or column and k its place in the step. -/
def scaleRead (a : Agent) (t : Team) (e : BitVec 512) (own : Nat) (x : ScaleSrc) (xs : List Int) (r k : Nat) (s : State) :
    EngRes :=
  if tidScs e = 1 then
    .ok (x.reg.extractLsb' (8 * (64 * x.q + 2 * r + k / 32)) 8).toNat false s
  else
    elemRead a t x.tensor own (scaleIdx e xs) s

/-- The address of an element's lowest byte. -/
def elemAddr (e : BitVec 512) (own : Nat) (xs : List Int) : Nat := match tidByte e own false xs 0 with
  | some (.glob va, _) => va
  | some (.scr p o, _) => scrAddr p o
  | _ => 0

/-- A poisoned operand byte is the fault of its own address (R80, R399). -/
def eccuAt (va : Nat) : EngRes := .fault { code := fECCU, detail := 0, level := 0 } va

/-- The value of an operand element. -/
def elemVal (a : Agent) (t : Team) (e : BitVec 512) (own : Nat) (x : ScaleSrc) (xs : List Int) (r k : Nat) (s : State) :
    FVal × EngRes :=
  match elemRead a t e own xs s with
  | .ok v po s =>
    if po then (.fin false 0 0, eccuAt (elemAddr e own xs))
    else if tidTy e = .n4 then
      match scaleRead a t e own x xs r k s with
      | .ok _ true _ => (.fin false 0 0, eccuAt (elemAddr x.tensor own (scaleIdx e xs)))
      | .ok sc false s => (n4Val v sc, .ok 0 false s)
      | r => (.fin false 0 0, r)
    else (fUnpack (fmtOf5 (tidTy e)) v, .ok 0 false s)
  | r => (.fin false 0 0, r)

/-- The elements of one row or column, k from 0 up. The list is in rising k. -/
def lineVals (a : Agent) (t : Team) (e : BitVec 512) (own : Nat) (x : ScaleSrc) (o : Int × Int) (r : Nat) :
    Nat → Nat → List FVal → State → List FVal × EngRes
  | 0, _, vs, s => (vs, .ok 0 false s)
  | n + 1, k, vs, s =>
    let xs := [o.1 + (k : Int), o.2 + (r : Int)]
    let p := elemVal a t e own x xs r k s
    match p.2 with
    | .ok _ _ s => lineVals a t e own x o r n (k + 1) (vs ++ [p.1]) s
    | r => ([], r)

/-- The rows of A or the columns of B, from r up. -/
def panelVals (a : Agent) (t : Team) (e : BitVec 512) (own : Nat) (x : ScaleSrc) (o : Int × Int) (kk : Nat) :
    Nat → Nat → List (List FVal) → State → List (List FVal) × EngRes
  | 0, _, vs, s => (vs, .ok 0 false s)
  | n + 1, r, vs, s =>
    let p := lineVals a t e own x o r kk 0 [] s
    match p.2 with
    | .ok _ _ s => panelVals a t e own x o kk n (r + 1) (vs ++ [p.1]) s
    | q => ([], q)

/-! ### One step (R259, R399) -/

def tileKey (a i j : Nat) : Nat := 1024 * a + 32 * i + j

/-- A tile after a step, with the step's flags. -/
def stepTile (w64 : Bool) (r : Rnd) (a : Nat) (rows cols : List (List FVal)) (tiles : Cells 64) : Cells 64 × FFlags :=
  let f := if w64 then fmt64 else fmt32
  (List.range 1024).foldl (fun (x : Cells 64 × FFlags) ij =>
    let i := ij / 32
    let j := ij % 32
    let y := fDotK f r (fUnpack f (cellGet tiles (tileKey a i j)).toNat) ((rows.getD i []).zip (cols.getD j []))
    (cellPut x.1 (tileKey a i j) (BitVec.ofNat 64 y.1), x.2 ||| y.2)) (tiles, 0)

/-- How a step ends: the tiles and flags it leaves, a fault, or a wait for lines whose snoops have been sent. -/
inductive MxRes where
  | ok (tiles : Cells 64) (fl : FFlags) (s : State)
  | fault (f : AFlt) (va : Nat)
  | wait (ls : List Nat) (s : State)

/-- One step of a command on the tiles given. -/
def mxApply (s : State) (g : Group) (c : MxCmd) (tiles : Cells 64) : MxRes :=
  if c.zero then
    .ok ((List.range 1024).foldl (fun x n => cellPut x (1024 * c.acc.toNat + n) 0) tiles) 0 s
  else
    let t := (teamOf s g.idn.team).getD Team.nil
    let a := engineOf s g
    let sa : ScaleSrc := { tensor := c.sca, reg := c.scra, q := (c.opw.toNat / 2 ^ 16 + c.step) % 4 }
    let sb : ScaleSrc := { tensor := c.scb, reg := c.scrb, q := (c.opw.toNat / 2 ^ 18 + c.step) % 4 }
    let ra := panelVals a t c.tida g.idn.part sa (mxOrigin c.c0 c.dn false c.step) (mxK c) 32 0 [] s
    match ra.2 with
    | .fault f va => .fault f va
    | .wait ls s => .wait ls s
    | .ok _ _ s =>
      let rb := panelVals a t c.tidb g.idn.part sb (mxOrigin c.c1 c.dn true c.step) (mxK c) 32 0 [] s
      match rb.2 with
      | .fault f va => .fault f va
      | .wait ls s => .wait ls s
      | .ok _ _ s =>
        let y := stepTile g.idn.accw64 c.rnd c.acc.toNat ra.1 rb.1 tiles
        .ok y.1 y.2 s

/-! ### Batches (R402) -/

/-- Batches that have completed leave from the front; their flags go into FPSTAT (R249). -/
def settleMx : List Nat → Group → Group
  | [], g => { g with n := { g.n with batches := [] } }
  | b :: bs, g =>
    if (g.n.mxs.filter (fun c => c.batch == b)).all mxDone then
      settleMx bs { g with
        fpstat := (g.n.mxs.filter (fun c => c.batch == b)).foldl (fun f c => fpstatOr f c.flags) g.fpstat
        n := { g.n with mxs := g.n.mxs.filter (fun c => c.batch ≠ b) } }
    else { g with n := { g.n with batches := b :: bs } }

def settleBatches (g : Group) : Group := settleMx g.n.batches g

/-- Closes the open commands into a batch. -/
def closeBatch (g : Group) : Group :=
  settleBatches { g with n := { g.n with
    mxs := g.n.mxs.map (fun c => if c.batch = 0 then { c with batch := g.n.batchCtr } else c)
    batches := g.n.batches ++ [g.n.batchCtr]
    batchCtr := g.n.batchCtr + 1 } }

def modMx (gid slot : Nat) (f : MxCmd → MxCmd) (s : State) : State :=
  modGroup gid (fun g => { g with n := { g.n with
    mxs := g.n.mxs.map (fun c => if c.slot = slot ∧ !mxDone c then f c else c) } }) s

def findMx (g : Group) (slot : Nat) : Option MxCmd := g.n.mxs.find? (fun c => c.slot == slot && !mxDone c)

/-- The command of a group that the slice performs next. -/
def mxHead (g : Group) : Option MxCmd := g.n.mxs.find? (fun c => !mxDone c)

/-- The elements of one tile. -/
def tileCells (a : Nat) (tiles : Cells 64) : Cells 64 := tiles.filter (fun c => c.1 / 1024 == a)

/-- MATRIX_STEP (R259, R399): the oldest incomplete command of the group takes one step, or parks. -/
def matrixStep (gid slot : Nat) (s : State) : State :=
  match findGroup s gid with
  | none => s
  | some g =>
    match mxHead g with
    | none => s
    | some c =>
      if c.slot ≠ slot ∨ c.parked ∨ !groupRuns g ∨ !storesDone g c.born then s
      else match mxApply s g c g.tiles with
        | .wait ls s => modMx gid slot (fun c => { c with claim := (c.claim ++ ls).eraseDups }) s
        | .fault f va => due (.park true gid slot (engCode f false true slot) (w64 va)) (walkFault (engineOf s g) va 4 f.code s)
        | .ok tiles fl s =>
          let s := modGroup gid (fun g => { g with tiles := tiles }) s
          let s := modMx gid slot (fun c => { c with step := c.step + 1, flags := c.flags ||| fl, claim := [],
                                                     past := c.past ++ [tileCells c.acc.toNat g.tiles] }) s
          wakeWhere (fun h => h.idn.core == g.idn.core || h.idn.team == g.idn.team) (modGroup gid settleBatches s)

def execMatrixStep (s : State) : Out :=
  match s.ev with
  | some (.matrix_step gid slot) => .next (matrixStep gid slot s)
  | _ => .next s

/-! ### Issue (R396 to R398) -/

def mxSlots (g : Group) : List Nat := (g.n.mxs.filter (fun c => !mxDone c)).map (fun c => c.slot)

def mxFull (s : State) : Bool :=
  decide ((mxSlots s.g).length ≥ 16)
    || decide (((allGroups s).filter (fun h => h.idn.core == s.g.idn.core && groupRuns h)).foldl (fun a h => a + (mxSlots h).length) 0 ≥ 64)

def mxAccept (c : MxCmd) (s : State) : State :=
  let c := { c with slot := lowestFree (mxSlots s.g) 16, born := s.tick }
  { s with g := { s.g with n := { s.g.n with mxs := s.g.n.mxs ++ [c] } } }

/-- A command before its acceptance. -/
def mkMx (zero : Bool) (a : AReg) (n : Nat) (opw c0 c1 dn : Word64) (r : Rnd) : MxCmd where
  slot := 0
  acc := a
  zero := zero
  n := n
  step := 0
  opw := opw
  c0 := c0
  c1 := c1
  dn := dn
  rnd := r
  tida := 0
  tidb := 0
  sca := 0
  scb := 0
  scra := 0
  scrb := 0
  batch := 0
  flags := 0
  parked := false
  fcode := 0
  fva := 0
  born := 0
  claim := []
  past := []

def execMxzero (a : AReg) (s : State) : Out :=
  match tileFault s.g a with
  | some c => .next (raiseI c s)
  | none => if mxFull s then .next (block s) else .next (retireS (mxAccept (mkMx true a 1 0 0 0 0 .rne) s))

/-- A whole register as one number. -/
def regImage (s : State) (v : VReg) : BitVec 2048 :=
  (List.range 32).foldl (fun (a : BitVec 2048) l => a ||| ((rV s v l).zeroExtend 2048 <<< (64 * l))) 0

/-- The scale rules of R395 for an operand: whether they hold. -/
def scaleOk (s : State) (e : BitVec 512) (base : Bool) : Bool :=
  tidTy e != .n4 ||
    (match tidScs e with
     | 0 => false
     | 1 => !base
     | _ =>
       let t := tidOf s (tidSctid e)
       tidV t && tidTy t == .z8 && tidScs t == 0 && decide (tidD t ≥ 2))

/-- The scale registers that are read. -/
def scaleRegs (ea eb : BitVec 512) (f : MxForm) : List VReg :=
  match f with
  | .base => []
  | .ext a b _ => (if tidTy ea = .n4 ∧ tidScs ea = 1 then [a] else []) ++ (if tidTy eb = .n4 ∧ tidScs eb = 1 then [b] else [])

/-- For N4 the k origins are multiples of 32 at every step. -/
def n4Aligned (e : BitVec 512) (c dn : Word64) (b : Bool) (n : Nat) : Bool :=
  tidTy e != .n4 || (decide ((mxOrigin c dn b 0).1 % 32 = 0) && (n < 2 || decide ((mxOrigin c dn b 1).1 % 32 = 0)))

def inS32 (x : Int) : Bool := decide (-2 ^ 31 ≤ x ∧ x < 2 ^ 31)

/-- Step 2 of R398 for an operand: its origins, and the box of the first and last steps' tiles. -/
def mxBoxOk (e : BitVec 512) (c dn : Word64) (b : Bool) (n kk : Nat) : Bool :=
  let p := mxOrigin c dn b 0
  let q := mxOrigin c dn b (n - 1)
  let lo0 := termLo p.1 q.1
  let lo1 := termLo p.2 q.2
  let hi0 := termHi p.1 q.1 + (kk : Int) - 1
  let hi1 := termHi p.2 q.2 + 31
  inS32 lo0 && inS32 lo1 && inS32 hi0 && inS32 hi1
    && tileBoxOk e [lo0, lo1] [(hi0 - lo0).toNat + 1, (hi1 - lo1).toNat + 1]

/-- mxstep and mxloop once their registers are read: the checks in the order of R398, then acceptance. -/
def mxIssue (a : AReg) (f : MxForm) (opw c0 c1 : Word64) (n : Nat) (badN : Bool) (dn : Word64) (s : State) : Out :=
  let ea := tidOf s (opw.toNat % 256)
  let eb := tidOf s (opw.toNat / 256 % 256)
  let pair := mxPair (tidTy ea) (tidTy eb)
  let r := match f with
    | .base => Rnd.rne
    | .ext _ _ r => r
  let kk := match pair with
    | some p => p.1
    | none => 0
  let ill := (tileFault s.g a).isSome || !tidV ea || !tidV eb || decide (tidD ea < 2) || decide (tidD eb < 2)
    || (match pair with
        | some p => p.2 != s.g.idn.accw64
        | none => true)
    || decide (opw.toNat ≥ 2 ^ 22) || badN || decide (n = 0)
    || !scaleOk s ea (f == .base) || !scaleOk s eb (f == .base) || !n4Aligned ea c0 dn false n || !n4Aligned eb c1 dn true n
  if ill then .next (raiseI fILLOP s)
  else match vregFault s.g (scaleRegs ea eb f) with
    | some c => .next (raiseI c s)
    | none =>
      if !mxBoxOk ea c0 dn false n kk || !mxBoxOk eb c1 dn true n kk then .next (raiseW { flt fADDROVF with acc := 4 } s)
      else match firstFail ([ea, eb].map (fun e => match tensorScratch (gTeam s) s.g.idn.part e with
          | some (x, va) => some (engFlt 4 x va)
          | none => none)) with
        | some x => .next (raiseW x s)
        | none =>
          if mxFull s then .next (block s)
          else
            let regs := match f with
              | .base => ((0 : BitVec 2048), (0 : BitVec 2048))
              | .ext x y _ => (regImage s x, regImage s y)
            let c := { mkMx false a n opw c0 c1 dn r with
              tida := ea, tidb := eb, sca := tidOf s (tidSctid ea), scb := tidOf s (tidSctid eb), scra := regs.1, scrb := regs.2 }
            .next (retireS (mxAccept c s))

def execMxstep (a : AReg) (t c : SReg) (f : MxForm) (s : State) : Out :=
  if c.getLsbD 0 then .next (raiseI fILLOP s)
  else mxIssue a f (rS s t) (rS s c) (rSn s c 1) 1 false 0 s

def execMxloop (a : AReg) (t c n : SReg) (f : MxForm) (s : State) : Out :=
  if c.getLsbD 0 || n.getLsbD 0 then .next (raiseI fILLOP s)
  else mxIssue a f (rS s t) (rS s c) (rSn s c 1) (lo32 (rS s n)) (decide (hi32 (rS s n) ≠ 0)) (rSn s n 1) s

def execMxfence (d : SReg) (s : State) : Out :=
  if s.g.n.batches.length ≥ 63 then .next (block s)
  else
    let b := w64 s.g.n.batchCtr
    .next (retireS (wS { s with g := closeBatch s.g } d b))

def execMxwait (a : SReg) (s : State) : Out :=
  let n := (rS s a).toNat
  if n ≥ s.g.n.batchCtr then .next (raiseI fILLOP s)
  else if s.g.n.batches.any (fun b => decide (b ≤ n)) then .next (blockSeen s)
  else .next (retireS s)

/-! ### lda and sta (R147, R405) -/

/-- Registers a tile occupies. -/
def tileRegs (g : Group) : Nat := if g.idn.accw64 then 32 else 16

/-- The checks of a tile move's register range and tile name. -/
def tileMoveFault (g : Group) (v : VReg) (a : AReg) : Option Nat :=
  match tileFault g a with
  | some c => some c
  | none =>
    if v.toNat + tileRegs g > g.idn.nv then some fILLOP
    else if (List.range (tileRegs g)).any (fun q => inQWin g (v + BitVec.ofNat 10 q)) then some fQWIN
    else none

/-- Whether an incomplete batch writes a tile; the open commands count as one (R147, R404, R405). -/
def tileBusy (g : Group) (a : AReg) : Bool :=
  g.n.mxs.any (fun c => c.acc == a && g.n.mxs.any (fun d => d.batch == c.batch && !mxDone d))

/-- What a tile has held before the steps of the batches that write it and have not completed. -/
def tilePasts (g : Group) (a : AReg) : List (Cells 64) := (g.n.mxs.filter (fun c => c.acc == a)).flatMap (fun c => c.past)

/-- Element (i, j) as lda reads it: the tile's element; while a batch that writes it has not completed, the element after a
number of the steps taken so far that nothing fixes (R147, DESIGN CHOICE, log 3). -/
def ldaElem (s : State) (a : AReg) (i j : Nat) : Word64 :=
  let ts := tilePasts s.g a
  let n := (Config.free (s.free + 32 * i + j)).toNat % (ts.length + 1)
  cellGet (match ts[n]? with
    | some t => t
    | none => s.g.tiles) (tileKey a.toNat i j)

/-- Register q of the range, lane i. -/
def ldaLane (s : State) (a : AReg) (q i : Nat) : Word64 :=
  if s.g.idn.accw64 then ldaElem s a i q
  else pack 32 (fun e => (ldaElem s a i (2 * q + e)).truncate 32)

def execLda (v : VReg) (a : AReg) (k : KReg) (s : State) : Out :=
  match tileMoveFault s.g v a with
  | some c => .next (raiseI c s)
  | none =>
    let act := actOf s k
    let g := (List.range (tileRegs s.g)).foldl (fun g q => putLanes g (v.toNat + q) (lanesOf act) (ldaLane s a q)) s.g
    .next (retire act { s with g := g, free := if tilePasts s.g a = [] then s.free else s.free + 1024 })

/-- Element (i, j) from the registers. -/
def staElem (s : State) (v : VReg) (i j : Nat) : Word64 :=
  if s.g.idn.accw64 then rV s (v + BitVec.ofNat 10 j) i
  else (sub 32 (rV s (v + BitVec.ofNat 10 (j / 2)) i) (j % 2)).zeroExtend 64

def execSta (v : VReg) (a : AReg) (k : KReg) (s : State) : Out :=
  match tileMoveFault s.g v a with
  | some c => .next (raiseI c s)
  | none =>
    if tileBusy s.g a then .next (block s)
    else
      let act := actOf s k
      let tiles := (lanesOf act).foldl (fun x i =>
        (List.range 32).foldl (fun x j => cellPut x (tileKey a.toNat i j) (staElem s v i j)) x) s.g.tiles
      -- no command is incomplete: what the tile held before their steps is past (R405)
      let mxs := s.g.n.mxs.map (fun c => if c.acc = a then { c with past := [] } else c)
      .next (retire act { s with g := { s.g with tiles := tiles, n := { s.g.n with mxs := mxs } } })

end Sys2Proof.Machine
end

