-- ==== Sys2Proof/Machine/SaveBlock.lean ====
section
/-! DEFINITION. The save block of a team: the bytes its save writes (R24, R102, R161, R389, R409, R457, R463, R473, R474). -/
namespace Sys2Proof.Machine

def up64 (n : Nat) : Nat := (n + 63) / 64 * 64

/-! ### What the block holds -/

/-- CTR (R118). -/
def ctrOf (g : Group) : Word64 :=
  w64 (g.n.batches.length % 64 * 2 ^ 18 + g.n.cps.length % 64 * 2 ^ 12 + g.n.sts.length % 64 * 2 ^ 6 + g.n.ld % 64)

/-- SXSTAT. -/
def sxstatOf (g : Group) : Word64 := w64 ((if g.tev then 4 else 0) + (if g.chz then 2 else 0) + (if g.mcp then 1 else 0))

def sigOf (g : Group) : Word64 := g.sigm ++ g.sigw

/-- CMD of a matrix command (R457). -/
def mxCmdWords (c : MxCmd) : Word64 × Word64 × Word64 × Word64 :=
  (w64 (c.n % 2 ^ 32 + c.opw.toNat % 2 ^ 22 * 2 ^ 32 + c.acc.toNat * 2 ^ 54 + c.rnd.code.toNat * 2 ^ 58), c.c0, c.c1, c.dn)

/-- The order of the drain: by part, then group, then program order (R161). -/
def stageBefore (a b : StageEnt) : Bool :=
  if a.part ≠ b.part then decide (a.part < b.part)
  else if a.gidx ≠ b.gidx then decide (a.gidx < b.gidx)
  else decide (a.seq ≤ b.seq)

def stageInsert (a : StageEnt) : List StageEnt → List StageEnt
  | [] => [a]
  | b :: t => if stageBefore a b then a :: b :: t else b :: stageInsert a t

/-- A part-table entry's 32 bits (R24): an exited part's is zero. -/
def partWord (e : PartEnt) : Nat :=
  if e.left then 0
  else (if e.v then 2 ^ 23 else 0) + (if e.st then 2 ^ 22 else 0) + e.core % 256 * 2 ^ 14 + e.base % 128 * 2 ^ 7 + e.size % 128

/-! ### Fields -/

/-- A field of a block: its offset, its length in bytes, and its value as one little-endian number (R4). -/
abbrev SaveField := Nat × Nat × Nat

def fieldsUp (n : Nat) (fs : List SaveField) : List SaveField := fs.map (fun f => (n + f.1, f.2.1, f.2.2))

/-- THDR; the group gives the shape. -/
def headFields (t : Team) (g : Group) (drones : Bool) : List SaveField :=
  [(0, 8, t.grid), (8, 4, t.tidx), (12, 1, g.idn.npart), (13, 1, g.idn.ngrp),
   (14, 1, (if t.bow = .holds then 1 else 0) + (if drones then 2 else 0))]

def partTabFields (t : Team) : List SaveField := t.parts.zipIdx.map (fun p => (64 + 4 * p.2, 4, partWord p.1))

def barFields (t : Team) (members : Nat) : List SaveField :=
  (List.range 64).flatMap (fun i =>
    let b := barrierAt t members i
    let o := 320 + 64 * i
    [(o, 8, b.mask.toNat), (o + 8, 8, b.arrived.toNat), (o + 16, 8, b.gen.toNat), (o + 24, 8, (b.pendm.getD 0).toNat),
     (o + 32, 8, if b.pendm.isSome then 1 else 0)])

def tidFields (t : Team) : List SaveField := t.tids.map (fun e => (4416 + 64 * e.1, 64, e.2.toNat))

/-- The staged entries of a part, in the order of the drain. -/
def partStaged (t : Team) (p : Nat) : List StageEnt :=
  (t.staged.filter (fun e => e.part == p)).foldl (fun l e => stageInsert e l) []

/-- A part block and its size: allocation size, stash maps, staged entries, scratchpad image. DESIGN CHOICE, log 16. -/
def partBlock (t : Team) (p : Nat) (e : PartEnt) : List SaveField × Nat :=
  let size := if e.left then 0 else e.size * 4096
  let maps := ((t.savedMaps.filter (fun m => m.part == p)).zipIdx).flatMap (fun m =>
    [(8 + 16 * m.2, 8, m.1.va), (16 + 16 * m.2, 4, m.1.size), (20 + 16 * m.2, 4, m.1.off)])
  let st := partStaged t p
  let ents := st.zipIdx.flatMap (fun x =>
    [(272 + 24 * x.2, 8, x.1.va.toNat), (280 + 24 * x.2, 1, x.1.mask.toNat), (288 + 24 * x.2, 8, x.1.data.toNat)])
  let start := 272 + 24 * st.length
  let cells := t.image.filter (fun c => decide (p * 2 ^ 19 ≤ c.1 ∧ c.1 < p * 2 ^ 19 + size))
  ([(0, 8, size)] ++ maps ++ [(264, 8, st.length)] ++ ents ++ cells.map (fun c => (start + (c.1 - p * 2 ^ 19), 1, c.2.toNat)),
   up64 (start + size))

/-- The part blocks from an offset up, and where they end. -/
def partBlocks (t : Team) : Nat → List (PartEnt × Nat) → List SaveField × Nat
  | o, [] => ([], o)
  | o, (e, p) :: es =>
    let b := partBlock t p e
    let r := partBlocks t (o + b.2) es
    (fieldsUp o b.1 ++ r.1, r.2)

/-- VLIVE and ALIVE: the entry of a safe point; else a bit for each allocated register and tile (R473). -/
def liveBits (g : Group) : Nat := match g.saveWay with
  | .safePoint e => e.toNat % 2 ^ 656
  | _ => 2 ^ g.idn.nv - 1 + (2 ^ g.idn.ntile - 1) * 2 ^ 640

/-- A copy slot: the record of an incomplete command, or 32 bytes of 0xFF (R474). -/
def copySlotFields (g : Group) (slot : Nat) : List SaveField :=
  match g.n.cps.find? (fun c => c.slot == slot && !c.finished) with
  | some c => [(0, 8, (copyDword0 g c).toNat), (8, 8, c.d1.toNat), (16, 8, c.d2.toNat), (24, 8, c.d3.toNat)]
  | none => [(0, 32, 2 ^ 256 - 1)]

/-- A matrix command's record, step index, batch number, and captured scale registers. -/
def mxFields (c : MxCmd) : List SaveField :=
  let w := mxCmdWords c
  [(0, 8, w.1.toNat), (8, 8, w.2.1.toNat), (16, 8, w.2.2.1.toNat), (24, 8, w.2.2.2.toNat), (32, 8, c.step), (40, 8, c.batch),
   (64, 256, c.scra.toNat), (320, 256, c.scrb.toNat)]

def queueWord (g : Group) : Nat :=
  if g.idn.kind = .compute ∧ g.idn.qlen ≠ 0 then (qword g.idn.qlen g.qhead g.qcount g.mateGone).toNat else 0

/-- A group block. DESIGN CHOICE, log 16. -/
def groupFields (g : Group) : List SaveField :=
  let el := if g.idn.accw64 then 8 else 4
  [(0, 8, (vaOf g.pc).toNat)]
    ++ (g.sregs.filter (fun c => decide (1 ≤ c.1 ∧ c.1 < 64))).map (fun c => (8 * c.1, 8, c.2.toNat))
    ++ (List.range 6).map (fun i => (512 + 8 * i, 8, (cellGet g.x.sbank (56 + i)).toNat)) ++ [(560, 4, g.x.kbank.toNat)]
    ++ (g.kregs.filter (fun c => decide (1 ≤ c.1 ∧ c.1 < 16))).map (fun c => (564 + 4 * c.1, 4, c.2.toNat))
    ++ [(628, 4, g.live.toNat), (632, 4, if g.x.sup then g.x.liveSave.toNat else 0),
        (640, 8, (ctrOf g).toNat), (648, 8, (sigOf g).toNat), (656, 8, g.fpstat.toNat), (664, 8, (sxstatOf g).toNat),
        (672, 8, g.chainr.toNat), (680, 8, g.n.batchCtr), (688, 8, queueWord g), (696, 8, (vaOf g.x.epc).toNat),
        (704, 8, g.x.faultVa.toNat), (712, 8, g.x.faultCode.toNat), (720, 4, g.x.faultMask.toNat), (724, 4, g.x.doneMask.toNat),
        (728, 8, (if g.saveWay = .forced then 1 else 0) + (if g.x.sup then 2 else 0) + (if g.n.parkQ = [] then 0 else 4))]
    ++ (List.range 8).flatMap (fun i => fieldsUp (736 + 32 * i) (copySlotFields g i))
    ++ (g.n.mxs.filter (fun c => !mxDone c)).flatMap (fun c => fieldsUp (992 + 576 * c.slot) (mxFields c))
    ++ [(10208, 96, liveBits g)]
    ++ (g.vregs.filter (fun c => decide (c.1 < 32 * g.idn.nv))).map (fun c => (10304 + 8 * c.1, 8, c.2.toNat))
    ++ (g.tiles.filter (fun c => decide (c.1 < 1024 * g.idn.ntile))).map (fun c => (10304 + 256 * g.idn.nv + el * c.1, el, c.2.toNat))

def groupBlockSize (g : Group) : Nat :=
  up64 (10304 + 256 * g.idn.nv + g.idn.ntile * (if g.idn.accw64 then 8192 else 4096))

def groupBlocks : Nat → List Group → List SaveField × Nat
  | o, [] => ([], o)
  | o, g :: gs =>
    let r := groupBlocks (o + groupBlockSize g) gs
    (fieldsUp o (groupFields g) ++ r.1, r.2)

/-- The order of the group blocks: by part, then group, each drone after its compute group. -/
def seatOrder (g : Group) : Nat := g.idn.part * 32 + g.idn.gidx * 2 + (if g.idn.kind = .drone then 1 else 0)

def seatInsert (g : Group) : List Group → List Group
  | [] => [g]
  | h :: t => if seatOrder g < seatOrder h then g :: h :: t else h :: seatInsert g t

/-- A saved team's block, of its groups that have not exited, and its length. DESIGN CHOICE, log 16. -/
def teamBlock (t : Team) (gs : List Group) : List SaveField × Nat :=
  match gs.foldl (fun l g => seatInsert g l) [] with
  | [] => ([], 0)
  | g :: rest =>
    let ps := partBlocks t 20800 t.parts.zipIdx
    let bs := groupBlocks ps.2 (g :: rest)
    (headFields t g (gs.any (fun h => h.idn.kind == .drone)) ++ partTabFields t ++ barFields t (memberCount g) ++ tidFields t ++ ps.1 ++ bs.1,
     bs.2)

/-! ### Writing -/

/-- Fields written into memory that holds zero there, the last first. -/
def putFields (base : Nat) (fs : List SaveField) (m : Memory) : Memory :=
  fs.foldr (fun f m => if f.2.2 = 0 then m else memPutBytes m (base + f.1) f.2.1 f.2.2) m

/-- The groups of a team that have not exited. -/
def teamGroups (s : State) (team : Nat) : List Group :=
  (allGroups s).filter (fun g => g.idn.team == team && g.status != .gone && g.idn.gid != 0)

/-- A saved team's block is written at its place (R462, R463). DESIGN CHOICE, log 16. -/
def writeBlock (team : Nat) (s : State) : State :=
  match teamOf s team with
  | none => s
  | some t =>
    if t.saveSize = 0 then s
    else
      let b := teamBlock t (teamGroups s team)
      let s := flushRange t.savePlace b.2 s
      { s with m := { s.m with mem := putFields t.savePlace b.1 (cellClear s.m.mem t.savePlace b.2),
                               poison := cellClear s.m.poison t.savePlace b.2 } }

end Sys2Proof.Machine
end

