-- ==== Sys2Proof/Machine/Save.lean ====
section
/-! DEFINITION. Saving groups and teams (R404, R422, R459, R460, R463), and the rollback of a replayable launch (R464). -/
namespace Sys2Proof.Machine

/-! ### Saving -/

/-- Whether a group may be saved now: its accesses are performed (R155), its matrix commands have drained but for those
behind a parked one (R404), and no host-port value is under way. -/
def drained (g : Group) : Bool :=
  g.n.ld == 0 && !storesOut g && g.hostVals.isEmpty && g.hostDue == 0 && g.n.batchOut == 0
    && (match mxHead g with
        | none => true
        | some c => c.parked)

/-- The registers and tiles that a safe point does not name read zero after resumption (R422). -/
def dropDead (e : BitVec 1024) (g : Group) : Group :=
  { g with vregs := g.vregs.filter (fun c => e.getLsbD (c.1 / 32)), tiles := g.tiles.filter (fun c => e.getLsbD (640 + c.1 / 1024)) }

def keepLive (e : BitVec 1024) (g : Group) : Group := { dropDead e g with saveWay := .safePoint e }

/-- The group saved: its open matrix commands are closed into a batch (R404), and a bbwait has ended (R384). -/
def savedGroup (g : Group) : Group :=
  let g := if g.n.mxs.any (fun c => c.batch == 0) then closeBatch g else g
  let g := match g.saveWay with
    | .safePoint e => dropDead e g
    | _ => g
  { g with bbOn := none, status := .saved, halt := false, saveDue := false, urgent := false, seen := g.status == .waiting && g.seen, woken := false, yieldFor := [], timedOut := false }

def noGroupTimers (gid : Nat) (s : State) : State :=
  [Event.yield_expiry gid, .sleep_expiry gid, .vnbr_timeout gid, .vxshf_timeout gid, .forced_save gid, .urgent gid].foldl (fun s e => noTimer e s) s

/-- The scratchpad of a part, into the image. -/
def imagePart (team : Nat) (t : Team) (p : Nat) (e : PartEnt) (s : State) : State :=
  let core := 256 * t.cluster + e.core
  let lo := sramKey core (e.base * 4096)
  let n := e.size * 4096
  let cells := s.m.sram.filter (fun c => decide (lo ≤ c.1 ∧ c.1 < lo + n))
  let bad := s.m.srPoison.filter (fun c => decide (lo ≤ c.1 ∧ c.1 < lo + n))
  let s := modTeam team (fun x => { x with image := cells.foldl (fun m c => cellPut m (p * 2 ^ 19 + (c.1 - lo)) c.2) x.image,
                                           imagePoison := bad.foldl (fun m c => cellPut m (p * 2 ^ 19 + (c.1 - lo)) c.2) x.imagePoison }) s
  { s with m := { s.m with sram := cellClear s.m.sram lo n, srPoison := cellClear s.m.srPoison lo n } }

/-- The staged entries of a team leave the cores' stage buffers. -/
def liftStaged (team : Nat) (s : State) : State :=
  let es := s.d.cores.flatMap (fun c => c.2.stage.filter (fun e => e.team == team))
  let cores := s.d.cores.map (fun c => (c.1, { c.2 with stage := c.2.stage.filter (fun e => e.team ≠ team) }))
  wakeAll (modTeam team (fun t => { t with staged := t.staged ++ es }) { s with d := { s.d with cores := cores } })

/-- A team whose every group is saved or gone is saved whole: stash maps are unmapped and recorded, scratchpads and staged
entries are taken, its save block is written, and its cores are free (R100, R459, R463). -/
def saveTeam (team : Nat) (s : State) : State :=
  match teamOf s team with
  | none => s
  | some t =>
    if t.saved || (teamGroups s team).isEmpty || (teamGroups s team).any (fun g => g.status != .saved) then s
    else
      let maps := t.stash
      let s := maps.foldl (fun s m => unmapStash team m s) s
      let s := ((t.parts.zipIdx).filter (fun p => !p.1.left)).foldl (fun s p => imagePart team t p.2 p.1 s) s
      let s := liftStaged team s
      writeBlock team (modTeam team (fun x => { x with saved := true, savedMaps := maps }) s)

/-- PREEMPT commands whose context has no group left to save complete (R440). -/
def settlePreempts (s : State) : State :=
  let isDone := fun (c : Nat) => !(allGroups s).any (fun g => g.idn.ctx == c && g.idn.gid != 0 && g.status != .saved && g.status != .gone)
  let fin := s.q.preempts.filter (fun p => isDone p.2)
  fin.foldl (fun s p => complete p.1 0 0 0 s) { s with q := { s.q with preempts := s.q.preempts.filter (fun p => !isDone p.2) } }

/-- A group is saved; then its team and the PREEMPT that asked, if it was the last. -/
def saveGroup (gid : Nat) (s : State) : State :=
  match findGroup s gid with
  | none => s
  | some g => settlePreempts (saveTeam g.idn.team (noGroupTimers gid (withdraw gid (modGroup gid savedGroup s))))

/-- Whether a team is one that the scheduler may save: every group of it is blocked in a wait that the scheduler sees, with
nothing under way but copies that wait for the bow (R194); not the team that holds the bow (R450). DESIGN CHOICE, log 16. -/
def canSwap (s : State) (team : Nat) (t : Team) : Bool :=
  let gs := teamGroups s team
  !t.saved && t.bow != .holds && !gs.isEmpty && gs.all (fun g => g.status == .waiting && g.seen && !g.saveDue && !g.x.sup && drained g
    && g.n.cps.all (fun c => c.finished || !copyBow s g c) && g.n.mxs.all mxDone && g.x.backFlts.isEmpty && g.n.parkQ.isEmpty && g.x.eccu.isNone)

/-- The scheduler saves a team to make room (R194). -/
def swapOut (team : Nat) (s : State) : State :=
  match teamOf s team with
  | none => s
  | some t =>
    if !canSwap s team t then s
    else modTeam team (fun t => { t with swapped := true }) (((teamGroups s team).map (fun g => g.idn.gid)).foldl (fun s i => saveGroup i s) s)

/-- The group is to be saved where it stands: it issues nothing more until its accesses are performed (R459). -/
def haltGroup (gid : Nat) (s : State) : State :=
  timer 16 (.forced_save gid) (noTimer (.forced_save gid) (modGroup gid (fun g => { g with halt := true, urgent := false }) s))

/-- FORCED_SAVE (R459, R460): the group is saved at this boundary with every register, once its accesses are performed. DESIGN CHOICE, log 16. -/
def forcedSave (gid : Nat) (s : State) : State :=
  match findGroup s gid with
  | none => s
  | some g =>
    if !g.saveDue then s
    else
      let s := if !g.halt && (g.status == .running || g.x.sup) then modGroup gid (fun g => { g with saveWay := .forced }) s else s
      if drained g then saveGroup gid s else haltGroup gid s

def execForcedSave (s : State) : Out :=
  match s.ev with
  | some (.forced_save gid) => .next (forcedSave gid s)
  | _ => .next s

/-! ### Rollback of a replayable launch (R464) -/

/-- A launch's grids: itself and its children. -/
def launchGrids (s : State) (root : Nat) : Nat → List Nat → List Nat
  | 0, gs => gs
  | n + 1, gs =>
    let more := (s.d.grids.filter (fun e => gs.contains e.2.rep.parent && e.2.rep.parent != 0 && !gs.contains e.1)).map (fun e => e.1)
    if more = [] then gs else launchGrids s root n (gs ++ more)

/-- Restores a launch's snapshotted granules with their poison marks, after their owners are revoked, their sectors dropped and
the host's copies invalidated (R75, R80). DESIGN CHOICE, log 41. -/
def restoreSnaps (grid : Nat) (gr : Grid) (s : State) : State :=
  gr.snaps.foldl (fun s e =>
    let lo := 65536 * e.1
    let sec := fun (x : Nat) => decide (e.1 * 512 ≤ x ∧ x < e.1 * 512 + 512)
    let l1 := s.m.l1.filter (fun c => !sec (c.1 % 2 ^ 45))
    let l2 := s.m.l2.filter (fun c => !sec c.1)
    let dir := s.m.dir.filter (fun c => !sec (c.1 / 16))
    let mem := s.m.mem.filter (fun c => decide (c.1 < lo ∨ lo + 65536 ≤ c.1))
    let saved := s.m.snaps.filter (fun c => decide (snapKey grid lo ≤ c.1 ∧ c.1 < snapKey grid lo + 65536))
    let mem := saved.foldl (fun m c => memPut m (c.1 % 2 ^ 52) c.2) mem
    let mine := fun (k : Nat) => decide (snapKey grid lo ≤ k ∧ k < snapKey grid lo + 65536)
    let poison := (s.m.snapPoison.filter (fun c => mine c.1)).foldl (fun m c => cellPut m (c.1 % 2 ^ 52) c.2) (cellClear s.m.poison lo 65536)
    let hfilt := s.m.hfilt.filter (fun e => !sec (e.1 / 2))
    { s with m := { s.m with l1 := l1, l2 := l2, dir := dir, mem := mem, poison := poison, hfilt := hfilt,
                             snaps := s.m.snaps.filter (fun c => !mine c.1), snapPoison := s.m.snapPoison.filter (fun c => !mine c.1) } }) s

/-- Whether a fault of a group rolls its launch back: the launch is replayable still, and has been replayed less than twice. -/
def rollsBack (s : State) (g : Group) : Option Nat :=
  match gridOf s g with
  | none => none
  | some _ =>
    let r := rootGrid s 11 g.idn.work
    match amGet? s.d.grids r with
    | some gr => if gr.repl && gr.replOk && decide (gr.replays < 2) then some r else none
    | none => none

/-- The rollback and replay of a launch: its teams and children are discarded, memory is restored, the core that raised F_SIG is
quarantined, and the launch's teams start again from the first, on other cores than the one that the fault arose on. The +1 of a child
grid that is discarded stands, as the launch's own does, and the replay's child adds its own. DESIGN CHOICE, log 41. -/
def rollback (grid code : Nat) (core : Option Nat) (s : State) : State :=
  match amGet? s.d.grids grid with
  | none => s
  | some gr =>
    let gs := launchGrids s grid 11 [grid]
    let s := discardTeams (fun t => gs.contains t.grid && !t.isJob) s
    let s := restoreSnaps grid gr s
    let kids := gs.filter (fun g => g ≠ grid)
    let s := { s with d := { s.d with grids := s.d.grids.filter (fun e => !kids.contains e.1) } }
    let s := match core with
      | some c => if code = fSIG then setCore c { coreOf s c with quarantined := true } s else s
      | none => s
    let s := modGrid grid (fun x => { x with nextTeam := 0, base := 0, exitedAbove := [], teamsUp := 0, kids := 0, snaps := [],
                                             replays := x.replays + 1, bowTeam := 0, avoid := x.avoid ++ core.toList }) s
    due (.fault_record { recOfCtx s 5 (w32 code) 0 0 gr.ctx with by_ := gr.rep.cmd.map (fun c => c.id) }) (giveBow s)

end Sys2Proof.Machine
end

