-- ==== Sys2Proof/Machine/System.lean ====
section
/-! DEFINITION. Waits on words, the bow, safe points, the signature, traps, the supervisor instructions and the system
registers, OP7 0x77 to 0x7E (R40, R162, R163, R419 to R430). -/
namespace Sys2Proof.Machine

/-! ### wait.v and wake (R419, R420) -/

/-- What the checks of wait.v and wake give for an address: a fault, or the segment of the word. -/
def wordAt (s : State) (a : SReg) : Flt ⊕ Seg :=
  let l := globLane s 0 8 0 (rS s a).toNat 8
  match laneFault 0 [l] with
  | some f => .inl f
  | none => match l.segs with
    | g :: _ => if g.kind = 3 then .inl (flt fILLOP) else .inr g
    | [] => .inl (flt fILLOP)

/-- The word as its home gives it with the core's own stores over it, and whether it is poisoned. -/
def wordRead (s : State) (g : Seg) : Word64 :=
  if g.kind = 2 then w64 (hostRead s g.pa 8)
  else (readThrough s s.g.idn.core (g.pa / 128) 0).data.extractLsb' (8 * (g.pa % 128)) 64
def wordPoisoned (s : State) (g : Seg) : Bool :=
  if g.kind = 2 then hostMarks s g.pa 8 != 0
  else (readThrough s s.g.idn.core (g.pa / 128) 0).poison &&& span128 (g.pa % 128) 8 != 0

/-- What the read does beside its value: the core's V copy of the word goes (R131), what the home holds is the one used last, and a
stash that has answered writes back (R53, R99). -/
def wordReadUse (g : Seg) (s : State) : State :=
  if g.kind = 2 then hostUse g.pa 8 s
  else lazyBacks (g.pa / 128) (some s.g.idn.core)
    (homeTouch (g.pa / 128) (dropVWord s.g.idn.core (g.pa / 128) (maskWords (span128 (g.pa % 128) 8)) s))

/-- The lines that a read of the word must have snooped first (R75). -/
def wordSnoops (s : State) (g : Seg) : List Nat := if g.kind < 2 then [g.pa / 64].filter (fun l => mustSnoop s l false) else []

def execWaitV (d a b : SReg) (s : State) : Out :=
  match wordAt s a with
  | .inl f => .next (raiseW f (fltWalk f s))
  | .inr g =>
    let s1 := useSeg (agentOf s s.g) 0 g s
    let s' := wordReadUse g s1
    let v := wordRead s1 g
    if wordSnoops s g ≠ [] then .next (waitSnoops (wordSnoops s g) s)
    else if wordPoisoned s1 g then .next (retireS (notePoison g.va 0 s'))
    else if v = rS s b then .next (blockOn (g.pa / 8) s') else .next (retireS (wS s' d v))

def execWake (a : SReg) (s : State) : Out :=
  match wordAt s a with
  | .inl f => .next (raiseW f (fltWalk f s))
  | .inr g => .next (retireS (wakeWord (g.pa / 8) (useSeg (agentOf s s.g) 0 g s)))

/-! ### The bow (R162, R163, R421) -/

def execBowGet (d : SReg) (s : State) : Out :=
  if !isDet s s.g then .next (retireS (wS s d 0))
  else if passedBow s s.g then .next (raiseI fDETSTAGE s)
  else if holdsBow s s.g then .next (retireS (wS s d 1))
  else .next (block s)

/-- Whether every global write of a team is performed at .dev (R161): its groups' stores, the drains of its cores, and its
copies with a global destination. -/
def teamWritten (s : State) (team : Nat) : Bool :=
  (allGroups s).all (fun g => g.idn.team != team || g.status == .gone
    || (!storesOut g && coreDrained s g.idn.core && g.n.cps.all (fun c => c.finished || !copyToGlobal c)))

/-- The team gives the bow up. -/
def passBow (team : Nat) (s : State) : State :=
  match teamOf s team with
  | some t => passBowOf t.grid (modTeam team (fun x => { x with bow := .passed }) s)
  | none => s

def execBowPass (s : State) : Out :=
  if !isDet s s.g || passedBow s s.g then .next (retireS s)
  else if holdsBow s s.g && teamWritten s s.g.idn.team then .next (retireS (passBow s.g.idn.team s))
  else .next (block s)

/-! ### Safe points and the signature (R422 to R424) -/

/-- The code object that holds the instruction at issue. -/
def objOf (s : State) : Option CodeObj := match gCtx s with
  | some c => c.objs.find? (fun o => decide (o.base ≤ (vaOf s.g.pc).toNat ∧ (vaOf s.g.pc).toNat < o.base + o.size))
  | none => none

/-- The live-register table of the code object at issue. -/
def liveTable (s : State) : List (BitVec 1024) := match objOf s with
  | some o => o.live
  | none => []

def execSafe (i : Word32) (s : State) : Out :=
  match (liveTable s)[i.toNat]? with
  | none => .next (raiseI fILLOP s)
  | some e =>
    if !s.g.saveDue || s.g.x.sup then .next (retireS s)
    else if drained s.g then
      let s := retireS s
      .next (saveGroup s.g.idn.gid { s with g := keepLive e s.g })
    else
      -- it is saved here once its accesses are performed (R155)
      let s := retireS s
      .next (haltGroup s.g.idn.gid { s with g := keepLive e s.g })

/-- F_SIG: a launch that is replayable still is rolled back, and its core quarantined (R464); any other escalates. -/
def sigFault (s : State) : State := match rollsBack s s.g with
  | some gr => rollback gr fSIG (some s.g.idn.core) s
  | none => raiseI fSIG s

def execSigchk (i : Word32) (s : State) : Out :=
  if s.g.sigw = i then .next (retireS { s with g := { s.g with sigw := 0xFFFFFFFF } }) else .next (sigFault s)

def execSigrd (d : SReg) (s : State) : Out := .next (retireS (wS s d (sigOf s.g)))

/-! ### trap, bkpt, retf (R36, R37, R425) -/

def execTrap (i : BitVec 16) (s : State) : Out :=
  let s' := retireS s
  let fva := i.zeroExtend 64
  if entersHandler s fTrap 0 then .next (enterHandler .trap (w32 fTrap) fva s.g.live 0 0 s'.g.pc s')
  else .next (escalate 0 (w32 fTrap) fva s.g.live 0 (if s.g.x.sup then s.g.pc else s'.g.pc) (0, 0, 0, 0) s')

def execBkpt (i : BitVec 16) (s : State) : Out :=
  let s' := retireS s
  let r := recOfGroup s' 0 (w32 fBreak) (i.zeroExtend 64) 0 s'.g.pc s'.g
  .next (due (.fault_record r) { s' with g := { s'.g with status := .stopped }
                                         q := { s'.q with parkedFor := s'.q.parkedFor ++ [(r, .brk s'.g.idn.gid)] } })

/-- The command that a parked delivery named goes on (R43). -/
def unpark (fc : Word32) (gid : Nat) (s : State) : State :=
  let slot := fc.toNat / 2 ^ 24 % 16
  if fc.toNat / 2 ^ 21 % 8 = 2 then modMx gid slot (fun c => { c with parked := false }) s
  else modCopy gid slot (fun c => { c with parked := false }) s

def execRetf (s : State) : Out :=
  if !s.g.x.sup then .next (raiseI fPRIV s)
  else
    let s' := returnHandler s
    -- after the fault of a stash's write-back what waited for it may go on: a sunmap, another alias, an unmappg (R19, R27, R31)
    .next (if s.g.x.cause = .parked then unpark s.g.x.faultCode s.g.idn.gid s'
      else if s.g.x.cause = .back then wakeAll s' else s')

/-! ### Supervisor instructions (R40, R426 to R428) -/

/-- Waits for what an .ar atomic at .dev waits for, then runs. DEDUCED, log 28. -/
def gated (s : State) (run : State) : Out :=
  if releaseWaits s scDev || coreFilling s s.g.idn.core then .next (block s) else .next run

/-- Completes as an acquire at .dev. -/
def retireAcq (s : State) : State := retireS (acquireNow scDev s)

/-- The attribute bits of mappg's operand: 58 to 52 and 3. -/
def mapAttrs : Word64 := 0x07F0000000000008

/-- mappg's walk, level by level: the entry at level 3 that is not present, one that is, or a fault (R40). -/
inductive MapWalk where
  | free (pte : Nat)
  | present
  | fault (f : AFlt)
deriving DecidableEq, Repr

def mapWalk (s : State) (va : Nat) : Nat → Nat → Nat → MapWalk
  | 0, level, _ => .fault { code := fPROT, detail := 5, level := level }
  | n + 1, level, table =>
    let p := table + 8 * levelIndex level va
    let e := cohWord s p
    if cohPoisoned s p 8 then .fault { code := fECCU, detail := 0, level := level }
    else if level = 3 ∧ !ptePresent e then .free p
    else if level < 3 ∧ (!ptePresent e ∨ pteLeaf e) then .fault { code := fPAGE, detail := 0, level := level }
    else match pteFault s level e with
      | some d => .fault { code := fPROT, detail := d, level := level }
      | none => if level = 3 then .present else mapWalk s va n (level + 1) (pteAddr e)

/-- The leaf mappg writes: P, L, the frame and the attributes. -/
def mapLeaf (frame : Nat) (attrs : Word64) : Word64 := w64 frame ||| (attrs &&& mapAttrs) ||| 5

/-- R40 for an address: a status, or a fault. A fault over the pool has LEVEL 3. DESIGN CHOICE, log 46. -/
def mapPage (c : Ctx) (va : Nat) (attrs : Word64) (s : State) : (AFlt ⊕ Nat) × State :=
  match mapWalk s va 4 0 c.root with
  | .fault f => (.inl f, s)
  | .present => (.inr 1, s)
  | .free p =>
    let idx := lo32 c.plNext
    let pa := c.plBase.toNat + 8 * idx
    let no := fun (code detail : Nat) => (Sum.inl ({ code := code, detail := detail, level := 3 } : AFlt), s)
    if idx ≥ hi32 c.plNext then no fPAGE 11
    else if !inDevMem s.tun pa then no fPROT 6
    else if cohPoisoned s pa 8 then no fECCU 0
    else
      let s := homeTouch (pa / 128) (snoopNow (pa / 64) false (lookupHome s.g.idn.core (regionOf pa) s))
      let frame := leafFrame (cohWord s pa)
      let kind := attrs.toNat / 2 ^ 55 % 4
      if kind ≥ 2 || !inKind s kind frame then no fPROT 6
      else
        let s := cohPutWord p (mapLeaf frame attrs) s
        (.inr 0, modCtx s.g.idn.ctx (fun c => { c with plNext := w64 (hi32 c.plNext * 2 ^ 32 + (idx + 1) % 2 ^ 32) }) s)

/-- A fault of a supervisor instruction's walk: it makes no access, and ACC stays 0 (DEDUCED, log 20). -/
def supFlt (f : AFlt) (va : Word64) : Flt := { flt f.code with detail := f.detail, level := f.level, va := va, mask := 1 }

def execMappg (d a b : SReg) (s : State) : Out :=
  if !s.g.x.sup then .next (raiseI fPRIV s)
  else if rS s b &&& ~~~mapAttrs ≠ 0 then .next (raiseI fILLOP s)
  else if !canonical (rS s a) then .next (raiseW { flt fADDROVF with va := rS s a } s)
  else match gCtx s with
    | none => .next (raiseI fILLOP s)
    | some c =>
      let r := mapPage c (rS s a).toNat (rS s b) (walkTouch (agentOf s s.g) (rS s a).toNat s)
      gated s (match r.1 with
        | .inl f => raiseW (supFlt f (rS s a)) r.2
        | .inr st => retireAcq (wS r.2 d (w64 st)))

/-- What stashes hold written of a page, by core and sector. -/
def pageStash (s : State) (e : Word64) (level : Nat) : List (Nat × Nat × L1Sec) :=
  (s.m.l1.filter (fun c => c.2.stash && c.2.p ||| c.2.o != 0
    && decide (leafFrame e ≤ 128 * (c.1 % 2 ^ 45) ∧ 128 * (c.1 % 2 ^ 45) < leafFrame e + 2 ^ levelShift level))).map
      (fun c => (c.1 / 2 ^ 45, c.1 % 2 ^ 45, c.2))

/-- Those whose write-back waits for another group to mend its fault. -/
def pageStuck (s : State) (e : Word64) (level : Nat) : Bool :=
  (pageStash s e level).any (fun c => c.2.2.filler != s.g.idn.gid && backStuck s c.1 c.2.2)

/-- A page's stash sectors are written back under its translation, which faults as a store would (R19, R27). DESIGN CHOICE, log 44. -/
def pageBack (e : Word64) (level : Nat) (s : State) : State :=
  (pageStash s e level).foldl (fun s c => backSector c.1 c.2.1 c.2.2 s) s

/-- A leaf is taken away (R19, R426): P clears, every TLB forgets the page, its sectors leave the L1s and stashes, and its
first-touch regions are released. -/
def unmapLeaf (p : Nat) (e : Word64) (level va : Nat) (s : State) : State :=
  let lo := leafFrame e
  let n := 2 ^ levelShift level
  let s := cohPutWord p (e &&& ~~~(1 : Word64)) s
  let s := dropPage s.g.idn.ctx level (vpage level va) s
  let s := flushEverywhere (fun _ sec _ => decide (lo ≤ 128 * sec ∧ 128 * sec < lo + n)) s
  if leafKind e < 2 ∧ !leafHome e then releaseRegions lo n s else s

/-- Whether an access that has obtained a page's translation is not done yet (R19): a fill under way by its tag, a message
for one of its sectors that is not answered, or an access of the context that the host port serves. A staged store is translated
when it drains. -/
def pageBusy (s : State) (e : Word64) (level va : Nat) : Bool :=
  let lo := leafFrame e
  let n := 2 ^ levelShift level
  let inP := fun (sec : Nat) => decide (lo ≤ 128 * sec ∧ 128 * sec < lo + n)
  (allGroups s).any (fun g => g.idn.ctx == s.g.idn.ctx && (g.hostDue != 0 || !g.hostVals.isEmpty))
    || s.m.fills.any (fun f => inP f.sector || (f.tag.ctx == s.g.idn.ctx && vpage level (128 * f.tag.vsec) == vpage level va))
    || s.m.outs.any (fun o => inP o.sector)
    || s.m.held.any (fun h => match sectorOf h with
      | some sec => inP sec
      | none => false)

def execUnmappg (d a : SReg) (s : State) : Out :=
  let va := (rS s a).toNat
  if !s.g.x.sup then .next (raiseI fPRIV s)
  else if !canonical (rS s a) then .next (raiseW { flt fADDROVF with va := rS s a } s)
  else gated s (
    let s := walkTouch (agentOf s s.g) va s
    match walk s s.g.idn.ctx va with
    | .absent _ => retireAcq (wS s d 0)
    | .bad detail level => raiseW (supFlt { code := fPROT, detail := detail, level := level } (rS s a)) s
    | .poisoned level => raiseW (supFlt { code := fECCU, detail := 0, level := level } (rS s a)) s
    | .leaf p e level =>
      if leafPin e then raiseW (supFlt { code := fPROT, detail := 7, level := level } (rS s a)) s
      -- a page that a scan is to write its record to goes only after that (R495)
      else if pageBusy s e level va then block s
      else if s.d.scans.any (fun x => decide (leafFrame e ≤ x.2.recVa.toNat ∧ x.2.recVa.toNat < leafFrame e + 2 ^ levelShift level)) then block s
      else if pageStuck s e level then block (pageBack e level s)
      else
        let s := pageBack e level s
        let e := cohWord s p
        retireAcq (wS (unmapLeaf p e level va s) d e))

/-- The parts of a range within HBM and the live expander ranges are released. -/
def execRgrel (a b : SReg) (s : State) : Out :=
  if !s.g.x.sup then .next (raiseI fPRIV s)
  else if (rS s a).toNat % 65536 ≠ 0 ∨ (rS s b).toNat % 65536 ≠ 0 then .next (raiseW { flt fALIGN with va := rS s a } s)
  else gated s (retireAcq (releaseRegions (rS s a).toNat (rS s b).toNat s))

/-- A context acknowledges a tuning number (R427): the status. -/
def tuneAck (ctx n : Nat) (s : State) : Nat × State :=
  if n < s.tun.tunn then (1, s)
  else if s.tun.tunn < n then (2, s)
  else
    let s := modCtx ctx (fun c => { c with ackTun := n, tunDeadline := false }) s
    (0, noTimer (.tune_deadline ctx) (mapGroups (fun g => g.idn.ctx == ctx) (fun g => { g with tev := false }) s))

def execTunack (d a : SReg) (s : State) : Out :=
  if hi32 (rS s a) ≠ 0 then .next (raiseI fILLOP s)
  else
    let r := tuneAck s.g.idn.ctx (lo32 (rS s a)) s
    gated s (retireAcq (wS r.2 d (w64 r.1)))

/-- The physical core a scan word names. -/
def scanCore (w : Word64) : Nat := w.toNat / 256 % 8 * 256 + w.toNat % 256

/-- The result record of a scan (R428). -/
def scanRecord (tunn out : Nat) (obs : Word64) : BitVec 128 := obs ++ w32 tunn ++ w32 (out % 4)

/-- A scan ends: dword 1 of its record, then dword 0, are written, and the core reopens unless it has been retired. Lifetime data names
the core's cluster by its index in the logical order t (R470). -/
def endScan (t : Tuning) (core out : Nat) (obs : Word64) (s : State) : State :=
  match amGet? s.d.scans core with
  | none => s
  | some sc =>
    let s := cohPutWord (sc.recVa.toNat + 8) obs s
    let s := cohPutWord sc.recVa.toNat (w64 (s.tun.tunn % 2 ^ 32 * 2 ^ 32 + out)) s
    let c := coreOf s core
    let s := setCore core { c with closed := !coreLive s.tun core, quarantined := if out = 1 then false else c.quarantined } s
    let life := s.h.life
    let scans := life.scans ++ [(logicalCore t core, scanRecord s.tun.tunn out obs)]
    let s := { s with d := { s.d with scans := amDel s.d.scans core }, h := { s.h with life := { life with scans := scans.drop (scans.length - 256) } } }
    let s := wakeAll s
    { s with timers := s.timers.filter (fun t => match t.2 with
        | .scan_compare id _ => id ≠ core
        | _ => true) }

/-- The start of a scan (R428, R495): the core is closed to dispatch. -/
def startScan (core : Nat) (w : Word64) (pa : Nat) (s : State) : State :=
  let sc : Scan := { core := core, noab := w.getLsbD 15, thr := w.toNat / 4096 % 8, ctx := s.g.idn.ctx, recVa := w64 pa, running := false }
  setCore core { coreOf s core with closed := true } { s with d := { s.d with scans := amPut s.d.scans core sc } }

/-- Whether a launch that a scan's abort rule looks at is queued: begun, with no team started yet (R428, R446). -/
def launchQueued (s : State) (thr : Nat) : Bool :=
  s.d.grids.any (fun e => decide (thr ≤ e.2.pri) && e.2.nextTeam == 0 && e.2.replays == 0 && !e.2.cancelled)

/-- A scan as scan.run leaves it: started, or aborted by a launch that is queued already. -/
def scanRun (core : Nat) (w : Word64) (pa : Nat) (s : State) : State :=
  let s := startScan core w pa s
  if !w.getLsbD 15 && launchQueued s (w.toNat / 4096 % 8) then endScan s.tun core 3 0 s else s

def execScanRun (d a b : SReg) (s : State) : Out :=
  let w := rS s a
  let core := scanCore w
  let l := globLane s 1 16 0 (rS s b).toNat 16
  if !s.g.x.sup then .next (raiseI fPRIV s)
  else if w.toNat ≥ 65536 ∨ w.getLsbD 11 ∨ w.toNat % 256 > 191 then .next (raiseI fILLOP s)
  else match laneFault 1 [l] with
    | some f => .next (raiseW f (fltWalk f s))
    | none => match l.segs with
      | g :: _ =>
        if g.kind ≠ 0 ∨ !inHbm g.pa then .next (raiseI fILLOP s)
        else
          let s' := useSeg (agentOf s s.g) 1 g s
          gated s (if (amGet? s.d.scans core).isSome then retireAcq (wS s' d 1)
            else if !coreLive s.tun core then retireAcq (wS s' d 2)
            else if core = s.g.idn.core then retireAcq (wS s' d 3)
            else retireAcq (wS (scanRun core w g.pa s') d 0))
      | [] => .next (raiseI fILLOP s)

/-! ### System registers (R429, R430) -/

def plBaseOf (s : State) : Word64 := match gCtx s with
  | some c => c.plBase
  | none => 0
def plNextOf (s : State) : Word64 := match gCtx s with
  | some c => c.plNext
  | none => 0

/-- LCLUS and LCORE of a group: they change across a pre-emption alone (R175, R469, R470). -/
def posOf (s : State) (g : Group) : Nat × Nat := g.posn.getD (lclusOf s.tun (clusterOf g.idn.core), lcoreOf s.tun g.idn.core)

/-- The registers a program reads; none where REGNUM is unassigned. CLK and NSEC are read as advanced by execSrd. -/
def sysReg (s : State) (n : Nat) : Option Word64 :=
  let g := s.g
  match n with
  | 0x00 => some (w64 (gidxOf g))
  | 0x01 => some (w64 g.idn.part)
  | 0x02 => some (g.idn.tidx.zeroExtend 64)
  | 0x03 => some (w64 g.idn.ngrp)
  | 0x04 => some (w64 g.idn.npart)
  | 0x05 => some (g.idn.nteam.zeroExtend 64)
  | 0x06 => some (w64 (posOf s g).1)
  | 0x07 => some (w64 (posOf s g).2)
  | 0x08 => some (w64 (lcores s.tun (clusterOf g.idn.core)))
  | 0x09 => some (w64 (s.tun.tunn % 2 ^ 32))
  | 0x0A => some g.idn.stamp.epoch
  | 0x0B => some (g.idn.loc.zeroExtend 64)
  | 0x0C => some (g.fpstat.zeroExtend 64)
  | 0x0D => some (sigOf g)
  | 0x0E => some (sxstatOf g)
  | 0x0F => some (g.live.zeroExtend 64)
  | 0x10 => some (ctrOf g)
  | 0x11 => some (g.chainr.zeroExtend 64)
  | 0x12 => some (w64 (coreOf s g.idn.core).clk)
  | 0x13 => some (w64 s.nsec)
  | 0x20 => some (g.x.faultMask.zeroExtend 64)
  | 0x21 => some g.x.faultVa
  | 0x22 => some (g.x.faultCode.zeroExtend 64)
  | 0x23 => some (g.x.doneMask.zeroExtend 64)
  | 0x24 => some (vaOf g.x.epc)
  | 0x25 => some (plBaseOf s)
  | 0x26 => some (plNextOf s)
  | _ => none

def sysRegSup (n : Nat) : Bool := decide (0x20 ≤ n)

/-- Time goes on by a free amount before CLK or NSEC is read; NSEC never decreases (R429). DESIGN CHOICE, log 3. DESIGN CHOICE, log 17. -/
def tickClocks (n : Nat) (s : State) : State :=
  if n = 0x12 then
    let r := drawFree s
    let c := coreOf r.2 s.g.idn.core
    setCore s.g.idn.core { c with clk := (c.clk + r.1.toNat) % 2 ^ 64 } r.2
  else if n = 0x13 then
    let r := drawFree s
    { r.2 with nsec := s.nsec + Nat.min r.1.toNat (2 ^ 64 - 1 - s.nsec) }
  else s

def execSrd (d : SReg) (g : BitVec 8) (s : State) : Out :=
  let n := g.toNat
  let s' := tickClocks n s
  match sysReg s' n with
  | none => .next (raiseI fILLOP s)
  | some v =>
    if sysRegSup n && !s.g.x.sup then .next (raiseI fPRIV s)
    else if n = 0x0A then
      (if d.getLsbD 0 then .next (raiseI fILLOP s) else .next (retireS (wS (wS s d s.g.idn.stamp.epoch) (pairOf d) s.g.idn.stamp.cw)))
    else .next (retireS (wS s' d v))

/-- The registers a program writes, reserved fields ignored (R6); none where the register is read-only. -/
def sysWrite (n : Nat) (v : Word64) (s : State) : Option State :=
  match n with
  | 0x0C => some { s with g := { s.g with fpstat := v.truncate 5 } }
  | 0x0D => some { s with g := { s.g with sigm := v.extractLsb' 32 32, sigw := v.truncate 32 } }
  | 0x0E => some { s with g := { s.g with chz := s.g.chz && v.getLsbD 1, mcp := s.g.mcp && v.getLsbD 0 } }
  | 0x11 => some { s with g := { s.g with chainr := v.truncate 32 &&& 0xFFF0FFF0 } }
  | 0x24 => some { s with g := { s.g with x := { s.g.x with epc := pcOf v } } }
  | 0x25 => some (modCtx s.g.idn.ctx (fun c => { c with plBase := v &&& 0x000FFFFFFFFFFFF8 }) s)
  | 0x26 => some (modCtx s.g.idn.ctx (fun c => { c with plNext := v }) s)
  | _ => none

def execSwr (a : SReg) (g : BitVec 8) (s : State) : Out :=
  let n := g.toNat
  match sysReg s n with
  | none => .next (raiseI fILLOP s)
  | some _ =>
    if sysRegSup n && !s.g.x.sup then .next (raiseI fPRIV s)
    else match sysWrite n (rS s a) s with
      | none => .next (raiseI fILLOP s)
      | some s' => .next (retireS (if n = 0x11 then wakeTeam s.g.idn.team s' else s'))

end Sys2Proof.Machine
end

