-- ==== Sys2Proof/Machine/IoAccess.lean ====
section
/-! DEFINITION. Memory accesses of the I/O die: the command processor, the block-transfer engine and the rings, by virtual
address of a context or by physical address (R54, R75, R418, R434, R503). -/
namespace Sys2Proof.Machine

/-- The I/O die's place in translation: it belongs to no cluster. -/
def ioCluster : Nat := 8

/-- What an address of the I/O die, or of a window engine, means. DEDUCED, log 42. -/
inductive IoSpace where
  /-- a virtual address of a context, by an agent that is no group: user privilege is a group's (R15; DEDUCED, log 42) -/
  | virt (ctx : Nat)
  /-- a virtual address of a context, by a cluster's window engine for an instruction of a group (R70, R237) -/
  | engine (cl ctx : Nat)
  | phys
deriving DecidableEq, Repr

/-- The KIND of a physical address, if anything lies there: host memory behind a port of plain PCIe is uncached (R9, R484). -/
def physKind (s : State) (pa : Nat) : Option Nat :=
  if inHbm pa then some 0 else if inExpander s.tun pa then some 1
  else if inHost pa then some (if portPcieOf s pa then 3 else 2) else none

/-- The pieces of a physical range, at most fuel of them. -/
def physSegs (s : State) : Nat → Nat → Nat → Except (AFlt × Nat) (List Seg)
  | 0, _, _ => .ok []
  | fuel + 1, pa, n =>
    if n = 0 then .ok []
    else match physKind s pa with
      | none => .error ({ code := fPROT, detail := 6, level := 0 }, pa)
      | some k =>
        let m := Nat.min n (128 - pa % 128)
        match physSegs s fuel (pa + m) (n - m) with
        | .error e => .error e
        | .ok gs => .ok ({ va := pa, n := m, pa := pa, hit := false, x := { leaf := w64 (k * 2 ^ 55), level := 3, pte := 0 } } :: gs)

/-- The checks of R33 for an access of the I/O die. -/
def ioSegs (s : State) (sp : IoSpace) (acc addr n : Nat) : Except (AFlt × Nat) (List Seg) :=
  match sp with
  | .virt ctx => checkGlobal s (ioAgent ioCluster ctx true) acc addr n 1
  | .engine cl ctx => checkGlobal s (ioAgent cl ctx false) acc addr n 1
  | .phys => physSegs s (n / 128 + 2) addr n

/-- The walk that an access ends in a fault. -/
def ioWalk (sp : IoSpace) (acc : Nat) (e : AFlt × Nat) (s : State) : State :=
  match sp with
  | .virt ctx => walkFault (ioAgent ioCluster ctx true) e.2 acc e.1.code s
  | .engine cl ctx => walkFault (ioAgent cl ctx false) e.2 acc e.1.code s
  | .phys => s

/-- The effects of a segment's translation, and of the snoops that its host lines need: the host answers them at once. -/
def ioUse (sp : IoSpace) (acc : Nat) (g : Seg) (s : State) : State :=
  let s := match sp with
    | .virt ctx => useSeg (ioAgent ioCluster ctx true) acc g s
    | .engine cl ctx => useSeg (ioAgent cl ctx false) acc g s
    | .phys => if g.kind < 2 then homeRegion (regionOf g.pa) (keeperOf s.tun (regionOf g.pa)) s else s
  if g.kind < 2 then snoopNow ((g.pa + g.n - 1) / 64) (accWrites acc) (snoopNow (g.pa / 64) (accWrites acc) s) else s

/-- A fault of the I/O die's own access. -/
def ioFlt (acc : Nat) (e : AFlt × Nat) : Flt := { code := e.1.code, detail := e.1.detail, acc := acc, level := e.1.level, va := w64 e.2, mask := 0 }

/-- n bytes at an address, as one number, read at their homes, with one bit for each poisoned byte (R80). -/
def ioReadP (sp : IoSpace) (addr n : Nat) (s : State) : (Flt ⊕ (Nat × Nat)) × State :=
  match ioSegs s sp 0 addr n with
  | .error e => (.inl (ioFlt 0 e), ioWalk sp 0 e s)
  | .ok gs =>
    let r := gs.foldl (fun (x : Nat × Nat × Nat × State) g =>
      let s := ioUse sp 0 g x.2.2.2
      let c := cohSector s (g.pa / 128) none
      let v := match g.kind with
        | 2 => hostRead s g.pa g.n
        | 3 => memBytes s.m.mem g.pa g.n
        | _ => (secRead c.data 0 (g.pa % 128) g.n).1
      let p := match g.kind with
        | 2 => hostMarks s g.pa g.n
        | 3 => memMarks s g.pa g.n
        | _ => secMarks c.poison (g.pa % 128) g.n
      let s := if g.kind < 2 then lazyBacks (g.pa / 128) none (homeTouch (g.pa / 128) s) else if g.kind = 2 then hostUse g.pa g.n s else s
      (x.1 + g.n, x.2.1 + v * 256 ^ x.1, x.2.2.1 + p * 2 ^ x.1, s)) (0, 0, 0, s)
    (.inr (r.2.1, r.2.2.1), r.2.2.2)

/-- Bytes that the I/O die consumes: poison among them is F_ECCU. -/
def ioRead (sp : IoSpace) (addr n : Nat) (s : State) : (Flt ⊕ Nat) × State :=
  match ioReadP sp addr n s with
  | (.inl f, s) => (.inl f, s)
  | (.inr r, s) => if r.2 = 0 then (.inr r.1, s) else (.inl (ioFlt 0 ({ code := fECCU, detail := 0, level := 0 }, addr)), s)

/-- Writes the n low bytes of v at an address, through their homes, with their poison marks po. -/
def ioWriteP (sp : IoSpace) (addr n v po : Nat) (s : State) : Option Flt × State :=
  match ioSegs s sp 1 addr n with
  | .error e => (some (ioFlt 1 e), ioWalk sp 1 e s)
  | .ok gs =>
    let r := gs.foldl (fun (x : Nat × State) g =>
      let s := ioUse sp 1 g x.2
      let b := v / 256 ^ x.1 % 256 ^ g.n
      let p := po / 2 ^ x.1 % 2 ^ g.n
      let s := match g.kind with
        | 2 => hostWriteM g.pa g.n b p s
        | 3 => hostPutM g.pa g.n b p s
        | _ => homeWrite (g.pa / 128) (span128 (g.pa % 128) g.n) (BitVec.ofNat 1024 b <<< (8 * (g.pa % 128)))
                 (BitVec.ofNat 128 p <<< (g.pa % 128)) true s
      (x.1 + g.n, s)) (0, s)
    (none, r.2)

def ioWrite (sp : IoSpace) (addr n v : Nat) (s : State) : Option Flt × State := ioWriteP sp addr n v 0 s

/-- Adds 1 to the aligned z64 at a virtual address as an atomic at .dev, and wakes it; its leaf needs RD and WR (R418). -/
def ioAddOne (ctx va : Nat) (s : State) : Option Flt × State :=
  match checkGlobal s (ioAgent ioCluster ctx true) 2 va 8 8 with
  | .error e => (some (ioFlt 2 e), ioWalk (.virt ctx) 2 e s)
  | .ok gs => match gs with
    | g :: _ =>
      let s := ioUse (.virt ctx) 2 g s
      let s := match g.kind with
        | 2 => hostWrite g.pa 8 (hostRead s g.pa 8 + 1) s
        | 3 => hostPut g.pa 8 (memBytes s.m.mem g.pa 8 + 1) s
        | _ => cohPutWord g.pa (cohWord s g.pa + 1) s
      (none, wakeWord (g.pa / 8) s)
    | [] => (none, s)

/-- The command processor's report of a fault of its own access, for a command that it holds uncompleted until the record is written
(R418, R455, R503). -/
def ioReport (ctx : Nat) (cmd : Option Nat) (f : Flt) (s : State) : State :=
  due (.fault_record { recOfCtx s 5 (faultWord f 0 0) f.va 0 ctx with by_ := cmd }) s

end Sys2Proof.Machine
end

