-- ==== Sys2Proof/Machine/Launch.lean ====
section
/-! DEFINITION. Dispatch: shapes, placement, starts and exits of parts and teams, retirement of grids and cards, the bow's
arrival, job chunks, launch and jobput (R90 to R94, R158 to R164, R174 to R190, R416 to R418, R446 to R450, R462, R496). -/
namespace Sys2Proof.Machine

/-! ### Shapes and room (R22, R92, R174, R190) -/

/-- A part's allocation in units of 4 KiB. -/
def allocUnits (r : EntryRow) : Nat := (r.scratch + 4095) / 4096

def hasDrone (r : EntryRow) : Bool := r.drone != 0

/-- What a part takes of its core: resident slots, vector registers, KiB of accumulator store. -/
def partSlots (r : EntryRow) : Nat := r.g * (if hasDrone r then 2 else 1)
def partVregs (r : EntryRow) : Nat := r.g * (r.vregs + (if hasDrone r then r.dvregs else 0))
def partAcc (r : EntryRow) : Nat := r.g * r.acc * (if r.accw64 then 8 else 4)

/-- Whether a shape is one of R174 and fits a core. -/
def shapeOk (r : EntryRow) : Bool :=
  decide (1 ≤ r.p ∧ r.p ≤ 64 ∧ 1 ≤ r.g ∧ r.g ≤ 16 ∧ r.p * r.g ≤ 64 ∧ partSlots r ≤ 16 ∧ partVregs r ≤ 768 ∧ partAcc r ≤ 128
    ∧ allocUnits r ≤ 80)

/-- The resident groups of a core. -/
def residents (s : State) (core : Nat) : List Group :=
  (allGroups s).filter (fun g => g.idn.gid != 0 && g.idn.core == core && g.status != .gone && g.status != .saved)

def groupAcc (g : Group) : Nat := g.idn.ntile * (if g.idn.accw64 then 8 else 4)

def sumOf (f : Group → Nat) (gs : List Group) : Nat := gs.foldl (fun a g => a + f g) 0

/-- The allocations of a core. -/
def coreParts (s : State) (core : Nat) : List PartEnt :=
  s.d.teams.flatMap (fun e => if e.2.saved then [] else e.2.parts.filter (fun p => !p.left && 256 * e.2.cluster + p.core == core))

/-- The scratchpad region beside an L1, in units of 4 KiB (R90). -/
def regionUnits (l1k : Nat) : Nat := (384 - l1k) / 4

/-- Where n units fit on a core: the L1's size in KiB and the base (R91, R92). -/
def roomOn (s : State) (core n : Nat) : Option (Nat × Nat) :=
  match coreParts s core with
  | [] => ([256, 192, 128, 64].find? (fun l => decide (n ≤ regionUnits l))).map (fun l => (l, 0))
  | ps =>
    let l := (coreOf s core).l1k
    ((List.range (regionUnits l)).find? (fun b => decide (b + n ≤ regionUnits l)
      && ps.all (fun p => decide (b + n ≤ p.base ∨ p.base + p.size ≤ b)))).map (fun b => (l, b))

def openCore (s : State) (core : Nat) : Bool := coreLive s.tun core && !(coreOf s core).closed && !(coreOf s core).quarantined

/-- Whether a core has room for a part. -/
def partFits (s : State) (core : Nat) (r : EntryRow) : Bool :=
  let gs := residents s core
  openCore s core && decide (gs.length + partSlots r ≤ 16 ∧ sumOf (fun g => g.idn.nv) gs + partVregs r ≤ 768
    ∧ sumOf groupAcc gs + partAcc r ≤ 128) && (roomOn s core (allocUnits r)).isSome

/-! ### Placement (R447) -/

/-- The first of a list for which f is least. -/
def leastBy (f : Nat → Nat) : List Nat → Option Nat
  | [] => none
  | x :: xs => match leastBy f xs with
    | none => some x
    | some y => some (if f x ≤ f y then x else y)

def quadOf (core : Nat) : Nat := core % 256 / 48

/-- The core for a part, among those that a list does not name: fewest resident groups, then the previous part's quadrant, then the
lower LCORE. -/
def pickCore (s : State) (cl : Nat) (r : EntryRow) (used : List Nat) (prev : Option Nat) : Option Nat :=
  let cs := ((liveCoresOf s.tun cl).map (fun c => 256 * cl + c)).filter (fun c => !used.contains c && partFits s c r)
  leastBy (fun c => 2 * (residents s c).length + (match prev with
    | some p => if quadOf p = quadOf c then 0 else 1
    | none => 0)) cs

/-- The cores for n parts of a team in a cluster, each distinct and none of a list. -/
def pickCores (s : State) (cl : Nat) (r : EntryRow) (avoid : List Nat) : Nat → List Nat → Option (List Nat)
  | 0, used => some used
  | n + 1, used => match pickCore s cl r (avoid ++ used) used.getLast? with
    | some c => pickCores s cl r avoid n (used ++ [c])
    | none => none

/-- The physical clusters of a mask of logical ones, in logical order; 0 names all. -/
def maskClusters (t : Tuning) (m : BitVec 8) : List Nat :=
  ((List.range t.clorder.length).filter (fun l => m == 0 || m.getLsbD l)).map (fun l => physCluster t l)

def clusterLoad (s : State) (cl : Nat) : Nat :=
  ((allGroups s).filter (fun g => g.idn.gid != 0 && clusterOf g.idn.core == cl && g.status != .gone && g.status != .saved)).length

/-- Where n parts of a team are placed: its cluster and their cores. -/
def placeParts (s : State) (r : EntryRow) (m : BitVec 8) (avoid : List Nat) (n : Nat) : Option (Nat × List Nat) :=
  let fits := (maskClusters s.tun m).filterMap (fun cl => (pickCores s cl r avoid n []).map (fun cs => (cl, cs)))
  match leastBy (fun i => clusterLoad s (fits.getD i (0, [])).1) (List.range fits.length) with
  | some i => fits[i]?
  | none => none

def placeTeam (s : State) (r : EntryRow) (m : BitVec 8) (avoid : List Nat) : Option (Nat × List Nat) := placeParts s r m avoid r.p

/-- The cores that a grid's launch replays away from (R464). -/
def gridAvoid (s : State) (grid : Nat) : List Nat := match amGet? s.d.grids (rootGrid s 11 grid) with
  | some g => g.avoid
  | none => []

/-! ### Save blocks (R462, R463) -/

/-- The size of a team's save block for a shape; det reserves room for the staged entries of each part's core. -/
def blockSize (r : EntryRow) (det : Bool) : Nat :=
  let part := up64 (272 + (if det then 24 * 1024 else 0) + 4096 * allocUnits r)
  let grp := fun v acc => up64 (10304 + 256 * v + acc)
  20800 + r.p * (part + r.g * (grp r.vregs (r.acc * (if r.accw64 then 8192 else 4096)) + (if hasDrone r then grp r.dvregs 0 else 0)))

/-- The lowest place of n bytes in the save region that no team's block meets. -/
def blockPlace (s : State) (n : Nat) : Option Nat :=
  let bs := (s.d.teams.filter (fun e => e.2.saveSize != 0)).map (fun e => (e.2.savePlace, e.2.saveSize))
  let ok := fun a => decide (a + n ≤ s.tun.saveBase + s.tun.saveSize) && bs.all (fun b => decide (a + n ≤ b.1 ∨ b.1 + b.2 ≤ a))
  leastBy (fun a => a) ((up64 s.tun.saveBase :: bs.map (fun b => up64 (b.1 + b.2))).filter ok)

/-! ### Scans that a launch aborts (R428, R496) -/

/-- A launch counts as queued at a priority: it aborts every scan whose threshold it reaches. -/
def abortScans (pri : Nat) (s : State) : State :=
  ((s.d.scans.filter (fun e => !e.2.noab && decide (e.2.thr ≤ pri))).map (fun e => e.1)).foldl (fun s c => endScan s.tun c 3 0 s) s

/-! ### Starts (R169, R176, R182, R388) -/

/-- The lowest resident slot of a core that is free. -/
def freeSlot (s : State) (core : Nat) : Nat := lowestFree ((residents s core).map (fun g => g.idn.slot)) 16

/-- What all groups of a team share. -/
structure TeamIdent where
  kind : GKind
  ctx : Nat
  work : Nat
  team : Nat
  tidx : Word32
  nteam : Word32
  pri : Nat
  depth : Nat
  stamp : Stamp
  loc : BitVec 16
deriving DecidableEq, Repr

/-- A group as it starts (R169). DESIGN CHOICE, log 13. -/
def newGroup (i : TeamIdent) (r : EntryRow) (drone : Bool) (part gi core slot gid mate : Nat) (sregs : Cells 64) : Group :=
  { Group.none with
    status := .starting
    pc := if drone then r.drone else r.entry
    sregs := sregs
    idn := { gid := gid, kind := if drone then .drone else i.kind, ctx := i.ctx, work := i.work, team := i.team, part := part,
             gidx := gi, core := core, slot := slot, tidx := i.tidx, ngrp := r.g, npart := r.p, nteam := i.nteam, pri := i.pri,
             depth := i.depth, nv := if drone then r.dvregs else r.vregs, ntile := if drone then 0 else r.acc,
             accw64 := r.accw64, stamp := i.stamp, loc := i.loc, qbase := r.qbase, qlen := if hasDrone r then r.qlen else 0,
             mate := mate } }

/-- Adds a group to the device. -/
def addGroup (g : Group) (s : State) : State :=
  { s with rest := s.rest ++ [g], d := { s.d with nextGid := s.d.nextGid + 1 } }

/-- Group gi of a part, with its drone. -/
def addPair (i : TeamIdent) (r : EntryRow) (sregs : Cells 64) (part core : Nat) (s : State) (gi : Nat) : State :=
  let gid := s.d.nextGid
  let mate := if hasDrone r then gid + 1 else 0
  let s := addGroup (newGroup i r false part gi core (freeSlot s core) gid mate sregs) s
  if hasDrone r then addGroup (newGroup i r true part gi core (freeSlot s core) (gid + 1) gid sregs) s else s

/-- An empty core takes a new split: its L1 is written back and starts empty (R91). -/
def setSplit (core l1k : Nat) (s : State) : State :=
  if (coreOf s core).l1k = l1k then s
  else setCore core { coreOf s core with l1k := l1k } (flushWhere core (fun _ x => !x.stash) s)

/-- A part is placed: its range of the core's SRAM, its groups, and the start that follows. -/
def addPart (i : TeamIdent) (r : EntryRow) (sregs : Cells 64) (s : State) (p : Nat × Nat) : State :=
  let core := p.1
  let rb := (roomOn s core (allocUnits r)).getD (256, 0)
  let s := setSplit core rb.1 s
  let e : PartEnt := { v := false, st := true, core := core % 256, base := rb.2, size := allocUnits r, groups := partSlots r,
                       exited := 0, left := false }
  let s := modTeam i.team (fun t => { t with parts := t.parts ++ [e] }) s
  due (.part_start i.team p.2) ((List.range r.g).foldl (addPair i r sregs p.2 core) s)

/-- Whether every entry of the TID section of a row's code object is one R390 admits; a launch is rejected otherwise (R388). -/
def tidsOk (c : Ctx) (r : EntryRow) : Bool := match c.objs[r.obj]? with
  | some o => o.tids.all tidWf
  | none => true

/-- Stands for the reason or status of such a rejection, whose number no rule gives. -/
def tidStatus : Nat := 13

/-- The TID initial table of the code object a row belongs to. -/
def initTids (s : State) (ctx : Nat) (r : EntryRow) : Cells 512 :=
  match ctxOf s ctx with
  | some c => (match c.objs[r.obj]? with
    | some o => o.tids.zipIdx.foldl (fun m p => cellPut m p.2 (tidNorm p.1)) []
    | none => [])
  | none => []

/-- A team on its cores; its save block lies at the place given. -/
def startTeam (i : TeamIdent) (isJob : Bool) (r : EntryRow) (det : Bool) (cl : Nat) (cores : List Nat) (place : Nat)
    (sregs : Cells 64) (s : State) : State :=
  let t := { Team.nil with grid := i.work, isJob := isJob, tidx := i.tidx.toNat, ctx := i.ctx, cluster := cl,
                           tids := initTids s i.ctx r, bow := if det then .before else .off, savePlace := place,
                           saveSize := blockSize r det }
  let s := { s with d := { s.d with teams := amPut s.d.teams i.team t, nextId := s.d.nextId + 1 } }
  cores.zipIdx.foldl (addPart i r sregs) s

/-- The context may start work. -/
def ctxRuns (s : State) (ctx : Nat) : Bool := match ctxOf s ctx with
  | some c => !c.suspended && !c.terminated && !c.destroying
  | none => false

/-- Whether a grid's next team may start (R178, R179). -/
def teamDue (s : State) (g : Grid) : Bool :=
  ctxRuns s g.ctx && !g.cancelled && decide (g.nextTeam < g.nteam ∧ g.nextTeam < g.base + 256)

/-- TEAM_START: the grid's next team, if it can be placed whole and its save block reserved (R447, R462). -/
def teamStart (grid : Nat) (s : State) : State :=
  match amGet? s.d.grids grid with
  | none => s
  | some g =>
    if !teamDue s g then s
    else match placeTeam s g.row g.cmask (gridAvoid s grid), blockPlace s (blockSize g.row g.det) with
      | some (cl, cores), some place =>
        let i : TeamIdent := { kind := .compute, ctx := g.ctx, work := grid, team := s.d.nextId, tidx := w32 g.nextTeam,
                               nteam := w32 g.nteam, pri := g.pri, depth := g.depth, stamp := g.stamp, loc := g.loc }
        let s := startTeam i false g.row g.det cl cores place (cellPut [] 1 g.args) s
        giveBow (modGrid grid (fun x => { x with nextTeam := x.nextTeam + 1, teamsUp := x.teamsUp + 1 }) s)
      | _, _ => s

def execTeamStart (s : State) : Out :=
  match s.ev with
  | some (.team_start grid) => .next (teamStart grid s)
  | _ => .next s

def modPart (team part : Nat) (f : PartEnt → PartEnt) (s : State) : State :=
  modTeam team (fun t => { t with parts := t.parts.modify part f }) s

/-- PART_START: the allocation is zeroed, the entry becomes valid, and the part's groups begin, with an acquire at .dev
(R92, R152, R176). -/
def partStart (team part : Nat) (s : State) : State :=
  match teamOf s team with
  | none => s
  | some t => match partEnt t part with
    | none => s
    | some e =>
      let core := 256 * t.cluster + e.core
      if !e.st || t.saved then s
      else if coreFilling s core then due (.part_start team part) s
      else
        let lo := sramKey core (e.base * 4096)
        let s := { s with m := { s.m with sram := cellClear s.m.sram lo (e.size * 4096), srPoison := cellClear s.m.srPoison lo (e.size * 4096) } }
        let s := modPart team part (fun e => { e with v := true, st := false }) (selfInvalidate core s)
        let s := mapGroups (fun g => g.idn.team == team && g.idn.part == part && g.status == .starting)
          (fun g => { g with status := .running, rdy := s.tick }) s
        wakeTeam team s

def execPartStart (s : State) : Out :=
  match s.ev with
  | some (.part_start team part) => .next (partStart team part s)
  | _ => .next s

/-! ### Retirement (R50, R181, R189, R206, R418) -/

/-- The decrement of a launch or card. -/
def countDown (ctx : Nat) (loc : BitVec 16) (t : Stamp) (s : State) : State :=
  if loc = 0xFFFF then s else due (.batch .command ctx [{ loc := loc.toNat, stamp := t, amt := -1 }]) s

/-- The command that a grid's or card's work belongs to: its own, or that of the launch that made it. -/
def cmdOfReports (s : State) (r : Reports) : Option Nat := match r.cmd with
  | some c => some c.id
  | none => cmdOfGrid s 11 r.parent

/-- The add to the DONEW word, or its report, for the command whose work this is (R454, R455). -/
def doneAdd (ctx : Nat) (cmd : Option Nat) (w : Word64) (s : State) : State :=
  if w = 0 then s
  else match ioAddOne ctx w.toNat s with
    | (none, s) => s
    | (some f, s) => applyPolicy ctx cmd f.code (ioReport ctx cmd f s)

/-- What a finished grid or card sends out. -/
def reportDone (ctx : Nat) (loc : BitVec 16) (t : Stamp) (r : Reports) (s : State) : State :=
  let s := doneAdd ctx (cmdOfReports s r) r.donew (countDown ctx loc t s)
  match r.cmd with
  | some c => complete c 0 0 0 s
  | none => s

/-- The translations that a pinned launch has locked are unlocked (R50); those that PIN commands have locked stay until a PIN
command releases their pages. DESIGN CHOICE, log 31. -/
def unlockPins (grid : Nat) (s : State) : State :=
  { s with m := { s.m with tlb := s.m.tlb.map (fun t => { t with locks := t.locks.filter (fun i => i != grid) }) } }

/-- A grid retires when its teams have exited and its children have retired; then its parent may. DEDUCED, log 28. -/
def gridRetire : Nat → Nat → State → State
  | 0, _, s => s
  | n + 1, grid, s =>
    match amGet? s.d.grids grid with
    | none => s
    | some g =>
      if g.nextTeam < g.nteam ∨ g.teamsUp ≠ 0 ∨ g.kids ≠ 0 then s
      else
        let root := rootGrid s 11 grid
        let s := if g.rep.donew ≠ 0 ∧ g.rep.parent ≠ 0 then endReplay root 4 s else s
        let s := { s with d := { s.d with grids := amDel s.d.grids grid, bowQ := s.d.bowQ.filter (fun i => i != grid) } }
        let s := if g.pinned then unlockPins grid s else s
        let s := reportDone g.ctx g.loc g.stamp g.rep s
        if g.rep.parent = 0 then s
        else gridRetire n g.rep.parent (modGrid g.rep.parent (fun p => { p with kids := p.kids - 1 }) s)

/-- A card is complete when all its chunks are dealt and their groups have exited. -/
def cardDone (card : Nat) (s : State) : State :=
  match amGet? s.d.cards card with
  | none => s
  | some c =>
    if c.dealt < c.count ∨ c.groupsUp ≠ 0 then s
    else reportDone c.ctx c.loc c.stamp c.rep { s with d := { s.d with cards := amDel s.d.cards card } }

/-- The window's base passes every team that has exited in index order (R179). -/
def advanceBase : Nat → Grid → Grid
  | 0, g => g
  | n + 1, g =>
    if g.exitedAbove.contains g.base then
      advanceBase n { g with base := g.base + 1, exitedAbove := g.exitedAbove.filter (fun i => i ≠ g.base) }
    else g

/-- The record of a team ends. -/
def dropTeam (team grid : Nat) (s : State) : State :=
  gridRetire 12 grid (modGrid grid (fun g => { g with teamsUp := g.teamsUp - 1 })
    { s with d := { s.d with teams := amDel s.d.teams team } })

/-- A team exits: its save block is free, the reorder window moves, and it gives the bow up, or keeps its staged entries
until it receives the bow (R163, R177). -/
def teamExit (team : Nat) (s : State) : State :=
  match teamOf s team with
  | none => s
  | some t =>
    let s := modTeam team (fun x => { x with saveSize := 0 }) s
    if t.isJob then
      cardDone t.grid (modCard t.grid (fun c => { c with groupsUp := c.groupsUp - 1 }) { s with d := { s.d with teams := amDel s.d.teams team } })
    else
      let s := modGrid t.grid (fun g => advanceBase 257 { g with exitedAbove := g.exitedAbove ++ [t.tidx] }) s
      match t.bow with
      | .before => giveBow s
      | .holds => if t.drained then dropTeam team t.grid (passBow team s) else s
      | _ => dropTeam team t.grid s

/-- Whether a copy of the team still has bytes of a part's allocation to read (R94). -/
def partRead (s : State) (team part : Nat) : Bool :=
  (allGroups s).any (fun g => g.idn.team == team && groupRuns g && g.n.cps.any (fun c =>
    !c.finished && decide (c.done < c.total) && (copyReads g.idn.part c).any (fun r => r.part == some part)))

def partsLeft (t : Team) : Bool := t.parts.all (fun e => e.left)

/-- PART_EXIT (R94). -/
def partExit (team part : Nat) (s : State) : State :=
  match teamOf s team with
  | none => s
  | some t => match partEnt t part with
    | none => s
    | some e =>
      if e.left || e.exited < e.groups then s
      else
        let s := (t.stash.filter (fun m => m.part == part)).foldl (fun s m => unmapStash team m s) s
        let s := modPart team part (fun e => { e with v := false, st := false }) s
        if partRead s team part then timer 16 (.part_exit team part) s
        else
          let s := wakeTeam team (modPart team part (fun e => { e with left := true }) s)
          match teamOf s team with
          | some t => if partsLeft t then teamExit team s else s
          | none => s

def execPartExit (s : State) : Out :=
  match s.ev with
  | some (.part_exit team part) => .next (partExit team part s)
  | _ => .next s

/-! ### The bow arrives (R160, R161, R163) -/

/-- The agent of a drain: the part's core, for the launch's team; the store has passed the check of privilege. DESIGN CHOICE, log 43. -/
def drainAgent (s : State) (t : Team) (e : StageEnt) : Agent :=
  { core := (partEnt t e.part).map (fun p => 256 * t.cluster + p.core), cluster := t.cluster, ctx := t.ctx, sup := true,
    pinned := match amGet? s.d.grids t.grid with | some gr => gr.pinned | none => false }

/-- The word of a staged entry, translated as the entry drains: it holds a virtual address (R158). DESIGN CHOICE, log 43. -/
def drainSeg (s : State) (t : Team) (e : StageEnt) : Except AFlt Seg :=
  match xlate s (drainAgent s t e) e.va.toNat 1 with
  | .error f => .error f
  | .ok x => .ok { va := e.va.toNat, n := 8, pa := leafPaOf x.leaf x.level e.va.toNat, hit := false, x := x }

/-- One staged entry is written through, as a WT at its home: a line the host may hold is snooped first (R75, R161). -/
def drainEntry (t : Team) (e : StageEnt) (g : Seg) (s0 : State) : State :=
  let s := useSeg (drainAgent s0 t e) 1 g s0
  let bytes := (List.range 8).filter (fun i => e.mask.getLsbD i)
  let each := fun (put : Nat → Nat → Nat → State → State) => bytes.foldl (fun s i => put (g.pa + i) 1 (e.data.toNat / 256 ^ i % 256) s) s
  match g.kind with
  | 2 => each hostWrite
  | 3 => each hostPut
  | _ => homeWrite (g.pa / 128) (bytes.foldl (fun m i => m ||| bit128 (g.pa % 128 + i)) 0)
      (e.data.zeroExtend 1024 <<< (8 * (g.pa % 128))) 0 true (snoopNow (g.pa / 64) true s)

/-- Whether the home of an entry's word takes a write now: messages that came before are not waiting there (R57). -/
def drainReady (s : State) (g : Seg) : Bool :=
  decide (g.kind ≥ 2) || !(homeBusy s (g.pa / 128) || heldBefore s (g.pa / 128))

/-- A drain that would fault: the fault reaches the entry's group, and the entry waits; of a group that is gone the host gets the
record, and the entry is dropped. DESIGN CHOICE, log 43. -/
def drainFault (t : Team) (e : StageEnt) (f : AFlt) (s : State) : Bool × State :=
  ((findGroup s e.gid).isSome, backFaultAt e.gid t.ctx e.va f s)

/-- Entries are written in their order, up to the first that must wait; what is left. -/
def drainRun (t : Team) : List StageEnt → State → List StageEnt × State
  | [], s => ([], s)
  | e :: es, s => match drainSeg s t e with
    | .ok g => if drainReady s g then drainRun t es (drainEntry t e g s) else (e :: es, s)
    | .error f =>
      let r := drainFault t e f s
      if r.1 then (e :: es, r.2) else drainRun t es r.2

/-- The staged entries of a team, wherever they are, in the order of the drain. -/
def stagedOf (s : State) (team : Nat) : List StageEnt :=
  let here := s.d.cores.flatMap (fun c => c.2.stage.filter (fun e => e.team == team))
  let saved := match teamOf s team with
    | some t => t.staged
    | none => []
  (here ++ saved).foldl (fun l e => stageInsert e l) []

/-- Of a team's staged entries those of a list stay; what waits for room in the stage buffers looks again (R164). -/
def keepStaged (team : Nat) (left : List StageEnt) (s : State) : State :=
  let keep := fun (e : StageEnt) => e.team != team || left.contains e
  let cores := s.d.cores.map (fun c => (c.1, { c.2 with stage := c.2.stage.filter keep }))
  wakeAll (modTeam team (fun t => { t with staged := t.staged.filter keep }) { s with d := { s.d with cores := cores } })

/-- The team that has received the bow drains, as an acquire at .dev, and its groups go on; one that has exited passes it. A
saved team drains after its resumption (R155). -/
def bowReceive (s : State) : State :=
  match s.d.teams.find? (fun e => e.2.bow == .holds && !e.2.drained && !e.2.saved) with
  | none => s
  | some (team, t) =>
    let r := drainRun t (stagedOf s team) s
    let s := keepStaged team r.1 r.2
    if r.1 ≠ [] || t.parts.any (fun p => !p.left && coreFilling s (256 * t.cluster + p.core)) then timer 16 .bow_receive s else
    let s := (t.parts.filter (fun p => !p.left)).foldl (fun s p => selfInvalidate (256 * t.cluster + p.core) s) s
    let s := wakeTeam team (modTeam team (fun x => { x with drained := true }) s)
    if partsLeft t then dropTeam team t.grid (passBow team s) else s

def execBowReceive (s : State) : Out := .next (bowReceive s)

/-! ### Job cards (R186 to R188, R448) -/

/-- The cores that serve a card: live and open to dispatch, in its clusters. -/
def cardCores (s : State) (m : BitVec 8) : Nat :=
  (maskClusters s.tun m).foldl (fun a cl => a + ((liveCoresOf s.tun cl).filter (fun c => !(coreOf s (256 * cl + c)).closed)).length) 0

/-- Records of the next chunk. -/
def chunkOf (remaining p : Nat) : Nat := Nat.max 1 ((remaining + 2 * p - 1) / Nat.max 1 (2 * p))

/-- The scalar registers a job group starts with (R188). -/
def jobRegs (c : Card) (n : Nat) : Cells 64 :=
  [(1, c.base + w64 (c.dealt * c.rsize)), (2, w64 c.rsize), (3, w64 n), (4, c.stamp.epoch), (5, c.stamp.cw),
   (6, c.loc.zeroExtend 64), (7, w64 c.dealt)].foldl (fun m p => cellPut m p.1 p.2) []

/-- A job group's team is of one group, whatever drone its row names (R186). -/
def jobRow (r : EntryRow) : EntryRow := { r with drone := 0, dvregs := 0 }

/-- JOB_CHUNK_DEAL: the next chunk of a card as a job group, whose TIDX reads 0 and whose NTEAM 1: no rule gives them. DESIGN CHOICE,
log 29. -/
def jobDeal (card : Nat) (s : State) : State :=
  match amGet? s.d.cards card with
  | none => s
  | some c =>
    if c.dealt ≥ c.count || c.cancelled || !ctxRuns s c.ctx then s
    else match placeTeam s (jobRow c.row) c.cmask [], blockPlace s (blockSize (jobRow c.row) false) with
      | some (cl, cores), some place =>
        let n := Nat.min (c.count - c.dealt) (chunkOf (c.count - c.dealt) (cardCores s c.cmask))
        let i : TeamIdent := { kind := .job, ctx := c.ctx, work := card, team := s.d.nextId, tidx := 0, nteam := 1, pri := c.pri,
                               depth := 1, stamp := c.stamp, loc := c.loc }
        let s := startTeam i true (jobRow c.row) false cl cores place (jobRegs c n) s
        modCard card (fun x => { x with dealt := x.dealt + n, groupsUp := x.groupsUp + 1 }) s
      | _, _ => s

def execJobChunkDeal (s : State) : Out :=
  match s.ev with
  | some (.job_chunk_deal card) => .next (jobDeal card s)
  | _ => .next s

/-! ### launch and jobput (R416 to R418) -/

/-- The 64-byte block at an address, as the one lane of a load at .dev: no L1 tag serves it (R416). -/
def blockLane (a : SReg) (s : State) : LaneAcc := globLane s 4 64 0 (rS s a).toNat 64

/-- The row of an .entry at an address, of a code object loaded in the context (R452). DESIGN CHOICE, log 33. -/
def rowAt (c : Ctx) (entry : Word64) : Option EntryRow := c.rows.find? (fun r => !r.window && vaOf r.entry == entry)

def blkStamp (b : BitVec 512) : Stamp := ⟨b.extractLsb' 192 64, b.extractLsb' 256 64⟩
def blkLoc (b : BitVec 512) : BitVec 16 := b.extractLsb' 176 16
def blkN (b : BitVec 512) : Nat := (b.extractLsb' 128 32).toNat
def blkDonew (b : BitVec 512) : Word64 := b.extractLsb' 320 64

/-- Status 4: the stamp's form, and the location. -/
def stampLocBad (c : Ctx) (t : Stamp) (l : BitVec 16) : Bool := !stampWf t || (l != 0xFFFF && decide (l.toNat ≥ c.locs.length))

/-- The implicit +1 of a launch or card: whether the group's capability allows it (R207), and the batch. -/
def plusOk (c : Ctx) (g : Group) (t : Stamp) (l : BitVec 16) : Bool := l == 0xFFFF || (placedOk c l.toNat t && allowed c g l.toNat t)
def plusOne (t : Stamp) (l : BitVec 16) (s : State) : State := if l = 0xFFFF then s else sendBatch [{ loc := l.toNat, stamp := t, amt := 1 }] s

/-- The status of a launch block (R416). -/
def launchStatus (c : Ctx) (b : BitVec 512) : Nat :=
  match rowAt c (b.extractLsb' 0 64) with
  | none => 1
  | some r =>
    if blkN b = 0 ∨ (b.extractLsb' 64 64).toNat % 64 ≠ 0 ∨ (blkDonew b).toNat % 8 ≠ 0 ∨ b.extractLsb' 384 128 ≠ 0 ∨ b.extractLsb' 160 16 ≠ 0 then 2
    else if !shapeOk r then 3
    else if stampLocBad c (blkStamp b) (blkLoc b) then 4
    else if !tidsOk c r then tidStatus
    else 0

/-- The status of a card block (R417). Whether its entry fits is judged of the whole row, the drone with it. DESIGN CHOICE, log 48. -/
def cardStatus (c : Ctx) (b : BitVec 512) : Nat :=
  let rsize := (b.extractLsb' 160 16).toNat
  match rowAt c (b.extractLsb' 0 64) with
  | none => 1
  | some r =>
    if blkN b = 0 ∨ (b.extractLsb' 64 64).toNat % 8 ≠ 0 ∨ (blkDonew b).toNat % 8 ≠ 0 ∨ b.extractLsb' 384 128 ≠ 0
        ∨ rsize % 8 ≠ 0 ∨ rsize < 8 ∨ rsize > 256 then 2
    else if !shapeOk r || r.p != 1 || r.g != 1 then 3
    else if stampLocBad c (blkStamp b) (blkLoc b) then 4
    else if !tidsOk c r then tidStatus
    else 0

/-- A group's team leader is group 0 of part 0. -/
def isLeader (g : Group) : Bool := g.idn.kind == .compute && g.idn.part == 0 && g.idn.gidx == 0

/-- The child grid joins its parent's queue, and counts as queued. -/
def addChild (b : BitVec 512) (r : EntryRow) (s : State) : State :=
  match amGet? s.d.grids s.g.idn.work with
  | none => s
  | some p =>
    let g : Grid := {
      ctx := p.ctx, queue := p.queue, depth := p.depth + 1, row := r, args := b.extractLsb' 64 64, stamp := blkStamp b,
      loc := blkLoc b, nteam := blkN b, nextTeam := 0, base := 0, exitedAbove := [], teamsUp := 0, kids := 0, pri := p.pri,
      cmask := p.cmask, det := false, pinned := p.pinned, repl := false, replOk := false, replays := 0, snaps := [],
      rep := { cmd := none, donew := blkDonew b, parent := s.g.idn.work }, order := s.q.beginNo, bowTeam := 0, cancelled := false }
    let s := modGrid s.g.idn.work (fun x => { x with kids := x.kids + 1 }) s
    let s := { s with d := { s.d with grids := amPut s.d.grids s.d.nextId g, nextId := s.d.nextId + 1 },
                      q := { s.q with beginNo := s.q.beginNo + 1 } }
    abortScans g.pri s

/-- The queue, priority, clusters and parent grid of what a group posts. DEDUCED, log 28. -/
def posterOf (s : State) (g : Group) : Nat × Nat × BitVec 8 × Nat :=
  match g.idn.kind with
  | .compute | .drone => (match amGet? s.d.grids g.idn.work with
    | some x => (x.queue, x.pri, x.cmask, g.idn.work)
    | none => (0, g.idn.pri, 0, 0))
  | .job => (match amGet? s.d.cards g.idn.work with
    | some x => (x.queue, x.pri, x.cmask, x.rep.parent)
    | none => (0, g.idn.pri, 0, 0))
  | .window => (0, g.idn.pri, 0, 0)

def addCard (b : BitVec 512) (r : EntryRow) (s : State) : State :=
  let p := posterOf s s.g
  let c : Card := {
    ctx := s.g.idn.ctx, queue := p.1, row := r, base := b.extractLsb' 64 64, rsize := (b.extractLsb' 160 16).toNat,
    count := blkN b, dealt := 0, groupsUp := 0, stamp := blkStamp b, loc := blkLoc b, pri := p.2.1, cmask := p.2.2.1,
    rep := { cmd := none, donew := blkDonew b, parent := p.2.2.2 }, order := s.q.beginNo, cancelled := false }
  { s with d := { s.d with cards := amPut s.d.cards s.d.nextId c, nextId := s.d.nextId + 1 },
           q := { s.q with beginNo := s.q.beginNo + 1 } }

/-- The shared course of launch and jobput: the waits, the block, the status, the capability, and then the work is added. A
team that has passed the bow does not wait for it again (DEDUCED, log 28). The status of a rejection by R388 is free.
DESIGN CHOICE, log 3. -/
def postWork (d a : SReg) (status : Ctx → BitVec 512 → Nat) (add : BitVec 512 → EntryRow → State → State) (s : State) : Out :=
  if (needsBow s s.g && !passedBow s s.g) || releaseWaits s scDev then .next (block s)
  else match gCtx s with
    | none => .next (raiseI fCAPV s)
    | some c =>
      let l := blockLane a s
      match laneFault 0 [l] with
      | some f => .next (raiseW f (fltWalk f s))
      | none =>
        match loadHeld false [l] s with
        | some s => .next s
        | none =>
          let r := loadLane 1 l s
          let b := BitVec.ofNat 512 r.1.1
          let s := r.2
          -- a poisoned block posts nothing (R356, R416)
          if r.1.2 then .next (retireS (notePoison l.addr 0 s))
          else if status c b = tidStatus then .next (retireS (wS (drawFree s).2 d (drawFree s).1))
          else if status c b ≠ 0 then .next (retireS (wS s d (w64 (status c b))))
          else if !plusOk c s.g (blkStamp b) (blkLoc b) then .next (raiseI fCAPV s)
          else match rowAt c (b.extractLsb' 0 64) with
            | none => .next (retireS (wS s d 1))
            | some r => .next (retireS (wS (add b r (plusOne (blkStamp b) (blkLoc b) s)) d 0))

def execLaunchChild (d a : SReg) (s : State) : Out :=
  if !isLeader s.g || s.g.idn.depth ≥ 10 then .next (raiseI fNEST s) else postWork d a launchStatus addChild s

def execJobput (d a : SReg) (s : State) : Out :=
  postWork d a cardStatus (fun b r s => addCard b r (leaveReplay 4 s)) s

end Sys2Proof.Machine
end

