-- ==== Sys2Proof/Machine/Rings.lean ====
section
/-! DEFINITION. Rings in memory: their control blocks, the writing of one entry, and the vector that follows (R120 to R123,
R237, R441, R455). -/
namespace Sys2Proof.Machine

/-- What became of an entry. -/
inductive RingRes where
  | ok (s : State)
  | full (s : State)
  | fault (f : Flt) (s : State)

/-- The fields of a ring control block's 64 bytes. -/
def rcbBase (b : Nat) : Word64 := vaOf (BitVec.ofNat 56 (b / 16 % 2 ^ 52 * 16))
def rcbLog2n (b : Nat) : Nat := b / 2 ^ 64 % 64
def rcbIrq (b : Nat) : Bool := b.testBit 129
def rcbPort (b : Nat) : Bool := b.testBit 130
def rcbVec (b : Nat) : BitVec 16 := BitVec.ofNat 16 (b / 2 ^ 144)

/-- A ring as its control block declares it. -/
def ringOf (block : Word64) (b : Nat) : Ring :=
  { block := block, base := rcbBase b, log2n := rcbLog2n b, irq := rcbIrq b, port := rcbPort b, vec := rcbVec b }

/-- VEC goes out by its host port, if that is trained (R120, R484). -/
def sendVec (r : Ring) (s : State) : State :=
  if r.irq && s.h.portUp.getD (if r.port then 1 else 0) false then { s with h := { s.h with msix := s.h.msix ++ [(r.port, r.vec)] } } else s

/-- PROD, CONS and WAKE of a control block: one dword of counters at byte 24, WAKE at byte 32. -/
def ringCounters (sp : IoSpace) (r : Ring) (s : State) : (Flt ⊕ Nat) × State := ioRead sp (r.block.toNat + 24) 16 s

/-- Writes one entry of size bytes, given by PROD, then PROD, then WAKE, and sends the vector (R122). -/
def ringPut (sp : IoSpace) (r : Ring) (size : Nat) (data : Nat → Nat) (s : State) : RingRes :=
  match ringCounters sp r s with
  | (.inl f, s) => .fault f s
  | (.inr c, s) =>
    let prod := c % 2 ^ 32
    let cons := c / 2 ^ 32 % 2 ^ 32
    let wake := c / 2 ^ 64
    let n := 2 ^ r.log2n
    if (prod + 2 ^ 32 - cons) % 2 ^ 32 ≥ n then .full s
    else match ioWrite sp (r.base.toNat + prod % n * size) size (data prod) s with
      | (some f, s) => .fault f s
      | (none, s) => match ioWrite sp (r.block.toNat + 24) 4 ((prod + 1) % 2 ^ 32) s with
        | (some f, s) => .fault f s
        | (none, s) => match ioWrite sp (r.block.toNat + 32) 8 ((wake + 1) % 2 ^ 64) s with
          | (some f, s) => .fault f s
          | (none, s) => .ok (sendVec r s)

/-- PH of the entry written at PROD (R121). -/
def lapBit (r : Ring) (prod : Nat) : Nat := 1 - prod / 2 ^ r.log2n % 2

end Sys2Proof.Machine
end

