-- ==== Sys2Proof/Machine/Windows.lean ====
section
/-! DEFINITION. Streams and window engines: descriptors, records, membership, closes, pegs, window groups and their entries,
the holds, and wsend, wemit, wclose, winfo (R216 to R237, R414, R415, R449). -/
namespace Sys2Proof.Machine

/-! ### Stream descriptors (R217) -/

def sdf (d : BitVec 512) (lo n : Nat) : Nat := (d.extractLsb' lo n).toNat

def sdPri (d : BitVec 512) : Nat := sdf d 12 3
def sdOutSid (d : BitVec 512) : Nat := sdf d 15 12
def sdVr (d : BitVec 512) : Nat := sdf d 27 5
def sdLoc (d : BitVec 512) : Nat := sdf d 32 10
def sdKw (d : BitVec 512) : Nat := sdf d 42 2
def sdRsz (d : BitVec 512) : Nat := sdf d 44 3
def sdPlw (d : BitVec 512) : Nat := sdf d 47 5
def sdStw (d : BitVec 512) : Nat := sdf d 52 5
def sdOutK (d : BitVec 512) : Nat := sdf d 57 2
def sdLate (d : BitVec 512) : Bool := d.getLsbD 59
def sdOvl (d : BitVec 512) : Bool := d.getLsbD 60
def sdChunk (d : BitVec 512) : Bool := d.getLsbD 61
def sdKind (d : BitVec 512) : Nat := sdf d 62 2
def sdSize2 (d : BitVec 512) : Nat := sdf d 64 32
def sdSize1 (d : BitVec 512) : Nat := sdf d 96 32
def sdOpen (d : BitVec 512) : BitVec 56 := d.extractLsb' 128 56
def sdResume (d : BitVec 512) : BitVec 56 := d.extractLsb' 192 56
def sdMerge (d : BitVec 512) : BitVec 56 := d.extractLsb' 256 56
def sdClose (d : BitVec 512) : BitVec 56 := d.extractLsb' 320 56
def sdRing (d : BitVec 512) : Word64 := vaOf ((d.extractLsb' 390 50).zeroExtend 56 <<< 6)
def sdOutRsz (d : BitVec 512) : Nat := sdf d 445 3
def sdV (d : BitVec 512) : Bool := d.getLsbD 448

/-- Whether a SLIDE stream shares panes (R224). -/
def sdPanes (d : BitVec 512) : Bool :=
  sdKind d == 1 && (sdOvl d || decide ((sdSize1 d + sdSize2 d - 1) / Nat.max 1 (sdSize2 d) > 16))

/-- Bytes of a stream's record. -/
def recBytes (d : BitVec 512) : Nat := 64 * (sdRsz d + 1)

def streamOf (s : State) (ctx sid : Nat) : Option StreamD := match ctxOf s ctx with
  | some c => (match c.streams[sid]? with
    | some d => if sdV d.desc then some d else none
    | none => none)
  | none => none

def modStream (ctx sid : Nat) (f : StreamD → StreamD) (s : State) : State :=
  modCtx ctx (fun c => { c with streams := c.streams.modify sid f }) s

/-! ### Records (R219, R220) -/

def recWord (r : BitVec 4096) (i : Nat) : Word64 := r.extractLsb' (64 * i) 64

def recStamp (r : BitVec 4096) : Stamp := ⟨recWord r 0, recWord r 1⟩

/-- The key with the bits at or above the key width cleared. -/
def maskKey (d : BitVec 512) (k : Word64) : Word64 := w64 (k.toNat % 2 ^ (8 * 2 ^ sdKw d))

/-- The record as it is delivered. -/
def recMasked (d : BitVec 512) (r : BitVec 4096) : BitVec 4096 :=
  (r &&& ~~~((BitVec.allOnes 64).zeroExtend 4096 <<< 128)) ||| ((maskKey d (recWord r 2)).zeroExtend 4096 <<< 128)

/-- The physical cluster whose engine serves a key (R220). -/
def keyCluster (t : Tuning) (k : Word64) : Nat :=
  let h := k.extractLsb' 0 16 ^^^ k.extractLsb' 16 16 ^^^ k.extractLsb' 32 16 ^^^ k.extractLsb' 48 16
  physCluster t (if t.clorder.length = 0 then 0 else h.toNat % t.clorder.length)

/-- A record reaches the engine of its key. -/
def sendRecord (ctx sid : Nat) (d : BitVec 512) (data : BitVec 4096) (s : State) : State :=
  let r := recMasked d data
  let no := s.d.nextId
  let idx := match streamOf s ctx sid with
    | some d => d.arrived
    | none => 0
  let cl := keyCluster s.tun (recWord r 2)
  let recs := amPut s.w.recs no { no := no, ctx := ctx, sid := sid, data := r, left := 0, opened := [], idx := idx }
  let arr := amPut s.w.arrivals cl ((amGet? s.w.arrivals cl).getD [] ++ [no])
  let s := modStream ctx sid (fun d => { d with arrived := d.arrived + 1 }) s
  due (.window_engine_step cl) { s with w := { s.w with recs := recs, arrivals := arr }, d := { s.d with nextId := no + 1 } }

/-! ### Faults of an engine (R47, R457) -/

/-- A fault of an engine: the stream parks on a page fault and otherwise the context's policy applies (R47, R226). -/
def engineFault (r : Rec) (kind : Nat) (f : Flt) (s : State) : State :=
  let fr := { recOfCtx s 3 (faultWord f 0 0) f.va (w32 r.idx) r.ctx with
    cmd0 := w64 (r.sid + kind * 2 ^ 12), cmd1 := recWord r.data 2, cmd2 := recWord r.data 0, cmd3 := recWord r.data 1 }
  let s := due (.fault_record fr) s
  if f.code = fPAGE then
    let s := modStream r.ctx r.sid (fun d => { d with parked := true }) s
    { s with q := { s.q with parkedFor := s.q.parkedFor ++ [(fr, .window r.ctx r.sid)] } }
  else applyPolicy r.ctx none f.code s

/-! ### Pegs (R225 to R227) -/

/-- A place of the peg store is reached through a hashed home (R72, R226). -/
def pegHome (pa : Nat) (s : State) : State := noteHome (regionOf pa) true s

/-- What an engine reads there is host-shared at most (R75). -/
def pegSeen (pa : Nat) (s : State) : State := snoopSec (pa / 128) false (pegHome pa s)

def pegPut (pa : Nat) (v : Word64) (s : State) : State := cohPutWord pa v (pegHome pa s)

/-- A window's state in R229's table: one whose entry waits for a window group to be assembled is in the state that the event names. -/
def tableState (w : Window) : WinState :=
  if w.st != .dormant then w.st
  else if w.opening || !w.queue.isEmpty then .active
  else if w.clp && !w.absorbed && !w.pane then .closing
  else .dormant

/-- Bytes 128 to 255 of a peg. -/
def pegMeta (w : Window) : BitVec 1024 :=
  let st : Nat := match tableState w with
    | .dormant => 1
    | .active => 2
    | .closing => 3
  BitVec.ofNat 1024 (w.key.toNat + w.start.toNat * 2 ^ 64 + w.lastE.toNat * 2 ^ 128 + w.lastC.toNat * 2 ^ 192
    + w.count.toNat * 2 ^ 256 + w.expiry.toNat * 2 ^ 320 + w.sid % 4096 * 2 ^ 384 + st * 2 ^ 396 + (if w.clp then 2 ^ 399 else 0))

def modWin (id : Nat) (f : Window → Window) (s : State) : State := { s with w := { s.w with wins := amMod s.w.wins id f } }

def winOf (s : State) (id : Nat) : Option Window := amGet? s.w.wins id

/-- A dirty peg goes to the peg store, its state words if it is cached, and leaves the cache. -/
def writePeg (id : Nat) (s : State) : State :=
  match winOf s id with
  | some w =>
    if w.pegPa = 0 ∨ !(w.cached || w.dirty) then s
    else
      let put := fun (base : Nat) (b : BitVec 1024) (s : State) =>
        (List.range 16).foldl (fun s i => pegPut (base + 8 * i) (b.extractLsb' (64 * i) 64) s) s
      let s := if w.dirty then put (w.pegPa + 128) (pegMeta w) (if w.cached then put w.pegPa w.words s else s) else s
      modWin id (fun w => { w with cached := false, dirty := false }) s
  | none => s

/-- The windows of a cluster whose pegs are cached. -/
def cachedPegs (s : State) (cl : Nat) : List Nat :=
  (s.w.wins.filter (fun e => e.2.cluster == cl && e.2.cached && e.2.pegPa != 0)).map (fun e => e.1)

/-- Room for one more cached peg among an engine's 4,096: which one is evicted is open. DESIGN CHOICE, log 14. -/
def pegRoom (cl : Nat) (s : State) : State :=
  let cs := cachedPegs s cl
  if cs.length < 4096 then s
  else match pickOne cs s with
    | (some id, s) => writePeg id s
    | (none, s) => s

/-- The record that a fault over a window's peg names: the head of its queue, or one with its key alone. -/
def pegRec (s : State) (w : Window) : Rec :=
  match w.queue.head?.bind (fun i => amGet? s.w.recs i.recNo) with
  | some r => r
  | none => { no := 0, ctx := w.ctx, sid := w.sid, data := w.key.zeroExtend 4096 <<< 128, left := 0, opened := [], idx := 0 }

/-- A window's state words come from the peg store into the cache; a poisoned one is consumed, and faults (R80). kind is
the entry that needs them. -/
def pegLoad (kind id : Nat) (s : State) : State :=
  match winOf s id with
  | some w =>
    if w.cached ∨ w.pegPa = 0 then s
    else
      let s := pegSeen w.pegPa s
      if cohPoisoned s w.pegPa 128 then
        engineFault (pegRec s w) kind { code := fECCU, detail := 0, acc := 4, level := 0, va := 0, mask := 0 } s
      else
        let ws := (List.range 16).foldl (fun (a : BitVec 1024) i => a ||| ((cohWord s (w.pegPa + 8 * i)).zeroExtend 1024 <<< (64 * i))) 0
        modWin id (fun w => { w with cached := true, words := ws }) (pegRoom w.cluster s)
  | none => s

/-- The lowest free slot of a bucket, 1 to 15. DESIGN CHOICE, log 29. -/
def bucketSlot (s : State) (b : Nat) : Option Nat :=
  let occ := (cohWord s (b + 8)).toNat
  ((List.range 15).find? (fun i => !occ.testBit i)).map (fun i => i + 1)

def bucketMark (b slot : Nat) (on : Bool) (s : State) : State :=
  let occ := cohWord s (b + 8)
  let m := (1 : Word64) <<< (slot - 1)
  pegPut (b + 8) (if on then occ ||| m else occ &&& ~~~m) s

/-- A bucket taken for an overflow: from those of the last frame, or of a new one from the context's pool (R39, R226). The
rule names no LEVEL for its faults: 0 here. DESIGN CHOICE, log 46. -/
def pegFrame (cl ctx : Nat) (s : State) : AFlt ⊕ Nat × State :=
  match ctxOf s ctx with
  | none => .inl { code := fPAGE, detail := 11, level := 0 }
  | some c =>
    match c.pegFree with
    | b :: bs => .inr (b, modCtx ctx (fun c => { c with pegFree := bs }) s)
    | [] =>
      let idx := lo32 c.plNext
      let pa := c.plBase.toNat + 8 * idx
      if idx ≥ hi32 c.plNext then .inl { code := fPAGE, detail := 11, level := 0 }
      else if !inDevMem s.tun pa then .inl { code := fPROT, detail := 6, level := 0 }
      else if cohPoisoned s pa 8 then .inl { code := fECCU, detail := 0, level := 0 }
      else
        let s := snoopNow (pa / 64) false (homeRegion (regionOf pa) (homeForEngine s.tun cl (regionOf pa)) s)
        let f := leafFrame (cohWord s pa)
        if !inHbm f then .inl { code := fPROT, detail := 6, level := 0 }
        else
          let bs := (List.range 15).map (fun i => f + 4096 * (i + 1))
          .inr (f, modCtx ctx (fun c => { c with plNext := w64 (hi32 c.plNext * 2 ^ 32 + (idx + 1) % 2 ^ 32), pegFree := bs }) s)

/-- Finds a peg's place along the chain of a bucket, and extends a full chain. The chain has at most n buckets: every
occupied slot is a live window's, so one more than the live windows suffices. -/
def pegPlace (cl ctx : Nat) : Nat → Nat → State → AFlt ⊕ Nat × State
  | 0, _, _ => .inl { code := fPAGE, detail := 11, level := 0 }
  | n + 1, b, s =>
    let s := pegSeen b s
    if cohPoisoned s b 16 then .inl { code := fECCU, detail := 0, level := 0 }
    else match bucketSlot s b with
      | some i => .inr (b + 256 * i, bucketMark b i true s)
      | none =>
        let next := (cohWord s b).toNat / 4096 % 2 ^ 40 * 4096
        if next ≠ 0 then pegPlace cl ctx n next s
        else match pegFrame cl ctx s with
          | .inl f => .inl f
          | .inr (nb, s) =>
            let s := pegPut (nb + 8) 0 (pegPut nb 0 s)
            pegPlace cl ctx n nb (pegPut b (w64 nb) s)

/-- The bucket of a key. -/
def keyBucket (c : Ctx) (k : Word64) : Nat := c.pegBase + 4096 * ((lo32 k ^^^ hi32 k) % 2 ^ c.log2b)

/-- A window's peg is freed, and the window is gone: the bucket's header no longer has the slot, whose bytes stay. DESIGN CHOICE, log 29. -/
def dropWin (id : Nat) (s : State) : State :=
  match winOf s id with
  | some w =>
    let s := if w.pegPa = 0 then s else bucketMark (w.pegPa / 4096 * 4096) (w.pegPa % 4096 / 256) false s
    { s with w := { s.w with wins := amDel s.w.wins id } }
  | none => s

/-! ### Membership (R222 to R224, R228) -/

/-- The windows of one key that may take records. -/
def candidates (s : State) (cl ctx sid : Nat) (k : Word64) : List Window :=
  (s.w.wins.filter (fun e => e.2.cluster == cl && e.2.ctx == ctx && e.2.sid == sid && e.2.key == k && !e.2.clp
    && e.2.st != .closing && !e.2.absorbed)).map (fun e => e.2)

def satEpoch (n : Nat) : Word64 := w64 (Nat.min n (2 ^ 64 - 1))

/-- Updates a window for a member, with the span and the last member stamp it then has, and queues the record. -/
def joinWin (no : Nat) (start : Word64) (last : Stamp) (expiry : Word64) (count : Nat) (absorb : Option Nat) (w : Window) : Window :=
  let it : QItem := { recNo := no, absorb := absorb, start := start, last := last.epoch, count := w64 count }
  { w with start := start, lastE := last.epoch, lastC := last.cw, expiry := expiry, count := w64 count, queue := w.queue ++ [it],
           dirty := true, lastNo := no }

/-- The record counts one more delivery. -/
def recMore (no : Nat) (opened : List Nat) (s : State) : State :=
  { s with w := { s.w with recs := amMod s.w.recs no (fun r => { r with left := r.left + 1, opened := r.opened ++ opened }) } }

/-- A record opens a window: the peg is allocated with zero state. -/
def openWin (cl : Nat) (r : Rec) (d : BitVec 512) (start expiry : Word64) (pane : Bool) (s : State) : AFlt ⊕ State :=
  let k := recWord r.data 2
  let t := recStamp r.data
  match ctxOf s r.ctx with
  | none => .inr s
  | some c =>
    match pegPlace cl r.ctx (s.w.wins.length + 2) (keyBucket c k) (pegRoom cl s) with
    | .inl f => .inl f
    | .inr (pa, s) =>
      let id := s.d.nextId
      let w : Window := {
        id := id, ctx := r.ctx, sid := r.sid, cluster := cl, st := .dormant, clp := false, opening := sdOpen d != 0,
        absorbed := false, key := k, start := start, lastE := t.epoch, lastC := t.cw, expiry := expiry, count := 0, words := 0,
        queue := [], folds := [], pane := pane, pegPa := pa, cached := true, dirty := true, lastNo := 0, firstStamp := t,
        readyFor := none, ready := 0 }
      let w := joinWin r.no start t expiry 1 none w
      .inr (recMore r.no [id] { s with w := { s.w with wins := amPut s.w.wins id w }, d := { s.d with nextId := id + 1 } })

/-- A record joins a window. -/
def joinTo (r : Rec) (w : Window) (start : Word64) (last : Stamp) (expiry : Word64) (count : Nat) (absorb : Option Nat) (s : State) : State :=
  recMore r.no [] (modWin w.id (joinWin r.no start last expiry count absorb) s)

/-- Joins, or opens, the window that starts at a given epoch. -/
def memberAt (cl : Nat) (r : Rec) (d : BitVec 512) (start len : Nat) (pane : Bool) (s : State) : AFlt ⊕ State :=
  match (candidates s cl r.ctx r.sid (recWord r.data 2)).find? (fun w => w.start == w64 start) with
  | some w => .inr (joinTo r w w.start (recStamp r.data) w.expiry (w.count.toNat + 1) none s)
  | none => openWin cl r d (w64 start) (satEpoch (start + len - 1)) pane s

/-- The starts of the sliding windows that an epoch belongs to. -/
def slideStarts (l sz t : Nat) : List Nat :=
  let hi := t / sz
  let lo := if t + 1 ≤ l then 0 else (t + 1 - l + sz - 1) / sz
  (List.range (hi + 1 - lo)).map (fun i => (lo + i) * sz)

/-- COUNT(N, S). DESIGN CHOICE, log 29. -/
def memberCountKind (cl : Nat) (r : Rec) (d : BitVec 512) (s : State) : AFlt ⊕ State :=
  let n := sdSize1 d
  let live := candidates s cl r.ctx r.sid (recWord r.data 2)
  let e := (recStamp r.data).epoch
  let openOnes := live.filter (fun w => decide (w.count.toNat < n))
  let youngest := live.foldl (fun (y : Option Window) w => match y with
    | some v => if v.id < w.id then some w else y
    | none => some w) none
  let opens := openOnes.isEmpty || (match youngest with
    | some y => decide (y.count.toNat ≥ sdSize2 d)
    | none => true)
  let s := openOnes.foldl (fun s w => joinTo r w w.start (recStamp r.data) w.expiry (w.count.toNat + 1) none s) s
  if opens then openWin cl r d e (BitVec.allOnes 64) false s else .inr s

/-- The last member stamp of a GAP window, LASTE and LASTC: the greatest epoch, with the counter word of the member accepted
most recently at that epoch (R225). DESIGN CHOICE, log 29. -/
def laterLast (a b : Stamp) : Stamp := if a.epoch.toNat ≤ b.epoch.toNat then b else a

/-- GAP(G): join, bridge or open. An end beyond the largest epoch saturates. DESIGN CHOICE, log 29. -/
def memberGap (cl : Nat) (r : Rec) (d : BitVec 512) (s : State) : AFlt ⊕ State :=
  let g := sdSize1 d
  let e := (recStamp r.data).epoch
  let t := e.toNat
  let mine := (candidates s cl r.ctx r.sid (recWord r.data 2)).filter (fun w => decide (w.start.toNat < t + g ∧ t < w.lastE.toNat + g))
  let endOf := fun (last : Nat) => satEpoch (last + g - 1)
  let lo := fun (a b : Nat) => w64 (Nat.min a b)
  let last := fun (w : Window) (t : Stamp) => laterLast ⟨w.lastE, w.lastC⟩ t
  match mine with
  | [] => openWin cl r d e (endOf t) false s
  | [w] =>
    let z := last w (recStamp r.data)
    .inr (joinTo r w (lo w.start.toNat t) z (endOf z.epoch.toNat) (w.count.toNat + 1) none s)
  | a :: b :: _ =>
    let x := if a.start.toNat ≤ b.start.toNat then a else b
    let y := if a.start.toNat ≤ b.start.toNat then b else a
    let z := last x (last y (recStamp r.data))
    let s := modWin y.id (fun w => { w with absorbed := true }) s
    .inr (joinTo r x (lo x.start.toNat t) z (endOf z.epoch.toNat) (x.count.toNat + y.count.toNat + 1) (some y.id) s)

/-- Decides membership for one record. -/
def member (cl : Nat) (r : Rec) (d : BitVec 512) (s : State) : AFlt ⊕ State :=
  let t := (recStamp r.data).epoch.toNat
  let l := sdSize1 d
  match sdKind d with
  | 0 => memberAt cl r d (t - t % Nat.max 1 l) l false s
  | 1 =>
    let sz := Nat.max 1 (sdSize2 d)
    if sdPanes d then memberAt cl r d (t - t % sz) sz true s
    else (slideStarts l sz t).foldl (fun (x : AFlt ⊕ State) st => match x with
      | .inl f => .inl f
      | .inr s => memberAt cl r d st l false s) (.inr s)
  | 2 => memberCountKind cl r d s
  | _ => memberGap cl r d s

/-! ### Delivery ends (R234) -/

/-- A window engine's batch. -/
def engineBatch (cl ctx : Nat) (ds : List Delta) (s : State) : State := due (.batch (.engine cl) ctx ds) s

/-- One delivery of a record has ended; the last one sends the decrement. -/
def recLess (cl no : Nat) (s : State) : State :=
  match amGet? s.w.recs no with
  | none => s
  | some r =>
    if r.left > 1 then { s with w := { s.w with recs := amPut s.w.recs no { r with left := r.left - 1 } } }
    else
      let s := { s with w := { s.w with recs := amDel s.w.recs no } }
      match streamOf s r.ctx r.sid with
      | some d => engineBatch cl r.ctx [{ loc := sdLoc d.desc, stamp := recStamp r.data, amt := -1 }] s
      | none => s

/-! ### Holds (R235) -/

def depthOfLoc (s : State) (ctx l : Nat) : Nat := match ctxOf s ctx with
  | some c => (match c.locs[l]? with | some e => e.depth.toNat | none => 0)
  | none => 0

/-- A first member's stamp at the output depth. -/
def cutStamp (t : Stamp) (d : Nat) : Stamp :=
  let i := fun j => if j ≤ d ∧ j ≤ cwDepth t.cw then cwI t.cw j else 0
  { epoch := t.epoch, cw := mkCw (i 1) (i 2) (i 3) d }

/-- The stamp at which a window holds its output location. -/
def winHold (d : BitVec 512) (depth : Nat) (w : Window) : Stamp :=
  if sdKind d = 2 then cutStamp w.firstStamp depth else stampAt w.expiry depth

/-- The output location of a stream that sends to another. -/
def outLoc (s : State) (ctx : Nat) (d : BitVec 512) : Nat := match streamOf s ctx (sdOutSid d) with
  | some o => sdLoc o.desc
  | none => 0

/-- The least hold of a stream's live windows, if it has any, at the depth of a location. -/
def leastHold (s : State) (ctx sid : Nat) (d : BitVec 512) (l : Nat) : Option Stamp :=
  match (s.w.wins.filter (fun e => e.2.ctx == ctx && e.2.sid == sid)).map (fun e => winHold d (depthOfLoc s ctx l) e.2) with
  | [] => none
  | h :: t => some (t.foldl stampMin h)

/-- A stream's one hold follows its live windows: a first +1, a move, or a last -1, sent by the engine that changes it. -/
def setHold (cl ctx sid : Nat) (s : State) : State :=
  match streamOf s ctx sid with
  | none => s
  | some d =>
    if sdOutK d.desc ≠ 1 then s
    else
      let l := outLoc s ctx d.desc
      let new := leastHold s ctx sid d.desc l
      if new = d.hold then s
      else
        let delta := fun (amt : Int) (h : Option Stamp) => (h.toList).map (fun t => ({ loc := l, stamp := t, amt := amt } : Delta))
        engineBatch cl ctx (delta 1 new ++ delta (-1) d.hold) (modStream ctx sid (fun x => { x with hold := new }) s)

/-! ### Closes (R222, R224, R228) -/

/-- Whether an input frontier closes what ends at an epoch: it passes the end, or is TOP. -/
def endPassed (depth : Nat) (f : Stamp) (e : Word64) : Bool := f.epoch == BitVec.allOnes 64 || passes f (endStamp e depth)

/-- Sets the close of a window. -/
def closeWin (id : Nat) (s : State) : State := modWin id (fun w => { w with clp := true, dirty := true }) s

/-- The panes of a key that lie in the sliding window from a start, in order. -/
def panesOf (s : State) (cl ctx sid : Nat) (k : Word64) (start len : Nat) : List Window :=
  (s.w.wins.filter (fun e => e.2.cluster == cl && e.2.ctx == ctx && e.2.sid == sid && e.2.key == k && e.2.pane)).map (fun e => e.2)
    |>.filter (fun w => decide (start ≤ w.start.toNat ∧ w.start.toNat < start + len))
    |>.foldl (fun l w => (l.takeWhile (fun x => decide (x.start.toNat < w.start.toNat))) ++ [w]
        ++ (l.dropWhile (fun x => decide (x.start.toNat < w.start.toNat)))) []

/-- A sliding window over panes closes: it takes the earliest pane's state and folds the others. Each pane notes it. A
pane whose peg does not load keeps the window open. -/
def closePanes (cl ctx sid : Nat) (k : Word64) (start len : Nat) (s : State) : State :=
  let s := match panesOf s cl ctx sid k start len with
    | p :: _ => pegLoad 3 p.id s
    | [] => s
  match panesOf s cl ctx sid k start len with
  | [] => s
  | p :: ps =>
    if !p.cached then s
    else
    let newest := ps.foldl (fun (a : Window) w => if a.lastNo < w.lastNo then w else a) p
    let id := s.d.nextId
    let w : Window := {
      p with id := id, st := .dormant, clp := true, opening := false, pane := false, start := w64 start, lastE := newest.lastE,
             lastC := newest.lastC, expiry := satEpoch (start + len - 1),
             count := w64 (ps.foldl (fun a w => a + w.count.toNat) p.count.toNat), queue := [], folds := ps.map (fun w => w.id),
             pegPa := 0, cached := true, dirty := false, readyFor := none, ready := 0 }
    let s := (p :: ps).foldl (fun s q => modWin q.id (fun w => { w with folds := w.folds ++ [start] }) s) s
    { s with w := { s.w with wins := amPut s.w.wins id w }, d := { s.d with nextId := id + 1 } }

/-- The sliding windows over a pane that the frontier closes and that have not closed yet, by start. -/
def paneCloses (depth : Nat) (f : Stamp) (d : BitVec 512) (w : Window) : List Nat :=
  (slideStarts (sdSize1 d) (Nat.max 1 (sdSize2 d)) w.start.toNat).filter (fun st =>
    !w.folds.contains st && endPassed depth f (satEpoch (st + sdSize1 d - 1)))

/-- Whether a pane waits for nothing: its records are resumed. -/
def paneIdle (w : Window) : Bool := w.st == .dormant && w.queue.isEmpty && !w.opening

/-- Tests the closes of a stream's windows at a cluster against its announced frontier. -/
def testCloses (cl ctx sid : Nat) (s : State) : State :=
  match streamOf s ctx sid with
  | none => s
  | some d =>
    let l := sdLoc d.desc
    match announcedOf s ctx l with
    | none => s
    | some a =>
      let depth := depthOfLoc s ctx l
      let mine := (s.w.wins.filter (fun e => e.2.cluster == cl && e.2.ctx == ctx && e.2.sid == sid)).map (fun e => e.2)
      if sdPanes d.desc then
        let todo := (mine.filter (fun w => w.pane)).flatMap (fun w => (paneCloses depth a.stamp d.desc w).map (fun st => (w.key, st)))
        todo.eraseDups.foldl (fun s p =>
          if (panesOf s cl ctx sid p.1 p.2 (sdSize1 d.desc)).all paneIdle then closePanes cl ctx sid p.1 p.2 (sdSize1 d.desc) s else s) s
      else
        (mine.filter (fun w => !w.clp && !w.absorbed && w.st != .closing
          && (a.stamp.epoch == BitVec.allOnes 64 || (sdKind d.desc != 2 && endPassed depth a.stamp w.expiry)))).foldl (fun s w => closeWin w.id s) s

/-! ### Ready work (R229, R231, R449) -/

/-- The entry a window is ready for, if any. -/
def winWork (s : State) (w : Window) : Option WEntry :=
  if w.st != .dormant then none
  else if w.opening then some .opn
  else match w.queue with
    | it :: _ =>
      (match it.absorb with
       | some x => (match winOf s x with
         | some y => if y.st == .dormant && y.queue.isEmpty && !y.opening then some .merge else none
         | none => some .resume)
       | none => some .resume)
    | [] =>
      if !w.clp || w.absorbed || w.pane then none
      else match w.folds with
        | x :: _ => (match winOf s x with
          | some y => if paneIdle y then some .merge else none
          | none => none)
        | [] => some .close

/-- The windows with work of a kind, in the order in which it became ready. -/
def readyWins (s : State) (cl ctx sid : Nat) (k : WEntry) : List Window :=
  ((s.w.wins.filter (fun e => e.2.cluster == cl && e.2.ctx == ctx && e.2.sid == sid && winWork s e.2 == some k)).map (fun e => e.2)).foldl
    (fun l w => (l.takeWhile (fun x => decide (x.ready ≤ w.ready))) ++ [w] ++ (l.dropWhile (fun x => decide (x.ready ≤ w.ready)))) []

/-- The records of a window's next chunk: none after the head that opened or bridges into a window of its own. -/
def chunkItems (s : State) (w : Window) : List QItem :=
  match w.queue with
  | [] => []
  | it :: rest =>
    it :: (rest.takeWhile (fun i => i.absorb.isNone && (match amGet? s.w.recs i.recNo with
      | some r => r.opened.all (fun o => o == w.id)
      | none => true))).take 31

/-- One lane of a window group: its window, and the record it handles, if it handles one. -/
structure LaneJob where
  win : Window
  item : Option QItem
deriving DecidableEq, Repr

/-- A list in pieces of n. -/
def runsOf {α : Type} (n : Nat) : Nat → List α → List (List α)
  | 0, _ => []
  | fuel + 1, l => if l.isEmpty then [] else l.take n :: runsOf n fuel (l.drop n)

/-- The lanes of the groups that a stream's work of a kind makes, in the order in which that work became ready: 32 windows
each, or in chunk mode one window each with its next chunk (R231). -/
def laneGroups (s : State) (cl ctx sid : Nat) (d : BitVec 512) (k : WEntry) : List (List LaneJob) :=
  let ws := readyWins s cl ctx sid k
  if sdChunk d && k == .resume then ws.map (fun w => (chunkItems s w).map (fun i => { win := w, item := some i }))
  else
    (runsOf (if sdChunk d then 1 else 32) ws.length ws).map (fun l => l.map (fun w => { win := w, item := match k with
      | .close => none
      | _ => w.queue.head? }))

/-- Whether a group is due: 32 lanes, or 32 queued records of one window, or 512 cycles of its oldest work (R449). -/
def groupDue (s : State) (d : BitVec 512) (k : WEntry) (js : List LaneJob) : Bool :=
  match js with
  | [] => false
  | j :: _ => decide (32 ≤ (if sdChunk d && k == .resume then j.win.queue.length else js.length)) || decide (j.win.ready + 512 ≤ s.tick)

def entryKinds : List WEntry := [.opn, .resume, .merge, .close]

/-- Notes since when each window of a stream at a cluster is ready for the entry it is ready for. -/
def noteReady (cl ctx sid : Nat) (s : State) : State :=
  { s with w := { s.w with wins := amMap s.w.wins (fun _ w =>
      if w.cluster == cl && w.ctx == ctx && w.sid == sid && w.readyFor != winWork s w then
        { w with readyFor := winWork s w, ready := s.tick }
      else w) } }

/-- Starts a group of a kind that is due, and otherwise sets the timeout at which the oldest work has waited 512 cycles. -/
def armKind (cl ctx sid : Nat) (d : BitVec 512) (s : State) (k : WEntry) : State :=
  let gs := laneGroups s cl ctx sid d k
  let ev := Event.window_group_timeout cl ctx sid k
  if gs.any (groupDue s d k) then
    if s.agenda.contains (.window_group_start cl ctx sid k) then s else due (.window_group_start cl ctx sid k) s
  else match gs.flatten.map (fun j => j.win.ready) with
    | [] => noTimer ev s
    | t :: ts => timer (ts.foldl Nat.min t + 512 - s.tick) ev (noTimer ev s)

/-- What a stream's ready work at a cluster starts (R449). -/
def armWork (cl ctx sid : Nat) (s : State) : State :=
  match streamOf s ctx sid with
  | some d => if d.parked then s else entryKinds.foldl (armKind cl ctx sid d.desc) (noteReady cl ctx sid s)
  | none => s

/-- A pane is freed once the window that starts where it starts has closed and no closing window folds it (R224). -/
def freePanes (w : Window) (s : State) : State :=
  let mine := (s.w.wins.map (fun e => e.2)).filter (fun v => v.cluster == w.cluster && v.ctx == w.ctx && v.sid == w.sid && v.key == w.key)
  let still := mine.filter (fun v => v.pegPa == 0)
  ((mine.filter (fun p => p.pane && p.folds.contains p.start.toNat
      && !still.any (fun v => v.start == p.start || v.folds.contains p.id))).map (fun p => p.id)).foldl (fun s i => dropWin i s) s

/-- Ends a window over panes, or a plain one (R224, R229). -/
def finishClose (id : Nat) (s : State) : State :=
  match winOf s id with
  | none => s
  | some w => if w.pegPa ≠ 0 then dropWin id s else freePanes w (dropWin id s)

/-- Windows whose close needs no entry end at once. -/
def skipCloses (cl ctx sid : Nat) (s : State) : State :=
  match streamOf s ctx sid with
  | some d =>
    if sdClose d.desc ≠ 0 then s
    else ((s.w.wins.filter (fun e => e.2.cluster == cl && e.2.ctx == ctx && e.2.sid == sid && winWork s e.2 == some .close)).map (fun e => e.1)).foldl
      (fun s i => finishClose i s) s
  | none => s

/-- What follows a change of a stream's windows at a cluster: closes without an entry, the hold, and the work that is ready. -/
def settleStream (cl ctx sid : Nat) (s : State) : State := armWork cl ctx sid (setHold cl ctx sid (skipCloses cl ctx sid s))

/-! ### The engine step (R228) -/

/-- Takes one arrived record: its membership, or a fault, or the wait of a stream that is parked. -/
def takeRecord (cl : Nat) (x : State × List Nat) (no : Nat) : State × List Nat :=
  let s := x.1
  match amGet? s.w.recs no with
  | none => x
  | some r =>
    match streamOf s r.ctx r.sid with
    | none => ({ s with w := { s.w with recs := amDel s.w.recs no } }, x.2)
    | some d =>
      if d.parked || !ctxRuns s r.ctx then (s, x.2 ++ [no])
      else match member cl r d.desc s with
        | .inr s => (s, x.2)
        | .inl f => (engineFault r 0 { code := f.code, detail := f.detail, acc := 5, level := f.level, va := 0, mask := 0 } s, x.2 ++ [no])

/-- The streams that exist, as context and index. -/
def allStreams (s : State) : List (Nat × Nat) :=
  s.ctxs.flatMap (fun c => (List.range c.2.streams.length).filterMap (fun i => if (streamOf s c.1 i).isSome then some (c.1, i) else none))

/-- WINDOW_ENGINE_STEP: membership of every arrived record, then the closes; the pegs of suspended contexts are written back. -/
def engineStep (cl : Nat) (s : State) : State :=
  let arr := (amGet? s.w.arrivals cl).getD []
  let r := arr.foldl (takeRecord cl) ({ s with w := { s.w with arrivals := amPut s.w.arrivals cl [] } }, [])
  let s := { r.1 with w := { r.1.w with arrivals := if r.2 = [] then amDel r.1.w.arrivals cl else amPut r.1.w.arrivals cl r.2 } }
  let s := (allStreams s).foldl (fun s p => if ctxRuns s p.1 then settleStream cl p.1 p.2 (testCloses cl p.1 p.2 s) else s) s
  let away := (s.w.wins.filter (fun e => e.2.cluster == cl && (ctxOf s e.2.ctx).any (fun c => c.suspended))).map (fun e => e.1)
  away.foldl (fun s id => writePeg id s) s

def execWindowEngineStep (s : State) : Out :=
  match s.ev with
  | some (.window_engine_step cl) => .next (engineStep cl s)
  | _ => .next s

/-! ### Window groups (R185, R231, R232, R236, R449) -/

def wordOf (ws : BitVec 1024) (i : Nat) : Word64 := ws.extractLsb' (64 * i) 64

/-- The resources of a stream's window groups, as an entry-table row; obj is that of its resume entry. -/
def winRow (s : State) (ctx : Nat) (d : BitVec 512) (entry : BitVec 56) : EntryRow :=
  let obj := match ctxOf s ctx with
    | some c => (match c.rows.find? (fun r => r.window && r.entry == sdResume d) with
      | some r => r.obj
      | none => 0)
    | none => 0
  { entry := entry, drone := 0, window := true, p := 1, g := 1, acc := 0, accw64 := false, vregs := 32 * sdVr d, dvregs := 0,
    qbase := 0, qlen := 0, scratch := if sdRsz d > 3 then 16384 else 0, desc := d.extractLsb' 0 128, opn := sdOpen d, merge := sdMerge d,
    close := sdClose d, outRsz := sdOutRsz d, ring := (sdRing d).extractLsb' 0 56, obj := obj }

def entryAddr (d : BitVec 512) : WEntry → BitVec 56
  | .opn => sdOpen d
  | .resume => sdResume d
  | .merge => sdMerge d
  | .close => sdClose d

def entryCode : WEntry → Nat
  | .opn => 0
  | .resume => 1
  | .merge => 2
  | .close => 3

/-- The record a lane's registers show. -/
def laneRec (s : State) (j : LaneJob) : Option Rec := match j.item with
  | some i => amGet? s.w.recs i.recNo
  | none => none

/-- The state that stands in v48 to v63: the absorbed window's or the pane's. -/
def laneOther (s : State) (k : WEntry) (j : LaneJob) : BitVec 1024 :=
  if k != .merge then 0
  else match (match j.item with | some i => i.absorb | none => j.win.folds.head?) with
    | some x => (match winOf s x with | some y => y.words | none => 0)
    | none => 0

/-- The values of one lane's registers (R231). A merge of a pane has no record: what v16, v17 and v19 hold is open
(DESIGN CHOICE, log 3), and its payload registers and scratch record are zero. DESIGN CHOICE, log 29. -/
def laneRegs (s : State) (d : BitVec 512) (k : WEntry) (l : Nat) (x : Cells 64 × State) (j : LaneJob) : Cells 64 × State :=
  let put := fun (m : Cells 64) (r : Nat) (v : Word64) => cellPut m (32 * r + l) v
  let keep := fun (ws : BitVec 1024) (i : Nat) => if i < sdStw d then wordOf ws i else 0
  let m := (List.range 16).foldl (fun m i => put m i (if k == .opn then 0 else keep j.win.words i)) x.1
  let m := (List.range 16).foldl (fun m i => put m (48 + i) (keep (laneOther s k j) i)) m
  let m := put m 18 j.win.key
  match laneRec s j with
  | some r =>
    let m := put (put (put m 16 (recWord r.data 0)) 17 (recWord r.data 1)) 19 (recWord r.data 3)
    ((List.range (sdPlw d)).foldl (fun m i => put m (20 + i) (recWord r.data (4 + i))) m, x.2)
  | none =>
    if k == .close then (put m 16 (if sdKind d = 2 then j.win.lastE else j.win.expiry), x.2)
    else
      ([16, 17, 19].foldl (fun (y : Cells 64 × State) r => let f := drawFree y.2; (put y.1 r f.1, f.2)) (m, x.2))

/-- The registers of a group at its entry. In chunk mode the window's state stands in every lane, also in those without a
record (R231). DESIGN CHOICE, log 29. -/
def lanePutAll (s : State) (d : BitVec 512) (k : WEntry) (js : List LaneJob) : Cells 64 × State :=
  let blank : Cells 64 := if sdChunk d && k != .opn then (match js with
      | j :: _ => (List.range (Nat.min 16 (sdStw d))).foldl (fun m i =>
          (List.range 32).foldl (fun m l => cellPut m (32 * i + l) (wordOf j.win.words i)) m) []
      | [] => [])
    else []
  (js.zipIdx).foldl (fun x p => laneRegs s d k p.2 x p.1) (blank, s)

/-- LOC and STAMP of a window group (R236). The lanes of a merge of panes have no record: their stamp is zero. DESIGN CHOICE, log 29. -/
def winCap (s : State) (ctx sid : Nat) (d : BitVec 512) (k : WEntry) (js : List LaneJob) : Nat × Stamp :=
  let least := fun (ts : List Stamp) => match ts with
    | [] => Stamp.zero
    | t :: r => r.foldl stampMin t
  if k != .close then (sdLoc d, least (js.filterMap (fun j => (laneRec s j).map (fun r => recStamp r.data))))
  else
    let l := if sdOutK d = 1 then outLoc s ctx d else sdLoc d
    (l, if sdKind d = 2 then (leastHold s ctx sid d l).getD Stamp.zero else least (js.map (fun j => winHold d (depthOfLoc s ctx l) j.win)))

/-- What winfo returns for a lane (R232): for an absorbed window's entry, the values at the group's start. DESIGN CHOICE, log 29. -/
def laneInfo (k : WEntry) (j : LaneJob) : LaneWin :=
  match j.item with
  | some i => if k == .merge then { win := j.win.id, start := j.win.start, last := j.win.lastE, count := j.win.count, recNo := i.recNo }
    else { win := j.win.id, start := i.start, last := i.last, count := i.count, recNo := i.recNo }
  | none => { win := j.win.id, start := j.win.start, last := j.win.lastE, count := j.win.count, recNo := 0 }

/-- The core of a cluster with room and the fewest resident groups. -/
def winCore (s : State) (cl : Nat) (r : EntryRow) : Option Nat :=
  leastBy (fun c => (residents s c).length) (((liveCoresOf s.tun cl).map (fun c => 256 * cl + c)).filter (fun c => partFits s c r))

/-- The own scratchpad of a window group whose records are long: zeroed, then each lane's record at 512 l. -/
def winScratch (core base : Nat) (recs : List (Option Rec)) (n : Nat) (s : State) : State :=
  let lo := sramKey core (base * 4096)
  let s := { s with m := { s.m with sram := cellClear s.m.sram lo 16384, srPoison := cellClear s.m.srPoison lo 16384 } }
  recs.zipIdx.foldl (fun s p => match p.1 with
    | some r => sramPut core (base * 4096 + 512 * p.2) n r.data.toNat s
    | none => s) s

/-- The windows of a lane whose pegs are not cached. -/
def pegMissing (s : State) (j : LaneJob) : List Nat :=
  let other := match (match j.item with | some i => i.absorb | none => j.win.folds.head?) with
    | some x => [x]
    | none => []
  (j.win.id :: other).filter (fun id => match winOf s id with | some w => !w.cached | none => false)

/-- A removal of clusters waits for window groups to end, and none starts (R220). -/
def engineLeaving (s : State) : Bool := s.timers.any (fun t => match t.2 with
  | .tuning_event (.cluster _) => true
  | _ => false)

/-- Starts the first group of a stream and entry kind that is due and whose pegs are cached, as an acquire at .dev, if there
is room. The pegs that other due groups miss are loaded, and those groups start later (R449). NTEAM reads 1, and s4:s5 hold the zero
stamp where no frontier of the input location has been announced: no rule gives them. DESIGN CHOICE, log 29. -/
def windowStart (cl ctx sid : Nat) (k : WEntry) (s : State) : State :=
  match streamOf s ctx sid, ctxOf s ctx with
  | some d, some c =>
    let parked := d.parked
    let d := d.desc
    let ready := (laneGroups s cl ctx sid d k).filter (groupDue s d k)
    let missing := ready.flatten.flatMap (pegMissing s)
    let again := timer 16 (.window_group_timeout cl ctx sid k) s
    if parked ∨ !ctxRuns s ctx then s
    else if ready = [] then armWork cl ctx sid s
    else if engineLeaving s then again
    else
      let s := if missing = [] then s
        else timer 1 (.window_group_timeout cl ctx sid k) (dues (missing.eraseDups.map (fun w => Event.peg_load ctx sid w)) s)
      match ready.find? (fun js => js.all (fun j => (pegMissing s j).isEmpty)) with
      | none => s
      | some js =>
      let row := winRow s ctx d (entryAddr d k)
      match winCore s cl row, blockPlace s (blockSize row false) with
      | some core, some place =>
        if coreFilling s core then again
        else
          let n := js.length
          let k1 : Word32 := w32 (2 ^ n - 1)
          let cap := winCap s ctx sid d k js
          let regs := lanePutAll s d k js
          let s := regs.2
          let f := match announcedOf s ctx (sdLoc d) with
            | some a => a.stamp
            | none => Stamp.zero
          let sregs := [(1, w64 sid), (2, w64 (entryCode k)), (3, w64 n), (4, f.epoch), (5, f.cw)].foldl (fun m p => cellPut m p.1 p.2) []
          let i : TeamIdent := { kind := .window, ctx := ctx, work := sid, team := s.d.nextId, tidx := 0, nteam := 1,
                                 pri := Nat.min (sdPri d) c.primax, depth := 1, stamp := cap.2, loc := BitVec.ofNat 16 cap.1 }
          let gid := s.d.nextGid
          let rb := (roomOn s core (allocUnits row)).getD (256, 0)
          let s := setSplit core rb.1 s
          let e : PartEnt := { v := true, st := false, core := core % 256, base := rb.2, size := allocUnits row, groups := 1, exited := 0, left := false }
          let t := { Team.nil with ctx := ctx, cluster := cl, parts := [e], tids := initTids s ctx row,
                                   savePlace := place, saveSize := blockSize row false }
          let s := { s with d := { s.d with teams := amPut s.d.teams i.team t, nextId := s.d.nextId + 1 } }
          let s := if row.scratch = 0 then s else winScratch core rb.2 (js.map (laneRec s)) (recBytes d) s
          let g := newGroup i row false 0 0 core (freeSlot s core) gid 0 sregs
          let g := { g with status := .running, rdy := s.tick, live := k1, kregs := cellPut [] 1 k1, vregs := regs.1,
                            w := { kind := k, chunk := sdChunk d && k == .resume, lanes := js.map (laneInfo k), closed := 0, emitted := 0 } }
          let s := addGroup g s
          let s := js.foldl (fun s j => modWin j.win.id (fun w => { w with st := if k == .close then .closing else .active }) s) s
          armWork cl ctx sid (selfInvalidate core s)
      | _, _ => again
  | _, _ => s

/-- Whether a group of a stream and entry kind is due, has its pegs, and finds no core. -/
def windowStuck (s : State) (cl ctx sid : Nat) (k : WEntry) : Bool :=
  match streamOf s ctx sid with
  | some d => !d.parked && ctxRuns s ctx && !engineLeaving s && (winCore s cl (winRow s ctx d.desc (entryAddr d.desc k))).isNone
      && ((laneGroups s cl ctx sid d.desc k).filter (groupDue s d.desc k)).any (fun js => js.all (fun j => (pegMissing s j).isEmpty))
  | none => false

/-- PEG_LOAD. -/
def execPegLoad (s : State) : Out :=
  match s.ev with
  | some (.peg_load _ _ id) =>
    .next (match winOf s id with
      | some w => pegLoad ((winWork s w).elim 0 entryCode) id s
      | none => s)
  | _ => .next s

/-- WINDOW_GROUP_START and WINDOW_GROUP_TIMEOUT (R449). -/
def execWindowGroupStart (s : State) : Out :=
  match s.ev with
  | some (.window_group_start cl ctx sid k) => .next (windowStart cl ctx sid k s)
  | _ => .next s

def execWindowGroupTimeout (s : State) : Out :=
  match s.ev with
  | some (.window_group_timeout cl ctx sid k) => .next (windowStart cl ctx sid k s)
  | _ => .next s

/-! ### An entry ends (R222, R229, R233) -/

/-- The state words that lane l of a group leaves. -/
def laneWords (g : Group) (stw l : Nat) : BitVec 1024 :=
  (List.range 16).foldl (fun (a : BitVec 1024) i => if i < stw then a ||| ((cellGet g.vregs (32 * i + l)).zeroExtend 1024 <<< (64 * i)) else a) 0

/-- Saves a lane's state to its window, whose peg is cached again if it was evicted. -/
def saveLane (g : Group) (stw l : Nat) (x : LaneWin) (s : State) : State :=
  let s := match winOf s x.win with
    | some w => if w.cached then s else pegRoom w.cluster s
    | none => s
  modWin x.win (fun w => { w with words := laneWords g stw l, cached := true, dirty := true }) s

/-- The end of one lane's entry. n is the number of a COUNT stream's members, 0 for the other kinds. A wclose of a window that a bridge
has absorbed before the entry ends has no effect. DESIGN CHOICE, log 29. -/
def endLane (g : Group) (n cl : Nat) (s : State) (p : LaneWin × Nat) : State :=
  let shut := g.w.closed.getLsbD p.2 || (g.w.chunk && g.w.closed != 0)
  let id := p.1.win
  let back := fun (f : Window → Window) (s : State) => modWin id (fun w => f { w with st := .dormant }) s
  match winOf s id with
  | none => s
  | some w =>
    let shut := shut && !w.pane && !w.absorbed
    match g.w.kind with
    | .opn => back (fun w => { w with opening := false, clp := w.clp || shut }) s
    | .resume =>
      let full := decide (n ≠ 0 ∧ p.1.count.toNat ≥ n)
      recLess cl p.1.recNo (back (fun w => { w with queue := w.queue.drop 1, clp := w.clp || shut || full }) s)
    | .merge =>
      (match w.queue with
       | it :: rest =>
         let s := match it.absorb with
           | some y => dropWin y s
           | none => s
         back (fun w => { w with queue := { it with absorb := none } :: rest, clp := w.clp || shut }) s
       | [] => freePanes w (back (fun w => { w with folds := w.folds.drop 1 }) s))
    | .close => finishClose id s

/-- The exit of a window group: every lane of k1 is saved, and its windows go on. -/
def windowExit (g : Group) (s : State) : State :=
  let ctx := g.idn.ctx
  let sid := g.idn.work
  let cl := clusterOf g.idn.core
  match streamOf s ctx sid with
  | none => s
  | some d =>
    let stw := sdStw d.desc
    let ls := g.w.lanes.zipIdx
    let s := if g.w.kind == .close then s
      else if g.w.chunk then (match ls.getLast? with
        | some p => saveLane g stw p.2 p.1 s
        | none => s)
      else ls.foldl (fun s p => saveLane g stw p.2 p.1 s) s
    let cls := (cl :: g.w.lanes.filterMap (fun l => (winOf s l.win).map (fun w => w.cluster))).eraseDups
    let s := ls.foldl (endLane g (if sdKind d.desc = 2 then sdSize1 d.desc else 0) cl) s
    cls.foldl (fun s c => due (.window_engine_step c) (settleStream c ctx sid s)) s

/-! ### wsend, wemit, wclose, winfo (R414, R415) -/

/-- n consecutive vector registers from v up; none where they run past v1023. -/
def regRun (v : VReg) (n : Nat) : List VReg := (List.range n).map (fun i => v + BitVec.ofNat 10 i)

def runFault (g : Group) (v : VReg) (n : Nat) : Option Nat :=
  if g.idn.nv < v.toNat + n then some fILLOP else vregFault g (regRun v n)

/-- The record a lane forms: n words of its registers, zero above. -/
def laneRecord (s : State) (v : VReg) (n l : Nat) : BitVec 4096 :=
  (List.range n).foldl (fun (a : BitVec 4096) i => a ||| ((rV s (v + BitVec.ofNat 10 i) l).zeroExtend 4096 <<< (64 * i))) 0

/-- What fails a lane: its stamp's form, then the depth and the capability. -/
def laneSendFault (s : State) (tgt : Option StreamD) (t : Stamp) : Option Nat :=
  if !stampWf t then some fILLOP
  else match tgt, gCtx s with
    | some d, some c => if placedOk c (sdLoc d.desc) t && allowed c s.g (sdLoc d.desc) t then none else some fCAPV
    | some _, none => some fCAPV
    | none, _ => none

/-- The fault of the lanes of a send: the lowest failing lane's, with every lane that fails with its code. -/
def sendFault (s : State) (tgt : Option StreamD) (v : VReg) (n : Nat) (act : Word32) : Option Flt :=
  let fs := (lanesOf act).filterMap (fun l => (laneSendFault s tgt (recStamp (laneRecord s v n l))).map (fun c => (l, c)))
  match fs with
  | [] => none
  | (_, c) :: _ => some { flt c with mask := (fs.filter (fun p => p.2 == c)).foldl (fun m p => m ||| bit32 p.1) 0 }

/-- Records to a stream: one batch of increments, then the records in ascending lane order. -/
def sendLanes (ctx sid : Nat) (d : StreamD) (v : VReg) (n : Nat) (act : Word32) (s : State) : State :=
  let rs := (lanesOf act).map (laneRecord s v n)
  let s := sendBatch (rs.map (fun r => ({ loc := sdLoc d.desc, stamp := recStamp r, amt := 1 } : Delta))) s
  rs.foldl (fun s r => sendRecord ctx sid d.desc r s) s

/-- The shared checks of a send to a target of w words, then run. -/
def sendInstr (ill : Bool) (tgt : Option StreamD) (w : Nat) (v : VReg) (n : Nat) (act : Word32) (s : State) (run : Out) : Out :=
  if ill || n < 4 || n > w then .next (raise { flt fILLOP with mask := act } 0 act s)
  else match runFault s.g v n with
    | some c => .next (raise { flt c with mask := act } 0 act s)
    | none =>
      if act = 0 then .next (retire act s)
      else match sendFault s tgt v n act with
        | some f => .next (raise f 0 act s)
        | none => if (needsBow s s.g && !passedBow s s.g) || releaseWaits s scDev then .next (block s) else run

def execWsend (v : VReg) (a b : SReg) (k : KReg) (s : State) : Out :=
  let act := actOf s k
  let sid := (rS s a).toNat
  let n := (rS s b).toNat
  match (if sid < 4096 then streamOf s s.g.idn.ctx sid else none) with
  | none => .next (raise { flt fILLOP with mask := act } 0 act s)
  | some d =>
    sendInstr false (some d) (8 * (sdRsz d.desc + 1)) v n act s
      (.next (retire act (sendLanes s.g.idn.ctx sid d v n act (leaveReplay 3 s))))

/-- The ring of a stream, from its control block as it stands. -/
def streamRing (s : State) (sp : IoSpace) (d : BitVec 512) : (Flt ⊕ Ring) × State :=
  match ioRead sp (sdRing d).toNat 64 s with
  | (.inl f, s) => (.inl f, s)
  | (.inr b, s) => (.inr (ringOf (sdRing d) b), s)

/-- The lanes' records go to the ring, those that are not there yet, in order. A full ring makes the group try again. -/
def emitRing (d : BitVec 512) (v : VReg) (n : Nat) (act : Word32) : List Nat → State → Out
  | [], s => .next (retire act { s with g := { s.g with w := { s.g.w with emitted := 0 } } })
  | l :: ls, s =>
    let ctx := s.g.idn.ctx
    let sp := IoSpace.engine (clusterOf s.g.idn.core) ctx
    let fail := fun (f : Flt) (s : State) =>
      let r : Rec := { no := 0, ctx := ctx, sid := s.g.idn.work, data := laneRecord s v n l, left := 0, opened := [], idx := 0 }
      Host.Outcome.next (block (engineFault r (entryCode s.g.w.kind) f s))
    match streamRing s sp d with
    | (.inl f, s) => fail f s
    | (.inr r, s) =>
      match ringPut sp r (64 * (sdOutRsz d + 1)) (fun _ => (laneRecord s v n l).toNat) s with
      | .ok s => emitRing d v n act ls { s with g := { s.g with w := { s.g.w with emitted := s.g.w.emitted + 1 } } }
      | .full s => .next { s with g := { s.g with rdy := s.tick } }
      | .fault f s => fail f s

def execWemit (v : VReg) (b : SReg) (k : KReg) (s : State) : Out :=
  let act := actOf s k
  let n := (rS s b).toNat
  let ctx := s.g.idn.ctx
  match (if s.g.idn.kind == .window then streamOf s ctx s.g.idn.work else none) with
  | none => .next (raise { flt fILLOP with mask := act } 0 act s)
  | some d =>
    if sdOutK d.desc = 1 then
      (match streamOf s ctx (sdOutSid d.desc) with
       | none => .next (raise { flt fILLOP with mask := act } 0 act s)
       | some o => sendInstr false (some o) (8 * (sdRsz o.desc + 1)) v n act s
          (.next (retire act (sendLanes ctx (sdOutSid d.desc) o v n act (leaveReplay 3 s)))))
    else
      sendInstr (sdOutK d.desc != 2) none (8 * (sdOutRsz d.desc + 1)) v n act s
        (if d.parked then .next (block s) else emitRing d.desc v n act ((lanesOf act).drop s.g.w.emitted) s)

def execWclose (k : KReg) (s : State) : Out :=
  let act := actOf s k
  if s.g.idn.kind != .window then .next (raiseI fILLOP s)
  else .next (retire act { s with g := { s.g with w := { s.g.w with closed := s.g.w.closed ||| act } } })

def execWinfo (d : VReg) (k : KReg) (s : State) : Out :=
  let act := actOf s k
  if s.g.idn.kind != .window then .next (raiseI fILLOP s)
  else match runFault s.g d 3 with
    | some c => .next (raiseI c s)
    | none =>
      let at_ := fun (f : LaneWin → Word64) (l : Nat) => match s.g.w.lanes[l]? with
        | some x => f x
        | none => 0
      let g := putLanes s.g d.toNat (lanesOf act) (at_ (fun x => x.start))
      let g := putLanes g (d.toNat + 1) (lanesOf act) (at_ (fun x => x.last))
      let g := putLanes g (d.toNat + 2) (lanesOf act) (at_ (fun x => x.count))
      .next (retire act { s with g := g })

end Sys2Proof.Machine
end

