-- ==== Sys2Proof/Machine/Exit.lean ====
section
/-! DEFINITION. exit: the waits of a group that ends, and what its leaving does (R94, R177, R184, R233, R308, R404, R410). -/
namespace Sys2Proof.Machine

/-- Whether a group's accesses, commands and batches are all done (R308). -/
def exitReady (s : State) : Bool :=
  s.g.n.parkQ.isEmpty && s.g.n.ld == 0 && s.g.n.cps.isEmpty && s.g.n.batches.isEmpty && s.g.n.mxs.isEmpty && s.g.n.batchOut == 0
    && !releaseWaits s scDev

/-- The other side of a drone pair learns that this side has exited, and looks again (R184). DEDUCED, log 38. -/
def tellMate (g : Group) (s : State) : State :=
  if g.idn.mate = 0 then s else wakeGid g.idn.mate (modGroup g.idn.mate (fun h => { h with mateGone := true }) s)

/-- The group at issue leaves its core. -/
def leaveCore (s : State) : State :=
  let g := s.g
  let s := noGroupTimers g.idn.gid { s with g := Group.none }
  let s := { s with d := { s.d with chain := s.d.chain.filter (fun c => c.src ≠ g.idn.gid) } }
  wakeTeam g.idn.team (tellMate g s)

/-- A group of a team has exited: its part's count, and the part's exit after the last. -/
def partCount (g : Group) (s : State) : State :=
  let s := modPart g.idn.team g.idn.part (fun e => { e with exited := e.exited + 1 }) s
  match teamOf s g.idn.team with
  | some t => (match partEnt t g.idn.part with
    | some e => if e.exited ≥ e.groups then due (.part_exit g.idn.team g.idn.part) s else s
    | none => s)
  | none => s

/-- A window group's team ends with it: its stash maps are written back and removed (R94, R100). -/
def dropWindowTeam (team : Nat) (s : State) : State :=
  let s := (match teamOf s team with
    | some t => t.stash
    | none => []).foldl (fun s m => unmapStash team m s) s
  { s with d := { s.d with teams := amDel s.d.teams team } }

/-- The group at issue has ended. -/
def groupEnds (s : State) : State :=
  let g := s.g
  let s := leaveCore s
  let s := match g.idn.kind with
    | .window => windowExit g (dropWindowTeam g.idn.team s)
    | .drone => partCount g s
    | _ => partCount g (barrierExit g s)
  settlePreempts (saveTeam g.idn.team s)

def execExit (s : State) : Out :=
  if s.g.x.sup then .next (raiseI fILLOP s)
  else
    let s := if s.g.n.mxs.any (fun c => c.batch == 0) then { s with g := settleBatches (closeBatch s.g) } else s
    .next (if exitReady s then groupEnds s else block s)

end Sys2Proof.Machine
end

