-- ==== Sys2Proof/Machine/Deliver.lean ====
section
/-! DEFINITION. Engine commands that park, deliveries at instruction boundaries, and the timers of groups (R43 to R46, R306,
R307, R340, R351, R356, R399, R451, R457). -/
namespace Sys2Proof.Machine

/-! ### Boundaries (R43 to R45, R453) -/

/-- What a group's wait leaves when a delivery ends it: its timers stop, an unmatched vxshf is withdrawn (R44, R307), and it is
ready from now on (R451). -/
def endWait (gid : Nat) (s : State) : State :=
  let s := [Event.yield_expiry gid, .sleep_expiry gid, .vnbr_timeout gid, .vxshf_timeout gid].foldl (fun s e => noTimer e s) s
  let s := withdraw gid s
  modGroup gid (fun g => { g with rdy := if g.status = .running then g.rdy else s.tick, watch := none, yieldFor := [], timedOut := false, hostVals := [], snooped := [], bbOn := none }) s

/-- Whether a group stands at an instruction boundary outside its handler: no replay is due, and no access that the host port serves
is under way. -/
def atBoundary (g : Group) : Bool := !g.x.sup && g.x.replay.isNone && g.hostDue == 0 && g.hostVals.isEmpty

/-! ### Escalation of a group's engine fault (R46, R454, R457) -/

/-- A group stops at its boundary with a parked command's fault, which goes to the host with the command's record (R453, R454). -/
def escalateCmd (gid : Nat) (src : BitVec 3) (fc : Word32) (fva : Word64) (mask : Word32)
    (cmd : Word64 × Word64 × Word64 × Word64) (s : State) : State :=
  match findGroup s gid with
  | none => s
  | some g =>
    let r : FaultRec := { recOfGroup s src fc fva mask g.pc g with
      first := 0, cmd0 := cmd.1, cmd1 := cmd.2.1, cmd2 := cmd.2.2.1, cmd3 := cmd.2.2.2 }
    let s := modGroup gid (fun g =>
      let x : ExcState := if g.x.sup then g.x else
        { g.x with faultMask := 1, doneMask := 0, faultVa := fva, faultCode := fc, epc := g.pc, epcSet := g.pc }
      { g with status := .stopped, x := x }) (endWait gid s)
    applyPolicy g.idn.ctx (cmdOfGroup s g) (fc.toNat % 65536) (due (.fault_record r) s)

/-- A parked command's fault that the group cannot take: rollback for F_ECCU in a replayable launch (R464), else the host. -/
def parkToHost (gid : Nat) (matrix : Bool) (fc : Word32) (fva : Word64) (g : Group) (mask : Word32)
    (cmd : Word64 × Word64 × Word64 × Word64) (s : State) : State :=
  match (if fc.toNat % 65536 = fECCU then rollsBack s g else none) with
  | some r => rollback r fECCU (some g.idn.core) s
  | none => escalateCmd gid (if matrix then 2 else 1) fc fva mask cmd s

/-- Whether a parked fault can enter the group's handler (R32, R46). -/
def parkEnters (s : State) (g : Group) (fc : Word32) : Bool :=
  (match ctxOf s g.idn.ctx with
   | some c => c.handler != 0
   | none => false)
    && fc.toNat % 65536 == fPAGE && fc.toNat / 2 ^ 28 != 11

/-- The fault of a parked command: matrix, slot. -/
def parkedFault (g : Group) (p : Bool × Nat) : Option (Word32 × Word64) :=
  if p.1 then (findMx g p.2).map (fun c => (c.fcode, c.fva)) else (findCopy g p.2).map (fun c => (c.fcode, c.fva))

/-- A parked command's fault goes to the host, with the command's record. -/
def parkOut (gid : Nat) (p : Bool × Nat) (g : Group) (s : State) : State :=
  if p.1 then
    match findMx g p.2 with
    | none => s
    | some c => parkToHost gid true c.fcode c.fva g (w32 c.step) (mxCmdWords c) s
  else
    match findCopy g p.2 with
    | none => s
    | some c => parkToHost gid false c.fcode c.fva g 0 (copyDword0 g c, c.d1, c.d2, c.d3) s

/-- PARK (R43, R46): the command is parked with its progress; its fault awaits the group's next boundary, or goes to the
host there. -/
def parkCmd (matrix : Bool) (gid slot : Nat) (fc : Word32) (fva : Word64) (s : State) : State :=
  match findGroup s gid with
  | none => s
  | some g =>
    if (if matrix then (findMx g slot).isNone else (findCopy g slot).isNone) then s
    else
      let s := if matrix then modMx gid slot (fun c => { c with parked := true, fcode := fc, fva := fva }) s
        else modCopy gid slot (fun c => { c with parked := true, fcode := fc, fva := fva }) s
      if !parkEnters s g fc && atBoundary g && g.n.parkQ.isEmpty then parkOut gid (matrix, slot) ((findGroup s gid).getD g) s
      else modGroup gid (fun h => { h with n := { h.n with parkQ := h.n.parkQ ++ [(matrix, slot)] } }) s

def execPark (s : State) : Out :=
  match s.ev with
  | some (.park matrix gid slot fc va) => .next (parkCmd matrix gid slot fc va s)
  | _ => .next s

/-! ### Deliveries -/

/-- The fault of a stash's write-back at the boundary of its group: as that of a store (R27). DESIGN CHOICE, log 44. -/
def deliverBack (fc : Word32) (va : Word64) (s : State) : State :=
  let s := endWait s.g.idn.gid s
  let s := { s with g := { s.g with x := { s.g.x with doneMask := 0 } } }
  if entersHandler s (fc.toNat % 65536) (fc.toNat / 2 ^ 28) then enterHandler .back fc va 1 0 s.g.live s.g.pc s
  else escalate 0 fc va 1 0 s.g.pc (0, 0, 0, 0) s

/-- PARKED_FAULT_DELIVERY (R43, R46): the group at issue enters its handler for a write-back's fault, or for the first of its parked
commands, or stops where that one's fault goes to the host. -/
def execParkedFaultDelivery (s : State) : Out :=
  match s.g.x.backFlts, s.g.n.parkQ with
  | b :: bs, _ => .next (deliverBack b.1 b.2 { s with g := { s.g with x := { s.g.x with backFlts := bs } } })
  | [], [] => .next s
  | [], p :: ps =>
    let s := { s with g := { s.g with n := { s.g.n with parkQ := ps } } }
    match parkedFault s.g p with
    | none => .next s
    | some f =>
      let s := endWait s.g.idn.gid s
      let s := { s with g := { s.g with x := { s.g.x with doneMask := 0 } } }
      if !parkEnters s s.g f.1 then .next (parkOut s.g.idn.gid p s.g s)
      else .next (enterHandler .parked f.1 f.2 1 0 s.g.live s.g.pc s)

/-- ECCU_DELIVERY (R356, R464): F_ECCU of a load or an atomic, at the boundary. DESIGN CHOICE, log 3. -/
def execEccuDelivery (s : State) : Out :=
  match s.g.x.eccu with
  | none => .next s
  | some (va, acc) =>
    let s := endWait s.g.idn.gid { s with g := { s.g with x := { s.g.x with eccu := none } } }
    match rollsBack s s.g with
    | some r => .next (rollback r fECCU (some s.g.idn.core) s)
    | none =>
      -- FAULTMASK of a boundary fault of a load is not stated
      let m := drawFree s
      .next (escalate 0 (faultWord { flt fECCU with acc := acc.toNat, va := va } 0 0) va (m.1.truncate 32) 0 s.g.pc (0, 0, 0, 0) m.2)

/-! ### Timers of groups -/

/-- URGENT (R451). -/
def execUrgent (s : State) : Out :=
  match s.ev with
  | some (.urgent gid) => .next (modGroup gid (fun g => if g.status = .running then { g with urgent := true } else g) s)
  | _ => .next s

/-- YIELD_EXPIRY (R306). -/
def execYieldExpiry (s : State) : Out :=
  match s.ev with
  | some (.yield_expiry gid) =>
    .next (modGroup gid (fun g => if g.status = .yielded then { g with status := .running, yieldFor := [], rdy := s.tick } else g) s)
  | _ => .next s

/-- SLEEP_EXPIRY (R307): NSEC has reached the sleep's end. DESIGN CHOICE, log 17. -/
def execSleepExpiry (s : State) : Out :=
  match s.ev with
  | some (.sleep_expiry gid) =>
    let ends := match findGroup s gid with
      | some g => if g.status = .sleeping then g.wakeAt else 0
      | none => 0
    let s := { s with nsec := Nat.max s.nsec ends }
    .next (modGroup gid (fun g => if g.status = .sleeping then { g with status := .running, rdy := s.tick } else g) s)
  | _ => .next s

/-- A wait at issue has run out of time: its instruction executes again and faults, one that has been woken to look again too (R340,
R351). -/
def timeUp (gid : Nat) (s : State) : State :=
  wakeGid gid (modGroup gid (fun g => if g.status = .waiting ∨ g.status = .running then { g with timedOut := true } else g) s)

def execVnbrTimeout (s : State) : Out :=
  match s.ev with
  | some (.vnbr_timeout gid) => .next (timeUp gid s)
  | _ => .next s

def execVxshfTimeout (s : State) : Out :=
  match s.ev with
  | some (.vxshf_timeout gid) => .next (timeUp gid s)
  | _ => .next s

end Sys2Proof.Machine
end

