-- ==== Sys2Proof/Machine/HostPorts.lean ====
section
/-! DEFINITION. What reaches the device from its host ports, its expanders, its base dies and its peers (R74 to R80, R214,
R215, R366, R445, R484 to R487, R492). -/
namespace Sys2Proof.Machine

/-! ### Device memory as the host reaches it (R75, R76) -/

/-- Whether a group, or an engine for it, still has to make the access it had the line snooped for (R76). -/
def lineClaimed (s : State) (line : Nat) : Bool := (allGroups s).any (fun g => g.snooped.contains line
  || (groupRuns g && (g.n.cps.any (fun c => !c.finished && !c.parked && c.claim.contains line)
    || g.n.mxs.any (fun c => !mxDone c && !c.parked && c.claim.contains line))))

/-- Whether the host's read of a line finds the 16,384 entries of its slice's filter in use (R75). -/
def filterFull (s : State) (line : Nat) : Bool :=
  decide (16384 ≤ s.m.hfilt.length) && (amGet? s.m.hfilt line).isNone
    && decide (16384 ≤ (s.m.hfilt.filter (fun e => homeSlice s (e.1 / 2) == homeSlice s (line / 2))).length)

/-- A full filter of a slice frees an entry by BISnpInv, one at a time (R75). DESIGN CHOICE, log 14. -/
def filterRoom (line : Nat) (s : State) : State :=
  let mine := s.m.hfilt.filter (fun e => homeSlice s (e.1 / 2) == homeSlice s (line / 2))
  if mine.any (fun e => s.m.biPend.contains e.1) then s
  else match pickOne mine s with
    | (some v, s) => sendSnoops [v.1] s
    | (none, s) => s

/-- A request of the host at the home of its line: held behind a back-invalidation and the device's action that asked for
it, behind a release of the region, and, where it is to be recorded, until the filter has room; then the owners are revoked (R71,
R75, R76). -/
def hostAtHome (e : Event) (line : Nat) (records : Bool) (serve : State → State) (s : State) : State :=
  let sec := line / 2
  if !inHbm (64 * line) then s
  else if s.m.biPend.contains line || releasing s sec || heldBefore s sec || lineClaimed s line then hold e s
  else if records && filterFull s line then filterRoom line (hold e s)
  else match ownersOf s sec (lineWords line) none with
    | [] => serve (homeRegion (regionOf (64 * line)) (keeperOf s.tun (regionOf (64 * line))) s)
    | os => dueNow (os.map (fun c => Event.rvk c sec (wordsOwnedBy s sec (lineWords line) c))) (hold e s)

/-- MEMRD (R76): the line goes to the host, and the filter records it. -/
def execMemrd (s : State) : Out :=
  match s.ev with
  | some (.memrd line) => .next (hostAtHome (.memrd line) line true (memrdServe line) s)
  | _ => .next s

/-- MEMWR (R76): the host's bytes merge over the owners'; the region table is read-only (R69). -/
def execMemwr (s : State) : Out :=
  match s.ev with
  | some (.memwr line mask data) =>
    .next (hostAtHome (.memwr line mask data) line false (memwrServe line mask data) s)
  | _ => .next s

/-- BIRSP (R75) of a snoop that is outstanding: the filter entry goes, or becomes host-shared; what waited goes on. -/
def execBirsp (s : State) : Out :=
  match s.ev with
  | some (.birsp line inv) =>
    let s' := { s with m := { s.m with
      biPend := s.m.biPend.filter (fun l => l ≠ line)
      hfilt := if inv then amDel s.m.hfilt line else amMod s.m.hfilt line (fun _ => false) } }
    .next (if s.m.biPend.contains line then wakeAll (unhold s') else s)
  | _ => .next s

/-- BICONFLICT (R76): the handshake settles a crossing; the host's requests for the line wait behind the device's action. -/
def execBiconflict (s : State) : Out :=
  match s.ev with
  | some (.biconflict line) =>
    let mine : Event → Bool := fun e => match e with
      | .memrd l => l == line
      | .memwr l _ _ => l == line
      | _ => false
    .next (if s.m.biPend.contains line then
      { s with
        agenda := s.agenda.filter (fun e => !mine e)
        m := { s.m with held := s.m.held ++ s.agenda.filter mine, under := s.m.under.filter (fun u => !mine u.1) } }
      else s)
  | _ => .next s

/-! ### Host lines of KIND 10 (R74) -/

/-- A home's bytes of a line it holds in M go to the host. -/
def hostLineBack (line : Nat) (h : HostLine) (s : State) : State :=
  if h.st = .m then hostPutM (64 * line) 64 h.data.toNat h.poison.toNat s else s

def setHostLine (line : Nat) (h : HostLine) (s : State) : State :=
  { s with m := { s.m with hlines := amPut s.m.hlines line h } }

/-- SNPDATA (R74): the home answers from its copy and keeps it shared; for a line it does not hold it sends nothing. DESIGN
CHOICE, log 23. -/
def execSnpdata (s : State) : Out :=
  match s.ev with
  | some (.snpdata line) => .next (match amGet? s.m.hlines line with
    | some h => setHostLine line { h with st := .s } (hostReply line h.data (hostLineBack line h s))
    | none => s)
  | _ => .next s

/-- SNPINV (R74): the home answers from its copy and gives it up. DESIGN CHOICE, log 23. -/
def execSnpinv (s : State) : Out :=
  match s.ev with
  | some (.snpinv line) => .next (match amGet? s.m.hlines line with
    | some h =>
      let s := hostReply line h.data (hostLineBack line h s)
      { s with m := { s.m with hlines := amDel s.m.hlines line } }
    | none => s)
  | _ => .next s

/-- SNPCUR (R74): the home answers with the current value and keeps its state. DESIGN CHOICE, log 23. -/
def execSnpcur (s : State) : Out :=
  match s.ev with
  | some (.snpcur line) => .next (match amGet? s.m.hlines line with
    | some h => hostReply line h.data s
    | none => s)
  | _ => .next s

/-- CXL_CACHE_DATA (R74): the host answers RdShared or RdOwn, and the home holds the line; RdCurr leaves nothing held. -/
def execCxlCacheData (s : State) : Out :=
  match s.ev with
  | some (.cxl_cache_data line own keep) =>
    .next (if !keep then s
      else match amGet? s.m.hlines line with
        | some h => if own && h.st == .s then setHostLine line { h with st := .e } s else s
        | none => hostLineGet line (if own then .e else .s) s)
  | _ => .next s

/-! ### Expanders and base dies (R77, R79, R80) -/

/-- A sector's bytes reach its home, with their poison marks. -/
def sectorArrives (sec : Nat) (data : BitVec 1024) (poison : BitVec 128) (s : State) : State :=
  match amGet? s.m.l2 sec with
  | some _ => s
  | none =>
    let s := l2Room sec s
    { s with m := { s.m with l2 := amPut s.m.l2 sec { dirty := false, data := data, poison := poison, used := s.tick } } }

def execExpanderMemrdData (s : State) : Out :=
  match s.ev with
  | some (.expander_memrd_data sec data poison) =>
    .next (if inExpander s.tun (128 * sec) then sectorArrives sec data poison s else s)
  | _ => .next s

def execBaseDieReply (s : State) : Out :=
  match s.ev with
  | some (.base_die_reply sec data poison) => .next (if inHbm (128 * sec) then sectorArrives sec data poison s else s)
  | _ => .next s

/-- A counter of lifetime data, which saturates at all-ones (R492). -/
def satAdd (c : Cells 32) (i n : Nat) : Cells 32 := cellPut c i (w32 (Nat.min ((cellGet c i).toNat + n) (2 ^ 32 - 1)))

/-- The channels of a stack take what a scrub has corrected; how many errors there were is not stated (DESIGN CHOICE, log 3). -/
def noteErrors (stack : Nat) (s : State) : State :=
  (List.range 16).foldl (fun s ch =>
    let r := drawFree s
    { r.2 with h := { s.h with life := { s.h.life with
        correctable := satAdd s.h.life.correctable (16 * stack + ch) (r.1.toNat % 2 ^ 32) } } }) s

/-- Each die's temperature and voltage fall into one of 64 bins: bin b of quantity q of die d is counted at 128 d + 64 q + b, with the
clusters' dies first, then the I/O die and the base dies. Which bin is not stated, nor how often a sample is taken (R492).
DESIGN CHOICE, logs 3 and 25. -/
def noteSamples (s : State) : State :=
  (List.range 42).foldl (fun s i =>
    let r := drawFree s
    { r.2 with h := { s.h with life := { s.h.life with hist := satAdd s.h.life.hist (64 * i + r.1.toNat % 64) 1 } } }) s

/-- PATROL_SCRUB (R79, R492): the stack is read and corrected; what was corrected, channel by channel, goes to lifetime data, with a
sample of the dies. The next scrub comes 24 hours later. -/
def execPatrolScrub (s : State) : Out :=
  match s.ev with
  | some (.patrol_scrub stack) => .next (noteSamples (noteErrors stack (timer scrubTicks (.patrol_scrub stack) s)))
  | _ => .next s

/-! ### Host ports (R366, R445) -/

/-- HOST_PORT_COMPLETION (R366): a value comes back to the access at issue, which goes on with the last of them. -/
def execHostPortCompletion (s : State) : Out :=
  match s.ev with
  | some (.host_port_completion gid v) =>
    let s := modGroup gid (fun g => if g.hostDue = 0 then g else { g with hostVals := g.hostVals ++ [v], hostDue := g.hostDue - 1 }) s
    .next (match findGroup s gid with
      | some g => if g.hostDue = 0 then wakeGid gid s else s
      | none => s)
  | _ => .next s

/-- PCIE_HOST_ACCESS (R445): a host access that goes to the base dies directly and bypasses the homes. -/
def execPcieHostAccess (s : State) : Out :=
  match s.ev with
  | some (.pcie_host_access write line mask data) =>
    .next (if !inDevMem s.tun (64 * line) || !s.h.portPcie.any id then s
      else if write then (if inTable s line then s else putSector (line / 2) (lineMask line mask) (lineData line data) 0 s)
      else hostReply line (if inTable s line then tableLine s line else lineOf line (memSector s (line / 2))) s)
  | _ => .next s

/-! ### Peers (R214, R215, R485, R486, R492) -/

/-- Whether a context is paired with a device. -/
def pairedWith (s : State) (ctx dev : Nat) : Bool := match ctxOf s ctx with
  | some c => c.peers.any (fun p => p.dev == dev)
  | none => false

/-- Whether two contexts are paired, the far one on a device. -/
def pairHolds (s : State) (r : PeerReq) (dev : Nat) : Bool := match ctxOf s r.paired with
  | some c => c.peers.any (fun p => p.dev == dev && p.ctx == r.ctx)
  | none => false

/-- A fault of the peer-side bytes of a peer's transfer: its record goes to the paired context's tenant. A page fault parks the bytes
here; after another the context's policy applies, and the peer learns the code if it terminates (R454, R487). DESIGN CHOICE, log 36. -/
def peerFault (dev : Nat) (msg : PeerMsg) (r : PeerReq) (f : Flt) (s : State) : State :=
  let rec_ : FaultRec := { recOfCtx s 4 (faultWord f 0 0) f.va 0 r.paired with cmd0 := r.tag, cmd1 := w64 (r.done % 2 ^ 40), cmd2 := r.src, cmd3 := r.dst }
  let s := due (.fault_record rec_) s
  if f.code = fPAGE then { s with q := { s.q with parkedFor := s.q.parkedFor ++ [(rec_, .peer dev msg)] } }
  else
    let s := applyPolicy r.paired none f.code s
    if (ctxOf s r.paired).any (fun c => c.terminated) then toPeer dev (.faulted r.id r.done (BitVec.ofNat 16 f.code)) s
    else timer 16 (.peer_flit 0 true dev msg) s

/-- The peer-side bytes of a peer's transfer are performed in the paired context. Where the context's policy has terminated it the peer
learns its fault code, and where the pairing is gone F_PEERGONE; while the context is suspended they wait (R487). DESIGN CHOICE, log 36. -/
def peerPerform (dev : Nat) (msg : PeerMsg) (r : PeerReq) (s : State) : State :=
  match ctxOf s r.paired with
  | none => toPeer dev (.faulted r.id r.done (BitVec.ofNat 16 fPEERGONE)) s
  | some c =>
    if pairHolds s r dev && c.terminated then toPeer dev (.faulted r.id r.done (BitVec.ofNat 16 c.endCode)) s
    else if !pairHolds s r dev || c.destroying then toPeer dev (.faulted r.id r.done (BitVec.ofNat 16 fPEERGONE)) s
    else if c.suspended then timer 16 (.peer_flit 0 true dev msg) s
    else match msg with
      | .write _ va n data marks => (match ioWriteP (.virt r.paired) va.toNat n data marks s with
        | (some f, s) => peerFault dev msg r { f with acc := 5 } s
        | (none, s) => toPeer dev (.wrote r.id r.done n) s)
      | .read _ va n => (match ioReadP (.virt r.paired) va.toNat n s with
        | (.inl f, s) => peerFault dev msg r { f with acc := 4 } s
        | (.inr v, s) => toPeer dev (.data r.id r.done n v.1 v.2) s)
      | _ => s

/-- An answer reaches the transfer that waits for it: the transfer goes on, or ends with the peer's fault code (R487). -/
def peerAnswers (dev id done : Nat) (f : Xfer → Xfer) (s : State) : State :=
  match amGet? s.q.xfers id with
  | none => s
  | some x =>
    if x.finished || !x.asked || x.peer.toNat != dev || x.done != done then s
    else due (.transfer_finish id) { s with q := { s.q with xfers := amPut s.q.xfers id (f { x with asked := false }) } }

/-- What a flit brings. -/
def peerArrives (dev : Nat) (msg : PeerMsg) (s : State) : State :=
  match msg with
  | .batch seq ctx ds => due (.peer_batch dev seq ctx ds) s
  | .write r .. => peerPerform dev msg r s
  | .read r .. => peerPerform dev msg r s
  | .wrote id done n => peerAnswers dev id done (fun x => { x with done := x.done + n, got := none }) s
  | .data id done n v marks => peerAnswers dev id done (fun x => { x with got := some (n, v, marks) }) s
  | .faulted id done code => peerAnswers dev id done (fun x => { x with finished := true, finAt := s.tick, status := 1, fcode := code }) s

/-- PEER_FLIT (R485): a flit that fails its CRC is sent again; a good one brings its message. -/
def execPeerFlit (s : State) : Out :=
  match s.ev with
  | some (.peer_flit _ crcOk dev msg) => .next (if crcOk then peerArrives dev msg s else s)
  | _ => .next s

/-- The number of the last batch of a peer that has been applied. -/
def peerSeenOf (s : State) (dev : Nat) : Nat := (amGet? s.t.peerSeen dev).getD 0

def ackPeer (dev seq : Nat) (s : State) : State := { s with t := { s.t with peerWire := s.t.peerWire ++ [.ack dev seq] } }

/-- A peer's next batch is acknowledged and applied. -/
def applyPeer (dev seq ctx : Nat) (ds : List Delta) (s : State) : State :=
  let s := ackPeer dev seq { s with t := { s.t with peerSeen := amPut s.t.peerSeen dev seq } }
  if pairedWith s ctx dev then batchArrives (.peer dev) ctx ds s else s

/-- The batches that a lower number has held up follow it, in order. -/
def peerFollow : Nat → Nat → State → State
  | 0, _, s => s
  | n + 1, dev, s => match s.t.peerHeld.find? (fun b => b.dev == dev && b.seq == peerSeenOf s dev + 1) with
    | some b => peerFollow n dev (applyPeer dev b.seq b.ctx b.ds { s with t := { s.t with peerHeld := s.t.peerHeld.erase b } })
    | none => s

/-- PEER_BATCH (R214, R486): batches are applied and acknowledged in the order of their numbers. One that overtakes another waits for
it, and one already applied is acknowledged again and discarded. DESIGN CHOICE, log 36. -/
def execPeerBatch (s : State) : Out :=
  match s.ev with
  | some (.peer_batch dev seq ctx ds) =>
    .next (if seq ≤ peerSeenOf s dev then ackPeer dev seq s
      else if seq = peerSeenOf s dev + 1 then peerFollow s.t.peerHeld.length dev (applyPeer dev seq ctx ds s)
      else
        let b : PeerBatch := { dev := dev, seq := seq, ctx := ctx, ds := ds }
        if s.t.peerHeld.contains b then s else { s with t := { s.t with peerHeld := s.t.peerHeld ++ [b] } })
  | _ => .next s

/-- PEER_BATCH_ACK (R486): batches are acknowledged in order. -/
def execPeerBatchAck (s : State) : Out :=
  match s.ev with
  | some (.peer_batch_ack dev seq) =>
    .next { s with t := { s.t with peerOut := s.t.peerOut.filter (fun b => b.dev ≠ dev ∨ b.seq > seq) } }
  | _ => .next s

/-- The locations that WAIT.STAMP commands of a context wait on; one of them may have begun while the exchange was cut (R215). -/
def waitedOn (s : State) (ctx : Nat) : List Nat :=
  (s.q.waits.filter (fun w => match amGet? s.q.queues w.queue with
    | some q => q.ctx == ctx
    | none => false)).map (fun w => (w.body.extractLsb' 128 16).toNat)

/-- EXCHANGE_RESTORE (R215, R486): batches not acknowledged go out again in their order, and the frontiers of shared
locations move on. -/
def execExchangeRestore (s : State) : Out :=
  match s.ev with
  | some (.exchange_restore dev) =>
    let cs := s.ctxs.filter (fun e => pairedWith s e.1 dev)
    let s := cs.foldl (fun s e => modCtx e.1 (fun c =>
      { c with peers := c.peers.map (fun p => if p.dev = dev then { p with up := true } else p) }) s) s
    let again := (s.t.peerOut.filter (fun b => b.dev == dev)).map PeerOut.batch
    let s := { s with t := { s.t with peerWire := s.t.peerWire ++ again } }
    .next (dues (cs.flatMap (fun e => ((watched s e.1 ++ waitedOn s e.1).eraseDups.filter (fun l => match locOf e.2 l with
      | some x => x.shr
      | none => false)).map (fun l => Event.frontier_announcement e.1 l))) (wakeAll s))
  | _ => .next s

/-- LINK_RETRAIN (R485, R492): lifetime data counts it, and a change of a peer link's lanes or rate is a tuning event. The numbers from
24 up are the two host ports and the four expander ports. DESIGN CHOICE, log 25. -/
def execLinkRetrain (s : State) : Out :=
  match s.ev with
  | some (.link_retrain link lanes rate) =>
    let s := { s with h := { s.h with life := { s.h.life with retrains := satAdd s.h.life.retrains link 1 } } }
    .next (if link < 24 then due (.tuning_event (.link link lanes rate)) s else s)
  | _ => .next s

end Sys2Proof.Machine
end

