-- ==== Sys2Proof/Machine/Retune.lean ====
section
/-! DEFINITION. Tuning events, core and cluster retirement, in-field scans, paired execution, start-up, and attestation (R73,
R215, R220, R427, R428, R466 to R470, R488 to R490, R495, R496). -/
namespace Sys2Proof.Machine

/-! ### The record and its changes (R467, R469, R470) -/

/-- An element leaves a logical order: its index passes to the last one. -/
def leaveOrder (l : List Nat) (x : Nat) : List Nat :=
  if l.contains x then (match l.getLast? with
    | some y => if y = x then l.dropLast else (l.set (l.idxOf x) y).dropLast
    | none => l)
  else l

/-- The element of a logical order whose index moves when x leaves. -/
def movedBy (l : List Nat) (x : Nat) : Option Nat :=
  if l.contains x then (match l.getLast? with
    | some y => if y = x then none else some y
    | none => none)
  else none

def clearBit (w : Nat) (v : BitVec w) (i : Nat) : BitVec w := v &&& ~~~((1 : BitVec w) <<< i)

/-- The tuning record after a cause, but for its number. -/
def newTuning (c : TuneCause) (t : Tuning) : Tuning :=
  match c with
  | .core k =>
    let cl := k / 256
    { t with cores := t.cores.set cl (clearBit 192 (t.cores.getD cl 0) (k % 256))
             lorder := t.lorder.set cl (leaveOrder (t.lorder.getD cl []) (k % 256)) }
  | .cluster cl =>
    { t with clus := clearBit 8 t.clus cl
             clorder := leaveOrder t.clorder cl
             cores := t.cores.set cl 0
             lorder := t.lorder.set cl []
             slices := t.slices.set cl 0 }
  | .slice cl i => { t with slices := t.slices.set cl (clearBit 48 (t.slices.getD cl 0) i) }
  | .link l lanes rate =>
    let old := (t.links.getD l 0).toNat
    { t with links := t.links.set l (w32 ((if lanes % 16 = 0 then 0 else 2 ^ 31) + old / 2 ^ 20 % 256 * 2 ^ 20 + lanes % 16 * 2 ^ 16 + rate % 65536)) }
  | .expander p => { t with exp := t.exp.set p (clearBit 64 (t.exp.getD p 0) 63) }
  | .start => t

/-- A field of the record: offset, size, value. -/
def tunFields (t : Tuning) : List (Nat × Nat × Nat) :=
  [(0, 4, t.tunn), (4, 2, t.rev), (6, 1, t.clus.toNat)]
    ++ (List.range 8).map (fun c => (8 + 24 * c, 24, (t.cores.getD c 0).toNat))
    ++ (List.range 8).flatMap (fun c => (List.range 192).map (fun i => (200 + 192 * c + i, 1, (t.lorder.getD c []).getD i 0xFF)))
    ++ (List.range 8).map (fun c => (1736 + 8 * c, 8, (t.slices.getD c 0).toNat))
    ++ [(1800, 2, t.hbmStacks.toNat)]
    ++ (List.range 12).map (fun i => (1802 + 2 * i, 2, (t.chans.getD i 0).toNat))
    ++ (List.range 4).map (fun i => (1832 + 8 * i, 8, (t.exp.getD i 0).toNat))
    ++ (List.range 24).map (fun i => (1864 + 4 * i, 4, (t.links.getD i 0).toNat))
    ++ [(1960, 8, t.rgnt), (1968, 8, t.pspill), (1976, 8, t.snapBase), (1984, 8, t.snapSize), (1992, 8, t.saveBase), (2000, 8, t.saveSize)]
    ++ (List.range 8).map (fun i => (2008 + i, 1, t.clorder.getD i 0xFF))

/-- The record's 2,048 bytes as one number. -/
def tunImage (t : Tuning) : Nat := (tunFields t).foldl (fun a f => a + f.2.2 % 256 ^ f.2.1 * 256 ^ f.1) 0

/-- Firmware writes the record at its place. -/
def writeTuning (s : State) : State :=
  (List.range 16).foldl (fun s i =>
    homeWrite (s.tun.place / 128 + i) (BitVec.allOnes 128) (BitVec.ofNat 1024 (tunImage s.tun / 2 ^ (1024 * i))) 0 true s) s

/-! ### The drains of a tuning event -/

/-- Slices that are live in t and not in u, as cluster * 64 + slice. -/
def departing (t u : Tuning) : List Nat := (liveSlices t).filter (fun x => !(liveSlices u).contains x)

/-- A region's release with every answer taken at once. -/
def releaseNow (r : Nat) (s : State) : State :=
  let secs := ((regionOwners s r).map (fun o => o.2.1)).eraseDups
  endRelease r (secs.foldl (fun s sec => revoke sec (BitVec.allOnes 16) none s) s)

/-- R73: owners recorded in departing slices are revoked; every hashed sector and host line, and every first-touch region homed in a
departing slice, is written back and dropped. -/
def drainSlices (gone : List Nat) (s : State) : State :=
  if gone = [] then s
  else
    let regions := (s.m.regions.map (fun e => e.1)).filter (fun r => match regionHome s r with
      | some h => gone.contains h
      | none => false)
    let s := regions.foldl (fun s r => releaseNow r s) s
    let hashed := fun (sec : Nat) => cellGet s.m.hashed (regionOf (128 * sec)) == 1 || (regionHome s (regionOf (128 * sec))).isNone
    let owned := ((s.m.dir.map (fun e => e.1 / 16)).eraseDups).filter (fun sec => hashed sec && gone.contains (hashHome s.tun (128 * sec)))
    let s := owned.foldl (fun s sec => revoke sec (BitVec.allOnes 16) none s) s
    let s := ((s.m.l2.map (fun e => e.1)).filter hashed).foldl (fun s sec => homeDrop sec s) s
    (s.m.hlines.map (fun e => e.1)).foldl (fun s line => hostDrop line s) s

/-- R220: every cached peg goes to the peg store, and windows and queued records to the engines of the new record, in order. -/
def moveEngines (u : Tuning) (s : State) : State :=
  let s := (s.w.wins.map (fun e => e.1)).foldl (fun s i => writePeg i s) s
  let wins := s.w.wins.map (fun e => (e.1, { e.2 with cluster := keyCluster u e.2.key }))
  let nos := s.w.arrivals.flatMap (fun e => e.2)
  let place := fun (m : AMap (List Nat)) (no : Nat) => match amGet? s.w.recs no with
    | some r => let cl := keyCluster u (recWord r.data 2)
                amPut m cl ((amGet? m cl).getD [] ++ [no])
    | none => m
  let s := { s with w := { s.w with wins := wins, arrivals := nos.foldl place [] } }
  dues (((List.range 8).filter (fun c => u.clus.getLsbD c)).map Event.window_engine_step) s

/-- A link's peer device, if the link is live. -/
def linkPeer (w : Word32) : Option Nat := if w.getLsbD 31 then some (w.toNat / 2 ^ 20 % 256) else none

def peerReached (t : Tuning) (dev : Nat) : Bool := t.links.any (fun w => linkPeer w == some dev)

/-- A context's peers that are out of reach are cut off. -/
def cutPeer (t : Tuning) (c : Ctx) : Ctx := { c with peers := c.peers.map (fun p => { p with up := p.up && peerReached t p.dev }) }

/-- A transfer whose peer is out of reach. -/
def xferLost (t : Tuning) (x : Xfer) : Bool := !x.finished && x.peer != 0xFF && !peerReached t x.peer.toNat

def loseXfer (now : Nat) (x : Xfer) : Xfer := { x with finished := true, finAt := now, parked := false, asked := false, got := none, status := 1, fcode := BitVec.ofNat 16 fPEERGONE }

/-- The last path to a peer is gone: shared frontiers stand still, and transfers with it end with F_PEERGONE (R215, R487). -/
def losePeers (s : State) : State :=
  let lost := (s.q.xfers.filter (fun e => xferLost s.tun e.2)).map (fun e => e.1)
  let s := { s with ctxs := amMap s.ctxs (fun _ c => cutPeer s.tun c)
                    q := { s.q with xfers := amMap s.q.xfers (fun _ x => if xferLost s.tun x then loseXfer s.tick x else x) } }
  dues (lost.map Event.transfer_finish) s

/-- The teams resident on cores that satisfy p. -/
def teamsOn (s : State) (p : Nat → Bool) : List Nat :=
  ((allGroups s).filter (fun g => g.idn.gid != 0 && p g.idn.core && g.status != .gone && g.status != .saved)).map (fun g => g.idn.team) |>.eraseDups

/-- Teams are saved at their next boundary, without waiting for safe (R469, R470). -/
def forceSave (teams : List Nat) (s : State) : State :=
  let p := fun (g : Group) => teams.contains g.idn.team && g.status != .gone && g.status != .saved
  dues (((allGroups s).filter p).map (fun g => Event.forced_save g.idn.gid)) (mapGroups p (fun g => { g with saveDue := true }) s)

/-- Teams whose place goes: a replayable launch among them rolls back, the others are force-saved (R469, R470). DESIGN CHOICE, log 40. -/
def evict (teams : List Nat) (s : State) : State :=
  let roots := (teams.filterMap (fun t => ((allGroups s).find? (fun g => g.idn.team == t && g.status != .gone)).bind (fun g => rollsBack s g))).eraseDups
  let s := roots.foldl (fun s r => rollback r fTuning none s) s
  forceSave (teams.filter (fun t => (teamOf s t).isSome)) s

/-- The groups of teams that are to be saved read the numbers of the record t until they are resumed (R175, R469, R470). -/
def keepPos (t : Tuning) (teams : List Nat) (s : State) : State :=
  mapGroups (fun g => teams.contains g.idn.team && g.posn.isNone)
    (fun g => { g with posn := some (lclusOf t (clusterOf g.idn.core), lcoreOf t g.idn.core) }) s

/-- The teams on cores of p go elsewhere, and those on cores of q are saved and resumed. -/
def displaceTeams (t : Tuning) (p q : Nat → Bool) (s : State) : State :=
  let moved := teamsOn s q
  let s := keepPos t (teamsOn s p ++ moved) s
  askSave (fun g => moved.contains g.idn.team) (evict (teamsOn s p) s)

/-- What leaves its core or cluster, and what moves its logical index. DESIGN CHOICE, log 26. -/
def displace (c : TuneCause) (t : Tuning) (s : State) : State :=
  match c with
  | .core k => displaceTeams t (fun x => x == k) (fun x => clusterOf x == k / 256 && movedBy (t.lorder.getD (k / 256) []) (k % 256) == some (x % 256)) s
  | .cluster cl => displaceTeams t (fun x => clusterOf x == cl) (fun x => movedBy t.clorder cl == some (clusterOf x)) s
  | _ => s

/-- Lifetime data takes a tuning number with its causes, and keeps the last 256 (R492). -/
def logEvents (n : Nat) (cs : List TuneCause) (l : Lifetime) : Lifetime :=
  let events := l.events ++ cs.map (fun c => (n, c))
  { l with events := events.drop (events.length - 256) }

/-- The publication (R468): the number rises, TEV is set in every group, every context is told, and each deadline runs from
the earliest publication its context has not acknowledged. A sleep ends (R307). DESIGN CHOICE, log 27. -/
def publish (c : TuneCause) (u : Tuning) (s : State) : State :=
  let n := s.tun.tunn + 1
  let life := logEvents n [logicalCause s.tun c] s.h.life
  let s := { s with tun := { u with tunn := n }
                    h := { s.h with life := life, boot := { s.h.boot with tunFlash := n, record := newTuning c s.h.boot.record } } }
  let s := writeTuning s
  let s := mapGroups (fun _ => true) (fun g => { g with tev := true }) s
  let s := s.ctxs.foldl (fun s e =>
    let s := due (.fault_record (recOfCtx s 6 (w32 fTuning) (w64 n) 0 e.1)) s
    if e.2.tunDeadline then s
    else timer (ticksOf 10000000) (.tune_deadline e.1) (modCtx e.1 (fun x => { x with tunDeadline := true }) s)) s
  ((allGroups s).filter (fun g => g.status == .sleeping)).foldl (fun s g =>
    noTimer (.sleep_expiry g.idn.gid) (modGroup g.idn.gid (fun h => { h with status := .running, rdy := s.tick }) s)) s

/-- Scans whose core a change of the record t has taken away end without a compare (R496). -/
def endScans (t : Tuning) (s : State) : State :=
  ((s.d.scans.filter (fun e => !coreLive s.tun e.1)).map (fun e => e.1)).foldl (fun s k => endScan t k 3 0 s) s

/-- Whether a message of REQ, FWD, DATA or ACK is still on the loops, refused at a stop or held at a home (R88). -/
def loopsBusy (s : State) : Bool :=
  !s.m.refused.isEmpty || !s.m.held.isEmpty || s.agenda.any (fun e => match msgClass e with
    | some .req | some .fwd | some .data | some .ack => true
    | _ => false)

/-- A tuning event as a whole: the drains, the new record, and what it displaces. DESIGN CHOICE, log 40. -/
def retune (c : TuneCause) (s : State) : State :=
  let t := s.tun
  let u := newTuning c t
  if u = t then s
  else
    let s := drainSlices (departing t u) s
    let s := if u.clus = t.clus then s else moveEngines u s
    losePeers (displace c t (publish c u s))

/-- TUNING_EVENT (R468): a cluster leaves once its window groups have ended (R220). DESIGN CHOICE, log 40. -/
def execTuningEvent (s : State) : Out :=
  match s.ev with
  | some (.tuning_event c) =>
    -- the loops drain on the old routes first (R88)
    let waits : Bool := loopsBusy s || match c with
      | .cluster cl => (allGroups s).any (fun g => g.idn.kind == .window && clusterOf g.idn.core == cl && g.idn.gid != 0 && g.status != .gone && g.status != .saved)
      | _ => false
    .next (if waits then timer 16 (.tuning_event c) s else endScans s.tun (retune c s))
  | _ => .next s

/-- TUNE_DEADLINE (R468): a context that has not acknowledged escalates F_TUNE; only a RESUME gives it another deadline. DESIGN CHOICE,
log 27. -/
def execTuneDeadline (s : State) : Out :=
  match s.ev with
  | some (.tune_deadline c) =>
    .next (match ctxOf s c with
      | some x =>
        if !x.tunDeadline then s
        else applyPolicy c none fTUNE (due (.fault_record (recOfCtx s 6 (w32 fTUNE) 0 0 c)) s)
      | none => s)
  | _ => .next s

/-! ### Scans and paired execution (R428, R466, R496) -/

/-- SCAN_PATTERN_START: once the core has drained, its pattern set runs for 200 us. What signature it gives is free. DESIGN CHOICE, log 3. -/
def execScanPatternStart (s : State) : Out :=
  match s.ev with
  | some (.scan_pattern_start id) =>
    .next (match amGet? s.d.scans id with
      | some sc =>
        if sc.running || (residents s id).length ≠ 0 then s
        else
          let f := drawFree s
          timer (ticksOf 200000) (.scan_compare id f.1) { f.2 with d := { s.d with scans := amPut s.d.scans id { sc with running := true } } }
      | none => s)
  | _ => .next s

/-- SCAN_COMPARE: a pass lifts a quarantine; a fail retires the core before the record is written, once the loops have drained (R88).
DESIGN CHOICE, log 4. -/
def execScanCompare (s : State) : Out :=
  match s.ev with
  | some (.scan_compare id obs) =>
    .next (match amGet? s.d.scans id with
      | some sc =>
        if !sc.running then s
        else if obs = Config.scanSignature id then endScan s.tun id 1 obs s
        -- its compare is complete: no launch aborts it any more (R496)
        else if loopsBusy s then
          timer 16 (.scan_compare id obs) { s with d := { s.d with scans := amPut s.d.scans id { sc with noab := true } } }
        else endScan s.tun id 2 obs (retune (.core id) s)
      | none => s)
  | _ => .next s

/-- Whether the two copies of a pair run agree in every store and at every sigchk (R466). DESIGN CHOICE, log 4. -/
def pairPasses (core run : Nat) : Bool :=
  (Config.pairStores core run).all (fun p => p.1 == p.2) && (Config.pairSigs core run).all (fun p => p.1 == p.2)

/-- A pair run of a quarantined core: a pass lifts the quarantine, a mismatch is the event that retires the core. DESIGN CHOICE, log 40. -/
def pairRun (core : Nat) (s : State) : State :=
  let s' := { s with free := s.free + 1 }
  if pairPasses core s.free then setCore core { coreOf s core with quarantined := false } s' else due (.pair_mismatch core) s'

/-- PAIR_MISMATCH (R466): a quarantined core is retired, once the loops have drained (R88). DESIGN CHOICE, log 40. -/
def execPairMismatch (s : State) : Out :=
  match s.ev with
  | some (.pair_mismatch core) =>
    .next (if !(coreOf s core).quarantined then s
      else if loopsBusy s then timer 16 (.pair_mismatch core) s
      else endScans s.tun (retune (.core core) s))
  | _ => .next s

/-! ### Start-up (R488, R489) -/

/-- The lowest bit of a mask alone. -/
def lowestOnly (w : Nat) (v : BitVec w) : BitVec w :=
  match lowBitFrom w 0 v.toNat with
  | some i => BitVec.ofNat w (2 ^ i)
  | none => 0

/-- A place in HBM moved to the lowest live stack, where its own is not live (R489). DESIGN CHOICE, log 24. -/
def liveStackPlace (hbm : BitVec 12) (x : Nat) : Nat :=
  if hbm.getLsbD (x / 2 ^ 36) then x else (lowBitFrom 12 0 hbm.toNat).getD 0 * 2 ^ 36 + x % 2 ^ 36

/-- The record a start publishes, of the full configuration's: clusters in ascending order; in minimal mode one cluster, one stack
with its channels and the regions that the record names, and no peers (R470, R489). DESIGN CHOICE, log 7. -/
def startTuning (base : Tuning) (minimal : Bool) (n : Nat) : Tuning :=
  let clus := if minimal then lowestOnly 8 base.clus else base.clus
  let hbm := if minimal then lowestOnly 12 base.hbmStacks else base.hbmStacks
  let at_ := fun x => liveStackPlace hbm x
  { base with tunn := n
              clus := clus
              clorder := (List.range 8).filter (fun c => clus.getLsbD c)
              cores := (List.range 8).map (fun c => if clus.getLsbD c then base.cores.getD c 0 else 0)
              lorder := (List.range 8).map (fun c => if clus.getLsbD c then base.lorder.getD c [] else [])
              slices := (List.range 8).map (fun c => if clus.getLsbD c then base.slices.getD c 0 else 0)
              hbmStacks := hbm
              chans := (List.range 12).map (fun i => if hbm.getLsbD i then base.chans.getD i 0 else 0)
              links := if minimal then base.links.map (fun _ => 0) else base.links
              rgnt := at_ base.rgnt
              pspill := at_ base.pspill
              snapBase := at_ base.snapBase
              saveBase := at_ base.saveBase
              place := at_ base.place }

/-- The full configuration's record as flash holds it: as shipped before the first start. -/
def flashTuning (s : State) : Tuning := if s.h.boot.record.tunn = 0 then Tuning.shipped else s.h.boot.record

/-- The cores in quarantine. -/
def quarantineOf (s : State) : List Nat := (s.d.cores.filter (fun e => e.2.quarantined)).map (fun e => e.1)

/-- A start that ends before it is ready: the device stops, and only the management path reaches it. Quarantines stand (R466).
DESIGN CHOICE, log 24. -/
def failStart (fails stage : Nat) (reason : BitVec 8) (minimal : Bool) (s : State) : State :=
  { State.reset with
    tick := s.tick
    free := s.free
    m := { State.reset.m with mem := s.m.mem, poison := s.m.poison }
    d := { State.reset.d with cores := (quarantineOf s).foldl (fun m k => amPut m k { CoreSt.fresh with quarantined := true }) [] }
    tun := s.tun
    h := { State.reset.h with life := s.h.life
                              boot := { s.h.boot with up := false, hangs := false, fails := fails, stage := stage, reason := reason, minimal := minimal } } }

/-- Step 2 of a start: each quarantined core that the record t keeps live makes its pair run beside a healthy core. A pass lifts its
quarantine, a mismatch takes it out of the record. DESIGN CHOICE, log 40. -/
def pairStart (t : Tuning) (x : Tuning × List TuneCause × State) (k : Nat) : Tuning × List TuneCause × State :=
  let s := x.2.2
  if !coreLive t k || !(List.range 2048).any (fun c => coreLive t c && !(coreOf s c).quarantined) then x
  else
    let s' := { s with free := s.free + 1 }
    if pairPasses k s.free then (x.1, x.2.1, setCore k { coreOf s k with quarantined := false } s')
    else (newTuning (.core k) x.1, x.2.1 ++ [logicalCause t (.core k)], s')

/-- A start that reaches ready; each live stack is scrubbed once every 24 hours from then on (R79, R488). DESIGN CHOICE, logs 5 and 24. -/
def readyStart (fails : Nat) (minimal : Bool) (s : State) : State :=
  let n := s.h.boot.tunFlash + 1
  let full := flashTuning s
  let s := failStart fails 4 (if minimal then 1 else 0) minimal s
  let runs := (quarantineOf s).foldl (pairStart (startTuning full minimal n)) (full, [], s)
  let t := startTuning runs.1 minimal n
  let s := ((List.range 12).filter (fun i => t.hbmStacks.getLsbD i)).foldl (fun s i => timer scrubTicks (.patrol_scrub i) s) runs.2.2
  writeTuning { s with
    tun := t
    h := { s.h with
      life := logEvents n (.start :: runs.2.1) s.h.life
      portUp := [true, !minimal]
      portPcie := [Config.portPcie n 0, Config.portPcie n 1]
      boot := { s.h.boot with up := true, fails := if minimal then 3 else 0, tunFlash := n, record := { runs.1 with tunn := n } } } }

/-- Minimal mode: a start that finds FAILS at 3 (R489). -/
def startsMinimal (s : State) : Bool := decide (s.h.boot.fails ≥ 3)

/-- FAILS as a start leaves it until it is ready. -/
def failsNext (s : State) : Nat := Nat.min 3 (s.h.boot.fails + 1)

/-- A start that has got no further than its training when its watchdog expires. DESIGN CHOICE, log 24. -/
def hungStart (fails : Nat) (minimal : Bool) (s : State) : State :=
  let s := failStart fails 1 0 minimal s
  { s with h := { s.h with boot := { s.h.boot with hangs := true } } }

/-- START (R488, R489): FAILS is read, then increments; the image must verify under both signatures; dies and HBM train. A start that
hangs waits for its watchdog. DESIGN CHOICE, log 24. -/
def execStart (s : State) : Out :=
  match s.ev with
  | some (.start rsaOk slhOk hbmOk linkOk hangs) =>
    let minimal := startsMinimal s
    let fails := failsNext s
    .next (if !rsaOk then failStart fails 0 2 minimal s
      else if !slhOk then failStart fails 0 3 minimal s
      else if !hbmOk then failStart fails 1 4 minimal s
      else if !linkOk then failStart fails 1 5 minimal s
      else if hangs then due .start_watchdog (hungStart fails minimal s)
      else readyStart fails minimal s)
  | _ => .next s

/-- START_WATCHDOG (R489): a start that has neither become ready nor failed otherwise has failed. DESIGN CHOICE, log 24. -/
def execStartWatchdog (s : State) : Out :=
  .next (if s.h.boot.hangs then { s with h := { s.h with boot := { s.h.boot with hangs := false, reason := 6 } } } else s)

/-- FAILS_CLEAR (R489). -/
def execFailsClear (s : State) : Out := .next { s with h := { s.h with boot := { s.h.boot with fails := 0 } } }

/-! ### Attestation (R490) -/

/-- A response goes out, and with its request's bytes into the transcript. -/
def spdmAnswer (req resp : List Byte) (f : Spdm → Spdm) (s : State) : State :=
  let x := f s.h.spdm
  { s with h := { s.h with spdm := { x with transcript := x.transcript ++ req ++ resp, response := resp } } }

/-- A request that comes before the exchanges it needs gets no response. DESIGN CHOICE, log 25. -/
def spdmNone (s : State) : State := { s with h := { s.h with spdm := { s.h.spdm with response := [] } } }

def execGetVersion (s : State) : Out :=
  .next (spdmAnswer [] Config.spdmVersion (fun x => { x with version := true, caps := false, algs := false, transcript := [] }) s)

def execGetCapabilities (s : State) : Out :=
  .next (if s.h.spdm.version then spdmAnswer [] Config.spdmCaps (fun x => { x with caps := true }) s else spdmNone s)

def execNegotiateAlgorithms (s : State) : Out :=
  .next (if s.h.spdm.caps then spdmAnswer [] Config.spdmAlgs (fun x => { x with algs := true }) s else spdmNone s)

/-- One digest for each algorithm's certificate chain. -/
def execGetDigests (s : State) : Out :=
  .next (if s.h.spdm.algs then
      spdmAnswer [] (Config.digest (Config.certChain 0) ++ Config.digest (Config.certChain 1)) id s
    else spdmNone s)

/-- There is a chain for each of the two algorithms, in slots 0 and 1. DESIGN CHOICE, log 6. -/
def execGetCertificate (s : State) : Out :=
  match s.ev with
  | some (.get_certificate slot off len) =>
    .next (if s.h.spdm.algs && decide (slot < 2) then spdmAnswer [] (((Config.certChain slot).drop off).take len) id s else spdmNone s)
  | _ => .next s

/-- The bytes of a nonce. -/
def nonceBytes (n : BitVec 256) : List Byte := (List.range 32).map (fun i => n.extractLsb' (8 * i) 8)

/-- A signed response: its body, the opaque element with the SLH-DSA signature, and the RSA-3072 signature, both over the transcript so
far with the request and the body. DESIGN CHOICE, log 6. -/
def signed (nonce : BitVec 256) (body : List Byte) (s : State) : State :=
  let t := s.h.spdm.transcript ++ nonceBytes nonce ++ body
  spdmAnswer (nonceBytes nonce) (body ++ Config.dualElement (Config.signSlh t) ++ Config.signRsa t) id s

def execChallenge (s : State) : Out :=
  match s.ev with
  | some (.challenge nonce) =>
    .next (if s.h.spdm.algs then signed nonce (Config.digest (Config.certChain 0) ++ Config.digest (Config.certChain 1)) s else spdmNone s)
  | _ => .next s

def execGetMeasurements (s : State) : Out :=
  match s.ev with
  | some (.get_measurements nonce) => .next (if s.h.spdm.algs then signed nonce Config.measurements s else spdmNone s)
  | _ => .next s

end Sys2Proof.Machine
end

