-- ==== Sys2Proof/Machine/Records.lean ====
section
/-! DEFINITION. Records to the host: fault rings, completion rings, and the block-transfer engine with its own (R78, R119 to
R123, R441, R445, R455, R456, R487, R503). A record that finds its ring full waits, and those behind it wait in order. -/
namespace Sys2Proof.Machine

/-- Whether a timeout that satisfies p is set: the record at the head of a full ring waits in one. -/
def awaits (s : State) (p : Event → Bool) : Bool := s.timers.any (fun t => p t.2)

/-- Device steps between two looks at a full ring. -/
def ringRetry : Nat := 64

/-! ### Fault rings (R455, R456) -/

/-- A fault record's 64 bytes (R456). -/
def faultBits (r : FaultRec) : Nat :=
  r.src.toNat + r.ten.toNat * 2 ^ 3 + r.ctx.toNat * 2 ^ 7 + r.grp.toNat * 2 ^ 13 + r.part.toNat * 2 ^ 18 + r.first.toNat * 2 ^ 24
    + r.team.toNat * 2 ^ 40 + r.mask.toNat * 2 ^ 72 + r.fcode.toNat * 2 ^ 104 + r.pc.toNat * 2 ^ 136 + r.fva.toNat * 2 ^ 192
    + r.cmd0.toNat * 2 ^ 256 + r.cmd1.toNat * 2 ^ 320 + r.cmd2.toNat * 2 ^ 384 + r.cmd3.toNat * 2 ^ 448

def setWait (ten : Nat) (rs : List FaultRec) (s : State) : State :=
  { s with q := { s.q with frings := amMod s.q.frings ten (fun f => { f with wait := rs }) } }

/-- Writes records of a tenant in order until the ring is full. -/
def putFaults (ten : Nat) (ring : Ring) : List FaultRec → State → State
  | [], s => setWait ten [] s
  | r :: rs, s =>
    match ringPut .phys ring 64 (fun _ => faultBits r) s with
    | .ok s => putFaults ten ring rs s
    | .full s => timer ringRetry (.fault_record r) (setWait ten rs s)
    | .fault _ s => timer ringRetry (.fault_record r) (setWait ten rs s)

/-- Whether a record of the tenant waits for room. -/
def faultsWait (s : State) (ten : Nat) : Bool := awaits s (fun e => match e with
  | .fault_record r => r.ten.toNat == ten
  | _ => false)

/-- FAULT_RECORD: a tenant without a fault ring gets none. DESIGN CHOICE, log 26. -/
def execFaultRecord (s : State) : Out :=
  match s.ev with
  | some (.fault_record r) =>
    let ten := r.ten.toNat
    .next (match amGet? s.q.frings ten with
      | none => s
      | some f => if faultsWait s ten then setWait ten (f.wait ++ [r]) s else putFaults ten f.ring (r :: f.wait) s)
  | _ => .next s

/-! ### Buffers with H = 1 while a host port runs plain PCIe (R78, R445) -/

def plainPcie (s : State) : Bool := s.h.portPcie.any id

/-- The physical pieces of a buffer on KIND 00 and 01 pages, granule by granule: start and size. -/
def bufferPieces (s : State) (ctx va len : Nat) : List (Nat × Nat) :=
  ((List.range ((va % 65536 + len + 65535) / 65536)).map (fun i => (va / 65536 + i) * 65536)).filterMap (fun g =>
    match walk s ctx g with
    | .leaf _ e level =>
      let lo := Nat.max va g
      let hi := Nat.min (va + len) (g + 65536)
      if leafKind e < 2 ∧ lo < hi then some (leafPaOf e level lo, hi - lo) else none
    | _ => none)

/-- Owners of the pieces' words are revoked, and their sectors leave the L2: written back, or dropped as they are. -/
def flushPieces (keep : Bool) (ps : List (Nat × Nat)) (s : State) : State :=
  ps.foldl (fun s p =>
    let lo := p.1 / 128 * 128
    let n := p.1 + p.2 - lo
    if keep then flushRange lo n s
    else
      let inR := fun (sec : Nat) => decide (lo ≤ 128 * sec ∧ 128 * sec < lo + n)
      let secs := ((s.m.dir.map (fun e => e.1 / 16)).eraseDups).filter inR
      let s := secs.foldl (fun s sec => revoke sec (BitVec.allOnes 16) none s) s
      { s with m := { s.m with l2 := s.m.l2.filter (fun e => !inR e.1) } }) s

def flushHandles (keep : Bool) (ctx : Nat) (idx : List Nat) (s : State) : State :=
  if !plainPcie s then s
  else match ctxOf s ctx with
    | none => s
    | some c => idx.foldl (fun s i => match c.handles[i]? with
      | some h => if h.h then flushPieces keep (bufferPieces s ctx h.va.toNat h.len) s else s
      | none => s) s

/-! ### Completion rings (R441, R503) -/

/-- A completion record's 16 bytes. -/
def compBits (r : CompRec) (ph : Nat) : Nat :=
  ph + r.status.toNat * 2 + r.res.toNat * 2 ^ 8 + r.code.toNat * 2 ^ 48 + r.tag.toNat * 2 ^ 64

def compSpace (q : Queue) : IoSpace := if q.admin then .phys else .virt q.ctx

/-- A fault record of the command processor for a queue's own access. -/
def queueFaultRec (s : State) (q : Queue) (f : Flt) : FaultRec :=
  let r := recOfCtx s 5 (faultWord f 0 0) f.va 0 q.ctx
  if q.admin then { r with ten := BitVec.ofNat 4 q.tenant, ctx := 0 } else r

/-- Whether a completion of the queue that satisfies p waits for its ring or a fault ring. DESIGN CHOICE, log 26. -/
def compsTimed (s : State) (admin : Bool) (n : Nat) (p : CompRec → Bool) : Bool := awaits s (fun e => match e with
  | .completion_record r => r.admin == admin && r.queue == n && p r
  | _ => false)

/-- Whether a completion of the queue waits for room in its own ring: those behind it wait too. -/
def compsWait (s : State) (admin : Bool) (n : Nat) : Bool := compsTimed s admin n (fun r => !recordHolds s r.cmd)

/-- Writes a queue's completions in order until its ring is full, or a write parks. A command whose fault record the fault ring holds up
is not complete yet, and the others go on (R455). -/
def putComps (admin : Bool) (n : Nat) (q : Queue) : List CompRec → State → State
  | [], s => modQueue admin n (fun x => { x with parked := [], held := false }) s
  | r :: rs, s =>
    if recordHolds s r.cmd then putComps admin n q rs (timer ringRetry (.completion_record r) s)
    else match ringPut (compSpace q) q.ring 16 (fun prod => compBits r (lapBit q.ring prod)) s with
    | .ok s => putComps admin n q rs (closeId r.cmd n admin s)
    | .full s => timer ringRetry (.completion_record r) (modQueue admin n (fun x => { x with parked := rs, held := false }) s)
    | .fault f s =>
      let fr := queueFaultRec s q f
      due (.fault_record fr) (modQueue admin n (fun x => { x with parked := r :: rs, held := true })
        { s with q := { s.q with parkedFor := s.q.parkedFor ++ [(fr, .completion n admin)] } })

/-- Q.DESTROY completes when the queue's begun commands have (R440). -/
def settleQueue (n : Nat) (s : State) : State :=
  match amGet? s.q.queues n with
  | some q => (match q.destroying with
    | some c =>
      if q.open_ = [] ∧ q.parked = [] ∧ !compsTimed s false n (fun _ => true) then
        complete c 0 0 0 (dropCmds (fun x => !x.admin && x.queue == n) { s with q := { s.q with queues := amDel s.q.queues n } })
      else s
    | none => s)
  | none => s

/-- COMPLETION_RECORD. -/
def execCompletionRecord (s : State) : Out :=
  match s.ev with
  | some (.completion_record r) =>
    .next (match findQueue s r.admin r.queue with
      | none => s
      | some q =>
        let s := flushHandles true q.ctx r.wrote s
        let s := if q.held || compsWait s r.admin r.queue then modQueue r.admin r.queue (fun x => { x with parked := x.parked ++ [r] }) s
          else putComps r.admin r.queue q (r :: q.parked) s
        if r.admin then s else settleQueue r.queue s)
  | _ => .next s

/-! ### Block transfers (R119 to R123, R487) -/

/-- A completion record of a transfer (R121). -/
def xferBits (x : Xfer) (ph : Nat) : Nat :=
  ph + x.status.toNat * 2 + x.fcode.toNat * 2 ^ 8 + x.done % 2 ^ 40 * 2 ^ 24 + x.cmd.tag.toNat * 2 ^ 64

def modXfer (id : Nat) (f : Xfer → Xfer) (s : State) : State := { s with q := { s.q with xfers := amMod s.q.xfers id f } }

/-- The next piece of a transfer: it lies in one sector on each side. -/
def xferPiece (x : Xfer) : Nat :=
  let cut := fun (v : Word64) => 128 - (v.toNat + x.done) % 128
  Nat.min (x.len - x.done) (Nat.min (cut x.src) (cut x.dst))

/-- How the moving of bytes ends: at the end, at a wait for the peer, or at a fault. -/
inductive XferRes where
  | done (x : Xfer) (s : State)
  | wait (x : Xfer) (s : State)
  | fault (f : Flt) (x : Xfer) (s : State)

/-- A transfer as its peer is told of it. -/
def reqOf (x : Xfer) : PeerReq := { ctx := x.ctx, paired := x.paired, id := x.cmd.id, tag := x.cmd.tag, done := x.done, src := x.src, dst := x.dst }

/-- A request goes to the peer, and the transfer waits for its answer. -/
def askPeer (x : Xfer) (m : PeerMsg) (s : State) : XferRes := .wait { x with asked := true } (toPeer x.peer.toNat m s)

/-- The bytes of the next piece, if they are here: the peer's as it has sent them, others read now. -/
def xferBytes (x : Xfer) (n : Nat) (s : State) : (Flt ⊕ Option (Nat × Nat)) × State :=
  if x.srcPeer then (.inr (x.got.map (fun g => g.2)), s)
  else match ioReadP (.virt x.ctx) (x.src.toNat + x.done) n s with
    | (.inl f, s) => (.inl f, s)
    | (.inr v, s) => (.inr (some v), s)

/-- Moves a transfer's bytes in increasing order, poison marks with them (R80, R119). Bytes on the peer are performed there, a piece at
a time (R487). -/
def xferRun : Nat → Xfer → State → XferRes
  | 0, x, s => .done x s
  | fuel + 1, x, s =>
    if x.done ≥ x.len then .done x s
    else
      let n := xferPiece x
      match xferBytes x n s with
      | (.inl f, s) => .fault { f with acc := 4 } x s
      | (.inr none, s) => askPeer x (.read (reqOf x) (x.src + w64 x.done) n) s
      | (.inr (some v), s) =>
        if x.dstPeer then askPeer x (.write (reqOf x) (x.dst + w64 x.done) n v.1 v.2) s
        else match ioWriteP (.virt x.ctx) (x.dst.toNat + x.done) n v.1 v.2 s with
        | (some f, s) => .fault { f with acc := 5 } x s
        | (none, s) => xferRun fuel { x with done := x.done + n, got := none } s

/-- The fault record of a transfer (R457). -/
def xferFaultRec (s : State) (x : Xfer) (f : Flt) : FaultRec :=
  { recOfCtx s 4 (faultWord f 0 0) f.va 0 x.ctx with
    cmd0 := x.cmd.tag, cmd1 := w64 (x.done % 2 ^ 40), cmd2 := x.src, cmd3 := x.dst, by_ := some x.cmd.id }

/-- A transfer parks with a fault until PARK.RESUME (R47). -/
def parkXfer (id : Nat) (x : Xfer) (f : Flt) (s : State) : State :=
  let fr := xferFaultRec s x f
  due (.fault_record fr) { s with q := { s.q with
    xfers := amPut s.q.xfers id { x with parked := true }
    parkedFor := s.q.parkedFor ++ [(fr, .xfer id)] } }

/-- The bytes of a transfer: it finishes, waits for its peer, parks on a page fault, or ends with the fault under its context's
policy. -/
def moveXfer (id : Nat) (x : Xfer) (s : State) : State :=
  match xferRun x.len x s with
  | .done x s => { s with q := { s.q with xfers := amPut s.q.xfers id { x with finished := true, finAt := s.tick } } }
  | .wait x s => { s with q := { s.q with xfers := amPut s.q.xfers id x } }
  | .fault f x s =>
    if f.code = fPAGE then parkXfer id x f s
    else
      let s := due (.fault_record (xferFaultRec s x f)) s
      let s := { s with q := { s.q with xfers := amPut s.q.xfers id { x with
        finished := true, finAt := s.tick, status := 1, fcode := BitVec.ofNat 16 f.code } } }
      applyPolicy x.ctx (some x.cmd.id) f.code s

/-- A transfer that finished earlier has its record to the same ring unwritten (R123). -/
def ringBehind (s : State) (id : Nat) (x : Xfer) : Bool :=
  s.q.xfers.any (fun e => e.1 != id && e.2.finished && !recordHolds s e.2.cmd.id && e.2.ctx == x.ctx && e.2.ring == x.ring
    && decide (e.2.finAt < x.finAt))

/-- The ring of a transfer, read afresh. -/
def xferRing (x : Xfer) (s : State) : (Flt ⊕ Ring) × State :=
  match ioRead (.virt x.ctx) x.ring.toNat 64 s with
  | (.inl f, s) => (.inl f, s)
  | (.inr b, s) => (.inr (ringOf x.ring b), s)

/-- The record of a finished transfer, in the order of R122; then the command is complete. DESIGN CHOICE, log 26. -/
def recordXfer (id : Nat) (x : Xfer) (s : State) : State :=
  if ringBehind s id x || recordHolds s x.cmd.id then timer ringRetry (.transfer_finish id) s
  else match xferRing x s with
    | (.inl f, s) => parkXfer id x f s
    | (.inr r, s) =>
      -- the buffers it wrote are written back before its record is (R445)
      let s := flushHandles true x.ctx ((x.cmd.uses.filter (fun u => u.wr)).map (fun u => u.idx)) s
      match ringPut (.virt x.ctx) r 16 (fun prod => xferBits x (lapBit r prod)) s with
      | .ok s =>
        settleQueue x.cmd.queue (closeCmd x.cmd { s with q := { s.q with xfers := amDel s.q.xfers id } })
      | .full s => timer ringRetry (.transfer_finish id) s
      | .fault f s => parkXfer id x f s

/-- TRANSFER_FINISH (R122): the transfer's bytes are performed, then its record is written. One of a suspended context
waits for RESUME. -/
def transferFinish (id : Nat) (s : State) : State :=
  match amGet? s.q.xfers id with
  | none => s
  | some x =>
    if x.parked || (!x.finished && (x.asked || !ctxRuns s x.ctx)) then s
    else
      let s := if x.finished then s else moveXfer id x s
      match amGet? s.q.xfers id with
      | some y => if y.finished && !y.parked then recordXfer id y s else s
      | none => s

def execTransferFinish (s : State) : Out :=
  match s.ev with
  | some (.transfer_finish id) => .next (transferFinish id s)
  | _ => .next s

end Sys2Proof.Machine
end

