-- ==== Sys2Proof/Machine/Commands.lean ====
section
/-! DEFINITION. Doorbells, the reading and beginning of commands, and the commands of context queues but CHECKPOINT (R48,
R50, R119, R206, R211, R230, R237, R437 to R448, R480, R481, R487, R503). -/
namespace Sys2Proof.Machine

/-! ### Slots (R437, R439) -/

/-- A handle use, and whether it breaks R439. -/
def useOf (h : Nat) : HUse := { rd := h.testBit 30, wr := h.testBit 31, idx := h % 4096 }
def useBad (h : Nat) : Bool := decide (h / 2 ^ 30 % 4 = 0 ∨ h / 2 ^ 12 % 2 ^ 18 ≠ 0)

/-- The handle words that NH counts. -/
def useWords (b : Nat) : List Nat := (List.range (Nat.min (b / 2 ^ 16 % 8) 4)).map (fun i => b / 2 ^ (128 + 32 * i) % 2 ^ 32)

/-- A command as its slot's 128 bytes give it. -/
def cmdOf (id queue : Nat) (admin : Bool) (b : Nat) : QCmd :=
  { id := id, queue := queue, admin := admin, op := BitVec.ofNat 8 b, ord := b.testBit 11, repl := b.testBit 10, pin := b.testBit 9,
    det := b.testBit 8
    badHdr := decide (b / 2 ^ 16 % 8 > 4 ∨ b / 2 ^ 12 % 16 ≠ 0 ∨ b / 2 ^ 19 % 2 ^ 45 ≠ 0) || (useWords b).any useBad
    nh := b / 2 ^ 16 % 8, uses := (useWords b).map useOf, tag := BitVec.ofNat 64 (b / 2 ^ 64), body := BitVec.ofNat 768 (b / 2 ^ 256) }

/-- The command arrives: it takes its place in the arrival order, and its handle uses are entered (R443, R444). -/
def arrive (admin : Bool) (n : Nat) (q : Queue) (s : State) (b : Nat) : State :=
  let c := cmdOf s.q.nextCmd n admin b
  let us := if admin then [] else c.uses.map (fun u => ({ ctx := q.ctx, idx := u.idx, cmd := c.id, wr := u.wr } : HandleUse))
  { s with q := { s.q with nextCmd := s.q.nextCmd + 1, cmds := s.q.cmds ++ [c], uses := s.q.uses ++ us } }

/-- A queue stops until its next doorbell, with a fault record (R437). -/
def stopQueue (admin : Bool) (n : Nat) (q : Queue) (f : Flt) (s : State) : State :=
  due (.fault_record (queueFaultRec s q f)) (modQueue admin n (fun x => { x with stopped := true }) s)

/-- Reads k slots from a count on. -/
def readSlots (q : Queue) : Nat → Nat → State → (Flt ⊕ List Nat) × State
  | 0, _, s => (.inr [], s)
  | k + 1, i, s =>
    match ioRead (compSpace q) (q.base.toNat + 128 * (i % 2 ^ q.log2n)) 128 s with
    | (.inl f, s) => (.inl f, s)
    | (.inr b, s) => match readSlots q k (i + 1) s with
      | (.inl f, s) => (.inl f, s)
      | (.inr bs, s) => (.inr (b :: bs), s)

/-- The queue that a write of n bytes at an offset of the doorbell window rings; the rest of the window discards it (R438). -/
def rings (off n : Nat) : Option (Bool × Nat) :=
  if (n ≠ 4 ∧ n ≠ 8) ∨ off % 8 + n > 8 then none
  else if off < 0x8000 then some (false, off / 8)
  else if off < 0x8080 then some (true, (off - 0x8000) / 8)
  else none

/-- What a read of the doorbell window gives (R438). -/
def windowRead (_off : Nat) : Word64 := 0

/-- Whether an event is a write of the doorbell window. -/
def isRing : Event → Bool
  | .doorbell .. => true
  | _ => false

/-- Whether an event rings the queue. -/
def ringsFor (admin : Bool) (n : Nat) : Event → Bool
  | .doorbell off k => rings off k == some (admin, n)
  | _ => false

/-- The rings of a queue that have arrived already count with the one that is served: those that nothing but other rings comes
before, so that no write of PROD is still to be performed ahead of them (R438). -/
def oneRing (admin : Bool) (n : Nat) (s : State) : State :=
  { s with agenda := (s.agenda.takeWhile isRing).filter (fun e => !ringsFor admin n e) ++ s.agenda.dropWhile isRing }

/-- A doorbell (R437, R438): PROD is read, then the new slots, in slot order. DESIGN CHOICE, log 31. -/
def doorbell (admin : Bool) (n : Nat) (s : State) : State :=
  match findQueue s admin n with
  | none => s
  | some q =>
    match ioRead (compSpace q) (q.block.toNat + 24) 4 s with
    | (.inl f, s) => stopQueue admin n q f s
    | (.inr prod, s) =>
      let ahead := (w32 prod - q.cons).toNat
      let read := (q.seen - q.cons).toNat
      if ahead > 2 ^ q.log2n then stopQueue admin n q (flt fILLOP) s
      else match readSlots q (ahead - read) q.seen.toNat s with
        | (.inl f, s) => stopQueue admin n q f s
        | (.inr bs, s) =>
          let s := modQueue admin n (fun x => { x with stopped := false, seen := x.seen + w32 bs.length }) s
          bs.foldl (arrive admin n q) s

def execDoorbell (s : State) : Out :=
  match s.ev with
  | some (.doorbell off n) => .next (match rings off n with
    | some (admin, k) => doorbell admin k (oneRing admin k s)
    | none => s)
  | _ => .next s

/-! ### When a command may begin (R443, R444) -/

/-- The queue kind an OP belongs to: true for admin queues; none for an unknown OP (R440). -/
def opAdmin (op : Nat) : Option Bool :=
  if 1 ≤ op ∧ op ≤ 9 ∨ op = 0x18 then some false else if 0x10 ≤ op ∧ op ≤ 0x17 then some true else none

/-- The command begins only once every earlier command of its queue has completed: ORD, and CHECKPOINT (R491). -/
def asOrd (c : QCmd) : Bool := c.ord || c.op == 0x18

/-- A command's handle uses are satisfied: no earlier command that is not complete writes a handle it uses, or uses one
that it writes. -/
def usesFree (s : State) (c : QCmd) (ctx : Nat) : Bool :=
  c.uses.all (fun u => s.q.uses.all (fun e => !(e.ctx == ctx && e.idx == u.idx && decide (e.cmd < c.id) && (e.wr || u.wr))))

def canBegin (s : State) (c : QCmd) : Bool :=
  match findQueue s c.admin c.queue with
  | none => false
  | some q =>
    !q.stopped && !q.held && q.destroying.isNone
      && s.q.cmds.all (fun e => !(e.admin == c.admin && e.queue == c.queue && decide (e.id < c.id)))
      && s.q.waits.all (fun w => !(w.admin == c.admin && w.queue == c.queue))
      && (!asOrd c || q.open_.isEmpty) && (c.admin || usesFree s c q.ctx)

/-- The priority of a queue's work (R446). -/
def workPri (s : State) (q : Queue) : Nat := match ctxOf s q.ctx with
  | some x => Nat.min q.pri x.primax
  | none => 0

/-- Whether c begins before d when both could: an admin command first, then the higher priority, then the earlier. -/
def beginsBefore (s : State) (c d : QCmd) : Bool :=
  let pri := fun (x : QCmd) => match findQueue s x.admin x.queue with
    | some q => workPri s q
    | none => 0
  if c.admin != d.admin then c.admin
  else if !c.admin && pri c ≠ pri d then decide (pri d < pri c)
  else decide (c.id < d.id)

/-- The command that begins next, if any. -/
def nextBegin (s : State) : Option QCmd :=
  (s.q.cmds.filter (canBegin s)).foldl (fun b c => match b with
    | none => some c
    | some d => some (if beginsBefore s c d then c else d)) none

/-- The event of a command. -/
def cmdEvent (c : QCmd) : Event :=
  match c.op.toNat with
  | 0x02 => .job c
  | 0x03 => .stream_put c
  | 0x04 => .stream_advance c
  | 0x05 => .wait_stamp c
  | 0x06 => .signal c
  | 0x07 => .xfer c
  | 0x08 => .pin c
  | 0x09 => .tune_ack c
  | 0x10 => .ctx_create c
  | 0x11 => .ctx_destroy c
  | 0x12 => .q_create c
  | 0x13 => .q_destroy c
  | 0x14 => .stream_reset c
  | 0x15 => .park_resume c
  | 0x16 => .preempt c
  | 0x17 => .resume c
  | 0x18 => .checkpoint c
  | _ => .launch c

/-! ### Beginning, rejecting and failing a command (R441 to R443, R503) -/

/-- A body's field of n bytes at a byte offset. -/
def bodyN (c : QCmd) (off n : Nat) : Nat := c.body.toNat / 256 ^ off % 256 ^ n
def bodyW (c : QCmd) (off : Nat) : Word64 := w64 (bodyN c off 8)

/-- Whether a body has a bit set outside its named fields, given by offset and size. -/
def bodyRest (c : QCmd) (fs : List (Nat × Nat)) : Bool := c.body.toNat != fs.foldl (fun a f => a + bodyN c f.1 f.2 * 256 ^ f.1) 0

/-- A rejection reason and whether it applies. -/
abbrev Reason := Nat × Bool

/-- The reason that is reported: 11 if it applies, else the lowest. DESIGN CHOICE, log 31. -/
def firstReason (rs : List Reason) : Option Nat :=
  let on := (rs.filter (fun r => r.2)).map (fun r => r.1)
  if on.contains 11 then some 11 else leastBy (fun i => i) on

/-- The handles a queue's commands may use. -/
def handleCount (s : State) (q : Queue) : Nat :=
  if q.admin then 0 else match ctxOf s q.ctx with
  | some x => x.handles.length
  | none => 0

/-- The reasons every command shares, with its named body fields. -/
def headReasons (s : State) (q : Queue) (c : QCmd) (fs : List (Nat × Nat)) : List Reason :=
  [(11, opAdmin c.op.toNat != some c.admin), (2, c.badHdr || (c.op != 1 && (c.det || c.pin || c.repl)) || bodyRest c fs),
   (8, c.uses.any (fun u => decide (u.idx ≥ handleCount s q)))]

/-- The command begins: it leaves the commands read, CONS counts it, and it is open (R443). DESIGN CHOICE, log 31. -/
def beginCmd (c : QCmd) (q : Queue) (s : State) : State :=
  let s := { s with q := { s.q with cmds := s.q.cmds.filter (fun x => x.id ≠ c.id), running := s.q.running ++ [c.id],
                                    beginNo := s.q.beginNo + 1 } }
  let s := modQueue c.admin c.queue (fun x => { x with cons := x.cons + 1, open_ := x.open_ ++ [c.id] }) s
  match ioWrite (compSpace q) (q.block.toNat + 32) 4 (q.cons + 1).toNat s with
  | (some f, s) => due (.fault_record { queueFaultRec s q f with by_ := some c.id }) s
  | (none, s) => s

/-- Runs a command: its begin, then its rejection, its cancellation in a terminated context, or its effect. -/
def runCmd (c : QCmd) (reasons : State → Queue → List Reason) (reject cancel : Nat → State → State) (run : Queue → State → State)
    (s : State) : State :=
  match findQueue s c.admin c.queue with
  | none => s
  | some q =>
    let dead := match ctxOf s q.ctx with
      | some x => x.terminated && !c.admin
      | none => false
    if dead then cancel 2 (beginCmd c q s)
    else match firstReason (reasons s q) with
      | some r => reject r (beginCmd c q s)
      | none =>
        -- before it begins, the buffers it reads leave the L2 (R445)
        run q (beginCmd c q (if c.admin then s else flushHandles false q.ctx ((c.uses.filter (fun u => u.rd)).map (fun u => u.idx)) s))

/-- A command other than XFER. -/
def runPlain (c : QCmd) (reasons : State → Queue → List Reason) (run : Queue → State → State) (s : State) : State :=
  runCmd c reasons (fun r => complete c 3 r 0) (fun st => complete c st 0 0) run s

/-- The command processor's own access faults: STATUS 1, and a record (R503). DESIGN CHOICE, log 31. -/
def failCmd (c : QCmd) (q : Queue) (f : Flt) (res : Nat) (s : State) : State :=
  complete c 1 f.code res (due (.fault_record { queueFaultRec s q f with by_ := some c.id }) s)

/-! ### Stamps of commands (R196, R442) -/

def bodyStamp (c : QCmd) (off : Nat) : Stamp := ⟨bodyW c off, bodyW c (off + 8)⟩

/-- Reason 4 of a stamp and its location; 0xFFFF names no location where none is needed. -/
def stampReason (s : State) (q : Queue) (t : Stamp) (loc : Nat) (opt : Bool) : Bool :=
  !stampWf t || !((opt && loc == 0xFFFF) || (match ctxOf s q.ctx with
    | some x => placedOk x loc t
    | none => false))

/-- The +1 of a launch or card (R206), from the command processor. -/
def commandPlus (ctx : Nat) (t : Stamp) (loc : Nat) (s : State) : State :=
  if loc = 0xFFFF then s else due (.batch .command ctx [{ loc := loc, stamp := t, amt := 1 }]) s

/-! ### Working sets (R48, R50) -/

/-- A page of a working set: its leaf entry's place and contents, its level, and its page number. -/
structure SetPage where
  pte : Nat
  leaf : Word64
  level : Nat
  vp : Nat
deriving DecidableEq, Repr

/-- The pages of a range up to an end, at most fuel of them: none where an entry is absent, malformed or poisoned. DESIGN CHOICE, log 31. -/
def wsetPages (s : State) (ctx : Nat) : Nat → Nat → Nat → Option (List SetPage)
  | 0, va, e => if va ≥ e then some [] else none
  | fuel + 1, va, e =>
    if va ≥ e then some []
    else match walk s ctx va with
      | .leaf p l level =>
        match wsetPages s ctx fuel ((vpage level va + 1) * 2 ^ levelShift level) e with
        | some ps => some ({ pte := p, leaf := l, level := level, vp := vpage level va } :: ps)
        | none => none
      | _ => none

/-- The most translations a cluster TLB can hold for a working set. -/
def setLimit : Nat := 8192

/-- The pages of a working set's ranges: none where it is refused. -/
def setPages (s : State) (ctx : Nat) (rs : List (Nat × Nat)) : Option (List SetPage) :=
  rs.foldl (fun a r => match a with
    | none => none
    | some ps =>
      if !canonical (w64 r.1) || (r.2 != 0 && !canonical (w64 (r.1 + r.2 - 1))) || decide (r.1 + r.2 > 2 ^ 64) then none
      else match wsetPages s ctx setLimit r.1 (r.1 + r.2) with
        | none => none
        | some qs =>
          let new := (ps ++ qs).eraseDups
          if new.length > setLimit then none else some new) (some [])

/-- n pairs of a VA and a length, at a VA of a context. -/
def readPairs (ctx : Nat) : Nat → Nat → State → (Flt ⊕ List (Nat × Nat)) × State
  | 0, _, s => (.inr [], s)
  | n + 1, va, s =>
    match ioRead (.virt ctx) va 16 s with
    | (.inl f, s) => (.inl f, s)
    | (.inr b, s) => match readPairs ctx n (va + 16) s with
      | (.inl f, s) => (.inl f, s)
      | (.inr ps, s) => (.inr ((b % 2 ^ 64, b / 2 ^ 64) :: ps), s)

/-- Whether a working set is refused; a list that cannot be read is not. -/
def setRefused (s : State) (ctx n va : Nat) : Bool := match (readPairs ctx n va s).1 with
  | .inr rs => (setPages s ctx rs).isNone
  | .inl _ => false

def pinBit : Word64 := w64 (2 ^ 59)

/-- A leaf takes a new value, in the table and in every TLB that holds it. -/
def putLeaf (pte : Nat) (e : Word64) (s : State) : State :=
  let s := cohPutWord pte e s
  { s with m := { s.m with tlb := s.m.tlb.map (fun t => if t.leafPa = pte then { t with leaf := e } else t)
                           tlb1 := s.m.tlb1.map (fun t => if t.leafPa = pte then { t with leaf := e } else t) } }

/-- A page's translation is locked in a cluster's TLB: by a launch, or as 0 by a PIN command. -/
def lockPage (ctx owner cl : Nat) (p : SetPage) (s : State) : State :=
  let same := fun (t : TlbEnt) => t.cluster == cl && t.ctx == ctx && t.level == p.level && t.vpage == p.vp
  let held := ((s.m.tlb.filter same).flatMap (fun t => t.locks)) ++ [owner]
  let e : TlbEnt := {
    cluster := cl, ctx := ctx, level := p.level, vpage := p.vp, leaf := p.leaf ||| pinBit, leafPa := p.pte, locks := held.eraseDups }
  tlbRoom cl p.vp { s with m := { s.m with tlb := s.m.tlb.filter (fun t => !same t) ++ [e] } }

/-- Every page of a working set gets PIN = 1 and is locked in the clusters that may run the work. -/
def pinPages (ctx owner : Nat) (cls : List Nat) (ps : List SetPage) (s : State) : State :=
  ps.foldl (fun s p => cls.foldl (fun s cl => lockPage ctx owner cl p s) (putLeaf p.pte (p.leaf ||| pinBit) s)) s

/-- A working set is pinned as a command asks, or the command fails with its own access's fault. -/
def pinSet (c : QCmd) (q : Queue) (owner n va : Nat) (go : State → State) (s : State) : State :=
  match readPairs q.ctx n va s with
  | (.inl f, s) => failCmd c q f 0 s
  | (.inr rs, s) => go (pinPages q.ctx owner (maskClusters s.tun q.cmask) ((setPages s q.ctx rs).getD []) s)

/-! ### LAUNCH and JOB -/

/-- The row of a command's ENTRY. -/
def rowOfCmd (s : State) (q : Queue) (c : QCmd) : Option EntryRow := match ctxOf s q.ctx with
  | some x => rowAt x (bodyW c 0)
  | none => none

/-- Whether the TID section of the ENTRY's code object has an entry that R390 does not admit (R388). -/
def rowTidsBad (s : State) (q : Queue) (c : QCmd) : Bool := match ctxOf s q.ctx, rowOfCmd s q c with
  | some x, some r => !tidsOk x r
  | _, _ => false

/-- A command that starts work; the CODE of a rejection by R388 is free. DESIGN CHOICE, log 3. -/
def runWork (c : QCmd) (reasons : State → Queue → List Reason) (run : Queue → State → State) (s : State) : State :=
  runCmd c reasons (fun r s => if r = tidStatus then complete c 3 ((drawFree s).1.toNat % 65536) 0 (drawFree s).2 else complete c 3 r 0 s)
    (fun st => complete c st 0 0) run s

def launchFields : List (Nat × Nat) := [(0, 8), (8, 8), (16, 8), (24, 8), (32, 4), (36, 2), (40, 8), (48, 4)]

def launchReasons (c : QCmd) (s : State) (q : Queue) : List Reason :=
  headReasons s q c launchFields ++
  [(1, (rowOfCmd s q c).isNone), (2, decide (bodyN c 32 4 = 0 ∨ bodyN c 8 8 % 64 ≠ 0)), (3, (rowOfCmd s q c).any (fun r => !shapeOk r)),
   (4, stampReason s q (bodyStamp c 16) (bodyN c 36 2) true), (5, c.pin && setRefused s q.ctx (bodyN c 48 4) (bodyN c 40 8)), (tidStatus, rowTidsBad s q c)]

/-- The grid of a LAUNCH begins (R158, R181, R206, R446). -/
def launchGrid (c : QCmd) (q : Queue) (s : State) : State :=
  match rowOfCmd s q c with
  | none => s
  | some r =>
    let g : Grid := {
      ctx := q.ctx, queue := c.queue, depth := 1, row := r, args := bodyW c 8, stamp := bodyStamp c 16, loc := BitVec.ofNat 16 (bodyN c 36 2),
      nteam := bodyN c 32 4, nextTeam := 0, base := 0, exitedAbove := [], teamsUp := 0, kids := 0, pri := workPri s q,
      cmask := q.cmask, det := c.det, pinned := c.pin, repl := c.repl, replOk := c.repl, replays := 0, snaps := [],
      rep := { cmd := some c, donew := 0, parent := 0 }, order := s.q.beginNo, bowTeam := 0, cancelled := false }
    let id := s.d.nextId
    let s := commandPlus q.ctx g.stamp (bodyN c 36 2) s
    let s := { s with d := { s.d with grids := amPut s.d.grids id g, nextId := id + 1, bowQ := if c.det then s.d.bowQ ++ [id] else s.d.bowQ } }
    abortScans g.pri s

def execLaunch (s : State) : Out :=
  match s.ev with
  | some (.launch c) =>
    .next (runWork c (launchReasons c) (fun q s =>
      if c.pin then pinSet c q s.d.nextId (bodyN c 48 4) (bodyN c 40 8) (launchGrid c q) s else launchGrid c q s) s)
  | _ => .next s

def jobFields : List (Nat × Nat) := [(0, 8), (8, 8), (16, 8), (24, 8), (32, 4), (36, 2), (38, 2)]

def jobReasons (c : QCmd) (s : State) (q : Queue) : List Reason :=
  let rsize := bodyN c 38 2
  headReasons s q c jobFields ++
  [(1, (rowOfCmd s q c).isNone), (2, decide (bodyN c 32 4 = 0 ∨ bodyN c 8 8 % 8 ≠ 0 ∨ rsize % 8 ≠ 0 ∨ rsize < 8 ∨ rsize > 256)),
   (3, (rowOfCmd s q c).any (fun r => !shapeOk r || r.p != 1 || r.g != 1)),
   (4, stampReason s q (bodyStamp c 16) (bodyN c 36 2) true), (tidStatus, rowTidsBad s q c)]

/-- The card of a JOB begins (R186, R206). -/
def jobCard (c : QCmd) (q : Queue) (s : State) : State :=
  match rowOfCmd s q c with
  | none => s
  | some r =>
    let x : Card := {
      ctx := q.ctx, queue := c.queue, row := r, base := bodyW c 8, rsize := bodyN c 38 2, count := bodyN c 32 4, dealt := 0, groupsUp := 0,
      stamp := bodyStamp c 16, loc := BitVec.ofNat 16 (bodyN c 36 2), pri := workPri s q, cmask := q.cmask,
      rep := { cmd := some c, donew := 0, parent := 0 }, order := s.q.beginNo, cancelled := false }
    let s := commandPlus q.ctx x.stamp (bodyN c 36 2) s
    { s with d := { s.d with cards := amPut s.d.cards s.d.nextId x, nextId := s.d.nextId + 1 } }

def execJob (s : State) : Out :=
  match s.ev with
  | some (.job c) => .next (runWork c (jobReasons c) (jobCard c) s)
  | _ => .next s

/-! ### STREAM.PUT and STREAM.ADVANCE (R206, R211, R219, R230, R480, R481) -/

/-- Reads n records of a size from a VA: those before a read that faults, and its fault. -/
def readRecords (ctx size : Nat) : Nat → Nat → State → (List (BitVec 4096) × Option Flt) × State
  | 0, _, s => (([], none), s)
  | n + 1, va, s =>
    match ioRead (.virt ctx) va size s with
    | (.inl f, s) => (([], some f), s)
    | (.inr b, s) =>
      let r := readRecords ctx size n (va + size) s
      ((BitVec.ofNat 4096 b :: r.1.1, r.1.2), r.2)

/-- The stream a command of a queue names. -/
def cmdStream (s : State) (q : Queue) (sid : Nat) : Option StreamD := streamOf s q.ctx sid

/-- The input location of a stream, with its entry. -/
def streamLoc (s : State) (ctx : Nat) (d : StreamD) : Option LocEnt := match ctxOf s ctx with
  | some x => locOf x (sdLoc d.desc)
  | none => none

/-- Whether the host feeds a stream: only then is there an input frontier stamp. -/
def hostFed (s : State) (ctx : Nat) (d : StreamD) : Bool := (streamLoc s ctx d).any (fun e => e.hf)

/-- Whether a record that was read breaks the form or the depth of its stream's stamps. -/
def recordsBad (s : State) (q : Queue) (d : StreamD) (rs : List (BitVec 4096)) : Bool :=
  rs.any (fun r => stampReason s q (recStamp r) (sdLoc d.desc) false)

def putReasons (c : QCmd) (s : State) (q : Queue) : List Reason :=
  let d := cmdStream s q (bodyN c 12 2)
  headReasons s q c [(0, 8), (8, 4), (12, 2)] ++
  [(2, decide (bodyN c 8 4 = 0)), (7, d.isNone || d.any (fun x => x.faulted)),
   (4, d.any (fun x => recordsBad s q x (readRecords q.ctx (recBytes x.desc) (bodyN c 8 4) (bodyN c 0 8) s).1.1))]

/-- How the taking of a PUT's records ends: all taken or dropped, a late record at an index, or a fault. -/
inductive PutEnd where
  | all
  | late (i : Nat) (r : BitVec 4096)
  | fault (f : Flt)
deriving DecidableEq, Repr

/-- LATECNT in the stream table in memory (R217, R230). DESIGN CHOICE, log 31. -/
def writeLate (ctx sid : Nat) (s : State) : Option Flt × State :=
  match ctxOf s ctx, streamOf s ctx sid with
  | some x, some d => ioWrite (.virt ctx) (x.strBase + 64 * sid + 60) 4 (d.late % 2 ^ 32) s
  | _, _ => (none, s)

/-- Takes records in order against the input frontier stamp: those accepted, the number dropped, and the end. -/
def takePut (ctx sid : Nat) (h : Option Stamp) (drop : Bool) : List (BitVec 4096) → Nat → State → (List (BitVec 4096) × Nat × PutEnd) × State
  | [], _, s => (([], 0, .all), s)
  | r :: rs, i, s =>
    if h.any (fun t => stampLt (recStamp r) t) then
      if !drop then (([], 0, .late i r), s)
      else match writeLate ctx sid (modStream ctx sid (fun d => { d with late := (d.late + 1) % 2 ^ 32 }) s) with
        | (some f, s) => (([], 0, .fault f), s)
        | (none, s) =>
          let x := takePut ctx sid h drop rs (i + 1) s
          ((x.1.1, x.1.2.1 + 1, x.1.2.2), x.2)
    else
      let x := takePut ctx sid h drop rs (i + 1) s
      ((r :: x.1.1, x.1.2.1, x.1.2.2), x.2)

/-- The records accepted: one batch of increments, then each record on its way (R206). -/
def acceptRecords (ctx sid : Nat) (d : StreamD) (rs : List (BitVec 4096)) (s : State) : State :=
  if rs = [] then s
  else
    let s := due (.batch .command ctx (rs.map (fun r => ({ loc := sdLoc d.desc, stamp := recStamp r, amt := 1 } : Delta)))) s
    rs.foldl (fun s r => sendRecord ctx sid d.desc r s) s

/-- The fault record of a late record (R481). -/
def lateRec (s : State) (ctx sid : Nat) (i : Nat) (d : StreamD) (r : BitVec 4096) : FaultRec :=
  { recOfCtx s 5 (w32 fWLATE) 0 (w32 i) ctx with
    cmd0 := w64 (sid % 4096), cmd1 := maskKey d.desc (recWord r 2), cmd2 := recWord r 0, cmd3 := recWord r 1 }

/-- STREAM.PUT (R211): a stream whose location has no input frontier stamp takes every record. DESIGN CHOICE, log 31. -/
def streamPut (c : QCmd) (q : Queue) (s : State) : State :=
  let sid := bodyN c 12 2
  let n := bodyN c 8 4
  match cmdStream s q sid with
  | none => s
  | some d =>
    let h := if hostFed s q.ctx d then some d.h else none
    let rd := readRecords q.ctx (recBytes d.desc) n (bodyN c 0 8) s
    let x := takePut q.ctx sid h (sdLate d.desc) rd.1.1 0 rd.2
    let taken := x.1.1
    let s := acceptRecords q.ctx sid d taken x.2
    match x.1.2.2, rd.1.2 with
    | .late i r, _ =>
      complete c 1 fWLATE (n - i) (due (.fault_record { lateRec s q.ctx sid i d r with by_ := some c.id }) (modStream q.ctx sid (fun y => { y with faulted := true }) s))
    | .fault f, _ => failCmd c q f (n - taken.length) s
    | .all, some f => failCmd c q f (n - taken.length) s
    | .all, none => complete c 0 0 x.1.2.1 s

def execStreamPut (s : State) : Out :=
  match s.ev with
  | some (.stream_put c) => .next (runPlain c (putReasons c) (streamPut c) s)
  | _ => .next s

def advanceReasons (c : QCmd) (s : State) (q : Queue) : List Reason :=
  let d := cmdStream s q (bodyN c 16 2)
  headReasons s q c [(0, 8), (8, 8), (16, 2)] ++
  [(4, !stampWf (bodyStamp c 0) || d.any (fun x => stampReason s q (bodyStamp c 0) (sdLoc x.desc) false)),
   (6, d.any (fun x => hostFed s q.ctx x && stampLt (bodyStamp c 0) x.h)),
   (7, !(d.any (hostFed s q.ctx)))]

/-- The input frontier stamp moves (R211). -/
def streamAdvance (c : QCmd) (q : Queue) (s : State) : State :=
  let sid := bodyN c 16 2
  let t := bodyStamp c 0
  match cmdStream s q sid with
  | none => s
  | some d =>
    let s := if stampLt d.h t then
        due (.batch .command q.ctx [{ loc := sdLoc d.desc, stamp := t, amt := 1 }, { loc := sdLoc d.desc, stamp := d.h, amt := -1 }])
          (modStream q.ctx sid (fun y => { y with h := t }) s)
      else s
    complete c 0 0 0 s

def execStreamAdvance (s : State) : Out :=
  match s.ev with
  | some (.stream_advance c) => .next (runPlain c (advanceReasons c) (streamAdvance c) s)
  | _ => .next s

/-! ### WAIT.STAMP and SIGNAL -/

def waitReasons (c : QCmd) (s : State) (q : Queue) : List Reason :=
  headReasons s q c [(0, 8), (8, 8), (16, 2), (18, 1)] ++
  [(2, decide (bodyN c 18 1 > 1)), (4, stampReason s q (bodyStamp c 0) (bodyN c 16 2) false)]

/-- The command processor subscribes to the location (R212) and waits for the frontier. -/
def waitStamp (c : QCmd) (q : Queue) (s : State) : State :=
  let l := bodyN c 16 2
  let s := subscribe q.ctx l ioCluster s
  if waitSatisfied s q.ctx c && !cutOff s q.ctx l then complete c 0 0 0 s else { s with q := { s.q with waits := s.q.waits ++ [c] } }

def execWaitStamp (s : State) : Out :=
  match s.ev with
  | some (.wait_stamp c) => .next (runPlain c (waitReasons c) (waitStamp c) s)
  | _ => .next s

def signalReasons (c : QCmd) (s : State) (q : Queue) : List Reason :=
  headReasons s q c [(0, 8), (8, 8)] ++ [(2, decide (bodyN c 0 8 % 8 ≠ 0))]

/-- The store of SIGNAL at .sys, and the wake of its word (R420). -/
def signalWord (c : QCmd) (q : Queue) (s : State) : State :=
  match ioSegs s (.virt q.ctx) 1 (bodyN c 0 8) 8 with
  | .error e => failCmd c q (ioFlt 1 e) 0 s
  | .ok gs => match ioWrite (.virt q.ctx) (bodyN c 0 8) 8 (bodyN c 8 8) s with
    | (some f, s) => failCmd c q f 0 s
    | (none, s) => complete c 0 0 0 (gs.foldl (fun s g => wakeWord (g.pa / 8) s) s)

def execSignal (s : State) : Out :=
  match s.ev with
  | some (.signal c) => .next (runPlain c (signalReasons c) (signalWord c) s)
  | _ => .next s

/-! ### XFER, PIN, TUNE.ACK -/

/-- Whether an XFER's PEER can be reached: a live link, and a context paired there (R487). -/
def peerOk (s : State) (q : Queue) (c : QCmd) : Bool :=
  let p := bodyN c 32 1
  p == 0xFF || (peerReached s.tun p && (match ctxOf s q.ctx with
    | some x => x.peers.any (fun y => y.dev == p)
    | none => false))

/-- Whether the ring block an XFER names declares a size outside 4 to 16; one that cannot be read yet does not (R120). -/
def ringSizeBad (s : State) (ctx va : Nat) : Bool := match (ioRead (.virt ctx) va 64 s).1 with
  | .inr b => decide (rcbLog2n b < 4 ∨ rcbLog2n b > 16)
  | .inl _ => false

def xferReasons (c : QCmd) (s : State) (q : Queue) : List Reason :=
  headReasons s q c [(0, 8), (8, 8), (16, 8), (24, 8), (32, 1), (33, 1)] ++
  [(2, decide (bodyN c 16 8 = 0 ∨ bodyN c 16 8 ≥ 2 ^ 40 ∨ bodyN c 24 8 % 64 ≠ 0 ∨ bodyN c 33 1 ≥ 4)
      || (!c.admin && ringSizeBad s q.ctx (bodyN c 24 8))), (12, !peerOk s q c)]

/-- A transfer as its command gives it. -/
def xferOf (s : State) (c : QCmd) (q : Queue) : Xfer :=
  let far := bodyN c 32 1 != 0xFF
  { cmd := c, ctx := q.ctx, done := 0, len := bodyN c 16 8, src := bodyW c 0, dst := bodyW c 8, peer := BitVec.ofNat 8 (bodyN c 32 1)
    dstPeer := far && decide (bodyN c 33 1 % 2 = 1), srcPeer := far && decide (bodyN c 33 1 / 2 % 2 = 1), parked := false
    status := 0, fcode := 0, finished := false, finAt := 0, ring := bodyW c 24, pri := workPri s q
    paired := ((ctxOf s q.ctx).bind (fun x => x.peers.find? (fun p => p.dev == bodyN c 32 1))).elim 0 (fun p => p.ctx) }

def addXfer (c : QCmd) (x : Xfer) (s : State) : State :=
  due (.transfer_finish c.id) { s with q := { s.q with xfers := amPut s.q.xfers c.id x } }

/-- A transfer that ends before it moves a byte: its record goes to its own ring (R121, R441). -/
def endedXfer (c : QCmd) (status : Nat) (s : State) : State :=
  match findQueue s c.admin c.queue with
  | none => s
  | some q =>
    let x := xferOf s c q
    addXfer c { x with finished := true, finAt := s.tick, status := BitVec.ofNat 7 status } s

def execXfer (s : State) : Out :=
  match s.ev with
  | some (.xfer c) =>
    -- in an admin queue there is no space that RING could lie in
    .next (runCmd c (xferReasons c) (fun r s => if c.admin then complete c 3 r 0 s else closeCmd c (endedXfer c 3 s)) (fun st => endedXfer c st)
      (fun q s => addXfer c (xferOf s c q) s) s)
  | _ => .next s

/-- PIN's own codes: a range that is refused, code 5, is one to pin; a release takes any. DESIGN CHOICE, log 31. -/
def pinReasons (c : QCmd) (s : State) (q : Queue) : List Reason :=
  headReasons s q c [(0, 8), (8, 4), (12, 1)] ++
  [(2, decide (bodyN c 12 1 > 1)), (5, bodyN c 12 1 == 0 && setRefused s q.ctx (bodyN c 8 4) (bodyN c 0 8))]

/-- PIN is cleared in the leaves of ranges, wherever a leaf is found, and the locks that PIN commands put on those pages end.
DESIGN CHOICE, log 31. -/
def releasePages (ctx : Nat) (rs : List (Nat × Nat)) (s : State) : State :=
  let ps := rs.flatMap (fun r => if r.2 = 0 then [] else ((List.range ((r.2 + r.1 % 65536 + 65535) / 65536)).filterMap (fun i =>
    match walk s ctx ((r.1 / 65536 + i) * 65536) with
    | .leaf p l level => some ({ pte := p, leaf := l, level := level, vp := vpage level ((r.1 / 65536 + i) * 65536) } : SetPage)
    | _ => none)))
  ps.eraseDups.foldl (fun s p =>
    let s := putLeaf p.pte (p.leaf &&& ~~~pinBit) s
    { s with m := { s.m with tlb := s.m.tlb.map (fun t =>
        if t.ctx = ctx ∧ t.level = p.level ∧ t.vpage = p.vp then { t with locks := t.locks.filter (fun i => i != 0) } else t) } }) s

def pinCmd (c : QCmd) (q : Queue) (s : State) : State :=
  if bodyN c 12 1 = 0 then pinSet c q 0 (bodyN c 8 4) (bodyN c 0 8) (complete c 0 0 0) s
  else match readPairs q.ctx (bodyN c 8 4) (bodyN c 0 8) s with
    | (.inl f, s) => failCmd c q f 0 s
    | (.inr rs, s) => complete c 0 0 0 (releasePages q.ctx rs s)

def execPin (s : State) : Out :=
  match s.ev with
  | some (.pin c) => .next (runPlain c (pinReasons c) (pinCmd c) s)
  | _ => .next s

def execTuneAck (s : State) : Out :=
  match s.ev with
  | some (.tune_ack c) =>
    .next (runPlain c (fun s q => headReasons s q c [(0, 4)]) (fun q s =>
      let r := tuneAck q.ctx (bodyN c 0 4) s
      complete c 0 0 r.1 r.2) s)
  | _ => .next s

end Sys2Proof.Machine
end

