-- ==== Sys2Proof/Machine/Contexts.lean ====
section
/-! DEFINITION. The admin commands and CHECKPOINT: contexts and their declarations, queues, resumption of what has parked,
pre-emption (R199 to R202, R216 to R218, R434 to R436, R440, R442, R459, R479, R491, R503). -/
namespace Sys2Proof.Machine

/-- Whether an admin queue's tenant owns a context. -/
def ctxMine (s : State) (q : Queue) (n : Nat) : Bool := match ctxOf s n with
  | some x => x.tenant == q.tenant
  | none => false

/-! ### Context descriptors (R199, R216, R435) -/

/-- Bits of a number. -/
def bitsOf (b lo n : Nat) : Nat := b / 2 ^ lo % 2 ^ n

/-- A VA's bits from lo up, as its 64-bit address. -/
def dscVa (v lo : Nat) : Word64 := vaOf (BitVec.ofNat 56 (v * 2 ^ lo))

def dscLocBase (b : Nat) : Word64 := dscVa (bitsOf b 3 53) 3
def dscLocN (b : Nat) : Nat := bitsOf b 64 11
def dscRuleBase (b : Nat) : Word64 := dscVa (bitsOf b 133 51) 5
def dscStrN (b : Nat) : Nat := bitsOf b 192 13
def dscStrBase (b : Nat) : Word64 := dscVa (bitsOf b 206 50) 6
def dscLog2b (b : Nat) : Nat := bitsOf b 256 5
def dscPegBase (b : Nat) : Nat := bitsOf b 284 36 * 2 ^ 16
def dscHBase (b : Nat) : Word64 := dscVa (bitsOf b 320 52) 4
def dscHn (b : Nat) : Nat := bitsOf b 372 12
def dscRoot (b : Nat) : Nat := bitsOf b 384 32 * 2 ^ 20
def dscHandler (b : Nat) : BitVec 56 := BitVec.ofNat 56 (bitsOf b 448 54 * 4)
def dscPriMax (b : Nat) : Nat := bitsOf b 516 3
def dscPol (b : Nat) : Bool := b.testBit 519

/-! ### Tables -/

/-- A location table entry (R200). -/
def locEntOf (w : Nat) : LocEnt :=
  { v := w.testBit 63, depth := BitVec.ofNat 2 (bitsOf w 61 2), kind := BitVec.ofNat 2 (bitsOf w 59 2), shr := w.testBit 58,
    hf := w.testBit 57, sid := bitsOf w 36 12 }

/-- A handle table entry (R435). -/
def handleOf (b : Nat) : Handle := { va := w64 b, len := bitsOf b 64 56, h := b.testBit 127 }

/-- n pieces of a size out of a number. -/
def piecesOf (b size n : Nat) : List Nat := (List.range n).map (fun i => b / 256 ^ (size * i) % 256 ^ size)

/-- A stream as a new context holds it (R479). -/
def streamOfDesc (b : Nat) : StreamD :=
  { desc := BitVec.ofNat 512 b, late := bitsOf b 480 32, faulted := false, h := Stamp.zero, hold := none, parked := false, arrived := 0 }

/-- The tables of a context as read, in words and pieces. -/
structure Tables where
  locs : List Nat
  rules : List Nat
  streams : List Nat
  handles : List Nat
deriving DecidableEq, Repr

/-- Where a new context's tables are read from, until its number is chosen. -/
def newSpace : Nat := 64

/-- A context without its tables. -/
def bareCtx (tenant tunn b : Nat) : Ctx :=
  { tenant := tenant, pol := dscPol b, primax := dscPriMax b, handler := dscHandler b, root := dscRoot b, locs := [], rules := [],
    streams := [], strBase := (dscStrBase b).toNat, pegBase := dscPegBase b, log2b := dscLog2b b, pegFree := [], handles := [],
    plBase := 0, plNext := 0, objs := [], rows := [], suspended := false, terminated := false, ackTun := tunn, tunDeadline := false,
    peers := [], destroying := false }

/-- Reads n bytes of a new context's space; nothing is read for none. -/
def readTable (va n : Nat) (s : State) : (Flt ⊕ Nat) × State := if n = 0 then (.inr 0, s) else ioRead (.virt newSpace) va n s

/-- Reads the four tables that a descriptor names. -/
def readTables (b : Nat) (s : State) : (Flt ⊕ Tables) × State :=
  let n := dscLocN b
  let nr := if dscRuleBase b = 0 then 0 else 4 * n * n
  match readTable (dscLocBase b).toNat (8 * n) s with
  | (.inl f, s) => (.inl f, s)
  | (.inr l, s) => match readTable (dscRuleBase b).toNat (8 * nr) s with
    | (.inl f, s) => (.inl f, s)
    | (.inr r, s) => match readTable (dscStrBase b).toNat (64 * dscStrN b) s with
      | (.inl f, s) => (.inl f, s)
      | (.inr d, s) => match readTable (dscHBase b).toNat (16 * dscHn b) s with
        | (.inl f, s) => (.inl f, s)
        | (.inr h, s) => (.inr { locs := piecesOf l 8 n, rules := piecesOf r 8 nr, streams := piecesOf d 64 (dscStrN b),
                                 handles := piecesOf h 16 (dscHn b) }, s)

/-- The descriptor at DESC, then its tables: a fault, or none where the root lies elsewhere than R435 allows. The new space
is gone again afterwards. -/
def readContext (q : Queue) (desc : Nat) (s : State) : (Flt ⊕ (Nat × Option Tables)) × State :=
  match ioRead .phys desc 128 s with
  | (.inl f, s) => (.inl f, s)
  | (.inr b, s) =>
    if !inDevMem s.tun (dscRoot b) || decide (dscLocN b > 1024 ∨ dscStrN b > 4096) then (.inr (b, none), s)
    else
      let s := { s with ctxs := amPut s.ctxs newSpace (bareCtx q.tenant s.tun.tunn b) }
      let r := readTables b s
      let s := dropCtxTlb newSpace { r.2 with ctxs := amDel r.2.ctxs newSpace }
      match r.1 with
      | .inl f => (.inl f, s)
      | .inr t => (.inr (b, some t), s)

/-! ### Declarations that are refused (R202, R218) -/

/-- A valid location that R202 refuses. -/
def locBad (w : Nat) : Bool := w.testBit 63 && decide (bitsOf w 59 2 = 3 ∨ bitsOf w 48 9 ≠ 0 ∨ bitsOf w 0 36 ≠ 0)

/-- Levels' codes that go against the source's depth or their addends. -/
def levelBad (r : Word64) (depth j : Nat) : Bool :=
  let code := ruleL r j
  decide (code = 3) || decide (code = 1 ∧ ruleA r j = 0) || decide (code ≠ 1 ∧ ruleA r j ≠ 0) || decide (code ≠ 0 ∧ j > depth)

/-- Whether a rule's depth change leads from one depth to another. -/
def depthOk (dch m l : Nat) : Bool :=
  match dch with
  | 0 => l == m
  | 1 => l == m + 1 && decide (m + 1 ≤ 3)
  | 2 => m == l + 1
  | _ => false

/-- A rule from a location to itself that does not strictly increase every stamp. -/
def selfBad (r : Word64) : Bool :=
  decide (ruleDch r ≠ 0) || !((([1, 2, 3].map (ruleL r)).find? (fun c => c ≠ 0)) == some 1)

/-- A valid rule of a pair that R202 refuses. -/
def ruleBad (m l : LocEnt) (self : Bool) (r : Word64) : Bool :=
  ruleV r && (r.extractLsb' 10 6 != 0 || r.getLsbD 1 || [1, 2, 3].any (levelBad r m.depth.toNat) || !(m.v && l.v)
    || !depthOk (ruleDch r) m.depth.toNat l.depth.toNat || (self && selfBad r) || (l.shr && !m.shr))

def noLoc : LocEnt := { v := false, depth := 0, kind := 0, shr := false, hf := false, sid := 0 }

/-- The first rule that R202 refuses. -/
def rulesBad (locs : List LocEnt) (rules : List Nat) : Option Nat :=
  (rules.zipIdx.find? (fun e =>
    let pair := e.2 / 4
    let n := Nat.max 1 locs.length
    ruleBad (locs.getD (pair / n) noLoc) (locs.getD (pair % n) noLoc) (pair / n == pair % n) (w64 e.1))).map (fun e => e.2)

/-- Reserved fields of a stream descriptor, as lowest bit and width. -/
def descReserved : List (Nat × Nat) := [(0, 12), (184, 8), (248, 8), (312, 8), (376, 14), (440, 5), (449, 31)]

def size2Ok (d : BitVec 512) : Bool :=
  let a := sdSize1 d
  let b := sdSize2 d
  match sdKind d with
  | 1 => decide (1 ≤ b ∧ b ≤ a)
  | 2 => decide (1 ≤ b ∧ b ≤ a ∧ (a + b - 1) / Nat.max 1 b ≤ 16)
  | _ => b == 0

/-- A valid descriptor that R218 refuses; ds are all the context's descriptors. -/
def descBad (locs : List LocEnt) (ds : List (BitVec 512)) (i : Nat) (d : BitVec 512) : Bool :=
  sdV d && (descReserved.any (fun f => decide (sdf d f.1 f.2 ≠ 0)) || sdOutK d == 3 || sdResume d == 0
    || decide (sdStw d > 16 ∨ sdPlw d > 28 ∨ sdVr d < 2 ∨ sdVr d > 20 ∨ 32 + 8 * sdPlw d > recBytes d ∨ sdSize1 d = 0)
    || !(match locs[sdLoc d]? with
      | some e => e.v && e.kind == 1 && e.sid == i
      | none => false)
    || !size2Ok d || (sdPanes d && decide (sdSize1 d % Nat.max 1 (sdSize2 d) ≠ 0))
    || ((sdKind d == 3 || sdPanes d) && sdMerge d == 0)
    || (sdOutK d == 1 && !((ds[sdOutSid d]?).any sdV)) || (sdOutK d == 2 && sdRing d == 0))

/-- The descriptors that fail: those that R218 refuses, and those that are not valid though a valid location names them. -/
def descsBad (locs : List LocEnt) (ds : List (BitVec 512)) : List Nat :=
  (ds.zipIdx.filter (fun e => descBad locs ds e.2 e.1)).map (fun e => e.2)
    ++ (locs.filter (fun e => e.v && e.kind == 1 && !((ds[e.sid]?).any sdV))).map (fun e => e.sid)

/-- What fails first in a declaration: locations, then rules, then descriptors by index, then the peg store; its kind as
Config.declReport numbers them, and its index. DESIGN CHOICE, log 3. -/
def declFirst (b : Nat) (t : Tables) : Option (Nat × Nat) :=
  let locs := t.locs.map locEntOf
  let store := dscStrN b != 0 && (!inHbm (dscPegBase b) || decide (dscLog2b b < 4 ∨ dscLog2b b > 28))
  match t.locs.zipIdx.find? (fun e => locBad e.1), rulesBad locs t.rules, leastBy (fun i => i) (descsBad locs (t.streams.map (BitVec.ofNat 512))) with
  | some e, _, _ => some (0, e.2)
  | none, some i, _ => some (1, i)
  | none, none, some i => some (2, i)
  | none, none, none => if store then some (3, 0) else none

/-- Whether a context's declaration is refused. -/
def declBad (b : Nat) (t : Tables) : Bool := (declFirst b t).isSome

/-! ### CTX.CREATE and CTX.DESTROY -/

/-- The lowest number below n that a map does not use. -/
def freeKey {α : Type} (m : AMap α) (n : Nat) : Option Nat := (List.range n).find? (fun i => (amGet? m i).isNone)

def createReasons (c : QCmd) (s : State) (q : Queue) : List Reason :=
  headReasons s q c [(0, 8)] ++
  [(2, decide (bodyN c 0 8 % 128 ≠ 0)),
   (9, match (readContext q (bodyN c 0 8) s).1 with
     | .inl _ => false
     | .inr r => (match r.2 with
       | none => true
       | some t => declBad r.1 t)),
   (10, (freeKey s.ctxs 64).isNone)]

/-- A count of 1 for each stream that the host feeds, at the stamp 0 of its location's depth (R211, R479). -/
def hostCounts (n : Nat) (c : Ctx) (s : State) : State :=
  (c.streams.zipIdx).foldl (fun s e =>
    match locOf c (sdLoc e.1.desc) with
    | some l => if sdV e.1.desc && l.hf then
        addCount n (sdLoc e.1.desc) (stampAt 0 l.depth.toNat) 1 (modStream n e.2 (fun d => { d with h := stampAt 0 l.depth.toNat }) s)
      else s
    | none => s) s

/-- The context that a descriptor and its tables declare. -/
def ctxOfTables (tenant tunn b : Nat) (t : Tables) : Ctx :=
  { bareCtx tenant tunn b with
    locs := t.locs.map locEntOf
    rules := (t.rules.zipIdx.filter (fun e => e.1 != 0)).map (fun e => (e.2, w64 e.1))
    streams := t.streams.map streamOfDesc
    handles := t.handles.map handleOf }

def ctxCreate (c : QCmd) (q : Queue) (s : State) : State :=
  match readContext q (bodyN c 0 8) s with
  | (.inl f, s) => failCmd c q f 0 s
  | (.inr (b, t), s) => match t, freeKey s.ctxs 64 with
    | some t, some n =>
      let x := ctxOfTables q.tenant s.tun.tunn b t
      complete c 0 0 n (hostCounts n x { s with ctxs := amPut s.ctxs n x })
    | _, _ => s

/-- What a refused declaration's completion reports as failing first. -/
def declRes (c : QCmd) (s : State) : Nat × Nat :=
  match findQueue s c.admin c.queue with
  | none => (4, 0)
  | some q => match (readContext q (bodyN c 0 8) s).1 with
    | .inr (b, some t) => (declFirst b t).getD (4, 0)
    | _ => (4, 0)

/-- A refused declaration's record reports what failed first (R202, R218); how RES says it is not stated. DESIGN CHOICE, log 3. -/
def rejectCreate (c : QCmd) (r : Nat) (s : State) : State :=
  if r = 9 then complete c 3 r ((Config.declReport (declRes c s).1 (declRes c s).2).toNat % 2 ^ 40) s else complete c 3 r 0 s

def execCtxCreate (s : State) : Out :=
  match s.ev with
  | some (.ctx_create c) => .next (runCmd c (createReasons c) (rejectCreate c) (fun st => complete c st 0 0) (ctxCreate c) s)
  | _ => .next s

/-- A context's queues, by number. -/
def queuesOf (s : State) (n : Nat) : List Nat := (s.q.queues.filter (fun e => e.2.ctx == n)).map (fun e => e.1)

/-- What the agenda and the timeouts hold for a context. -/
def eventOf (ctx : Nat) (qs : List Nat) : Event → Bool
  | .batch _ c _ => c == ctx
  | .frontier_announcement c _ => c == ctx
  | .window_group_start _ c _ _ => c == ctx
  | .window_group_timeout _ c _ _ => c == ctx
  | .peg_load c _ _ => c == ctx
  | .tune_deadline c => c == ctx
  | .completion_record r => !r.admin && qs.contains r.queue
  | _ => false

/-- What a parked record stands for, of a context. -/
def parkedOf (ctx : Nat) (qs : List Nat) (e : FaultRec × ParkedFor) : Bool :=
  match e.2 with
  | .completion n admin => !admin && qs.contains n
  | _ => e.1.ctx.toNat == ctx && e.1.ctx.toNat < 64

/-- A peer's batch for a context that goes keeps its number, so that what follows it is not held up, and counts nothing (R471, R486). -/
def blankBatch (ctx : Nat) : Event → Event
  | .peer_batch dev seq c ds => .peer_batch dev seq c (if c = ctx then [] else ds)
  | .peer_flit link ok dev (.batch seq c ds) => .peer_flit link ok dev (.batch seq c (if c = ctx then [] else ds))
  | e => e

/-- A context whose work has ended is gone, with its queues, counts, windows, records, transfers and translations; its cached
sectors are written back and dropped (R440, R471). What its peers have not acknowledged is still sent again (R486). DESIGN CHOICE, log 32. -/
def dropCtx (n : Nat) (s : State) : State :=
  let qs := queuesOf s n
  let s := dropCtxTlb n (flushEverywhere (fun _ _ x => x.ctx == n) s)
  let s := dropCmds (fun c => !c.admin && qs.contains c.queue) s
  let recs := (s.w.recs.filter (fun e => e.2.ctx == n)).map (fun e => e.1)
  { s with
    agenda := (s.agenda.filter (fun e => !eventOf n qs e)).map (blankBatch n)
    timers := s.timers.filter (fun t => !eventOf n qs t.2)
    ctxs := amDel s.ctxs n
    t := { s.t with
      counts := s.t.counts.filter (fun c => c.ctx ≠ n)
      ann := s.t.ann.filter (fun a => a.ctx ≠ n)
      frets := amMap s.t.frets (fun _ bs => bs.filter (fun b => b.ctx ≠ n))
      peerHeld := s.t.peerHeld.map (fun b => if b.ctx = n then { b with ds := [] } else b) }
    m := { s.m with refused := (s.m.refused.filter (fun r => !eventOf n qs r.1)).map (fun r => (blankBatch n r.1, r.2)) }
    w := { recs := s.w.recs.filter (fun e => e.2.ctx ≠ n)
           arrivals := amMap s.w.arrivals (fun _ l => l.filter (fun i => !recs.contains i))
           wins := s.w.wins.filter (fun e => e.2.ctx ≠ n) }
    q := { s.q with
      queues := s.q.queues.filter (fun e => e.2.ctx ≠ n)
      waits := s.q.waits.filter (fun w => !qs.contains w.queue)
      uses := s.q.uses.filter (fun u => u.ctx ≠ n)
      xfers := s.q.xfers.filter (fun e => e.2.ctx ≠ n)
      ckpts := s.q.ckpts.filter (fun e => e.2.ctx ≠ n)
      parkedFor := s.q.parkedFor.filter (fun e => !parkedOf n qs e) } }

/-- A context's work is cancelled; the completions that follow are written before the context goes. -/
def endCtx (n : Nat) (s : State) : State := settlePreempts (cancelCtx n none 0 (modCtx n (fun x => { x with destroying := true }) s))

def ctxReasons (c : QCmd) (s : State) (q : Queue) : List Reason := headReasons s q c [(0, 1)] ++ [(2, !ctxMine s q (bodyN c 0 1))]

/-- CTX.DESTROY: the cancellation at its begin; the rest once the cancelled commands' records are written. -/
def execCtxDestroy (s : State) : Out :=
  match s.ev with
  | some (.ctx_destroy c) =>
    let n := bodyN c 0 1
    .next (if s.q.running.contains c.id then complete c 0 0 0 (dropCtx n s)
      else runPlain c (ctxReasons c) (fun _ s => due (.ctx_destroy c) (endCtx n s)) s)
  | _ => .next s

/-! ### Queues (R436, R440) -/

/-- The fields of a queue control block. -/
def qcbBase (b : Nat) : Word64 := vaOf (BitVec.ofNat 56 b)
def qcbLog2n (b : Nat) : Nat := bitsOf b 128 5
def qcbPri (b : Nat) : Nat := bitsOf b 320 3
def qcbCmask (b : Nat) : BitVec 8 := BitVec.ofNat 8 (bitsOf b 328 8)
def qcbCring (b : Nat) : Word64 := vaOf (BitVec.ofNat 56 (bitsOf b 392 56))

/-- A queue control block and the block of its completion ring. -/
def readQcb (sp : IoSpace) (qcb : Nat) (s : State) : (Flt ⊕ (Nat × Nat)) × State :=
  match ioRead sp qcb 64 s with
  | (.inl f, s) => (.inl f, s)
  | (.inr b, s) => match ioRead sp (qcbCring b).toNat 64 s with
    | (.inl f, s) => (.inl f, s)
    | (.inr r, s) => (.inr (b, r), s)

/-- What R436 refuses of a control block: sizes, and places that are not aligned. -/
def qcbBad (b r : Nat) : Bool :=
  decide (qcbLog2n b < 4 ∨ qcbLog2n b > 16 ∨ rcbLog2n r < 4 ∨ rcbLog2n r > 16 ∨ b % 128 ≠ 0 ∨ bitsOf b 392 6 ≠ 0)

/-- A queue as its control block declares it. -/
def queueOfQcb (ctx tenant : Nat) (admin : Bool) (qcb : Word64) (b r : Nat) : Queue :=
  { ctx := ctx, tenant := tenant, admin := admin, block := qcb, base := qcbBase b, log2n := qcbLog2n b, pri := qcbPri b,
    cmask := qcbCmask b, ring := ringOf (qcbCring b) r, seen := 0, cons := 0, stopped := false, open_ := [], parked := [], held := false,
    destroying := none }

def qCreateReasons (c : QCmd) (s : State) (q : Queue) : List Reason :=
  let mine := ctxMine s q (bodyN c 8 1)
  headReasons s q c [(0, 8), (8, 1)] ++
  [(2, !mine || decide (bodyN c 0 8 % 64 ≠ 0) || (match (readQcb (.virt (bodyN c 8 1)) (bodyN c 0 8) s).1 with
     | .inl _ => false
     | .inr r => qcbBad r.1 r.2)),
   (10, (freeKey s.q.queues 4096).isNone)]

def qCreate (c : QCmd) (q : Queue) (s : State) : State :=
  match readQcb (.virt (bodyN c 8 1)) (bodyN c 0 8) s with
  | (.inl f, s) => failCmd c q f 0 s
  | (.inr (b, r), s) => match freeKey s.q.queues 4096 with
    | some n => complete c 0 0 n { s with q := { s.q with queues := amPut s.q.queues n (queueOfQcb (bodyN c 8 1) q.tenant false (bodyW c 0) b r) } }
    | none => s

def execQCreate (s : State) : Out :=
  match s.ev with
  | some (.q_create c) => .next (runPlain c (qCreateReasons c) (qCreate c) s)
  | _ => .next s

def qDestroyReasons (c : QCmd) (s : State) (q : Queue) : List Reason :=
  headReasons s q c [(0, 2)] ++ [(2, match amGet? s.q.queues (bodyN c 0 2) with
    | some x => x.tenant != q.tenant || x.destroying.isSome
    | none => true)]

/-- Q.DESTROY: no further command of the queue begins, and it goes when its begun commands have completed. -/
def execQDestroy (s : State) : Out :=
  match s.ev with
  | some (.q_destroy c) =>
    .next (runPlain c (qDestroyReasons c) (fun _ s =>
      settleQueue (bodyN c 0 2) (modQueue false (bodyN c 0 2) (fun x => { x with destroying := some c }) s)) s)
  | _ => .next s

/-! ### STREAM.RESET, PARK.RESUME -/

def resetReasons (c : QCmd) (s : State) (q : Queue) : List Reason :=
  let mine := ctxMine s q (bodyN c 0 1)
  headReasons s q c [(0, 1), (2, 2)] ++ [(2, !mine), (7, mine && (streamOf s (bodyN c 0 1) (bodyN c 2 2)).isNone)]

def execStreamReset (s : State) : Out :=
  match s.ev with
  | some (.stream_reset c) =>
    .next (runPlain c (resetReasons c) (fun _ s =>
      complete c 0 0 0 (modStream (bodyN c 0 1) (bodyN c 2 2) (fun d => { d with faulted := false }) s)) s)
  | _ => .next s

/-- What a fault record of the tenant stands for, once its ring has received it (R47, R455). -/
def parkedBy (s : State) (q : Queue) (b : Nat) : Option (FaultRec × ParkedFor) :=
  s.q.parkedFor.find? (fun e => e.1.ten.toNat == q.tenant && faultBits e.1 == b && !recordWaits s (fun r => r == e.1))

/-- What has parked goes on (R47, R425, R503). -/
def unparkFor (p : ParkedFor) (s : State) : State :=
  match p with
  | .brk gid => modGroup gid (fun g => if g.status = .stopped then { g with status := .running, rdy := s.tick } else g) s
  | .window ctx sid => dues ((List.range 8).map Event.window_engine_step) (modStream ctx sid (fun d => { d with parked := false }) s)
  | .xfer id => due (.transfer_finish id) (modXfer id (fun x => { x with parked := false }) s)
  | .completion n admin => match findQueue s admin n with
    | some q =>
      let s := putComps admin n q q.parked s
      if admin then s else settleQueue n s
    | none => s
  | .peer dev msg => peerArrives dev msg s

def parkReasons (c : QCmd) (s : State) (q : Queue) : List Reason := headReasons s q c [(0, 64)] ++ [(2, (parkedBy s q (bodyN c 0 64)).isNone)]

def execParkResume (s : State) : Out :=
  match s.ev with
  | some (.park_resume c) =>
    .next (runPlain c (parkReasons c) (fun q s =>
      match parkedBy s q (bodyN c 0 64) with
      | some e => complete c 0 0 0 (unparkFor e.2 { s with q := { s.q with parkedFor := s.q.parkedFor.erase e } })
      | none => s) s)
  | _ => .next s

/-! ### PREEMPT and RESUME (R18, R121, R459, R468) -/

/-- A context's unfinished transfers end with STATUS 2. -/
def cancelXfers (n : Nat) (s : State) : State :=
  let hit := fun (x : Xfer) => x.ctx == n && !x.finished
  let ids := (s.q.xfers.filter (fun e => hit e.2)).map (fun e => e.1)
  let stop := fun (x : Xfer) => { x with finished := true, parked := false, finAt := s.tick, status := 2, asked := false, got := none }
  dues (ids.map Event.transfer_finish) { s with q := { s.q with xfers := amMap s.q.xfers (fun _ x => if hit x then stop x else x)
                                                                parkedFor := s.q.parkedFor.filter (fun e => match e.2 with
                                                                  | .xfer id => !ids.contains id
                                                                  | _ => true) } }

/-- PREEMPT: the context is suspended, and every team of it is saved. DESIGN CHOICE, log 32. -/
def preemptCtx (c : QCmd) (n : Nat) (s : State) : State :=
  let s := dropCtxTlb n (cancelXfers n (modCtx n (fun x => { x with suspended := true }) s))
  let s := dues ((List.range 8).map Event.window_engine_step) (askSave (fun g => g.idn.ctx == n && g.idn.gid != 0) s)
  settlePreempts { s with q := { s.q with preempts := s.q.preempts ++ [(c, n)] } }

def execPreempt (s : State) : Out :=
  match s.ev with
  | some (.preempt c) => .next (runPlain c (ctxReasons c) (fun _ s => preemptCtx c (bodyN c 0 1) s) s)
  | _ => .next s

/-- RESUME: the context is runnable again; one that has not acknowledged the tuning gets a new deadline. DESIGN CHOICE, log 32. -/
def resumeCtx (n : Nat) (s : State) : State :=
  match ctxOf s n with
  | none => s
  | some x =>
    let s := dropCtxTlb n (modCtx n (fun y => { y with suspended := false }) s)
    let s := if x.suspended && decide (x.ackTun < s.tun.tunn) then
        timer (ticksOf 10000000) (.tune_deadline n) (noTimer (.tune_deadline n) (modCtx n (fun y => { y with tunDeadline := true }) s))
      else s
    let held := (s.q.xfers.filter (fun e => e.2.ctx == n && !e.2.finished && !e.2.parked)).map (fun e => Event.transfer_finish e.1)
    dues ((List.range 8).map Event.window_engine_step ++ held) s

def execResume (s : State) : Out :=
  match s.ev with
  | some (.resume c) => .next (runPlain c (ctxReasons c) (fun _ s => complete c 0 0 0 (resumeCtx (bodyN c 0 1) s)) s)
  | _ => .next s

/-! ### CHECKPOINT (R491) -/

/-- Whether every granule of a range lies on a page of a KIND that p allows. -/
def kindsAre (s : State) (ctx : Nat) (p : Nat → Bool) (va n : Nat) : Bool :=
  (List.range ((va % 65536 + n + 65535) / 65536)).all (fun i => match walk s ctx ((va / 65536 + i) * 65536) with
    | .leaf _ e _ => p (leafKind e)
    | _ => false)

def rangeSum (rs : List (Nat × Nat)) : Nat := rs.foldl (fun a r => a + r.2) 0

def checkpointReasons (c : QCmd) (s : State) (q : Queue) : List Reason :=
  headReasons s q c [(0, 8), (8, 4), (16, 8)] ++
  [(2, match (readPairs q.ctx (bodyN c 8 4) (bodyN c 0 8) s).1 with
     | .inl _ => false
     | .inr rs => rs.any (fun r => decide (r.2 % 65536 ≠ 0) || !kindsAre s q.ctx (fun k => k == 0) r.1 r.2)
         || !kindsAre s q.ctx (fun k => k != 0) (bodyN c 16 8) (rangeSum rs))]

/-- The homes revoke the ranges' owners and write back their dirty sectors; the stream follows. DESIGN CHOICE, log 32. -/
def checkpoint (c : QCmd) (q : Queue) (s : State) : State :=
  match readPairs q.ctx (bodyN c 8 4) (bodyN c 0 8) s with
  | (.inl f, s) => failCmd c q f 0 s
  | (.inr rs, s) =>
    let s := rs.foldl (fun s r => flushPieces true (bufferPieces s q.ctx r.1 r.2) s) s
    let k : Ckpt := { cmd := c, ctx := q.ctx, ranges := rs, dst := bodyW c 16, written := 0 }
    timer 1 (.checkpoint_stream_end c.id) { s with q := { s.q with ckpts := amPut s.q.ckpts c.id k } }

def execCheckpoint (s : State) : Out :=
  match s.ev with
  | some (.checkpoint c) => .next (runPlain c (checkpointReasons c) (checkpoint c) s)
  | _ => .next s

/-- Copies n blocks of 64 bytes, poison marks with them. -/
def copyBlocks (ctx : Nat) : Nat → Nat → Nat → State → Option Flt × State
  | 0, _, _, s => (none, s)
  | n + 1, src, dst, s =>
    match ioReadP (.virt ctx) src 64 s with
    | (.inl f, s) => (some f, s)
    | (.inr v, s) => match ioWriteP (.virt ctx) dst 64 v.1 v.2 s with
      | (some f, s) => (some f, s)
      | (none, s) => copyBlocks ctx n (src + 64) (dst + 64) s

/-- Copies the ranges one behind the other. -/
def copyRanges (ctx : Nat) : List (Nat × Nat) → Nat → State → Option Flt × State
  | [], _, s => (none, s)
  | r :: rs, dst, s =>
    match copyBlocks ctx (r.2 / 64) r.1 dst s with
    | (some f, s) => (some f, s)
    | (none, s) => copyRanges ctx rs (dst + r.2) s

/-- CHECKPOINT_STREAM_END: the ranges lie in the safe tier, and the command completes. DESIGN CHOICE, log 32. -/
def checkpointEnd (id : Nat) (s : State) : State :=
  match amGet? s.q.ckpts id with
  | none => s
  | some k =>
    let s := { s with q := { s.q with ckpts := amDel s.q.ckpts id } }
    match findQueue s k.cmd.admin k.cmd.queue with
    | none => s
    | some q => match copyRanges k.ctx k.ranges k.dst.toNat s with
      | (some f, s) => failCmd k.cmd q f 0 s
      | (none, s) => complete k.cmd 0 0 (rangeSum k.ranges) s

def execCheckpointStreamEnd (s : State) : Out :=
  match s.ev with
  | some (.checkpoint_stream_end id) => .next (checkpointEnd id s)
  | _ => .next s

end Sys2Proof.Machine
end

