-- ==== Sys2Proof/Machine/Control.lean ====
section
/-! DEFINITION. Branches, calls, loops, pauses and mask instructions, OP7 0x10 to 0x17 but exit (R302 to R310). -/
namespace Sys2Proof.Machine

/-! ### Branches (R284, R302 to R305) -/

/-- The target of a PC-relative branch. -/
def branchTarget (s : State) (o : BOff) : Word64 := vaOf s.g.pc + boff o

/-- The fault of a branch whose target it does not take. DEDUCED, log 20. -/
def targetFault (code : Nat) (t : Word64) : Flt := { flt code with acc := 3, va := t }

/-- Continues at a target: one that is not canonical faults at the branch, which is then not taken. w holds the registers
written before the target is fetched. -/
def jumpTo (t : Word64) (w : State) (s : State) : Out :=
  if canonical t then .next (retireTo s.g.live (pcOf t) w) else .next (raiseW (targetFault fADDROVF t) s)

/-- A branch under a condition; one that does not hold checks no target. -/
def branchIf (c : Bool) (o : BOff) (s : State) : Out := if c then jumpTo (branchTarget s o) s s else .next (retireS s)

def execB (o : BOff) (s : State) : Out := branchIf true o s
def execBz (a : SReg) (o : BOff) (s : State) : Out := branchIf (rS s a == 0) o s
def execBnz (a : SReg) (o : BOff) (s : State) : Out := branchIf (rS s a != 0) o s
def execBcLt (a : SReg) (o : BOff) (s : State) : Out := branchIf (decide ((rS s a).toInt < 0)) o s
def execBcGe (a : SReg) (o : BOff) (s : State) : Out := branchIf (decide ((rS s a).toInt ≥ 0)) o s
def execBcGt (a : SReg) (o : BOff) (s : State) : Out := branchIf (decide ((rS s a).toInt > 0)) o s
def execBcLe (a : SReg) (o : BOff) (s : State) : Out := branchIf (decide ((rS s a).toInt ≤ 0)) o s
def execBkAny (k : KReg) (o : BOff) (s : State) : Out := branchIf (rK s k &&& s.g.live != 0) o s
def execBkAll (k : KReg) (o : BOff) (s : State) : Out := branchIf (rK s k &&& s.g.live == s.g.live) o s
def execBkNone (k : KReg) (o : BOff) (s : State) : Out := branchIf (rK s k &&& s.g.live == 0) o s

/-- lr. -/
def lrReg : SReg := 63

def execCall (o : BOff) (s : State) : Out := jumpTo (branchTarget s o) (wS s lrReg (vaOf s.g.pc + w64 s.ir.len)) s

/-- bx and ret: a target that is not canonical raises F_ADDROVF, another not aligned to 4 F_ALIGN (R33, R303). -/
def jumpReg (t : Word64) (s : State) : Out :=
  if canonical t && t.toNat % 4 != 0 then .next (raiseW (targetFault fALIGN t) s) else jumpTo t s s

def execBx (a : SReg) (s : State) : Out := jumpReg (rS s a) s
def execRet (s : State) : Out := jumpReg (rS s lrReg) s

def execSloop (a : SReg) (o : BOff) (s : State) : Out :=
  if rS s a - 1 = 0 then .next (retireS (wS s a (rS s a - 1)))
  else jumpTo (branchTarget s o) (wS s a (rS s a - 1)) s

/-! ### Pauses (R306, R307) -/

def execNop (s : State) : Out := .next (retireS s)

/-- The ready groups of the core other than the one at issue. -/
def readyPeers (s : State) : List Nat :=
  (s.rest.filter (fun g => g.status == .running && g.idn.core == s.g.idn.core)).map (fun g => g.idn.gid)

def execYield (s : State) : Out :=
  let ps := readyPeers s
  let s' := retireS s
  if ps = [] then .next s'
  else .next (timer 64 (.yield_expiry s.g.idn.gid) { s' with g := { s'.g with status := .yielded, yieldFor := ps } })

/-- The nanoseconds of a sleep. -/
def sleepNs (v : Word64) : Nat := Nat.min v.toNat (2 ^ 32 - 1)

def execSleep (a : SReg) (s : State) : Out :=
  let d := sleepNs (rS s a)
  let s' := retireS s
  if d = 0 then .next s'
  else .next (timer (ticksOf d) (.sleep_expiry s.g.idn.gid)
    { s' with g := { s'.g with status := .sleeping, wakeAt := s.nsec + d } })

/-! ### Masks (R309, R310) -/

def maskOut (d : KReg) (v : Word32) (s : State) : Out := .next (retireS (wK s d v))

def execKand (d a b : KReg) (s : State) : Out := maskOut d (rK s a &&& rK s b) s
def execKor (d a b : KReg) (s : State) : Out := maskOut d (rK s a ||| rK s b) s
def execKxor (d a b : KReg) (s : State) : Out := maskOut d (rK s a ^^^ rK s b) s
def execKandn (d a b : KReg) (s : State) : Out := maskOut d (rK s a &&& ~~~rK s b) s
def execKnot (d a : KReg) (s : State) : Out := maskOut d (~~~rK s a) s
def execKmov (d a : KReg) (s : State) : Out := maskOut d (rK s a) s

/-- LIVE loses the mask's bits; in the handler so does the LIVE that retf restores. -/
def killLanes (m : Word32) (g : Group) : Group :=
  { g with live := g.live &&& ~~~m,
           x := if g.x.sup then { g.x with liveSave := g.x.liveSave &&& ~~~m } else g.x }

def execKexit (a : KReg) (s : State) : Out :=
  .next (retire s.g.live { s with g := killLanes (rK s a) s.g })

def execKset (d : KReg) (a : SReg) (s : State) : Out := maskOut d ((rS s a).truncate 32) s
def execKget (d : SReg) (a : KReg) (s : State) : Out := scalarOut d ((rK s a).zeroExtend 64) s
def execKpopc (d : SReg) (a : KReg) (s : State) : Out :=
  scalarOut d (w64 (popcount 32 (rK s a &&& s.g.live).toNat)) s
def execKffs (d : SReg) (a : KReg) (s : State) : Out :=
  scalarOut d (w64 ((lowBitFrom 32 0 (rK s a &&& s.g.live).toNat).getD 32)) s

end Sys2Proof.Machine
end

