-- ==== Sys2Proof/Machine/Manage.lean ====
section
/-! DEFINITION. The management path: admin queues, fault rings, tenant resets and the pairing of contexts (R434, R455, R471,
R487, R492). -/
namespace Sys2Proof.Machine

def report (r : MgmtReport) (s : State) : State := { s with h := { s.h with mgmt := r :: s.h.mgmt } }

/-- ADMIN_QUEUE_CREATE: a tenant's admin queue from its control block, which is physical. -/
def adminCreate (ten qcb : Nat) (s : State) : State :=
  match readQcb .phys qcb s with
  | (.inl _, s) => report .refused s
  | (.inr (b, r), s) =>
    if qcbBad b r || decide (qcb % 64 ≠ 0) then report .refused s
    else
      let s := dropCmds (fun c => c.admin && c.queue == ten) s
      report (.created ten) { s with q := { s.q with admins := amPut s.q.admins ten (queueOfQcb 0 ten true (w64 qcb) b r) } }

def execAdminQueueCreate (s : State) : Out :=
  match s.ev with
  | some (.admin_queue_create ten qcb) => .next (adminCreate ten.toNat qcb s)
  | _ => .next s

/-- FAULT_RING_SET: the fields of the block are kept as they stand; records that wait stay in their order. -/
def faultRingSet (ten rcb : Nat) (s : State) : State :=
  match ioRead .phys rcb 64 s with
  | (.inl _, s) => report .refused s
  | (.inr b, s) =>
    if decide (rcbLog2n b < 4 ∨ rcbLog2n b > 16 ∨ rcb % 64 ≠ 0) then report .refused s
    else
      let wait := match amGet? s.q.frings ten with
        | some f => f.wait
        | none => []
      report (.created ten) { s with q := { s.q with frings := amPut s.q.frings ten { ring := ringOf (w64 rcb) b, wait := wait } } }

def execFaultRingSet (s : State) : Out :=
  match s.ev with
  | some (.fault_ring_set ten rcb) => .next (faultRingSet ten.toNat rcb s)
  | _ => .next s

/-- BOOTSTAT (R489). -/
def bootstat (s : State) : Word64 := w64 (s.h.boot.fails % 256 * 2 ^ 24 + s.h.boot.stage % 256 * 2 ^ 16 + s.h.boot.reason.toNat)

/-- What the management path reads, and what it gets (R492). -/
inductive MgmtItem where
  | bootstat | tuningPlace | lifetime
deriving DecidableEq, Repr

inductive MgmtAnswer where
  | word (v : Word64)
  | life (l : Lifetime)
deriving DecidableEq, Repr

/-- A read by the management path: it changes nothing. -/
def mgmtRead (i : MgmtItem) (s : State) : MgmtAnswer :=
  match i with
  | .bootstat => .word (bootstat s)
  | .tuningPlace => .word (w64 s.tun.place)
  | .lifetime => .life s.h.life

/-- A tenant's contexts. -/
def tenantCtxs (s : State) (ten : Nat) : List Nat := (s.ctxs.filter (fun e => e.2.tenant == ten)).map (fun e => e.1)

/-- The admin queue is empty: what it held is discarded, and CONS passes every slot read. -/
def emptyAdmin (ten : Nat) (s : State) : State :=
  match amGet? s.q.admins ten with
  | none => s
  | some q =>
    let s := dropCmds (fun c => c.admin && c.queue == ten) s
    let s := { s with q := { s.q with running := s.q.running.filter (fun i => !q.open_.contains i)
                                      preempts := s.q.preempts.filter (fun p => p.1.queue ≠ ten) } }
    let s := modQueue true ten (fun x => { x with cons := x.seen, open_ := [], parked := [], held := false, stopped := false }) s
    (ioWrite .phys (q.block.toNat + 32) 4 q.seen.toNat s).2

/-- TENANT_RESET (R471): the tenant's work is cancelled; once the cancelled commands' records are written, its contexts and
queues go, and the management path is told. DESIGN CHOICE, log 32. -/
def tenantReset (ten : Nat) (s : State) : State :=
  let cs := tenantCtxs s ten
  let live := cs.filter (fun n => match ctxOf s n with
    | some x => !x.destroying
    | none => false)
  if live ≠ [] then due (.tenant_reset (BitVec.ofNat 4 ten)) (live.foldl (fun s n => endCtx n s) s)
  else
    let s := cs.foldl (fun s n => dropCtx n s) s
    let s := { s with q := { s.q with parkedFor := s.q.parkedFor.filter (fun e => e.1.ten.toNat ≠ ten) } }
    report (.resetDone ten) (emptyAdmin ten s)

def execTenantReset (s : State) : Out :=
  match s.ev with
  | some (.tenant_reset ten) => .next (tenantReset ten.toNat s)
  | _ => .next s

/-- CONTEXT_PAIRING: one to one, one paired context on each peer device. What shared locations count already is not sent to the new
peer. DESIGN CHOICE, log 32. -/
def pairCtx (n dev peerCtx : Nat) (s : State) : State :=
  match ctxOf s n with
  | none => report .refused s
  | some _ =>
    if s.ctxs.any (fun e => e.1 != n && e.2.peers.any (fun p => p.dev == dev && p.ctx == peerCtx)) then report .refused s
    else report (.created n) (modCtx n (fun x =>
      { x with peers := x.peers.filter (fun p => p.dev != dev) ++ [{ dev := dev, ctx := peerCtx, up := peerReached s.tun dev }] }) s)

def execContextPairing (s : State) : Out :=
  match s.ev with
  | some (.context_pairing n dev peerCtx) => .next (pairCtx n dev peerCtx s)
  | _ => .next s

end Sys2Proof.Machine
end

