-- ==== Sys2Proof/Machine/Dispatch.lean ====
section
/-! DEFINITION. exec: one arm per row of the opcode table, each a direct call of the row's meaning. -/
namespace Sys2Proof.Machine

/-- The meaning of an instruction or event. DEDUCED, log 39. -/
def exec (i : Instr) (s : State) : Host.Outcome State Fault Refusal :=
  match i with
  | .sadd d a b => Sys2Proof.Machine.execSadd d a b s
  | .ssub d a b => Sys2Proof.Machine.execSsub d a b s
  | .smul d a b => Sys2Proof.Machine.execSmul d a b s
  | .smulh_s d a b => Sys2Proof.Machine.execSmulhS d a b s
  | .smulh_z d a b => Sys2Proof.Machine.execSmulhZ d a b s
  | .sdiv_s d a b => Sys2Proof.Machine.execSdivS d a b s
  | .sdiv_z d a b => Sys2Proof.Machine.execSdivZ d a b s
  | .srem_s d a b => Sys2Proof.Machine.execSremS d a b s
  | .srem_z d a b => Sys2Proof.Machine.execSremZ d a b s
  | .sand d a b => Sys2Proof.Machine.execSand d a b s
  | .sor d a b => Sys2Proof.Machine.execSor d a b s
  | .sxor d a b => Sys2Proof.Machine.execSxor d a b s
  | .sandn d a b => Sys2Proof.Machine.execSandn d a b s
  | .sshl d a b => Sys2Proof.Machine.execSshl d a b s
  | .sshr d a b => Sys2Proof.Machine.execSshr d a b s
  | .ssra d a b => Sys2Proof.Machine.execSsra d a b s
  | .srol d a b => Sys2Proof.Machine.execSrol d a b s
  | .smin_s d a b => Sys2Proof.Machine.execSminS d a b s
  | .smin_z d a b => Sys2Proof.Machine.execSminZ d a b s
  | .smax_s d a b => Sys2Proof.Machine.execSmaxS d a b s
  | .smax_z d a b => Sys2Proof.Machine.execSmaxZ d a b s
  | .sclz d a => Sys2Proof.Machine.execSclz d a s
  | .sctz d a => Sys2Proof.Machine.execSctz d a s
  | .spopc d a => Sys2Proof.Machine.execSpopc d a s
  | .sbrev d a => Sys2Proof.Machine.execSbrev d a s
  | .sbswap d a => Sys2Proof.Machine.execSbswap d a s
  | .smov d a => Sys2Proof.Machine.execSmov d a s
  | .sbfx_s d a pos len1 => Sys2Proof.Machine.execSbfxS d a pos len1 s
  | .sbfx_z d a pos len1 => Sys2Proof.Machine.execSbfxZ d a pos len1 s
  | .sbfi d a pos len1 => Sys2Proof.Machine.execSbfi d a pos len1 s
  | .scmp_eq d a b => Sys2Proof.Machine.execScmpEq d a b s
  | .scmp_ne d a b => Sys2Proof.Machine.execScmpNe d a b s
  | .scmp_lt d a b => Sys2Proof.Machine.execScmpLt d a b s
  | .scmp_le d a b => Sys2Proof.Machine.execScmpLe d a b s
  | .scmp_ltz d a b => Sys2Proof.Machine.execScmpLtz d a b s
  | .scmp_lez d a b => Sys2Proof.Machine.execScmpLez d a b s
  | .ssel d a b => Sys2Proof.Machine.execSsel d a b s
  | .sadd_imm d a im => Sys2Proof.Machine.execSaddImm d a im s
  | .sand_imm d a im => Sys2Proof.Machine.execSandImm d a im s
  | .sor_imm d a im => Sys2Proof.Machine.execSorImm d a im s
  | .sxor_imm d a im => Sys2Proof.Machine.execSxorImm d a im s
  | .sshl_imm d a im => Sys2Proof.Machine.execSshlImm d a im s
  | .sshr_imm d a im => Sys2Proof.Machine.execSshrImm d a im s
  | .ssra_imm d a im => Sys2Proof.Machine.execSsraImm d a im s
  | .sli d im => Sys2Proof.Machine.execSli d im s
  | .sfadd_code t d a c => Sys2Proof.Machine.execSfaddCode t d a c s
  | .sfmul_code t d a c => Sys2Proof.Machine.execSfmulCode t d a c s
  | .slit d o => Sys2Proof.Machine.execSlit d o s
  | .sadr d o => Sys2Proof.Machine.execSadr d o s
  | .sfadd t r d a b => Sys2Proof.Machine.execSfadd t r d a b s
  | .sfsub t r d a b => Sys2Proof.Machine.execSfsub t r d a b s
  | .sfmul t r d a b => Sys2Proof.Machine.execSfmul t r d a b s
  | .sfdiv t r d a b => Sys2Proof.Machine.execSfdiv t r d a b s
  | .sfsqrt t r d a => Sys2Proof.Machine.execSfsqrt t r d a s
  | .sfma t r d a b c => Sys2Proof.Machine.execSfma t r d a b c s
  | .sfcvt dst src r d a => Sys2Proof.Machine.execSfcvt dst src r d a s
  | .sfcmp c t d a b => Sys2Proof.Machine.execSfcmp c t d a b s
  | .b o => Sys2Proof.Machine.execB o s
  | .bz a o => Sys2Proof.Machine.execBz a o s
  | .bnz a o => Sys2Proof.Machine.execBnz a o s
  | .bc_lt a o => Sys2Proof.Machine.execBcLt a o s
  | .bc_ge a o => Sys2Proof.Machine.execBcGe a o s
  | .bc_gt a o => Sys2Proof.Machine.execBcGt a o s
  | .bc_le a o => Sys2Proof.Machine.execBcLe a o s
  | .bk_any k o => Sys2Proof.Machine.execBkAny k o s
  | .bk_all k o => Sys2Proof.Machine.execBkAll k o s
  | .bk_none k o => Sys2Proof.Machine.execBkNone k o s
  | .call o => Sys2Proof.Machine.execCall o s
  | .bx a => Sys2Proof.Machine.execBx a s
  | .ret => Sys2Proof.Machine.execRet s
  | .sloop a o => Sys2Proof.Machine.execSloop a o s
  | .nop => Sys2Proof.Machine.execNop s
  | .yield => Sys2Proof.Machine.execYield s
  | .sleep a => Sys2Proof.Machine.execSleep a s
  | .exit => Sys2Proof.Machine.execExit s
  | .kand d a b => Sys2Proof.Machine.execKand d a b s
  | .kor d a b => Sys2Proof.Machine.execKor d a b s
  | .kxor d a b => Sys2Proof.Machine.execKxor d a b s
  | .kandn d a b => Sys2Proof.Machine.execKandn d a b s
  | .knot d a => Sys2Proof.Machine.execKnot d a s
  | .kmov d a => Sys2Proof.Machine.execKmov d a s
  | .kexit a => Sys2Proof.Machine.execKexit a s
  | .kset d a => Sys2Proof.Machine.execKset d a s
  | .kget d a => Sys2Proof.Machine.execKget d a s
  | .kpopc d a => Sys2Proof.Machine.execKpopc d a s
  | .kffs d a => Sys2Proof.Machine.execKffs d a s
  | .vadd w o => Sys2Proof.Machine.execVadd w o s
  | .vsub w o => Sys2Proof.Machine.execVsub w o s
  | .vadds_s w o => Sys2Proof.Machine.execVaddsS w o s
  | .vadds_z w o => Sys2Proof.Machine.execVaddsZ w o s
  | .vsubs_s w o => Sys2Proof.Machine.execVsubsS w o s
  | .vsubs_z w o => Sys2Proof.Machine.execVsubsZ w o s
  | .vmul w o => Sys2Proof.Machine.execVmul w o s
  | .vmulh_s w o => Sys2Proof.Machine.execVmulhS w o s
  | .vmulh_z w o => Sys2Proof.Machine.execVmulhZ w o s
  | .vmad w o c => Sys2Proof.Machine.execVmad w o c s
  | .vand o => Sys2Proof.Machine.execVand o s
  | .vor o => Sys2Proof.Machine.execVor o s
  | .vxor o => Sys2Proof.Machine.execVxor o s
  | .vandn o => Sys2Proof.Machine.execVandn o s
  | .vshl w o => Sys2Proof.Machine.execVshl w o s
  | .vshr w o => Sys2Proof.Machine.execVshr w o s
  | .vsra w o => Sys2Proof.Machine.execVsra w o s
  | .vmin_s w o => Sys2Proof.Machine.execVminS w o s
  | .vmin_z w o => Sys2Proof.Machine.execVminZ w o s
  | .vmax_s w o => Sys2Proof.Machine.execVmaxS w o s
  | .vmax_z w o => Sys2Proof.Machine.execVmaxZ w o s
  | .vcmp c w kd a b k => Sys2Proof.Machine.execVcmp c w kd a b k s
  | .vnot o => Sys2Proof.Machine.execVnot o s
  | .vabs w o => Sys2Proof.Machine.execVabs w o s
  | .vneg w o => Sys2Proof.Machine.execVneg w o s
  | .vclz w o => Sys2Proof.Machine.execVclz w o s
  | .vpopc w o => Sys2Proof.Machine.execVpopc w o s
  | .vmov o => Sys2Proof.Machine.execVmov o s
  | .viota w d k => Sys2Proof.Machine.execViota w d k s
  | .vli d v k => Sys2Proof.Machine.execVli d v k s
  | .vbfx_s w o pos len1 => Sys2Proof.Machine.execVbfxS w o pos len1 s
  | .vbfx_z w o pos len1 => Sys2Proof.Machine.execVbfxZ w o pos len1 s
  | .vbfi w o pos len1 => Sys2Proof.Machine.execVbfi w o pos len1 s
  | .vsel o c => Sys2Proof.Machine.execVsel o c s
  | .vfadd t r o => Sys2Proof.Machine.execVfadd t r o s
  | .vfsub t r o => Sys2Proof.Machine.execVfsub t r o s
  | .vfmul t r o => Sys2Proof.Machine.execVfmul t r o s
  | .vfdiv t r o => Sys2Proof.Machine.execVfdiv t r o s
  | .vfma t r o c => Sys2Proof.Machine.execVfma t r o c s
  | .vfms t r o c => Sys2Proof.Machine.execVfms t r o c s
  | .vfnma t r o c => Sys2Proof.Machine.execVfnma t r o c s
  | .vfnms t r o c => Sys2Proof.Machine.execVfnms t r o c s
  | .vfmin t o => Sys2Proof.Machine.execVfmin t o s
  | .vfmax t o => Sys2Proof.Machine.execVfmax t o s
  | .vfminnum t o => Sys2Proof.Machine.execVfminnum t o s
  | .vfmaxnum t o => Sys2Proof.Machine.execVfmaxnum t o s
  | .vfcpys t o => Sys2Proof.Machine.execVfcpys t o s
  | .vfcmp c t kd a b k => Sys2Proof.Machine.execVfcmp c t kd a b k s
  | .vfabs t o => Sys2Proof.Machine.execVfabs t o s
  | .vfneg t o => Sys2Proof.Machine.execVfneg t o s
  | .vfsqrt t r o => Sys2Proof.Machine.execVfsqrt t r o s
  | .vfrcp t r o => Sys2Proof.Machine.execVfrcp t r o s
  | .vfrsq t r o => Sys2Proof.Machine.execVfrsq t r o s
  | .vfexp2 t r o => Sys2Proof.Machine.execVfexp2 t r o s
  | .vflog2 t r o => Sys2Proof.Machine.execVflog2 t r o s
  | .vfsinpi t r o => Sys2Proof.Machine.execVfsinpi t r o s
  | .vfcospi t r o => Sys2Proof.Machine.execVfcospi t r o s
  | .vftanh t r o => Sys2Proof.Machine.execVftanh t r o s
  | .vfrnd t r o => Sys2Proof.Machine.execVfrnd t r o s
  | .vfclass t o => Sys2Proof.Machine.execVfclass t o s
  | .vfcvt dst src nsat r o part q seg sc => Sys2Proof.Machine.execVfcvt dst src nsat r o part q seg sc s
  | .vfdot2 t r o c => Sys2Proof.Machine.execVfdot2 t r o c s
  | .vfscale t r o => Sys2Proof.Machine.execVfscale t r o s
  | .vshf_o w o sg => Sys2Proof.Machine.execVshfO w o sg s
  | .vshf_w w o sg => Sys2Proof.Machine.execVshfW w o sg s
  | .vshf_c w o sg => Sys2Proof.Machine.execVshfC w o sg s
  | .vnbr f w o dist => Sys2Proof.Machine.execVnbr f w o dist s
  | .vbcast w o b sg => Sys2Proof.Machine.execVbcast w o b sg s
  | .vvote f o => Sys2Proof.Machine.execVvote f o s
  | .vred f t r o => Sys2Proof.Machine.execVred f t r o s
  | .vscan_inc f t r o c => Sys2Proof.Machine.execVscanInc f t r o c s
  | .vscan_exc f t r o c => Sys2Proof.Machine.execVscanExc f t r o c s
  | .vperm o c => Sys2Proof.Machine.execVperm o c s
  | .vpack w sat o => Sys2Proof.Machine.execVpack w sat o s
  | .vunpk w sx part o => Sys2Proof.Machine.execVunpk w sx part o s
  | .vxshf o b => Sys2Proof.Machine.execVxshf o b s
  | .ld_s d a w sx off q => Sys2Proof.Machine.execLdS d a w sx off q s
  | .st_s d a w off q => Sys2Proof.Machine.execStS d a w off q s
  | .ld_v d a k off q => Sys2Proof.Machine.execLdV d a k off q s
  | .st_v d a k off q => Sys2Proof.Machine.execStV d a k off q s
  | .ld_g d a w sx k off q => Sys2Proof.Machine.execLdG d a w sx k off q s
  | .st_g d a w k off q => Sys2Proof.Machine.execStG d a w k off q s
  | .ld_x am d a w sx k off q => Sys2Proof.Machine.execLdX am d a w sx k off q s
  | .st_x am d a w k off q => Sys2Proof.Machine.execStX am d a w k off q s
  | .pf l2 lanes a k off => Sys2Proof.Machine.execPf l2 lanes a k off s
  | .at_s o d a b c => Sys2Proof.Machine.execAtS o d a b c s
  | .at_g o d a b c k => Sys2Proof.Machine.execAtG o d a b c k s
  | .at_x am o d a b c k => Sys2Proof.Machine.execAtX am o d a b c k s
  | .fence kind scope => Sys2Proof.Machine.execFence kind scope s
  | .cwb a b => Sys2Proof.Machine.execCwb a b s
  | .cinv a b => Sys2Proof.Machine.execCinv a b s
  | .smap d a b c => Sys2Proof.Machine.execSmap d a b c s
  | .sunmap d a => Sys2Proof.Machine.execSunmap d a s
  | .cpy dir d a n r => Sys2Proof.Machine.execCpy dir d a n r s
  | .cpyt_ld d a b => Sys2Proof.Machine.execCpytLd d a b s
  | .cpyt_st d a b => Sys2Proof.Machine.execCpytSt d a b s
  | .cpym sx d a b r => Sys2Proof.Machine.execCpym sx d a b r s
  | .cpyg d a b r => Sys2Proof.Machine.execCpyg d a b r s
  | .bbinit a b => Sys2Proof.Machine.execBbinit a b s
  | .bbexp a b => Sys2Proof.Machine.execBbexp a b s
  | .bbseal a => Sys2Proof.Machine.execBbseal a s
  | .bbwait d a b => Sys2Proof.Machine.execBbwait d a b s
  | .waitc ld st cp mx => Sys2Proof.Machine.execWaitc ld st cp mx s
  | .waitp c a => Sys2Proof.Machine.execWaitp c a s
  | .qpush v => Sys2Proof.Machine.execQpush v s
  | .qpop v => Sys2Proof.Machine.execQpop v s
  | .qstat d => Sys2Proof.Machine.execQstat d s
  | .tidset v t => Sys2Proof.Machine.execTidset v t s
  | .tidget v t => Sys2Proof.Machine.execTidget v t s
  | .mxzero a => Sys2Proof.Machine.execMxzero a s
  | .mxstep a t c f => Sys2Proof.Machine.execMxstep a t c f s
  | .mxloop a t c n f => Sys2Proof.Machine.execMxloop a t c n f s
  | .mxfence d => Sys2Proof.Machine.execMxfence d s
  | .mxwait a => Sys2Proof.Machine.execMxwait a s
  | .lda v a k => Sys2Proof.Machine.execLda v a k s
  | .sta v a k => Sys2Proof.Machine.execSta v a k s
  | .bar_arr d b => Sys2Proof.Machine.execBarArr d b s
  | .bar_wait a b => Sys2Proof.Machine.execBarWait a b s
  | .bar_setm a b => Sys2Proof.Machine.execBarSetm a b s
  | .fwait_pass d a b => Sys2Proof.Machine.execFwaitPass d a b s
  | .fwait_reach d a b => Sys2Proof.Machine.execFwaitReach d a b s
  | .pinc a b c => Sys2Proof.Machine.execPinc a b c s
  | .pdec a b c => Sys2Proof.Machine.execPdec a b c s
  | .pmove a b c => Sys2Proof.Machine.execPmove a b c s
  | .wemit v b k => Sys2Proof.Machine.execWemit v b k s
  | .wsend v a b k => Sys2Proof.Machine.execWsend v a b k s
  | .wclose k => Sys2Proof.Machine.execWclose k s
  | .winfo d k => Sys2Proof.Machine.execWinfo d k s
  | .launch_child d a => Sys2Proof.Machine.execLaunchChild d a s
  | .jobput d a => Sys2Proof.Machine.execJobput d a s
  | .wait_v d a b => Sys2Proof.Machine.execWaitV d a b s
  | .wake a => Sys2Proof.Machine.execWake a s
  | .bow_get d => Sys2Proof.Machine.execBowGet d s
  | .bow_pass => Sys2Proof.Machine.execBowPass s
  | .safe im => Sys2Proof.Machine.execSafe im s
  | .sigchk im => Sys2Proof.Machine.execSigchk im s
  | .sigrd d => Sys2Proof.Machine.execSigrd d s
  | .trap im => Sys2Proof.Machine.execTrap im s
  | .bkpt im => Sys2Proof.Machine.execBkpt im s
  | .retf => Sys2Proof.Machine.execRetf s
  | .mappg d a b => Sys2Proof.Machine.execMappg d a b s
  | .unmappg d a => Sys2Proof.Machine.execUnmappg d a s
  | .rgrel a b => Sys2Proof.Machine.execRgrel a b s
  | .tunack d a => Sys2Proof.Machine.execTunack d a s
  | .scan_run d a b => Sys2Proof.Machine.execScanRun d a b s
  | .srd d g => Sys2Proof.Machine.execSrd d g s
  | .swr a g => Sys2Proof.Machine.execSwr a g s
  | .ill w => Sys2Proof.Machine.execIll w s
  | .parked_fault_delivery => Sys2Proof.Machine.execParkedFaultDelivery s
  | .eccu_delivery => Sys2Proof.Machine.execEccuDelivery s
  | .park => Sys2Proof.Machine.execPark s
  | .copy_progress => Sys2Proof.Machine.execCopyProgress s
  | .barrier_update => Sys2Proof.Machine.execBarrierUpdate s
  | .matrix_step => Sys2Proof.Machine.execMatrixStep s
  | .transfer_finish => Sys2Proof.Machine.execTransferFinish s
  | .rds => Sys2Proof.Machine.execRds s
  | .rego => Sys2Proof.Machine.execRego s
  | .wt => Sys2Proof.Machine.execWt s
  | .wb => Sys2Proof.Machine.execWb s
  | .atom => Sys2Proof.Machine.execAtom s
  | .fwdrd => Sys2Proof.Machine.execFwdrd s
  | .rvk => Sys2Proof.Machine.execRvk s
  | .fill => Sys2Proof.Machine.execFill s
  | .fwddata => Sys2Proof.Machine.execFwddata s
  | .rvkdata => Sys2Proof.Machine.execRvkdata s
  | .atomrsp => Sys2Proof.Machine.execAtomrsp s
  | .regack => Sys2Proof.Machine.execRegack s
  | .wtack => Sys2Proof.Machine.execWtack s
  | .wback => Sys2Proof.Machine.execWback s
  | .retry => Sys2Proof.Machine.execRetry s
  | .region_home_lookup => Sys2Proof.Machine.execRegionHomeLookup s
  | .refused_message_reoffer => Sys2Proof.Machine.execRefusedMessageReoffer s
  | .memrd => Sys2Proof.Machine.execMemrd s
  | .memwr => Sys2Proof.Machine.execMemwr s
  | .birsp => Sys2Proof.Machine.execBirsp s
  | .biconflict => Sys2Proof.Machine.execBiconflict s
  | .snpdata => Sys2Proof.Machine.execSnpdata s
  | .snpinv => Sys2Proof.Machine.execSnpinv s
  | .snpcur => Sys2Proof.Machine.execSnpcur s
  | .cxl_cache_data => Sys2Proof.Machine.execCxlCacheData s
  | .expander_memrd_data => Sys2Proof.Machine.execExpanderMemrdData s
  | .batch => Sys2Proof.Machine.execBatch s
  | .frontier_announcement => Sys2Proof.Machine.execFrontierAnnouncement s
  | .fret_forward => Sys2Proof.Machine.execFretForward s
  | .batch_acknowledgement => Sys2Proof.Machine.execBatchAcknowledgement s
  | .peer_flit => Sys2Proof.Machine.execPeerFlit s
  | .peer_batch => Sys2Proof.Machine.execPeerBatch s
  | .peer_batch_ack => Sys2Proof.Machine.execPeerBatchAck s
  | .link_retrain => Sys2Proof.Machine.execLinkRetrain s
  | .exchange_restore => Sys2Proof.Machine.execExchangeRestore s
  | .window_engine_step => Sys2Proof.Machine.execWindowEngineStep s
  | .window_group_start => Sys2Proof.Machine.execWindowGroupStart s
  | .window_group_timeout => Sys2Proof.Machine.execWindowGroupTimeout s
  | .peg_load => Sys2Proof.Machine.execPegLoad s
  | .team_start => Sys2Proof.Machine.execTeamStart s
  | .part_start => Sys2Proof.Machine.execPartStart s
  | .part_exit => Sys2Proof.Machine.execPartExit s
  | .job_chunk_deal => Sys2Proof.Machine.execJobChunkDeal s
  | .bow_receive => Sys2Proof.Machine.execBowReceive s
  | .urgent => Sys2Proof.Machine.execUrgent s
  | .yield_expiry => Sys2Proof.Machine.execYieldExpiry s
  | .sleep_expiry => Sys2Proof.Machine.execSleepExpiry s
  | .vnbr_timeout => Sys2Proof.Machine.execVnbrTimeout s
  | .vxshf_timeout => Sys2Proof.Machine.execVxshfTimeout s
  | .forced_save => Sys2Proof.Machine.execForcedSave s
  | .tuning_event => Sys2Proof.Machine.execTuningEvent s
  | .tune_deadline => Sys2Proof.Machine.execTuneDeadline s
  | .scan_pattern_start => Sys2Proof.Machine.execScanPatternStart s
  | .scan_compare => Sys2Proof.Machine.execScanCompare s
  | .pair_mismatch => Sys2Proof.Machine.execPairMismatch s
  | .patrol_scrub => Sys2Proof.Machine.execPatrolScrub s
  | .fault_record => Sys2Proof.Machine.execFaultRecord s
  | .completion_record => Sys2Proof.Machine.execCompletionRecord s
  | .doorbell => Sys2Proof.Machine.execDoorbell s
  | .launch => Sys2Proof.Machine.execLaunch s
  | .job => Sys2Proof.Machine.execJob s
  | .stream_put => Sys2Proof.Machine.execStreamPut s
  | .stream_advance => Sys2Proof.Machine.execStreamAdvance s
  | .wait_stamp => Sys2Proof.Machine.execWaitStamp s
  | .signal => Sys2Proof.Machine.execSignal s
  | .xfer => Sys2Proof.Machine.execXfer s
  | .pin => Sys2Proof.Machine.execPin s
  | .tune_ack => Sys2Proof.Machine.execTuneAck s
  | .ctx_create => Sys2Proof.Machine.execCtxCreate s
  | .ctx_destroy => Sys2Proof.Machine.execCtxDestroy s
  | .q_create => Sys2Proof.Machine.execQCreate s
  | .q_destroy => Sys2Proof.Machine.execQDestroy s
  | .stream_reset => Sys2Proof.Machine.execStreamReset s
  | .park_resume => Sys2Proof.Machine.execParkResume s
  | .preempt => Sys2Proof.Machine.execPreempt s
  | .resume => Sys2Proof.Machine.execResume s
  | .checkpoint => Sys2Proof.Machine.execCheckpoint s
  | .start => Sys2Proof.Machine.execStart s
  | .start_watchdog => Sys2Proof.Machine.execStartWatchdog s
  | .fails_clear => Sys2Proof.Machine.execFailsClear s
  | .admin_queue_create => Sys2Proof.Machine.execAdminQueueCreate s
  | .fault_ring_set => Sys2Proof.Machine.execFaultRingSet s
  | .tenant_reset => Sys2Proof.Machine.execTenantReset s
  | .context_pairing => Sys2Proof.Machine.execContextPairing s
  | .get_version => Sys2Proof.Machine.execGetVersion s
  | .get_capabilities => Sys2Proof.Machine.execGetCapabilities s
  | .negotiate_algorithms => Sys2Proof.Machine.execNegotiateAlgorithms s
  | .get_digests => Sys2Proof.Machine.execGetDigests s
  | .get_certificate => Sys2Proof.Machine.execGetCertificate s
  | .challenge => Sys2Proof.Machine.execChallenge s
  | .get_measurements => Sys2Proof.Machine.execGetMeasurements s
  | .base_die_reply => Sys2Proof.Machine.execBaseDieReply s
  | .host_port_completion => Sys2Proof.Machine.execHostPortCompletion s
  | .pcie_host_access => Sys2Proof.Machine.execPcieHostAccess s
  | .checkpoint_stream_end => Sys2Proof.Machine.execCheckpointStreamEnd s

end Sys2Proof.Machine
end

