-- ==== Sys2Proof/Machine/Resume.lean ====
section
/-! DEFINITION. Resumption: a saved team of a runnable context is placed again and goes on (R111, R155, R461). -/
namespace Sys2Proof.Machine

/-- The entry-table row and clusters of a saved team's work: none where its work is gone. -/
def teamRow (s : State) (team : Nat) (t : Team) : Option (EntryRow × BitVec 8) :=
  if t.isJob then (amGet? s.d.cards t.grid).map (fun c => (jobRow c.row, c.cmask))
  else match (allGroups s).find? (fun g => g.idn.team == team && g.idn.kind == .window) with
    | some g => (match streamOf s t.ctx g.idn.work with
      | some d => some (winRow s t.ctx d.desc (entryAddr d.desc g.w.kind), 0)
      | none => none)
    | none => (amGet? s.d.grids t.grid).map (fun g => (g.row, g.cmask))

/-- The parts of a team that have not left, by index. -/
def partsHere (t : Team) : List Nat := (t.parts.zipIdx.filter (fun p => !p.1.left)).map (fun p => p.2)

/-- Whether a team is a window group's. -/
def isWindowTeam (s : State) (team : Nat) : Bool := (allGroups s).any (fun g => g.idn.team == team && g.idn.kind == .window)

/-- The cluster of a window group's engine: its own, or where that has been removed the one that its first lane's window has moved to
(R220, R470). -/
def engineCluster (s : State) (team : Nat) (t : Team) : Nat :=
  if clusterLive s.tun t.cluster then t.cluster
  else match (teamGroups s team).findSome? (fun g => g.w.lanes.findSome? (fun l => winOf s l.win)) with
    | some w => w.cluster
    | none => t.cluster

/-- Where a saved team goes: on its engine's cluster for a window group, and elsewhere as R447 places teams. -/
def resumePlace (s : State) (team : Nat) (t : Team) : Option (EntryRow × Nat × List Nat) :=
  match teamRow s team t with
  | none => none
  | some (r, m) =>
    if isWindowTeam s team then
      let cl := engineCluster s team t
      (winCore s cl r).map (fun c => (r, cl, [c]))
    else (placeParts s r m (if t.isJob then [] else gridAvoid s t.grid) (partsHere t).length).map (fun p => (r, p.1, p.2))

/-- Whether a saved team is to go on: an event has come up that a group of it awaits, where the scheduler saved it, or it has the bow
(R194, R450), and no record of a fault of its groups waits for its ring (R455). -/
def wantsResume (s : State) (team : Nat) (t : Team) : Bool :=
  t.saved && ctxRuns s t.ctx && (!t.swapped || t.bow == .holds || (teamGroups s team).any (fun g => g.woken))
    && !(teamGroups s team).any (fun g => recordWaits s (recordOf s g))

/-- Whether a team can be resumed now: there is room, and no fill of the cores is under way (R155). -/
def canResume (s : State) (team : Nat) (t : Team) : Bool := wantsResume s team t && (match resumePlace s team t with
  | some (_, _, cores) => cores.all (fun c => !coreFilling s c)
  | none => false)

/-- What a group does when it is resumed: it waits for its part's start, stays at its breakpoint, or runs. DESIGN CHOICE, log 32. -/
def resumedAs (s : State) (starting : Bool) (g : Group) : GStatus :=
  if starting then .starting
  else if s.q.parkedFor.any (fun e => e.2 == .brk g.idn.gid) then .stopped
  else .running

/-- A part's groups take slots of its core, one after the other. -/
def seatGroups (core : Nat) (starting : Bool) (gids : List Nat) (s : State) : State :=
  gids.foldl (fun s gid =>
    let slot := freeSlot s core
    modGroup gid (fun g => { g with status := resumedAs s starting g, saveWay := .boundary, posn := none, watch := none, rdy := s.tick, idn := { g.idn with core := core, slot := slot } }) s) s

/-- The scratchpad image of a part comes back. -/
def putImage (t : Team) (p core base : Nat) (e : PartEnt) (s : State) : State :=
  let cells := t.image.filter (fun c => decide (p * 2 ^ 19 ≤ c.1 ∧ c.1 < p * 2 ^ 19 + e.size * 4096))
  let lo := sramKey core (base * 4096)
  let m := cells.foldl (fun m c => cellPut m (lo + (c.1 - p * 2 ^ 19)) c.2) (cellClear s.m.sram lo (e.size * 4096))
  let bad := t.imagePoison.filter (fun c => decide (p * 2 ^ 19 ≤ c.1 ∧ c.1 < p * 2 ^ 19 + e.size * 4096))
  let b := bad.foldl (fun m c => cellPut m (lo + (c.1 - p * 2 ^ 19)) c.2) (cellClear s.m.srPoison lo (e.size * 4096))
  { s with m := { s.m with sram := m, srPoison := b } }

/-- What a core's L1 holds of a team's stash maps of a part leaves it, as smap's flush: the maps serve those sectors (R96, R97). -/
def flushMaps (core p : Nat) (t : Team) (s : State) : State :=
  let maps := t.savedMaps.filter (fun m => m.part == p)
  if maps = [] then s
  else flushWhere core (fun _ x => x.ctx == t.ctx && maps.any (fun m => decide (m.va / 128 ≤ x.vsec ∧ x.vsec < (m.va + m.size) / 128))) s

/-- The copy commands of a resumed team are reissued: one whose scratch ranges fail their check parks at its DONE (R111). -/
def reissue (team : Nat) (s : State) : State :=
  match teamOf s team with
  | none => s
  | some t =>
    (teamGroups s team).foldl (fun s g => (g.n.cps.filter (fun c => !c.finished && !c.parked)).foldl (fun s c =>
      match reissueFails t g.idn.part c with
      | some (f, va, w) => parkCmd false g.idn.gid c.slot (engCode f w false c.slot) (w64 va) s
      | none => s) s) s

/-- One part of a resumed team, as an acquire at .dev. Its staged entries all come back, whatever its core's buffer holds. DESIGN CHOICE, log 16. -/
def seatPart (team : Nat) (t : Team) (s : State) (x : Nat × Nat) : State :=
  let core := x.1
  let p := x.2
  match partEnt t p with
  | none => s
  | some e =>
    let rb := (roomOn s core e.size).getD (256, 0)
    let s := setSplit core rb.1 s
    let s := putImage t p core rb.2 e s
    let s := modPart team p (fun y => { y with core := core % 256, base := rb.2 }) s
    let gids := ((allGroups s).filter (fun g => g.idn.team == team && g.idn.part == p && g.status == .saved)).map (fun g => g.idn.gid)
    let s := seatGroups core e.st gids s
    let es := t.staged.filter (fun y => y.part == p)
    let c := coreOf s core
    let s := setCore core { c with stage := c.stage ++ es } s
    let s := selfInvalidate core (flushMaps core p t s)
    if e.st then due (.part_start team p) s else s

/-- A saved team goes on: its scratchpads, staged entries and stash maps, every word of them I, are back (R461). DESIGN CHOICE, log 16. -/
def resumeTeam (team : Nat) (s : State) : State :=
  match teamOf s team with
  | none => s
  | some t => match resumePlace s team t with
    | none => s
    | some (_, cl, cores) =>
      let s := modTeam team (fun x => { x with cluster := cl, saved := false, swapped := false, image := [], imagePoison := [], savedMaps := [], staged := [], stash := t.savedMaps }) s
      let s := reissue team ((cores.zip (partsHere t)).foldl (seatPart team t) s)
      if t.bow = .holds ∧ !t.drained then due .bow_receive s else s

end Sys2Proof.Machine
end

