-- ==== Sys2Proof/Machine/Sched.lean ====
section
/-! DEFINITION. What the device does next: the event at the head of the agenda, a delivery at an instruction boundary, or
the next instruction of a ready group (R43, R192, R265, R451). -/
namespace Sys2Proof.Machine

/-- The opcode-table row of an event. DESIGN CHOICE, log 36. DEDUCED, log 39. -/
def rowOf : Event → Instr
  | .parked_fault_delivery => .parked_fault_delivery
  | .eccu_delivery => .eccu_delivery
  | .park .. => .park
  | .copy_progress .. => .copy_progress
  | .barrier_update .. => .barrier_update
  | .matrix_step .. => .matrix_step
  | .transfer_finish .. => .transfer_finish
  | .rds .. => .rds
  | .rego .. => .rego
  | .wt .. => .wt
  | .wb .. => .wb
  | .atom .. => .atom
  | .fwdrd .. => .fwdrd
  | .rvk .. => .rvk
  | .fill .. => .fill
  | .fwddata .. => .fwddata
  | .rvkdata .. => .rvkdata
  | .atomrsp .. => .atomrsp
  | .regack .. => .regack
  | .wtack .. => .wtack
  | .wback .. => .wback
  | .retry .. => .retry
  | .region_home_lookup .. => .region_home_lookup
  | .refused_message_reoffer => .refused_message_reoffer
  | .memrd .. => .memrd
  | .memwr .. => .memwr
  | .birsp .. => .birsp
  | .biconflict .. => .biconflict
  | .snpdata .. => .snpdata
  | .snpinv .. => .snpinv
  | .snpcur .. => .snpcur
  | .cxl_cache_data .. => .cxl_cache_data
  | .expander_memrd_data .. => .expander_memrd_data
  | .batch .. => .batch
  | .frontier_announcement .. => .frontier_announcement
  | .fret_forward .. => .fret_forward
  | .batch_acknowledgement .. => .batch_acknowledgement
  | .peer_flit .. => .peer_flit
  | .peer_batch .. => .peer_batch
  | .peer_batch_ack .. => .peer_batch_ack
  | .link_retrain .. => .link_retrain
  | .exchange_restore .. => .exchange_restore
  | .window_engine_step .. => .window_engine_step
  | .window_group_start .. => .window_group_start
  | .window_group_timeout .. => .window_group_timeout
  | .peg_load .. => .peg_load
  | .team_start .. => .team_start
  | .part_start .. => .part_start
  | .part_exit .. => .part_exit
  | .job_chunk_deal .. => .job_chunk_deal
  | .bow_receive => .bow_receive
  | .urgent .. => .urgent
  | .yield_expiry .. => .yield_expiry
  | .sleep_expiry .. => .sleep_expiry
  | .vnbr_timeout .. => .vnbr_timeout
  | .vxshf_timeout .. => .vxshf_timeout
  | .forced_save .. => .forced_save
  | .tuning_event .. => .tuning_event
  | .tune_deadline .. => .tune_deadline
  | .scan_pattern_start .. => .scan_pattern_start
  | .scan_compare .. => .scan_compare
  | .pair_mismatch .. => .pair_mismatch
  | .patrol_scrub .. => .patrol_scrub
  | .fault_record .. => .fault_record
  | .completion_record .. => .completion_record
  | .doorbell .. => .doorbell
  | .launch .. => .launch
  | .job .. => .job
  | .stream_put .. => .stream_put
  | .stream_advance .. => .stream_advance
  | .wait_stamp .. => .wait_stamp
  | .signal .. => .signal
  | .xfer .. => .xfer
  | .pin .. => .pin
  | .tune_ack .. => .tune_ack
  | .ctx_create .. => .ctx_create
  | .ctx_destroy .. => .ctx_destroy
  | .q_create .. => .q_create
  | .q_destroy .. => .q_destroy
  | .stream_reset .. => .stream_reset
  | .park_resume .. => .park_resume
  | .preempt .. => .preempt
  | .resume .. => .resume
  | .checkpoint .. => .checkpoint
  | .start .. => .start
  | .start_watchdog => .start_watchdog
  | .fails_clear => .fails_clear
  | .admin_queue_create .. => .admin_queue_create
  | .fault_ring_set .. => .fault_ring_set
  | .tenant_reset .. => .tenant_reset
  | .context_pairing .. => .context_pairing
  | .get_version => .get_version
  | .get_capabilities => .get_capabilities
  | .negotiate_algorithms => .negotiate_algorithms
  | .get_digests => .get_digests
  | .get_certificate .. => .get_certificate
  | .challenge .. => .challenge
  | .get_measurements .. => .get_measurements
  | .base_die_reply .. => .base_die_reply
  | .host_port_completion .. => .host_port_completion
  | .pcie_host_access .. => .pcie_host_access
  | .checkpoint_stream_end .. => .checkpoint_stream_end

/-- The next thing: an instruction or event to execute from a state, or a state in which nothing further happens. -/
inductive Next where
  | run (i : Instr) (s : State)
  | stay (s : State)

/-- An event comes up. -/
def runEvent (e : Event) (s : State) : Next := .run (rowOf e) { s with ev := some e }

/-- The word at the group's pc as an instruction: fetched whole, then decoded (R265, R283); lines that the host may have
written are snooped first (R75). -/
def runInstr (s : State) : Next :=
  if fetchSnoops s ≠ [] then .stay (waitSnoops (fetchSnoops s) s)
  else match fetch s with
  | .error e => .stay (raiseW (fetchFlt e) (fltWalk (fetchFlt e) s))
  | .ok (ws, s') =>
    let s' := { s' with ir := { w0 := ws.headD 0, len := 4 * ws.length } }
    match decode ws with
    | .error _ => .stay (raiseI fILLOP s')
    -- a replay that covers no lane (R310) completes the instruction with what it does for no lane: its acquire, its unit
    | .ok (i, _) => .run i s'

/-- Whether a group stands at an instruction: it runs, waits, sleeps or yields. -/
def takesPart (g : Group) : Bool := g.status == .running || g.status == .waiting || g.status == .sleeping || g.status == .yielded

/-- Whether a parked fault, or one of a stash's write-back, is to be delivered to the group at this boundary: not between the parts
of an access that the host port serves, nor once its forced save is due (R27, R43, R45, R459). -/
def parkDue (g : Group) : Bool :=
  !g.halt && !(g.n.parkQ.isEmpty && g.x.backFlts.isEmpty) && !g.x.sup && g.x.replay.isNone && g.hostDue == 0 && g.hostVals.isEmpty && takesPart g

/-- A ready group's claim to the next issue (R451): urgent first, oldest of those; else the highest priority, oldest first.
True when g goes before h. DESIGN CHOICE, log 12. -/
def goesBefore (g h : Group) : Bool :=
  if g.urgent != h.urgent then g.urgent
  else if !g.urgent && g.idn.pri ≠ h.idn.pri then decide (h.idn.pri < g.idn.pri)
  else if g.rdy ≠ h.rdy then decide (g.rdy < h.rdy)
  else decide (g.idn.slot < h.idn.slot)

/-- Whether a group can issue: one whose forced save is due only goes on with an access that the host port serves (R459). -/
def ready (g : Group) : Bool := g.status == .running && (!g.halt || g.hostDue != 0 || !g.hostVals.isEmpty)

/-- The ready group that issues next, if any group other than the one at issue goes before it. -/
def pickFrom (best : Option Group) : List Group → Option Group
  | [] => best
  | h :: t =>
    if ready h then
      match best with
      | none => pickFrom (some h) t
      | some g => pickFrom (some (if goesBefore h g then h else g)) t
    else pickFrom best t

/-- The timeout that ends first. DESIGN CHOICE, log 8. -/
def firstTimer : List (Nat × Event) → Option (Nat × Event)
  | [] => none
  | t :: ts => match firstTimer ts with
    | none => some t
    | some u => some (if t.1 ≤ u.1 then t else u)

/-- A timeout comes up. DESIGN CHOICE, log 8. -/
def runTimer (t : Nat × Event) (s : State) : Next :=
  runEvent t.2 { s with timers := s.timers.erase t, tick := Nat.max s.tick t.1 }

end Sys2Proof.Machine
end

