-- ==== Sys2Proof/Machine/Device.lean ====
section
/-! DEFINITION. The order of a device step: due events, start-up, timeouts, then one of the agents that could act: the
command processor, the engines, the dispatchers, or a group (R43, R84, R306, R443, R447, R448, R451). -/
namespace Sys2Proof.Machine

/-! ### Agents that work by themselves -/

/-- What an agent can do now: an event, the completion of a group's oldest load, the resumption of a team, the release of what the
homes hold, or the pair run of a core. -/
inductive Job where
  | event (e : Event)
  | loads (gid : Nat)
  | swap (team : Nat)
  | resume (team : Nat)
  | release
  | pair (core : Nat)
deriving DecidableEq, Repr

/-- The copy command of a group that moves next. -/
def copyJobs (s : State) : List Job :=
  (allGroups s).filterMap (fun g => (g.n.cps.find? (copyReady s g)).map (fun c => Job.event (.copy_progress g.idn.gid c.slot 256)))

/-- Whether a matrix command can take its step, or has snoops to send for it. -/
def mxMoves (s : State) (g : Group) (c : MxCmd) : Bool :=
  !c.parked && groupRuns g && storesDone g c.born && (match mxApply s g c g.tiles with
    | .wait _ s' => decide (s'.m.biPend.length ≠ s.m.biPend.length)
    | _ => true)

/-- The groups with loads whose units have not completed (R116). -/
def loadJobs (s : State) : List Job :=
  ((allGroups s).filter (fun g => decide (g.n.ld > 0))).map (fun g => Job.loads g.idn.gid)

/-- A group's oldest load completes: LD falls, and with it the complete units behind it (R117). -/
def loadDone (gid : Nat) (s : State) : State := wakeGid gid (modGroup gid (fun g => { g with n := { g.n with ldq := settleLd (g.n.ldq.drop 1) } }) s)

def matrixJobs (s : State) : List Job :=
  (allGroups s).filterMap (fun g => match mxHead g with
    | some c => if mxMoves s g c then some (Job.event (.matrix_step g.idn.gid c.slot)) else none
    | none => none)

/-- The entry served first: highest priority, then earliest begun. -/
def firstServed {α : Type} (pri order : α → Nat) (l : List (Nat × α)) : Option (Nat × α) :=
  l.foldl (fun b e => match b with
    | none => some e
    | some d => if pri d.2 < pri e.2 ∨ (pri d.2 = pri e.2 ∧ order e.2 < order d.2) then some e else some d) none

/-- The team that starts next (R447). -/
def teamJobs (s : State) : List Job :=
  let can := fun (n : Nat) (g : Grid) => teamDue s g && (placeTeam s g.row g.cmask (gridAvoid s n)).isSome && (blockPlace s (blockSize g.row g.det)).isSome
  ((firstServed Grid.pri Grid.order (s.d.grids.filter (fun e => can e.1 e.2))).map (fun e => Job.event (.team_start e.1))).toList

/-- The chunk that is dealt next (R448). -/
def chunkJobs (s : State) : List Job :=
  let can := fun (c : Card) => decide (c.dealt < c.count) && !c.cancelled && ctxRuns s c.ctx && (placeTeam s (jobRow c.row) c.cmask []).isSome
    && (blockPlace s (blockSize (jobRow c.row) false)).isSome
  ((firstServed Card.pri Card.order (s.d.cards.filter (fun e => can e.2))).map (fun e => Job.event (.job_chunk_deal e.1))).toList

/-- Saved teams that can go on. -/
def resumeJobs (s : State) : List Job := (s.d.teams.filter (fun e => canResume s e.1 e.2)).map (fun e => Job.resume e.1)

/-- A window group that is due and finds no core looks again at a timeout. -/
def windowsStuck (s : State) : Bool := awaits s (fun e => match e with
  | .window_group_start cl ctx sid k => windowStuck s cl ctx sid k
  | .window_group_timeout cl ctx sid k => windowStuck s cl ctx sid k
  | _ => false)

/-- Work that is ready and finds no room. -/
def workStuck (s : State) : Bool :=
  s.d.grids.any (fun e => teamDue s e.2 && (placeTeam s e.2.row e.2.cmask (gridAvoid s e.1)).isNone)
    || s.d.cards.any (fun e => decide (e.2.dealt < e.2.count) && !e.2.cancelled && ctxRuns s e.2.ctx
      && (placeTeam s (jobRow e.2.row) e.2.cmask []).isNone)
    || s.d.teams.any (fun e => wantsResume s e.1 e.2 && (resumePlace s e.1 e.2).isNone)
    || windowsStuck s

/-- The teams that the scheduler may save to make room (R194). -/
def swapJobs (s : State) : List Job :=
  match s.d.teams.filter (fun e => canSwap s e.1 e.2) with
  | [] => []
  | ts => if workStuck s then ts.map (fun e => Job.swap e.1) else []

/-- Scans whose core has drained (R428). -/
def scanJobs (s : State) : List Job :=
  (s.d.scans.filter (fun e => !e.2.running && (residents s e.1).isEmpty)).map (fun e => Job.event (.scan_pattern_start e.1))

/-- The quarantined cores that firmware can make a pair run on: drained and in no scan, with a healthy partner that is idle too (R466).
DESIGN CHOICE, log 40. -/
def pairJobs (s : State) : List Job :=
  let idle := fun (c : Nat) => coreLive s.tun c && !(coreOf s c).closed && (residents s c).isEmpty && !awaits s (fun e => e == .pair_mismatch c)
  match (quarantineOf s).filter idle with
  | [] => []
  | cs => if (List.range 2048).any (fun c => idle c && !(coreOf s c).quarantined) then cs.map Job.pair else []

/-- A message that a home holds and that it could serve now. -/
def heldFree (s : State) (e : Event) : Bool :=
  match e with
  | .memrd line => !homeBusy s (line / 2) && !lineClaimed s line
  | .memwr line _ _ => !homeBusy s (line / 2) && !lineClaimed s line
  | _ => false

/-- The first message for its sector that could be served, among those a home holds. -/
def freeHeld (s : State) : List (Option Nat) → List Event → Bool
  | _, [] => false
  | secs, e :: es => (heldFree s e && !secs.contains (sectorOf e)) || freeHeld s (sectorOf e :: secs) es

def releaseJobs (s : State) : List Job := if freeHeld s [] s.m.held then [.release] else []

/-- Every agent's next work. -/
def jobs (s : State) : List Job :=
  ((nextBegin s).map (fun c => Job.event (cmdEvent c))).toList ++ copyJobs s ++ loadJobs s ++ matrixJobs s ++ teamJobs s ++ chunkJobs s
    ++ resumeJobs s ++ swapJobs s ++ scanJobs s ++ releaseJobs s ++ pairJobs s

/-- An agent acts. -/
def runJob (j : Job) (s : State) : Next :=
  match j with
  | .event e => runEvent e s
  | .loads gid => .stay (loadDone gid s)
  | .resume team => .stay (resumeTeam team s)
  | .swap team => .stay (swapOut team s)
  | .release => .stay (unhold s)
  | .pair core => .stay (pairRun core s)

/-! ### Groups -/

/-- Brings a group to issue. -/
def bring (gid : Nat) (s : State) : State :=
  if s.g.idn.gid = gid then s
  else match s.rest.find? (fun g => g.idn.gid == gid) with
    | some h =>
      let rest := s.rest.filter (fun x => x.idn.gid ≠ gid)
      { s with g := h, rest := if s.g.idn.gid = 0 then rest else s.g :: rest }
    | none => s

/-- A group's delivery at its next boundary: a parked fault, or F_ECCU (R43, R356). -/
def delivery (s : State) : Option Next :=
  match (allGroups s).find? parkDue with
  | some g => some (runEvent .parked_fault_delivery (bring g.idn.gid s))
  | none =>
    match (allGroups s).find? (fun g => g.x.eccu.isSome && !g.halt && g.hostDue == 0 && g.hostVals.isEmpty && takesPart g) with
    | some g => some (runEvent .eccu_delivery (bring g.idn.gid s))
    | none => none

/-- Yields end when every group they wait for has issued or stopped being ready (R306): a step sweeps them before anything else, so
that a group that has stopped being ready is seen before it can be ready again. -/
def sweepYield (s : State) : State :=
  let stillReady := fun (gid : Nat) => (allGroups s).any (fun h => h.idn.gid == gid && ready h)
  if (allGroups s).any (fun g => g.status == .yielded) then
    let ended := ((allGroups s).filter (fun g => g.status == .yielded && !g.yieldFor.any stillReady)).map (fun g => g.idn.gid)
    mapGroups (fun g => g.status == .yielded) (fun g =>
      let left := g.yieldFor.filter stillReady
      if left = [] then { g with status := .running, yieldFor := [], rdy := s.tick } else { g with yieldFor := left })
      (ended.foldl (fun s gid => noTimer (.yield_expiry gid) s) s)
  else s

/-- The group at issue issues: no yield waits for it any longer. -/
def noteIssue (s : State) : State :=
  if (allGroups s).any (fun g => g.status == .yielded) then
    mapGroups (fun g => g.status == .yielded) (fun g => { g with yieldFor := g.yieldFor.filter (fun i => i ≠ s.g.idn.gid) }) s
  else s

/-- The group that a core issues from next. -/
def coreHead (s : State) (core : Nat) : Option Group := pickFrom none ((allGroups s).filter (fun g => g.idn.core == core))

/-- The cores with a ready group. -/
def readyCores (s : State) : List Nat := (((allGroups s).filter ready).map (fun g => g.idn.core)).eraseDups

/-- The group that issues next on the device: of the cores that could issue, one has the turn. -/
def picked (s : State) : Option Group :=
  match readyCores s with
  | [] => none
  | [c] => coreHead s c
  | cs => coreHead s (cs.getD (Config.turn s.tick % cs.length) 0)

/-- A group that becomes urgent (R451), counted in device steps (DESIGN CHOICE, log 12). -/
def urgentDue (s : State) : Option Event :=
  ((allGroups s).find? (fun g => ready g && !g.urgent && decide (g.rdy + 48 ≤ s.tick))).map (fun g => Event.urgent g.idn.gid)

/-- What the groups do: a delivery, a group that becomes urgent, or the next instruction; none where no group is ready. -/
def groupsAct (s : State) : Option Next :=
  match delivery s with
  | some n => some n
  | none =>
    match picked s with
    | none => none
    | some g => some (match urgentDue s with
      | some e => runEvent e s
      | none => runInstr (noteIssue (bring g.idn.gid s)))

/-! ### The step -/

/-- The start that a reset leads to (R488, R489). DESIGN CHOICE, log 5. -/
def startEvent (s : State) : Event :=
  .start (Config.rsaOk s.h.boot.fails) (Config.slhOk s.h.boot.fails) (Config.hbmOk s.h.boot.fails) (Config.linkOk s.h.boot.fails)
    (Config.startHangs s.h.boot.fails)

/-- Messages that may still be on their way while a group issues (DESIGN CHOICE, log 10). -/
def travels : Event → Bool
  | .rego .. | .regack .. | .batch .. | .fret_forward .. | .frontier_announcement .. | .batch_acknowledgement .. | .fault_record ..
  | .completion_record .. | .window_engine_step .. | .doorbell .. => true
  | _ => false

/-- The legs before a message: those that it has not passed yet; none where its destination has accepted it before (R84, R85). -/
def legsLeft (s : State) (e : Event) : List Leg := match s.m.under.find? (fun u => u.1 == e) with
  | some u => u.2
  | none => refusableLegs s e

/-- Whether a message finds a leg's destination refusing an earlier one of its class and source: one that is refused, or that stands
before the leg when this one comes to it (R84, R85). -/
def legShut (s : State) (e : Event) (l : Leg) : Bool :=
  legBlocked s (msgClass e) l
    || (legStands s (msgClass e) l && !s.m.under.any (fun u => u.1 == e && u.2.head? == some l))

/-- Whether the event at the head is refused now: a destination on its route refuses it, or still refuses an earlier one of its
class and source (R84, R85). DESIGN CHOICE, log 10. -/
def refuses (s : State) (e : Event) : Bool :=
  match legsLeft s e with
  | [] => false
  | ls => ls.any (legShut s e) || Config.refuse s.tick

/-- The leg that refuses a message: the first that is blocked, else one of its route. -/
def refusingLeg (s : State) (e : Event) : Option Leg :=
  let ls := legsLeft s e
  match ls.find? (legShut s e) with
  | some l => some l
  | none => ls[Config.turn s.tick % ls.length]?

/-- A message is refused: it is offered again (R84). -/
def refuseHead (e : Event) (s : State) : State :=
  match refusingLeg s e with
  | none => s
  | some l =>
    let s' := { s with m := { s.m with refused := s.m.refused ++ [(e, l)] } }
    if s.m.refused.isEmpty then due .refused_message_reoffer s' else s'

/-- A message is on its way no longer. -/
def arrived (e : Event) (s : State) : State := { s with m := { s.m with under := s.m.under.eraseP (fun u => u.1 == e) } }

/-- The head of the agenda comes up, or is refused. -/
def runHead (e : Event) (s : State) : Next := if refuses s e then .stay (arrived e (refuseHead e s)) else runEvent e (arrived e s)

/-- What the device does when nothing is due: one of the agents that could act, else the timeout that ends first. DESIGN CHOICE, log 10. -/
def quiet (s : State) : Next :=
  match jobs s with
  | [] => (match groupsAct s with
    | some n => n
    | none => match firstTimer s.timers with
      | some t => runTimer t s
      | none => .stay s)
  | j :: js => (match groupsAct s with
    | none => runJob ((j :: js).getD (Config.turn s.tick % (js.length + 1)) j) s
    | some n =>
      let i := Config.turn s.tick % (js.length + 2)
      if i = 0 then n else runJob ((j :: js).getD (i - 1) j) s)

/-- What reaches a device that is not ready: a start and what the management path asks of it (R489). DESIGN CHOICE, log 24. -/
def bootEvent : Event → Bool
  | .start .. | .start_watchdog | .fails_clear | .get_version | .get_capabilities | .negotiate_algorithms | .get_digests
  | .get_certificate .. | .challenge .. | .get_measurements .. => true
  | _ => false

/-- The next step of the device. DESIGN CHOICE, log 10. DESIGN CHOICE, log 35. -/
def next (s0 : State) : Next :=
  let s := sweepYield { s0 with tick := s0.tick + 1 }
  match s.agenda with
  | e :: es =>
    let head := if s.h.boot.up || bootEvent e then runHead e { s with agenda := es } else .stay { s with agenda := es }
    if s.h.boot.up && (s.agenda ++ s.m.refused.map (fun r => r.1)).all travels && Config.turn s.tick % 2 == 1 then (groupsAct s).getD head else head
  | [] =>
    if !s.h.boot.up then
      (if s.h.boot.reason = 0 && !s.h.boot.hangs then runEvent (startEvent s) s else .stay s)
    else match firstTimer (s.timers.filter (fun t => decide (t.1 ≤ s.tick))) with
      | some t => runTimer t s
      | none => quiet s

end Sys2Proof.Machine
end

