-- ==== Sys2Proof/Machine/Place.lean ====
section
/-! DEFINITION. A program as it comes to run: one instruction placed at the pc of a group that is at issue, in a context
whose page holds it, on a device that has started (DESIGN CHOICE, log 9). -/
namespace Sys2Proof.Machine

/-- A context with nothing declared. DESIGN CHOICE, log 9. -/
def Ctx.fresh : Ctx where
  tenant := 0
  pol := false
  primax := 0
  handler := 0
  root := 0
  locs := []
  rules := []
  streams := []
  strBase := 0
  pegBase := 0
  log2b := 0
  pegFree := []
  handles := []
  plBase := 0
  plNext := 0
  objs := []
  rows := []
  suspended := false
  terminated := false
  ackTun := 1
  tunDeadline := false
  peers := []
  destroying := false

/-- The frame the placed page lies in. -/
def placeFrame : Nat := 0x40000000

/-- A present HBM leaf with EX, RD and WR, accessed and dirty. -/
def placeLeaf (i : Nat) : Word64 := w64 (placeFrame + 65536 * i + 2 ^ 53 + 2 ^ 52 + 0x3D)

/-- The group at issue, or a fresh one where none is ready. DESIGN CHOICE, log 9. -/
def placeGroup (s : State) : Group :=
  let g := if s.g.status = .running then s.g
    else { Group.none with status := .running, pc := 0x4100000000, idn := { Group.none.idn with gid := s.d.nextGid, ctx := 1 } }
  { g with saveDue := false, urgent := false, hostDue := 0, rdy := s.tick, n := { g.n with ldq := [], parkQ := [], cps := [], mxs := [] }, x := { g.x with replay := none, replayKept := none, eccu := none, backFlts := [] } }

/-- A group that takes no part in the next step. -/
def aside (g : Group) : Group :=
  { g with status := if takesPart g then .stopped else g.status, n := { g.n with ldq := [], cps := [], mxs := [] } }

/-- The other agents have nothing to do in the next step. DESIGN CHOICE, log 9. -/
def idleAgents (s : State) : State :=
  { s with
    rest := s.rest.map aside
    q := { s.q with cmds := [] }
    d := { s.d with
      cores := amMap s.d.cores (fun _ c => { c with quarantined := false })
      grids := amMap s.d.grids (fun _ g => { g with cancelled := true })
      cards := amMap s.d.cards (fun _ c => { c with cancelled := true })
      teams := amFilter s.d.teams (fun _ t => !t.saved)
      scans := amFilter s.d.scans (fun _ x => x.running) }
    m := { s.m with held := [], refused := [], under := [] } }

/-- The bytes placed at the pc of the group at issue, its page and the next translated to HBM. DESIGN CHOICE, log 9. -/
def placeCode (bs : List Byte) (s0 : State) : State :=
  let s := idleAgents s0
  let g := placeGroup s
  let va := (vaOf g.pc).toNat
  let cl := clusterOf g.idn.core
  let ent := fun (i : Nat) => ({ cluster := cl, ctx := g.idn.ctx, level := 3, vpage := (va / 65536 + i) % 2 ^ 48, leaf := placeLeaf i, leafPa := 0, locks := [] } : TlbEnt)
  let pa := placeFrame + va % 65536
  let secs := [pa / 128, pa / 128 + 1]
  { s with
    g := g
    ev := none
    agenda := []
    timers := []
    h := { s.h with boot := { s.h.boot with up := true } }
    tun := if s.h.boot.up then s.tun else Tuning.shipped
    ctxs := match amGet? s.ctxs g.idn.ctx with
      | some _ => s.ctxs
      | none => amPut s.ctxs g.idn.ctx Ctx.fresh
    d := { s.d with nextGid := s.d.nextGid + 1 }
    m := { s.m with
      tlb := ent 0 :: ent 1 :: s.m.tlb
      tlb1 := s.m.tlb1.filter (fun t => t.core ≠ g.idn.core)
      hfilt := s.m.hfilt.filter (fun e => !secs.contains (e.1 / 2))
      l2 := s.m.l2.filter (fun e => !secs.contains e.1)
      dir := s.m.dir.filter (fun e => !secs.contains (e.1 / 16))
      mem := (List.range bs.length).foldl (fun m i => memPut m (pa + i) (bs.getD i 0)) s.m.mem } }

end Sys2Proof.Machine
end

