-- ==== Sys2Proof/Machine/Step.lean ====
section
/-! DEFINITION. step: the next thing the device does, executed. And the placing of one instruction where step fetches. -/
namespace Sys2Proof.Machine

/-- One step of the device. -/
def step (s : State) : Host.Outcome State Fault Refusal :=
  match next s with
  | .run i s' => exec i s'
  | .stay s' => .next s'

/-- The state s with an instruction stored where step fetches next (DESIGN CHOICE, log 9). -/
def State.withFetchWord (s : State) (nbits w : Nat) : State := placeCode (tableBytes (w % 2 ^ nbits)) s

end Sys2Proof.Machine
end

