-- ==== Sys2Proof/Safety.lean ====
section
/-! DEFINITION. The terms in which claims speak of a step: what stays as it was, byte by byte and register by register,
and what completing an instruction does to the group at issue. -/
namespace Sys2Proof.Machine

/-! ### Memory, one byte at a time -/

/-- One byte of a core's scratchpad SRAM. -/
def sramByte (s : State) (core off : Nat) : Byte := cellGet s.m.sram (sramKey core off)

/-- One byte of global memory as a load by a core reads it: its L1 or stash copy where that byte is valid, otherwise the
byte at device scope (R54, R59). -/
def coreByte (s : State) (core pa : Nat) : Byte :=
  match l1At s core (pa / 128) with
  | some x => if x.valid.getLsbD (pa % 128) then secByte x.data (pa % 128) else cohByte s pa
  | none => cohByte s pa

/-- Every byte of memory reads as before: at device scope, by every core, in host lines and in every scratchpad. -/
def memKept (s t : State) : Prop :=
  (∀ pa, cohByte t pa = cohByte s pa) ∧ (∀ core pa, coreByte t core pa = coreByte s core pa)
    ∧ (∀ core off, sramByte t core off = sramByte s core off) ∧ (∀ line, hostLineData t line = hostLineData s line)

/-- The same of every byte outside the region table, whose entries the keepers write as regions get their homes (R69, R70). -/
def memKeptOut (s t : State) : Prop :=
  (∀ pa, inTable s (2 * (pa / 128)) = false → cohByte t pa = cohByte s pa)
    ∧ (∀ core pa, inTable s (2 * (pa / 128)) = false → coreByte t core pa = coreByte s core pa)
    ∧ (∀ core off, sramByte t core off = sramByte s core off) ∧ (∀ line, hostLineData t line = hostLineData s line)

/-- Every scratchpad byte outside n bytes at an SRAM offset of a core reads as before. -/
def sramKeptBut (s t : State) (core off n : Nat) : Prop :=
  ∀ c o, ¬(sramKey core off ≤ sramKey c o ∧ sramKey c o < sramKey core off + n) → sramByte t c o = sramByte s c o

/-! ### Registers of the group at issue -/

/-- Every scalar register but those named reads as before. -/
def sKept (s t : State) (but : SReg → Prop) : Prop := ∀ r, ¬but r → rS t r = rS s r

/-- Every mask register but those named reads as before. -/
def kKept (s t : State) (but : KReg → Prop) : Prop := ∀ k, ¬but k → rK t k = rK s k

/-- Every lane of every vector register but those named reads as before. -/
def vKept (s t : State) (but : VReg → Nat → Prop) : Prop := ∀ r l, ¬but r l → l < 32 → rV t r l = rV s r l

/-- LIVE and FPSTAT stay (R171, R249). -/
def statusKept (s t : State) : Prop := t.g.live = s.g.live ∧ t.g.fpstat = s.g.fpstat

/-- No vector, mask or status register changes, and of the scalar registers only d. -/
def onlyS (s t : State) (d : SReg) : Prop :=
  sKept s t (fun r => r = d) ∧ kKept s t (fun _ => False) ∧ vKept s t (fun _ _ => False) ∧ statusKept s t

/-- Nothing but the mask register d changes. -/
def onlyK (s t : State) (d : KReg) : Prop :=
  sKept s t (fun _ => False) ∧ kKept s t (fun k => k = d) ∧ vKept s t (fun _ _ => False) ∧ statusKept s t

/-- Nothing but the acting lanes of the vector register d changes. -/
def onlyV (s t : State) (d : VReg) (act : Word32) : Prop :=
  sKept s t (fun _ => False) ∧ kKept s t (fun _ => False) ∧ vKept s t (fun r l => r = d ∧ act.getLsbD l = true)
    ∧ statusKept s t

/-- No register changes. -/
def regsKept (s t : State) : Prop :=
  sKept s t (fun _ => False) ∧ kKept s t (fun _ => False) ∧ vKept s t (fun _ _ => False) ∧ statusKept s t

/-! ### Completion -/

/-- The supervisor state after an instruction completes: outside the handler a replay ends and DONEMASK clears (R36). -/
def doneX (s : State) : ExcState := if s.g.x.sup then s.g.x else { s.g.x with replay := none, doneMask := 0, dueFlags := 0, unit := none }

/-- The instruction at issue has completed, and of the machine only this has changed: the pc, the general, mask and
vector registers, LIVE, FPSTAT, the signature, the end of a replay, and what the device keeps of the issue itself. All
memory, every other group, the accumulator tiles, the exception registers, the engines and the tables are as before. -/
def completes (s t : State) (pc : BitVec 56) : Prop :=
  t = { s with g := { s.g with
    pc := pc
    sregs := t.g.sregs
    kregs := t.g.kregs
    vregs := t.g.vregs
    live := t.g.live
    fpstat := t.g.fpstat
    sigm := t.g.sigm
    sigw := t.g.sigw
    x := doneX s
    rdy := s.tick
    urgent := false
    watch := none
    timedOut := false
    hostVals := []
    snooped := []
    bbOn := none } }

/-- Only the general, mask and vector registers, LIVE and FPSTAT of the group at issue may differ. -/
def regWrite (s t : State) : Prop :=
  t = { s with g := { s.g with
    sregs := t.g.sregs
    kregs := t.g.kregs
    vregs := t.g.vregs
    live := t.g.live
    fpstat := t.g.fpstat } }

/-- A group at issue that raises no fault for naming these registers: below its count and outside its queue window
(R167, R168, R183). -/
def canName (s : State) (rs : List VReg) : Prop := vregFault s.g rs = none

/-! ### Accesses -/

/-- n bytes of global memory as a core reads them, and n bytes of a scratchpad, little-endian (R4). -/
def coreBytes (s : State) (core pa : Nat) : Nat → Nat
  | 0 => 0
  | n + 1 => (coreByte s core pa).toNat + 256 * coreBytes s core (pa + 1) n

/-- Every lane passes its checks (R33). -/
def allOk (ls : List LaneAcc) : Prop := ∀ a ∈ ls, a.ok = true

/-- The home of a sector holds it, or allocates it without evicting a line: fewer than 16 sectors and host lines lie in its
set (R53). -/
def homeRoom (s : State) (sec : Nat) : Prop :=
  (amGet? s.m.l2 sec).isSome = true
    ∨ (s.m.l2.filter (fun e => l2Set e.1 == l2Set sec)).length + (s.m.hlines.filter (fun e => l2Set (e.1 / 2) == l2Set sec)).length < 16

/-- No core owns a word of the sector (R57). -/
def unowned (s : State) (sec : Nat) : Prop := ∀ i < 16, ownerOf s (16 * sec + i) = none

/-- A load of these lanes waits for nothing: room in LD, every part it names started, no fill of its sectors under way and no
earlier request at their homes, no atomic of the group to its words unanswered, no other alias that stays, no snoop to send, and the
host's values at hand (R23, R31, R54, R57, R76, R116, R131, R366). -/
def loadReady (s : State) (q : MemQ) (ls : List LaneAcc) : Prop :=
  s.g.n.ld < 63 ∧ s.g.hostDue = 0 ∧ partStarting s ls = false ∧ fillsPending s ls = false
    ∧ homesWait s (decide (q.hint = 0)) ls = false ∧ (q.ord = 1 → acqWaits s q.scope.toNat ls = false) ∧ atomBefore s ls = false
    ∧ (q.hint = 0 → stuckSegs s ls = []) ∧ snoopsOf s false ls = [] ∧ (hostSegs ls).length ≤ s.g.hostVals.length

/-- A store of these lanes waits for nothing, in a launch that stages nothing (R23, R31, R61, R116, R134, R158). -/
def storeReady (s : State) (q : MemQ) (ls : List LaneAcc) : Prop :=
  isDet s s.g = false ∧ s.g.n.sts.length < 63 ∧ partStarting s ls = false ∧ storesWait s q.hint ls = false
    ∧ (q.hint ≠ 0 → fillsPending s ls = false) ∧ (q.ord = 2 → releaseWaits s q.scope.toNat = false)
    ∧ (q.hint ≠ 2 → stuckSegs s ls = [])

/-- An atomic of these lanes waits for nothing, in a launch that stages nothing (R54, R57, R116, R134, R364). -/
def atomReady (s : State) (o : AtOp) (ls : List LaneAcc) : Prop :=
  isDet s s.g = false ∧ (if o.nr then s.g.n.sts.length < 63 else s.g.n.ld < 63) ∧ s.g.hostDue = 0 ∧ homesWait s false ls = false
    ∧ partStarting s ls = false ∧ fillsPending s ls = false
    ∧ (2 ≤ o.ord.toNat → releaseWaits s o.scope.toNat = false)
    ∧ (o.ord.toNat % 2 = 1 → acqWaits s o.scope.toNat ls = false) ∧ snoopsOf s true ls = []
    ∧ hostSegs ls = []

/-- n bytes from k on, little-endian (R4). -/
def numAt (m : Nat → Byte) (k : Nat) : Nat → Nat
  | 0 => 0
  | n + 1 => (m k).toNat + 256 * numAt m (k + 1) n

/-- What atomics on words leave: each lane's old value, the bytes, and the flags of all of them. -/
structure AtomEnd where
  old : Nat → Nat
  mem : Nat → Byte
  flags : FFlags

/-- Atomics of lanes on n-bit words, one after the other, each on what the one before it has left (R125, R365). -/
def atomWalk (aop n : Nat) (r : Rnd) (b c key : Nat → Nat) : List Nat → (Nat → Byte) → AtomEnd
  | [], m => { old := fun _ => 0, mem := m, flags := 0 }
  | l :: ls, m =>
    let old := numAt m (key l) (n / 8)
    let new := atomNew aop n r old (b l) (c l)
    let x := atomWalk aop n r b c key ls (fun k => if key l ≤ k ∧ k < key l + n / 8 then BitVec.ofNat 8 (new.1 / 256 ^ (k - key l)) else m k)
    { old := fun j => if j = l then old else x.old j, mem := x.mem, flags := new.2 ||| x.flags }

/-- The qualifier asks for no self-invalidation (R65). -/
def keepsL1 (q : MemQ) : Prop := q.ord ≠ 1 ∨ q.scope.toNat < 2

/-- A lane's access is one piece that the core's own sector serves by its tag, its bytes all valid and none poisoned. -/
def hitLane (s : State) (a : LaneAcc) (g : Seg) : Prop :=
  a.res = .ok (.glob [g]) ∧ g.hit = true ∧ g.n = a.n ∧ g.pa % 128 + g.n ≤ 128
    ∧ ∃ x, l1At s s.g.idn.core (g.pa / 128) = some x ∧ x.poison = 0 ∧ ∀ i < g.n, x.valid.getLsbD (g.pa % 128 + i) = true

/-- The group's launch is not replayable: its stores save nothing (R17). -/
def noReplay (s : State) : Prop :=
  gridOf s s.g = none ∨ ∀ gr, amGet? s.d.grids (rootGrid s 11 s.g.idn.work) = some gr → gr.repl = false

/-- The cluster's reverse map names the granule that a sector of the core is tagged with (R30). -/
def aliasKnown (s : State) (core ctx va pa : Nat) : Prop :=
  amGet? s.m.rmap (clusterOf core * 2 ^ 36 + regionOf pa) = some (vGranTag ctx va)

/-- The core has self-invalidated (R65): of its sectors only the bytes of words it answers for stay valid. -/
def selfInvalidated (s t : State) : Prop :=
  ∀ sec x, sec < 2 ^ 45 → l1At s s.g.idn.core sec = some x →
    l1At t s.g.idn.core sec = some { x with valid := x.valid &&& wordBytes x.held, kept := 0 }

/-! ### Queue commands -/

/-- The state from which a command's effect runs: its read handles are written back, then it has begun (R443, R445). -/
def begun (c : QCmd) (q : Queue) (s : State) : State :=
  beginCmd c q (if c.admin then s else flushHandles false q.ctx ((c.uses.filter (fun u => u.rd)).map (fun u => u.idx)) s)

/-- A command of a queue is not rejected, nor cancelled for a terminated context (R442, R454). -/
def accepts (reasons : State → Queue → List Reason) (c : QCmd) (q : Queue) (s : State) : Prop :=
  findQueue s c.admin c.queue = some q ∧ firstReason (reasons s q) = none
    ∧ (c.admin = false → ∀ x, ctxOf s q.ctx = some x → x.terminated = false)

/-- A command is complete: its record is due, and it is open no longer unless a fault record of it is still to be written (R441,
R455). -/
def completed (t : State) (c : QCmd) (status code res : Nat) : Prop :=
  (recordHolds t c.id = false → c.id ∉ t.q.running) ∧ ∃ r, .completion_record r ∈ t.agenda ∧ r.queue = c.queue ∧ r.admin = c.admin ∧ r.cmd = c.id ∧ r.tag = c.tag
    ∧ r.status = BitVec.ofNat 7 status ∧ r.code = BitVec.ofNat 16 code ∧ r.res = BitVec.ofNat 40 res

/-- The tables of L1 sectors and of contexts are sorted by key. -/
def canonicalTables (s : State) : Prop := amSorted 0 s.m.l1 = true ∧ amSorted 0 s.ctxs = true

/-! ### Faults -/

/-- The faults of user code enter the supervisor handler: its context names one (R32, R454). -/
def hasHandler (s : State) : Prop := s.g.x.sup = false ∧ handlerOf s ≠ 0

end Sys2Proof.Machine
end

