-- ==== Sys2Proof/Certificates/Slice0/Obligations.lean ====
section
/-! DEFINITION. The statements for the provers: what instructions and events do, what they leave alone, when they complete, and what
holds of the machine as a whole. -/
open Sys2Proof Sys2Proof.Machine

/-! ### Scalar, branch and mask instructions -/

/-- R293, R166: the two-source scalar functions but for division complete, write the stated value to d (s0 discards it) and
change nothing else. -/
def Obligations.ScalarArithmeticResult : Prop :=
  ∀ (s : State) (d a : SReg) (b : SOpd), let x := rS s a; let y := sopd s b; let n := y.toNat % 64
  ∀ p ∈ ([(.sadd d a b, x + y), (.ssub d a b, x - y), (.smul d a b, x * y),
      (.smulh_s d a b, BitVec.ofInt 64 (x.toInt * y.toInt / 2 ^ 64)), (.smulh_z d a b, BitVec.ofNat 64 (x.toNat * y.toNat / 2 ^ 64)),
      (.sand d a b, x &&& y), (.sor d a b, x ||| y), (.sxor d a b, x ^^^ y), (.sandn d a b, x &&& ~~~y),
      (.sshl d a b, x <<< n), (.sshr d a b, x >>> n), (.ssra d a b, x.sshiftRight n), (.srol d a b, (x <<< n) ||| (x >>> (64 - n))),
      (.smin_s d a b, if x.toInt ≤ y.toInt then x else y), (.smin_z d a b, if x.toNat ≤ y.toNat then x else y),
      (.smax_s d a b, if x.toInt ≤ y.toInt then y else x), (.smax_z d a b, if x.toNat ≤ y.toNat then y else x)] : List (Instr × Word64)),
    ∃ t, exec p.1 s = .next t ∧ completes s t (nextPc s) ∧ rS t d = (if d = 0 then 0 else p.2) ∧ onlyS s t d ∧ memKept s t

/-- R294: division truncates toward zero and never faults: sdiv writes the quotient and srem the remainder, by zero -1 and the
dividend, and of the most negative number by -1 that number and 0; nothing else changes. -/
def Obligations.ScalarDivisionResult : Prop :=
  ∀ (s : State) (d a : SReg) (b : SOpd), let x := rS s a; let y := sopd s b; let least : Word64 := 1 <<< 63
  let qs := if y = 0 then -1 else if x = least ∧ y = -1 then least else BitVec.ofInt 64 (x.toInt.tdiv y.toInt)
  let rs := if y = 0 then x else if x = least ∧ y = -1 then 0 else x - qs * y
  let qz := if y = 0 then BitVec.allOnes 64 else BitVec.ofNat 64 (x.toNat / y.toNat)
  let rz := if y = 0 then x else x - qz * y
  (∀ p ∈ ([(.sdiv_s d a b, qs), (.srem_s d a b, rs), (.sdiv_z d a b, qz), (.srem_z d a b, rz)] : List (Instr × Word64)),
    ∃ t, exec p.1 s = .next t ∧ completes s t (nextPc s) ∧ rS t d = (if d = 0 then 0 else p.2) ∧ onlyS s t d ∧ memKept s t)
  ∧ (rs ≠ 0 → decide (rs.toInt < 0) = decide (x.toInt < 0))

/-- R297: scalar comparisons write 1 or 0, and ssel selects by its own old d. R293, R295: one-source and bit-field scalar
functions; the field is LEN = len1 + 1 bits from bit pos. R275 to R277, R296: the immediate forms; imm11 and imm32 are
extended by sign for sadd and sli and by zero for the logic and shift forms. R280: sadr adds its signed word displacement to the
address of the instruction. -/
def Obligations.ScalarUnaryResult : Prop :=
  (
  ∀ (s : State) (d a : SReg) (b : SOpd), let x := rS s a; let y := sopd s b
  ∀ p ∈ ([(.scmp_eq d a b, if x = y then 1 else 0), (.scmp_ne d a b, if x = y then 0 else 1),
      (.scmp_lt d a b, if x.toInt < y.toInt then 1 else 0), (.scmp_le d a b, if x.toInt ≤ y.toInt then 1 else 0),
      (.scmp_ltz d a b, if x.toNat < y.toNat then 1 else 0), (.scmp_lez d a b, if x.toNat ≤ y.toNat then 1 else 0),
      (.ssel d a b, if rS s d = 0 then y else x)] : List (Instr × Word64)),
    ∃ t, exec p.1 s = .next t ∧ completes s t (nextPc s) ∧ rS t d = (if d = 0 then 0 else p.2) ∧ onlyS s t d ∧ memKept s t)
  ∧ (
  ∀ (s : State) (d a : SReg) (pos len1 : BitVec 6), pos.toNat + len1.toNat < 64 →
  let x := rS s a; let m := BitVec.ofNat 64 ((2 ^ (len1.toNat + 1) - 1) * 2 ^ pos.toNat)
  ∀ p ∈ ([(.sclz d a, x.clz), (.sctz d a, x.ctz), (.spopc d a, x.cpop), (.sbrev d a, x.reverse),
      (.sbswap d a, x.extractLsb' 0 8 ++ x.extractLsb' 8 8 ++ x.extractLsb' 16 8 ++ x.extractLsb' 24 8 ++ x.extractLsb' 32 8
        ++ x.extractLsb' 40 8 ++ x.extractLsb' 48 8 ++ x.extractLsb' 56 8),
      (.smov d a, x), (.sbfx_z d a pos len1, (x &&& m) >>> pos.toNat),
      (.sbfx_s d a pos len1, (x.extractLsb' pos.toNat (len1.toNat + 1)).signExtend 64),
      (.sbfi d a pos len1, (rS s d &&& ~~~m) ||| ((x <<< pos.toNat) &&& m))] : List (Instr × Word64)),
    ∃ t, exec p.1 s = .next t ∧ completes s t (nextPc s) ∧ rS t d = (if d = 0 then 0 else p.2) ∧ onlyS s t d ∧ memKept s t)
  ∧ (
  ∀ (s : State) (d a : SReg) (i : SImm) (o : POff), let x := rS s a
  let sx := match i with | .i11 v => v.signExtend 64 | .i32 v => v.signExtend 64 | .lit v => v
  let zx := match i with | .i11 v => v.zeroExtend 64 | .i32 v => v.zeroExtend 64 | .lit v => v
  let dis := match o with | .i11 v => v.signExtend 64 <<< 2 | .i32 v => v.signExtend 64 <<< 2
  let n := zx.toNat % 64
  ∀ p ∈ ([(.sadd_imm d a i, x + sx), (.sand_imm d a i, x &&& zx), (.sor_imm d a i, x ||| zx), (.sxor_imm d a i, x ^^^ zx),
      (.sshl_imm d a i, x <<< n), (.sshr_imm d a i, x >>> n), (.ssra_imm d a i, x.sshiftRight n), (.sli d i, sx),
      (.sadr d o, s.g.pc.signExtend 64 + dis)] : List (Instr × Word64)),
    ∃ t, exec p.1 s = .next t ∧ completes s t (nextPc s) ∧ rS t d = (if d = 0 then 0 else p.2) ∧ onlyS s t d ∧ memKept s t)

/-- R249, R291, R298 to R301: scalar float instructions take the low bits of their operands, write the rounded result zero-
extended (an integer result of sfcvt extended by its type) and OR their flags into FPSTAT. -/
def Obligations.ScalarFloatResult : Prop :=
  ∀ (s : State) (t r : _) (d a c : SReg) (b : SOpd) (code : BitVec 8) (cc : BitVec 3) (dst src : Ty5),
  let f := fmtOf t; let w := ftyW t
  let x := (rS s a).toNat % 2 ^ w; let y := (sopd s b).toNat % 2 ^ w; let z := (rS s c).toNat % 2 ^ w
  let n := fun (v : Nat × FFlags) => (BitVec.ofNat 64 v.1, v.2)
  let cv := cvt dst false r (tyVal src ((rS s a).toNat % 2 ^ src.width))
  let cm := fCmp f cc x y
  ∀ p ∈ ([(.sfadd t r d a b, n (fAdd f r x y)), (.sfsub t r d a b, n (fSub f r x y)), (.sfmul t r d a b, n (fMul f r x y)),
      (.sfdiv t r d a b, n (fDiv f r x y)), (.sfsqrt t r d a, n (fSqrt f r x)), (.sfma t r d a b c, n (fFma f r false false x y z)),
      (.sfadd_code t d a code, n (fAdd f .rne x (codeVal t code))), (.sfmul_code t d a code, n (fMul f .rne x (codeVal t code))),
      (.sfcvt dst src r d a, (extTy dst cv.1, cv.2)), (.sfcmp cc t d a b, (if cm.1 then 1 else 0, cm.2))]
      : List (Instr × Word64 × FFlags)),
    ∃ u, exec p.1 s = .next u ∧ completes s u (nextPc s) ∧ rS u d = (if d = 0 then 0 else p.2.1)
      ∧ u.g.fpstat = s.g.fpstat ||| p.2.2 ∧ u.g.live = s.g.live ∧ sKept s u (fun q => q = d) ∧ kKept s u (fun _ => False)
      ∧ vKept s u (fun _ _ => False) ∧ memKept s u

/-- R302 to R304, R284: a branch whose condition holds continues at the instruction's address plus its signed word offset, and
any other at the next instruction; no register changes. A target is canonical. R303: bx and ret to a value that is not
canonical raise F_ADDROVF (10), to a canonical one not aligned to 4 F_ALIGN (3); a taken branch, call or loop to a target that is
not canonical raises F_ADDROVF. The model's reading, log 20 (DEDUCED): of a value that is both, R33's order decides; ACC is fetch and
FAULTVA the target. -/
def Obligations.BranchResult : Prop :=
  (
  ∀ (s : State) (a : SReg) (k : KReg) (o : BOff), let x := (rS s a).toInt; let m := rK s k &&& s.g.live
  let target := s.g.pc.signExtend 64 + (match o with | .o14 v => v.signExtend 64 <<< 2 | .o32 v => v.signExtend 64 <<< 2)
  ∀ p ∈ ([(.b o, true), (.bz a o, decide (x = 0)), (.bnz a o, decide (x ≠ 0)), (.bc_lt a o, decide (x < 0)),
      (.bc_ge a o, decide (0 ≤ x)), (.bc_gt a o, decide (0 < x)), (.bc_le a o, decide (x ≤ 0)), (.bk_any k o, decide (m ≠ 0)),
      (.bk_all k o, decide (m = s.g.live)), (.bk_none k o, decide (m = 0))] : List (Instr × Bool)),
    (p.2 = true → canonical target = true) →
    ∃ t, exec p.1 s = .next t ∧ completes s t (if p.2 then target.truncate 56 else nextPc s) ∧ regsKept s t ∧ memKept s t)
  ∧ (
  ∀ (s : State) (a : SReg) (o : BOff),
  (∀ p ∈ ([(.bx a, rS s a), (.ret, rS s 63)] : List (Instr × Word64)),
    (canonical p.2 = true → p.2.toNat % 4 ≠ 0 → exec p.1 s = .next (raiseW { flt 3 with acc := 3, va := p.2 } s))
    ∧ (canonical p.2 = false → exec p.1 s = .next (raiseW { flt 10 with acc := 3, va := p.2 } s)))
  ∧ (canonical (branchTarget s o) = false →
    let ovf := raiseW { flt 10 with acc := 3, va := branchTarget s o } s;
    exec (.b o) s = .next ovf ∧ exec (.call o) s = .next ovf ∧ (rS s a ≠ 1 → exec (.sloop a o) s = .next ovf)))

/-- R303, R305: call writes the address of the next instruction to lr (s63) and jumps; bx and ret jump to an aligned canonical
register value; sloop (R304) counts its register down and jumps while the new value is not zero, and at zero goes on at the next
instruction whatever its target is. R306, R307: nop only completes;
yield with another ready group on its core completes in state yielded until those groups have issued, and otherwise only
completes; sleep completes and ends NSEC a later, at most 2^32 - 1. -/
def Obligations.ControlFlowResult : Prop :=
  (
  ∀ (s : State) (a : SReg) (o : BOff),
  let target := s.g.pc.signExtend 64 + (match o with | .o14 v => v.signExtend 64 <<< 2 | .o32 v => v.signExtend 64 <<< 2)
  (canonical target = true →
    (∃ t, exec (.call o) s = .next t ∧ completes s t (target.truncate 56) ∧ onlyS s t 63
      ∧ rS t 63 = s.g.pc.signExtend 64 + BitVec.ofNat 64 s.ir.len ∧ memKept s t)
    ∧ (∃ t, exec (.sloop a o) s = .next t ∧ completes s t (if rS s a = 1 then nextPc s else target.truncate 56) ∧ onlyS s t a
      ∧ rS t a = (if a = 0 then 0 else rS s a - 1) ∧ memKept s t))
  ∧ (rS s a = 1 → ∃ t, exec (.sloop a o) s = .next t ∧ completes s t (nextPc s) ∧ onlyS s t a ∧ rS t a = 0 ∧ memKept s t)
  ∧ ∀ p ∈ ([(.bx a, rS s a), (.ret, rS s 63)] : List (Instr × Word64)), p.2.toNat % 4 = 0 → canonical p.2 = true →
    ∃ t, exec p.1 s = .next t ∧ completes s t (p.2.truncate 56) ∧ regsKept s t ∧ memKept s t)
  ∧ (
  ∀ (s : State) (a : SReg), let n := Nat.min (rS s a).toNat (2 ^ 32 - 1)
  (∃ t, exec .nop s = .next t ∧ completes s t (nextPc s) ∧ regsKept s t ∧ memKept s t)
  ∧ (readyPeers s = [] → ∃ t, exec .yield s = .next t ∧ completes s t (nextPc s) ∧ regsKept s t ∧ memKept s t)
  ∧ (readyPeers s ≠ [] → ∃ t, exec .yield s = .next t ∧ t.g.pc = nextPc s ∧ t.g.status = .yielded ∧ t.g.yieldFor = readyPeers s
      ∧ regsKept s t ∧ memKept s t)
  ∧ (n = 0 → ∃ t, exec (.sleep a) s = .next t ∧ completes s t (nextPc s) ∧ regsKept s t ∧ memKept s t)
  ∧ (n ≠ 0 → ∃ t, exec (.sleep a) s = .next t ∧ t.g.pc = nextPc s ∧ t.g.status = .sleeping ∧ t.g.wakeAt = s.nsec + n
      ∧ regsKept s t ∧ memKept s t))

/-- R309, R310, R166: mask instructions write their result to a mask register (k0 discards it) or a scalar register; kpopc and
kffs count under LIVE, kffs giving 32 for no lane. R310: kexit removes its lanes from LIVE for good, in the handler from the
LIVE that retf restores as well. -/
def Obligations.MaskResult : Prop :=
  (
  ∀ (s : State) (d a b : KReg) (e : SReg), let x := rK s a; let y := rK s b; let m := x &&& s.g.live
  (∀ p ∈ ([(.kand d a b, x &&& y), (.kor d a b, x ||| y), (.kxor d a b, x ^^^ y), (.kandn d a b, x &&& ~~~y), (.knot d a, ~~~x),
      (.kmov d a, x), (.kset d e, (rS s e).truncate 32)] : List (Instr × Word32)),
    ∃ t, exec p.1 s = .next t ∧ completes s t (nextPc s) ∧ rK t d = (if d = 0 then 0xFFFFFFFF else p.2) ∧ onlyK s t d ∧ memKept s t)
  ∧ (∀ p ∈ ([(.kget e a, x.zeroExtend 64), (.kpopc e a, m.cpop.zeroExtend 64), (.kffs e a, m.ctz.zeroExtend 64)]
      : List (Instr × Word64)),
    ∃ t, exec p.1 s = .next t ∧ completes s t (nextPc s) ∧ rS t e = (if e = 0 then 0 else p.2) ∧ onlyS s t e ∧ memKept s t))
  ∧ (
  ∀ (s : State) (a : KReg), ∃ t, exec (.kexit a) s = .next t ∧ t.g.live = s.g.live &&& ~~~(rK s a) ∧ t.g.pc = nextPc s
    ∧ t.g.x.liveSave = (if s.g.x.sup then s.g.x.liveSave &&& ~~~(rK s a) else s.g.x.liveSave)
    ∧ sKept s t (fun _ => False) ∧ kKept s t (fun _ => False) ∧ vKept s t (fun _ _ => False) ∧ t.g.fpstat = s.g.fpstat
    ∧ t.rest = s.rest ∧ memKept s t)

/-! ### Vector instructions -/

/-- R311, R314 to R316, R320: two- and three-source integer vector functions, vsel among them, act on each sub-element of each acting
lane and leave the other lanes; a 64-bit imm32 is extended by the type's signedness, a narrower one is replicated. -/
def Obligations.VectorIntegerResult : Prop :=
  ∀ (s : State) (w : IW) (o : VBin) (c : VReg), let n := w.width; let x := rV s o.a; let z := rV s c
  let y := fun (sx : Bool) (l : Nat) => (match o.b with
    | .reg r => rV s r l
    | .imm v => if w = .w64 then (if sx then v.signExtend 64 else v.zeroExtend 64) else splat n (v.truncate n)
    | .lit v => v)
  let y64 := fun (l : Nat) => (match o.b with
    | .reg r => rV s r l
    | .imm v => v.zeroExtend 64
    | .lit v => v)
  let two := fun (sx : Bool) (f : BitVec n → BitVec n → BitVec n) (l : Nat) => subs2 n f (x l) (y sx l)
  ∀ p ∈ ([(.vadd w o, [], two true (fun a b => a + b)), (.vsub w o, [], two true (fun a b => a - b)),
      (.vadds_s w o, [], two true (fun a b => BitVec.ofInt n (max (-(2 ^ (n - 1) : Nat)) (min ((2 ^ (n - 1) : Nat) - 1) (a.toInt + b.toInt))))),
      (.vadds_z w o, [], two false (fun a b => BitVec.ofNat n (min (2 ^ n - 1) (a.toNat + b.toNat)))),
      (.vsubs_s w o, [], two true (fun a b => BitVec.ofInt n (max (-(2 ^ (n - 1) : Nat)) (min ((2 ^ (n - 1) : Nat) - 1) (a.toInt - b.toInt))))),
      (.vsubs_z w o, [], two false (fun a b => BitVec.ofNat n (a.toNat - b.toNat))),
      (.vmul w o, [], two true (fun a b => a * b)),
      (.vmulh_s w o, [], two true (fun a b => BitVec.ofInt n (a.toInt * b.toInt / 2 ^ n))),
      (.vmulh_z w o, [], two false (fun a b => BitVec.ofNat n (a.toNat * b.toNat / 2 ^ n))),
      (.vmad w o c, [c], fun l => subs3 n (fun a b c => a * b + c) (x l) (y true l) (z l)),
      (.vand o, [], fun l => x l &&& y64 l), (.vor o, [], fun l => x l ||| y64 l), (.vxor o, [], fun l => x l ^^^ y64 l),
      (.vandn o, [], fun l => x l &&& ~~~(y64 l)),
      (.vshl w o, [], two false (fun a b => a <<< (b.toNat % n))), (.vshr w o, [], two false (fun a b => a >>> (b.toNat % n))),
      (.vsra w o, [], two false (fun a b => a.sshiftRight (b.toNat % n))),
      (.vmin_s w o, [], two true (fun a b => if a.toInt ≤ b.toInt then a else b)),
      (.vmin_z w o, [], two false (fun a b => if a.toNat ≤ b.toNat then a else b)),
      (.vmax_s w o, [], two true (fun a b => if a.toInt ≤ b.toInt then b else a)),
      (.vmax_z w o, [], two false (fun a b => if a.toNat ≤ b.toNat then b else a)),
      (.vsel o c, [c], fun l => (x l &&& z l) ||| (y64 l &&& ~~~(z l)))] : List (Instr × List VReg × (Nat → Word64))),
    canName s (o.d :: o.a :: (p.2.1 ++ vopdRegs o.b)) →
    ∃ t, exec p.1 s = .next t ∧ completes s t (nextPc s)
      ∧ (∀ l < 32, rV t o.d l = if (actOf s o.k).getLsbD l then p.2.2 l else rV s o.d l) ∧ onlyV s t o.d (actOf s o.k) ∧ memKept s t

/-- R317, R318: one-source integer vector functions, viota, vli and the bit-field forms. R319, R324: vector comparisons
replace only the acting lanes' bits of their mask register, a lane's bit being set if the condition holds for every sub-
element; vfcmp ORs the flags of its comparisons. -/
def Obligations.VectorUnaryAndCompareResult : Prop :=
  (
  ∀ (s : State) (w : IW) (o : VUn) (v : VLiVal) (pos len1 : BitVec 6), let n := w.width; pos.toNat + len1.toNat < n →
  let x := rV s o.a; let m := BitVec.ofNat n ((2 ^ (len1.toNat + 1) - 1) * 2 ^ pos.toNat)
  let one := fun (f : BitVec n → BitVec n) (l : Nat) => subs1 n f (x l)
  ∀ p ∈ ([(.vnot o, [o.a], fun l => ~~~(x l)), (.vabs w o, [o.a], one (fun a => if a.toInt < 0 then -a else a)),
      (.vneg w o, [o.a], one (fun a => -a)), (.vclz w o, [o.a], one (fun a => a.clz)), (.vpopc w o, [o.a], one (fun a => a.cpop)),
      (.vmov o, [o.a], x), (.viota w o.d o.k, [], fun l => pack n (fun e => BitVec.ofNat n (l * (64 / n) + e))),
      (.vli o.d v o.k, [], fun _ => vliVal v), (.vbfx_z w o pos len1, [o.a], one (fun a => (a &&& m) >>> pos.toNat)),
      (.vbfx_s w o pos len1, [o.a], one (fun a => (a.extractLsb' pos.toNat (len1.toNat + 1)).signExtend n)),
      (.vbfi w o pos len1, [o.a], fun l => subs2 n (fun d a => (d &&& ~~~m) ||| ((a <<< pos.toNat) &&& m)) (rV s o.d l) (x l))]
      : List (Instr × List VReg × (Nat → Word64))),
    canName s (o.d :: p.2.1) →
    ∃ t, exec p.1 s = .next t ∧ completes s t (nextPc s)
      ∧ (∀ l < 32, rV t o.d l = if (actOf s o.k).getLsbD l then p.2.2 l else rV s o.d l) ∧ onlyV s t o.d (actOf s o.k) ∧ memKept s t)
  ∧ (
  ∀ (s : State) (c : BitVec 3) (w : IW) (ty : FTy) (kd k : KReg) (a : VReg) (b : VOpd), let act := actOf s k
  let fc := fun (l e : Nat) => fCmp (fmtOf ty) c (subN (ftyW ty) (rV s a l) e) (subN (ftyW ty) (vopdF s ty b l) e)
  let es := List.range (64 / ftyW ty)
  ∀ p ∈ ([(.vcmp c w kd a b k, fun l => subsAll w.width (cmpI c w.width) (rV s a l) (vopdI s (decide (c.toNat < 4)) w b l), 0),
      (.vfcmp c ty kd a b k, fun l => es.all (fun e => (fc l e).1),
        (lanesOf act).foldl (fun f l => f ||| es.foldl (fun g e => g ||| (fc l e).2) 0) 0)]
      : List (Instr × (Nat → Bool) × FFlags)),
    canName s (a :: vopdRegs b) →
    ∃ t, exec p.1 s = .next t ∧ completes s t (nextPc s)
      ∧ (kd ≠ 0 → ∀ l < 32, (rK t kd).getLsbD l = if act.getLsbD l then p.2.1 l else (rK s kd).getLsbD l)
      ∧ t.g.fpstat = s.g.fpstat ||| p.2.2 ∧ t.g.live = s.g.live ∧ sKept s t (fun _ => False) ∧ kKept s t (fun q => q = kd)
      ∧ vKept s t (fun _ _ => False) ∧ memKept s t)

/-- R249, R311, R321 to R323, R325, R326, R331, R332: float vector instructions compute each sub-element of each acting lane, leave the other lanes,
and OR the flags of the acting lanes into FPSTAT. -/
def Obligations.VectorFloatResult : Prop :=
  ∀ (s : State) (t : FTy) (r : Rnd) (o : VBin) (c : VReg) (u : VUn), let f := fmtOf t; let w := ftyW t
  let x := fun l e => subN w (rV s o.a l) e; let y := fun l e => subN w (vopdF s t o.b l) e; let z := fun l e => subN w (rV s c l) e
  let v := fun l e => subN w (rV s u.a l) e
  let two := fun (g : Nat → Nat → Nat × FFlags) (l : Nat) => subsF w (fun e => g (x l e) (y l e))
  let fma := fun (np nc : Bool) (l : Nat) => subsF w (fun e => fFma f r np nc (x l e) (y l e) (z l e))
  let one := fun (g : Nat → Nat × FFlags) (l : Nat) => subsF w (fun e => g (v l e))
  let rb := o.d :: o.a :: vopdRegs o.b; let rc := o.d :: o.a :: c :: vopdRegs o.b; let ru := [u.d, u.a]
  ∀ p ∈ ([(.vfadd t r o, rb, o.d, o.k, two (fAdd f r)), (.vfsub t r o, rb, o.d, o.k, two (fSub f r)),
      (.vfmul t r o, rb, o.d, o.k, two (fMul f r)), (.vfdiv t r o, rb, o.d, o.k, two (fDiv f r)),
      (.vfma t r o c, rc, o.d, o.k, fma false false), (.vfms t r o c, rc, o.d, o.k, fma false true),
      (.vfnma t r o c, rc, o.d, o.k, fma true true), (.vfnms t r o c, rc, o.d, o.k, fma true false),
      (.vfmin t o, rb, o.d, o.k, two (fMinMax f false false)), (.vfmax t o, rb, o.d, o.k, two (fMinMax f true false)),
      (.vfminnum t o, rb, o.d, o.k, two (fMinMax f false true)), (.vfmaxnum t o, rb, o.d, o.k, two (fMinMax f true true)),
      (.vfcpys t o, rb, o.d, o.k, two (fun a b => (fSetSign f a (b.testBit (w - 1)), 0))),
      (.vfscale t r o, rb, o.d, o.k, fun l => subsF w (fun e => fScale f r (x l e) (sub w (vopdF s t o.b l) e).toInt)),
      (.vfdot2 t r o c, rc, o.d, o.k, fun l => subsF (2 * w) (fun e => fDot2 f (dotFmt t) r (x l (2 * e)) (x l (2 * e + 1))
        (y l (2 * e)) (y l (2 * e + 1)) (subN (2 * w) (rV s c l) e))),
      (.vfabs t u, ru, u.d, u.k, one (fun a => (fSetSign f a false, 0))),
      (.vfneg t u, ru, u.d, u.k, one (fun a => (fSetSign f a (!a.testBit (w - 1)), 0))),
      (.vfsqrt t r u, ru, u.d, u.k, one (fSqrt f r)), (.vfrcp t r u, ru, u.d, u.k, one (fRcp f r)),
      (.vfrsq t r u, ru, u.d, u.k, one (fRsq f r)), (.vfexp2 t r u, ru, u.d, u.k, one (fExp2 f r)),
      (.vflog2 t r u, ru, u.d, u.k, one (fLog2 f r)), (.vfsinpi t r u, ru, u.d, u.k, one (fSinPi f r)),
      (.vfcospi t r u, ru, u.d, u.k, one (fCosPi f r)), (.vftanh t r u, ru, u.d, u.k, one (fTanh f r)),
      (.vfrnd t r u, ru, u.d, u.k, one (fRndInt f r)), (.vfclass t u, ru, u.d, u.k, one (fun a => (fClass f a, 0)))]
      : List (Instr × List VReg × VReg × KReg × (Nat → Word64 × FFlags))),
    canName s p.2.1 → let act := actOf s p.2.2.2.1
    ∃ q, exec p.1 s = .next q ∧ completes s q (nextPc s)
      ∧ (∀ l < 32, rV q p.2.2.1 l = if act.getLsbD l then (p.2.2.2.2 l).1 else rV s p.2.2.1 l)
      ∧ q.g.fpstat = s.g.fpstat ||| laneFlags act p.2.2.2.2 ∧ q.g.live = s.g.live ∧ sKept s q (fun _ => False)
      ∧ kKept s q (fun _ => False) ∧ vKept s q (fun r l => r = p.2.2.1 ∧ act.getLsbD l = true) ∧ memKept s q

/-- R327 to R330: vfcvt converts part PART of the wider side in each acting lane; a conversion to N4 in which an acting
element has a scale byte with E = 63 raises F_ILLOP. -/
def Obligations.ConversionResult : Prop :=
  ∀ (s : State) (dst src : Ty5) (nsat : Bool) (r : Rnd) (o : VUn) (part : BitVec 4) (q seg : BitVec 2) (sc : VReg),
  let act := actOf s o.k; let scale := fun j => scaleByte s sc (n4Block q seg j)
  let f := fun l => cvtLane dst src nsat r part.toNat scale l (rV s o.a l) (rV s o.d l)
  let i := Instr.vfcvt dst src nsat r o part q seg sc
  canName s (if dst = .n4 ∨ src = .n4 then [o.d, o.a, sc] else [o.d, o.a]) →
  (cvtBadScale dst src act part.toNat scale = false → ∃ t, exec i s = .next t ∧ completes s t (nextPc s)
      ∧ (∀ l < 32, rV t o.d l = if act.getLsbD l then (f l).1 else rV s o.d l)
      ∧ t.g.fpstat = s.g.fpstat ||| laneFlags act f ∧ t.g.live = s.g.live ∧ sKept s t (fun _ => False)
      ∧ kKept s t (fun _ => False) ∧ vKept s t (fun r l => r = o.d ∧ act.getLsbD l = true) ∧ memKept s t)
  ∧ (cvtBadScale dst src act part.toNat scale = true → exec i s = .next (raiseI 1 s))

/-- R334, R337, R341, R348, R349: element by element, shuffles, broadcast, pack and unpack write their acting lanes with
values the live lanes supply (a dead lane supplies 0). R342, R347: votes give every acting lane the same word; vperm takes
each acting lane from the 64 supplied lanes. -/
def Obligations.ElementMoveResult : Prop :=
  (
  ∀ (s : State) (w : IW) (o : VTri) (u : VUn) (b : SReg) (sg : BitVec 4) (sat : Sat) (sx : Bool) (part : BitVec 1),
  sg.toNat ≤ w.logN → let n := w.width; let g := if sg = 0 then elems n else 2 ^ sg.toNat
  let j := fun i => elemOf n (rV s o.b) i; let base := fun i => i - i % g
  ∀ p ∈ ([(.vshf_o w o sg, [o.d, o.a, o.b], o.d, o.k, n, fun i => supElem s n o.a (if j i < g then base i + j i else i)),
      (.vshf_w w o sg, [o.d, o.a, o.b], o.d, o.k, n, fun i => supElem s n o.a (base i + j i % g)),
      (.vshf_c w o sg, [o.d, o.a, o.b], o.d, o.k, n, fun i => supElem s n o.a (base i + min (j i) (g - 1))),
      (.vbcast w u b sg, [u.d, u.a], u.d, u.k, n, fun i => supElem s n u.a (base i + (rS s b).toNat % g)),
      (.vpack w sat o, [o.d, o.a, o.b], o.d, o.k, n / 2,
        fun i => packVal n sat (if i < elems n then supElem s n o.a i else supElem s n o.b (i - elems n))),
      (.vunpk w sx part u, [u.d, u.a], u.d, u.k, 2 * n,
        fun i => let x := supElem s n u.a (part.toNat * (elems n / 2) + i); if sx ∧ 2 ^ (n - 1) ≤ x then x + 2 ^ (2 * n) - 2 ^ n else x)]
      : List (Instr × List VReg × VReg × KReg × Nat × (Nat → Nat))),
    p.1.wf = true → canName s p.2.1 → let m := p.2.2.2.2.1; let act := actOf s p.2.2.2.1
    ∃ t, exec p.1 s = .next t ∧ completes s t (nextPc s)
      ∧ (∀ i < elems m, act.getLsbD (i / (64 / m)) → elemOf m (rV t p.2.2.1) i = p.2.2.2.2.2 i)
      ∧ onlyV s t p.2.2.1 act ∧ memKept s t)
  ∧ (
  ∀ (s : State) (f : BitVec 2) (u : VUn) (o : VTri) (c : VReg), f ≠ 3 →
  let set := fun l => s.g.live.getLsbD l && rV s u.a l != 0
  (canName s [u.d, u.a] → ∃ t, exec (.vvote f u) s = .next t ∧ completes s t (nextPc s)
    ∧ (∀ l < 32, (actOf s u.k).getLsbD l = true → rV t u.d l =
        if f = 0 then (if (List.range 32).any set then 1 else 0)
        else if f = 1 then (if (List.range 32).all (fun m => !s.g.live.getLsbD m || set m) then 1 else 0)
        else (maskOf set).zeroExtend 64) ∧ onlyV s t u.d (actOf s u.k) ∧ memKept s t)
  ∧ (canName s [o.d, o.a, o.b, c] → ∃ t, exec (.vperm o c) s = .next t ∧ completes s t (nextPc s)
    ∧ (∀ l < 32, (actOf s o.k).getLsbD l = true → let j := (rV s c l).toNat % 64
        rV t o.d l = if s.g.live.getLsbD (j % 32) then rV s (if j < 32 then o.a else o.b) (j % 32) else 0)
    ∧ onlyV s t o.d (actOf s o.k) ∧ memKept s t))

/-- R343 to R346: vred writes the pairwise tree's result to every element of the acting lanes; a scan writes its inclusive or
exclusive prefixes, and the affine scan its pair of results to a and d. Without an acting lane nothing is written. -/
def Obligations.ReductionAndScanResult : Prop :=
  ∀ (s : State) (f : BitVec 4) (ty : BitVec 2) (r : Rnd) (o : VUn) (c : VReg), let n := redW f ty; let act := actOf s o.k
  let steps := Nat.log2 (elems n)
  let red := treeRed (redOp f ty r) steps (redElems s act n (redId f ty) o.a) 0
  let sc := scanFrom (redOp f ty r) steps 1 (redElems s act n (redId f ty) o.a) 0
  (f.toNat < 11 → canName s [o.d, o.a] →
    ∀ p ∈ ([(.vred f ty r o, (fun _ => red.1.headD 0), red.2), (.vscan_inc f ty r o c, (fun i => sc.1.getD i 0), sc.2),
        (.vscan_exc f ty r o c, (fun i => (redId f ty :: sc.1).getD i 0), sc.2)] : List (Instr × (Nat → Nat) × FFlags)),
      ∃ t, exec p.1 s = .next t ∧ completes s t (nextPc s)
        ∧ (∀ l < 32, rV t o.d l = if act.getLsbD l then laneOfElems n p.2.1 l else rV s o.d l)
        ∧ t.g.fpstat = (if act = 0 then s.g.fpstat else s.g.fpstat ||| p.2.2) ∧ t.g.live = s.g.live ∧ sKept s t (fun _ => False)
        ∧ kKept s t (fun _ => False) ∧ vKept s t (fun q l => q = o.d ∧ act.getLsbD l = true) ∧ memKept s t)
  ∧ (f = 11 → o.a ≠ o.d → canName s [o.d, o.a, c] →
    let ff := fmtOf (Machine.redTy ty); let one := (fRound ff .rne false 1 0 false).1; let z := fZero ff true
    let x := scanFrom (affOp ff r) steps 1 (List.zip (redElems s act n one o.a) (redElems s act n z c)) 0
    ∀ p ∈ ([(.vscan_inc f ty r o c, x.1), (.vscan_exc f ty r o c, (one, z) :: x.1)] : List (Instr × List (Nat × Nat))),
      ∃ t, exec p.1 s = .next t ∧ completes s t (nextPc s)
        ∧ (∀ l < 32, act.getLsbD l = true → rV t o.a l = laneOfElems n (fun i => (p.2.getD i (one, z)).1) l
            ∧ rV t o.d l = laneOfElems n (fun i => (p.2.getD i (one, z)).2) l)
        ∧ t.g.fpstat = (if act = 0 then s.g.fpstat else s.g.fpstat ||| x.2)
        ∧ vKept s t (fun q l => (q = o.d ∨ q = o.a) ∧ act.getLsbD l = true) ∧ memKept s t)

/-- R338 to R340: vnbr takes the element at distance D (0 means 1), and beyond the register's edge 0, the element from the
other edge, or, chained, an element of the partner's posting; with no valid link it takes 0 and sets CHZ. R350: a vxshf that
its partner has matched takes the partner's value in the lanes on which both sides act, and its own in the other acting lanes. -/
def Obligations.NeighbourAndPairResult : Prop :=
  (
  ∀ (s : State) (f : BitVec 3) (w : IW) (o : VUn) (dist : BitVec 9), f.toNat < 6 → canName s [o.d, o.a] →
  let n := w.width; let m := elems n; let d := if dist = 0 then 1 else dist.toNat; d ≤ m →
  let right := decide (3 ≤ f.toNat); let act := actOf s o.k
  let value := fun (edge : Nat → Nat) (i : Nat) =>
    if right then (if i + d < m then supElem s n o.a (i + d) else edge (i + d - m))
    else (if d ≤ i then supElem s n o.a (i - d) else edge (i + m - d))
  let result := fun (t : State) (edge : Nat → Nat) =>
    t.g.pc = nextPc s ∧ (∀ l < 32, rV t o.d l = if act.getLsbD l then laneOfElems n (value edge) l else rV s o.d l) ∧ onlyV s t o.d act
  (f.toNat % 3 = 0 → ∃ t, exec (.vnbr f w o dist) s = .next t ∧ completes s t (nextPc s) ∧ result t (fun _ => 0) ∧ memKept s t)
  ∧ (f.toNat % 3 = 1 → ∃ t, exec (.vnbr f w o dist) s = .next t ∧ completes s t (nextPc s) ∧ result t (supElem s n o.a) ∧ memKept s t)
  ∧ (f.toNat % 3 = 2 → chRd s.g right + 1 ≤ chPo s.g right → linkOf s right = none →
      ∃ t, exec (.vnbr f w o dist) s = .next t ∧ t.g.chz = true ∧ result t (fun _ => 0) ∧ memKept s t)
  ∧ (f.toNat % 3 = 2 → chRd s.g right + 1 ≤ chPo s.g right → ∀ h p, linkOf s right = some h →
      s.d.chain.find? (fun p => p.src == h.idn.gid && p.right == right && p.k == chRd s.g right + 1) = some p →
      ∃ t, exec (.vnbr f w o dist) s = .next t ∧ result t (fun i => elemOf n (imageLane p.data) i) ∧ memKept s t))
  ∧ (
  ∀ (s : State) (o : VUn) (b : SReg) (p : XPost), canName s [o.d, o.a] → s.g.idn.kind ≠ .window → s.g.idn.kind ≠ .job →
  xwBad (rS s b) = false → s.d.xposts.find? (fun p => p.reply && p.dst == s.g.idn.gid) = some p →
  let act := actOf s o.k
  ∃ t, exec (.vxshf o b) s = .next t ∧ t.g.pc = nextPc s
    ∧ (∀ l < 32, rV t o.d l = if act.getLsbD l then (if p.act.getLsbD l then imageLane p.data l else supLane s o.a l) else rV s o.d l)
    ∧ onlyV s t o.d act ∧ memKept s t)

/-! ### Memory instructions -/

/-- R125, R353, R360 to R362: a load whose lanes pass their checks and that waits for nothing loads its lanes in ascending
order, then does its acquire, and completes. R125, R361: a store whose lanes pass their checks and that waits for nothing
performs its lanes and completes. The model's own (DESIGN CHOICE): a load writes its lanes and completes in one step once nothing it
waits for is left (log 15), and the ST unit that a store of a replay goes on with (log 47). -/
def Obligations.AccessCompletes : Prop :=
  (
  ∀ (s : State) (d a : SReg) (v u : VReg) (k : KReg) (w : IW) (sx : Bool) (off : BitVec 21) (q : MemQ),
  let n := w.width / 8; let act := actOf s k
  ∀ p ∈ ([(.ld_s d a w sx off q, [], s.g.live, globScalar s 0 1 n a off, putS d w sx),
      (.ld_v v a k off q, [v], act, globContig s 0 1 a off act, putV v .w64 false),
      (.ld_g v u w sx k off q, [v, u], act, globGather s 0 1 n u off act, putV v w sx),
      (.ld_x 0 v u w sx k off q, [], s.g.live, scrScalar s 1 n (Machine.sOf u) off, putS (Machine.sOf v) w sx),
      (.ld_x 1 v u w sx k off q, [v], act, scrContig s 1 (Machine.sOf u) off act, putV v .w64 false),
      (.ld_x 2 v u w sx k off q, [v, u], act, scrGather s 1 n u off act, putV v w sx)]
      : List (Instr × List VReg × Word32 × List LaneAcc × (Nat → Nat → State → State))),
    canName s p.2.1 → allOk p.2.2.2.1 → loadReady s q p.2.2.2.1 →
    let t := loadLanes q.hint p.2.2.2.2 p.2.2.2.1 s
    exec p.1 s = .next (retire p.2.2.1 (raiseLd p.2.2.2.1.isEmpty
      (if q.ord = 1 ∧ 2 ≤ q.scope.toNat then selfInvalidate t.g.idn.core t else t))))
  ∧ (
  ∀ (s : State) (d a : SReg) (v u : VReg) (k : KReg) (w : IW) (off : BitVec 21) (q : MemQ),
  let n := w.width / 8; let act := actOf s k
  ∀ p ∈ ([(.st_s d a w off q, [], s.g.live, globScalar s 1 1 n a off, fun _ => (rS s d).toNat),
      (.st_v v a k off q, [v], act, globContig s 1 1 a off act, fun l => (rV s v l).toNat),
      (.st_g v u w k off q, [v, u], act, globGather s 1 1 n u off act, fun l => (rV s v l).toNat),
      (.st_x 0 v u w k off q, [], s.g.live, scrScalar s 1 n (Machine.sOf u) off, fun _ => (rS s (Machine.sOf v)).toNat),
      (.st_x 1 v u w k off q, [v], act, scrContig s 1 (Machine.sOf u) off act, fun l => (rV s v l).toNat),
      (.st_x 2 v u w k off q, [v, u], act, scrGather s 1 n u off act, fun l => (rV s v l).toNat)]
      : List (Instr × List VReg × Word32 × List LaneAcc × (Nat → Nat))),
    canName s p.2.1 → allOk p.2.2.2.1 → storeReady s q p.2.2.2.1 →
    exec p.1 s = .next (retire p.2.2.1 (storeLanes q.hint (stUnit s) (p.2.2.2.1.map (fun x => (x, p.2.2.2.2 x.lane % 256 ^ x.n))) s)))

/-- R20, R356, R360: a scratch load writes each lane's destination with its bytes, extended, and changes no byte of memory and
no other register; its unit counts in LD (R116). -/
def Obligations.ScratchLoadResult : Prop :=
  ∀ (s : State) (v u : VReg) (k : KReg) (w : IW) (sx : Bool) (off : BitVec 21) (q : MemQ) (loc : Nat → SLoc),
  let n := w.width / 8; let act := actOf s k; keepsL1 q →
  (let a := scrLane s 1 0 (rS s (Machine.sOf u)) off.toInt n; let d := Machine.sOf v;
    a.res = .ok (.scr (loc 0)) → sramPoisoned s (loc 0).core (loc 0).off n = false → loadReady s q [a] →
    ∃ t, exec (.ld_x 0 v u w sx k off q) s = .next t ∧ completes (raiseLd false s) t (nextPc s)
      ∧ rS t d = (if d = 0 then 0 else extW w sx (sramBytes s (loc 0).core (loc 0).off n)) ∧ onlyS s t d ∧ memKept s t)
  ∧ ∀ p ∈ ([(.ld_x 1 v u .w64 false k off q, [v], scrContig s 1 (Machine.sOf u) off act, 8, extW .w64 false),
      (.ld_x 2 v u w sx k off q, [v, u], scrGather s 1 n u off act, n, extW w sx)]
      : List (Instr × List VReg × List LaneAcc × Nat × (Nat → Word64))),
    canName s p.2.1 → loadReady s q p.2.2.1 →
    (∀ a ∈ p.2.2.1, a.res = .ok (.scr (loc a.lane)) ∧ sramPoisoned s (loc a.lane).core (loc a.lane).off p.2.2.2.1 = false) →
    ∃ t, exec p.1 s = .next t ∧ completes (raiseLd p.2.2.1.isEmpty s) t (nextPc s)
      ∧ (∀ l < 32, rV t v l = if act.getLsbD l then p.2.2.2.2 (sramBytes s (loc l).core (loc l).off p.2.2.2.1) else rV s v l)
      ∧ onlyV s t v act ∧ memKept s t

/-- R54, R360: a global load served by the core's own sector writes each lane's destination with its bytes, extended, and
changes no byte of memory and no other register. R59: a fill leaves the whole sector valid at the core, in an empty L1 with
the bytes that the home and the other owners hold. -/
def Obligations.GlobalHitLoadResult : Prop :=
  (
  ∀ (s : State) (d a : SReg) (v u : VReg) (k : KReg) (w : IW) (sx : Bool) (off : BitVec 21) (q : MemQ) (seg : Nat → Seg),
  let n := w.width / 8; let act := actOf s k; let core := s.g.idn.core; keepsL1 q → isDet s s.g = false →
  (let x := globLane s 0 1 0 (rS s a + off.signExtend 64).toNat n;
    hitLane s x (seg 0) → loadReady s q [x] →
    ∃ t, exec (.ld_s d a w sx off q) s = .next t ∧ t.g.pc = nextPc s
      ∧ rS t d = (if d = 0 then 0 else extW w sx (coreBytes s core (seg 0).pa n)) ∧ onlyS s t d ∧ memKept s t)
  ∧ ∀ p ∈ ([(.ld_v v a k off q, [v], globContig s 0 1 a off act, 8, extW .w64 false),
      (.ld_g v u w sx k off q, [v, u], globGather s 0 1 n u off act, n, extW w sx)]
      : List (Instr × List VReg × List LaneAcc × Nat × (Nat → Word64))),
    canName s p.2.1 → loadReady s q p.2.2.1 → (∀ x ∈ p.2.2.1, hitLane s x (seg x.lane)) →
    ∃ t, exec p.1 s = .next t ∧ t.g.pc = nextPc s
      ∧ (∀ l < 32, rV t v l = if act.getLsbD l then p.2.2.2.2 (coreBytes s core (seg l).pa p.2.2.2.1) else rV s v l)
      ∧ onlyV s t v act ∧ memKept s t)
  ∧ (
  ∀ (s : State) (core ctx va sec : Nat) (leaf : Word64), s.m.l1 = [] → homeRoom s sec → aliasKnown s core ctx va (128 * sec) →
  let t := fillNow core ctx va sec leaf s
  ∃ x, l1At t core sec = some x ∧ x.valid = BitVec.allOnes 128 ∧ x.data = (cohSector s sec (some core)).data
    ∧ x.poison = (cohSector s sec (some core)).poison ∧ x.ctx = ctx ∧ x.vsec = va / 128 ∧ x.held = 0
    ∧ (∀ pa, cohByte t pa = cohByte s pa))

/-- R20, R125, R361: a scratch store writes the low bytes of its source at each acting lane's place, a higher lane over a
lower one, and changes no other byte of any scratchpad, no byte of global memory and no register. -/
def Obligations.ScratchStoreResult : Prop :=
  ∀ (s : State) (v u : VReg) (k : KReg) (w : IW) (off : BitVec 21) (q : MemQ) (loc : Nat → SLoc),
  let n := w.width / 8; let act := actOf s k
  let others := fun (t : State) => t.g.pc = nextPc s ∧ regsKept s t ∧ (∀ pa, cohByte t pa = cohByte s pa)
    ∧ (∀ core pa, coreByte t core pa = coreByte s core pa) ∧ t.rest = s.rest
  (let a := scrLane s 1 0 (rS s (Machine.sOf u)) off.toInt n;
    a.res = .ok (.scr (loc 0)) → storeReady s q [a] →
    ∃ t, exec (.st_x 0 v u w k off q) s = .next t ∧ others t
      ∧ (∀ i < n, sramByte t (loc 0).core ((loc 0).off + i) = BitVec.ofNat 8 ((rS s (Machine.sOf v)).toNat / 256 ^ i))
      ∧ sramKeptBut s t (loc 0).core (loc 0).off n)
  ∧ ∀ p ∈ ([(.st_x 1 v u .w64 k off q, [v], scrContig s 1 (Machine.sOf u) off act, 8),
      (.st_x 2 v u w k off q, [v, u], scrGather s 1 n u off act, n)] : List (Instr × List VReg × List LaneAcc × Nat)),
    canName s p.2.1 → storeReady s q p.2.2.1 → (∀ a ∈ p.2.2.1, a.res = .ok (.scr (loc a.lane))) →
    let covers := fun (l c o : Nat) => l < 32 ∧ act.getLsbD l = true ∧ sramKey (loc l).core (loc l).off ≤ sramKey c o
      ∧ sramKey c o < sramKey (loc l).core (loc l).off + p.2.2.2
    ∃ t, exec p.1 s = .next t ∧ others t
      ∧ (∀ c o, (∀ l, ¬covers l c o) → sramByte t c o = sramByte s c o)
      ∧ (∀ l c o, covers l c o → (∀ j, l < j → ¬covers j c o) → sramByte t c o =
          BitVec.ofNat 8 ((rV s v l).toNat / 256 ^ (sramKey c o - sramKey (loc l).core (loc l).off)))

/-- R58: a plain store that finds its sector in the core's L1 writes the bytes there, marks them valid and written, asks for
registration of the bytes that none of a word in P or O covers yet, all of those of a word in W among them, and leaves every
other byte that any core or the home reads. R68: a store under hint 1 or 2
whose sector the core does not hold is sent through to the home with its bytes, hint 2 marking it to bypass, and changes
nothing in the L1. The same of the acting lanes of the vector forms, a higher lane over a lower one (R125). -/
def Obligations.GlobalStoreResult : Prop :=
  (
  ∀ (s : State) (d a : SReg) (w : IW) (off : BitVec 21) (q : MemQ) (g : Seg) (x : L1Sec),
  let n := w.width / 8; let core := s.g.idn.core; let sec := g.pa / 128
  let c := globLane s 1 1 0 (rS s a + off.signExtend 64).toNat n; let m := span128 (g.pa % 128) n
  let new := m &&& ~~~(x.reg &&& ~~~wordBytes x.w)
  c.res = .ok (.glob [g]) → g.hit = true → g.n = n → g.pa % 128 + n ≤ 128 → sec < 2 ^ 45 → l1At s core sec = some x →
  aliasKnown s core s.g.idn.ctx g.va g.pa → storeReady s q [c] → q.hint = 0 → noReplay s →
  ∃ t y, exec (.st_s d a w off q) s = .next t ∧ t.g.pc = nextPc s ∧ regsKept s t ∧ l1At t core sec = some y
    ∧ (∀ i < n, secByte y.data (g.pa % 128 + i) = BitVec.ofNat 8 ((rS s d).toNat / 256 ^ i))
    ∧ (∀ i < 128, m.getLsbD i = false → secByte y.data i = secByte x.data i)
    ∧ y.valid = x.valid ||| m ∧ y.reg = x.reg ||| m ∧ y.held = x.held ||| maskWords m ∧ y.o = x.o ∧ y.w = x.w
    ∧ y.drop = x.drop &&& ~~~maskWords m ∧ y.poison = x.poison &&& ~~~m
    ∧ t.agenda = s.agenda ++ (if new = 0 then [] else [.rego core sec new])
    ∧ (∀ c' p', p' < 2 ^ 52 → ¬(c' = core ∧ p' / 128 = sec) → l1At t c' (p' / 128) = l1At s c' (p' / 128)) ∧ t.m.l2 = s.m.l2
    ∧ t.m.dir = s.m.dir ∧ t.m.mem = s.m.mem ∧ t.m.sram = s.m.sram)
  ∧ (
  ∀ (s : State) (d a : SReg) (w : IW) (off : BitVec 21) (q : MemQ) (g : Seg),
  let n := w.width / 8; let core := s.g.idn.core; let sec := g.pa / 128; let m := span128 (g.pa % 128) n
  let c := globLane s 1 1 0 (rS s a + off.signExtend 64).toNat n
  c.res = .ok (.glob [g]) → g.hit = false → leafKind g.x.leaf < 2 → setD g.x.leaf = g.x.leaf →
  g.n = n → g.pa % 128 + n ≤ 128 → l1At s core sec = none → storeReady s q [c] → (q.hint = 1 ∨ q.hint = 2) → noReplay s →
  ∃ t, exec (.st_s d a w off q) s = .next t ∧ t.g.pc = nextPc s ∧ regsKept s t ∧ memKeptOut s t
    ∧ ∃ dd, t.agenda = s.agenda ++ [.wt core sec { mask := m, data := dd } false (q.hint == 2)]
      ∧ ∀ i < n, secByte dd (g.pa % 128 + i) = BitVec.ofNat 8 ((rS s d).toNat / 256 ^ i))
  ∧ (
  ∀ (s : State) (a : SReg) (v u : VReg) (k : KReg) (w : IW) (off : BitVec 21) (q : MemQ) (g : Nat → Seg),
  let act := actOf s k; let core := s.g.idn.core
  ∀ p ∈ ([(.st_v v a k off q, [v], globContig s 1 1 a off act, 8), (.st_g v u w k off q, [v, u], globGather s 1 1 (w.width / 8) u off act, w.width / 8)]
      : List (Instr × List VReg × List LaneAcc × Nat)), let n := p.2.2.2
    canName s p.2.1 → storeReady s q p.2.2.1 → noReplay s →
    (∀ x ∈ p.2.2.1, x.res = .ok (.glob [g x.lane]) ∧ (g x.lane).n = n ∧ (g x.lane).pa % 128 + n ≤ 128 ∧ (g x.lane).pa < 2 ^ 52) →
    let covers := fun (l pa : Nat) => l < 32 ∧ act.getLsbD l = true ∧ (g l).pa ≤ pa ∧ pa < (g l).pa + n
    let byteOf := fun (l pa : Nat) => BitVec.ofNat 8 ((rV s v l).toNat / 256 ^ (pa - (g l).pa))
    (q.hint = 0 → (∀ x ∈ p.2.2.1, (g x.lane).hit = true ∧ (l1At s core ((g x.lane).pa / 128)).isSome = true
        ∧ aliasKnown s core s.g.idn.ctx (g x.lane).va (g x.lane).pa) →
      ∃ t, exec p.1 s = .next t ∧ t.g.pc = nextPc s ∧ regsKept s t ∧ t.m.mem = s.m.mem ∧ t.m.l2 = s.m.l2 ∧ t.m.dir = s.m.dir ∧ t.m.sram = s.m.sram
        ∧ (∀ l pa, covers l pa → (∀ j, l < j → ¬covers j pa) → coreByte t core pa = byteOf l pa
            ∧ ∃ y, l1At t core (pa / 128) = some y ∧ y.valid.getLsbD (pa % 128) = true ∧ y.reg.getLsbD (pa % 128) = true
              ∧ y.held.getLsbD (pa % 128 / 8) = true)
        ∧ (∀ l pa x, covers l pa → l1At s core (pa / 128) = some x → (x.reg &&& ~~~wordBytes x.w).getLsbD (pa % 128) = false →
            ∃ m, .rego core (pa / 128) m ∈ t.agenda ∧ m.getLsbD (pa % 128) = true)
        ∧ (∀ pa, pa < 2 ^ 52 → (∀ l, ¬covers l pa) → inTable s (2 * (pa / 128)) = false →
            cohByte t pa = cohByte s pa ∧ ∀ c, coreByte t c pa = coreByte s c pa))
    ∧ (q.hint = 1 ∨ q.hint = 2 → (∀ x ∈ p.2.2.1, (g x.lane).hit = false ∧ leafKind (g x.lane).x.leaf < 2
        ∧ setD (g x.lane).x.leaf = (g x.lane).x.leaf ∧ l1At s core ((g x.lane).pa / 128) = none) →
      ∃ t, exec p.1 s = .next t ∧ t.g.pc = nextPc s ∧ regsKept s t ∧ memKeptOut s t
        ∧ ∀ l pa, covers l pa → (∀ j, l < j → ¬covers j pa) → ∃ d, .wt core (pa / 128) d false (q.hint == 2) ∈ t.agenda
            ∧ d.mask.getLsbD (pa % 128) = true ∧ secByte d.data (pa % 128) = byteOf l pa))

/-- R363 to R366: an atomic whose lanes pass their checks and that waits for nothing performs its lanes in ascending order,
then its acquire, and its flags go into FPSTAT as it completes; a non-returning one without an acquire that needs no answer in
device memory is sent to its home instead. The ST unit of a replay is the model's choice (log 47). -/
def Obligations.AtomicCompletes : Prop :=
  ∀ (s : State) (o : AtOp) (d a b c : SReg) (v u x y : VReg) (k : KReg),
  let n := (if o.w64 then 64 else 32) / 8; let act := actOf s k; let w := 2 ^ (8 * n)
  let names := [u, x] ++ (if o.nr then [] else [v]) ++ (if o.aop = 10 then [y] else [])
  let lane := fun (l : Nat) (z : Word64) (s : State) => { s with g := putLane s.g v.toNat l z }
  ∀ p ∈ ([(.at_s o d a b c, true, [], s.g.live, globScalar s 2 n n a o.off, (fun _ => (rS s b).toNat % w),
        (fun _ => (rS s c).toNat % w), fun _ z s => wS s d z),
      (.at_g o v u x y k, true, names, act, globGather s 2 n n u o.off act, (fun l => (rV s x l).toNat % w),
        (fun l => (rV s y l).toNat % w), lane),
      (.at_x 0 o v u x y k, false, [], s.g.live, scrScalar s n n (Machine.sOf u) o.off, (fun _ => (rS s (Machine.sOf x)).toNat % w),
        (fun _ => (rS s (Machine.sOf y)).toNat % w), fun _ z s => wS s (Machine.sOf v) z),
      (.at_x 2 o v u x y k, false, names, act, scrGather s n n u o.off act, (fun l => (rV s x l).toNat % w),
        (fun l => (rV s y l).toNat % w), lane)]
      : List (Instr × Bool × List VReg × Word32 × List LaneAcc × (Nat → Nat) × (Nat → Nat) × (Nat → Word64 → State → State))),
    canName s p.2.2.1 → allOk p.2.2.2.2.1 → atomReady s o p.2.2.2.2.1 →
    let ls := p.2.2.2.2.1; let bv := p.2.2.2.2.2.1; let cv := p.2.2.2.2.2.2.1; let put := p.2.2.2.2.2.2.2
    let t := if o.nr ∧ p.2.1 ∧ o.ord.toNat % 2 = 0 ∧ o.aop ≠ 11 ∧ (∀ a ∈ ls, ∀ g ∈ a.segs, g.kind < 2) then atSend o bv cv (stUnit s) ls s
      else if o.nr then raiseSt (stUnit s) 0 (atLanes o bv cv put ls s) else raiseLd ls.isEmpty (atLanes o bv cv put ls s)
    exec p.1 s = .next (retire p.2.2.2.1 (payFlags
      (if o.ord.toNat % 2 = 1 ∧ 2 ≤ o.scope.toNat then selfInvalidate t.g.idn.core t else t)))

/-- R363, R364: a returning scratch atomic of the scalar form gives the old value, leaves the new value in its bytes, and
changes no other byte and no other register but FPSTAT, into which its flags go, with those of lanes it performed before a
fault. R66, R364: an atomic on a word that no core owns gives the old value from the home's sector and leaves the new value there,
every other byte unchanged. R364: the operation of each AOP from 0 to 11, and what it returns. R125, R365: the lanes of a gather, returning
or not, perform one after the other, in a scratchpad and at the homes; a non-returning one in device memory that is not an acquire sends
each home its sector's lanes in their order. -/
def Obligations.AtomicResult : Prop :=
  (
  ∀ (s : State) (o : AtOp) (v u x y : VReg) (k : KReg) (loc : SLoc), let n := if o.w64 then 64 else 32
  let a := scrLane s (n / 8) 0 (rS s (Machine.sOf u)) o.off.toInt (n / 8); let d := Machine.sOf v
  o.nr = false → a.res = .ok (.scr loc) → sramPoisoned s loc.core loc.off (n / 8) = false → atomReady s o [a] →
  o.ord.toNat % 2 = 0 ∨ o.scope.toNat < 2 →
  let old := sramBytes s loc.core loc.off (n / 8)
  let new := atomNew o.aop.toNat n o.r old ((rS s (Machine.sOf x)).toNat % 2 ^ n) ((rS s (Machine.sOf y)).toNat % 2 ^ n)
  ∃ t, exec (.at_x 0 o v u x y k) s = .next t ∧ t.g.pc = nextPc s ∧ rS t d = (if d = 0 then 0 else atRet o old)
    ∧ sKept s t (fun r => r = d) ∧ kKept s t (fun _ => False) ∧ vKept s t (fun _ _ => False) ∧ t.g.live = s.g.live
    ∧ t.g.fpstat = s.g.fpstat ||| s.g.x.dueFlags ||| new.2
    ∧ (∀ i < n / 8, sramByte t loc.core (loc.off + i) = BitVec.ofNat 8 (new.1 / 256 ^ i))
    ∧ sramKeptBut s t loc.core loc.off (n / 8) ∧ (∀ pa, cohByte t pa = cohByte s pa))
  ∧ (
  ∀ (s : State) (pa aop n : Nat) (r : Rnd) (b c : Nat), n = 32 ∨ n = 64 → pa % 128 + n / 8 ≤ 128 → pa % (n / 8) = 0 →
  let sec := pa / 128; let old := (homeSector s sec).data.toNat / 256 ^ (pa % 128) % 256 ^ (n / 8)
  (homeSector s sec).poison &&& span128 (pa % 128) (n / 8) = 0 →
  unowned s sec → homeRoom s sec → inTable s (2 * sec) = false →
  let x := homeAtomic pa aop n r b c s; let new := atomNew aop n r old b c
  x.1 = (old, new.2, false) ∧ (∀ i < n / 8, cohByte x.2 (pa + i) = BitVec.ofNat 8 (new.1 / 256 ^ i))
    ∧ (∀ pa', ¬(pa ≤ pa' ∧ pa' < pa + n / 8) → cohByte x.2 pa' = cohByte s pa'))
  ∧ (
  ∀ (o : AtOp) (r : Rnd) (x y z : Nat), let n := if o.w64 then 64 else 32; x < 2 ^ n → y < 2 ^ n → z < 2 ^ n →
  let i := fun (v : Nat) => (BitVec.ofNat n v).toInt
  (∀ p ∈ ([(0, (x + y) % 2 ^ n), (1, (x + (2 ^ n - y)) % 2 ^ n), (2, x &&& y), (3, x ||| y), (4, x ^^^ y), (5, if i x ≤ i y then x else y),
      (6, Nat.min x y), (7, if i x ≤ i y then y else x), (8, Nat.max x y), (9, y), (10, if x = y then z else x)] : List (Nat × Nat)),
    atomNew p.1 n r x y z = (p.2, 0))
  ∧ atomNew 11 n r x y z = fAdd (if o.w64 then fmt64 else fmt32) r x y
  ∧ atRet o x = if o.aop = 5 ∨ o.aop = 7 then (BitVec.ofNat n x).signExtend 64 else BitVec.ofNat 64 x)
  ∧ (
  ∀ (s : State) (o : AtOp) (v u x y : VReg) (k : KReg), let n := if o.w64 then 64 else 32; let act := actOf s k; let core := s.g.idn.core
  let names := [u, x] ++ (if o.nr then [] else [v]) ++ (if o.aop = 10 then [y] else [])
  let b := fun l => (rV s x l).toNat % 2 ^ n; let c := fun l => (rV s y l).toNat % 2 ^ n
  let regs := fun (t : State) (old : Nat → Nat) => t.g.pc = nextPc s ∧ t.g.live = s.g.live ∧ sKept s t (fun _ => False) ∧ kKept s t (fun _ => False)
    ∧ vKept s t (fun r l => o.nr = false ∧ r = v ∧ act.getLsbD l = true)
    ∧ (o.nr = false → ∀ l < 32, act.getLsbD l = true → rV t v l = atRet o (old l))
  canName s names → o.ord.toNat % 2 = 0 →
  (∀ loc : Nat → SLoc, let ls := scrGather s (n / 8) (n / 8) u o.off act; atomReady s o ls →
    (∀ a ∈ ls, a.res = .ok (.scr (loc a.lane)) ∧ sramPoisoned s (loc a.lane).core (loc a.lane).off (n / 8) = false) →
    let z := atomWalk o.aop.toNat n o.r b c (fun l => sramKey (loc l).core (loc l).off) (ls.map (fun a => a.lane)) (cellGet s.m.sram)
    ∃ t, exec (.at_x 2 o v u x y k) s = .next t ∧ regs t z.old ∧ t.g.fpstat = s.g.fpstat ||| s.g.x.dueFlags ||| z.flags
      ∧ (∀ i, cellGet t.m.sram i = z.mem i) ∧ (∀ pa, cohByte t pa = cohByte s pa))
  ∧ (∀ g : Nat → Seg, let ls := globGather s 2 (n / 8) (n / 8) u o.off act; atomReady s o ls → noReplay s → s.agenda = [] →
    (∀ a ∈ ls, a.res = .ok (.glob [g a.lane]) ∧ (g a.lane).hit = false ∧ leafKind (g a.lane).x.leaf < 2
      ∧ setD (g a.lane).x.leaf = (g a.lane).x.leaf ∧ (g a.lane).pa % (n / 8) = 0 ∧ l1At s core ((g a.lane).pa / 128) = none) →
    (o.nr = false → (∀ a ∈ ls, let sec := (g a.lane).pa / 128; (amGet? s.m.l2 sec).isSome = true ∧ unowned s sec
        ∧ inTable s (2 * sec) = false ∧ (homeSector s sec).poison = 0) →
      let z := atomWalk o.aop.toNat n o.r b c (fun l => (g l).pa) (ls.map (fun a => a.lane)) (cohByte s)
      ∃ t, exec (.at_g o v u x y k) s = .next t ∧ regs t z.old ∧ t.g.fpstat = s.g.fpstat ||| s.g.x.dueFlags ||| z.flags
        ∧ ∀ pa, inTable s (2 * (pa / 128)) = false → cohByte t pa = z.mem pa)
    ∧ (o.nr = true → o.aop ≠ 11 →
      ∃ t, exec (.at_g o v u x y k) s = .next t ∧ regs t (fun _ => 0) ∧ memKeptOut s t
        ∧ ∀ e, e ∈ t.agenda ↔ ∃ a ∈ ls, e = .atom core ((g a.lane).pa / 128) o.aop o.w64 o.r
            ((ls.filter (fun i => (g i.lane).pa / 128 == (g a.lane).pa / 128)).map (fun i =>
              ⟨(g i.lane).pa % 128, BitVec.ofNat 64 (b i.lane), BitVec.ofNat 64 (c i.lane)⟩)))))

/-- R280: slit reads 8 aligned bytes of code at its own address plus the signed word displacement, and poison among them leaves its
destination and is delivered at the next boundary (R356). R367: a prefetch changes no
register; one of an address that would fault does nothing, and one that finds nothing in the L1 asks the home for the sector,
or, to the L2, brings it into the home. -/
def Obligations.CodeReadAndPrefetchResult : Prop :=
  (
  ∀ (s u : State) (d : SReg) (o : POff) (v : Nat),
  let va := s.g.pc.signExtend 64 + (match o with | .i11 v => v.signExtend 64 <<< 2 | .i32 v => v.signExtend 64 <<< 2)
  canonical va = true → va.toNat % 8 = 0 → codeSnoops s (agentOf s s.g) va.toNat 8 = [] →
  (codeRead s (agentOf s s.g) va.toNat 8 = .ok (v, u) →
    ∃ t, exec (.slit d o) s = .next t ∧ completes u t (nextPc u) ∧ rS t d = (if d = 0 then 0 else BitVec.ofNat 64 v) ∧ onlyS u t d)
  ∧ (∀ e, codeRead s (agentOf s s.g) va.toNat 8 = .error e → e.1.code = 11 →
    ∃ t, exec (.slit d o) s = .next t ∧ t.g.pc = nextPc s ∧ regsKept s t ∧ memKept s t ∧ t.g.x.eccu.isSome = true))
  ∧ (
  ∀ (s : State) (l2 lanes : Bool) (a : VReg) (k : KReg) (off : BitVec 21) (g : Seg),
  let va := (rS s (Machine.sOf a) + off.signExtend 64).toNat; let core := s.g.idn.core
  let seg := segOf s (agentOf s s.g) 0 (va / 128 * 128) 128
  ((lanes = true → canName s [a]) → ∃ t, exec (.pf l2 lanes a k off) s = .next t ∧ t.g.pc = nextPc s ∧ regsKept s t)
  ∧ (canonical (BitVec.ofNat 64 va) = false →
      ∃ t, exec (.pf l2 false a k off) s = .next t ∧ completes s t (nextPc s) ∧ regsKept s t ∧ memKept s t)
  ∧ (∀ e, seg = .error e →
      ∃ t, exec (.pf l2 false a k off) s = .next t ∧ regsKept s t ∧ memKeptOut s t ∧ t.agenda = s.agenda ∧ t.m.fills = s.m.fills)
  ∧ (canonical (BitVec.ofNat 64 va) = true → seg = .ok g → g.hit = false → leafKind g.x.leaf < 2 → setA g.x.leaf = g.x.leaf →
      fillPending s core (g.pa / 128) = false → homeRoom s (g.pa / 128) →
      (∃ t, exec (.pf false false a k off) s = .next t ∧ memKeptOut s t ∧ t.agenda = s.agenda ++ [.rds core (g.pa / 128) false]
        ∧ fillPending t core (g.pa / 128) = true)
      ∧ (inTable s (2 * (g.pa / 128)) = false →
        ∃ t, exec (.pf true false a k off) s = .next t ∧ memKeptOut s t ∧ (amGet? t.m.l2 (g.pa / 128)).isSome = true)))

/-- R136, R137, R368: a fence that waits for nothing completes; at cluster scope and wider its acquire part drops what the
core's L1 holds but has not written. R67, R369: cwb and cinv over a range whose addresses are canonical send every word of the
range that the core has written and not given up through to its home, and those words await their acknowledgement; cinv also
drops the range's other bytes, and those at their acknowledgement. A length of 0 does nothing. -/
def Obligations.FenceAndCacheResult : Prop :=
  (
  ∀ (s : State) (kind : BitVec 2) (scope : BitVec 3), let core := s.g.idn.core; let wide := decide (2 ≤ scope.toNat)
  (kind ≠ 0 → releaseWaits s scope.toNat = false) → (kind ≠ 1 → wide = true → coreFilling s core = false) →
  (kind ≠ 1 → 1 ≤ scope.toNat → atomsOut s = false) →
  ∃ t, exec (.fence kind scope) s = .next t ∧ t.g.pc = nextPc s ∧ regsKept s t ∧ t.agenda = s.agenda
    ∧ (∀ pa, cohByte t pa = cohByte s pa)
    ∧ (kind = 1 ∨ wide = false → completes s t (nextPc s) ∧ memKept s t)
    ∧ (kind ≠ 1 → wide = true → ∀ sec x, sec < 2 ^ 45 → l1At s core sec = some x →
        l1At t core sec = some { x with valid := x.valid &&& wordBytes x.held, kept := 0 }))
  ∧ (
  ∀ (s : State) (a b : SReg), let lo := (rS s a).toNat; let n := (rS s b).toNat; let core := s.g.idn.core
  ∀ p ∈ ([(.cwb a b, false), (.cinv a b, true)] : List (Instr × Bool)),
  (n = 0 → ∃ t, exec p.1 s = .next t ∧ t.g.pc = nextPc s ∧ regsKept s t ∧ memKept s t ∧ t.agenda = s.agenda)
  ∧ (0 < n → lo + n - 1 < 2 ^ 64 → canonical (BitVec.ofNat 64 lo) = true → canonical (BitVec.ofNat 64 (lo + n - 1)) = true →
      s.g.n.sts.length < 63 → amSorted 0 s.m.l1 = true → ∃ t, exec p.1 s = .next t ∧ t.g.pc = nextPc s ∧ regsKept s t ∧ t.m.l2 = s.m.l2 ∧ t.m.mem = s.m.mem
        ∧ ∀ sec x, sec < 2 ^ 45 → l1At s core sec = some x → x.ctx = s.g.idn.ctx → let ws := wordsIn x.vsec lo n
          ∃ y, l1At t core sec = some y ∧ y.p = x.p &&& ~~~ws ∧ y.o = x.o &&& ~~~ws ∧ y.w = x.w ||| ((x.p ||| x.o) &&& ws)
            ∧ y.data = x.data ∧ y.reg = x.reg
            ∧ y.valid = (if p.2 then x.valid &&& ~~~(wordBytes (ws &&& ~~~y.w)) else x.valid)
            ∧ y.drop = (if p.2 then x.drop ||| (ws &&& y.w) else x.drop)
            ∧ (x.reg &&& wordBytes ((x.p ||| x.o) &&& ws) ≠ 0 →
                Event.wt core sec { mask := x.reg &&& wordBytes ((x.p ||| x.o) &&& ws), data := x.data } true false ∈ t.agenda)))

/-- R95, R370: smap of an aligned range within the part's allocation adds a stash map and answers 0; it answers 1 for a
seventeenth map, 2 for an overlap and 3 for host memory, and then only writes its status. sunmap answers 0 and removes the map
that starts at its address, or answers 1. The model's choice (log 44): a write-back that would fault is a precise fault of the
sunmap of the group that made the map; another group's sunmap waits while that group has the fault, and ends where it is gone. -/
def Obligations.StashMapResult : Prop :=
  ∀ (s : State) (d a b c : SReg) (tm : Team) (e : PartEnt),
  let va := (rS s a).toNat; let n := (rS s b).toNat; let sa := (rS s c).toNat % 2 ^ 32; let off := sa % 2 ^ 24
  let part := s.g.idn.part; let mine := tm.stash.filter (fun m => m.part == part)
  let clash := mine.any (fun m => overlapR m.va m.size va n || overlapR m.off m.size off n)
  let host := (rangePages va n).any (fun v => match xlate s (agentOf s s.g) v 0 with | .ok x => decide (2 ≤ leafKind x.leaf) | .error _ => false)
  teamOf s s.g.idn.team = some tm → partEnt tm part = some e →
  (n % 128 = 0 → 0 < n → n ≤ 65536 → va % 128 = 0 → off % 128 = 0 → (sa / 2 ^ 24 = 0xFE ∨ sa / 2 ^ 24 = part) →
    off + n ≤ e.size * 4096 → badByte va n = none → pagesFault s (agentOf s s.g) 0 (rangePages va n) = none →
    (mine.length < 16 → clash = false → host = false →
      s.m.fills.any (fun f => f.core == s.g.idn.core && f.tag.ctx == s.g.idn.ctx && decide (va / 128 ≤ f.tag.vsec ∧ f.tag.vsec < (va + n) / 128)) = false →
      ∃ t, exec (.smap d a b c) s = .next t ∧ t.g.pc = nextPc s ∧ rS t d = 0
        ∧ (∃ u, teamOf t s.g.idn.team = some u ∧ u.stash = tm.stash ++ [{ part := part, va := va, size := n, off := off, gid := s.g.idn.gid }]))
    ∧ (16 ≤ mine.length ∨ clash = true ∨ host = true →
      ∃ t, exec (.smap d a b c) s = .next t ∧ completes s t (nextPc s)
        ∧ rS t d = (if d = 0 then 0 else if 16 ≤ mine.length then 1 else if clash then 2 else 3) ∧ onlyS s t d ∧ memKept s t))
  ∧ ((∀ m ∈ tm.stash, ¬(m.part = part ∧ m.va = va)) →
      ∃ t, exec (.sunmap d a) s = .next t ∧ completes s t (nextPc s) ∧ rS t d = (if d = 0 then 0 else 1) ∧ onlyS s t d ∧ memKept s t)
  ∧ (∀ m, tm.stash.find? (fun m => m.part == part && m.va == va) = some m →
      let unmapped := ∃ t u, exec (.sunmap d a) s = .next t ∧ t.g.pc = nextPc s ∧ rS t d = 0 ∧ teamOf t s.g.idn.team = some u
        ∧ u.stash = tm.stash.filter (fun m => !(m.part == part && m.va == va))
      (mapFault s tm m = none → unmapped)
      ∧ ∀ f x, mapFault s tm m = some (f, x) →
        (m.gid = s.g.idn.gid → exec (.sunmap d a) s =
          .next (raiseW { code := f.code, detail := f.detail, acc := 1, level := f.level, va := BitVec.ofNat 64 (128 * x.vsec), mask := 1 }
            (walkFault (stashAgent s s.g.idn.core x) (128 * x.vsec) 1 f.code s)))
        ∧ (m.gid ≠ s.g.idn.gid → (findGroup s m.gid).isSome = true → exec (.sunmap d a) s = .next (block (backFault m.gid x f s)))
        ∧ (m.gid ≠ s.g.idn.gid → findGroup s m.gid = none → (∀ c x, ctxOf s c = some x → x.pol = false) → unmapped))

/-! ### Copies, byte barriers, waits, the queue window -/

/-- R101, R102, R104, R105, R374 to R382: a copy instruction whose checks pass takes the lowest free slot with its operation,
its length and no byte done, and completes without changing a register or a byte. -/
def Obligations.CopyAccepted : Prop :=
  ∀ (s : State) (dir : BitVec 2) (d a b r : SReg) (n : CpyLen) (sx : Bool),
  let own := s.g.idn.part; let sel := fun (v : Word64) => selOf own (lo32 v / 2 ^ 24); let parts := s.g.idn.npart
  let accepted := fun (i : Instr) (opc : BitVec 4) (total : Nat) (bar : SReg) =>
    ∃ t c, exec i s = .next t ∧ completes { s with g := { s.g with n := t.g.n } } t (nextPc s) ∧ regsKept s t ∧ memKept s t
      ∧ t.g.n = { s.g.n with cps := s.g.n.cps ++ [c] } ∧ c.opc = opc ∧ c.total = total ∧ c.done = 0 ∧ c.finished = false
      ∧ c.parked = false ∧ c.claim = [] ∧ c.ahead = [] ∧ c.bv = (bar != 0) ∧ c.slot = lowestFree (copySlots s.g) 8
  isDet s s.g = false → copyFull s = false →
  (let len := cpyLen s n; let sg := dir = 0 ∨ dir = 3; let dg := dir = 1 ∨ dir = 3;
    0 < len → len < 2 ^ 24 → (if sg then linOvf (rS s a) len 4 else scrChk s (lo32 (rS s a)) len 4) = none →
    (if dg then linOvf (rS s d) len 5 else scrChk s (lo32 (rS s d)) len 5) = none →
    barChk s r (if dir = 3 then [own] else [sel (if dir = 1 then rS s a else rS s d)]) = none →
    accepted (.cpy dir d a n r) (dir.zeroExtend 4) len r)
  ∧ (let e := tidOf s ((rS s d).toNat / 2 ^ 32 % 256); let dims := tidD e; let tns := (List.range dims).map (tidTn e);
    let bytes := tns.foldl (fun x n => x * n) (tidNib e) / 2;
    let co := (List.range 5).map (fun i => if i < dims then ((rSn s a (i / 2)).extractLsb' (32 * (i % 2)) 32).toInt else 0);
    tidV e = true → a ≠ 0 → a.toNat + (dims + 1) / 2 - 1 ≤ 63 → 0 < bytes → bytes < 2 ^ 24 → tileBoxOk e co tns = true →
    tensorScratch (gTeam s) own e = none → barChk s b [sel (rS s d)] = none →
    (scrChk s (lo32 (rS s d)) bytes 5 = none → accepted (.cpyt_ld d a b) 4 bytes b)
    ∧ (scrChk s (lo32 (rS s d)) bytes 4 = none → accepted (.cpyt_st d a b) 5 bytes b))
  ∧ (let len := (rS s b).toNat / 2 ^ 24 % 2 ^ 24; let off := (rS s b).toNat % 2 ^ 24;
    0 < len → (if sx then scrChk s (lo32 (rS s a)) len 4 else linOvf (rS s a) len 4) = none → rS s d ≠ 0 → (rS s d).toNat < 2 ^ parts →
    scrChk s (0xFE * 2 ^ 24 + off) len 5 = none → barChk s r [own] = none → accepted (.cpym sx d a b r) 6 len r)
  ∧ (let w := (rS s b).toNat; let rows := w / 2 ^ 56 + 1; let loff := w / 2 ^ 32 % 2 ^ 24; let rl := (rSn s b 1).toNat % 2 ^ 24;
    let stride := ((rSn s b 1).extractLsb' 24 40).toInt; let idx := cpygList s rows loff;
    b.getLsbD 0 = false → 0 < rl → rows * rl < 2 ^ 24 → scrChk s (0xFE * 2 ^ 24 + loff) (4 * rows) 4 = none → loff % 4 = 0 →
    (∀ k < rows, let x := (rS s a).toInt + ((idx.getD k 0).toNat : Int) * stride; addrOk x = true ∧ addrOk (x + (rl : Int) - 1) = true) →
    scrChk s (lo32 (rS s d)) (rows * rl) 5 = none → barChk s r [sel (rS s d)] = none → accepted (.cpyg d a b r) 7 (rows * rl) r)

/-- R103, R107: one byte of a copy between scratchpads goes from its place in the source to its place in the destination, DONE
rises by one, and no other scratchpad byte changes. -/
def Obligations.ScratchCopyMovesByte : Prop :=
  ∀ (s : State) (gid slot : Nat) (g : Group) (t : Team) (c : CopyCmd) (es ed : PartEnt),
  let own := g.idn.part; let i := if copyDown own c then c.total - 1 - c.done else c.done
  let src := lo32 c.d1 % 2 ^ 24 + i; let dst := lo32 c.d2 % 2 ^ 24 + i
  let cs := 256 * t.cluster + es.core; let cd := 256 * t.cluster + ed.core
  s.ev = some (.copy_progress gid slot 1) → findGroup s gid = some g → findCopy g slot = some c → copyReady s g c = true →
  c.opc = 2 → c.done + 1 < c.total → teamOf s g.idn.team = some t →
  partEnt t (selOf own (lo32 c.d1 / 2 ^ 24 % 256)) = some es → partEnt t (selOf own (lo32 c.d2 / 2 ^ 24 % 256)) = some ed →
  es.v = true → ed.v = true → src < es.size * 4096 → dst < ed.size * 4096 → t.stash = [] → barRange t own c = none → c.ahead = [] →
  ∃ u h k, exec .copy_progress s = .next u
    ∧ sramByte u cd (ed.base * 4096 + dst) = sramByte s cs (es.base * 4096 + src)
    ∧ sramKeptBut s u cd (ed.base * 4096 + dst) 1 ∧ (∀ pa, cohByte u pa = cohByte s pa)
    ∧ findGroup u gid = some h ∧ findCopy h slot = some k ∧ k.done = c.done + 1 ∧ k.total = c.total

/-- R112, R113, R115, R383, R384: bbinit writes an open object; bbwait answers 1 for an object in error and otherwise 0 once
its generation differs from b, as an acquire; until then it waits, and what an update shows it first decides. -/
def Obligations.ByteBarrierResult : Prop :=
  ∀ (s : State) (d a b : SReg) (p : SLoc), let x := barOf (sramBytes s p.core p.off 16); let n := (rS s b).toNat
  (barAcc a s).scr = some p → partStarting s [barAcc a s] = false →
  let updated := fun (i : Instr) (o : BarObj) => ∃ t, exec i s = .next t ∧ t.g.pc = nextPc s ∧ regsKept s t
    ∧ barOf (sramBytes t p.core p.off 16) = o ∧ sramKeptBut s t p.core p.off 16 ∧ (∀ pa, cohByte t pa = cohByte s pa)
  let found := if x.errs = true ∨ x.errc = true then some 1 else if x.gen = n % 65536 then none else some 0
  let ends := fun (r : Option Nat) => (∃ c o m v, s.g.bbOn = some (c, o, m, some v) ∧ some v = r)
    ∨ ((∀ c o m v, s.g.bbOn ≠ some (c, o, m, some v)) ∧ found = r)
  (s.g.n.sts.length < 63 → n ≤ 65535 →
    updated (.bbinit a b) { gen := 0, init := n, open_ := n, errs := false, errc := false, landb := 0, expb := 0 })
  ∧ (ends (some 1) →
      ∃ t, exec (.bbwait d a b) s = .next t ∧ completes s t (nextPc s) ∧ rS t d = (if d = 0 then 0 else 1) ∧ onlyS s t d ∧ memKept s t)
  ∧ (ends (some 0) → coreFilling s s.g.idn.core = false →
      ∃ t, exec (.bbwait d a b) s = .next t ∧ t.g.pc = nextPc s ∧ rS t d = 0 ∧ onlyS s t d ∧ (∀ pa, cohByte t pa = cohByte s pa)
        ∧ selfInvalidated s t)
  ∧ (ends none → ∃ t, exec (.bbwait d a b) s = .next t ∧ t.g.pc = s.g.pc ∧ t.g.status = .waiting
      ∧ t.g.bbOn = some (p.core, p.off, n % 65536, none) ∧ regsKept s t ∧ memKept s t)

/-- R114: an update of a byte barrier and its completion test are one operation on the object in its SRAM: an expectation and
a credit add bytes, a seal takes one from OPEN; a sum of 2^32 or more and a seal of a closed object set an error and change
nothing else; when OPEN is 0 and the counts agree, the object starts its next generation. R384: a bbwait under way on the
object is evaluated at the update, and the first that ends it decides. -/
def Obligations.BarrierUpdateRule : Prop :=
  (
  ∀ (x : BarObj) (n : Nat),
  let next := fun (y : BarObj) => { y with gen := (y.gen + 1) % 65536, expb := 0, landb := 0, open_ := y.init }
  let test := fun (y z : BarObj) => (y.open_ = 0 ∧ y.landb = y.expb → z = next y) ∧ (¬(y.open_ = 0 ∧ y.landb = y.expb) → z = y)
  (2 ^ 32 ≤ x.expb + n → barUpd (.expect n) x = { x with errc := true })
  ∧ (x.expb + n < 2 ^ 32 → test { x with expb := x.expb + n } (barUpd (.expect n) x))
  ∧ (2 ^ 32 ≤ x.landb + n → barUpd (.credit n) x = { x with errc := true })
  ∧ (x.landb + n < 2 ^ 32 → test { x with landb := x.landb + n } (barUpd (.credit n) x))
  ∧ (x.open_ = 0 → barUpd .seal x = { x with errs := true })
  ∧ (x.open_ ≠ 0 → test { x with open_ := x.open_ - 1 } (barUpd .seal x)))
  ∧ (∀ (s : State) (a b : SReg) (p : SLoc), let x := barOf (sramBytes s p.core p.off 16); let n := (rS s b).toNat
    (barAcc a s).scr = some p → partStarting s [barAcc a s] = false →
    let updated := fun (i : Instr) (o : BarObj) => ∃ t, exec i s = .next t ∧ t.g.pc = nextPc s ∧ regsKept s t
      ∧ barOf (sramBytes t p.core p.off 16) = o ∧ sramKeptBut s t p.core p.off 16 ∧ (∀ pa, cohByte t pa = cohByte s pa)
    (s.g.n.sts.length < 63 → updated (.bbexp a b) (barUpd (.expect n) x)
      ∧ (releaseWaits s 2 = false → updated (.bbseal a) (barUpd .seal x)))
    ∧ (∀ src u, s.ev = some (.barrier_update src p.core p.off u) → ∃ t, exec .barrier_update s = .next t
        ∧ barOf (sramBytes t p.core p.off 16) = barUpd u x ∧ sramKeptBut s t p.core p.off 16
        ∧ ∀ h ∈ allGroups s, ∀ gen, h.bbOn = some (p.core, p.off, gen, none) → ∃ k ∈ allGroups t, k.idn = h.idn
            ∧ k.bbOn = some (p.core, p.off, gen, if (barUpd u x).errs = true ∨ (barUpd u x).errc = true then some 1
                else if (barUpd u x).gen = gen then none else some 0)))

/-- R116, R118, R144, R385: waitc and waitp complete once their counters are at or under the thresholds, 63 always being so;
after a completed copy to global memory the wait acquires at device scope. R183, R184, R386: a drone's qpush puts its register
at the tail of the compute group's window and raises the count; the compute group's qpop takes the head and lowers it; qstat
reads Q, tail, head and count, with PX once the other side is gone, and 0 where the group has no queue window. -/
def Obligations.CounterAndQueueResult : Prop :=
  (
  ∀ (s : State) (ld st cp mx : BitVec 6) (c : BitVec 2) (a : SReg),
  let under := fun (n t : Nat) => t = 63 ∨ n ≤ t
  let n := [s.g.n.ld, s.g.n.sts.length, s.g.n.cps.length, s.g.n.batches.length]
  let done := fun (i : Instr) (acq : Prop) => ∃ t, exec i s = .next t ∧ t.g.pc = nextPc s ∧ regsKept s t
    ∧ (∀ pa, cohByte t pa = cohByte s pa) ∧ (¬acq → completes s t (nextPc s) ∧ memKept s t)
    ∧ (acq → ∀ sec x, sec < 2 ^ 45 → l1At s s.g.idn.core sec = some x →
        l1At t s.g.idn.core sec = some { x with valid := x.valid &&& wordBytes x.held, kept := 0 })
  (s.g.n.copied = true → coreFilling s s.g.idn.core = false) →
  (under (n.getD 0 0) ld.toNat → under (n.getD 1 0) st.toNat → under (n.getD 2 0) cp.toNat → under (n.getD 3 0) mx.toNat →
    done (.waitc ld st cp mx) (s.g.n.copied = true))
  ∧ (63 ≤ (rS s a).toNat ∨ n.getD c.toNat 0 ≤ (rS s a).toNat → done (.waitp c a) (c = 2 ∧ s.g.n.copied = true)))
  ∧ (
  ∀ (s : State) (v : VReg) (d : SReg) (h : Group),
  let word := fun (q hd n : Nat) (px : Bool) =>
    BitVec.ofNat 64 ((if px then 2 ^ 31 else 0) + q * 2 ^ 24 + (hd + n) % q * 2 ^ 16 + hd * 2 ^ 8 + n)
  (canName s [v] → s.g.idn.kind = .drone → s.g.mateGone = false → s.g.idn.mate ≠ s.g.idn.gid → findGroup s s.g.idn.mate = some h →
    h.qcount < h.idn.qlen → releaseWaits s 1 = false →
    ∃ t k, exec (.qpush v) s = .next t ∧ t.g.pc = nextPc s ∧ regsKept s t ∧ memKept s t ∧ findGroup t s.g.idn.mate = some k
      ∧ k.qcount = h.qcount + 1 ∧ k.qhead = h.qhead
      ∧ ∀ l < 32, cellGet k.vregs (32 * (h.idn.qbase + (h.qhead + h.qcount) % h.idn.qlen) + l) = rV s v l)
  ∧ (canName s [v] → s.g.idn.kind = .compute → s.g.idn.qlen ≠ 0 → 0 < s.g.qcount →
    ∃ t, exec (.qpop v) s = .next t ∧ t.g.pc = nextPc s ∧ onlyV s t v (BitVec.allOnes 32) ∧ memKept s t
      ∧ t.g.qcount = s.g.qcount - 1 ∧ t.g.qhead = (s.g.qhead + 1) % s.g.idn.qlen
      ∧ ∀ l < 32, rV t v l = cellGet s.g.vregs (32 * (s.g.idn.qbase + s.g.qhead) + l))
  ∧ (s.g.idn.qlen ≠ 0 → ∀ z, (s.g.idn.kind = .compute → z = word s.g.idn.qlen s.g.qhead s.g.qcount s.g.mateGone) →
    (s.g.idn.kind = .drone → findGroup s s.g.idn.mate = some h ∧ z = word s.g.idn.qlen h.qhead h.qcount s.g.mateGone) →
    (s.g.idn.kind ≠ .compute → s.g.idn.kind ≠ .drone → z = 0) →
    ∃ t, exec (.qstat d) s = .next t ∧ completes s t (nextPc s) ∧ rS t d = (if d = 0 then 0 else z) ∧ onlyS s t d ∧ memKept s t)
  ∧ (s.g.idn.qlen = 0 →
    ∃ t, exec (.qstat d) s = .next t ∧ completes s t (nextPc s) ∧ rS t d = 0 ∧ onlyS s t d ∧ memKept s t))

/-! ### The matrix engine and the tensor table -/

/-- R396 to R398, R402, R403: a matrix command whose checks pass takes the lowest free slot with no step done and changes no
register, tile or byte; mxfence writes the batch number and closes the open commands into that batch; mxwait completes once no
batch at or below its number is left. -/
def Obligations.MatrixCommandResult : Prop :=
  ∀ (s : State) (a : AReg) (tr c n d : SReg) (f : MxForm),
  let opw := rS s tr; let ea := tidOf s (opw.toNat % 256); let eb := tidOf s (opw.toNat / 256 % 256)
  let accepted := fun (i : Instr) (x : MxCmd) => ∃ t, exec i s = .next t ∧ completes { s with g := { s.g with n := t.g.n } } t (nextPc s)
    ∧ regsKept s t ∧ memKept s t ∧ t.g.tiles = s.g.tiles ∧ ∃ y, t.g.n = { s.g.n with mxs := s.g.n.mxs ++ [y] }
      ∧ y.claim = [] ∧ y.past = [] ∧ y.acc = a ∧ y.zero = x.zero ∧ y.n = x.n ∧ y.step = 0 ∧ y.batch = 0 ∧ y.flags = 0 ∧ y.parked = false
      ∧ y.slot = lowestFree (mxSlots s.g) 16 ∧ y.opw = x.opw ∧ y.c0 = x.c0 ∧ y.c1 = x.c1 ∧ y.dn = x.dn
  let passes := fun (steps : Nat) (dn : Word64) => tidV ea = true ∧ tidV eb = true ∧ 2 ≤ tidD ea ∧ 2 ≤ tidD eb ∧ opw.toNat < 2 ^ 22
    ∧ 0 < steps ∧ scaleOk s ea (f == .base) = true ∧ scaleOk s eb (f == .base) = true
    ∧ n4Aligned ea (rS s c) dn false steps = true ∧ n4Aligned eb (rSn s c 1) dn true steps = true ∧ canName s (scaleRegs ea eb f)
    ∧ (∃ kk, mxPair (tidTy ea) (tidTy eb) = some (kk, s.g.idn.accw64) ∧ mxBoxOk ea (rS s c) dn false steps kk = true
      ∧ mxBoxOk eb (rSn s c 1) dn true steps kk = true)
    ∧ tensorScratch (gTeam s) s.g.idn.part ea = none ∧ tensorScratch (gTeam s) s.g.idn.part eb = none
  (tileFault s.g a = none → mxFull s = false →
    accepted (.mxzero a) (mkMx true a 1 0 0 0 0 .rne)
    ∧ (c.getLsbD 0 = false → passes 1 0 → accepted (.mxstep a tr c f) (mkMx false a 1 opw (rS s c) (rSn s c 1) 0 .rne))
    ∧ (c.getLsbD 0 = false → n.getLsbD 0 = false → (rS s n).toNat < 2 ^ 32 → passes (rS s n).toNat (rSn s n 1) →
        accepted (.mxloop a tr c n f) (mkMx false a (rS s n).toNat opw (rS s c) (rSn s c 1) (rSn s n 1) .rne)))
  ∧ (s.g.n.batches.length < 63 → ∃ t, exec (.mxfence d) s = .next t ∧ t.g.pc = nextPc s ∧ memKept s t ∧ t.g.tiles = s.g.tiles
      ∧ rS t d = (if d = 0 then 0 else BitVec.ofNat 64 s.g.n.batchCtr) ∧ t.g.n.batchCtr = s.g.n.batchCtr + 1
      ∧ sKept s t (fun r => r = d) ∧ kKept s t (fun _ => False) ∧ vKept s t (fun _ _ => False) ∧ t.g.live = s.g.live
      ∧ ∀ x ∈ s.g.n.mxs, x.batch = 0 → mxDone x = false → { x with batch := s.g.n.batchCtr } ∈ t.g.n.mxs)
  ∧ ((rS s d).toNat < s.g.n.batchCtr → (∀ b ∈ s.g.n.batches, (rS s d).toNat < b) →
      ∃ t, exec (.mxwait d) s = .next t ∧ completes s t (nextPc s) ∧ regsKept s t ∧ memKept s t)

/-- R259, R399: a matrix_step of the group's oldest incomplete command applies one whole step to its tile: mxzero zeroes every
element; a product adds to each element, with one rounding, the exact products of its row and column; no other tile changes,
and the command counts the step. -/
def Obligations.MatrixStepResult : Prop :=
  ∀ (s : State) (gid slot : Nat) (g : Group) (c : MxCmd), let a := c.acc.toNat
  s.ev = some (.matrix_step gid slot) → findGroup s gid = some g → mxHead g = some c → c.slot = slot → c.parked = false →
  groupRuns g = true → storesDone g c.born = true →
  let stepped := fun (el : Nat → Nat → Word64) (fl : FFlags) => ∃ t h, exec .matrix_step s = .next t ∧ findGroup t gid = some h
    ∧ (∀ i < 32, ∀ j < 32, cellGet h.tiles (tileKey a i j) = el i j)
    ∧ (∀ b i j, b ≠ a → i < 32 → j < 32 → cellGet h.tiles (tileKey b i j) = cellGet g.tiles (tileKey b i j))
    ∧ (c.step + 1 < mxSteps c → findMx h slot = some { c with
      step := c.step + 1, flags := c.flags ||| fl, claim := [], past := c.past ++ [tileCells a g.tiles] })
  (c.zero = true → stepped (fun _ _ => 0) 0)
  ∧ (c.zero = false → ∀ y fl u, mxApply s g c g.tiles = .ok y fl u → findGroup u gid = some g →
    ∃ rows cols, let f := if g.idn.accw64 then fmt64 else fmt32;
      let dot := fun i j => fDotK f c.rnd (fUnpack f (cellGet g.tiles (tileKey a i j)).toNat) ((rows.getD i []).zip (cols.getD j []));
      (∃ p u' p', panelVals (engineOf s g) ((teamOf s g.idn.team).getD Team.nil) c.tida g.idn.part
          { tensor := c.sca, reg := c.scra, q := (c.opw.toNat / 2 ^ 16 + c.step) % 4 } (mxOrigin c.c0 c.dn false c.step) (mxK c) 32 0 [] s
            = (rows, .ok 0 p u')
        ∧ panelVals (engineOf s g) ((teamOf s g.idn.team).getD Team.nil) c.tidb g.idn.part
          { tensor := c.scb, reg := c.scrb, q := (c.opw.toNat / 2 ^ 18 + c.step) % 4 } (mxOrigin c.c1 c.dn true c.step) (mxK c) 32 0 [] u'
            = (cols, .ok 0 p' u))
      ∧ stepped (fun i j => BitVec.ofNat 64 (dot i j).1) fl)

/-! ### Named barriers, logical time -/

/-- R409 to R411: bar.arr counts the member's arrival, completes the barrier when every member of the mask has arrived or
exited, and returns the generation before; bar.wait returns, as an acquire, once the generation is above its operand; bar.setm
sets the mask, or the pending one while an arrival stands. -/
def Obligations.NamedBarrierResult : Prop :=
  ∀ (s : State) (d a : SReg) (b : BitVec 6) (tm : Team),
  let n := s.g.idn.npart * s.g.idn.ngrp; let x := barrierAt tm n b.toNat
  let me : Word64 := 1 <<< (s.g.idn.part * s.g.idn.ngrp + s.g.idn.gidx)
  let arrived := { x with arrived := x.arrived ||| me }
  let after := fun (t : State) (y : Barrier) => memKept s t ∧ t.g.pc = nextPc s ∧ ∃ u, teamOf t s.g.idn.team = some u ∧ barrierAt u n b.toNat = y
  s.g.idn.kind = .compute ∨ s.g.idn.kind = .job → teamOf s s.g.idn.team = some tm →
  (x.mask &&& me ≠ 0 → x.arrived &&& me = 0 → releaseWaits s 2 = false →
    ∃ t y, exec (.bar_arr d b) s = .next t ∧ rS t d = (if d = 0 then 0 else x.gen) ∧ onlyS s t d ∧ after t y
      ∧ (x.mask &&& ~~~(x.arrived ||| me ||| tm.exits) = 0 →
          y = { mask := x.pendm.getD x.mask, arrived := 0, gen := x.gen + 1, pendm := none })
      ∧ (x.mask &&& ~~~(x.arrived ||| me ||| tm.exits) ≠ 0 → y = arrived))
  ∧ ((rS s a).toNat < x.gen.toNat → coreFilling s s.g.idn.core = false →
    ∃ t, exec (.bar_wait a b) s = .next t ∧ t.g.pc = nextPc s ∧ regsKept s t ∧ selfInvalidated s t ∧ (∀ pa, cohByte t pa = cohByte s pa)
      ∧ t.d = s.d)
  ∧ ((rS s a).toNat < 2 ^ n → ∃ t, exec (.bar_setm a b) s = .next t ∧ regsKept s t
      ∧ after t (if x.arrived = 0 then { x with mask := rS s a } else { x with pendm := some (rS s a) }))

/-- R147, R405: lda writes the acting lanes of the register range with the bits of its tile's rows, or, while a batch that
writes the tile is not complete, of what the tile held before one of its steps, element by element; sta writes the acting rows
of the tile from the registers once no incomplete batch writes the tile, and waits until then; no value from before the steps is
left. R391,
R392: tidset writes its entry from lanes 0 to 7, an entry with V = 0 as all zeros, and no other entry; tidget writes the entry
to lanes 0 to 7 of its register whatever LIVE holds. -/
def Obligations.TileAndTableResult : Prop :=
  (
  ∀ (s : State) (v : VReg) (a : AReg) (k : KReg), let act := actOf s k; let w64 := s.g.idn.accw64
  let inRange := fun (r : VReg) => v.toNat ≤ r.toNat ∧ r.toNat < v.toNat + tileRegs s.g
  let at_ := fun (x : Cells 64) (i j : Nat) => cellGet x (1024 * a.toNat + 32 * i + j)
  tileMoveFault s.g v a = none → v.toNat + tileRegs s.g ≤ 1024 →
  (∃ t, exec (.lda v a k) s = .next t ∧ completes { s with free := t.free } t (nextPc s) ∧ memKept s t
    ∧ sKept s t (fun _ => False) ∧ kKept s t (fun _ => False) ∧ statusKept s t
    ∧ vKept s t (fun r l => inRange r ∧ act.getLsbD l = true)
    ∧ (tilePasts s.g a = [] → t.free = s.free)
    ∧ ∀ i < 32, act.getLsbD i = true → ∀ j < 32, ∃ x ∈ tilePasts s.g a ++ [s.g.tiles],
        if w64 then rV t (v + BitVec.ofNat 10 j) i = at_ x i j
        else (rV t (v + BitVec.ofNat 10 (j / 2)) i).extractLsb' (32 * (j % 2)) 32 = (at_ x i j).truncate 32)
  ∧ (tileBusy s.g a = true → exec (.sta v a k) s = .next (block s))
  ∧ (tileBusy s.g a = false → ∃ t, exec (.sta v a k) s = .next t ∧ completes { s with g := { s.g with tiles := t.g.tiles, n := t.g.n } } t (nextPc s)
    ∧ t.g.n = { s.g.n with mxs := s.g.n.mxs.map (fun c => if c.acc = a then { c with past := [] } else c) } ∧ regsKept s t ∧ memKept s t
    ∧ (∀ i < 32, ∀ j < 32, at_ t.g.tiles i j = (if act.getLsbD i then (if w64 then rV s (v + BitVec.ofNat 10 j) i
        else ((rV s (v + BitVec.ofNat 10 (j / 2)) i).extractLsb' (32 * (j % 2)) 32).zeroExtend 64) else at_ s.g.tiles i j))
    ∧ ∀ b i j, b ≠ a.toNat → i < 32 → j < 32 → cellGet t.g.tiles (tileKey b i j) = cellGet s.g.tiles (tileKey b i j)))
  ∧ (
  ∀ (s : State) (v : VReg) (n : BitVec 8) (e : BitVec 512) (tm : Team),
  canName s [v] → teamOf s s.g.idn.team = some tm →
  ((∀ q < 8, e.extractLsb' (64 * q) 64 = rV s v q) → tidWf e = true → tidBusy s n.toNat = false →
    ∃ t, exec (.tidset v n) s = .next t ∧ completes { s with d := t.d } t (nextPc s) ∧ regsKept s t ∧ memKept s t
      ∧ (∃ u, teamOf t s.g.idn.team = some u ∧ cellGet u.tids n.toNat = (if e.getLsbD 511 then e else 0)
        ∧ ∀ k, k ≠ n.toNat → cellGet u.tids k = cellGet tm.tids k))
  ∧ (∃ t, exec (.tidget v n) s = .next t ∧ completes s t (nextPc s) ∧ onlyV s t v 0xFF ∧ memKept s t
      ∧ ∀ q < 8, rV t v q = (cellGet tm.tids n.toNat).extractLsb' (64 * q) 64))

/-- R412: fwait.pass and fwait.reach complete once the frontier as announced has passed or reached the stamp, as an acquire,
and write that frontier to their register pair. R207, R208, R413: pinc, pdec and pmove whose checks pass send one batch with
their deltas to the cluster's aggregator, and change no register and no byte. -/
def Obligations.LogicalTimeResult : Prop :=
  (
  ∀ (s : State) (d a b : SReg) (c : Ctx) (f : Announced),
  let l := (rS s a).toNat; let w : Stamp := ⟨rS s b, rS s (b + 1)⟩; let key := fun (x : Stamp) => x.epoch.toNat * 2 ^ 48 + x.cw.toNat / 2 ^ 16
  let done := fun (i : Instr) => ∃ t, exec i s = .next t ∧ t.g.pc = nextPc s ∧ selfInvalidated s t ∧ (∀ pa, cohByte t pa = cohByte s pa)
    ∧ (d ≠ 0 → rS t d = f.stamp.epoch ∧ rS t (d + 1) = f.stamp.cw) ∧ sKept s t (fun r => d ≠ 0 ∧ (r = d ∨ r = d + 1))
    ∧ kKept s t (fun _ => False) ∧ vKept s t (fun _ _ => False) ∧ statusKept s t
  b.getLsbD 0 = false → d.getLsbD 0 = false → l < 65536 → stampWf w = true → gCtx s = some c → placedOk c l w = true →
  announcedOf (subscribe s.g.idn.ctx l (clusterOf s.g.idn.core) s) s.g.idn.ctx l = some f → cutOff s s.g.idn.ctx l = false →
  coreFilling s s.g.idn.core = false →
  (key w < key f.stamp → done (.fwait_pass d a b)) ∧ (key w ≤ key f.stamp → done (.fwait_reach d a b)))
  ∧ (
  ∀ (s : State) (a b c : SReg) (x : Ctx),
  let w : Stamp := ⟨rS s b, rS s (b + 1)⟩; let u : Stamp := ⟨rS s c, rS s (c + 1)⟩; let v := (rS s a).toNat; let n := (rS s c).toNat
  let cl := s.g.idn.core / 256
  let sends := fun (i : Instr) (ds : List Delta) => ∃ t, exec i s = .next t ∧ t.g.pc = nextPc s ∧ regsKept s t ∧ memKept s t
    ∧ t.g.n.batchOut = s.g.n.batchOut + 1 ∧ .fret_forward cl ∈ t.agenda
    ∧ amGet? t.t.frets cl = some ((amGet? s.t.frets cl).getD [] ++ [{ src := .group s.g.idn.gid, ctx := s.g.idn.ctx, ds := ds }])
  b.getLsbD 0 = false → gCtx s = some x → stampWf w = true →
  (v < 65536 → 0 < n → n < 2 ^ 32 → placedOk x v w = true →
    (allowed x s.g v w = true → sends (.pinc a b c) [{ loc := v, stamp := w, amt := n }])
    ∧ (releaseWaits s 3 = false → sends (.pdec a b c) [{ loc := v, stamp := w, amt := -(n : Int) }]))
  ∧ (v < 2 ^ 32 → c.getLsbD 0 = false → stampWf u = true → placedOk x (v / 65536) u = true → allowed x s.g (v / 65536) u = true →
    placedOk x (v % 65536) w = true → releaseWaits s 3 = false →
    sends (.pmove a b c) [{ loc := v / 65536, stamp := u, amt := 1 }, { loc := v % 65536, stamp := w, amt := -1 }]))

/-! ### Window groups, posted work, waits on words, the bow -/

/-- R206, R414, R415: wsend and a wemit to a stream send one batch of increments and, in ascending lane order, one record for
each acting lane, formed from n registers; a wemit to a ring puts the record into it; wclose marks the lanes; winfo writes
START, LASTE and COUNT. That a team which has passed the bow sends on without it is the model's reading (DEDUCED, log 28). -/
def Obligations.WindowInstructionResult : Prop :=
  ∀ (s : State) (v d : VReg) (a b : SReg) (k : KReg), let act := actOf s k; let n := (rS s b).toNat; let ctx := s.g.idn.ctx
  let own := streamOf s ctx s.g.idn.work; let sp := IoSpace.engine (s.g.idn.core / 256) ctx
  let record := fun (l : Nat) => laneRecord s v n l
  let sends := fun (i : Instr) (sid : Nat) (o : StreamD) => 4 ≤ n → n ≤ 8 * (sdRsz o.desc + 1) → runFault s.g v n = none → act ≠ 0 →
    sendFault s (some o) v n act = none → (needsBow s s.g = false ∨ passedBow s s.g = true) → releaseWaits s 3 = false →
    ∃ t, exec i s = .next t ∧ t.g.pc = nextPc s ∧ regsKept s t ∧ memKept s t
      ∧ amGet? t.t.frets (s.g.idn.core / 256) = some ((amGet? s.t.frets (s.g.idn.core / 256)).getD [] ++ [⟨.group s.g.idn.gid, ctx,
          (lanesOf act).map (fun l => ⟨sdLoc o.desc, recStamp (record l), 1⟩)⟩])
      ∧ ∀ j, j < (lanesOf act).length → ∃ x, amGet? t.w.recs (s.d.nextId + j) = some x ∧ x.ctx = ctx ∧ x.sid = sid
          ∧ x.data = recMasked o.desc (record ((lanesOf act).getD j 0))
          ∧ s.d.nextId + j ∈ (amGet? t.w.arrivals (keyCluster s.tun (recWord x.data 2))).getD []
  (∀ l i, i < 64 → n ≤ 64 → recWord (record l) i = if i < n then rV s (v + BitVec.ofNat 10 i) l else 0)
  ∧ (∀ o, (rS s a).toNat < 4096 → streamOf s ctx (rS s a).toNat = some o → sends (.wsend v a b k) (rS s a).toNat o)
  ∧ (s.g.idn.kind = .window → ∀ w o, own = some w → sdOutK w.desc = 1 → streamOf s ctx (sdOutSid w.desc) = some o →
      sends (.wemit v b k) (sdOutSid w.desc) o)
  ∧ (s.g.idn.kind = .window → ∀ w l r u x, own = some w → sdOutK w.desc = 2 → w.parked = false → lanesOf act = [l] → s.g.w.emitted = 0 →
      4 ≤ n → n ≤ 8 * (sdOutRsz w.desc + 1) → runFault s.g v n = none → sendFault s none v n act = none → (needsBow s s.g = false ∨ passedBow s s.g = true) →
      releaseWaits s 3 = false → streamRing s sp w.desc = (.inr r, u) →
      ringPut sp r (64 * (sdOutRsz w.desc + 1)) (fun _ => (laneRecord u v n l).toNat) u = .ok x →
      ∃ t, exec (.wemit v b k) s = .next t ∧ completes { x with g := { x.g with w := t.g.w } } t (nextPc x) ∧ t.m = x.m ∧ t.g.w.emitted = 0)
  ∧ (s.g.idn.kind = .window →
      ∃ t, exec (.wclose k) s = .next t ∧ completes { s with g := { s.g with w := t.g.w } } t (nextPc s) ∧ regsKept s t ∧ memKept s t
        ∧ t.g.w = { s.g.w with closed := s.g.w.closed ||| act })
  ∧ (s.g.idn.kind = .window → runFault s.g d 3 = none → d.toNat + 3 ≤ 1024 →
      ∃ t, exec (.winfo d k) s = .next t ∧ completes s t (nextPc s) ∧ memKept s t ∧ sKept s t (fun _ => False) ∧ kKept s t (fun _ => False)
        ∧ statusKept s t ∧ vKept s t (fun r l => (r = d ∨ r = d + 1 ∨ r = d + 2) ∧ act.getLsbD l = true)
        ∧ ∀ l x, l < 32 → act.getLsbD l = true → s.g.w.lanes[l]? = some x →
          rV t d l = x.start ∧ rV t (d + 1) l = x.last ∧ rV t (d + 2) l = x.count)

/-- R416, R417, R180, R186: launch and jobput read their block as a release at device scope; a block that passes its checks
queues a child grid or a job card and answers 0; one that does not answers its status and posts nothing. The status of a
rejection by R388 is free (DESIGN CHOICE, log 3). R356: a poisoned block posts nothing and raises F_ECCU. That a team which has
passed the bow posts on without it is the model's reading (DEDUCED, log 28). -/
def Obligations.PostWorkResult : Prop :=
  ∀ (s u : State) (d a : SReg) (c : Ctx) (v : Nat) (r : EntryRow), let b := BitVec.ofNat 512 v; let l := blockLane a s
  let stamp : Stamp := ⟨b.extractLsb' 192 64, b.extractLsb' 256 64⟩; let loc := b.extractLsb' 176 16
  let rejects := fun (i : Instr) (status : Nat) =>
    let w := if status = tidStatus then ((drawFree u).1, (drawFree u).2) else (BitVec.ofNat 64 status, u)
    ∃ t, exec i s = .next t ∧ completes w.2 t (nextPc u) ∧ onlyS u t d ∧ memKept u t ∧ rS t d = if d = 0 then 0 else w.1
  let posts := fun (i : Instr) (p : State → Prop) => plusOk c u.g stamp loc = true → rowAt c (b.extractLsb' 0 64) = some r →
    ∃ t, exec i s = .next t ∧ t.g.pc = nextPc u ∧ onlyS u t d ∧ rS t d = 0 ∧ p t
  (needsBow s s.g = false ∨ passedBow s s.g = true) → releaseWaits s 3 = false → gCtx s = some c → laneFault 0 [l] = none →
  loadHeld false [l] s = none →
  (∀ x, loadLane 1 l s = ((x, true), u) → ∀ i ∈ (.jobput d a :: if isLeader s.g && decide (s.g.idn.depth < 10) then [Instr.launch_child d a] else []),
    ∃ t, exec i s = .next t ∧ t.g.pc = nextPc u ∧ regsKept u t ∧ t.m = u.m ∧ t.d = u.d ∧ t.g.x.eccu.isSome = true)
  ∧ (loadLane 1 l s = ((v, false), u) → (isLeader s.g = true → s.g.idn.depth < 10 →
    (launchStatus c b ≠ 0 → rejects (.launch_child d a) (launchStatus c b))
    ∧ (launchStatus c b = 0 → ∀ p, amGet? u.d.grids u.g.idn.work = some p → posts (.launch_child d a) (fun t =>
        ∃ g, amGet? t.d.grids u.d.nextId = some g ∧ g.ctx = p.ctx ∧ g.row = r ∧ g.args = b.extractLsb' 64 64 ∧ g.stamp = stamp ∧ g.loc = loc
          ∧ g.nteam = (b.extractLsb' 128 32).toNat ∧ g.depth = p.depth + 1 ∧ g.pri = p.pri ∧ g.det = false ∧ g.rep.parent = u.g.idn.work
          ∧ g.rep.donew = b.extractLsb' 320 64)))
  ∧ (cardStatus c b ≠ 0 → rejects (.jobput d a) (cardStatus c b))
  ∧ (cardStatus c b = 0 → posts (.jobput d a) (fun t =>
        ∃ y, amGet? t.d.cards u.d.nextId = some y ∧ y.ctx = u.g.idn.ctx ∧ y.row = r ∧ y.base = b.extractLsb' 64 64
          ∧ y.rsize = (b.extractLsb' 160 16).toNat ∧ y.count = (b.extractLsb' 128 32).toNat ∧ y.dealt = 0 ∧ y.stamp = stamp ∧ y.loc = loc
          ∧ y.rep.donew = b.extractLsb' 320 64)))

/-- R419, R420: wait.v reads its word at the home; a word that differs from the operand is written to d, an equal one puts the
group to sleep on the word; wake makes every group that sleeps on the word read it again. u is the state after the access's
translation, w that after the read, in which only the home's last use of the sector, the core's V copy of the word, which goes
(R131), and what stashes write back differ (R53, R99). R80: a poisoned word is compared with nothing and raises F_ECCU. R162, R163, R421: bow.get answers 0 outside a deterministic launch and 1 once its team holds the bow and has
drained; bow.pass has no effect outside one or after the bow has gone, and otherwise, once the team's global writes are
performed, the team has passed it. -/
def Obligations.WordWaitAndBowResult : Prop :=
  (
  ∀ (s : State) (d a b : SReg) (g : Seg), let u := useSeg (agentOf s s.g) 0 g s; let v := wordRead u g; let w := wordReadUse g u
  wordAt s a = .inr g →
  (wordSnoops s g = [] → wordPoisoned u g = true → ∃ t, exec (.wait_v d a b) s = .next t ∧ t.g.pc = nextPc w ∧ regsKept w t ∧ memKept w t
    ∧ t.d = w.d ∧ t.g.status = w.g.status ∧ t.g.x.eccu.isSome = true)
  ∧ (g.kind ≠ 2 → (∀ o x, l1At u o (g.pa / 128) = some x → x.stash = false ∨ x.p ||| x.o = 0) →
      w = homeTouch (g.pa / 128) (dropVWord u.g.idn.core (g.pa / 128) (maskWords (span128 (g.pa % 128) 8)) u))
  ∧ (g.kind ≠ 2 → ∀ x, l1At u u.g.idn.core (g.pa / 128) = some x → x.stash = false →
      ∃ y, l1At w u.g.idn.core (g.pa / 128) = some y ∧ y.valid = x.valid &&& ~~~wordBytes (maskWords (span128 (g.pa % 128) 8) &&& ~~~x.held))
  ∧ (g.kind = 2 → w = hostUse g.pa 8 u)
  ∧ (wordSnoops s g = [] → wordPoisoned u g = false → v ≠ rS s b → ∃ t, exec (.wait_v d a b) s = .next t ∧ completes w t (nextPc w) ∧ rS t d = (if d = 0 then 0 else v) ∧ onlyS w t d ∧ memKept w t)
  ∧ (wordSnoops s g = [] → wordPoisoned u g = false → v = rS s b → ∃ t, exec (.wait_v d a b) s = .next t ∧ t.g.status = .waiting ∧ t.g.watch = some (g.pa / 8) ∧ t.g.pc = w.g.pc
      ∧ regsKept w t ∧ memKept w t)
  ∧ (∃ t, exec (.wake a) s = .next t ∧ t.g.pc = nextPc u ∧ regsKept u t ∧ memKept u t
      ∧ ∀ h ∈ u.rest, h.watch = some (g.pa / 8) → h.status = .waiting → { h with status := .running, rdy := u.tick, watch := none } ∈ t.rest))
  ∧ (
  ∀ (s : State) (d : SReg),
  let writes := fun (v : Word64) => ∃ t, exec (.bow_get d) s = .next t ∧ completes s t (nextPc s) ∧ rS t d = (if d = 0 then 0 else v)
    ∧ onlyS s t d ∧ memKept s t
  (isDet s s.g = false → writes 0)
  ∧ (isDet s s.g = true → passedBow s s.g = false → holdsBow s s.g = true → writes 1)
  ∧ (isDet s s.g = false ∨ passedBow s s.g = true → ∃ t, exec .bow_pass s = .next t ∧ completes s t (nextPc s) ∧ regsKept s t ∧ memKept s t)
  ∧ (isDet s s.g = true → passedBow s s.g = false → holdsBow s s.g = true → teamWritten s s.g.idn.team = true →
      ∃ t u, exec .bow_pass s = .next t ∧ t.g.pc = nextPc s ∧ regsKept s t ∧ memKept s t ∧ teamOf t s.g.idn.team = some u ∧ u.bow = .passed))

/-! ### Safe points, the signature, exit -/

/-- R422 to R424: safe without a save pending does nothing; with one, it saves the group at the next instruction with the
registers and tiles its entry names, the others zero, or where accesses are not performed yet issues nothing more until it is saved
(R155, R459); sigchk of an equal signature word resets it; sigrd reads both halves. -/
def Obligations.SafePointResult : Prop :=
  ∀ (s : State) (i : Word32) (d : SReg) (e : BitVec 1024),
  ((liveTable s)[i.toNat]? = some e → (s.g.saveDue = false ∨ s.g.x.sup = true) →
    ∃ t, exec (.safe i) s = .next t ∧ completes s t (nextPc s) ∧ regsKept s t ∧ memKept s t)
  ∧ ((liveTable s)[i.toNat]? = some e → s.g.saveDue = true → s.g.x.sup = false → drained s.g = true →
    ∃ u, exec (.safe i) s = .next (saveGroup s.g.idn.gid u) ∧ u.g.pc = nextPc s ∧ u.g.sregs = s.g.sregs ∧ u.g.kregs = s.g.kregs ∧ u.m = s.m
      ∧ (∀ r l, l < 32 → cellGet u.g.vregs (32 * r + l) = if e.getLsbD r then cellGet s.g.vregs (32 * r + l) else 0)
      ∧ (∀ a x, x < 1024 → cellGet u.g.tiles (1024 * a + x) = if e.getLsbD (640 + a) then cellGet s.g.tiles (1024 * a + x) else 0))
  ∧ ((liveTable s)[i.toNat]? = some e → s.g.saveDue = true → s.g.x.sup = false → drained s.g = false →
    ∃ t n, exec (.safe i) s = .next t ∧ t.g.pc = nextPc s ∧ t.g.halt = true ∧ t.g.saveWay = .safePoint e ∧ (n, .forced_save s.g.idn.gid) ∈ t.timers
      ∧ t.m = s.m ∧ (t.g.hostDue = 0 → t.g.hostVals = [] → ready t.g = false))
  ∧ (s.g.sigw = i → sigExcluded s.ir.w0 = true → ∃ t, exec (.sigchk i) s = .next t ∧ completes s t (nextPc s) ∧ regsKept s t ∧ memKept s t
      ∧ t.g.sigw = 0xFFFFFFFF ∧ t.g.sigm = s.g.sigm)
  ∧ (s.g.sigw ≠ i → rollsBack s s.g = none → exec (.sigchk i) s = .next (raiseI 14 s))
  ∧ (∃ t, exec (.sigrd d) s = .next t ∧ completes s t (nextPc s) ∧ onlyS s t d ∧ memKept s t
      ∧ rS t d = if d = 0 then 0 else s.g.sigm ++ s.g.sigw)

/-- R423: SIG is a pair of CRC-32C folds that starts as all ones and can be read and written; at user privilege the completion
of an instruction that is not excluded folds its first word into SIGW and its acting set into SIGM, byte by byte, lowest
first; an excluded one, one of the handler and every fault, one that goes to the host too, fold nothing; trap folds before its group enters the handler, bkpt
before its group stops; and a group is saved with its SIG. -/
def Obligations.SignatureFold : Prop :=
  ∀ (s : State) (act : Word32) (pc : BitVec 56) (i : BitVec 16) (d a : SReg), let t := retireTo act pc s
  let step := fun (x : Word32) => if x.getLsbD 0 then (x >>> 1) ^^^ 0x82F63B78 else x >>> 1
  let fold := fun (x w : Word32) => [0, 1, 2, 3].foldl (fun y i => Nat.iterate step 8 (y ^^^ (w.extractLsb' (8 * i) 8).zeroExtend 32)) x
  let op := (s.ir.w0.extractLsb' 23 7).toNat; let excluded := (0x10 ≤ op ∧ op ≤ 0x14) ∨ op = 0x79 ∨ op = 0x7A
  let folded := fun (u : State) (m : Word32) => u.g.sigw = fold s.g.sigw s.ir.w0 ∧ u.g.sigm = fold s.g.sigm m
  let kept := fun (u : State) => u.g.sigw = s.g.sigw ∧ u.g.sigm = s.g.sigm
  (s.g.x.sup = false → ¬excluded → folded t act)
  ∧ (s.g.x.sup = true ∨ excluded → kept t)
  ∧ (∀ f done, ∀ u ∈ [raise f done act s, raiseW f s], kept u ∨ u.g = Group.none ∧ ∃ c, gCtx s = some c ∧ c.pol = true)
  ∧ (hasHandler s → ¬excluded → ∃ u, exec (.trap i) s = .next u ∧ folded u s.g.live)
  ∧ (s.g.x.sup = false → ¬excluded → ∃ u, exec (.bkpt i) s = .next u ∧ u.g.status = .stopped ∧ folded u s.g.live)
  ∧ (savedGroup s.g).sigw = s.g.sigw ∧ (savedGroup s.g).sigm = s.g.sigm
  ∧ (∃ u, exec (.srd d 0x0D) s = .next u ∧ (d ≠ 0 → rS u d = s.g.sigm ++ s.g.sigw))
  ∧ exec (.swr a 0x0D) s = .next (retire s.g.live { s with g := { s.g with sigm := (rS s a).extractLsb' 32 32, sigw := (rS s a).truncate 32 } })
  ∧ (∀ x r dr p gi core slot gid mate sr, let g := newGroup x r dr p gi core slot gid mate sr; g.sigm = 0xFFFFFFFF ∧ g.sigw = 0xFFFFFFFF)

/-- R94, R177, R184, R308, R410: exit, once the group's accesses, commands and batches are done, takes the group from its
core, counts it among its part's and its team's exits, tells the other side of its queue, and after the part's last group has
the part's exit come. -/
def Obligations.ExitResult : Prop :=
  ∀ (s : State), let g := s.g
  g.x.sup = false → g.n.mxs.any (fun c => c.batch == 0) = false → exitReady s = true → g.idn.gid ≠ 0 → (∀ h ∈ s.rest, h.idn.gid ≠ g.idn.gid) →
  ∃ u, exec .exit s = .next (settlePreempts (saveTeam g.idn.team u))
    ∧ (g.idn.kind ≠ .window → (∀ h ∈ allGroups u, h.idn.gid ≠ g.idn.gid) ∧ u.m = s.m
      ∧ (g.idn.mate ≠ 0 → ∀ h ∈ u.rest, h.idn.gid = g.idn.mate → h.mateGone = true)
      ∧ (∀ tm e, teamOf s g.idn.team = some tm → partEnt tm g.idn.part = some e →
          ∃ tm' e', teamOf u g.idn.team = some tm' ∧ partEnt tm' g.idn.part = some e' ∧ e'.exited = e.exited + 1
            ∧ (g.idn.kind ≠ .drone → tm'.exits = tm.exits ||| (1 <<< (g.idn.part * g.idn.ngrp + g.idn.gidx)))
            ∧ (e.groups ≤ e.exited + 1 → .part_exit g.idn.team g.idn.part ∈ u.agenda)))
    ∧ (g.idn.kind = .window → ∃ w, u = windowExit g w ∧ teamOf w g.idn.team = none ∧ (∀ h ∈ allGroups w, h.idn.gid ≠ g.idn.gid) ∧ w.m = s.m)

/-! ### Exceptions and the supervisor -/

/-- R35 to R38, R41, R46, R425: trap, and F_PAGE at user privilege unless the pool is empty, enter the handler of a context
that names one, with the saved registers, the bank and privilege as R35 says; every other fault of the instruction at issue,
and one at supervisor privilege, goes to the host with a record, whose PC (R456) is that of the instruction; for a trap at supervisor
privilege that PC is the model's choice (DESIGN CHOICE, log 26). R356: F_ECCU comes at the next boundary, and until then the group
stands as it was. -/
def Obligations.ExceptionEntry : Prop :=
  ∀ (s : State) (f : Flt) (done act : Word32) (i : BitVec 16),
  let entered := fun (t : State) (cause : HandlerCause) (epc : BitVec 56) (fc : Word32) (fva : Word64) (mask dm set : Word32) =>
    t.g.x.sup = true ∧ t.g.x.cause = cause ∧ t.g.x.epc = epc ∧ t.g.x.epcSet = epc ∧ t.g.x.faultCode = fc ∧ t.g.x.faultVa = fva
      ∧ t.g.x.faultMask = mask ∧ t.g.x.doneMask = dm ∧ t.g.x.actSet = set ∧ t.g.x.liveSave = s.g.live ∧ t.g.x.replay = none ∧ t.g.live = mask
      ∧ t.g.pc = handlerOf s ∧ (∀ r : SReg, 56 ≤ r.toNat → r.toNat ≤ 61 → rS t r = cellGet s.g.x.sbank r.toNat ∧ cellGet t.g.x.sbank r.toNat = rS s r)
      ∧ sKept s t (fun r => 56 ≤ r.toNat ∧ r.toNat ≤ 61) ∧ rK t 15 = s.g.x.kbank ∧ t.g.x.kbank = rK s 15 ∧ kKept s t (fun k => k = 15)
      ∧ vKept s t (fun _ _ => False) ∧ t.g.fpstat = s.g.fpstat ∧ memKept s t
  let host := fun (t : State) (fc : Word32) (fva : Word64) (mask : Word32) (pc : BitVec 56) => ∃ r, .fault_record r ∈ t.agenda ∧ r.src = 0
      ∧ r.fcode = fc ∧ r.fva = fva ∧ r.mask = mask ∧ r.pc = pc ∧ r.team = s.g.idn.tidx
  let fc := BitVec.ofNat 32 (f.code + f.acc * 2 ^ 16 + f.level * 2 ^ 19 + f.detail * 2 ^ 28)
  (hasHandler s → f.code = 4 → f.detail ≠ 11 →
    entered (raise f done act s) .precise s.g.pc fc f.va f.mask (s.g.x.doneMask ||| done) act)
  ∧ (f.code = 11 → let t := raise f done act s; t.g.x.eccu.isSome = true ∧ t.g.pc = s.g.pc ∧ t.g.status = s.g.status ∧ regsKept s t ∧ memKept s t)
  ∧ ((¬hasHandler s ∨ ¬(f.code = 4 ∧ f.detail ≠ 11)) → f.code ≠ 11 → f.code ≠ 0xFFFF → host (raise f done act s) fc f.va f.mask s.g.pc)
  ∧ (hasHandler s → ∃ t, exec (.trap i) s = .next t ∧ entered t .trap (nextPc s) 0xFFFF (i.zeroExtend 64) s.g.live 0 0)
  ∧ (¬hasHandler s → ∃ t, exec (.trap i) s = .next t
      ∧ host t 0xFFFF (i.zeroExtend 64) s.g.live (if s.g.x.sup then s.g.pc else nextPc s))
  ∧ (∃ t r, exec (.bkpt i) s = .next t ∧ t.g.status = .stopped ∧ t.g.pc = nextPc s ∧ regsKept s t ∧ memKept s t
      ∧ .fault_record r ∈ t.agenda ∧ r.fcode = 0xFFFE ∧ r.fva = i.zeroExtend 64 ∧ r.pc = nextPc s)

/-- R35 to R37, R310: retf at supervisor privilege restores LIVE, the user bank and privilege and continues at EPC; after a
precise fault at an unchanged EPC it replays the lanes that acted, are live and are not done, and otherwise DONEMASK clears. At
user privilege it raises F_PRIV (R266). A word that is ill-formed raises F_ILLOP. That after a fault of the fetch a replay that
was due stays due is the model's reading (DEDUCED, log 20). -/
def Obligations.ExceptionReturn : Prop :=
  ∀ (s : State) (w : Word32) (a : SReg),
  (s.g.x.sup = true → ∃ t, exec .retf s = .next t ∧ t.g.x.sup = false ∧ t.g.live = s.g.x.liveSave ∧ t.g.pc = s.g.x.epc
    ∧ (∀ r : SReg, 56 ≤ r.toNat → r.toNat ≤ 61 → rS t r = cellGet s.g.x.sbank r.toNat ∧ cellGet t.g.x.sbank r.toNat = rS s r)
    ∧ sKept s t (fun r => 56 ≤ r.toNat ∧ r.toNat ≤ 61) ∧ rK t 15 = s.g.x.kbank ∧ t.g.x.kbank = rK s 15 ∧ kKept s t (fun k => k = 15)
    ∧ vKept s t (fun _ _ => False) ∧ t.g.fpstat = s.g.fpstat ∧ memKept s t
    ∧ (s.g.x.cause = .precise → s.g.x.epc = s.g.x.epcSet →
        t.g.x.replay = some (s.g.x.actSet &&& s.g.x.liveSave &&& ~~~s.g.x.doneMask) ∧ t.g.x.doneMask = s.g.x.doneMask)
    ∧ (s.g.x.cause = .whole → s.g.x.epc = s.g.x.epcSet →
        t.g.x.replay = s.g.x.replayKept.map (fun m => m &&& s.g.x.liveSave) ∧ t.g.x.doneMask = s.g.x.doneMask)
    ∧ (s.g.x.epc ≠ s.g.x.epcSet ∨ (s.g.x.cause ≠ .precise ∧ s.g.x.cause ≠ .whole) → t.g.x.replay = none ∧ t.g.x.doneMask = 0))
  ∧ (s.g.x.sup = false → exec .retf s = .next (raiseI 2 s))
  ∧ exec (.ill w) s = .next (raiseI 1 s)
  ∧ (s.g.x.sup = true → ∃ t, exec (.swr a 0x24) s = .next t ∧ t.g.x.epc = (rS s a).truncate 56 ∧ t.g.x.epcSet = s.g.x.epcSet)

/-- R40, R426 to R428: mappg takes the frame at IDX for an absent leaf, writes the leaf and counts IDX, and leaves a present
one; unmappg answers the old entry and drops the page from every TLB and L1, once what stashes hold of it is written back; of a
pinned leaf it raises F_PROT with DETAIL 7 (R50), of a malformed entry with that of R12, and of a poisoned one F_ECCU; rgrel leaves no first-touch home in its range but for one with REL set whose owners
still answer (R71), and of a misaligned range raises F_ALIGN; tunack answers by the number's order and acknowledges an equal one;
scan.run answers its status and closes the core it scans, unless a launch that is queued aborts it at once (R496); at user privilege
the four others raise F_PRIV. u is the state after the walk, which reads the table at its homes (R70). -/
def Obligations.SupervisorResult : Prop :=
  ∀ (s : State) (d a b : SReg) (c : Ctx), let va := (rS s a).toNat; let attrs := rS s b
  let u := walkTouch (agentOf s s.g) va s
  let writes := fun (i : Instr) (v : Word64) (p : State → Prop) => ∃ t, exec i s = .next t ∧ t.g.pc = nextPc s ∧ onlyS s t d
    ∧ rS t d = (if d = 0 then 0 else v) ∧ p t
  let stays := fun (t : State) => ∀ pa, inTable s (2 * (pa / 128)) = false → cohByte t pa = cohByte s pa
  releaseWaits s 3 = false → coreFilling s s.g.idn.core = false →
  (s.g.x.sup = false → ∀ i ∈ [Instr.mappg d a b, .unmappg d a, .rgrel a b, .scan_run d a b], exec i s = .next (raiseI 2 s))
  ∧ (s.g.x.sup = true → attrs &&& ~~~(0x07F0000000000008 : Word64) ≠ 0 → exec (.mappg d a b) s = .next (raiseI 1 s))
  ∧ (s.g.x.sup = true → canonical (rS s a) = false → let ovf := raiseW { flt 10 with va := rS s a } s
    (attrs &&& ~~~(0x07F0000000000008 : Word64) = 0 → exec (.mappg d a b) s = .next ovf) ∧ exec (.unmappg d a) s = .next ovf)
  ∧ (s.g.x.sup = true → attrs &&& ~~~(0x07F0000000000008 : Word64) = 0 → canonical (rS s a) = true → gCtx s = some c →
    (mapWalk u va 4 0 c.root = .present → writes (.mappg d a b) 1 (fun t => t.ctxs = s.ctxs ∧ stays t))
    ∧ (∀ p, mapWalk u va 4 0 c.root = .free p → p % 8 = 0 → let idx := lo32 c.plNext; let slot := c.plBase.toNat + 8 * idx
        let frame := leafFrame (cohWord u slot); let kind := attrs.toNat / 2 ^ 55 % 4
        inTable s (2 * (p / 128)) = false → inTable s (2 * (slot / 128)) = false →
        idx < hi32 c.plNext → inDevMem s.tun slot = true → cohPoisoned u slot 8 = false → homeRoom u (p / 128) → kind < 2 → inKind s kind frame = true →
        writes (.mappg d a b) 0 (fun t => cohWord t p = (BitVec.ofNat 64 frame ||| attrs ||| 5)
          ∧ (∀ pa, pa < p ∨ p + 8 ≤ pa → inTable s (2 * (pa / 128)) = false → cohByte t pa = cohByte s pa)
          ∧ ∃ x, gCtx t = some x ∧ x.plNext = BitVec.ofNat 64 (hi32 c.plNext * 2 ^ 32 + (idx + 1) % 2 ^ 32))))
  ∧ (s.g.x.sup = true → canonical (rS s a) = true →
    (∀ level, walk u s.g.idn.ctx va = .absent level → writes (.unmappg d a) 0 stays)
    ∧ (∀ detail level, walk u s.g.idn.ctx va = .bad detail level →
        exec (.unmappg d a) s = .next (raiseW { flt 5 with detail := detail, level := level, va := rS s a } u))
    ∧ (∀ level, walk u s.g.idn.ctx va = .poisoned level → exec (.unmappg d a) s = .next (raiseW { flt 11 with level := level, va := rS s a } u))
    ∧ (∀ p e level, walk u s.g.idn.ctx va = .leaf p e level →
      (leafPin e = true → exec (.unmappg d a) s = .next (raiseW { flt 5 with detail := 7, level := level, va := rS s a } u))
      ∧ (leafPin e = false → s.d.scans = [] → pageBusy u e level va = false → pageStuck u e level = false →
        let v := cohWord (pageBack e level u) p;
        (pageStash u e level = [] → v = e)
        ∧ writes (.unmappg d a) v (fun t =>
          (∀ x ∈ t.m.tlb, ¬(x.ctx = s.g.idn.ctx ∧ x.level = level ∧ x.vpage = vpage level va))
          ∧ (∀ core sec, sec < 2 ^ 45 → leafFrame v ≤ 128 * sec → 128 * sec < leafFrame v + 2 ^ levelShift level → l1At t core sec = none)
          ∧ (s.m.l1 = [] → leafHome e = true → p % 8 = 0 → inTable s (2 * (p / 128)) = false → cohWord t p = e &&& ~~~(1 : Word64))))))
  ∧ (s.g.x.sup = true → va % 65536 ≠ 0 ∨ (rS s b).toNat % 65536 ≠ 0 → exec (.rgrel a b) s = .next (raiseW { flt 3 with va := rS s a } s))
  ∧ (s.g.x.sup = true → va % 65536 = 0 → (rS s b).toNat % 65536 = 0 →
    ∃ t, exec (.rgrel a b) s = .next t ∧ t.g.pc = nextPc s ∧ regsKept s t
      ∧ ∀ r, va ≤ 65536 * r → 65536 * r < va + (rS s b).toNat → (regionHome t r = none ∨ regionRel t r = true)
        ∧ (regionOwners s r = [] → regionRel s r = false → regionHome t r = none))
  ∧ (va < 2 ^ 32 → gCtx s = some c →
    (va < s.tun.tunn → writes (.tunack d a) 1 (fun t => t.ctxs = s.ctxs))
    ∧ (s.tun.tunn < va → writes (.tunack d a) 2 (fun t => t.ctxs = s.ctxs))
    ∧ (va = s.tun.tunn → writes (.tunack d a) 0 (fun t => t.g.tev = false
        ∧ (∀ h ∈ t.rest, h.idn.ctx = s.g.idn.ctx → h.tev = false) ∧ ∃ x, gCtx t = some x ∧ x.ackTun = va ∧ x.tunDeadline = false)))
  ∧ (∀ g gs, let w := rS s a; let core := w.toNat / 256 % 8 * 256 + w.toNat % 256; let u := useSeg (agentOf s s.g) 1 g s
    s.g.x.sup = true → w.toNat < 65536 → w.getLsbD 11 = false → w.toNat % 256 ≤ 191 → laneFault 1 [globLane s 1 16 0 (rS s b).toNat 16] = none →
    (globLane s 1 16 0 (rS s b).toNat 16).segs = g :: gs → g.kind = 0 → inHbm g.pa = true →
    let answers := fun (v : Word64) (p : State → Prop) => ∃ t, exec (.scan_run d a b) s = .next t ∧ t.g.pc = nextPc u ∧ onlyS u t d
      ∧ rS t d = (if d = 0 then 0 else v) ∧ p t
    ((amGet? s.d.scans core).isSome = true → answers 1 (fun t => t.d = u.d))
    ∧ (amGet? s.d.scans core = none → coreLive s.tun core = false → answers 2 (fun t => t.d = u.d))
    ∧ (amGet? s.d.scans core = none → coreLive s.tun core = true → core = s.g.idn.core → answers 3 (fun t => t.d = u.d))
    ∧ (amGet? s.d.scans core = none → coreLive s.tun core = true → core ≠ s.g.idn.core →
        w.getLsbD 15 = false → launchQueued u (w.toNat / 4096 % 8) = true →
        answers 0 (fun t => (coreOf t core).closed = false ∧ amGet? t.d.scans core = none))
    ∧ (amGet? s.d.scans core = none → coreLive s.tun core = true → core ≠ s.g.idn.core →
        (w.getLsbD 15 = true ∨ launchQueued u (w.toNat / 4096 % 8) = false) → answers 0 (fun t =>
        (coreOf t core).closed = true ∧ ∃ x, amGet? t.d.scans core = some x ∧ x.noab = w.getLsbD 15 ∧ x.thr = w.toNat / 4096 % 8
          ∧ x.recVa = BitVec.ofNat 64 g.pa ∧ x.running = false)))

/-- R429, R430, R41, R118, R175, R469, R470: srd reads each system register, LCLUS and LCORE as they were until the group is resumed
where a tuning event has moved its core or cluster, and swr writes those that may be written; an unassigned number
and a write of a read-only register raise F_ILLOP, a supervisor-only register at user privilege F_PRIV. The time that passes
before CLK and NSEC are read is free (DESIGN CHOICE, log 3). STAMP fills a pair of registers; that the pair of s0 leaves s0 zero and
writes s1 is the model's reading (DEDUCED, log 30). -/
def Obligations.SystemRegisterResult : Prop :=
  ∀ (s : State) (d a : SReg) (r : BitVec 8), let g := s.g; let v := rS s a; let cl := g.idn.core / 256
  let pos := g.posn.getD (lclusOf s.tun cl, lcoreOf s.tun g.idn.core)
  let z := fun (n : Nat) => BitVec.ofNat 64 n
  let table : List (Nat × Word64) :=
    [(0x00, z (gidxOf g)), (0x01, z g.idn.part), (0x02, g.idn.tidx.zeroExtend 64), (0x03, z g.idn.ngrp), (0x04, z g.idn.npart),
     (0x05, g.idn.nteam.zeroExtend 64), (0x06, z pos.1), (0x07, z pos.2), (0x08, z (lcores s.tun cl)),
     (0x09, z (s.tun.tunn % 2 ^ 32)), (0x0B, g.idn.loc.zeroExtend 64), (0x0C, g.fpstat.zeroExtend 64), (0x0D, g.sigm ++ g.sigw),
     (0x0E, z ((if g.tev then 4 else 0) + (if g.chz then 2 else 0) + (if g.mcp then 1 else 0))), (0x0F, g.live.zeroExtend 64),
     (0x10, z (g.n.batches.length % 64 * 2 ^ 18 + g.n.cps.length % 64 * 2 ^ 12 + g.n.sts.length % 64 * 2 ^ 6 + g.n.ld % 64)),
     (0x11, g.chainr.zeroExtend 64), (0x20, g.x.faultMask.zeroExtend 64), (0x21, g.x.faultVa), (0x22, g.x.faultCode.zeroExtend 64),
     (0x23, g.x.doneMask.zeroExtend 64), (0x24, g.x.epc.signExtend 64), (0x25, plBaseOf s), (0x26, plNextOf s)]
  let wrote := fun (w : State → Prop) => ∃ t, exec (.swr a r) s = .next t ∧ t.g.pc = nextPc s ∧ sKept s t (fun _ => False)
    ∧ kKept s t (fun _ => False) ∧ vKept s t (fun _ _ => False) ∧ t.g.live = g.live ∧ memKept s t ∧ w t
  let allowed := r.toNat < 0x20 ∨ g.x.sup = true
  (∀ p ∈ table, r.toNat = p.1 → allowed →
    ∃ t, exec (.srd d r) s = .next t ∧ completes s t (nextPc s) ∧ rS t d = (if d = 0 then 0 else p.2) ∧ onlyS s t d ∧ memKept s t)
  ∧ (r = 0x0A → d.getLsbD 0 = false → ∃ t, exec (.srd d r) s = .next t ∧ completes s t (nextPc s) ∧ memKept s t
      ∧ (d ≠ 0 → rS t d = g.idn.stamp.epoch) ∧ rS t (d + 1) = g.idn.stamp.cw ∧ sKept s t (fun q => q = d ∨ q = d + 1))
  ∧ (r = 0x0A → d.getLsbD 0 = true → exec (.srd d r) s = .next (raiseI 1 s))
  ∧ (r = 0x12 → ∃ t, exec (.srd d r) s = .next t ∧ t.g.pc = nextPc s ∧ onlyS s t d ∧ memKept s t
      ∧ rS t d = if d = 0 then 0 else z (coreOf t g.idn.core).clk)
  ∧ (r = 0x13 → ∃ t, exec (.srd d r) s = .next t ∧ t.g.pc = nextPc s ∧ onlyS s t d ∧ memKept s t ∧ s.nsec ≤ t.nsec
      ∧ rS t d = if d = 0 then 0 else z t.nsec)
  ∧ (r = 0x0C → wrote (fun t => t.g.fpstat = v.truncate 5))
  ∧ (r = 0x0D → exec (.swr a r) s = .next (retire g.live { s with g := { g with sigm := v.extractLsb' 32 32, sigw := v.truncate 32 } }))
  ∧ (r = 0x0E → wrote (fun t => t.g.chz = (g.chz && v.getLsbD 1) ∧ t.g.mcp = (g.mcp && v.getLsbD 0) ∧ t.g.tev = g.tev))
  ∧ (r = 0x11 → wrote (fun t => t.g.chainr = v.truncate 32 &&& 0xFFF0FFF0))
  ∧ (g.x.sup = true → (r = 0x24 → wrote (fun t => t.g.x.epc = v.truncate 56))
      ∧ (r = 0x25 → ∀ c, gCtx s = some c → wrote (fun t => gCtx t = some { c with plBase := v &&& 0x000FFFFFFFFFFFF8 }))
      ∧ (r = 0x26 → ∀ c, gCtx s = some c → wrote (fun t => gCtx t = some { c with plNext := v })))
  ∧ ((0x14 ≤ r.toNat ∧ r.toNat < 0x20 ∨ 0x27 ≤ r.toNat) →
      exec (.srd d r) s = .next (raiseI 1 s) ∧ exec (.swr a r) s = .next (raiseI 1 s))
  ∧ (g.x.sup = false → 0x20 ≤ r.toNat → r.toNat ≤ 0x26 →
      exec (.srd d r) s = .next (raiseI 2 s) ∧ exec (.swr a r) s = .next (raiseI 2 s))
  ∧ (r.toNat ≤ 0x0B ∨ r = 0x0F ∨ r = 0x10 ∨ r = 0x12 ∨ r = 0x13 ∨ (g.x.sup = true ∧ 0x20 ≤ r.toNat ∧ r.toNat ≤ 0x23) →
      exec (.swr a r) s = .next (raiseI 1 s))

/-! ### The device's events -/

/-- R57 to R63, R66, R70, R71, R84, R99: what each message of the registration protocol does where it arrives, at a home that can
serve it at once, at an owner, or at a requester. The model's own: a word in W that is stored again goes to P at its WTACK
(DEDUCED, log 11), and no message changes a sector of the region table (DESIGN CHOICE, log 45). -/
def Obligations.ProtocolMessageResult : Prop :=
  ∀ (s : State) (core sec : Nat),
  let ran := fun (i : Instr) (p : State → Prop) => ∃ t, exec i s = .next t ∧ regsKept s t ∧ p t
  let served := fun (write : Bool) (words : BitVec 16) (me : Option Nat) => staleHome s core sec = false ∧ homeBusy s sec = false
    ∧ heldBefore s sec = false ∧ snoopLines s sec write = [] ∧ ownersOf s sec words me = []
  let homeByte := fun (u : State) (i : Nat) => secByte (homeSector u sec).data i; let table := inTable s (2 * sec)
  (∀ by_, s.ev = some (.rds core sec by_) → served false 0 (some core) → homeRoom s sec → let os := ownersOf s sec (BitVec.allOnes 16) (some core);
    ran .rds (fun t => .fill core sec (homeSector s sec).data (homeSector s sec).poison (ownedElsewhere s sec (some core)) os.length ∈ t.agenda
      ∧ (∀ o ∈ os, .fwdrd o core sec ∈ t.agenda) ∧ ∀ pa, cohByte t pa = cohByte s pa))
  ∧ (∀ m, s.ev = some (.rego core sec m) → served true (maskWords m) (some core) → dirFull s sec = false →
    ran .rego (fun t => .regack core sec ∈ t.agenda ∧ (∀ i < 16, (maskWords m).getLsbD i = true → ownerOf t (16 * sec + i) = some core)
      ∧ ∀ w, ¬(∃ i < 16, (maskWords m).getLsbD i = true ∧ w = 16 * sec + i) → ownerOf t w = ownerOf s w))
  ∧ (∀ m, s.ev = some (.rego core sec m) → staleHome s core sec = false → homeBusy s sec = false → heldBefore s sec = false →
    snoopLines s sec true = [] → ownersOf s sec (maskWords m) (some core) ≠ [] →
    ran .rego (fun t => t.m.held = s.m.held ++ [.rego core sec m]
      ∧ ∀ o ∈ ownersOf s sec (maskWords m) (some core), .rvk o sec (wordsOwnedBy s sec (maskWords m) o) ∈ t.agenda))
  ∧ (∀ d rel by_, s.ev = some (.wt core sec d rel by_) → served true (maskWords d.mask) (some core) → homeRoom s sec →
    ran .wt (fun t => .wtack core sec ∈ t.agenda
      ∧ (∀ i < 128, homeByte t i = if table = false ∧ d.mask.getLsbD i = true then secByte d.data i else homeByte s i)
      ∧ (rel = true → ∀ i < 16, (maskWords d.mask).getLsbD i = true → ownerOf t (16 * sec + i) ≠ some core)))
  ∧ (∀ d, s.ev = some (.wb core sec d) → served false 0 (some core) → homeRoom s sec →
    ran .wb (fun t => .wback core sec ∈ t.agenda
      ∧ (∀ i < 128, homeByte t i = if table = false ∧ d.mask.getLsbD i = true ∧ ownerOf s (16 * sec + i / 8) = some core then secByte d.data i else homeByte s i)
      ∧ (∀ i < 16, (maskWords d.mask).getLsbD i = true → ownerOf t (16 * sec + i) ≠ some core)))
  ∧ (∀ aop w64 r ls, s.ev = some (.atom core sec aop w64 r ls) → served true (offWords w64 (ls.map (fun l => l.off))) none →
    let x := atomLanes sec aop w64 r ls s;
    ran .atom (fun t => t.m = x.2.m ∧ .atomrsp core sec w64 x.1.1 ∈ t.agenda
      ∧ ∀ l, ls = [l] → let y := homeAtomic (128 * sec + l.off) aop.toNat (if w64 then 64 else 32) r l.b.toNat l.c.toNat s;
          t.m = y.2.m ∧ .atomrsp core sec w64 [(l.off, BitVec.ofNat 64 y.1.1)] ∈ t.agenda))
  ∧ (∀ words d, s.ev = some (.rvkdata core sec words d) → homeRoom s sec → let r := regionOf (128 * sec)
    (regionRel s r = true → (∀ o ∈ regionOwners s r, o.1 = core ∧ o.2.1 = sec ∧ o.2.2 &&& ~~~words = 0) →
      ran .rvkdata (fun t => regionHome t r = none))
    ∧ (regionRel s r = false → ran .rvkdata (fun t => (∀ i < 128, homeByte t i = if table = false ∧ d.mask.getLsbD i = true then secByte d.data i else homeByte s i)
      ∧ (∀ i < 16, words.getLsbD i = true → ownerOf t (16 * sec + i) ≠ some core) ∧ t.m.held = [] ∧ ∀ e ∈ s.m.held, e ∈ t.agenda)))
  ∧ (∀ o, s.ev = some (.fwdrd o core sec) →
    ran .fwdrd (fun t => .fwddata core sec (ownerBytes s o sec (BitVec.allOnes 16)).1 ∈ t.agenda
      ∧ ((∀ x, l1At s o sec = some x → x.stash = false ∨ x.p ||| x.o = 0) → t.m = s.m)
      ∧ ∀ x l, l1At s o sec = some x → x.stash = true → x.p ||| x.o ≠ 0 → xlate s (stashAgent s o x) (128 * x.vsec) 1 = .ok l →
          .wb o sec { mask := x.reg &&& wordBytes (x.p ||| x.o), data := x.data } ∈ t.agenda))
  ∧ (∀ words, s.ev = some (.rvk core sec words) →
    ran .rvk (fun t => .rvkdata core sec words (ownerBytes s core sec words).1 ∈ t.agenda
      ∧ ∀ x, l1At s core sec = some x → ∃ y, l1At t core sec = some y ∧ y.p = x.p &&& ~~~words ∧ y.o = x.o &&& ~~~words
          ∧ y.w = x.w &&& ~~~words ∧ y.data = x.data ∧ y.valid = x.valid))
  ∧ (∀ f x, s.m.fills.find? (fun f => f.core == core && f.sector == sec) = some f → l1At s core sec = some x →
    (∀ d po ow n, s.ev = some (.fill core sec d po ow n) → n ≤ f.seen → let y := { f with got := true, data := d, poison := po, fwds := n };
      ran .fill (fun t => fillPending t core sec = false ∧ l1At t core sec = some { fillMerge y.filled x with filler := f.tag.filler }))
    ∧ (∀ d, s.ev = some (.fwddata core sec d) →
      let y := { f with seen := f.seen + 1, overMask := f.overMask ||| d.mask, overData := secMerge f.overData d.mask d.data };
      (f.got = true → f.fwds ≤ f.seen + 1 →
        ran .fwddata (fun t => fillPending t core sec = false ∧ l1At t core sec = some { fillMerge y.filled x with filler := f.tag.filler }))
      ∧ (f.got = false → ran .fwddata (fun t => y ∈ t.m.fills ∧ t.m.l1 = s.m.l1))))
  ∧ (∀ o rest, s.ev = some (.regack core sec) → takeOut .rego core sec s.m.outs = some (o, rest) →
    ran .regack (fun t => t.m.outs = rest ∧ ∀ x, l1At s core sec = some x →
      l1At t core sec = some { x with o := x.o ||| (x.p &&& o.words), p := x.p &&& ~~~o.words }))
  ∧ (∀ o rest, s.ev = some (.wtack core sec) → takeOut .wt core sec s.m.outs = some (o, rest) →
    (∀ u ∈ rest, u.kind = .wt → u.core ≠ core ∨ u.sector ≠ sec) →
    let again := outWords { s with m := { s.m with outs := rest } } .rego core sec
    ran .wtack (fun t => t.m.outs = rest ∧ ∀ x, l1At s core sec = some x → ∃ y, l1At t core sec = some y ∧ y.w = x.w &&& ~~~o.words
      ∧ y.p = x.p ||| (x.w &&& o.words &&& again) ∧ y.o = x.o ∧ y.data = x.data
      ∧ y.valid = x.valid &&& ~~~wordBytes (x.w &&& o.words &&& ~~~again &&& x.drop)))
  ∧ (∀ o rest w, s.ev = some (.wback core sec) → takeOut .wb core sec s.m.outs = some (o, rest) →
    s.m.wbuf.find? (fun w => w.core == core && w.sector == sec) = some w → (∀ f ∈ s.m.fills, f.core = core → f.complete = false) →
    ran .wback (fun t => t.m.outs = rest ∧ t.m.wbuf = s.m.wbuf.erase w))
  ∧ (∀ w64 olds o rest, s.ev = some (.atomrsp core sec w64 olds) → takeOut .atom core sec s.m.outs = some (o, rest) →
    ran .atomrsp (fun t => t.m.outs = rest ∧ ∀ x, l1At s core sec = some x → ∃ y, l1At t core sec = some y
      ∧ y.valid = x.valid &&& ~~~wordBytes (offWords w64 (olds.map (fun l => l.1)) &&& ~~~x.held) ∧ y.data = x.data))
  ∧ (∀ r, s.ev = some (.retry core r) →
    ran .retry (fun t => amGet? t.m.rhome (core * 2 ^ 36 + r) = none ∧ t.agenda = .region_home_lookup core r :: s.agenda))
  ∧ (∀ r, s.ev = some (.region_home_lookup core r) →
    (regionRel s r = false → hashedRegion s r = false →
      ran .region_home_lookup (fun t => ∃ h, regionHome t r = some h ∧ amGet? t.m.rhome (core * 2 ^ 36 + r) = some h
        ∧ ∀ h', regionHome s r = some h' → h = h'))
    ∧ (regionRel s r = true → ran .region_home_lookup (fun t => t.m.held = .region_home_lookup core r :: s.m.held ∧ t.agenda = s.agenda)))
  ∧ ran .refused_message_reoffer (fun t => t.m.refused = [] ∧ ∃ rs : List (Event × Leg), t.agenda = rs.map (fun r => r.1) ++ s.agenda
      ∧ (∀ n, rs.filter (fun r => (legsFrom s r).length == n) = s.m.refused.filter (fun r => (legsFrom s r).length == n))
      ∧ ∀ (i j : Nat) x y, i < j → rs[i]? = some x → rs[j]? = some y → (legsFrom s y).length < 3 → (legsFrom s x).length ≤ (legsFrom s y).length)

/-- R74 to R77, R79, R80, R366, R445: what the host's requests, snoops and answers, and the replies of expanders and base
dies, do at the device. The model's own (DESIGN CHOICE): the region table's lines read as the keepers' entries (log 45), and after a
MemRd the line is recorded host-shared (log 23). -/
def Obligations.HostMemoryEventResult : Prop :=
  ∀ (s : State) (line sec : Nat),
  let ran := fun (i : Instr) (p : State → Prop) => ∃ t, exec i s = .next t ∧ regsKept s t ∧ p t
  let free := inHbm (64 * line) = true ∧ s.m.biPend.contains line = false ∧ releasing s (line / 2) = false ∧ heldBefore s (line / 2) = false
    ∧ lineClaimed s line = false ∧ ownersOf s (line / 2) (lineWords line) none = []
  let table := inTable s (2 * (line / 2))
  let homeByte := fun (u : State) (i : Nat) => secByte (homeSector u (line / 2)).data i
  (s.ev = some (.memrd line) → free → filterFull s line = false →
    ran .memrd (fun t => (table = false → t.h.reply = s.h.reply ++ [(line, lineOf line (homeSector s (line / 2)).data)])
      ∧ (table = true → t.h.reply = s.h.reply ++
          [(line, tableLine (homeRegion (regionOf (64 * line)) (keeperOf s.tun (regionOf (64 * line))) s) line)])
      ∧ amGet? t.m.hfilt line = some false
      ∧ ∀ pa, inTable s (2 * (pa / 128)) = false → cohByte t pa = cohByte s pa))
  ∧ (∀ m d, s.ev = some (.memwr line m d) → free →
    (table = false → homeRoom s (line / 2) → ran .memwr (fun t => ∀ i < 128, homeByte t i =
      if i / 64 = line % 2 ∧ m.getLsbD (i % 64) = true then d.extractLsb' (8 * (i % 64)) 8 else homeByte s i))
    ∧ (table = true → ran .memwr (fun t => t.m.l2 = s.m.l2 ∧ t.m.mem = s.m.mem)))
  ∧ (∀ inv, s.ev = some (.birsp line inv) →
    (s.m.biPend.contains line = false → ran .birsp (fun t => t = s))
    ∧ (s.m.biPend.contains line = true → ran .birsp (fun t => line ∉ t.m.biPend ∧ (inv = true → amGet? t.m.hfilt line = none)
      ∧ (inv = false → ∀ x, amGet? s.m.hfilt line = some x → amGet? t.m.hfilt line = some false) ∧ t.agenda = s.m.held ++ s.agenda)))
  ∧ (s.ev = some (.biconflict line) → s.m.biPend.contains line = true →
    ran .biconflict (fun t => .memrd line ∉ t.agenda ∧ (.memrd line ∈ s.agenda → .memrd line ∈ t.m.held)
      ∧ ∀ m d, .memwr line m d ∉ t.agenda ∧ (.memwr line m d ∈ s.agenda → .memwr line m d ∈ t.m.held)))
  ∧ (∀ h, amGet? s.m.hlines line = some h →
    let was := memBytes s.m.mem (64 * line) 64; let back := fun (t : State) => memBytes t.m.mem (64 * line) 64 = (if h.st = .m then h.data.toNat else was);
    (s.ev = some (.snpdata line) → ran .snpdata (fun t => t.h.reply = s.h.reply ++ [(line, h.data)]
      ∧ amGet? t.m.hlines line = some { h with st := .s } ∧ back t))
    ∧ (s.ev = some (.snpinv line) → ran .snpinv (fun t => t.h.reply = s.h.reply ++ [(line, h.data)] ∧ amGet? t.m.hlines line = none ∧ back t))
    ∧ (s.ev = some (.snpcur line) → ran .snpcur (fun t => t.h.reply = s.h.reply ++ [(line, h.data)] ∧ t.m = s.m)))
  ∧ (∀ own, s.ev = some (.cxl_cache_data line own true) → amGet? s.m.hlines line = none → homeRoom s (line / 2) →
    ran .cxl_cache_data (fun t => amGet? t.m.hlines line = some 
      { st := if own then .e else .s, data := hostLineData s line, poison := hostLineMarks s line, used := s.tick }))
  ∧ (∀ own, s.ev = some (.cxl_cache_data line own false) → ran .cxl_cache_data (fun t => t = s))
  ∧ (∀ d po, amGet? s.m.l2 sec = none → homeRoom s sec →
    (s.ev = some (.expander_memrd_data sec d po) → inExpander s.tun (128 * sec) = true →
      ran .expander_memrd_data (fun t => amGet? t.m.l2 sec = some { dirty := false, data := d, poison := po, used := s.tick }))
    ∧ (s.ev = some (.base_die_reply sec d po) → inHbm (128 * sec) = true →
      ran .base_die_reply (fun t => amGet? t.m.l2 sec = some { dirty := false, data := d, poison := po, used := s.tick })))
  ∧ (∀ gid g v, s.ev = some (.host_port_completion gid v) → findGroup s gid = some g →
    ran .host_port_completion (fun t => ∃ h, findGroup t gid = some h ∧ h.hostDue = g.hostDue - 1
      ∧ h.hostVals = (if g.hostDue = 0 then g.hostVals else g.hostVals ++ [v]) ∧ (1 < g.hostDue → h.status = g.status)
      ∧ (g.hostDue = 1 → g.status = .waiting → g.watch = none → h.status = .running)))
  ∧ (∀ m d, inDevMem s.tun (64 * line) = true → s.h.portPcie.any id = true →
    (s.ev = some (.pcie_host_access true line m d) → inTable s line = true → ran .pcie_host_access (fun t => t = s))
    ∧ (s.ev = some (.pcie_host_access true line m d) → inTable s line = false → ran .pcie_host_access (fun t => t.m.l2 = s.m.l2
      ∧ ∀ i < 128, secByte (memSector t (line / 2)) i =
        if i / 64 = line % 2 ∧ m.getLsbD (i % 64) = true then d.extractLsb' (8 * (i % 64)) 8 else secByte (memSector s (line / 2)) i))
    ∧ (s.ev = some (.pcie_host_access false line m d) → ran .pcie_host_access (fun t =>
        t.h.reply = s.h.reply ++ [(line, if inTable s line then tableLine s line else lineOf line (memSector s (line / 2)))] ∧ t.m = s.m)))

/-- R205, R208 to R210, R212 to R215, R485, R486: a batch that its progress unit may apply changes the counts it names, one
that would lower an announced frontier is discarded with a record; an announcement never falls below an earlier one; batches
that touch a shared location go to each peer, for the context paired there (R492); a context that is gone counts nothing (R471); forwarding, acknowledgements, and the exchange with a peer device. The model's own: a
fret forwards one batch a step, unchanged (log 34); a peer's batch that has been applied is acknowledged again, and one that has
overtaken another waits for it (DESIGN CHOICE, log 36); the numbers of the links (log 25). -/
def Obligations.ProgressEventResult : Prop :=
  ∀ (s : State) (ctx l n : Nat) (u : Stamp) (amt : Int) (src : BatchSrc), let d : Delta := { loc := l, stamp := u, amt := amt }
  let ran := fun (i : Instr) (p : State → Prop) => ∃ t, exec i s = .next t ∧ regsKept s t ∧ p t
  let fits := -2 ^ 63 ≤ countOf s ctx l u + amt ∧ countOf s ctx l u + amt < 2 ^ 63 ∧ (amt > 0 → wouldLower s ctx l u = false)
  let counted := fun (t : State) => countOf t ctx l u = countOf s ctx l u + amt
    ∧ ∀ k m v, ¬(k = ctx ∧ m = l ∧ v = u) → countOf t k m v = countOf s k m v
  (s.ev = some (.batch src ctx [d]) →
    (ctxOf s ctx = none → ran .batch (fun t => t = s))
    ∧ ((ctxOf s ctx).isSome = true → fits → ran .batch (fun t => counted t ∧ (∀ gid, src = .group gid → .batch_acknowledgement gid ∈ t.agenda)
      ∧ ∀ c, ctxOf s ctx = some c → batchShared c [d] = true → (∀ dev, src ≠ .peer dev) →
          ∀ p ∈ c.peers, p.up = true → ∃ q, .batch ⟨p.dev, q, p.ctx, [d]⟩ ∈ t.t.peerWire ∧ ⟨p.dev, q, p.ctx, [d]⟩ ∈ t.t.peerOut))
    ∧ (amt > 0 → wouldLower s ctx l u = true → ∃ t r, exec .batch s = .next t ∧ countOf t ctx l u = countOf s ctx l u
        ∧ .fault_record r ∈ t.agenda ∧ r.src = 6 ∧ r.fcode = 13))
  ∧ (s.ev = some (.frontier_announcement ctx l) → cutOff s ctx l = false →
    ran .frontier_announcement (fun t => ∃ a, announcedOf t ctx l = some a
      ∧ a.stamp = (match announcedOf s ctx l with
        | some b => if stampLt (frontier s ctx l) b.stamp then b.stamp else frontier s ctx l
        | none => frontier s ctx l)))
  ∧ (∀ cl b bs, s.ev = some (.fret_forward cl) → amGet? s.t.frets cl = some (b :: bs) →
    ran .fret_forward (fun t => amGet? t.t.frets cl = some bs ∧ .batch b.src b.ctx b.ds ∈ t.agenda))
  ∧ (∀ gid g, s.ev = some (.batch_acknowledgement gid) → findGroup s gid = some g →
    ran .batch_acknowledgement (fun t => ∃ h, findGroup t gid = some h ∧ h.n.batchOut = g.n.batchOut - 1))
  ∧ (∀ k dev msg, s.ev = some (.peer_flit k false dev msg) → ran .peer_flit (fun t => t = s))
  ∧ (∀ k dev ds, s.ev = some (.peer_flit k true dev (.batch n ctx ds)) → ran .peer_flit (fun t => .peer_batch dev n ctx ds ∈ t.agenda))
  ∧ (∀ dev, s.ev = some (.peer_batch dev n ctx [d]) →
    (n ≤ (amGet? s.t.peerSeen dev).getD 0 → ran .peer_batch (fun t => t = { s with t := { s.t with peerWire := s.t.peerWire ++ [.ack dev n] } }))
    ∧ (n = (amGet? s.t.peerSeen dev).getD 0 + 1 → pairedWith s ctx dev = true → fits → (∀ b ∈ s.t.peerHeld, b.dev = dev → b.seq ≠ n + 1) →
        ran .peer_batch (fun t => counted t ∧ amGet? t.t.peerSeen dev = some n ∧ .ack dev n ∈ t.t.peerWire))
    ∧ ((amGet? s.t.peerSeen dev).getD 0 + 1 < n → let b : PeerBatch := { dev := dev, seq := n, ctx := ctx, ds := [d] };
        ran .peer_batch (fun t => b ∈ t.t.peerHeld ∧ (b ∈ s.t.peerHeld → t = s) ∧ (b ∉ s.t.peerHeld → t = { s with t := { s.t with peerHeld := s.t.peerHeld ++ [b] } }))))
  ∧ (∀ dev, s.ev = some (.peer_batch_ack dev n) →
    ran .peer_batch_ack (fun t => ∀ b, b ∈ t.t.peerOut ↔ b ∈ s.t.peerOut ∧ (b.dev = dev → n < b.seq)))
  ∧ (∀ k lanes rate, s.ev = some (.link_retrain k lanes rate) →
    ran .link_retrain (fun t => (k < 24 → .tuning_event (.link k lanes rate) ∈ t.agenda) ∧ (24 ≤ k → t.agenda = s.agenda)
      ∧ (cellGet t.h.life.retrains k).toNat = Nat.min ((cellGet s.h.life.retrains k).toNat + 1) (2 ^ 32 - 1)))
  ∧ (∀ dev, s.ev = some (.exchange_restore dev) → pairedWith s ctx dev = true →
    ran .exchange_restore (fun t => (∃ c, ctxOf t ctx = some c ∧ ∀ p ∈ c.peers, p.dev = dev → p.up = true)
      ∧ ∀ b ∈ s.t.peerOut, b.dev = dev → .batch b ∈ t.t.peerWire))

/-- R92, R94, R160, R161, R169, R176 to R179, R186 to R188, R222, R226, R228, R231, R448, R449: what an engine's step, the
start of a window group, a peg load, and the starts and exits of teams, parts and chunks do, and the arrival of the bow. The model's
own (DESIGN CHOICE): a TUMBLE window whose end would pass the largest epoch ends there (log 29), and a staged entry is translated as it
drains (log 43). -/
def Obligations.DispatchEventResult : Prop :=
  ∀ (s : State) (cl ctx sid : Nat), let ran := fun (i : Instr) (p : State → Prop) => ∃ t, exec i s = .next t ∧ p t
  (∀ r d c v, ctxOf s r.ctx = some c → sdKind d = 0 → member cl r d s = .inr v →
    let e := (recWord r.data 0).toNat; let len := sdSize1 d; let start := e - e % Nat.max 1 len
    (candidates s cl r.ctx r.sid (recWord r.data 2)).find? (fun w => w.start == BitVec.ofNat 64 start) = none →
    ∃ w, winOf v s.d.nextId = some w ∧ w.start = BitVec.ofNat 64 start ∧ w.expiry = BitVec.ofNat 64 (Nat.min (start + len - 1) (2 ^ 64 - 1))
      ∧ w.count = 1 ∧ w.key = recWord r.data 2 ∧ w.cluster = cl ∧ w.queue.map (fun i => i.recNo) = [r.no])
  ∧ (s.ev = some (.window_engine_step cl) →
    (∀ no r d v, amGet? s.w.arrivals cl = some [no] → amGet? s.w.recs no = some r → streamOf s r.ctx r.sid = some d → d.parked = false →
      ctxRuns s r.ctx = true → member cl r d.desc { s with w := { s.w with arrivals := amPut s.w.arrivals cl [] } } = .inr v →
      ran .window_engine_step (fun t => amGet? t.w.arrivals cl = none))
    ∧ (∀ d a id w, amGet? s.w.arrivals cl = none → streamOf s ctx sid = some d → ctxRuns s ctx = true → announcedOf s ctx (sdLoc d.desc) = some a →
      sdPanes d.desc = false → winOf s id = some w → w.id = id → w.cluster = cl → w.ctx = ctx → w.sid = sid → w.clp = false → w.absorbed = false →
      w.st ≠ .closing → (a.stamp.epoch = BitVec.allOnes 64 ∨ (sdKind d.desc ≠ 2 ∧ endPassed (depthOfLoc s ctx (sdLoc d.desc)) a.stamp w.expiry = true)) →
      ran .window_engine_step (fun t => winOf t id = none ∨ ∃ x, winOf t id = some x ∧ x.clp = true)))
  ∧ (∀ k d c js, let row := winRow s ctx d.desc (entryAddr d.desc k)
      streamOf s ctx sid = some d → ctxOf s ctx = some c → ctxRuns s ctx = true → d.parked = false → engineLeaving s = false →
      ((laneGroups s cl ctx sid d.desc k).filter (groupDue s d.desc k)).find? (fun js => js.all (fun j => (pegMissing s j).isEmpty)) = some js →
      (blockPlace s (blockSize row false)).isSome = true →
      ∀ core, winCore s cl row = some core → coreFilling s core = false →
      let starts := fun (i : Instr) => ran i (fun t => ∃ g ∈ t.rest, g.idn.gid = s.d.nextGid ∧ g.idn.kind = .window ∧ g.idn.ctx = ctx ∧ g.idn.work = sid
        ∧ g.idn.core = core ∧ g.status = .running ∧ g.pc = entryAddr d.desc k ∧ g.live = BitVec.ofNat 32 (2 ^ js.length - 1) ∧ cellGet g.kregs 1 = g.live
        ∧ cellGet g.sregs 1 = BitVec.ofNat 64 sid ∧ cellGet g.sregs 2 = BitVec.ofNat 64 (entryCode k) ∧ cellGet g.sregs 3 = BitVec.ofNat 64 js.length
        ∧ g.w.kind = k ∧ g.w.lanes.map (fun x => x.win) = js.map (fun j => j.win.id));
      (s.ev = some (.window_group_start cl ctx sid k) → starts .window_group_start)
      ∧ (s.ev = some (.window_group_timeout cl ctx sid k) → starts .window_group_timeout))
  ∧ (∀ id w, s.ev = some (.peg_load ctx sid id) → winOf s id = some w → w.cached = false → w.pegPa ≠ 0 →
    inTable s (2 * (w.pegPa / 128)) = false → cohPoisoned s w.pegPa 128 = false → (cachedPegs s w.cluster).length < 4096 →
    ran .peg_load (fun t => t.m = (pegSeen w.pegPa s).m ∧ ∃ x, winOf t id = some x ∧ x.cached = true
      ∧ ∀ i < 16, x.words.extractLsb' (64 * i) 64 = cohWord s (w.pegPa + 8 * i)))
  ∧ (∀ grid g cores place, s.ev = some (.team_start grid) → amGet? s.d.grids grid = some g → teamDue s g = true →
    placeTeam s g.row g.cmask (gridAvoid s grid) = some (cl, cores) → blockPlace s (blockSize g.row g.det) = some place → cores ≠ [] → 0 < g.row.g →
    ran .team_start (fun t => (∃ x, teamOf t s.d.nextId = some x ∧ x.grid = grid ∧ x.cluster = cl ∧ x.parts.length = cores.length ∧ x.savePlace = place)
      ∧ (∃ x, amGet? t.d.grids grid = some x ∧ x.nextTeam = g.nextTeam + 1 ∧ x.teamsUp = g.teamsUp + 1)
      ∧ ∃ h ∈ t.rest, h.idn.gid = s.d.nextGid ∧ h.idn.kind = .compute ∧ h.idn.team = s.d.nextId ∧ h.idn.part = 0 ∧ h.idn.gidx = 0
        ∧ h.idn.tidx = BitVec.ofNat 32 g.nextTeam ∧ h.status = .starting ∧ h.pc = g.row.entry ∧ cellGet h.sregs 1 = g.args ∧ h.live = 0xFFFFFFFF))
  ∧ (∀ team part tm e, teamOf s team = some tm → partEnt tm part = some e → let core := 256 * tm.cluster + e.core
      (s.ev = some (.part_start team part) → e.st = true → tm.saved = false → coreFilling s core = false →
        ran .part_start (fun t => (∃ x y, teamOf t team = some x ∧ partEnt x part = some y ∧ y.v = true ∧ y.st = false)
          ∧ (∀ o < e.size * 4096, sramByte t core (e.base * 4096 + o) = 0)
          ∧ ∀ h ∈ s.rest, h.idn.team = team → h.idn.part = part → h.status = .starting → { h with status := .running, rdy := s.tick } ∈ t.rest))
      ∧ (s.ev = some (.part_exit team part) → e.left = false → e.groups ≤ e.exited → tm.stash = [] → partRead s team part = false →
        ((∃ p x, p ≠ part ∧ partEnt tm p = some x ∧ x.left = false) →
          ran .part_exit (fun t => ∃ x y, teamOf t team = some x ∧ partEnt x part = some y ∧ y.v = false ∧ y.left = true))
        ∧ (tm.parts = [e] → (tm.isJob = true ∨ tm.bow = .off) → ran .part_exit (fun t => teamOf t team = none))))
  ∧ (∀ card c cores place, s.ev = some (.job_chunk_deal card) → amGet? s.d.cards card = some c → c.dealt < c.count → c.cancelled = false →
    ctxRuns s c.ctx = true → placeTeam s (jobRow c.row) c.cmask [] = some (cl, cores) → blockPlace s (blockSize (jobRow c.row) false) = some place → cores ≠ [] → 0 < c.row.g →
    let rem := c.count - c.dealt; let p := cardCores s c.cmask; let n := Nat.min rem (Nat.max 1 ((rem + 2 * p - 1) / Nat.max 1 (2 * p)))
    ran .job_chunk_deal (fun t => (∃ x, amGet? t.d.cards card = some x ∧ x.dealt = c.dealt + n ∧ x.groupsUp = c.groupsUp + 1)
      ∧ ∃ h ∈ t.rest, h.idn.gid = s.d.nextGid ∧ h.idn.kind = .job ∧ h.idn.work = card ∧ h.pc = c.row.entry
        ∧ cellGet h.sregs 1 = c.base + BitVec.ofNat 64 (c.dealt * c.rsize) ∧ cellGet h.sregs 2 = BitVec.ofNat 64 c.rsize
        ∧ cellGet h.sregs 3 = BitVec.ofNat 64 n ∧ cellGet h.sregs 7 = BitVec.ofNat 64 c.dealt))
  ∧ (∀ team tm p u, s.d.teams.find? (fun e => e.2.bow == .holds && !e.2.drained && !e.2.saved) = some (team, tm) → teamOf s team = some tm →
    p ∈ tm.parts → p.left = false → drainRun tm (stagedOf s team) s = ([], u) →
    (∀ q ∈ tm.parts, q.left = false → coreFilling u (256 * tm.cluster + q.core) = false) →
    ran .bow_receive (fun t => (∃ x, teamOf t team = some x ∧ x.bow = .holds ∧ x.drained = true) ∧ stagedOf t team = []
      ∧ ∀ e x, stagedOf s team = [e] → drainSeg s tm e = .ok x → x.kind < 2 → x.pa % 8 = 0 → inTable s (2 * (x.pa / 128)) = false →
          ∀ i < 8, e.mask.getLsbD i = true → cohByte t (x.pa + i) = e.data.extractLsb' (8 * i) 8))

/-- R43 to R46, R122, R306, R307, R340, R351, R356, R451, R459, R464: what parking, the deliveries at boundaries, the timers
of groups, a forced save, and the end of a transfer do. The model's own (DESIGN CHOICE): a stash's write-back that faults is delivered
at the boundary of the group that it reaches (log 44). -/
def Obligations.DeliveryAndTimerResult : Prop :=
  ∀ (s : State) (gid : Nat) (g : Group), findGroup s gid = some g → let ran := fun (i : Instr) (p : State → Prop) => ∃ t, exec i s = .next t ∧ p t
  let becomes := fun (t : State) (p : Group → Prop) => t.m = s.m ∧ ∃ h, findGroup t gid = some h ∧ h.pc = g.pc ∧ h.sregs = g.sregs ∧ p h
  (s.ev = some (.urgent gid) → g.status = .running → ran .urgent (fun t => becomes t (fun h => h = { g with urgent := true })))
  ∧ (s.ev = some (.yield_expiry gid) → g.status = .yielded →
    ran .yield_expiry (fun t => becomes t (fun h => h = { g with status := .running, yieldFor := [], rdy := s.tick })))
  ∧ (s.ev = some (.sleep_expiry gid) → g.status = .sleeping →
    ran .sleep_expiry (fun t => g.wakeAt ≤ t.nsec ∧ becomes t (fun h => h = { g with status := .running, rdy := s.tick })))
  ∧ (s.ev = some (.vnbr_timeout gid) → g.status = .waiting → g.watch = none →
    ran .vnbr_timeout (fun t => becomes t (fun h => h = { g with status := .running, timedOut := true, rdy := s.tick })))
  ∧ (s.ev = some (.vnbr_timeout gid) → g.status = .running → ran .vnbr_timeout (fun t => becomes t (fun h => h = { g with timedOut := true })))
  ∧ (s.ev = some (.vxshf_timeout gid) → g.status = .waiting → g.watch = none →
    ran .vxshf_timeout (fun t => becomes t (fun h => h = { g with status := .running, timedOut := true, rdy := s.tick })))
  ∧ (s.ev = some (.vxshf_timeout gid) → g.status = .running → ran .vxshf_timeout (fun t => becomes t (fun h => h = { g with timedOut := true })))
  ∧ (s.ev = some (.forced_save gid) → g.saveDue = true → drained g = true → (∀ tm, teamOf s g.idn.team = some tm → tm.stash = []) →
    ran .forced_save (fun t => ∃ h, findGroup t gid = some h ∧ h.status = .saved ∧ h.saveDue = false ∧ h.pc = g.pc ∧ h.sregs = g.sregs
      ∧ h.kregs = g.kregs ∧ h.live = g.live ∧ h.x = g.x ∧ ((∀ e, g.saveWay ≠ .safePoint e) → h.vregs = g.vregs ∧ h.tiles = g.tiles)
      ∧ ∀ e, g.saveWay = .safePoint e → g.halt = true → ∀ r l, l < 32 → cellGet h.vregs (32 * r + l) = if e.getLsbD r then cellGet g.vregs (32 * r + l) else 0))
  ∧ (s.ev = some (.forced_save gid) → g.saveDue = true → drained g = false →
    ran .forced_save (fun t => t.m = s.m ∧ ∃ h n, findGroup t gid = some h ∧ (n, .forced_save gid) ∈ t.timers ∧ h.halt = true ∧ h.saveDue = true
      ∧ h.pc = g.pc ∧ h.sregs = g.sregs ∧ h.vregs = g.vregs ∧ (g.hostDue = 0 → g.hostVals = [] → ready h = false)))
  ∧ (s.g = g →
    let enters := fun (cause : HandlerCause) (fc : Word32) (va : Word64) (p : State → Prop) =>
      ran .parked_fault_delivery (fun t => t.g.x.sup = true ∧ t.g.x.cause = cause ∧ t.g.x.faultMask = 1 ∧ t.g.live = 1 ∧ t.g.x.doneMask = 0
        ∧ t.g.x.faultCode = fc ∧ t.g.x.faultVa = va ∧ t.g.x.epc = g.pc ∧ t.g.x.liveSave = g.live ∧ t.g.pc = handlerOf s ∧ t.g.status = .running ∧ p t)
    (∀ p ps fc va, g.x.backFlts = [] → g.n.parkQ = p :: ps → parkedFault g p = some (fc, va) →
      (parkEnters s g fc = true → enters .parked fc va (fun t => t.g.n.parkQ = ps))
      ∧ (parkEnters s g fc = false → fc.toNat % 65536 ≠ 11 → ran .parked_fault_delivery (fun t => ∃ r, .fault_record r ∈ t.agenda
          ∧ r.src = (if p.1 then 2 else 1) ∧ r.fcode = fc ∧ r.fva = va ∧ r.pc = g.pc)))
    ∧ (∀ fc va bs, g.x.backFlts = (fc, va) :: bs → entersHandler s (fc.toNat % 65536) (fc.toNat / 2 ^ 28) = true →
        enters .back fc va (fun t => t.g.x.backFlts = bs ∧ t.g.n.parkQ = g.n.parkQ)))
  ∧ (s.g = g → ∀ va acc, g.x.eccu = some (va, acc) → rollsBack s g = none →
    ran .eccu_delivery (fun t => ∃ r, .fault_record r ∈ t.agenda ∧ r.fva = va ∧ r.pc = g.pc ∧ r.fcode.extractLsb' 0 16 = 11 ∧ r.fcode.extractLsb' 16 3 = acc))
  ∧ (∀ slot c fc va, s.ev = some (.park false gid slot fc va) → findCopy g slot = some c →
    (parkEnters s g fc = true ∨ atBoundary g = false ∨ g.n.parkQ ≠ [] → ran .park (fun t => ∃ h, findGroup t gid = some h ∧ h.n.parkQ = g.n.parkQ ++ [(false, slot)]
      ∧ findCopy h slot = some { c with parked := true, fcode := fc, fva := va }))
    ∧ (parkEnters s g fc = false → atBoundary g = true → g.n.parkQ = [] → fc.toNat % 65536 ≠ 11 →
        ran .park (fun t => ∃ r, .fault_record r ∈ t.agenda ∧ r.src = 1 ∧ r.fcode = fc ∧ r.fva = va ∧ r.pc = g.pc ∧ r.cmd1 = c.d1 ∧ r.cmd2 = c.d2 ∧ r.cmd3 = c.d3)))
  ∧ (∀ slot c fc va, s.ev = some (.park true gid slot fc va) → findMx g slot = some c →
    (parkEnters s g fc = true ∨ atBoundary g = false ∨ g.n.parkQ ≠ [] → ran .park (fun t => ∃ h, findGroup t gid = some h ∧ h.n.parkQ = g.n.parkQ ++ [(true, slot)]
      ∧ findMx h slot = some { c with parked := true, fcode := fc, fva := va }))
    ∧ (parkEnters s g fc = false → atBoundary g = true → g.n.parkQ = [] → fc.toNat % 65536 ≠ 11 →
        ran .park (fun t => ∃ r, .fault_record r ∈ t.agenda ∧ r.src = 2 ∧ r.fcode = fc ∧ r.fva = va ∧ r.pc = g.pc ∧ r.cmd1 = c.c0 ∧ r.cmd2 = c.c1 ∧ r.cmd3 = c.dn)))
  ∧ (∀ id x ring u v, s.ev = some (.transfer_finish id) → amGet? s.q.xfers id = some x → x.parked = false → x.finished = true →
    ringBehind s id x = false → recordHolds s x.cmd.id = false → xferRing x s = (.inr ring, u) →
    ringPut (.virt x.ctx) ring 16 (fun prod => xferBits x (lapBit ring prod))
      (flushHandles true x.ctx ((x.cmd.uses.filter (fun h => h.wr)).map (fun h => h.idx)) u) = .ok v →
    ran .transfer_finish (fun t => amGet? t.q.xfers id = none ∧ x.cmd.id ∉ t.q.running))
  ∧ (∀ id x f u y, s.ev = some (.transfer_finish id) → amGet? s.q.xfers id = some x → x.parked = false → x.finished = false → x.asked = false → ctxRuns s x.ctx = true →
    (xferRun x.len x s = .wait y u → y.finished = false → ran .transfer_finish (fun t => t.m = u.m ∧ amGet? t.q.xfers id = some y))
    ∧ (xferRun x.len x s = .fault f y u → f.code = 4 →
    ran .transfer_finish (fun t => (∃ z, amGet? t.q.xfers id = some z ∧ z.parked = true ∧ z.done = y.done)
      ∧ ∃ r, .fault_record r ∈ t.agenda ∧ r.src = 4 ∧ r.fcode.extractLsb' 0 16 = 4 ∧ r.fva = f.va)))

/-- R79, R88, R175, R428, R466 to R470, R492, R495, R496: what a tuning event publishes and whom it tells, that no group's LCLUS or
LCORE changes before it is saved, the acknowledgement deadline, an in-
field scan's start and compare, a mismatch on a quarantined core, and a patrol scrub. The signature a scan observes and the
errors a scrub corrects are free (logs 3, 4); the drains of an event, and a pair run's partner and time, are the model's choice (log 40). -/
def Obligations.TuningScanResult : Prop :=
  ∀ (s : State) (core : Nat), let ran := fun (i : Instr) (p : State → Prop) => ∃ t, exec i s = .next t ∧ p t
  (∀ c, s.ev = some (.tuning_event c) → loopsBusy s = true →
    ran .tuning_event (fun t => t.tun = s.tun ∧ t.m = s.m ∧ ∃ n, (n, .tuning_event c) ∈ t.timers))
  ∧ (∀ c, s.ev = some (.tuning_event c) → loopsBusy s = false → newTuning c s.tun ≠ s.tun → (∀ cl, c = .cluster cl → ∀ g ∈ allGroups s, g.idn.kind ≠ .window) →
    ran .tuning_event (fun t => t.tun = { newTuning c s.tun with tunn := s.tun.tunn + 1 }
      ∧ (∀ k, c = .core k → coreLive t.tun k = false) ∧ (∀ cl, c = .cluster cl → clusterLive t.tun cl = false)
      ∧ (∀ h ∈ t.rest, h.tev = true)
      ∧ ∀ k x, ctxOf s k = some x → (∃ r, .fault_record r ∈ t.agenda ∧ r.src = 6 ∧ r.fcode = 0xFFFC ∧ r.fva = BitVec.ofNat 64 (s.tun.tunn + 1)
          ∧ r.ctx = BitVec.ofNat 6 k) ∧ ∃ y, ctxOf t k = some y ∧ y.tunDeadline = true))
  ∧ (∀ k, s.ev = some (.tuning_event (.core k)) → loopsBusy s = false → (∀ e ∈ s.d.grids, e.2.repl = false) → (∀ cl, (liveCoresOf s.tun cl).Nodup) →
    ran .tuning_event (fun t => ∀ g ∈ s.rest, g.idn.gid ≠ 0 → g.status ≠ .gone → g.status ≠ .saved →
      g.idn.core % 256 ∈ liveCoresOf s.tun (g.idn.core / 256) → ∃ h ∈ t.rest, h.idn = g.idn ∧ posOf t h = posOf s g))
  ∧ (∀ k x, s.ev = some (.tune_deadline k) → ctxOf s k = some x →
    (x.tunDeadline = false → ran .tune_deadline (fun t => t = s))
    ∧ (x.tunDeadline = true → ran .tune_deadline (fun t => (∃ r, .fault_record r ∈ t.agenda ∧ r.fcode = 17)
        ∧ ∃ y, ctxOf t k = some y ∧ y.tunDeadline = true ∧ (if x.pol then y.terminated else y.suspended) = true)))
  ∧ (∀ sc, amGet? s.d.scans core = some sc →
    (s.ev = some (.scan_pattern_start core) → sc.running = false → residents s core = [] →
      ran .scan_pattern_start (fun t => t.m = s.m ∧ amGet? t.d.scans core = some { sc with running := true }
        ∧ ∃ n obs, (n, .scan_compare core obs) ∈ t.timers))
    ∧ (∀ obs, s.ev = some (.scan_compare core obs) → sc.running = true → sc.recVa.toNat % 16 = 0 → inTable s (2 * (sc.recVa.toNat / 128)) = false →
        let rec_ := fun (t : State) (out : Nat) => amGet? t.d.scans core = none ∧ (logicalCore s.tun core, obs ++ BitVec.ofNat 32 t.tun.tunn ++ BitVec.ofNat 32 out) ∈ t.h.life.scans
          ∧ cohWord t sc.recVa.toNat = BitVec.ofNat 64 (t.tun.tunn % 2 ^ 32 * 2 ^ 32 + out) ∧ cohWord t (sc.recVa.toNat + 8) = obs;
        (obs = Config.scanSignature core → ran .scan_compare (fun t => rec_ t 1 ∧ t.tun = s.tun ∧ (coreOf t core).quarantined = false
          ∧ (coreOf t core).closed = !coreLive s.tun core))
        ∧ (obs ≠ Config.scanSignature core → loopsBusy s = false → ran .scan_compare (fun t => rec_ t 2 ∧ coreLive t.tun core = false ∧ (coreOf t core).closed = true))
        ∧ (obs ≠ Config.scanSignature core → loopsBusy s = true → ran .scan_compare (fun t => t.tun = s.tun
            ∧ amGet? t.d.scans core = some { sc with noab := true } ∧ ∃ n, (n, .scan_compare core obs) ∈ t.timers))))
  ∧ (s.ev = some (.pair_mismatch core) →
    ((coreOf s core).quarantined = true → loopsBusy s = false → ran .pair_mismatch (fun t => coreLive t.tun core = false))
    ∧ ((coreOf s core).quarantined = true → loopsBusy s = true → ran .pair_mismatch (fun t => t.tun = s.tun ∧ ∃ n, (n, .pair_mismatch core) ∈ t.timers))
    ∧ ((coreOf s core).quarantined = false → ran .pair_mismatch (fun t => t = s)))
  ∧ (∀ stack, s.ev = some (.patrol_scrub stack) →
    ran .patrol_scrub (fun t => t.m = s.m ∧ t.g = s.g ∧ t.free = s.free + 58 ∧ (∃ n, (n, .patrol_scrub stack) ∈ t.timers)
      ∧ ∀ i, ¬(16 * stack ≤ i ∧ i < 16 * stack + 16) → cellGet t.h.life.correctable i = cellGet s.h.life.correctable i))

/-! ### Queues, start-up, management -/

/-- R437 to R445, R455, R456, R503: a doorbell reads the new slots or stops its queue; a command that begins is counted and
open; one that is rejected completes with STATUS 3 and its reason, which is free where R388 rejects (DESIGN CHOICE, log 3); fault and completion records reach their rings,
or wait, a completion also for its command's fault record. The model's own (DESIGN CHOICE): a tenant without a fault ring gets no record
(log 26), and RES of a rejected command is 0 (log 31). -/
def Obligations.QueueRecordResult : Prop :=
  ∀ (s : State), let ran := fun (i : Instr) (p : State → Prop) => ∃ t, exec i s = .next t ∧ p t
  (∀ off k, s.ev = some (.doorbell off k) → rings off k = none → ran .doorbell (fun t => t = s))
  ∧ (∀ off k admin n q prod v, s.ev = some (.doorbell off k) → rings off k = some (admin, n) → findQueue s admin n = some q →
    ioRead (compSpace q) (q.block.toNat + 24) 4 (oneRing admin n s) = (.inr prod, v) →
    let ahead := (BitVec.ofNat 32 prod - q.cons).toNat; let read := (q.seen - q.cons).toNat
    (2 ^ q.log2n < ahead → ran .doorbell (fun t => (∃ y, findQueue t admin n = some y ∧ y.stopped = true) ∧ t.q.cmds = v.q.cmds
      ∧ ∃ r, .fault_record r ∈ t.agenda ∧ r.src = 5 ∧ r.fcode = 1))
    ∧ (∀ b w, ahead ≤ 2 ^ q.log2n → readSlots q (ahead - read) q.seen.toNat v = (.inr [b], w) →
      ran .doorbell (fun t => t.q.cmds = w.q.cmds ++ [cmdOf w.q.nextCmd n admin b] ∧ t.q.nextCmd = w.q.nextCmd + 1
        ∧ ∃ y, findQueue t admin n = some y ∧ y.stopped = false ∧ y.seen = q.seen + 1)))
  ∧ (∀ c q, findQueue s c.admin c.queue = some q → let t := beginCmd c q s
    findQueue t c.admin c.queue = some { q with cons := q.cons + 1, open_ := q.open_ ++ [c.id] } ∧ c.id ∈ t.q.running
      ∧ ∀ x ∈ t.q.cmds, x.id ≠ c.id)
  ∧ (∀ c q k, let refuses := fun (i : Instr) (reasons : State → Queue → List Reason) =>
      findQueue s c.admin c.queue = some q → firstReason (reasons s q) = some k →
      (c.admin = false → ∀ x, ctxOf s q.ctx = some x → x.terminated = false) → ran i (fun t => ∃ n, completed t c 3 n 0
        ∧ (k ≠ tidStatus → n = k));
    (s.ev = some (.launch c) → refuses .launch (launchReasons c)) ∧ (s.ev = some (.job c) → refuses .job (jobReasons c))
    ∧ (s.ev = some (.stream_put c) → refuses .stream_put (putReasons c)) ∧ (s.ev = some (.stream_advance c) → refuses .stream_advance (advanceReasons c))
    ∧ (s.ev = some (.wait_stamp c) → refuses .wait_stamp (waitReasons c)) ∧ (s.ev = some (.signal c) → refuses .signal (signalReasons c))
    ∧ (s.ev = some (.pin c) → refuses .pin (pinReasons c)) ∧ (s.ev = some (.q_create c) → refuses .q_create (qCreateReasons c))
    ∧ (s.ev = some (.q_destroy c) → refuses .q_destroy (qDestroyReasons c)) ∧ (s.ev = some (.stream_reset c) → refuses .stream_reset (resetReasons c))
    ∧ (s.ev = some (.park_resume c) → refuses .park_resume (parkReasons c)) ∧ (s.ev = some (.preempt c) → refuses .preempt (ctxReasons c))
    ∧ (s.ev = some (.resume c) → refuses .resume (ctxReasons c)) ∧ (s.ev = some (.checkpoint c) → refuses .checkpoint (checkpointReasons c)))
  ∧ (∀ r, s.ev = some (.fault_record r) →
    (amGet? s.q.frings r.ten.toNat = none → ran .fault_record (fun t => t = s))
    ∧ ∀ f, amGet? s.q.frings r.ten.toNat = some f → faultsWait s r.ten.toNat = false → f.wait = [] →
      (∀ v, ringPut .phys f.ring 64 (fun _ => faultBits r) s = .ok v → ran .fault_record (fun t => t.m = v.m ∧ t.h = v.h ∧ t.timers = v.timers))
      ∧ (∀ v, ringPut .phys f.ring 64 (fun _ => faultBits r) s = .full v →
          ran .fault_record (fun t => t.m = v.m ∧ ∃ n, (n, .fault_record r) ∈ t.timers)))
  ∧ (∀ r q, s.ev = some (.completion_record r) → findQueue s r.admin r.queue = some q → q.held = false → compsWait s r.admin r.queue = false →
    q.parked = [] → recordHolds s r.cmd = true →
    ran .completion_record (fun t => t.m = (flushHandles true q.ctx r.wrote s).m ∧ t.q.running = s.q.running ∧ ∃ n, (n, .completion_record r) ∈ t.timers))
  ∧ (∀ r q, s.ev = some (.completion_record r) → findQueue s r.admin r.queue = some q → q.held = false → compsWait s r.admin r.queue = false →
    q.parked = [] → recordHolds s r.cmd = false → let u := flushHandles true q.ctx r.wrote s
    (∀ v, ringPut (compSpace q) q.ring 16 (fun prod => compBits r (lapBit q.ring prod)) u = .ok v →
      ran .completion_record (fun t => t.m = v.m ∧ t.h = v.h ∧ r.cmd ∉ t.q.running))
    ∧ (∀ v, ringPut (compSpace q) q.ring 16 (fun prod => compBits r (lapBit q.ring prod)) u = .full v →
      ran .completion_record (fun t => t.m = v.m ∧ ∃ n, (n, .completion_record r) ∈ t.timers)))

/-- R48, R50, R119, R158, R181, R186, R206, R211, R212, R219, R230, R427, R446, R480, R481, R491: what each accepted command
of a context's queue does from the state it begins in. The model's own (DESIGN CHOICE): what a PIN locks and a release unlocks (log
31), and that a CHECKPOINT's bytes are copied together as it ends (log 32). -/
def Obligations.QueueCommandResult : Prop :=
  ∀ (s : State) (c : QCmd) (q : Queue), let ran := fun (i : Instr) (p : State → Prop) => ∃ t, exec i s = .next t ∧ p t
  let u := begun c q s
  (∀ r, s.ev = some (.launch c) → accepts (launchReasons c) c q s →
    let grid := fun (v t : State) => ∃ g, amGet? t.d.grids v.d.nextId = some g ∧ g.ctx = q.ctx ∧ g.row = r ∧ g.args = bodyW c 8 ∧ g.nteam = bodyN c 32 4
      ∧ g.nextTeam = 0 ∧ g.teamsUp = 0 ∧ g.depth = 1 ∧ g.stamp = bodyStamp c 16 ∧ g.pri = workPri v q ∧ g.cmask = q.cmask ∧ g.det = c.det
      ∧ g.pinned = c.pin ∧ g.repl = c.repl ∧ g.rep.cmd = some c ∧ (c.det = true → t.d.bowQ = v.d.bowQ ++ [v.d.nextId]);
    (c.pin = false → rowOfCmd u q c = some r → ran .launch (grid u))
    ∧ (∀ rs v ps, c.pin = true → readPairs q.ctx (bodyN c 48 4) (bodyN c 40 8) u = (.inr rs, v) → setPages v q.ctx rs = some ps →
        let w := pinPages q.ctx u.d.nextId (maskClusters v.tun q.cmask) ps v
        rowOfCmd w q c = some r → ran .launch (fun t => grid w t ∧ ∀ p ∈ ps, ∀ cl ∈ maskClusters v.tun q.cmask,
          ∃ e ∈ t.m.tlb, e.cluster = cl ∧ e.ctx = q.ctx ∧ e.level = p.level ∧ e.vpage = p.vp ∧ u.d.nextId ∈ e.locks)))
  ∧ (∀ r, s.ev = some (.job c) → accepts (jobReasons c) c q s → rowOfCmd u q c = some r →
    ran .job (fun t => ∃ x, amGet? t.d.cards u.d.nextId = some x ∧ x.ctx = q.ctx ∧ x.row = r ∧ x.base = bodyW c 8 ∧ x.rsize = bodyN c 38 2
      ∧ x.count = bodyN c 32 4 ∧ x.dealt = 0 ∧ x.stamp = bodyStamp c 16 ∧ x.pri = workPri u q ∧ x.cmask = q.cmask ∧ x.rep.cmd = some c))
  ∧ (∀ d rs v, s.ev = some (.stream_put c) → accepts (putReasons c) c q s → cmdStream u q (bodyN c 12 2) = some d →
    readRecords q.ctx (recBytes d.desc) (bodyN c 8 4) (bodyN c 0 8) u = ((rs, none), v) →
    ((∀ r ∈ rs, hostFed u q.ctx d = true → stampLt (recStamp r) d.h = false) →
      ran .stream_put (fun t => completed t c 0 0 0 ∧ t.d.nextId = v.d.nextId + rs.length
        ∧ .batch .command q.ctx (rs.map (fun r => ({ loc := sdLoc d.desc, stamp := recStamp r, amt := 1 } : Delta))) ∈ t.agenda))
    ∧ (∀ r rest, rs = r :: rest → hostFed u q.ctx d = true → stampLt (recStamp r) d.h = true → sdLate d.desc = false →
        ran .stream_put (fun t => completed t c 1 12 (bodyN c 8 4) ∧ (∃ f, .fault_record f ∈ t.agenda ∧ f.fcode = 12)
          ∧ t.d.nextId = v.d.nextId)))
  ∧ (∀ d, s.ev = some (.stream_advance c) → accepts (advanceReasons c) c q s → cmdStream u q (bodyN c 16 2) = some d →
    ran .stream_advance (fun t => completed t c 0 0 0 ∧ (∃ y, streamOf t q.ctx (bodyN c 16 2) = some y
        ∧ y.h = if stampLt d.h (bodyStamp c 0) then bodyStamp c 0 else d.h)
      ∧ (stampLt d.h (bodyStamp c 0) = true → .batch .command q.ctx [{ loc := sdLoc d.desc, stamp := bodyStamp c 0, amt := 1 },
          { loc := sdLoc d.desc, stamp := d.h, amt := -1 }] ∈ t.agenda)))
  ∧ (s.ev = some (.wait_stamp c) → accepts (waitReasons c) c q s → let l := bodyN c 16 2; let v := subscribe q.ctx l ioCluster u
    (waitSatisfied v q.ctx c = true → cutOff v q.ctx l = false → ran .wait_stamp (fun t => completed t c 0 0 0))
    ∧ (waitSatisfied v q.ctx c = false → ran .wait_stamp (fun t => c ∈ t.q.waits ∧ t.agenda = v.agenda)))
  ∧ (∀ g, s.ev = some (.signal c) → accepts (signalReasons c) c q s → ioSegs u (.virt q.ctx) 1 (bodyN c 0 8) 8 = .ok [g] → g.kind < 2 → g.n = 8 →
    g.pa % 8 = 0 → inTable s (2 * (g.pa / 128)) = false → ran .signal (fun t => completed t c 0 0 0 ∧ ∀ i < 8, cohByte t (g.pa + i) = BitVec.ofNat 8 (bodyN c (8 + i) 1)))
  ∧ (s.ev = some (.xfer c) → accepts (xferReasons c) c q s →
    ran .xfer (fun t => amGet? t.q.xfers c.id = some (xferOf u c q) ∧ .transfer_finish c.id ∈ t.agenda))
  ∧ (∀ rs v, s.ev = some (.pin c) → accepts (pinReasons c) c q s → readPairs q.ctx (bodyN c 8 4) (bodyN c 0 8) u = (.inr rs, v) →
    (∀ ps, bodyN c 12 1 = 0 → setPages v q.ctx rs = some ps → ran .pin (fun t => completed t c 0 0 0
      ∧ ∀ p ∈ ps, ∀ cl ∈ maskClusters v.tun q.cmask,
        ∃ e ∈ t.m.tlb, e.cluster = cl ∧ e.ctx = q.ctx ∧ e.level = p.level ∧ e.vpage = p.vp ∧ 0 ∈ e.locks))
    ∧ (bodyN c 12 1 = 1 → ran .pin (fun t => completed t c 0 0 0
        ∧ (∀ r ∈ rs, r.2 ≠ 0 → ∀ i < (r.2 + r.1 % 65536 + 65535) / 65536, let va := (r.1 / 65536 + i) * 65536
            ∀ p l level, walk v q.ctx va = .leaf p l level →
              ∀ e ∈ t.m.tlb, e.ctx = q.ctx → e.level = level → e.vpage = vpage level va → 0 ∉ e.locks)
        ∧ ∀ e ∈ t.m.tlb, ∃ x ∈ v.m.tlb, e.cluster = x.cluster ∧ e.ctx = x.ctx ∧ e.level = x.level ∧ e.vpage = x.vpage
            ∧ ∀ k, k ≠ 0 → (k ∈ e.locks ↔ k ∈ x.locks))))
  ∧ (s.ev = some (.tune_ack c) → accepts (fun s q => headReasons s q c [(0, 4)]) c q s → let n := bodyN c 0 4
    ran .tune_ack (fun t => completed t c 0 0 (if n < u.tun.tunn then 1 else if u.tun.tunn < n then 2 else 0)
      ∧ (n = u.tun.tunn → (∀ x, ctxOf u q.ctx = some x → ctxOf t q.ctx = some { x with ackTun := n, tunDeadline := false })
        ∧ ∀ g ∈ allGroups t, g.idn.ctx = q.ctx → g.tev = false)))
  ∧ (∀ rs v, s.ev = some (.checkpoint c) → accepts (checkpointReasons c) c q s → readPairs q.ctx (bodyN c 8 4) (bodyN c 0 8) u = (.inr rs, v) →
    ran .checkpoint (fun t => (∃ n, (n, .checkpoint_stream_end c.id) ∈ t.timers)
      ∧ amGet? t.q.ckpts c.id = some { cmd := c, ctx := q.ctx, ranges := rs, dst := bodyW c 16, written := 0 }))
  ∧ (∀ id k v, s.ev = some (.checkpoint_stream_end id) → amGet? s.q.ckpts id = some k → findQueue s k.cmd.admin k.cmd.queue = some q →
    copyRanges k.ctx k.ranges k.dst.toNat { s with q := { s.q with ckpts := amDel s.q.ckpts id } } = (none, v) →
    ran .checkpoint_stream_end (fun t => t.m = v.m ∧ completed t k.cmd 0 0 (rangeSum k.ranges)))

/-- R18, R47, R199, R227, R230, R434 to R436, R440, R459, R461, R471, R479, R503: what each accepted admin command does from
the state it begins in, and the second stage of a CTX.DESTROY. The model's own (DESIGN CHOICE): a RESUME offers the context's
unfinished transfers again (log 32); the RES of an admin command that names none, and where a new queue's counters start (log 31). -/
def Obligations.AdminCommandResult : Prop :=
  ∀ (s : State) (c : QCmd) (q : Queue), let ran := fun (i : Instr) (p : State → Prop) => ∃ t, exec i s = .next t ∧ p t
  let u := begun c q s; let ctx := bodyN c 0 1
  (∀ b tb v n, s.ev = some (.ctx_create c) → accepts (createReasons c) c q s → readContext q (bodyN c 0 8) u = (.inr (b, some tb), v) →
    freeKey v.ctxs 64 = some n →
    ran .ctx_create (fun t => completed t c 0 0 n ∧ ∃ x, ctxOf t n = some x ∧ x.tenant = q.tenant ∧ x.pol = dscPol b ∧ x.primax = dscPriMax b
      ∧ x.handler = dscHandler b ∧ x.root = dscRoot b ∧ x.locs = tb.locs.map locEntOf ∧ x.handles = tb.handles.map handleOf
      ∧ x.streams.map (fun d => d.desc) = tb.streams.map (BitVec.ofNat 512) ∧ x.ackTun = v.tun.tunn ∧ x.suspended = false))
  ∧ (s.ev = some (.ctx_destroy c) →
    (c.id ∉ s.q.running → accepts (ctxReasons c) c q s →
      ran .ctx_destroy (fun t => .ctx_destroy c ∈ t.agenda ∧ (∀ x, ctxOf u ctx = some x → ∃ y, ctxOf t ctx = some y ∧ y.destroying = true)
        ∧ ∀ g ∈ allGroups t, g.idn.ctx = ctx → g.status = .gone))
    ∧ (c.id ∈ s.q.running → ran .ctx_destroy (fun t => completed t c 0 0 0 ∧ ctxOf t ctx = none ∧ ∀ e ∈ t.q.queues, e.2.ctx ≠ ctx)))
  ∧ (∀ b r v n, s.ev = some (.q_create c) → accepts (qCreateReasons c) c q s → readQcb (.virt (bodyN c 8 1)) (bodyN c 0 8) u = (.inr (b, r), v) →
    freeKey v.q.queues 4096 = some n →
    ran .q_create (fun t => completed t c 0 0 n ∧ amGet? t.q.queues n = some (queueOfQcb (bodyN c 8 1) q.tenant false (bodyW c 0) b r)))
  ∧ (∀ x, s.ev = some (.q_destroy c) → accepts (qDestroyReasons c) c q s → amGet? u.q.queues (bodyN c 0 2) = some x →
    (x.open_ = [] → x.parked = [] → compsTimed u false (bodyN c 0 2) (fun _ => true) = false →
      ran .q_destroy (fun t => completed t c 0 0 0 ∧ amGet? t.q.queues (bodyN c 0 2) = none))
    ∧ (x.open_ ≠ [] → ran .q_destroy (fun t => amGet? t.q.queues (bodyN c 0 2) = some { x with destroying := some c } ∧ t.agenda = u.agenda)))
  ∧ (∀ d, s.ev = some (.stream_reset c) → accepts (resetReasons c) c q s → streamOf u ctx (bodyN c 2 2) = some d →
    ran .stream_reset (fun t => completed t c 0 0 0 ∧ streamOf t ctx (bodyN c 2 2) = some { d with faulted := false }))
  ∧ (∀ fr p, s.ev = some (.park_resume c) → accepts (parkReasons c) c q s → parkedBy u q (bodyN c 0 64) = some (fr, p) →
    (∀ gid g, p = .brk gid → findGroup u gid = some g → g.status = .stopped →
      ran .park_resume (fun t => completed t c 0 0 0 ∧ ∃ h, findGroup t gid = some h ∧ h.status = .running ∧ h.pc = g.pc))
    ∧ (∀ k sid d, p = .window k sid → streamOf u k sid = some d →
      ran .park_resume (fun t => completed t c 0 0 0 ∧ streamOf t k sid = some { d with parked := false }))
    ∧ (∀ id x, p = .xfer id → amGet? u.q.xfers id = some x →
      ran .park_resume (fun t => completed t c 0 0 0 ∧ amGet? t.q.xfers id = some { x with parked := false } ∧ .transfer_finish id ∈ t.agenda)))
  ∧ (∀ x, s.ev = some (.preempt c) → accepts (ctxReasons c) c q s → ctxOf u ctx = some x →
    ran .preempt (fun t => (∃ y, ctxOf t ctx = some y ∧ y.suspended = true) ∧ (∀ e ∈ t.q.xfers, e.2.ctx = ctx → e.2.finished = true)
      ∧ ∀ g ∈ allGroups t, g.idn.ctx = ctx → g.idn.gid ≠ 0 → g.status ≠ .gone → g.status ≠ .saved → g.saveDue = true))
  ∧ (∀ x, s.ev = some (.resume c) → accepts (ctxReasons c) c q s → ctxOf u ctx = some x →
    ran .resume (fun t => completed t c 0 0 0 ∧ (∃ y, ctxOf t ctx = some y ∧ y.suspended = false)
      ∧ (∀ cl < 8, .window_engine_step cl ∈ t.agenda) ∧ ∀ e ∈ u.q.xfers, e.2.ctx = ctx → e.2.finished = false → e.2.parked = false →
          .transfer_finish e.1 ∈ t.agenda))

/-- R488, R489: what a start leaves for each outcome of its stages, the pair run of a quarantined core at a start (R466), what the
watchdog leaves, and the clearing of FAILS. The model's own (DESIGN CHOICE): the numbers of STAGE and REASON beyond the table and what a
start keeps of the device (log 24), the record of minimal mode (log 7), and the partner of the pair run (log 40). -/
def Obligations.StartResult : Prop :=
  ∀ (s : State), let ran := fun (i : Instr) (p : State → Prop) => ∃ t, exec i s = .next t ∧ p t
  let boot := fun (t : State) (up : Bool) (stage reason : Nat) => t.h.boot.up = up ∧ t.h.boot.stage = stage ∧ t.h.boot.reason = BitVec.ofNat 8 reason
    ∧ t.g = Group.none ∧ t.rest = [] ∧ t.ctxs = [] ∧ t.q.queues = [] ∧ t.d.teams = [] ∧ t.m.mem = s.m.mem
  (∀ rsa slh hbm link hangs, s.ev = some (.start rsa slh hbm link hangs) → let minimal := decide (3 ≤ s.h.boot.fails)
    let failed := fun (stage reason : Nat) => ran .start (fun t => boot t false stage reason ∧ t.h.boot.fails = Nat.min 3 (s.h.boot.fails + 1)
      ∧ t.h.life = s.h.life);
    let n := s.h.boot.tunFlash + 1; let full := flashTuning s;
    (rsa = false → failed 0 2) ∧ (rsa = true → slh = false → failed 0 3) ∧ (rsa = true → slh = true → hbm = false → failed 1 4)
    ∧ (rsa = true → slh = true → hbm = true → link = false → failed 1 5)
    ∧ (rsa = true → slh = true → hbm = true → link = true → hangs = true → ran .start (fun t => boot t false 1 0 ∧ t.h.boot.hangs = true
        ∧ t.h.boot.fails = Nat.min 3 (s.h.boot.fails + 1) ∧ t.h.life = s.h.life ∧ t.agenda = [.start_watchdog]))
    ∧ (rsa = true → slh = true → hbm = true → link = true → hangs = false → ran .start (fun t => boot t true 4 (if minimal then 1 else 0)
        ∧ t.h.boot.fails = (if minimal then 3 else 0) ∧ t.tun.tunn = n ∧ t.h.boot.tunFlash = n ∧ t.h.portUp = [true, !minimal]
        ∧ (quarantineOf s = [] → t.tun = startTuning full minimal n ∧ t.h.life = logEvents n [.start] s.h.life)
        ∧ ∀ k, quarantineOf s = [k] → coreLive (startTuning full minimal n) k = true → (∃ c < 2048, c ≠ k ∧ coreLive (startTuning full minimal n) c = true) →
          (pairPasses k s.free = true → t.tun = startTuning full minimal n ∧ (coreOf t k).quarantined = false)
          ∧ (pairPasses k s.free = false → coreLive t.tun k = false))))
  ∧ (s.h.boot.hangs = true → ran .start_watchdog (fun t => t.h.boot.reason = 6 ∧ t.h.boot.hangs = false ∧ t.h.boot.fails = s.h.boot.fails
      ∧ t.h.boot.stage = s.h.boot.stage ∧ t.h.boot.up = s.h.boot.up ∧ t.m = s.m ∧ t.h.life = s.h.life))
  ∧ (s.h.boot.hangs = false → ran .start_watchdog (fun t => t = s))
  ∧ ran .fails_clear (fun t => t = { s with h := { s.h with boot := { s.h.boot with fails := 0 } } })

/-- R434, R436, R455, R471, R487, R490, R492: what the management path's requests do: an admin queue, a fault ring, a tenant's
reset, a pairing of contexts, the reads of BOOTSTAT, the record's place and lifetime data, and the answers of attestation, whose contents
are free (DESIGN CHOICE, log 6). The model's own (DESIGN CHOICE): a request out of order gets an empty answer (log 25); which pairings are
refused and what a new one replaces (log 32). -/
def Obligations.ManagementResult : Prop :=
  ∀ (s : State) (ten : BitVec 4), let ran := fun (i : Instr) (p : State → Prop) => ∃ t, exec i s = .next t ∧ p t
  (∀ qcb b r v, s.ev = some (.admin_queue_create ten qcb) → readQcb .phys qcb s = (.inr (b, r), v) →
    (qcbBad b r = false → qcb % 64 = 0 → ran .admin_queue_create (fun t => t.h.mgmt = .created ten.toNat :: v.h.mgmt
      ∧ amGet? t.q.admins ten.toNat = some (queueOfQcb 0 ten.toNat true (BitVec.ofNat 64 qcb) b r)))
    ∧ (qcbBad b r = true → ran .admin_queue_create (fun t => t.h.mgmt = .refused :: v.h.mgmt ∧ t.q = v.q)))
  ∧ (∀ rcb b v, s.ev = some (.fault_ring_set ten rcb) → ioRead .phys rcb 64 s = (.inr b, v) →
    (4 ≤ rcbLog2n b → rcbLog2n b ≤ 16 → rcb % 64 = 0 → ran .fault_ring_set (fun t => t.h.mgmt = .created ten.toNat :: v.h.mgmt
      ∧ ∃ f, amGet? t.q.frings ten.toNat = some f ∧ f.ring = ringOf (BitVec.ofNat 64 rcb) b))
    ∧ ((rcbLog2n b < 4 ∨ 16 < rcbLog2n b) → ran .fault_ring_set (fun t => t.h.mgmt = .refused :: v.h.mgmt ∧ t.q = v.q)))
  ∧ (s.ev = some (.tenant_reset ten) → amSorted 0 s.ctxs = true →
    ((∃ k x, ctxOf s k = some x ∧ x.tenant = ten.toNat ∧ x.destroying = false) → ran .tenant_reset (fun t => .tenant_reset ten ∈ t.agenda
      ∧ ∀ k x, ctxOf s k = some x → x.tenant = ten.toNat → ∃ y, ctxOf t k = some y ∧ y.destroying = true))
    ∧ ((∀ k x, ctxOf s k = some x → x.tenant = ten.toNat → x.destroying = true) →
      ran .tenant_reset (fun t => t.h.mgmt = .resetDone ten.toNat :: s.h.mgmt ∧ ∀ k x, ctxOf t k = some x → x.tenant ≠ ten.toNat)))
  ∧ (∀ n dev pc x, s.ev = some (.context_pairing n dev pc) → ctxOf s n = some x →
    ((∀ e ∈ s.ctxs, e.1 ≠ n → ∀ p ∈ e.2.peers, ¬(p.dev = dev ∧ p.ctx = pc)) →
      ran .context_pairing (fun t => ctxOf t n = some { x with peers := x.peers.filter (fun p => p.dev != dev) ++ [⟨dev, pc, peerReached s.tun dev⟩] }
        ∧ t.h.mgmt = .created n :: s.h.mgmt))
    ∧ ((∃ e ∈ s.ctxs, e.1 ≠ n ∧ ∃ p ∈ e.2.peers, p.dev = dev ∧ p.ctx = pc) →
      ran .context_pairing (fun t => t.ctxs = s.ctxs ∧ t.h.mgmt = .refused :: s.h.mgmt)))
  ∧ (let x := s.h.spdm; let digests := Config.digest (Config.certChain 0) ++ Config.digest (Config.certChain 1)
    let tells := fun (i : Instr) (y : Spdm) => ran i (fun t => t = { s with h := { s.h with spdm := y } })
    tells .get_version { version := true, caps := false, algs := false, transcript := Config.spdmVersion, response := Config.spdmVersion }
    ∧ tells .get_capabilities (if x.version then { x with caps := true, transcript := x.transcript ++ Config.spdmCaps, response := Config.spdmCaps }
        else { x with response := [] })
    ∧ tells .negotiate_algorithms (if x.caps then { x with algs := true, transcript := x.transcript ++ Config.spdmAlgs, response := Config.spdmAlgs }
        else { x with response := [] })
    ∧ tells .get_digests (if x.algs then { x with transcript := x.transcript ++ digests, response := digests } else { x with response := [] })
    ∧ (∀ slot off len, s.ev = some (.get_certificate slot off len) → let part := ((Config.certChain slot).drop off).take len
      tells .get_certificate (if x.algs ∧ slot < 2 then { x with transcript := x.transcript ++ part, response := part } else { x with response := [] }))
    ∧ (∀ nonce, let signed := fun (body : List Byte) => let tr := x.transcript ++ nonceBytes nonce ++ body
        body ++ Config.dualElement (Config.signSlh tr) ++ Config.signRsa tr
      let answer := fun (body : List Byte) => if x.algs then { x with transcript := x.transcript ++ nonceBytes nonce ++ signed body, response := signed body }
        else { x with response := [] };
      (s.ev = some (.challenge nonce) → tells .challenge (answer digests))
      ∧ (s.ev = some (.get_measurements nonce) → tells .get_measurements (answer Config.measurements))))
  ∧ (∃ v, mgmtRead .bootstat s = .word v ∧ v.extractLsb' 24 8 = BitVec.ofNat 8 s.h.boot.fails ∧ v.extractLsb' 16 8 = BitVec.ofNat 8 s.h.boot.stage
      ∧ v.extractLsb' 0 8 = s.h.boot.reason ∧ v.extractLsb' 8 8 = 0 ∧ v.extractLsb' 32 32 = 0)
  ∧ mgmtRead .tuningPlace s = .word (BitVec.ofNat 64 s.tun.place) ∧ mgmtRead .lifetime s = .life s.h.life

/-! ### The machine as a whole -/

/-- R169, R423, R488: the device right after reset has run no start: nothing is resident, no context and no queue exists,
every table is empty and canonical; and a group as it starts has every register zero, LIVE all ones, SIG all ones, its pc at
the entry. What memory reads as before it is written is the model's choice (DESIGN CHOICE, log 1). -/
def Obligations.ResetState : Prop :=
  (let s := State.reset;
    s.h.boot.up = false ∧ s.rest = [] ∧ s.g.status = .gone ∧ s.ctxs = [] ∧ s.q.queues = [] ∧ s.q.admins = [] ∧ s.d.teams = []
      ∧ s.agenda = [] ∧ s.timers = [] ∧ Memory.wf s.m.mem = true ∧ canonicalTables s ∧ ∀ a, memGet s.m.mem a = 0)
  ∧ ∀ (i : TeamIdent) (r : EntryRow) (p gi core slot gid mate : Nat) (args : Word64),
    let g := newGroup i r false p gi core slot gid mate (cellPut [] 1 args)
    g.pc = r.entry ∧ cellGet g.sregs 1 = args ∧ (∀ k, k ≠ 1 → cellGet g.sregs k = 0) ∧ g.kregs = [] ∧ g.vregs = [] ∧ g.tiles = []
      ∧ g.live = 0xFFFFFFFF ∧ g.fpstat = 0 ∧ g.chz = false ∧ g.mcp = false ∧ g.tev = false ∧ g.sigm = 0xFFFFFFFF ∧ g.sigw = 0xFFFFFFFF
      ∧ g.n.ld = 0 ∧ g.n.sts = [] ∧ g.n.cps = [] ∧ g.n.batches = [] ∧ g.x.sup = false

/-- R264 to R282 and the encodings of the families: words written out from the spec decode to the instructions they stand for. -/
def Obligations.DecodeWords : Prop :=
  ∀ p ∈ ([([0x008828C5], .sdiv_s 4 5 (.reg 6)), ([0x050800FF], .sli 4 (.i11 255)), ([0x0B001006], .kexit 2), ([0x0B8A0002], .kpopc 5 0),
      ([0x0A123FFF], .sloop 9 (.o14 (-1))), ([0x08804002], .bk_all 0 (.o14 2)), ([0x34180A00], .tidset 12 5), ([0x35000000], .mxzero 0),
      ([0x36008310], .mxloop 0 4 6 8 .base), ([0x380A1800], .bar_arr 5 3), ([0x389020C0], .fwait_pass 8 4 6), ([0x39083102], .pmove 4 6 8),
      ([0x3F0A0048], .srd 5 0x09), ([0x3F000071], .swr 0 0x0E), ([0x3E002100], .trap 0x42), ([0x3E000002], .retf),
      ([0x3A8A6000], .launch_child 5 12), ([0x3C800011], .safe 17)] : List (List Word32 × Instr)),
    decode p.1 = .ok (p.2, 4)

/-- R265, R266, R283, R310, R451: a step in which nothing else is due or could act executes the instruction that the bytes at
the pc of the group whose turn it is decode to; a word that does not decode raises F_ILLOP, a fetch that faults its fault; and
a step with an event due executes that event's row, but for an event that a device which is not ready does not take (DESIGN CHOICE, log
24). A fetch of a line the host may hold waits for its snoop (R75). What ends a yield is seen before anything else (R306). -/
def Obligations.StepRunsDecodedInstruction : Prop :=
  ∀ (s : State), let u := sweepYield { s with tick := s.tick + 1 }
  (∀ g, s.agenda = [] → s.h.boot.up = true → firstTimer (u.timers.filter (fun t => decide (t.1 ≤ u.tick))) = none → jobs u = [] →
    delivery u = none → picked u = some g → urgentDue u = none → let v := noteIssue (bring g.idn.gid u)
    (fetchSnoops v ≠ [] → step s = .next (waitSnoops (fetchSnoops v) v))
    ∧ (fetchSnoops v = [] → (∀ ws w i n, fetch v = .ok (ws, w) → let x := { w with ir := { w0 := ws.headD 0, len := 4 * ws.length } }
      (decode ws = .ok (i, n) → step s = exec i x)
      ∧ (∀ e, decode ws = .error e → step s = .next (raiseI 1 x)))
    ∧ (∀ e, fetch v = .error e → step s = .next (raiseW (fetchFlt e) (fltWalk (fetchFlt e) v)))))
  ∧ (∀ e es, s.agenda = e :: es → refuses { u with agenda := es } e = false →
      (s.h.boot.up = true ∧ travels e = false ∨ s.h.boot.up = false ∧ bootEvent e = true) →
      step s = exec (rowOf e) { arrived e { u with agenda := es } with ev := some e })
  ∧ (∀ e es, s.agenda = e :: es → s.h.boot.up = false → bootEvent e = false → step s = .next { u with agenda := es })

/-- R264, R268 to R282: every well-formed instruction is decoded from its own words, with every operand, and its words are as
many as the first one's LEN field says. -/
def Obligations.DecodeEncode : Prop :=
  ∀ (i : Instr), i.isEvent = false → i.wf = true → decode (encode i) = .ok (i, 4 * (encode i).length)

/-- Every step keeps memory in its canonical form, and the tables of L1 sectors and of contexts sorted by key, whatever the
state. -/
def Obligations.StepKeepsCanonicalMemory : Prop :=
  ∀ (s t : State), Memory.wf s.m.mem = true → canonicalTables s → step s = .next t → Memory.wf t.m.mem = true ∧ canonicalTables t
end

