-- ==== Sys2Proof/Laws/Cells.lean ====
section
/-! SUPPORT. What the operations on finite maps and cells do: reading after writing, and that the canonical form stays. -/
namespace Sys2Proof.Machine

theorem amGet?_amPut_same {α : Type} (m : List (Nat × α)) (i : Nat) (v : α) : amGet? (amPut m i v) i = some v := by
  induction m with
  | nil => simp [amPut, amGet?]
  | cons p t ih =>
    obtain ⟨k, u⟩ := p
    simp only [amPut]
    split
    · simp [amGet?]
    · split
      · simp [amGet?]
      · simp_all [amGet?]

theorem amGet?_amPut_other {α : Type} (m : List (Nat × α)) (i j : Nat) (v : α) (h : j ≠ i) :
    amGet? (amPut m i v) j = amGet? m j := by
  induction m with
  | nil => simp [amPut, amGet?, h]
  | cons p t ih =>
    obtain ⟨k, u⟩ := p
    simp only [amPut]
    split
    · simp [amGet?, h]
    · split
      · subst_vars; simp [amGet?, h]
      · simp only [amGet?, ih]

theorem amGet?_amDel_same {α : Type} (m : List (Nat × α)) (i : Nat) : amGet? (amDel m i) i = none := by
  induction m with
  | nil => rfl
  | cons p t ih =>
    obtain ⟨k, u⟩ := p
    by_cases h : k = i
    · simpa [amDel, h] using ih
    · simpa [amDel, h, amGet?, Ne.symm h] using ih

theorem amGet?_amDel_other {α : Type} (m : List (Nat × α)) (i j : Nat) (hj : j ≠ i) :
    amGet? (amDel m i) j = amGet? m j := by
  induction m with
  | nil => rfl
  | cons p t ih =>
    obtain ⟨k, u⟩ := p
    by_cases h : k = i
    · simpa [amDel, h, amGet?, hj] using ih
    · simp only [amDel, ne_eq, h, not_false_eq_true, decide_true, List.filter_cons_of_pos, amGet?] at ih ⊢
      rw [ih]

theorem amSorted_mono {α : Type} {lo lo' : Nat} {m : List (Nat × α)} (h : amSorted lo m = true) (hl : lo' ≤ lo) :
    amSorted lo' m = true := by
  cases m with
  | nil => rfl
  | cons p t =>
    obtain ⟨k, u⟩ := p
    simp [amSorted] at h ⊢
    exact ⟨by omega, h.2⟩

theorem amSorted_amPut {α : Type} {lo : Nat} {m : List (Nat × α)} (h : amSorted lo m = true) (i : Nat) (v : α)
    (hi : lo ≤ i) : amSorted lo (amPut m i v) = true := by
  induction m generalizing lo with
  | nil => simp [amPut, amSorted, hi]
  | cons p t ih =>
    obtain ⟨k, u⟩ := p
    simp [amSorted] at h
    simp only [amPut]
    split
    · simp [amSorted, hi]; exact ⟨by omega, h.2⟩
    · split
      · simp [amSorted, hi]; subst_vars; exact h.2
      · simp [amSorted, h.1]; exact ih h.2 (by omega)

theorem amSorted_filter {α : Type} {lo : Nat} {m : List (Nat × α)} (h : amSorted lo m = true) (p : Nat × α → Bool) :
    amSorted lo (m.filter p) = true := by
  induction m generalizing lo with
  | nil => rfl
  | cons e t ih =>
    obtain ⟨k, u⟩ := e
    simp [amSorted] at h
    simp only [List.filter_cons]
    split
    · simp [amSorted, h.1]; exact ih h.2
    · exact amSorted_mono (ih h.2) (by omega)

theorem amSorted_amMod {α : Type} {m : List (Nat × α)} (h : amSorted 0 m = true) (i : Nat) (f : α → α) :
    amSorted 0 (amMod m i f) = true := by
  unfold amMod
  split
  · exact amSorted_amPut h _ _ (Nat.zero_le _)
  · exact h

theorem all_amPut {α : Type} {p : Nat × α → Bool} {m : List (Nat × α)} (h : m.all p = true) {i : Nat} {v : α}
    (hv : p (i, v) = true) : (amPut m i v).all p = true := by
  induction m with
  | nil => simp [amPut, hv]
  | cons e t ih =>
    obtain ⟨k, u⟩ := e
    simp only [List.all_cons, Bool.and_eq_true] at h
    simp only [amPut]
    split
    · simp only [List.all_cons, Bool.and_eq_true]; exact ⟨hv, h.1, h.2⟩
    · split
      · simp only [List.all_cons, Bool.and_eq_true]; exact ⟨hv, h.2⟩
      · simp only [List.all_cons, Bool.and_eq_true]; exact ⟨h.1, ih h.2⟩

theorem all_filter {α : Type} {p q : Nat × α → Bool} {m : List (Nat × α)} (h : m.all p = true) :
    (m.filter q).all p = true := by
  simp only [List.all_eq_true, List.mem_filter] at h ⊢
  exact fun x hx => h x hx.1

/-- Dropping cells keeps the canonical form. -/
theorem cellsWf_filter {w : Nat} {m : Cells w} (h : cellsWf m = true) (p : Nat × BitVec w → Bool) :
    cellsWf (m.filter p) = true := by
  simp only [cellsWf, Bool.and_eq_true] at h ⊢
  exact ⟨amSorted_filter h.1 p, all_filter h.2⟩

/-- Writing a cell keeps the canonical form. -/
theorem cellsWf_cellPut {w : Nat} {m : Cells w} (h : cellsWf m = true) (i : Nat) (v : BitVec w) :
    cellsWf (cellPut m i v) = true := by
  unfold cellPut
  split
  · exact cellsWf_filter h _
  · rename_i hv
    simp only [cellsWf, Bool.and_eq_true] at h ⊢
    exact ⟨amSorted_amPut h.1 i v (Nat.zero_le _), all_amPut h.2 (by simpa using hv)⟩

/-- A write to memory keeps the canonical form. -/
theorem Memory.wf_memPut {m : Memory} (h : Memory.wf m = true) (a : Nat) (v : Byte) : Memory.wf (memPut m a v) = true :=
  cellsWf_cellPut h a v

theorem Memory.wf_memPutBytes {m : Memory} (h : Memory.wf m = true) (a n v : Nat) :
    Memory.wf (memPutBytes m a n v) = true := by
  induction n generalizing m a v with
  | zero => exact h
  | succ n ih => exact ih (Memory.wf_memPut h _ _) _ _

/-- Reading a cell just written gives the value written. -/
@[simp] theorem cellGet_cellPut_same {w : Nat} (m : Cells w) (i : Nat) (v : BitVec w) : cellGet (cellPut m i v) i = v := by
  unfold cellGet cellPut amGetD
  split
  · rw [amGet?_amDel_same]; simp_all
  · rw [amGet?_amPut_same]; rfl

/-- Writing one cell leaves every other alone. -/
theorem cellGet_cellPut_other {w : Nat} (m : Cells w) (i j : Nat) (v : BitVec w) (hj : j ≠ i) :
    cellGet (cellPut m i v) j = cellGet m j := by
  unfold cellGet cellPut amGetD
  split
  · rw [amGet?_amDel_other m i j hj]
  · rw [amGet?_amPut_other m i j v hj]

/-- A byte just written reads back, and a write leaves every other byte alone. -/
@[simp] theorem memGet_memPut_same (m : Memory) (a : Nat) (v : Byte) : memGet (memPut m a v) a = v :=
  cellGet_cellPut_same m a v

theorem memGet_memPut_other (m : Memory) (a b : Nat) (v : Byte) (h : b ≠ a) : memGet (memPut m a v) b = memGet m b :=
  cellGet_cellPut_other m a b v h

end Sys2Proof.Machine
end

