-- ==== Sys2Proof/Laws/Fields.lean ====
section
/-! SUPPORT. Reading a field back from a word that the encoder puts together from fields. -/
namespace Sys2Proof

/-- A field above the lower part of a word lies in the upper part. -/
theorem fld_append_hi {m n : Nat} (x : BitVec m) (y : BitVec n) (lo k : Nat) (h : n ≤ lo) :
    fld (x ++ y) lo k = fld x (lo - n) k := by
  unfold fld
  ext i hi
  simp [BitVec.getLsbD_append]
  split
  · omega
  · congr 1; omega

/-- A field within the lower part of a word. -/
theorem fld_append_lo {m n : Nat} (x : BitVec m) (y : BitVec n) (lo k : Nat) (h : lo + k ≤ n) :
    fld (x ++ y) lo k = fld y lo k := by
  unfold fld
  ext i hi
  simp [BitVec.getLsbD_append]
  intro _; omega

/-- A field that is the whole word. -/
theorem fld_full {w : Nat} (x : BitVec w) : fld x 0 w = x := by
  unfold fld; simp

@[simp] theorem lenOf_packSB (op : BitVec 7) (d a b : BitVec 6) (f : BitVec 5) : lenOf (packSB op d a b f) = 0 := by
  unfold lenOf packSB
  simp (disch := decide) only [fld_append_hi]
  exact fld_full _

@[simp] theorem opOf_packSB (op : BitVec 7) (d a b : BitVec 6) (f : BitVec 5) : opOf (packSB op d a b f) = op := by
  unfold opOf packSB
  simp (disch := decide) only [fld_append_hi, fld_append_lo]
  exact fld_full _

@[simp] theorem f22_packSB (op : BitVec 7) (d a b : BitVec 6) (f : BitVec 5) : f22 (packSB op d a b f) = d := by
  unfold f22 packSB
  simp (disch := decide) only [fld_append_hi, fld_append_lo]
  exact fld_full _

@[simp] theorem f16_packSB (op : BitVec 7) (d a b : BitVec 6) (f : BitVec 5) : f16 (packSB op d a b f) = a := by
  unfold f16 packSB
  simp (disch := decide) only [fld_append_hi, fld_append_lo]
  exact fld_full _

@[simp] theorem f10_packSB (op : BitVec 7) (d a b : BitVec 6) (f : BitVec 5) : f10 (packSB op d a b f) = b := by
  unfold f10 packSB
  simp (disch := decide) only [fld_append_hi, fld_append_lo]
  exact fld_full _

@[simp] theorem fn5_packSB (op : BitVec 7) (d a b : BitVec 6) (f : BitVec 5) : fn5 (packSB op d a b f) = f := by
  unfold fn5 packSB
  simp (disch := decide) only [fld_append_lo]
  exact fld_full _

@[simp] theorem lenOf_packSBL (op : BitVec 7) (d a b : BitVec 6) (f : BitVec 5) : lenOf (packSBL op d a b f) = 2 := by
  unfold lenOf packSBL
  simp (disch := decide) only [fld_append_hi]
  exact fld_full _

@[simp] theorem lenOf_packSI (len : BitVec 2) (op : BitVec 7) (d a : BitVec 6) (i : BitVec 11) :
    lenOf (packSI len op d a i) = len := by
  unfold lenOf packSI
  simp (disch := decide) only [fld_append_hi]
  exact fld_full _

@[simp] theorem lenOf_packBR (op : BitVec 7) (a : BitVec 6) (c : BitVec 3) (o : BitVec 14) :
    lenOf (packBR op a c o) = 0 := by
  unfold lenOf packBR
  simp (disch := decide) only [fld_append_hi]
  exact fld_full _

@[simp] theorem lenOf_packX0 (lit : Bool) (op : BitVec 7) (d a : BitVec 10) (x : BitVec 3) :
    lenOf (packX0 lit op d a x) = if lit then 3 else 1 := by
  unfold lenOf packX0
  simp (disch := decide) only [fld_append_hi]
  exact fld_full _

end Sys2Proof
end

