-- ==== Sys2Proof/Laws/Home.lean ====
section
/-! SUPPORT. What an allocation at a home can do. -/
namespace Sys2Proof.Machine

theorem mem_of_amGet? {α : Type} : ∀ {m : AMap α} {k : Nat} {v : α}, amGet? m k = some v → (k, v) ∈ m
  | [], _, _, h => by simp [amGet?] at h
  | (j, w) :: m, k, v, h => by
    unfold amGet? at h
    split at h
    · simp_all
    · exact List.mem_cons_of_mem _ (mem_of_amGet? h)

/-- A home with room for a sector evicts nothing (R53). -/
theorem l2Room_of_homeRoom {s : State} {sec : Nat} (h : homeRoom s sec) : l2Room sec s = s := by
  suffices key : l2Near s sec = [] ∨ ∃ u, (sec, u) ∈ l2Near s sec by
    unfold l2Room
    rcases key with key | ⟨u, key⟩
    · simp [key]
    · refine if_pos (Bool.or_eq_true_iff.2 (.inr ?_))
      simp only [List.contains_iff_mem, List.mem_eraseDups, List.mem_map]
      exact ⟨_, key, rfl⟩
  unfold l2Near
  simp only
  rcases h with h | h
  · obtain ⟨v, hv⟩ := Option.isSome_iff_exists.1 h
    split
    · exact .inl rfl
    · refine .inr ⟨v.used, ?_⟩
      simp only [List.mem_filter, List.mem_append, List.mem_map, beq_self_eq_true, and_true]
      exact .inl ⟨(sec, v), ⟨mem_of_amGet? hv, by simp⟩, rfl⟩
  · rw [if_pos (by simpa using h)]
    exact .inl rfl

/-- Where the home has room, an allocation lists a sector outside the region table with what the home holds of it, and does
nothing else. -/
theorem homeAlloc_of_homeRoom {s : State} {sec : Nat} (ht : inTable s (2 * sec) = false) (h : homeRoom s sec)
    (hn : amGet? s.m.l2 sec = none) :
    homeAlloc sec s = { s with m := { s.m with l2 := amPut s.m.l2 sec { homeSector s sec with used := s.tick } } } := by
  unfold homeAlloc
  simp only [ht, hn, l2Room_of_homeRoom h, Bool.false_eq_true, if_false]

/-- An allocation in the region table does nothing (R69). -/
theorem homeAlloc_table {s : State} {sec : Nat} (ht : inTable s (2 * sec) = true) : homeAlloc sec s = s := by
  simp [homeAlloc, ht]

end Sys2Proof.Machine
end

