-- ==== Sys2Proof/Laws/State.lean ====
section
/-! SUPPORT. The registers of the group at issue under the operations that write them, field by field. -/
namespace Sys2Proof.Machine

/-! ### Replacing the group at issue -/

@[simp] theorem setG_g (s : State) (g : Group) : (setG s g).g = g := rfl
@[simp] theorem setG_rest (s : State) (g : Group) : (setG s g).rest = s.rest := rfl
@[simp] theorem setG_m (s : State) (g : Group) : (setG s g).m = s.m := rfl

/-! ### The agenda and the tables -/

@[simp] theorem due_agenda (e : Event) (s : State) : (due e s).agenda = s.agenda ++ [e] := rfl
@[simp] theorem due_g (e : Event) (s : State) : (due e s).g = s.g := rfl
@[simp] theorem due_rest (e : Event) (s : State) : (due e s).rest = s.rest := rfl
@[simp] theorem due_m (e : Event) (s : State) : (due e s).m = s.m := rfl
@[simp] theorem due_d (e : Event) (s : State) : (due e s).d = s.d := rfl
@[simp] theorem due_t (e : Event) (s : State) : (due e s).t = s.t := rfl
@[simp] theorem due_w (e : Event) (s : State) : (due e s).w = s.w := rfl
@[simp] theorem due_q (e : Event) (s : State) : (due e s).q = s.q := rfl
@[simp] theorem due_h (e : Event) (s : State) : (due e s).h = s.h := rfl
@[simp] theorem due_ctxs (e : Event) (s : State) : (due e s).ctxs = s.ctxs := rfl
@[simp] theorem due_tun (e : Event) (s : State) : (due e s).tun = s.tun := rfl
@[simp] theorem due_tick (e : Event) (s : State) : (due e s).tick = s.tick := rfl
@[simp] theorem dues_agenda (es : List Event) (s : State) : (dues es s).agenda = s.agenda ++ es := rfl
@[simp] theorem dues_g (es : List Event) (s : State) : (dues es s).g = s.g := rfl
@[simp] theorem dues_m (es : List Event) (s : State) : (dues es s).m = s.m := rfl
@[simp] theorem dues_ctxs (es : List Event) (s : State) : (dues es s).ctxs = s.ctxs := rfl

@[simp] theorem modCtx_g (c : Nat) (f : Ctx → Ctx) (s : State) : (modCtx c f s).g = s.g := rfl
@[simp] theorem modCtx_m (c : Nat) (f : Ctx → Ctx) (s : State) : (modCtx c f s).m = s.m := rfl
@[simp] theorem modTeam_g (c : Nat) (f : Team → Team) (s : State) : (modTeam c f s).g = s.g := rfl
@[simp] theorem modTeam_m (c : Nat) (f : Team → Team) (s : State) : (modTeam c f s).m = s.m := rfl
@[simp] theorem modGrid_g (c : Nat) (f : Grid → Grid) (s : State) : (modGrid c f s).g = s.g := rfl
@[simp] theorem modGrid_m (c : Nat) (f : Grid → Grid) (s : State) : (modGrid c f s).m = s.m := rfl
@[simp] theorem setCore_g (c : Nat) (v : CoreSt) (s : State) : (setCore c v s).g = s.g := rfl
@[simp] theorem setCore_m (c : Nat) (v : CoreSt) (s : State) : (setCore c v s).m = s.m := rfl
@[simp] theorem modGroup_m (gid : Nat) (f : Group → Group) (s : State) : (modGroup gid f s).m = s.m := by
  unfold modGroup; split <;> rfl
@[simp] theorem mapGroups_m (p : Group → Bool) (f : Group → Group) (s : State) : (mapGroups p f s).m = s.m := rfl
@[simp] theorem timer_m (n : Nat) (e : Event) (s : State) : (timer n e s).m = s.m := by unfold timer; split <;> rfl
@[simp] theorem timer_g (n : Nat) (e : Event) (s : State) : (timer n e s).g = s.g := by unfold timer; split <;> rfl
@[simp] theorem saveAtWait_m (s : State) : (saveAtWait s).m = s.m := by unfold saveAtWait; split <;> rfl
@[simp] theorem block_m (s : State) : (block s).m = s.m := by simp [block]
@[simp] theorem blockSeen_m (s : State) : (blockSeen s).m = s.m := by simp [blockSeen]
@[simp] theorem blockOn_m (w : Nat) (s : State) : (blockOn w s).m = s.m := by simp [blockOn]
@[simp] theorem wakeWhere_m (p : Group → Bool) (s : State) : (wakeWhere p s).m = s.m := rfl
@[simp] theorem wakeWord_m (w : Nat) (s : State) : (wakeWord w s).m = s.m := rfl

/-! ### Writing a register -/

@[simp] theorem wS_m (s : State) (r : SReg) (v : Word64) : (wS s r v).m = s.m := by unfold wS; split <;> rfl
@[simp] theorem wS_kregs (s : State) (r : SReg) (v : Word64) : (wS s r v).g.kregs = s.g.kregs := by unfold wS; split <;> rfl
@[simp] theorem wS_vregs (s : State) (r : SReg) (v : Word64) : (wS s r v).g.vregs = s.g.vregs := by unfold wS; split <;> rfl
@[simp] theorem wS_pc (s : State) (r : SReg) (v : Word64) : (wS s r v).g.pc = s.g.pc := by unfold wS; split <;> rfl
@[simp] theorem wS_live (s : State) (r : SReg) (v : Word64) : (wS s r v).g.live = s.g.live := by unfold wS; split <;> rfl
@[simp] theorem wS_fpstat (s : State) (r : SReg) (v : Word64) : (wS s r v).g.fpstat = s.g.fpstat := by
  unfold wS; split <;> rfl
@[simp] theorem wS_x (s : State) (r : SReg) (v : Word64) : (wS s r v).g.x = s.g.x := by unfold wS; split <;> rfl
@[simp] theorem wS_ir (s : State) (r : SReg) (v : Word64) : (wS s r v).ir = s.ir := by unfold wS; split <;> rfl
@[simp] theorem wS_tick (s : State) (r : SReg) (v : Word64) : (wS s r v).tick = s.tick := by unfold wS; split <;> rfl
@[simp] theorem wK_m (s : State) (r : KReg) (v : Word32) : (wK s r v).m = s.m := by unfold wK; split <;> rfl
@[simp] theorem wK_sregs (s : State) (r : KReg) (v : Word32) : (wK s r v).g.sregs = s.g.sregs := by unfold wK; split <;> rfl
@[simp] theorem wK_vregs (s : State) (r : KReg) (v : Word32) : (wK s r v).g.vregs = s.g.vregs := by unfold wK; split <;> rfl
@[simp] theorem wK_live (s : State) (r : KReg) (v : Word32) : (wK s r v).g.live = s.g.live := by unfold wK; split <;> rfl
@[simp] theorem wK_fpstat (s : State) (r : KReg) (v : Word32) : (wK s r v).g.fpstat = s.g.fpstat := by
  unfold wK; split <;> rfl
@[simp] theorem orFlags_sregs (s : State) (f : FFlags) : (orFlags s f).g.sregs = s.g.sregs := rfl
@[simp] theorem orFlags_kregs (s : State) (f : FFlags) : (orFlags s f).g.kregs = s.g.kregs := rfl
@[simp] theorem orFlags_vregs (s : State) (f : FFlags) : (orFlags s f).g.vregs = s.g.vregs := rfl
@[simp] theorem orFlags_live (s : State) (f : FFlags) : (orFlags s f).g.live = s.g.live := rfl
@[simp] theorem orFlags_fpstat (s : State) (f : FFlags) : (orFlags s f).g.fpstat = s.g.fpstat ||| f := rfl
@[simp] theorem orFlags_m (s : State) (f : FFlags) : (orFlags s f).m = s.m := rfl

/-! ### LD and the flags of an atomic -/

@[simp] theorem raiseLd_m (e : Bool) (s : State) : (raiseLd e s).m = s.m := rfl
@[simp] theorem raiseLd_d (e : Bool) (s : State) : (raiseLd e s).d = s.d := rfl
@[simp] theorem raiseLd_rest (e : Bool) (s : State) : (raiseLd e s).rest = s.rest := rfl
@[simp] theorem raiseLd_agenda (e : Bool) (s : State) : (raiseLd e s).agenda = s.agenda := rfl
@[simp] theorem raiseLd_tick (e : Bool) (s : State) : (raiseLd e s).tick = s.tick := rfl
@[simp] theorem raiseLd_ir (e : Bool) (s : State) : (raiseLd e s).ir = s.ir := rfl
@[simp] theorem raiseLd_sregs (e : Bool) (s : State) : (raiseLd e s).g.sregs = s.g.sregs := rfl
@[simp] theorem raiseLd_kregs (e : Bool) (s : State) : (raiseLd e s).g.kregs = s.g.kregs := rfl
@[simp] theorem raiseLd_vregs (e : Bool) (s : State) : (raiseLd e s).g.vregs = s.g.vregs := rfl
@[simp] theorem raiseLd_live (e : Bool) (s : State) : (raiseLd e s).g.live = s.g.live := rfl
@[simp] theorem raiseLd_pc (e : Bool) (s : State) : (raiseLd e s).g.pc = s.g.pc := rfl
@[simp] theorem raiseLd_sigw (e : Bool) (s : State) : (raiseLd e s).g.sigw = s.g.sigw := rfl
@[simp] theorem raiseLd_sigm (e : Bool) (s : State) : (raiseLd e s).g.sigm = s.g.sigm := rfl
@[simp] theorem raiseLd_status (e : Bool) (s : State) : (raiseLd e s).g.status = s.g.status := rfl
@[simp] theorem payFlags_m (s : State) : (payFlags s).m = s.m := rfl
@[simp] theorem payFlags_d (s : State) : (payFlags s).d = s.d := rfl
@[simp] theorem payFlags_rest (s : State) : (payFlags s).rest = s.rest := rfl
@[simp] theorem payFlags_agenda (s : State) : (payFlags s).agenda = s.agenda := rfl
@[simp] theorem payFlags_tick (s : State) : (payFlags s).tick = s.tick := rfl
@[simp] theorem payFlags_ir (s : State) : (payFlags s).ir = s.ir := rfl
@[simp] theorem payFlags_sregs (s : State) : (payFlags s).g.sregs = s.g.sregs := rfl
@[simp] theorem payFlags_kregs (s : State) : (payFlags s).g.kregs = s.g.kregs := rfl
@[simp] theorem payFlags_vregs (s : State) : (payFlags s).g.vregs = s.g.vregs := rfl
@[simp] theorem payFlags_live (s : State) : (payFlags s).g.live = s.g.live := rfl
@[simp] theorem payFlags_pc (s : State) : (payFlags s).g.pc = s.g.pc := rfl
@[simp] theorem payFlags_sigw (s : State) : (payFlags s).g.sigw = s.g.sigw := rfl
@[simp] theorem payFlags_sigm (s : State) : (payFlags s).g.sigm = s.g.sigm := rfl
@[simp] theorem payFlags_status (s : State) : (payFlags s).g.status = s.g.status := rfl
@[simp] theorem raiseLd_fpstat (e : Bool) (s : State) : (raiseLd e s).g.fpstat = s.g.fpstat := rfl
@[simp] theorem raiseLd_x (e : Bool) (s : State) : (raiseLd e s).g.x = s.g.x := rfl
@[simp] theorem raiseLd_ldq (e : Bool) (s : State) : (raiseLd e s).g.n.ldq = settleLd (s.g.n.ldq ++ [e]) := rfl
@[simp] theorem raiseSt_m (u k : Nat) (s : State) : (raiseSt u k s).m = s.m := by unfold raiseSt addUnit; rfl
@[simp] theorem raiseSt_sregs (u k : Nat) (s : State) : (raiseSt u k s).g.sregs = s.g.sregs := by unfold raiseSt addUnit; rfl
@[simp] theorem raiseSt_kregs (u k : Nat) (s : State) : (raiseSt u k s).g.kregs = s.g.kregs := by unfold raiseSt addUnit; rfl
@[simp] theorem raiseSt_vregs (u k : Nat) (s : State) : (raiseSt u k s).g.vregs = s.g.vregs := by unfold raiseSt addUnit; rfl
@[simp] theorem payFlags_fpstat (s : State) : (payFlags s).g.fpstat = s.g.fpstat ||| s.g.x.dueFlags := rfl
@[simp] theorem payFlags_n (s : State) : (payFlags s).g.n = s.g.n := rfl

/-! ### Places, halts and batches -/

@[simp] theorem keepPos_m (t : Tuning) (ts : List Nat) (s : State) : (keepPos t ts s).m = s.m := rfl
@[simp] theorem keepPos_d (t : Tuning) (ts : List Nat) (s : State) : (keepPos t ts s).d = s.d := rfl
@[simp] theorem keepPos_tun (t : Tuning) (ts : List Nat) (s : State) : (keepPos t ts s).tun = s.tun := rfl
@[simp] theorem haltGroup_m (gid : Nat) (s : State) : (haltGroup gid s).m = s.m := by simp [haltGroup, noTimer]
@[simp] theorem sendTo_m (ds : List Delta) (s : State) (p : Peer) : (sendTo ds s p).m = s.m := rfl
@[simp] theorem sendTo_g (ds : List Delta) (s : State) (p : Peer) : (sendTo ds s p).g = s.g := rfl
@[simp] theorem sendTo_ctxs (ds : List Delta) (s : State) (p : Peer) : (sendTo ds s p).ctxs = s.ctxs := rfl
@[simp] theorem sendTo_counts (ds : List Delta) (s : State) (p : Peer) : (sendTo ds s p).t.counts = s.t.counts := rfl

/-- A place that has been kept is the one read, whatever the tuning now says (R175). -/
theorem posOf_kept (s : State) (g : Group) (x : Nat × Nat) (h : g.posn = some x) : posOf s g = x := by simp [posOf, h]

end Sys2Proof.Machine
end

