-- ==== Sys2Proof/Laws/Ops.lean ====
section
/-! SUPPORT. What the shared operations do: registers read after a write, retirement, and the shapes of the register-only
instructions, each said once. -/
namespace Sys2Proof.Machine

/-! ### Registers -/

theorem rS_wS (s : State) (r q : SReg) (v : Word64) : rS (wS s r v) q = if q = r ∧ r ≠ 0 then v else rS s q := by
  by_cases hr : r = 0
  · rw [if_neg (fun h => h.2 hr), wS, if_pos hr]
  by_cases hq : q = 0
  · have hn : ¬(q = r ∧ r ≠ 0) := fun h => hr (h.1.symm.trans hq)
    rw [if_neg hn, rS, rS, if_pos hq, if_pos hq]
  rw [wS, if_neg hr, rS, rS, if_neg hq, if_neg hq]
  by_cases h : q = r
  · rw [if_pos ⟨h, hr⟩, h]; exact cellGet_cellPut_same _ _ _
  · rw [if_neg (fun e => h e.1)]
    exact cellGet_cellPut_other _ _ _ _ (fun e => h (BitVec.eq_of_toNat_eq e))

theorem rS_wS_same (s : State) (r : SReg) (v : Word64) : rS (wS s r v) r = if r = 0 then 0 else v := by
  rw [rS_wS]
  by_cases h : r = 0
  · rw [if_neg (fun e => e.2 h), if_pos h, rS, if_pos h]
  · rw [if_pos ⟨rfl, h⟩, if_neg h]

theorem rS_wS_other (s : State) {r q : SReg} (v : Word64) (h : q ≠ r) : rS (wS s r v) q = rS s q := by
  rw [rS_wS]; simp [h]

theorem rK_wK (s : State) (r q : KReg) (v : Word32) : rK (wK s r v) q = if q = r ∧ r ≠ 0 then v else rK s q := by
  by_cases hr : r = 0
  · rw [if_neg (fun h => h.2 hr), wK, if_pos hr]
  by_cases hq : q = 0
  · have hn : ¬(q = r ∧ r ≠ 0) := fun h => hr (h.1.symm.trans hq)
    rw [if_neg hn, rK, rK, if_pos hq, if_pos hq]
  rw [wK, if_neg hr, rK, rK, if_neg hq, if_neg hq]
  by_cases h : q = r
  · rw [if_pos ⟨h, hr⟩, h]; exact cellGet_cellPut_same _ _ _
  · rw [if_neg (fun e => h e.1)]
    exact cellGet_cellPut_other _ _ _ _ (fun e => h (BitVec.eq_of_toNat_eq e))

theorem rK_wK_same (s : State) (r : KReg) (v : Word32) : rK (wK s r v) r = if r = 0 then 0xFFFFFFFF else v := by
  rw [rK_wK]
  by_cases h : r = 0
  · rw [if_neg (fun e => e.2 h), if_pos h, rK, if_pos h]
  · rw [if_pos ⟨rfl, h⟩, if_neg h]

/-! ### Lanes -/

theorem mem_lanesOf (m : Word32) (l : Nat) : l ∈ lanesOf m ↔ l < 32 ∧ m.getLsbD l = true := by
  simp [lanesOf]

theorem lanesOf_lt {m : Word32} {l : Nat} (h : l ∈ lanesOf m) : l < 32 := ((mem_lanesOf m l).1 h).1

theorem lanesOf_nodup (m : Word32) : (lanesOf m).Nodup := List.nodup_range.filter _

/-- The cells of a group whose lanes have been written. -/
theorem putLanes_vregs (g : Group) (r : Nat) (ls : List Nat) (f : Nat → Word64) (hl : ∀ l ∈ ls, l < 32) (hn : ls.Nodup)
    (q l : Nat) (h : l < 32) :
    cellGet (putLanes g r ls f).vregs (32 * q + l) = if q = r ∧ l ∈ ls then f l else cellGet g.vregs (32 * q + l) := by
  unfold putLanes
  induction ls generalizing g with
  | nil => simp
  | cons a t ih =>
    simp only [List.foldl_cons]
    rw [ih _ (fun x hx => hl x (List.mem_cons_of_mem _ hx)) (List.nodup_cons.1 hn).2]
    have ha : a < 32 := hl a (List.mem_cons_self ..)
    have hat : a ∉ t := (List.nodup_cons.1 hn).1
    by_cases hq : q = r
    · subst hq
      by_cases hla : l = a
      · subst hla
        simp [hat, putLane]
      · have : 32 * q + l ≠ 32 * q + a := by omega
        simp [putLane, cellGet_cellPut_other _ _ _ _ this, hla]
    · have : 32 * q + l ≠ 32 * r + a := by omega
      simp [hq, putLane, cellGet_cellPut_other _ _ _ _ this]

/-- Writing lanes writes nothing but the vector registers. -/
theorem putLanes_eq (g : Group) (r : Nat) (ls : List Nat) (f : Nat → Word64) :
    putLanes g r ls f = { g with vregs := (putLanes g r ls f).vregs } := by
  unfold putLanes
  induction ls generalizing g with
  | nil => rfl
  | cons a t ih => rw [List.foldl_cons, ih]; rfl

theorem wV_eq (s : State) (r : VReg) (act : Word32) (f : Nat → Word64) :
    wV s r act f = { s with g := { s.g with vregs := (wV s r act f).g.vregs } } := by
  unfold wV
  rw [putLanes_eq]

/-- A vector register after its acting lanes are written (R311). -/
theorem rV_wV (s : State) (r q : VReg) (act : Word32) (f : Nat → Word64) (l : Nat) (h : l < 32) :
    rV (wV s r act f) q l = if q = r ∧ act.getLsbD l = true then f l else rV s q l := by
  unfold rV wV
  rw [putLanes_vregs _ _ _ _ (fun _ => lanesOf_lt) (lanesOf_nodup act) _ _ h]
  have e : q.toNat = r.toNat ↔ q = r := ⟨BitVec.eq_of_toNat_eq, fun e => by rw [e]⟩
  simp [mem_lanesOf, h, e]

/-! ### Retirement -/

theorem foldSig_eq (w act : Word32) (g : Group) :
    foldSig w act g = { g with sigm := (foldSig w act g).sigm, sigw := (foldSig w act g).sigw } := by
  unfold foldSig; split <;> rfl

/-- Retirement completes the instruction. -/
theorem retireTo_completes (act : Word32) (pc : BitVec 56) (s : State) : completes s (retireTo act pc s) pc := by
  unfold completes retireTo doneX
  unfold foldSig
  split <;> rfl

/-- Completing after writing registers, LIVE or FPSTAT completes the instruction. -/
theorem retireTo_completes_of {s w : State} (h : regWrite s w)
    (act : Word32) (pc : BitVec 56) : completes s (retireTo act pc w) pc := by
  unfold regWrite at h
  rw [h]
  unfold completes retireTo doneX
  unfold foldSig
  split <;> rfl

@[simp] theorem retireTo_sregs (act : Word32) (pc : BitVec 56) (s : State) : (retireTo act pc s).g.sregs = s.g.sregs := by
  unfold retireTo foldSig; split <;> rfl
@[simp] theorem retireTo_kregs (act : Word32) (pc : BitVec 56) (s : State) : (retireTo act pc s).g.kregs = s.g.kregs := by
  unfold retireTo foldSig; split <;> rfl
@[simp] theorem retireTo_vregs (act : Word32) (pc : BitVec 56) (s : State) : (retireTo act pc s).g.vregs = s.g.vregs := by
  unfold retireTo foldSig; split <;> rfl
@[simp] theorem retireTo_tiles (act : Word32) (pc : BitVec 56) (s : State) : (retireTo act pc s).g.tiles = s.g.tiles := by
  unfold retireTo foldSig; split <;> rfl
@[simp] theorem retireTo_live (act : Word32) (pc : BitVec 56) (s : State) : (retireTo act pc s).g.live = s.g.live := by
  unfold retireTo foldSig; split <;> rfl
@[simp] theorem retireTo_fpstat (act : Word32) (pc : BitVec 56) (s : State) : (retireTo act pc s).g.fpstat = s.g.fpstat := by
  unfold retireTo foldSig; split <;> rfl
@[simp] theorem retireTo_pc (act : Word32) (pc : BitVec 56) (s : State) : (retireTo act pc s).g.pc = pc := rfl
@[simp] theorem retireTo_status (act : Word32) (pc : BitVec 56) (s : State) : (retireTo act pc s).g.status = s.g.status := by
  unfold retireTo foldSig; split <;> rfl
@[simp] theorem retireTo_idn (act : Word32) (pc : BitVec 56) (s : State) : (retireTo act pc s).g.idn = s.g.idn := by
  unfold retireTo foldSig; split <;> rfl
@[simp] theorem retireTo_n (act : Word32) (pc : BitVec 56) (s : State) : (retireTo act pc s).g.n = s.g.n := by
  unfold retireTo foldSig; split <;> rfl
@[simp] theorem retireTo_m (act : Word32) (pc : BitVec 56) (s : State) : (retireTo act pc s).m = s.m := rfl
@[simp] theorem retireTo_d (act : Word32) (pc : BitVec 56) (s : State) : (retireTo act pc s).d = s.d := rfl
@[simp] theorem retireTo_t (act : Word32) (pc : BitVec 56) (s : State) : (retireTo act pc s).t = s.t := rfl
@[simp] theorem retireTo_w (act : Word32) (pc : BitVec 56) (s : State) : (retireTo act pc s).w = s.w := rfl
@[simp] theorem retireTo_q (act : Word32) (pc : BitVec 56) (s : State) : (retireTo act pc s).q = s.q := rfl
@[simp] theorem retireTo_h (act : Word32) (pc : BitVec 56) (s : State) : (retireTo act pc s).h = s.h := rfl
@[simp] theorem retireTo_ctxs (act : Word32) (pc : BitVec 56) (s : State) : (retireTo act pc s).ctxs = s.ctxs := rfl
@[simp] theorem retireTo_agenda (act : Word32) (pc : BitVec 56) (s : State) : (retireTo act pc s).agenda = s.agenda := rfl
@[simp] theorem retireTo_rest (act : Word32) (pc : BitVec 56) (s : State) : (retireTo act pc s).rest = s.rest := rfl

@[simp] theorem rS_retireTo (act : Word32) (pc : BitVec 56) (s : State) (r : SReg) : rS (retireTo act pc s) r = rS s r := by
  simp [rS]
@[simp] theorem rK_retireTo (act : Word32) (pc : BitVec 56) (s : State) (r : KReg) : rK (retireTo act pc s) r = rK s r := by
  simp [rK]
@[simp] theorem rV_retireTo (act : Word32) (pc : BitVec 56) (s : State) (r : VReg) (l : Nat) :
    rV (retireTo act pc s) r l = rV s r l := by simp [rV]
@[simp] theorem rS_orFlags (s : State) (f : FFlags) (r : SReg) : rS (orFlags s f) r = rS s r := rfl
@[simp] theorem rK_orFlags (s : State) (f : FFlags) (r : KReg) : rK (orFlags s f) r = rK s r := rfl
@[simp] theorem rV_orFlags (s : State) (f : FFlags) (r : VReg) (l : Nat) : rV (orFlags s f) r l = rV s r l := rfl
@[simp] theorem rK_wS (s : State) (r : SReg) (v : Word64) (k : KReg) : rK (wS s r v) k = rK s k := by simp [rK]
@[simp] theorem rV_wS (s : State) (r : SReg) (v : Word64) (q : VReg) (l : Nat) : rV (wS s r v) q l = rV s q l := by simp [rV]
@[simp] theorem rS_wK (s : State) (k : KReg) (v : Word32) (r : SReg) : rS (wK s k v) r = rS s r := by simp [rS]
@[simp] theorem rV_wK (s : State) (k : KReg) (v : Word32) (q : VReg) (l : Nat) : rV (wK s k v) q l = rV s q l := by simp [rV]
@[simp] theorem rS_wV (s : State) (r : VReg) (act : Word32) (f : Nat → Word64) (q : SReg) : rS (wV s r act f) q = rS s q := by
  rw [wV_eq]; rfl
@[simp] theorem rK_wV (s : State) (r : VReg) (act : Word32) (f : Nat → Word64) (q : KReg) : rK (wV s r act f) q = rK s q := by
  rw [wV_eq]; rfl

theorem completes_g_pc {s t : State} {pc : BitVec 56} (h : completes s t pc) : t.g.pc = pc := by
  rw [h]

theorem completes_m {s t : State} {pc : BitVec 56} (h : completes s t pc) : t.m = s.m := by rw [h]

/-- A completed register-only instruction leaves every byte of memory as it was. -/
theorem completes_memKept {s t : State} {pc : BitVec 56} (h : completes s t pc) : memKept s t := by
  rw [h]
  exact ⟨fun _ => rfl, fun _ _ => rfl, fun _ _ => rfl, fun _ => rfl⟩

/-! ### Shapes -/

theorem wS_form (s : State) (d : SReg) (v : Word64) : regWrite s (wS s d v) := by
  unfold regWrite wS; split <;> rfl

theorem wK_form (s : State) (d : KReg) (v : Word32) : regWrite s (wK s d v) := by
  unfold regWrite wK; split <;> rfl

theorem wV_form (s : State) (d : VReg) (act : Word32) (f : Nat → Word64) : regWrite s (wV s d act f) := by
  unfold regWrite; rw [wV_eq]

/-- Register writes compose. -/
theorem regWrite_trans {s t u : State} (h : regWrite s t) (h' : regWrite t u) : regWrite s u := by
  unfold regWrite at *; rw [h', h]

theorem orFlags_form (s : State) (f : FFlags) : regWrite s (orFlags s f) := rfl

@[simp] theorem wV_live (s : State) (d : VReg) (act : Word32) (f : Nat → Word64) : (wV s d act f).g.live = s.g.live := by
  rw [wV_eq]
@[simp] theorem wV_fpstat (s : State) (d : VReg) (act : Word32) (f : Nat → Word64) :
    (wV s d act f).g.fpstat = s.g.fpstat := by rw [wV_eq]
@[simp] theorem wV_m (s : State) (d : VReg) (act : Word32) (f : Nat → Word64) : (wV s d act f).m = s.m := by rw [wV_eq]
@[simp] theorem nextPc_wS (s : State) (d : SReg) (v : Word64) : nextPc (wS s d v) = nextPc s := by simp [nextPc]
@[simp] theorem nextPc_wK (s : State) (d : KReg) (v : Word32) : nextPc (wK s d v) = nextPc s := by
  unfold wK nextPc; split <;> rfl
@[simp] theorem nextPc_wV (s : State) (d : VReg) (act : Word32) (f : Nat → Word64) : nextPc (wV s d act f) = nextPc s := by
  rw [wV_eq]; rfl
@[simp] theorem nextPc_orFlags (s : State) (f : FFlags) : nextPc (orFlags s f) = nextPc s := rfl

/-- What a scalar instruction's shape does: it completes, writes d and nothing else. -/
theorem scalarOut_spec (d : SReg) (v : Word64) (s : State) : ∃ t, scalarOut d v s = .next t ∧ completes s t (nextPc s)
    ∧ rS t d = (if d = 0 then 0 else v) ∧ onlyS s t d := by
  refine ⟨retireS (wS s d v), rfl, ?_, ?_, ?_, ?_, ?_, ?_, ?_⟩
  · have := retireTo_completes_of (wS_form s d v) (wS s d v).g.live (nextPc (wS s d v))
    simpa [retireS, retire, nextPc] using this
  · simp [retireS, retire, rS_wS_same]
  · intro r hr; simp [retireS, retire, rS_wS_other _ _ hr]
  · intro k _; simp [retireS, retire]
  · intro r l _ _; simp [retireS, retire]
  · simp [retireS, retire]
  · simp [retireS, retire]

/-- What a mask instruction's shape does. -/
theorem maskOut_spec (d : KReg) (v : Word32) (s : State) : ∃ t, maskOut d v s = .next t ∧ completes s t (nextPc s)
    ∧ rK t d = (if d = 0 then 0xFFFFFFFF else v) ∧ onlyK s t d := by
  refine ⟨retireS (wK s d v), rfl, ?_, ?_, ?_, ?_, ?_, ?_, ?_⟩
  · simpa [retireS, retire] using retireTo_completes_of (wK_form s d v) (wK s d v).g.live (nextPc (wK s d v))
  · simp [retireS, retire, rK_wK_same]
  · intro r _; simp [retireS, retire]
  · intro k hk
    have : ¬(k = d ∧ d ≠ 0) := fun h => hk h.1
    simp only [retireS, retire, rK_retireTo, rK_wK, if_neg this]
  · intro r l _ _; simp [retireS, retire]
  · simp [retireS, retire]
  · simp [retireS, retire]

/-- What a scalar float instruction's shape does. -/
theorem scalarF_spec (d : SReg) (v : Word64) (f : FFlags) (s : State) :
    let t := retireS (orFlags (wS s d v) f)
    completes s t (nextPc s) ∧ rS t d = (if d = 0 then 0 else v) ∧ t.g.fpstat = s.g.fpstat ||| f ∧ t.g.live = s.g.live
      ∧ sKept s t (fun q => q = d) ∧ kKept s t (fun _ => False) ∧ vKept s t (fun _ _ => False) := by
  refine ⟨?_, ?_, ?_, ?_, ?_, ?_, ?_⟩
  · simpa [retireS, retire] using
      retireTo_completes_of (regWrite_trans (wS_form s d v) (orFlags_form _ f)) s.g.live (nextPc (orFlags (wS s d v) f))
  · simp [retireS, retire, rS_wS_same]
  · simp [retireS, retire]
  · simp [retireS, retire]
  · intro r hr; simp [retireS, retire, rS_wS_other _ _ hr]
  · intro k _; simp [retireS, retire]
  · intro r l _ _; simp [retireS, retire]

/-- What a vector instruction's shape does where its registers may be named. -/
theorem vecOut_spec (rs : List VReg) (d : VReg) (k : KReg) (f : Nat → Word64) (s : State) (h : canName s rs) :
    ∃ t, vecOut rs d k f s = .next t ∧ completes s t (nextPc s)
      ∧ (∀ l < 32, rV t d l = if (actOf s k).getLsbD l then f l else rV s d l) ∧ onlyV s t d (actOf s k) := by
  refine ⟨vecDone d k f s, by unfold canName at h; simp [vecOut, checked, h], ?_, ?_, ?_, ?_, ?_, ?_, ?_⟩
  · simpa [vecDone, retire] using
      retireTo_completes_of (wV_form s d (actOf s k) f) (actOf s k) (nextPc (wV s d (actOf s k) f))
  · intro l hl; simp [vecDone, retire, rV_wV _ _ _ _ _ _ hl]
  · intro r _; simp [vecDone, retire]
  · intro q _; simp [vecDone, retire]
  · intro r l hr hl
    simp only [vecDone, retire, rV_retireTo, rV_wV _ _ _ _ _ _ hl, if_neg hr]
  · simp [vecDone, retire]
  · simp [vecDone, retire]

/-- What a float vector instruction's shape does where its registers may be named. -/
theorem vecDoneF_spec (d : VReg) (k : KReg) (f : Nat → Word64 × FFlags) (s : State) :
    let t := vecDoneF d k f s
    completes s t (nextPc s) ∧ (∀ l < 32, rV t d l = if (actOf s k).getLsbD l then (f l).1 else rV s d l)
      ∧ t.g.fpstat = s.g.fpstat ||| laneFlags (actOf s k) f ∧ t.g.live = s.g.live ∧ sKept s t (fun _ => False)
      ∧ kKept s t (fun _ => False) ∧ vKept s t (fun r l => r = d ∧ (actOf s k).getLsbD l = true) := by
  refine ⟨?_, ?_, ?_, ?_, ?_, ?_, ?_⟩
  · simpa [vecDoneF, retire] using retireTo_completes_of
      (regWrite_trans (wV_form s d (actOf s k) (fun l => (f l).1)) (orFlags_form _ (laneFlags (actOf s k) f))) (actOf s k) (nextPc s)
  · intro l hl; simp [vecDoneF, retire, rV_wV _ _ _ _ _ _ hl]
  · simp [vecDoneF, retire]
  · simp [vecDoneF, retire]
  · intro r _; simp [vecDoneF, retire]
  · intro q _; simp [vecDoneF, retire]
  · intro r l hr hl
    simp only [vecDoneF, retire, rV_retireTo, rV_orFlags, rV_wV _ _ _ _ _ _ hl, if_neg hr]

end Sys2Proof.Machine
end

