-- ==== Sys2Proof/Laws/PerInstr.lean ====
section
/-! SUPPORT. The family EncodeLen: the words of a well-formed instruction are as many as the LEN field of the first says
(R264). One lemma per constructor of Instr. -/
namespace Sys2Proof.Laws.EncodeLen

/-- As many words as the first word's LEN gives. -/
def Shaped (ws : List Word32) : Prop := ∃ w rest, ws = w :: rest ∧ ws.length = wordsOf w

/-- What the family states of an instruction. -/
def Statement (i : Instr) : Prop := i.isEvent = false → i.wf = true → Shaped (encode i)

theorem shaped_packSB (op : BitVec 7) (d a b : BitVec 6) (f : BitVec 5) : Shaped [packSB op d a b f] :=
  ⟨_, _, rfl, by simp [wordsOf]⟩

theorem shaped_packSI (op : BitVec 7) (d a : BitVec 6) (i : BitVec 11) : Shaped [packSI 0 op d a i] :=
  ⟨_, _, rfl, by simp [wordsOf]⟩

theorem shaped_ext (op : BitVec 7) (d a : BitVec 10) (x : BitVec 3) (w1 w2 : Word32) :
    Shaped [packX0 false op d a x, w1, w2] := ⟨_, _, rfl, by simp [wordsOf]⟩

theorem shaped_lit (op : BitVec 7) (d a : BitVec 10) (x : BitVec 3) (w1 w2 : Word32) (v : Word64) :
    Shaped (packX0 true op d a x :: w1 :: w2 :: litWords v) := ⟨_, _, rfl, by simp [wordsOf, litWords]⟩

theorem shaped_encX (op : BitVec 7) (d a b c : BitVec 10) (x : BitVec 3) (t : BitVec 5) (k : KReg) (r : BitVec 3)
    (w2 : Word32) : Shaped (encX op d a b c x t k r w2) := shaped_ext _ _ _ _ _ _

theorem shaped_encSB (op : BitVec 7) (f : BitVec 5) (d a : SReg) (b : SOpd) : Shaped (encSB op f d a b) := by
  cases b with
  | reg b => exact shaped_packSB _ _ _ _ _
  | lit v => exact ⟨_, _, rfl, by simp [encSB, wordsOf, litWords]⟩

theorem shaped_encSI (op : BitVec 7) (d a : SReg) (i : SImm) : Shaped (encSI op d a i) := by
  cases i with
  | i11 v => exact shaped_packSI _ _ _ _
  | i32 v => exact shaped_ext _ _ _ _ _ _
  | lit v => exact ⟨_, _, rfl, by simp [encSI, wordsOf, litWords]⟩

theorem shaped_encBR (op : BitVec 7) (a : BitVec 6) (c : BitVec 3) (o : BOff) : Shaped (encBR op a c o) := by
  cases o with
  | o14 v => exact ⟨_, _, rfl, by simp [encBR, wordsOf]⟩
  | o32 v => exact shaped_ext _ _ _ _ _ _

theorem shaped_encPO (op : BitVec 7) (d : SReg) (o : POff) : Shaped (encPO op d o) := by
  cases o with
  | i11 v => exact shaped_packSI _ _ _ _
  | i32 v => exact shaped_ext _ _ _ _ _ _

theorem shaped_encSF (f : BitVec 3) (op : BitVec 7) (t src : BitVec 5) (r : Rnd) (d a c : SReg) (b : SOpd) :
    Shaped (encSF f op t src r d a c b) := by
  cases b with
  | reg b => exact shaped_ext _ _ _ _ _ _
  | lit v => exact shaped_lit _ _ _ _ _ _ _

theorem shaped_encV (op : BitVec 7) (d a c : BitVec 10) (t : BitVec 5) (k : KReg) (r : BitVec 3) (b : VOpd) :
    Shaped (encV op d a c t k r b) := by
  cases b with
  | reg b => exact shaped_ext _ _ _ _ _ _
  | imm v => exact shaped_ext _ _ _ _ _ _
  | lit v => exact shaped_lit _ _ _ _ _ _ _

/-- The words of a base matrix step and loop (R396). -/
theorem shaped_mxstep (a : AReg) (t c : SReg) :
    Shaped [((0 : BitVec 2) ++ (0x6B : BitVec 7) ++ a ++ t ++ c ++ (0 : BitVec 7) : BitVec (2 + 7 + 4 + 6 + 6 + 7))] := by
  refine ⟨_, _, rfl, ?_⟩
  simp (disch := decide) only [wordsOf, lenOf, fld_append_hi]
  rfl

theorem shaped_mxloop (a : AReg) (t c n : SReg) :
    Shaped [((0 : BitVec 2) ++ (0x6C : BitVec 7) ++ a ++ t ++ c ++ n ++ (0 : BitVec 1) : BitVec (2 + 7 + 4 + 6 + 6 + 6 + 1))] := by
  refine ⟨_, _, rfl, ?_⟩
  simp (disch := decide) only [wordsOf, lenOf, fld_append_hi]
  rfl

/-! ### The constructors -/

theorem sadd (d a : SReg) (b : SOpd) : Statement (.sadd d a b) := fun _ _ => shaped_encSB _ _ _ _ _
theorem ssub (d a : SReg) (b : SOpd) : Statement (.ssub d a b) := fun _ _ => shaped_encSB _ _ _ _ _
theorem smul (d a : SReg) (b : SOpd) : Statement (.smul d a b) := fun _ _ => shaped_encSB _ _ _ _ _
theorem smulh_s (d a : SReg) (b : SOpd) : Statement (.smulh_s d a b) := fun _ _ => shaped_encSB _ _ _ _ _
theorem smulh_z (d a : SReg) (b : SOpd) : Statement (.smulh_z d a b) := fun _ _ => shaped_encSB _ _ _ _ _
theorem sdiv_s (d a : SReg) (b : SOpd) : Statement (.sdiv_s d a b) := fun _ _ => shaped_encSB _ _ _ _ _
theorem sdiv_z (d a : SReg) (b : SOpd) : Statement (.sdiv_z d a b) := fun _ _ => shaped_encSB _ _ _ _ _
theorem srem_s (d a : SReg) (b : SOpd) : Statement (.srem_s d a b) := fun _ _ => shaped_encSB _ _ _ _ _
theorem srem_z (d a : SReg) (b : SOpd) : Statement (.srem_z d a b) := fun _ _ => shaped_encSB _ _ _ _ _
theorem sand (d a : SReg) (b : SOpd) : Statement (.sand d a b) := fun _ _ => shaped_encSB _ _ _ _ _
theorem sor (d a : SReg) (b : SOpd) : Statement (.sor d a b) := fun _ _ => shaped_encSB _ _ _ _ _
theorem sxor (d a : SReg) (b : SOpd) : Statement (.sxor d a b) := fun _ _ => shaped_encSB _ _ _ _ _
theorem sandn (d a : SReg) (b : SOpd) : Statement (.sandn d a b) := fun _ _ => shaped_encSB _ _ _ _ _
theorem sshl (d a : SReg) (b : SOpd) : Statement (.sshl d a b) := fun _ _ => shaped_encSB _ _ _ _ _
theorem sshr (d a : SReg) (b : SOpd) : Statement (.sshr d a b) := fun _ _ => shaped_encSB _ _ _ _ _
theorem ssra (d a : SReg) (b : SOpd) : Statement (.ssra d a b) := fun _ _ => shaped_encSB _ _ _ _ _
theorem srol (d a : SReg) (b : SOpd) : Statement (.srol d a b) := fun _ _ => shaped_encSB _ _ _ _ _
theorem smin_s (d a : SReg) (b : SOpd) : Statement (.smin_s d a b) := fun _ _ => shaped_encSB _ _ _ _ _
theorem smin_z (d a : SReg) (b : SOpd) : Statement (.smin_z d a b) := fun _ _ => shaped_encSB _ _ _ _ _
theorem smax_s (d a : SReg) (b : SOpd) : Statement (.smax_s d a b) := fun _ _ => shaped_encSB _ _ _ _ _
theorem smax_z (d a : SReg) (b : SOpd) : Statement (.smax_z d a b) := fun _ _ => shaped_encSB _ _ _ _ _
theorem sclz (d a : SReg) : Statement (.sclz d a) := fun _ _ => shaped_packSB _ _ _ _ _
theorem sctz (d a : SReg) : Statement (.sctz d a) := fun _ _ => shaped_packSB _ _ _ _ _
theorem spopc (d a : SReg) : Statement (.spopc d a) := fun _ _ => shaped_packSB _ _ _ _ _
theorem sbrev (d a : SReg) : Statement (.sbrev d a) := fun _ _ => shaped_packSB _ _ _ _ _
theorem sbswap (d a : SReg) : Statement (.sbswap d a) := fun _ _ => shaped_packSB _ _ _ _ _
theorem smov (d a : SReg) : Statement (.smov d a) := fun _ _ => shaped_packSB _ _ _ _ _
theorem sbfx_s (d a : SReg) (pos len1 : BitVec 6) : Statement (.sbfx_s d a pos len1) :=
  fun _ _ => shaped_encX _ _ _ _ _ _ _ _ _ _
theorem sbfx_z (d a : SReg) (pos len1 : BitVec 6) : Statement (.sbfx_z d a pos len1) :=
  fun _ _ => shaped_encX _ _ _ _ _ _ _ _ _ _
theorem sbfi (d a : SReg) (pos len1 : BitVec 6) : Statement (.sbfi d a pos len1) :=
  fun _ _ => shaped_encX _ _ _ _ _ _ _ _ _ _
theorem scmp_eq (d a : SReg) (b : SOpd) : Statement (.scmp_eq d a b) := fun _ _ => shaped_encSB _ _ _ _ _
theorem scmp_ne (d a : SReg) (b : SOpd) : Statement (.scmp_ne d a b) := fun _ _ => shaped_encSB _ _ _ _ _
theorem scmp_lt (d a : SReg) (b : SOpd) : Statement (.scmp_lt d a b) := fun _ _ => shaped_encSB _ _ _ _ _
theorem scmp_le (d a : SReg) (b : SOpd) : Statement (.scmp_le d a b) := fun _ _ => shaped_encSB _ _ _ _ _
theorem scmp_ltz (d a : SReg) (b : SOpd) : Statement (.scmp_ltz d a b) := fun _ _ => shaped_encSB _ _ _ _ _
theorem scmp_lez (d a : SReg) (b : SOpd) : Statement (.scmp_lez d a b) := fun _ _ => shaped_encSB _ _ _ _ _
theorem ssel (d a : SReg) (b : SOpd) : Statement (.ssel d a b) := fun _ _ => shaped_encSB _ _ _ _ _
theorem sadd_imm (d a : SReg) (i : SImm) : Statement (.sadd_imm d a i) := fun _ _ => shaped_encSI _ _ _ _
theorem sand_imm (d a : SReg) (i : SImm) : Statement (.sand_imm d a i) := fun _ _ => shaped_encSI _ _ _ _
theorem sor_imm (d a : SReg) (i : SImm) : Statement (.sor_imm d a i) := fun _ _ => shaped_encSI _ _ _ _
theorem sxor_imm (d a : SReg) (i : SImm) : Statement (.sxor_imm d a i) := fun _ _ => shaped_encSI _ _ _ _
theorem sshl_imm (d a : SReg) (i : SImm) : Statement (.sshl_imm d a i) := fun _ _ => shaped_encSI _ _ _ _
theorem sshr_imm (d a : SReg) (i : SImm) : Statement (.sshr_imm d a i) := fun _ _ => shaped_encSI _ _ _ _
theorem ssra_imm (d a : SReg) (i : SImm) : Statement (.ssra_imm d a i) := fun _ _ => shaped_encSI _ _ _ _
theorem sli (d : SReg) (i : SImm) : Statement (.sli d i) := fun _ _ => shaped_encSI _ _ _ _
theorem sfadd_code (t : FTy) (d a : SReg) (c : BitVec 8) : Statement (.sfadd_code t d a c) :=
  fun _ _ => shaped_packSI _ _ _ _
theorem sfmul_code (t : FTy) (d a : SReg) (c : BitVec 8) : Statement (.sfmul_code t d a c) :=
  fun _ _ => shaped_packSI _ _ _ _
theorem slit (d : SReg) (o : POff) : Statement (.slit d o) := fun _ _ => shaped_encPO _ _ _
theorem sadr (d : SReg) (o : POff) : Statement (.sadr d o) := fun _ _ => shaped_encPO _ _ _
theorem sfadd (t : FTy) (r : Rnd) (d a : SReg) (b : SOpd) : Statement (.sfadd t r d a b) :=
  fun _ _ => shaped_encSF _ _ _ _ _ _ _ _ _
theorem sfsub (t : FTy) (r : Rnd) (d a : SReg) (b : SOpd) : Statement (.sfsub t r d a b) :=
  fun _ _ => shaped_encSF _ _ _ _ _ _ _ _ _
theorem sfmul (t : FTy) (r : Rnd) (d a : SReg) (b : SOpd) : Statement (.sfmul t r d a b) :=
  fun _ _ => shaped_encSF _ _ _ _ _ _ _ _ _
theorem sfdiv (t : FTy) (r : Rnd) (d a : SReg) (b : SOpd) : Statement (.sfdiv t r d a b) :=
  fun _ _ => shaped_encSF _ _ _ _ _ _ _ _ _
theorem sfsqrt (t : FTy) (r : Rnd) (d a : SReg) : Statement (.sfsqrt t r d a) := fun _ _ => shaped_ext _ _ _ _ _ _
theorem sfma (t : FTy) (r : Rnd) (d a : SReg) (b : SOpd) (c : SReg) : Statement (.sfma t r d a b c) :=
  fun _ _ => shaped_encSF _ _ _ _ _ _ _ _ _
theorem sfcvt (dst src : Ty5) (r : Rnd) (d a : SReg) : Statement (.sfcvt dst src r d a) :=
  fun _ _ => shaped_ext _ _ _ _ _ _
theorem sfcmp (c : BitVec 3) (t : FTy) (d a : SReg) (b : SOpd) : Statement (.sfcmp c t d a b) :=
  fun _ _ => shaped_encSF _ _ _ _ _ _ _ _ _
theorem b (o : BOff) : Statement (.b o) := fun _ _ => shaped_encBR _ _ _ _
theorem bz (a : SReg) (o : BOff) : Statement (.bz a o) := fun _ _ => shaped_encBR _ _ _ _
theorem bnz (a : SReg) (o : BOff) : Statement (.bnz a o) := fun _ _ => shaped_encBR _ _ _ _
theorem bc_lt (a : SReg) (o : BOff) : Statement (.bc_lt a o) := fun _ _ => shaped_encBR _ _ _ _
theorem bc_ge (a : SReg) (o : BOff) : Statement (.bc_ge a o) := fun _ _ => shaped_encBR _ _ _ _
theorem bc_gt (a : SReg) (o : BOff) : Statement (.bc_gt a o) := fun _ _ => shaped_encBR _ _ _ _
theorem bc_le (a : SReg) (o : BOff) : Statement (.bc_le a o) := fun _ _ => shaped_encBR _ _ _ _
theorem bk_any (k : KReg) (o : BOff) : Statement (.bk_any k o) := fun _ _ => shaped_encBR _ _ _ _
theorem bk_all (k : KReg) (o : BOff) : Statement (.bk_all k o) := fun _ _ => shaped_encBR _ _ _ _
theorem bk_none (k : KReg) (o : BOff) : Statement (.bk_none k o) := fun _ _ => shaped_encBR _ _ _ _
theorem call (o : BOff) : Statement (.call o) := fun _ _ => shaped_encBR _ _ _ _
theorem bx (a : SReg) : Statement (.bx a) := fun _ _ => shaped_packSB _ _ _ _ _
theorem ret : Statement .ret := fun _ _ => shaped_packSB _ _ _ _ _
theorem sloop (a : SReg) (o : BOff) : Statement (.sloop a o) := fun _ _ => shaped_encBR _ _ _ _
theorem nop : Statement .nop := fun _ _ => shaped_packSB _ _ _ _ _
theorem yield : Statement .yield := fun _ _ => shaped_packSB _ _ _ _ _
theorem sleep (a : SReg) : Statement (.sleep a) := fun _ _ => shaped_packSB _ _ _ _ _
theorem exit : Statement .exit := fun _ _ => shaped_packSB _ _ _ _ _
theorem kand (d a b : KReg) : Statement (.kand d a b) := fun _ _ => shaped_packSB _ _ _ _ _
theorem kor (d a b : KReg) : Statement (.kor d a b) := fun _ _ => shaped_packSB _ _ _ _ _
theorem kxor (d a b : KReg) : Statement (.kxor d a b) := fun _ _ => shaped_packSB _ _ _ _ _
theorem kandn (d a b : KReg) : Statement (.kandn d a b) := fun _ _ => shaped_packSB _ _ _ _ _
theorem knot (d a : KReg) : Statement (.knot d a) := fun _ _ => shaped_packSB _ _ _ _ _
theorem kmov (d a : KReg) : Statement (.kmov d a) := fun _ _ => shaped_packSB _ _ _ _ _
theorem kexit (a : KReg) : Statement (.kexit a) := fun _ _ => shaped_packSB _ _ _ _ _
theorem kset (d : KReg) (a : SReg) : Statement (.kset d a) := fun _ _ => shaped_packSB _ _ _ _ _
theorem kget (d : SReg) (a : KReg) : Statement (.kget d a) := fun _ _ => shaped_packSB _ _ _ _ _
theorem kpopc (d : SReg) (a : KReg) : Statement (.kpopc d a) := fun _ _ => shaped_packSB _ _ _ _ _
theorem kffs (d : SReg) (a : KReg) : Statement (.kffs d a) := fun _ _ => shaped_packSB _ _ _ _ _
theorem vadd (w : IW) (o : VBin) : Statement (.vadd w o) := fun _ _ => shaped_encV _ _ _ _ _ _ _ _
theorem vsub (w : IW) (o : VBin) : Statement (.vsub w o) := fun _ _ => shaped_encV _ _ _ _ _ _ _ _
theorem vadds_s (w : IW) (o : VBin) : Statement (.vadds_s w o) := fun _ _ => shaped_encV _ _ _ _ _ _ _ _
theorem vadds_z (w : IW) (o : VBin) : Statement (.vadds_z w o) := fun _ _ => shaped_encV _ _ _ _ _ _ _ _
theorem vsubs_s (w : IW) (o : VBin) : Statement (.vsubs_s w o) := fun _ _ => shaped_encV _ _ _ _ _ _ _ _
theorem vsubs_z (w : IW) (o : VBin) : Statement (.vsubs_z w o) := fun _ _ => shaped_encV _ _ _ _ _ _ _ _
theorem vmul (w : IW) (o : VBin) : Statement (.vmul w o) := fun _ _ => shaped_encV _ _ _ _ _ _ _ _
theorem vmulh_s (w : IW) (o : VBin) : Statement (.vmulh_s w o) := fun _ _ => shaped_encV _ _ _ _ _ _ _ _
theorem vmulh_z (w : IW) (o : VBin) : Statement (.vmulh_z w o) := fun _ _ => shaped_encV _ _ _ _ _ _ _ _
theorem vmad (w : IW) (o : VBin) (c : VReg) : Statement (.vmad w o c) := fun _ _ => shaped_encV _ _ _ _ _ _ _ _
theorem vand (o : VBin) : Statement (.vand o) := fun _ _ => shaped_encV _ _ _ _ _ _ _ _
theorem vor (o : VBin) : Statement (.vor o) := fun _ _ => shaped_encV _ _ _ _ _ _ _ _
theorem vxor (o : VBin) : Statement (.vxor o) := fun _ _ => shaped_encV _ _ _ _ _ _ _ _
theorem vandn (o : VBin) : Statement (.vandn o) := fun _ _ => shaped_encV _ _ _ _ _ _ _ _
theorem vshl (w : IW) (o : VBin) : Statement (.vshl w o) := fun _ _ => shaped_encV _ _ _ _ _ _ _ _
theorem vshr (w : IW) (o : VBin) : Statement (.vshr w o) := fun _ _ => shaped_encV _ _ _ _ _ _ _ _
theorem vsra (w : IW) (o : VBin) : Statement (.vsra w o) := fun _ _ => shaped_encV _ _ _ _ _ _ _ _
theorem vmin_s (w : IW) (o : VBin) : Statement (.vmin_s w o) := fun _ _ => shaped_encV _ _ _ _ _ _ _ _
theorem vmin_z (w : IW) (o : VBin) : Statement (.vmin_z w o) := fun _ _ => shaped_encV _ _ _ _ _ _ _ _
theorem vmax_s (w : IW) (o : VBin) : Statement (.vmax_s w o) := fun _ _ => shaped_encV _ _ _ _ _ _ _ _
theorem vmax_z (w : IW) (o : VBin) : Statement (.vmax_z w o) := fun _ _ => shaped_encV _ _ _ _ _ _ _ _
theorem vcmp (c : BitVec 3) (w : IW) (kd : KReg) (a : VReg) (b : VOpd) (k : KReg) : Statement (.vcmp c w kd a b k) :=
  fun _ _ => shaped_encV _ _ _ _ _ _ _ _
theorem vnot (o : VUn) : Statement (.vnot o) := fun _ _ => shaped_encX _ _ _ _ _ _ _ _ _ _
theorem vabs (w : IW) (o : VUn) : Statement (.vabs w o) := fun _ _ => shaped_encX _ _ _ _ _ _ _ _ _ _
theorem vneg (w : IW) (o : VUn) : Statement (.vneg w o) := fun _ _ => shaped_encX _ _ _ _ _ _ _ _ _ _
theorem vclz (w : IW) (o : VUn) : Statement (.vclz w o) := fun _ _ => shaped_encX _ _ _ _ _ _ _ _ _ _
theorem vpopc (w : IW) (o : VUn) : Statement (.vpopc w o) := fun _ _ => shaped_encX _ _ _ _ _ _ _ _ _ _
theorem vmov (o : VUn) : Statement (.vmov o) := fun _ _ => shaped_encX _ _ _ _ _ _ _ _ _ _
theorem viota (w : IW) (d : VReg) (k : KReg) : Statement (.viota w d k) := fun _ _ => shaped_encX _ _ _ _ _ _ _ _ _ _
theorem vli (d : VReg) (v : VLiVal) (k : KReg) : Statement (.vli d v k) := by
  intro _ _
  cases v with
  | imm t x => exact shaped_encX _ _ _ _ _ _ _ _ _ _
  | lit x => exact shaped_lit _ _ _ _ _ _ _
theorem vbfx_s (w : IW) (o : VUn) (pos len1 : BitVec 6) : Statement (.vbfx_s w o pos len1) :=
  fun _ _ => shaped_encX _ _ _ _ _ _ _ _ _ _
theorem vbfx_z (w : IW) (o : VUn) (pos len1 : BitVec 6) : Statement (.vbfx_z w o pos len1) :=
  fun _ _ => shaped_encX _ _ _ _ _ _ _ _ _ _
theorem vbfi (w : IW) (o : VUn) (pos len1 : BitVec 6) : Statement (.vbfi w o pos len1) :=
  fun _ _ => shaped_encX _ _ _ _ _ _ _ _ _ _
theorem vsel (o : VBin) (c : VReg) : Statement (.vsel o c) := fun _ _ => shaped_encV _ _ _ _ _ _ _ _
theorem vfadd (t : FTy) (r : Rnd) (o : VBin) : Statement (.vfadd t r o) := fun _ _ => shaped_encV _ _ _ _ _ _ _ _
theorem vfsub (t : FTy) (r : Rnd) (o : VBin) : Statement (.vfsub t r o) := fun _ _ => shaped_encV _ _ _ _ _ _ _ _
theorem vfmul (t : FTy) (r : Rnd) (o : VBin) : Statement (.vfmul t r o) := fun _ _ => shaped_encV _ _ _ _ _ _ _ _
theorem vfdiv (t : FTy) (r : Rnd) (o : VBin) : Statement (.vfdiv t r o) := fun _ _ => shaped_encV _ _ _ _ _ _ _ _
theorem vfma (t : FTy) (r : Rnd) (o : VBin) (c : VReg) : Statement (.vfma t r o c) :=
  fun _ _ => shaped_encV _ _ _ _ _ _ _ _
theorem vfms (t : FTy) (r : Rnd) (o : VBin) (c : VReg) : Statement (.vfms t r o c) :=
  fun _ _ => shaped_encV _ _ _ _ _ _ _ _
theorem vfnma (t : FTy) (r : Rnd) (o : VBin) (c : VReg) : Statement (.vfnma t r o c) :=
  fun _ _ => shaped_encV _ _ _ _ _ _ _ _
theorem vfnms (t : FTy) (r : Rnd) (o : VBin) (c : VReg) : Statement (.vfnms t r o c) :=
  fun _ _ => shaped_encV _ _ _ _ _ _ _ _
theorem vfmin (t : FTy) (o : VBin) : Statement (.vfmin t o) := fun _ _ => shaped_encV _ _ _ _ _ _ _ _
theorem vfmax (t : FTy) (o : VBin) : Statement (.vfmax t o) := fun _ _ => shaped_encV _ _ _ _ _ _ _ _
theorem vfminnum (t : FTy) (o : VBin) : Statement (.vfminnum t o) := fun _ _ => shaped_encV _ _ _ _ _ _ _ _
theorem vfmaxnum (t : FTy) (o : VBin) : Statement (.vfmaxnum t o) := fun _ _ => shaped_encV _ _ _ _ _ _ _ _
theorem vfcpys (t : FTy) (o : VBin) : Statement (.vfcpys t o) := fun _ _ => shaped_encV _ _ _ _ _ _ _ _
theorem vfcmp (c : BitVec 3) (t : FTy) (kd : KReg) (a : VReg) (b : VOpd) (k : KReg) : Statement (.vfcmp c t kd a b k) :=
  fun _ _ => shaped_encV _ _ _ _ _ _ _ _
theorem vfabs (t : FTy) (o : VUn) : Statement (.vfabs t o) := fun _ _ => shaped_encX _ _ _ _ _ _ _ _ _ _
theorem vfneg (t : FTy) (o : VUn) : Statement (.vfneg t o) := fun _ _ => shaped_encX _ _ _ _ _ _ _ _ _ _
theorem vfsqrt (t : FTy) (r : Rnd) (o : VUn) : Statement (.vfsqrt t r o) := fun _ _ => shaped_encX _ _ _ _ _ _ _ _ _ _
theorem vfrcp (t : FTy) (r : Rnd) (o : VUn) : Statement (.vfrcp t r o) := fun _ _ => shaped_encX _ _ _ _ _ _ _ _ _ _
theorem vfrsq (t : FTy) (r : Rnd) (o : VUn) : Statement (.vfrsq t r o) := fun _ _ => shaped_encX _ _ _ _ _ _ _ _ _ _
theorem vfexp2 (t : FTy) (r : Rnd) (o : VUn) : Statement (.vfexp2 t r o) := fun _ _ => shaped_encX _ _ _ _ _ _ _ _ _ _
theorem vflog2 (t : FTy) (r : Rnd) (o : VUn) : Statement (.vflog2 t r o) := fun _ _ => shaped_encX _ _ _ _ _ _ _ _ _ _
theorem vfsinpi (t : FTy) (r : Rnd) (o : VUn) : Statement (.vfsinpi t r o) := fun _ _ => shaped_encX _ _ _ _ _ _ _ _ _ _
theorem vfcospi (t : FTy) (r : Rnd) (o : VUn) : Statement (.vfcospi t r o) := fun _ _ => shaped_encX _ _ _ _ _ _ _ _ _ _
theorem vftanh (t : FTy) (r : Rnd) (o : VUn) : Statement (.vftanh t r o) := fun _ _ => shaped_encX _ _ _ _ _ _ _ _ _ _
theorem vfrnd (t : FTy) (r : Rnd) (o : VUn) : Statement (.vfrnd t r o) := fun _ _ => shaped_encX _ _ _ _ _ _ _ _ _ _
theorem vfclass (t : FTy) (o : VUn) : Statement (.vfclass t o) := fun _ _ => shaped_encX _ _ _ _ _ _ _ _ _ _
theorem vfcvt (dst src : Ty5) (nsat : Bool) (r : Rnd) (o : VUn) (part : BitVec 4) (q seg : BitVec 2) (sc : VReg) : Statement (.vfcvt dst src nsat r o part q seg sc) :=
  fun _ _ => shaped_encX _ _ _ _ _ _ _ _ _ _
theorem vfdot2 (t : FTy) (r : Rnd) (o : VBin) (c : VReg) : Statement (.vfdot2 t r o c) := by
  intro _ h
  obtain ⟨vd, va, vb, vk⟩ := o
  cases vb with
  | reg b => exact shaped_encX _ _ _ _ _ _ _ _ _ _
  | imm v => simp [Instr.wf, VOpd.isImm] at h
  | lit v => exact shaped_lit _ _ _ _ _ _ _
theorem vfscale (t : FTy) (r : Rnd) (o : VBin) : Statement (.vfscale t r o) := by
  intro _ h
  obtain ⟨vd, va, vb, vk⟩ := o
  cases vb with
  | reg b => exact shaped_encX _ _ _ _ _ _ _ _ _ _
  | imm v => simp [Instr.wf, VOpd.isImm] at h
  | lit v => exact shaped_lit _ _ _ _ _ _ _
theorem vshf_o (w : IW) (o : VTri) (sg : BitVec 4) : Statement (.vshf_o w o sg) :=
  fun _ _ => shaped_encX _ _ _ _ _ _ _ _ _ _
theorem vshf_w (w : IW) (o : VTri) (sg : BitVec 4) : Statement (.vshf_w w o sg) :=
  fun _ _ => shaped_encX _ _ _ _ _ _ _ _ _ _
theorem vshf_c (w : IW) (o : VTri) (sg : BitVec 4) : Statement (.vshf_c w o sg) :=
  fun _ _ => shaped_encX _ _ _ _ _ _ _ _ _ _
theorem vnbr (f : BitVec 3) (w : IW) (o : VUn) (dist : BitVec 9) : Statement (.vnbr f w o dist) :=
  fun _ _ => shaped_encX _ _ _ _ _ _ _ _ _ _
theorem vbcast (w : IW) (o : VUn) (b : SReg) (sg : BitVec 4) : Statement (.vbcast w o b sg) :=
  fun _ _ => shaped_encX _ _ _ _ _ _ _ _ _ _
theorem vvote (f : BitVec 2) (o : VUn) : Statement (.vvote f o) := fun _ _ => shaped_encX _ _ _ _ _ _ _ _ _ _
theorem vred (f : BitVec 4) (t : BitVec 2) (r : Rnd) (o : VUn) : Statement (.vred f t r o) :=
  fun _ _ => shaped_encX _ _ _ _ _ _ _ _ _ _
theorem vscan_inc (f : BitVec 4) (t : BitVec 2) (r : Rnd) (o : VUn) (c : VReg) : Statement (.vscan_inc f t r o c) :=
  fun _ _ => shaped_encX _ _ _ _ _ _ _ _ _ _
theorem vscan_exc (f : BitVec 4) (t : BitVec 2) (r : Rnd) (o : VUn) (c : VReg) : Statement (.vscan_exc f t r o c) :=
  fun _ _ => shaped_encX _ _ _ _ _ _ _ _ _ _
theorem vperm (o : VTri) (c : VReg) : Statement (.vperm o c) := fun _ _ => shaped_encX _ _ _ _ _ _ _ _ _ _
theorem vpack (w : IW) (sat : Sat) (o : VTri) : Statement (.vpack w sat o) := by
  intro _ _
  cases sat <;> exact shaped_encX _ _ _ _ _ _ _ _ _ _
theorem vunpk (w : IW) (sx : Bool) (part : BitVec 1) (o : VUn) : Statement (.vunpk w sx part o) :=
  fun _ _ => shaped_encX _ _ _ _ _ _ _ _ _ _
theorem vxshf (o : VUn) (b : SReg) : Statement (.vxshf o b) := fun _ _ => shaped_encX _ _ _ _ _ _ _ _ _ _
theorem ld_s (d a : SReg) (w : IW) (sx : Bool) (off : BitVec 21) (q : MemQ) : Statement (.ld_s d a w sx off q) :=
  fun _ _ => shaped_encX _ _ _ _ _ _ _ _ _ _
theorem st_s (d a : SReg) (w : IW) (off : BitVec 21) (q : MemQ) : Statement (.st_s d a w off q) :=
  fun _ _ => shaped_encX _ _ _ _ _ _ _ _ _ _
theorem ld_v (d : VReg) (a : SReg) (k : KReg) (off : BitVec 21) (q : MemQ) : Statement (.ld_v d a k off q) :=
  fun _ _ => shaped_encX _ _ _ _ _ _ _ _ _ _
theorem st_v (d : VReg) (a : SReg) (k : KReg) (off : BitVec 21) (q : MemQ) : Statement (.st_v d a k off q) :=
  fun _ _ => shaped_encX _ _ _ _ _ _ _ _ _ _
theorem ld_g (d a : VReg) (w : IW) (sx : Bool) (k : KReg) (off : BitVec 21) (q : MemQ) : Statement (.ld_g d a w sx k off q) :=
  fun _ _ => shaped_encX _ _ _ _ _ _ _ _ _ _
theorem st_g (d a : VReg) (w : IW) (k : KReg) (off : BitVec 21) (q : MemQ) : Statement (.st_g d a w k off q) :=
  fun _ _ => shaped_encX _ _ _ _ _ _ _ _ _ _
theorem ld_x (am : BitVec 2) (d a : VReg) (w : IW) (sx : Bool) (k : KReg) (off : BitVec 21) (q : MemQ) : Statement (.ld_x am d a w sx k off q) :=
  fun _ _ => shaped_encX _ _ _ _ _ _ _ _ _ _
theorem st_x (am : BitVec 2) (d a : VReg) (w : IW) (k : KReg) (off : BitVec 21) (q : MemQ) : Statement (.st_x am d a w k off q) :=
  fun _ _ => shaped_encX _ _ _ _ _ _ _ _ _ _
theorem pf (l2 : Bool) (lanes : Bool) (a : VReg) (k : KReg) (off : BitVec 21) : Statement (.pf l2 lanes a k off) :=
  fun _ _ => shaped_encX _ _ _ _ _ _ _ _ _ _
theorem at_s (o : AtOp) (d a b c : SReg) : Statement (.at_s o d a b c) := fun _ _ => shaped_encX _ _ _ _ _ _ _ _ _ _
theorem at_g (o : AtOp) (d a b c : VReg) (k : KReg) : Statement (.at_g o d a b c k) :=
  fun _ _ => shaped_encX _ _ _ _ _ _ _ _ _ _
theorem at_x (am : BitVec 2) (o : AtOp) (d a b c : VReg) (k : KReg) : Statement (.at_x am o d a b c k) :=
  fun _ _ => shaped_encX _ _ _ _ _ _ _ _ _ _
theorem fence (kind : BitVec 2) (scope : BitVec 3) : Statement (.fence kind scope) := fun _ _ => shaped_packSB _ _ _ _ _
theorem cwb (a b : SReg) : Statement (.cwb a b) := fun _ _ => shaped_packSB _ _ _ _ _
theorem cinv (a b : SReg) : Statement (.cinv a b) := fun _ _ => shaped_packSB _ _ _ _ _
theorem smap (d a b c : SReg) : Statement (.smap d a b c) := fun _ _ => shaped_encX _ _ _ _ _ _ _ _ _ _
theorem sunmap (d a : SReg) : Statement (.sunmap d a) := fun _ _ => shaped_packSB _ _ _ _ _
theorem cpy (dir : BitVec 2) (d a : SReg) (n : CpyLen) (r : SReg) : Statement (.cpy dir d a n r) := by
  intro _ _
  cases n with
  | reg b =>
    show Shaped (if b == 0 then _ else _)
    split
    · exact shaped_packSB _ _ _ _ _
    · exact shaped_encX _ _ _ _ _ _ _ _ _ _
  | imm l => exact shaped_encX _ _ _ _ _ _ _ _ _ _
theorem cpyt_ld (d a b : SReg) : Statement (.cpyt_ld d a b) := fun _ _ => shaped_packSB _ _ _ _ _
theorem cpyt_st (d a b : SReg) : Statement (.cpyt_st d a b) := fun _ _ => shaped_packSB _ _ _ _ _
theorem cpym (sx : Bool) (d a b r : SReg) : Statement (.cpym sx d a b r) := fun _ _ => shaped_encX _ _ _ _ _ _ _ _ _ _
theorem cpyg (d a b r : SReg) : Statement (.cpyg d a b r) := fun _ _ => shaped_encX _ _ _ _ _ _ _ _ _ _
theorem bbinit (a b : SReg) : Statement (.bbinit a b) := fun _ _ => shaped_packSB _ _ _ _ _
theorem bbexp (a b : SReg) : Statement (.bbexp a b) := fun _ _ => shaped_packSB _ _ _ _ _
theorem bbseal (a : SReg) : Statement (.bbseal a) := fun _ _ => shaped_packSB _ _ _ _ _
theorem bbwait (d a b : SReg) : Statement (.bbwait d a b) := fun _ _ => shaped_packSB _ _ _ _ _
theorem waitc (ld st cp mx : BitVec 6) : Statement (.waitc ld st cp mx) := fun _ _ => shaped_encX _ _ _ _ _ _ _ _ _ _
theorem waitp (c : BitVec 2) (a : SReg) : Statement (.waitp c a) := fun _ _ => shaped_packSB _ _ _ _ _
theorem qpush (v : VReg) : Statement (.qpush v) := fun _ _ => shaped_encX _ _ _ _ _ _ _ _ _ _
theorem qpop (v : VReg) : Statement (.qpop v) := fun _ _ => shaped_encX _ _ _ _ _ _ _ _ _ _
theorem qstat (d : SReg) : Statement (.qstat d) := fun _ _ => shaped_packSB _ _ _ _ _
theorem tidset (v : VReg) (t : BitVec 8) : Statement (.tidset v t) := fun _ _ => shaped_encX _ _ _ _ _ _ _ _ _ _
theorem tidget (v : VReg) (t : BitVec 8) : Statement (.tidget v t) := fun _ _ => shaped_encX _ _ _ _ _ _ _ _ _ _
theorem mxzero (a : AReg) : Statement (.mxzero a) := fun _ _ => shaped_encX _ _ _ _ _ _ _ _ _ _
theorem mxstep (a : AReg) (t c : SReg) (f : MxForm) : Statement (.mxstep a t c f) := by
  intro _ _
  cases f with
  | base => exact shaped_mxstep _ _ _
  | ext sa sb r => exact shaped_encX _ _ _ _ _ _ _ _ _ _
theorem mxloop (a : AReg) (t c n : SReg) (f : MxForm) : Statement (.mxloop a t c n f) := by
  intro _ _
  cases f with
  | base => exact shaped_mxloop _ _ _ _
  | ext sa sb r => exact shaped_encX _ _ _ _ _ _ _ _ _ _
theorem mxfence (d : SReg) : Statement (.mxfence d) := fun _ _ => shaped_packSB _ _ _ _ _
theorem mxwait (a : SReg) : Statement (.mxwait a) := fun _ _ => shaped_packSB _ _ _ _ _
theorem lda (v : VReg) (a : AReg) (k : KReg) : Statement (.lda v a k) := fun _ _ => shaped_encX _ _ _ _ _ _ _ _ _ _
theorem sta (v : VReg) (a : AReg) (k : KReg) : Statement (.sta v a k) := fun _ _ => shaped_encX _ _ _ _ _ _ _ _ _ _
theorem bar_arr (d : SReg) (b : BitVec 6) : Statement (.bar_arr d b) := fun _ _ => shaped_packSB _ _ _ _ _
theorem bar_wait (a : SReg) (b : BitVec 6) : Statement (.bar_wait a b) := fun _ _ => shaped_packSB _ _ _ _ _
theorem bar_setm (a : SReg) (b : BitVec 6) : Statement (.bar_setm a b) := fun _ _ => shaped_packSB _ _ _ _ _
theorem fwait_pass (d a b : SReg) : Statement (.fwait_pass d a b) := fun _ _ => shaped_packSB _ _ _ _ _
theorem fwait_reach (d a b : SReg) : Statement (.fwait_reach d a b) := fun _ _ => shaped_packSB _ _ _ _ _
theorem pinc (a b c : SReg) : Statement (.pinc a b c) := fun _ _ => shaped_packSB _ _ _ _ _
theorem pdec (a b c : SReg) : Statement (.pdec a b c) := fun _ _ => shaped_packSB _ _ _ _ _
theorem pmove (a b c : SReg) : Statement (.pmove a b c) := fun _ _ => shaped_packSB _ _ _ _ _
theorem wemit (v : VReg) (b : SReg) (k : KReg) : Statement (.wemit v b k) := fun _ _ => shaped_encX _ _ _ _ _ _ _ _ _ _
theorem wsend (v : VReg) (a b : SReg) (k : KReg) : Statement (.wsend v a b k) :=
  fun _ _ => shaped_encX _ _ _ _ _ _ _ _ _ _
theorem wclose (k : KReg) : Statement (.wclose k) := fun _ _ => shaped_encX _ _ _ _ _ _ _ _ _ _
theorem winfo (d : VReg) (k : KReg) : Statement (.winfo d k) := fun _ _ => shaped_encX _ _ _ _ _ _ _ _ _ _
theorem launch_child (d a : SReg) : Statement (.launch_child d a) := fun _ _ => shaped_packSB _ _ _ _ _
theorem jobput (d a : SReg) : Statement (.jobput d a) := fun _ _ => shaped_packSB _ _ _ _ _
theorem wait_v (d a b : SReg) : Statement (.wait_v d a b) := fun _ _ => shaped_packSB _ _ _ _ _
theorem wake (a : SReg) : Statement (.wake a) := fun _ _ => shaped_packSB _ _ _ _ _
theorem bow_get (d : SReg) : Statement (.bow_get d) := fun _ _ => shaped_packSB _ _ _ _ _
theorem bow_pass : Statement .bow_pass := fun _ _ => shaped_packSB _ _ _ _ _
theorem safe (i : Word32) : Statement (.safe i) := fun _ _ => shaped_encX _ _ _ _ _ _ _ _ _ _
theorem sigchk (i : Word32) : Statement (.sigchk i) := fun _ _ => shaped_encX _ _ _ _ _ _ _ _ _ _
theorem sigrd (d : SReg) : Statement (.sigrd d) := fun _ _ => shaped_packSB _ _ _ _ _
theorem trap (i : BitVec 16) : Statement (.trap i) := fun _ _ => shaped_encX _ _ _ _ _ _ _ _ _ _
theorem bkpt (i : BitVec 16) : Statement (.bkpt i) := fun _ _ => shaped_encX _ _ _ _ _ _ _ _ _ _
theorem retf : Statement .retf := fun _ _ => shaped_packSB _ _ _ _ _
theorem mappg (d a b : SReg) : Statement (.mappg d a b) := fun _ _ => shaped_packSB _ _ _ _ _
theorem unmappg (d a : SReg) : Statement (.unmappg d a) := fun _ _ => shaped_packSB _ _ _ _ _
theorem rgrel (a b : SReg) : Statement (.rgrel a b) := fun _ _ => shaped_packSB _ _ _ _ _
theorem tunack (d a : SReg) : Statement (.tunack d a) := fun _ _ => shaped_packSB _ _ _ _ _
theorem scan_run (d a b : SReg) : Statement (.scan_run d a b) := fun _ _ => shaped_packSB _ _ _ _ _
theorem srd (d : SReg) (g : BitVec 8) : Statement (.srd d g) := fun _ _ => shaped_encX _ _ _ _ _ _ _ _ _ _
theorem swr (a : SReg) (g : BitVec 8) : Statement (.swr a g) := fun _ _ => shaped_encX _ _ _ _ _ _ _ _ _ _
theorem ill (w : Word32) : Statement (.ill w) := by
  intro _ _
  refine ⟨w, _, rfl, ?_⟩
  show (w :: List.replicate (wordsOf w - 1) (0 : Word32)).length = wordsOf w
  simp only [List.length_cons, List.length_replicate, wordsOf]
  split <;> rfl
theorem parked_fault_delivery : Statement .parked_fault_delivery := fun h => absurd h (by decide)
theorem eccu_delivery : Statement .eccu_delivery := fun h => absurd h (by decide)
theorem park : Statement .park := fun h => absurd h (by decide)
theorem copy_progress : Statement .copy_progress := fun h => absurd h (by decide)
theorem barrier_update : Statement .barrier_update := fun h => absurd h (by decide)
theorem matrix_step : Statement .matrix_step := fun h => absurd h (by decide)
theorem transfer_finish : Statement .transfer_finish := fun h => absurd h (by decide)
theorem rds : Statement .rds := fun h => absurd h (by decide)
theorem rego : Statement .rego := fun h => absurd h (by decide)
theorem wt : Statement .wt := fun h => absurd h (by decide)
theorem wb : Statement .wb := fun h => absurd h (by decide)
theorem atom : Statement .atom := fun h => absurd h (by decide)
theorem fwdrd : Statement .fwdrd := fun h => absurd h (by decide)
theorem rvk : Statement .rvk := fun h => absurd h (by decide)
theorem fill : Statement .fill := fun h => absurd h (by decide)
theorem fwddata : Statement .fwddata := fun h => absurd h (by decide)
theorem rvkdata : Statement .rvkdata := fun h => absurd h (by decide)
theorem atomrsp : Statement .atomrsp := fun h => absurd h (by decide)
theorem regack : Statement .regack := fun h => absurd h (by decide)
theorem wtack : Statement .wtack := fun h => absurd h (by decide)
theorem wback : Statement .wback := fun h => absurd h (by decide)
theorem retry : Statement .retry := fun h => absurd h (by decide)
theorem region_home_lookup : Statement .region_home_lookup := fun h => absurd h (by decide)
theorem refused_message_reoffer : Statement .refused_message_reoffer := fun h => absurd h (by decide)
theorem memrd : Statement .memrd := fun h => absurd h (by decide)
theorem memwr : Statement .memwr := fun h => absurd h (by decide)
theorem birsp : Statement .birsp := fun h => absurd h (by decide)
theorem biconflict : Statement .biconflict := fun h => absurd h (by decide)
theorem snpdata : Statement .snpdata := fun h => absurd h (by decide)
theorem snpinv : Statement .snpinv := fun h => absurd h (by decide)
theorem snpcur : Statement .snpcur := fun h => absurd h (by decide)
theorem cxl_cache_data : Statement .cxl_cache_data := fun h => absurd h (by decide)
theorem expander_memrd_data : Statement .expander_memrd_data := fun h => absurd h (by decide)
theorem batch : Statement .batch := fun h => absurd h (by decide)
theorem frontier_announcement : Statement .frontier_announcement := fun h => absurd h (by decide)
theorem fret_forward : Statement .fret_forward := fun h => absurd h (by decide)
theorem batch_acknowledgement : Statement .batch_acknowledgement := fun h => absurd h (by decide)
theorem peer_flit : Statement .peer_flit := fun h => absurd h (by decide)
theorem peer_batch : Statement .peer_batch := fun h => absurd h (by decide)
theorem peer_batch_ack : Statement .peer_batch_ack := fun h => absurd h (by decide)
theorem link_retrain : Statement .link_retrain := fun h => absurd h (by decide)
theorem exchange_restore : Statement .exchange_restore := fun h => absurd h (by decide)
theorem window_engine_step : Statement .window_engine_step := fun h => absurd h (by decide)
theorem window_group_start : Statement .window_group_start := fun h => absurd h (by decide)
theorem window_group_timeout : Statement .window_group_timeout := fun h => absurd h (by decide)
theorem peg_load : Statement .peg_load := fun h => absurd h (by decide)
theorem team_start : Statement .team_start := fun h => absurd h (by decide)
theorem part_start : Statement .part_start := fun h => absurd h (by decide)
theorem part_exit : Statement .part_exit := fun h => absurd h (by decide)
theorem job_chunk_deal : Statement .job_chunk_deal := fun h => absurd h (by decide)
theorem bow_receive : Statement .bow_receive := fun h => absurd h (by decide)
theorem urgent : Statement .urgent := fun h => absurd h (by decide)
theorem yield_expiry : Statement .yield_expiry := fun h => absurd h (by decide)
theorem sleep_expiry : Statement .sleep_expiry := fun h => absurd h (by decide)
theorem vnbr_timeout : Statement .vnbr_timeout := fun h => absurd h (by decide)
theorem vxshf_timeout : Statement .vxshf_timeout := fun h => absurd h (by decide)
theorem forced_save : Statement .forced_save := fun h => absurd h (by decide)
theorem tuning_event : Statement .tuning_event := fun h => absurd h (by decide)
theorem tune_deadline : Statement .tune_deadline := fun h => absurd h (by decide)
theorem scan_pattern_start : Statement .scan_pattern_start := fun h => absurd h (by decide)
theorem scan_compare : Statement .scan_compare := fun h => absurd h (by decide)
theorem pair_mismatch : Statement .pair_mismatch := fun h => absurd h (by decide)
theorem patrol_scrub : Statement .patrol_scrub := fun h => absurd h (by decide)
theorem fault_record : Statement .fault_record := fun h => absurd h (by decide)
theorem completion_record : Statement .completion_record := fun h => absurd h (by decide)
theorem doorbell : Statement .doorbell := fun h => absurd h (by decide)
theorem launch : Statement .launch := fun h => absurd h (by decide)
theorem job : Statement .job := fun h => absurd h (by decide)
theorem stream_put : Statement .stream_put := fun h => absurd h (by decide)
theorem stream_advance : Statement .stream_advance := fun h => absurd h (by decide)
theorem wait_stamp : Statement .wait_stamp := fun h => absurd h (by decide)
theorem signal : Statement .signal := fun h => absurd h (by decide)
theorem xfer : Statement .xfer := fun h => absurd h (by decide)
theorem pin : Statement .pin := fun h => absurd h (by decide)
theorem tune_ack : Statement .tune_ack := fun h => absurd h (by decide)
theorem ctx_create : Statement .ctx_create := fun h => absurd h (by decide)
theorem ctx_destroy : Statement .ctx_destroy := fun h => absurd h (by decide)
theorem q_create : Statement .q_create := fun h => absurd h (by decide)
theorem q_destroy : Statement .q_destroy := fun h => absurd h (by decide)
theorem stream_reset : Statement .stream_reset := fun h => absurd h (by decide)
theorem park_resume : Statement .park_resume := fun h => absurd h (by decide)
theorem preempt : Statement .preempt := fun h => absurd h (by decide)
theorem resume : Statement .resume := fun h => absurd h (by decide)
theorem checkpoint : Statement .checkpoint := fun h => absurd h (by decide)
theorem start : Statement .start := fun h => absurd h (by decide)
theorem start_watchdog : Statement .start_watchdog := fun h => absurd h (by decide)
theorem fails_clear : Statement .fails_clear := fun h => absurd h (by decide)
theorem admin_queue_create : Statement .admin_queue_create := fun h => absurd h (by decide)
theorem fault_ring_set : Statement .fault_ring_set := fun h => absurd h (by decide)
theorem tenant_reset : Statement .tenant_reset := fun h => absurd h (by decide)
theorem context_pairing : Statement .context_pairing := fun h => absurd h (by decide)
theorem get_version : Statement .get_version := fun h => absurd h (by decide)
theorem get_capabilities : Statement .get_capabilities := fun h => absurd h (by decide)
theorem negotiate_algorithms : Statement .negotiate_algorithms := fun h => absurd h (by decide)
theorem get_digests : Statement .get_digests := fun h => absurd h (by decide)
theorem get_certificate : Statement .get_certificate := fun h => absurd h (by decide)
theorem challenge : Statement .challenge := fun h => absurd h (by decide)
theorem get_measurements : Statement .get_measurements := fun h => absurd h (by decide)
theorem base_die_reply : Statement .base_die_reply := fun h => absurd h (by decide)
theorem host_port_completion : Statement .host_port_completion := fun h => absurd h (by decide)
theorem pcie_host_access : Statement .pcie_host_access := fun h => absurd h (by decide)
theorem checkpoint_stream_end : Statement .checkpoint_stream_end := fun h => absurd h (by decide)

end Sys2Proof.Laws.EncodeLen
end

