-- ==== Sys2Proof/Machine/Objects.lean ====
section
/-! DEFINITION. What a Fonal object holds: its section table, the entry table, the live-register and TID tables, and the stream
descriptor that a window row gives (R285, R286, R388, R422, R452). Loading is work of system software: no step runs these
(DESIGN CHOICE, log 33). -/
namespace Sys2Proof.Machine

/-- n bytes of an object at an offset; the object is one number, its byte i at bits 8i + 7 : 8i. -/
def objField (img off n : Nat) : Nat := img / 256 ^ off % 256 ^ n

/-- A section table entry (R285). -/
structure Section where
  kind : Nat
  rev : Nat
  foff : Nat
  size : Nat
  ioff : Nat
deriving DecidableEq, Repr

def sectionAt (img i : Nat) : Section :=
  let f := fun (off n : Nat) => objField img (32 + 32 * i + off) n
  { kind := f 0 2, rev := f 2 2, foff := f 8 8, size := f 16 8, ioff := f 24 8 }

def sectionsOf (img : Nat) : List Section := (List.range (objField img 8 4)).map (sectionAt img)

/-- An entry-table row as it stands in the object, its offsets made addresses from the load base; none for a KIND that
refuses the object (R452). -/
def readRow (base obj img off : Nat) : Option EntryRow :=
  let f := fun (o n : Nat) => objField img (off + o) n
  let addr := fun (o : Nat) => BitVec.ofNat 56 (if f o 8 = 0 then 0 else base + f o 8)
  if f 16 1 > 1 then none
  else some {
    entry := BitVec.ofNat 56 (base + f 0 8), drone := addr 8, window := f 16 1 == 1, p := f 17 1, g := f 18 1, acc := f 19 1 % 32,
    accw64 := f 19 1 ≥ 128, vregs := f 20 2, dvregs := f 22 2, qbase := f 24 1, qlen := f 25 1, scratch := f 28 4,
    desc := BitVec.ofNat 128 (f 32 16), opn := addr 48, merge := addr 56, close := addr 64, outRsz := f 72 1, ring := addr 80, obj := obj }

/-- The rows of a section of KIND 5; none where its size or a row refuses the object (R452). -/
def readRows (base obj img : Nat) (x : Section) : Option (List EntryRow) :=
  if x.size % 128 ≠ 0 then none
  else (List.range (x.size / 128)).mapM (fun i => readRow base obj img (x.foff + 128 * i))

/-- The code that a launch uses: the native code of the device's revision, 1, else the Tridan section (R287). -/
def chosenCode (ss : List Section) : Option Section :=
  match ss.find? (fun x => x.kind == 1 && x.rev == 1) with
  | some x => some x
  | none => ss.find? (fun x => x.kind == 2)

/-- Whether an object's header and sections let it be loaded (R285, R286, R422). -/
def objOk (img : Nat) : Bool :=
  let ss := sectionsOf img
  let native := (ss.filter (fun x => x.kind == 1)).map (fun x => x.rev)
  objField img 0 4 == 0x004C4E46 && objField img 4 2 == 1 && native.eraseDups.length == native.length
    && decide ((ss.filter (fun x => x.kind == 2)).length ≤ 1) && ss.all (fun x => x.kind != 6 || x.size % 128 == 0)

/-- What a context holds of an object loaded at a base: its range, STRICT, its tables, and its rows; none where it is
refused. Of an object without code for the device no row is held: a launch that names one is rejected (R287). DESIGN CHOICE, log 33. -/
def readObject (base obj img : Nat) : Option (CodeObj × List EntryRow) :=
  let ss := sectionsOf img
  let entries := fun (kind n : Nat) => (ss.filter (fun x => x.kind == kind)).flatMap (fun x =>
    (List.range (x.size / n)).map (fun i => objField img (x.foff + n * i) n))
  if !objOk img then none
  else match (ss.filter (fun x => x.kind == 5)).mapM (readRows base obj img) with
    | none => none
    | some rs =>
      let code := (chosenCode ss).toList
      let placed := ss.filter (fun x => 3 ≤ x.kind && x.kind ≤ 7) ++ code
      some ({ base := base, size := placed.foldl (fun n x => Nat.max n (x.ioff + x.size)) 0, strict := objField img 6 2 % 2 == 1,
              live := (entries 6 128).map (BitVec.ofNat 1024), tids := (entries 7 64).map (BitVec.ofNat 512) }, if code.isEmpty then [] else rs.flatten)

/-- The stream descriptor that system software builds from a window row (R217, R452). -/
def rowDesc (r : EntryRow) (locIdx outSid : Nat) (ring : BitVec 56) : BitVec 512 :=
  let d := r.desc.toNat / 2 ^ 42 * 2 ^ 42 + locIdx % 1024 * 2 ^ 32 + r.desc.toNat / 2 ^ 27 % 32 * 2 ^ 27 + outSid % 4096 * 2 ^ 15
    + r.desc.toNat % 2 ^ 15
  let rg := if r.ring = 0 then ring else r.ring
  BitVec.ofNat 512 (d + r.opn.toNat * 2 ^ 128 + r.entry.toNat * 2 ^ 192 + r.merge.toNat * 2 ^ 256 + r.close.toNat * 2 ^ 320
    + rg.toNat / 64 * 2 ^ 390 + r.outRsz % 8 * 2 ^ 445 + 2 ^ 448)

end Sys2Proof.Machine
end

