-- ==== Sys2Proof/Tests/Slice0.lean ====
section
/-! SUPPORT. Tests: terms that WellFormed refuses, words from the spec's encodings, small steps with the results the spec's corner
tables and worked cases give, and a named witness for the hypotheses of each statement. -/
namespace Sys2Proof.Tests
set_option Elab.async false
open Sys2Proof Sys2Proof.Machine

/-! ### Small states -/

/-- A device with one running group: context 1, cluster 0, core 0, v0 to v31, at 0x41_0000_0000, where nop stands. -/
def w0 : State := State.reset.withFetchWord 32 0x0A800000

/-- A scalar register set. -/
def sReg (r : SReg) (v : Word64) (s : State) : State := wS s r v

/-- A vector register set lane by lane. -/
def vReg (r : Nat) (f : Nat → Word64) (s : State) : State :=
  { s with g := { s.g with vregs := (List.range 32).foldl (fun m l => cellPut m (32 * r + l) (f l)) s.g.vregs } }

/-- A mask register set. -/
def kReg (k : KReg) (v : Word32) (s : State) : State := wK s k v

/-- The state after an instruction or event, where it answers a next state. -/
def after (i : Instr) (s : State) : State := match exec i s with
  | .next t => t
  | _ => s

/-- The state with an event at hand. -/
def withEv (e : Event) (s : State) : State := { s with ev := some e }

/-! ### WellFormed refuses -/

def badTerms : List Instr :=
  [.sbfx_s 1 2 60 7, .sbfx_z 1 2 63 1, .sbfi 1 2 1 63, .sfcvt .e4m3 .f32 .rne 1 2, .sfcvt .s32 .s16 .rne 1 2, .sloop 0 (.o14 1),
   .vcmp 6 .w64 1 2 (.reg 3) 0, .vli 1 (.imm .n4 0) 0, .vbfx_s .w8 ⟨1, 2, 0⟩ 5 3, .vbfx_z .w16 ⟨1, 2, 0⟩ 16 0, .vbfi .w32 ⟨1, 2, 0⟩ 31 1,
   .vfexp2 .f64 .rne ⟨1, 2, 0⟩, .vflog2 .f64 .rne ⟨1, 2, 0⟩, .vfsinpi .f64 .rne ⟨1, 2, 0⟩, .vfcospi .f64 .rne ⟨1, 2, 0⟩,
   .vftanh .f64 .rne ⟨1, 2, 0⟩, .vfcvt .z8 .s32 false .rne ⟨1, 2, 0⟩ 0 0 0 0, .vfcvt .f32 .f64 false .rne ⟨1, 2, 0⟩ 2 0 0 0,
   .vfcvt .f32 .f64 false .rne ⟨1, 2, 0⟩ 0 1 0 0, .vfcvt .n4 .f32 true .rne ⟨1, 2, 0⟩ 0 0 0 3, .vfdot2 .f64 .rne ⟨1, 2, .reg 3, 0⟩ 4,
   .vfdot2 .f32 .rne ⟨1, 2, .imm 3, 0⟩ 4, .vfscale .f32 .rne ⟨1, 2, .imm 3, 0⟩, .vshf_o .w64 ⟨1, 2, 3, 0⟩ 6, .vshf_w .w32 ⟨1, 2, 3, 0⟩ 7,
   .vshf_c .w16 ⟨1, 2, 3, 0⟩ 8, .vbcast .w8 ⟨1, 2, 0⟩ 3 9, .vnbr 6 .w64 ⟨1, 2, 0⟩ 1, .vnbr 0 .w64 ⟨1, 2, 0⟩ 33, .vvote 3 ⟨1, 2, 0⟩,
   .vred 11 0 .rne ⟨1, 2, 0⟩, .vred 0 0 .rtz ⟨1, 2, 0⟩, .vscan_inc 12 0 .rne ⟨1, 2, 0⟩ 0, .vscan_exc 0 0 .rne ⟨1, 2, 0⟩ 3,
   .vpack .w8 .off ⟨1, 2, 3, 0⟩, .vunpk .w64 false 0 ⟨1, 2, 0⟩, .ld_s 1 2 .w64 false 0 ⟨2, 0, 0⟩, .ld_v 1 2 0 0 ⟨1, 5, 0⟩,
   .ld_g 1 2 .w64 false 0 0 ⟨0, 1, 0⟩, .ld_g 1 2 .w64 false 0 0 ⟨0, 0, 3⟩, .st_s 1 2 .w64 0 ⟨1, 0, 0⟩, .st_v 1 2 0 0 ⟨3, 0, 0⟩,
   .st_g 1 2 .w64 0 0 ⟨2, 5, 0⟩, .ld_x 3 1 2 .w64 false 0 0 ⟨0, 0, 0⟩, .ld_x 0 64 2 .w64 false 0 0 ⟨0, 0, 0⟩,
   .ld_x 1 1 2 .w32 false 0 0 ⟨0, 0, 0⟩, .st_x 2 1 2 .w64 0 0 ⟨0, 0, 1⟩, .st_x 1 1 64 .w64 0 0 ⟨0, 0, 0⟩, .pf false false 64 0 0,
   .at_s ⟨12, true, false, .rne, 0, 0, 0⟩ 1 2 3 0, .at_g ⟨0, true, false, .rtz, 0, 0, 0⟩ 1 2 3 0 0, .at_g ⟨0, true, true, .rne, 0, 0, 0⟩ 1 2 3 0 0,
   .at_g ⟨0, true, false, .rne, 0, 0, 0⟩ 1 2 3 4 0, .at_x 1 ⟨0, true, false, .rne, 0, 0, 0⟩ 1 2 3 0 0, .fence 0 5,
   .cpy 0 1 2 (.reg 0) 8, .ill 0x0A800000]

theorem test_wf_refuses : badTerms.all (fun i => !i.wf) = true := by decide +kernel

/-- The same shapes within their bounds are well-formed. -/
theorem test_wf_accepts : [Instr.sbfx_s 1 2 56 7, .sloop 1 (.o14 1), .vcmp 5 .w64 1 2 (.reg 3) 0, .vbfx_s .w8 ⟨1, 2, 0⟩ 5 2, .vshf_o .w64 ⟨1, 2, 3, 0⟩ 5,
    .vnbr 5 .w64 ⟨1, 2, 0⟩ 32, .vred 10 0 .rne ⟨1, 2, 0⟩, .ld_s 1 2 .w64 false 0 ⟨1, 4, 2⟩, .fence 3 4, .cpy 0 1 2 (.reg 0) 7,
    .ill 0x3F800000].all (fun i => i.wf) = true := by decide +kernel

/-! ### Words from the spec's encodings -/

/-- The decoder reads these words as this instruction and takes all of them. -/
def decodesTo (ws : List Word32) (i : Instr) : Bool := match decode ws with
  | .ok (j, n) => decide (j = i) && n == 4 * ws.length
  | .error _ => false

def words_scalar_integer : List (List Word32 × Instr) :=
  [([0x008340E0], .sadd 1 40 (.reg 7)), ([0x00853901], .ssub 2 39 (.reg 8)), ([0x00873122], .smul 3 38 (.reg 9)),
      ([0x00892943], .smulh_s 4 37 (.reg 10)), ([0x008B2164], .smulh_z 5 36 (.reg 11)),
      ([0x008D1985], .sdiv_s 6 35 (.reg 12)), ([0x008F11A6], .sdiv_z 7 34 (.reg 13)), ([0x009109C7], .srem_s 8 33 (.reg 14)),
      ([0x009301E8], .srem_z 9 32 (.reg 15)), ([0x0094FA09], .sand 10 31 (.reg 16)), ([0x0096F22A], .sor 11 30 (.reg 17)),
      ([0x0098EA4B], .sxor 12 29 (.reg 18)), ([0x009AE26C], .sandn 13 28 (.reg 19)), ([0x009CDA8D], .sshl 14 27 (.reg 20)),
      ([0x009ED2AE], .sshr 15 26 (.reg 21)), ([0x00A0CACF], .ssra 16 25 (.reg 22)), ([0x00A2C2F0], .srol 17 24 (.reg 23)),
      ([0x00A4BB11], .smin_s 18 23 (.reg 24)), ([0x00A6B332], .smin_z 19 22 (.reg 25)),
      ([0x00A8AB53], .smax_s 20 21 (.reg 26)), ([0x00AAA374], .smax_z 21 20 (.reg 27)),
      ([0x80925000, 0x89ABCDEF, 0x01234567], .sadd 9 10 (.lit 0x0123456789ABCDEF)),
      ([0x4087E1F0, 0x0F400000, 0x00000001], .ssub 63 62 (.reg 61)), ([0x00C26015], .sclz 33 12), ([0x00C46816], .sctz 34 13),
      ([0x00C67017], .spopc 35 14), ([0x00C87818], .sbrev 36 15), ([0x00CA8019], .sbswap 37 16), ([0x00CC881A], .smov 38 17),
      ([0x4080A030, 0x00000000, 0x00350A1B], .sbfx_s 5 6 10 53), ([0x4080C038, 0x00000000, 0x00340B1C], .sbfx_z 6 7 11 52),
      ([0x4080E040, 0x00000000, 0x00330C1D], .sbfi 7 8 12 51)]

theorem test_decode_scalar_integer : words_scalar_integer.all (fun p => decodesTo p.1 p.2) = true := by decide +kernel

def words_scalar_compare : List (List Word32 × Instr) :=
  [([0x0128F120], .scmp_eq 20 30 (.reg 9)), ([0x012AF941], .scmp_ne 21 31 (.reg 10)),
      ([0x012D0162], .scmp_lt 22 32 (.reg 11)), ([0x012F0983], .scmp_le 23 33 (.reg 12)),
      ([0x013111A4], .scmp_ltz 24 34 (.reg 13)), ([0x013319C5], .scmp_lez 25 35 (.reg 14)),
      ([0x013521E6], .ssel 26 36 (.reg 15))]

theorem test_decode_scalar_compare : words_scalar_compare.all (fun p => decodesTo p.1 p.2) = true := by decide +kernel

def words_scalar_immediate : List (List Word32 × Instr) :=
  [([0x01979400], .sadd_imm 11 50 (.i11 1024)), ([0x02198C01], .sand_imm 12 49 (.i11 1025)),
      ([0x029B8402], .sor_imm 13 48 (.i11 1026)), ([0x031D7C03], .sxor_imm 14 47 (.i11 1027)),
      ([0x039F7404], .sshl_imm 15 46 (.i11 1028)), ([0x04216C05], .sshr_imm 16 45 (.i11 1029)),
      ([0x04A36406], .ssra_imm 17 44 (.i11 1030)), ([0x054207FF], .sli 33 (.i11 0x7FF)),
      ([0x42006020, 0x00000000, 0x80000001], .sand_imm 3 4 (.i32 0x80000001)),
      ([0x850E0000, 0x89ABCDEF, 0x01234567], .sli 7 (.lit 0x0123456789ABCDEF)), ([0x018A37FD], .sadd_imm 5 6 (.i11 0x7FD)),
      ([0x05862238], .sfadd_code .f32 3 4 0x38), ([0x0586279A], .sfmul_code .f16 3 4 0x9A),
      ([0x061A07FE], .slit 13 (.i11 0x7FE)), ([0x4681C000, 0x00000000, 0x00000123], .sadr 14 (.i32 0x123))]

theorem test_decode_scalar_immediate : words_scalar_immediate.all (fun p => decodesTo p.1 p.2) = true := by decide +kernel

def words_scalar_float : List (List Word32 × Instr) :=
  [([0x07104940], .sfadd .f64 .rne 8 9 (.reg 10)), ([0x07125165], .sfsub .f32 .rne 9 10 (.reg 11)),
      ([0x0714598A], .sfmul .bf16 .rne 10 11 (.reg 12)), ([0x071661AF], .sfdiv .f16 .rne 11 12 (.reg 13)),
      ([0x07104811], .sfsqrt .f32 .rne 8 9), ([0x47010048, 0x0280B083, 0x00000014], .sfma .f32 .rdn 8 9 (.reg 10) 11),
      ([0x47010048, 0x00000481, 0x00000118], .sfcvt .s32 .f32 .rtz 8 9), ([0x07904956], .sfcmp 5 .bf16 8 9 (.reg 10))]

theorem test_decode_scalar_float : words_scalar_float.all (fun p => decodesTo p.1 p.2) = true := by decide +kernel

def words_control : List (List Word32 × Instr) :=
  [([0x08003FFE], .b (.o14 0x3FFE)), ([0x0812BFF7], .bnz 9 (.o14 0x3FF7)), ([0x08144065], .bz 10 (.o14 101)),
      ([0x0818C067], .bc_lt 12 (.o14 103)), ([0x081B0068], .bc_ge 13 (.o14 104)), ([0x081D4069], .bc_gt 14 (.o14 105)),
      ([0x081F806A], .bc_le 15 (.o14 106)), ([0x48000162, 0x00000000, 0xFFFFFFFB], .bnz 44 (.o32 0xFFFFFFFB)),
      ([0x089A0007], .bk_any 13 (.o14 7)), ([0x089C4007], .bk_all 14 (.o14 7)), ([0x089E8007], .bk_none 15 (.o14 7)),
      ([0x09001FFF], .call (.o14 0x1FFF)), ([0x09808800], .bx 17), ([0x09800001], .ret),
      ([0x0A183FE7], .sloop 12 (.o14 0x3FE7)), ([0x0A800000], .nop), ([0x0A800001], .yield), ([0x0A80A802], .sleep 21),
      ([0x0A800003], .exit)]

theorem test_decode_control : words_control.all (fun p => decodesTo p.1 p.2) = true := by decide +kernel

def words_mask : List (List Word32 × Instr) :=
  [([0x0B081840], .kand 4 3 2), ([0x0B1E71A1], .kor 15 14 13), ([0x0B021062], .kxor 1 2 3), ([0x0B0A1063], .kandn 5 2 3),
      ([0x0B0C3804], .knot 6 7), ([0x0B104805], .kmov 8 9), ([0x0B001006], .kexit 2), ([0x0B876000], .kset 3 44),
      ([0x0BD81801], .kget 44 3), ([0x0BDA2002], .kpopc 45 4), ([0x0BDC2803], .kffs 46 5)]

theorem test_decode_mask : words_mask.all (fun p => decodesTo p.1 p.2) = true := by decide +kernel

def words_vector_integer : List (List Word32 × Instr) :=
  [([0x0C021060], .vadd .w64 ⟨1, 2, .reg 3, 0⟩), ([0x0C841885], .vsub .w32 ⟨2, 3, .reg 4, 1⟩),
      ([0x0D0620AA], .vadds_s .w16 ⟨3, 4, .reg 5, 2⟩), ([0x0D8828CF], .vadds_z .w8 ⟨4, 5, .reg 6, 3⟩),
      ([0x0E0A30F0], .vsubs_s .w64 ⟨5, 6, .reg 7, 4⟩), ([0x0E8C3915], .vsubs_z .w32 ⟨6, 7, .reg 8, 5⟩),
      ([0x0F0E413A], .vmul .w16 ⟨7, 8, .reg 9, 6⟩), ([0x0F90495F], .vmulh_s .w8 ⟨8, 9, .reg 10, 7⟩),
      ([0x10125160], .vmulh_z .w64 ⟨9, 10, .reg 11, 0⟩), ([0x10945985], .vmad .w32 ⟨10, 11, .reg 12, 1⟩ 10),
      ([0x111661A8], .vand ⟨11, 12, .reg 13, 2⟩), ([0x119869CC], .vor ⟨12, 13, .reg 14, 3⟩),
      ([0x121A71F0], .vxor ⟨13, 14, .reg 15, 4⟩), ([0x129C7A14], .vandn ⟨14, 15, .reg 16, 5⟩),
      ([0x131E823A], .vshl .w16 ⟨15, 16, .reg 17, 6⟩), ([0x13A08A5F], .vshr .w8 ⟨16, 17, .reg 18, 7⟩),
      ([0x14229260], .vsra .w64 ⟨17, 18, .reg 19, 0⟩), ([0x14A49A85], .vmin_s .w32 ⟨18, 19, .reg 20, 1⟩),
      ([0x1526A2AA], .vmin_z .w16 ⟨19, 20, .reg 21, 2⟩), ([0x15A8AACF], .vmax_s .w8 ⟨20, 21, .reg 22, 3⟩),
      ([0x162AB2F0], .vmax_z .w64 ⟨21, 22, .reg 23, 4⟩),
      ([0x4C4FF3F1, 0x000004E0, 0xFFFFFFFE], .vadd .w32 ⟨639, 638, .imm 0xFFFFFFFE, 12⟩),
      ([0x8E062007, 0x00000001, 0x80000000], .vsubs_s .w8 ⟨3, 4, .lit 0x8000000000000001, 1⟩),
      ([0x50882210, 0x10C447C8, 0x00000000], .vmad .w8 ⟨65, 66, .reg 67, 9⟩ 68), ([0x16C638C8], .vcmp 4 .w64 3 7 (.reg 6) 2),
      ([0x5687A320, 0x320004D0, 0x00000000], .vcmp 3 .w32 13 100 (.reg 200) 10)]

theorem test_decode_vector_integer : words_vector_integer.all (fun p => decodesTo p.1 p.2) = true := by decide +kernel

def words_vector_unary : List (List Word32 × Instr) :=
  [([0x170A3004], .vnot ⟨5, 6, 1⟩), ([0x170C3829], .vabs .w32 ⟨6, 7, 2⟩), ([0x170E404E], .vneg .w16 ⟨7, 8, 3⟩),
      ([0x17104873], .vclz .w8 ⟨8, 9, 4⟩), ([0x17125094], .vpopc .w64 ⟨9, 10, 5⟩), ([0x171458B8], .vmov ⟨10, 11, 6⟩),
      ([0x170000C1], .viota .w32 0 0), ([0x5700A001, 0x01C00680, 0x00000040], .vli 5 (.imm .z32 64) 0),
      ([0x970A00EC, 0x00000005, 0x00000000], .vli 5 (.lit 5) 3),
      ([0x57258C80, 0x02000558, 0x000C0300], .vbfx_s .w16 ⟨300, 400, 11⟩ 3 12),
      ([0x5725AC88, 0x024006D8, 0x000B0400], .vbfx_z .w32 ⟨301, 401, 11⟩ 4 11),
      ([0x5725CC90, 0x02800458, 0x000A0500], .vbfi .w64 ⟨302, 402, 11⟩ 5 10), ([0x17925178], .vsel ⟨9, 10, .reg 11, 6⟩ 9)]

theorem test_decode_vector_unary : words_vector_unary.all (fun p => decodesTo p.1 p.2) = true := by decide +kernel

def words_vector_float : List (List Word32 × Instr) :=
  [([0x18021060], .vfadd .f64 .rne ⟨1, 2, .reg 3, 0⟩), ([0x18841885], .vfsub .f32 .rne ⟨2, 3, .reg 4, 1⟩),
      ([0x190620AA], .vfmul .bf16 .rne ⟨3, 4, .reg 5, 2⟩), ([0x198828CF], .vfdiv .f16 .rne ⟨4, 5, .reg 6, 3⟩),
      ([0x1A0A30F0], .vfma .f64 .rne ⟨5, 6, .reg 7, 4⟩ 5), ([0x1A8C3915], .vfms .f32 .rne ⟨6, 7, .reg 8, 5⟩ 6),
      ([0x1B0E413A], .vfnma .bf16 .rne ⟨7, 8, .reg 9, 6⟩ 7), ([0x1B90495F], .vfnms .f16 .rne ⟨8, 9, .reg 10, 7⟩ 8),
      ([0x1C125160], .vfmin .f64 ⟨9, 10, .reg 11, 0⟩), ([0x1C945985], .vfmax .f32 ⟨10, 11, .reg 12, 1⟩),
      ([0x1D1661AA], .vfminnum .bf16 ⟨11, 12, .reg 13, 2⟩), ([0x1D9869CF], .vfmaxnum .f16 ⟨12, 13, .reg 14, 3⟩),
      ([0x1E1A71F0], .vfcpys .f64 ⟨13, 14, .reg 15, 4⟩),
      ([0x58190649, 0x000000CA, 0x3F400000], .vfadd .f32 .rup ⟨200, 201, .imm 0x3F400000, 9⟩),
      ([0x1A104949], .vfma .f32 .rne ⟨8, 9, .reg 10, 2⟩ 8), ([0x1EE638C9], .vfcmp 6 .f32 3 7 (.reg 6) 2),
      ([0x1F0E4015], .vfabs .f32 ⟨7, 8, 5⟩), ([0x1F104836], .vfneg .bf16 ⟨8, 9, 5⟩),
      ([0x5F090290, 0x008001C4, 0x00000000], .vfsqrt .f16 .rna ⟨72, 82, 8⟩),
      ([0x5F092298, 0x00C000C4, 0x00000000], .vfrcp .f32 .rna ⟨73, 83, 8⟩),
      ([0x5F0942A0, 0x01000144, 0x00000000], .vfrsq .bf16 .rna ⟨74, 84, 8⟩),
      ([0x5F0962A8, 0x014001C4, 0x00000000], .vfexp2 .f16 .rna ⟨75, 85, 8⟩),
      ([0x5F0982B0, 0x018000C4, 0x00000000], .vflog2 .f32 .rna ⟨76, 86, 8⟩),
      ([0x5F09A2B8, 0x01C00144, 0x00000000], .vfsinpi .bf16 .rna ⟨77, 87, 8⟩),
      ([0x5F09C2C0, 0x020001C4, 0x00000000], .vfcospi .f16 .rna ⟨78, 88, 8⟩),
      ([0x5F09E2C8, 0x024000C4, 0x00000000], .vftanh .f32 .rna ⟨79, 89, 8⟩),
      ([0x5F0A02D0, 0x02800144, 0x00000000], .vfrnd .bf16 .rna ⟨80, 90, 8⟩), ([0x1F249977], .vfclass .f16 ⟨18, 19, 5⟩),
      ([0x5F8280A8, 0x00C00200, 0x00000001], .vfcvt .e4m3 .f32 false .rne ⟨20, 21, 0⟩ 3 0 0 0),
      ([0x5F8280AA, 0x00C00200, 0x00000001], .vfcvt .e4m3 .f32 true .rne ⟨20, 21, 0⟩ 3 0 0 0),
      ([0x5F8280A8, 0x25C21319, 0x00000001], .vfcvt .n4 .f32 false .rtz ⟨20, 21, 3⟩ 7 1 2 33),
      ([0x5F8280A8, 0x0581711A, 0x10000000], .vfdot2 .bf16 .rup ⟨20, 21, .reg 22, 3⟩ 23),
      ([0x5F8280A8, 0x05800198, 0x20000000], .vfscale .f16 .rne ⟨20, 21, .reg 22, 3⟩)]

theorem test_decode_vector_float : words_vector_float.all (fun p => decodesTo p.1 p.2) = true := by decide +kernel

def words_cross_lane : List (List Word32 × Instr) :=
  [([0x200828C6], .vshf_o .w16 ⟨4, 5, 6, 1⟩ 0), ([0x208828C5], .vshf_w .w32 ⟨4, 5, 6, 1⟩ 0),
      ([0x61008028, 0x018007C8, 0x00000008], .vshf_c .w8 ⟨4, 5, 6, 9⟩ 8),
      ([0x6180C038, 0x00800680, 0x00000002], .vnbr 2 .w32 ⟨6, 7, 0⟩ 2),
      ([0x6200C038, 0x0A000618, 0x00000005], .vbcast .w64 ⟨6, 7, 3⟩ 40 5), ([0x228C384C], .vvote 2 ⟨6, 7, 3⟩),
      ([0x23104829], .vred 1 1 .rne ⟨8, 9, 2⟩), ([0x239048AB], .vscan_inc 5 3 .rne ⟨8, 9, 2⟩ 0),
      ([0x63818050, 0x02C0B018, 0x00000000], .vscan_inc 11 0 .rne ⟨12, 10, 3⟩ 11),
      ([0x24104809], .vscan_exc 0 1 .rne ⟨8, 9, 2⟩ 0), ([0x64810048, 0x0280B010, 0x00000000], .vperm ⟨8, 9, 10, 2⟩ 11),
      ([0x251838E0], .vpack .w64 .off ⟨12, 7, 7, 0⟩), ([0x65018039, 0x02000480, 0x00000000], .vpack .w32 .toS ⟨12, 7, 8, 0⟩),
      ([0x25983865], .vunpk .w32 true 1 ⟨12, 7, 1⟩), ([0x26183D24], .vxshf ⟨12, 7, 1⟩ 41)]

theorem test_decode_cross_lane : words_cross_lane.all (fun p => decodesTo p.1 p.2) = true := by decide +kernel

def words_memory : List (List Word32 × Instr) :=
  [([0x280A3402], .ld_s 5 6 .w32 false 8 ⟨0, 0, 0⟩), ([0x280E4110], .ld_s 7 8 .w8 true 0x1FFFF0 ⟨0, 0, 0⟩),
      ([0x68810048, 0x00000600, 0x90000010], .st_s 8 9 .w64 16 ⟨2, 2, 0⟩), ([0x29104861], .ld_v 8 9 3 256 ⟨0, 0, 0⟩),
      ([0x299870E0], .st_v 12 14 7 0 ⟨0, 0, 0⟩), ([0x2A104B65], .ld_g 8 9 .w16 true 3 10 ⟨0, 0, 0⟩),
      ([0x6A010048, 0x00000618, 0x5A1FFFFF], .ld_g 8 9 .w64 false 3 0x1FFFFF ⟨1, 3, 1⟩),
      ([0x2A904C65], .st_g 8 9 .w32 3 20 ⟨0, 0, 0⟩), ([0x2B062C11], .ld_x 2 3 5 .w32 false 0 4 ⟨0, 0, 0⟩),
      ([0x2B0C2C50], .ld_x 2 6 5 .w32 false 2 0 ⟨0, 0, 0⟩), ([0x2B10488F], .ld_x 1 8 9 .w64 false 4 0x1FFF00 ⟨0, 0, 0⟩),
      ([0x2B904A03], .st_x 0 8 9 .w16 0 6 ⟨0, 0, 0⟩), ([0x2C064862], .pf true true 9 3 256),
      ([0x2C00481F], .pf false false 9 0 0x1FFF80), ([0x2C904953], .at_s ⟨9, true, false, .rne, 0, 0, 0⟩ 8 9 10 0),
      ([0x2D125161], .at_g ⟨0, true, false, .rne, 0, 0, 0⟩ 9 10 11 0 0),
      ([0x6D028050, 0x05416600, 0x01400000], .at_g ⟨10, true, false, .rne, 0, 0, 0⟩ 20 10 21 22 0),
      ([0x6D80004E, 0x028000AB, 0xE1600008], .at_x 2 ⟨11, false, true, .rdn, 8, 3, 4⟩ 0 9 10 0 5), ([0x2E00000F], .fence 3 3),
      ([0x2E804940], .cwb 9 10), ([0x2F004940], .cinv 9 10), ([0x6F808028, 0x01807000, 0x00000000], .smap 4 5 6 7),
      ([0x2F886001], .sunmap 4 12)]

theorem test_decode_memory : words_memory.all (fun p => decodesTo p.1 p.2) = true := by decide +kernel

def words_copy : List (List Word32 × Instr) :=
  [([0x30144138], .cpy 0 10 8 (.reg 9) 6), ([0x70014040, 0x00006000, 0x00000800], .cpy 0 10 8 (.imm 2048) 6),
      ([0x30A8B0C0], .cpyt_ld 20 22 6), ([0x30A8B0C1], .cpyt_st 20 22 6), ([0x313C4138], .cpym false 30 8 9 6),
      ([0x31944198], .cpyg 10 8 12 6), ([0x32003160], .bbinit 6 11), ([0x32003181], .bbexp 6 12), ([0x32003002], .bbseal 6),
      ([0x320E3163], .bbwait 7 6 11), ([0x32FFF81F], .waitc 63 63 0 63),
      ([0x72800000, 0x00000000, 0x00A03081], .waitc 1 2 3 40), ([0x33002802], .waitp 2 5), ([0x33840000], .qpush 2),
      ([0x33D00001], .qpop 40), ([0x338A0002], .qstat 5)]

theorem test_decode_copy : words_copy.all (fun p => decodesTo p.1 p.2) = true := by decide +kernel

def words_matrix : List (List Word32 × Instr) :=
  [([0x34180A00], .tidset 12 5), ([0x34D1FC00], .tidget 40 0xFE), ([0x35000000], .mxzero 0),
      ([0x35B88300], .mxstep 7 4 6 .base), ([0x36008310], .mxloop 0 4 6 8 .base),
      ([0x76006020, 0x7D1F5002, 0x00000206], .mxloop 3 4 6 8 (.ext 500 501 .rup)), ([0x36940000], .mxfence 10),
      ([0x37005000], .mxwait 10), ([0x37A80000], .lda 20 0 0), ([0x37A8A061], .sta 20 5 3)]

theorem test_decode_matrix : words_matrix.all (fun p => decodesTo p.1 p.2) = true := by decide +kernel

def words_system : List (List Word32 × Instr) :=
  [([0x380A1800], .bar_arr 5 3), ([0x380A1801], .bar_wait 5 3), ([0x380C1802], .bar_setm 6 3),
      ([0x389020C0], .fwait_pass 8 4 6), ([0x389020C1], .fwait_reach 8 4 6), ([0x39083102], .pmove 4 6 8),
      ([0x39083100], .pinc 4 6 8), ([0x39083101], .pdec 4 6 8), ([0x39A00060], .wemit 16 3 0),
      ([0x39A04861], .wsend 16 9 3 0), ([0x3A0000A0], .wclose 5), ([0x3A500001], .winfo 40 0),
      ([0x3A8A6000], .launch_child 5 12), ([0x3B0A6000], .jobput 5 12), ([0x3B8EA2A0], .wait_v 7 20 21),
      ([0x3B80A001], .wake 20), ([0x3C0A0000], .bow_get 5), ([0x3C000001], .bow_pass), ([0x3C800011], .safe 17),
      ([0x3D120001], .sigrd 9), ([0x3E002100], .trap 0x42), ([0x3E7FFF01], .bkpt 0xFFFE), ([0x3E000002], .retf),
      ([0x3E8828C0], .mappg 4 5 6), ([0x3E882801], .unmappg 4 5), ([0x3E8028C2], .rgrel 5 6), ([0x3E882803], .tunack 4 5),
      ([0x3E8828C4], .scan_run 4 5 6), ([0x3F0A0048], .srd 5 0x09), ([0x3F000071], .swr 0 0x0E),
      ([0x7D000000, 0x00000000, 0x12345678], .sigchk 0x12345678), ([0x7C800000, 0x00000000, 0x80000001], .safe 0x80000001),
      ([0x00000000], .ill 0), ([0x3F800005], .ill 0x3F800005), ([0x3D800000], .ill 0x3D800000)]

theorem test_decode_system : words_system.all (fun p => decodesTo p.1 p.2) = true := by decide +kernel


/-- Words the encoding check of R283 refuses: reserved fields, and types, functions and forms that the tables do not list. -/
def badWords : List (List Word32) :=
  [[0x0A800004], [0x0A820000], [0x0082101B], [0x0082107E], [0x00821035], [0x01021067], [0x45802010, 0x00000000, 0x00000000],
   [0x1F821060], [0x8A800000, 0x00000005, 0x00000000], [0x0803C000], [0x08020001], [0x0882C000], [0x09004000], [0x09020000],
   [0x0B021200], [0x11021061], [0x4C002010, 0x00C00080, 0x00000000], [0x4D002010, 0x00C00700, 0x00000000],
   [0x58002010, 0x00C00085, 0x00000000], [0x58002010, 0x00C00200, 0x00000000], [0x1F0210A0], [0x16E01060],
   [0x56840010, 0x00C00680, 0x00000000], [0x170200E0], [0x57002010, 0x02400780, 0x00030500],
   [0xDF802010, 0x00000080, 0x00000001, 0x00000005, 0x00000000], [0x5F802010, 0x00000780, 0x00000009],
   [0x5F8280A8, 0x01000200, 0x00000001], [0x60002010, 0x00C00600, 0x00000007], [0x60002010, 0x00C00601, 0x00000000],
   [0x23021160], [0x63002010, 0x00800680, 0x00000000], [0x25021063], [0x61802010, 0x00000600, 0x00000021],
   [0x68002010, 0x00000600, 0x80000000], [0x68802010, 0x00000600, 0x40000000], [0x68002010, 0x00000600, 0x06000000],
   [0x68002010, 0x00000600, 0x18000000], [0x68002010, 0x00000080, 0x00000000], [0x2B021018], [0x2F821000],
   [0x6C000010, 0x00000000, 0x40000000], [0x2C821078], [0x6C802010, 0x00C00500, 0x00000000], [0x2E000014], [0x30821063],
   [0x33820003], [0x33021000], [0x36000001], [0x37800002], [0x38021003], [0x39021063], [0x3D000000], [0x3E000003],
   [0x3E821065], [0x3F000002], [0x34800001]]

theorem test_decode_refuses : badWords.all (fun ws => (match decode ws with | .ok _ => false | .error _ => true)) = true := by decide +kernel


/-! ### Scalar, branch and mask instructions -/

/-- s5 and s6 hold the operands. -/
def sc2 (a b : Word64) : State := sReg 5 a (sReg 6 b w0)

/-- Corner cases of R293, R294, R297: the operands, the instruction, and what it writes to s4. -/
theorem test_scalar_corners : ([(sc2 7 0, .sdiv_s 4 5 (.reg 6), -1), (sc2 7 0, .srem_s 4 5 (.reg 6), 7), (sc2 7 0, .sdiv_z 4 5 (.reg 6), -1),
    (sc2 7 0, .srem_z 4 5 (.reg 6), 7), (sc2 (-7) 2, .srem_s 4 5 (.reg 6), -1), (sc2 (-7) 2, .sdiv_s 4 5 (.reg 6), -3),
    (sc2 0x8000000000000000 (-1), .sdiv_s 4 5 (.reg 6), 0x8000000000000000), (sc2 0x8000000000000000 (-1), .srem_s 4 5 (.reg 6), 0),
    (sc2 1 65, .sshl 4 5 (.reg 6), 2), (sc2 1 0, .sshl_imm 4 5 (.i11 0x7FF), 0x8000000000000000), (sc2 0 0, .sclz 4 5, 64), (sc2 0 0, .sctz 4 5, 64),
    (sc2 (-1) (-1), .sadd 4 5 (.reg 6), -2), (sc2 0 1, .ssub 4 5 (.reg 6), -1), (sc2 (-1) (-1), .smulh_s 4 5 (.reg 6), 0),
    (sc2 (-1) (-1), .smulh_z 4 5 (.reg 6), -2), (sc2 (-1) (-1), .smul 4 5 (.reg 6), 1), (sc2 12 10, .sand 4 5 (.reg 6), 8), (sc2 12 10, .sor 4 5 (.reg 6), 14),
    (sc2 12 10, .sxor 4 5 (.reg 6), 6), (sc2 12 10, .sandn 4 5 (.reg 6), 4), (sc2 (-8) 65, .ssra 4 5 (.reg 6), -4), (sc2 (-8) 63, .sshr 4 5 (.reg 6), 1),
    (sc2 0x8000000000000001 1, .srol 4 5 (.reg 6), 3), (sc2 5 64, .srol 4 5 (.reg 6), 5), (sc2 (-1) 1, .smin_s 4 5 (.reg 6), -1), (sc2 (-1) 1, .smin_z 4 5 (.reg 6), 1),
    (sc2 (-1) 1, .smax_s 4 5 (.reg 6), 1), (sc2 (-1) 1, .smax_z 4 5 (.reg 6), -1), (sc2 7 0, .spopc 4 5, 3), (sc2 1 0, .sbrev 4 5, 0x8000000000000000),
    (sc2 0x0102030405060708 0, .sbswap 4 5, 0x0807060504030201), (sc2 9 0, .smov 4 5, 9), (sc2 0x80 0, .sbfx_s 4 5 4 3, -8), (sc2 0x80 0, .sbfx_z 4 5 4 3, 8),
    (sc2 (-1) 0, .sbfi 4 5 56 7, 0xFF00000000000000), (sc2 (-1) 0, .scmp_lt 4 5 (.reg 6), 1), (sc2 (-1) 0, .scmp_ltz 4 5 (.reg 6), 0), (sc2 3 3, .scmp_le 4 5 (.reg 6), 1),
    (sc2 3 3, .scmp_lez 4 5 (.lit 2), 0), (sc2 3 3, .scmp_eq 4 5 (.reg 6), 1), (sc2 3 3, .scmp_ne 4 5 (.reg 6), 0), (sc2 3 9, .ssel 4 5 (.reg 6), 9),
    (sc2 3 0, .sadd_imm 4 5 (.i11 0x7FD), 0), (sc2 (-1) 0, .sand_imm 4 5 (.i11 0x7FD), 0x7FD), (sc2 0 0, .sor_imm 4 5 (.i32 0x80000000), 0x80000000),
    (sc2 5 0, .sxor_imm 4 5 (.lit (-1)), -6), (sc2 8 0, .sshr_imm 4 5 (.i11 3), 1), (sc2 (-8) 0, .ssra_imm 4 5 (.i11 3), -1), (sc2 0 0, .sli 4 (.i11 0x400), -1024),
    (sc2 0 0, .sadr 4 (.i11 0x7FF), 0x40FFFFFFFC)]
    : List (State × Instr × Word64)).all (fun p => rS (after p.2.1 p.1) 4 == p.2.2) = true := by decide +kernel

/-- Scalar float corners of R248, R253, R256, R301: the result in s4 and FPSTAT (NX 1, UF 2, OF 4, DZ 8, IV 16). -/
theorem test_scalar_float : ([(sc2 0x3F800000 0x80000000, .sfdiv .f32 .rne 4 5 (.reg 6), 0xFF800000, 8), (sc2 0x7FC00000 0x3F800000, .sfcmp 2 .f32 4 5 (.reg 6), 0, 16),
    (sc2 0x7FC00000 0x3F800000, .sfcmp 1 .f32 4 5 (.reg 6), 1, 0), (sc2 0x421BF08EB0000000 0, .sfcvt .s32 .f64 .rne 4 5, 0x7FFFFFFF, 16),
    (sc2 0x3F800000 0x33800000, .sfadd .f32 .rne 4 5 (.reg 6), 0x3F800000, 1), (sc2 0x3F800000 0x33800000, .sfadd .f32 .rup 4 5 (.reg 6), 0x3F800001, 1),
    (sc2 0x3FC00000 0x3FC00000, .sfsub .f32 .rdn 4 5 (.reg 6), 0x80000000, 0), (sc2 0x7F7FFFFF 0x40000000, .sfmul .f32 .rtz 4 5 (.reg 6), 0x7F7FFFFF, 5),
    (sc2 0x4000000000000000 0, .sfsqrt .f64 .rne 4 5, 0x3FF6A09E667F3BCD, 1), (sc2 0xBF800000 0, .sfsqrt .f32 .rne 4 5, 0x7FC00000, 16),
    (sc2 0x3F800800 0x3F800800, .sfma .f32 .rne 4 5 (.reg 6) 0, 0x3F801000, 1), (sc2 0x3F800000 0, .sfadd_code .f32 4 5 0x38, 0x40200000, 0),
    (sc2 0x3C00 0, .sfmul_code .f16 4 5 0xB8, 0xBE00, 0), (sc2 0xFFFF3F80 0, .sfadd_code .bf16 4 5 0x30, 0x4000, 0)]
    : List (State × Instr × Word64 × FFlags)).all
      (fun p => rS (after p.2.1 p.1) 4 == p.2.2.1 && (after p.2.1 p.1).g.fpstat == p.2.2.2) = true := by decide +kernel

/-- Where control goes (R302 to R304): the pc after, from 0x41_0000_0000. -/
theorem test_control : ([(sc2 0 0, .b (.o14 0x3FFE), 0x40FFFFFFF8), (sc2 0 0, .bz 5 (.o14 2), 0x4100000008), (sc2 1 0, .bz 5 (.o14 2), 0x4100000004),
    (sc2 1 0, .bnz 5 (.o32 2), 0x4100000008), (sc2 (-1) 0, .bc_lt 5 (.o14 2), 0x4100000008), (sc2 0 0, .bc_ge 5 (.o14 2), 0x4100000008),
    (sc2 0 0, .bc_gt 5 (.o14 2), 0x4100000004), (sc2 1 0, .bc_le 5 (.o14 2), 0x4100000004), (sc2 0 0, .bk_any 0 (.o14 2), 0x4100000008),
    (sc2 0 0, .bk_all 0 (.o14 2), 0x4100000008), (sc2 0 0, .bk_none 0 (.o14 2), 0x4100000004), (sc2 0 0, .call (.o14 4), 0x4100000010),
    (sc2 0x4100000020 0, .bx 5, 0x4100000020), (sReg 63 0x4100000024 w0, .ret, 0x4100000024), (sc2 0 0, .sloop 5 (.o14 3), 0x410000000C),
    (sc2 1 0, .sloop 5 (.o14 3), 0x4100000004), (sc2 0 0, .nop, 0x4100000004), (sc2 0 0, .yield, 0x4100000004), (sc2 9 0, .sleep 5, 0x4100000004)]
    : List (State × Instr × BitVec 56)).all (fun p => (after p.2.1 p.1).g.pc == p.2.2) = true := by decide +kernel

theorem test_call_sloop_sleep : rS (after (.call (.o14 4)) w0) 63 = 0x4100000004 ∧ rS (after (.sloop 5 (.o14 3)) (sc2 0 0)) 5 = -1
    ∧ (after (.sleep 5) (sc2 9 0)).g.status = .sleeping ∧ (after (.sleep 5) (sc2 9 0)).g.wakeAt = w0.nsec + 9
    ∧ after (.bx 5) (sc2 0x4100000002 0) = raiseW { flt 3 with acc := 3, va := 0x4100000002 } (sc2 0x4100000002 0) := by decide +kernel

/-- The worked case of R310, and the other mask instructions on k2 = 0xF0, k3 = 0x3C. -/
def k2s : State := kReg 2 0xF0 (kReg 3 0x3C (sc2 255 0))

theorem test_mask : ([(.kand 4 2 3, 0x30), (.kor 4 2 3, 0xFC), (.kxor 4 2 3, 0xCC), (.kandn 4 2 3, 0xC0), (.knot 4 2, 0xFFFFFF0F), (.kmov 4 2, 0xF0), (.kset 4 5, 0xFF),
      (.kset 0 5, 0)] : List (Instr × Word32)).all (fun p => rK (after p.1 k2s) 4 == p.2) = true
    ∧ rK (after (.kset 0 5) k2s) 0 = 0xFFFFFFFF ∧ (after (.kexit 2) k2s).g.live = 0xFFFFFF0F ∧ rS (after (.kpopc 6 0) (after (.kexit 2) k2s)) 6 = 28
    ∧ rS (after (.kffs 6 2) k2s) 6 = 4 ∧ rS (after (.kffs 6 0) (after (.kexit 0) k2s)) 6 = 32 ∧ rS (after (.kget 6 3) k2s) 6 = 0x3C := by decide +kernel

/-! ### Witnesses: scalar, branch, mask -/

theorem witness_ScalarUnaryResult : (0 : BitVec 6).toNat + (63 : BitVec 6).toNat < 64 ∧ (63 : BitVec 6).toNat + (0 : BitVec 6).toNat < 64 := by decide

theorem witness_BranchResult :
    canonical (w0.g.pc.signExtend 64 + ((0x1FFF : BitVec 14).signExtend 64 <<< 2)) = true ∧ canonical (rS (sc2 0x4100000003 0) 5) = true ∧ (rS (sc2 0x4100000003 0) 5).toNat % 4 ≠ 0
    ∧ canonical (rS (sc2 0x0100000000000000 0) 5) = false
    ∧ (let s := { w0 with g := { w0.g with pc := 0x7FFFFFFFFFFFFC } }; canonical (branchTarget s (.o14 1)) = false ∧ rS s 5 ≠ 1) := by decide +kernel

theorem witness_ControlFlowResult :
    canonical (w0.g.pc.signExtend 64 + ((0x2000 : BitVec 14).signExtend 64 <<< 2)) = true ∧ (rS (sReg 63 0xFFFFFFFFFFFFFFFC (sc2 0xFFFFFFFFFFFFFFFC 0)) 5).toNat % 4 = 0
    ∧ canonical (rS (sc2 0xFFFFFFFFFFFFFFFC 0) 5) = true ∧ rS (sc2 1 0) 5 = 1 ∧ readyPeers w0 = []
    ∧ readyPeers { w0 with rest := [{ w0.g with idn := { w0.g.idn with gid := 9 } }] } ≠ [] ∧ Nat.min (rS w0 5).toNat (2 ^ 32 - 1) = 0
    ∧ Nat.min (rS (sc2 (-1) 0) 5).toNat (2 ^ 32 - 1) ≠ 0 := by decide +kernel

/-- A loop that ends goes on whatever its target is (R304). -/
theorem test_sloop_end : (let s := sc2 1 0
    let u := { s with g := { s.g with pc := 0x7FFFFFFFFFFFFC } }
    canonical (branchTarget u (.o14 1)) = false ∧ (after (.sloop 5 (.o14 1)) u).g.pc = nextPc u) := by decide +kernel

theorem test_yield : (after .yield { w0 with rest := [{ w0.g with idn := { w0.g.idn with gid := 9 } }] }).g.status = .yielded := by decide +kernel

/-! ### Vector instructions -/

/-- Only lane 31 is live; v1 and v2 hold a and b there. -/
def vc2 (a b : Word64) : State :=
  { w0 with g := { w0.g with live := 0x80000000, vregs := cellPut (cellPut [] 63 a) 95 b } }

/-- Lane 31 of one more register. -/
def v31 (r : Nat) (a : Word64) (s : State) : State := { s with g := { s.g with vregs := cellPut s.g.vregs (32 * r + 31) a } }

def b12 : VBin := ⟨4, 1, .reg 2, 0⟩

/-- Integer vector functions (R315 to R318, R333): the operands, the instruction, and lane 31 of v4. -/
theorem test_vector_integer : ([(vc2 0xFF00000000000001 0x0200000000000001, .vadd .w8 b12, 0x0100000000000002), (vc2 0 1, .vsub .w16 b12, 0xFFFF),
    (vc2 0x7F80 0x0180, .vadds_s .w8 b12, 0x7F80), (vc2 0xFF01 0x0201, .vadds_z .w8 b12, 0xFF02), (vc2 0x8000 0x0100, .vsubs_s .w8 b12, 0x8000),
    (vc2 0x0103 0x0202, .vsubs_z .w8 b12, 0x0001), (vc2 0x0001000300000005 0x0002000400000006, .vmul .w16 b12, 0x0002000C0000001E),
    (vc2 (-1) (-1), .vmulh_s .w32 b12, 0), (vc2 (-1) (-1), .vmulh_z .w32 b12, 0xFFFFFFFEFFFFFFFE), (vc2 3 5, .vmad .w64 b12 1, 18),
    (vc2 12 10, .vand b12, 8), (vc2 12 10, .vor b12, 14), (vc2 12 10, .vxor b12, 6), (vc2 12 10, .vandn b12, 4), (vc2 0x8101 0x0901, .vshl .w8 b12, 0x0202),
    (vc2 0xFF 9, .vshr .w8 b12, 0x7F), (vc2 0x80 9, .vsra .w8 b12, 0xC0), (vc2 0xFF01 0x0102, .vmin_s .w8 b12, 0xFF01), (vc2 0xFF01 0x0102, .vmin_z .w8 b12, 0x0101),
    (vc2 0xFF01 0x0102, .vmax_s .w8 b12, 0x0102), (vc2 0xFF01 0x0102, .vmax_z .w8 b12, 0xFF02), (vc2 0xFF 0x0F, .vsel b12 2, 0x0F),
    (vc2 5 0, .vadd .w64 ⟨4, 1, .imm 0xFFFFFFFF, 0⟩, 4), (vc2 5 0, .vadds_z .w64 ⟨4, 1, .imm 0xFFFFFFFF, 0⟩, 0x100000004),
    (vc2 0 0, .vadd .w16 ⟨4, 1, .imm 0x12345, 0⟩, 0x2345234523452345),
    (vc2 0 0, .vnot ⟨4, 1, 0⟩, -1), (vc2 0x80000000 0, .vabs .w32 ⟨4, 1, 0⟩, 0x80000000), (vc2 1 0, .vneg .w8 ⟨4, 1, 0⟩, 0xFF),
    (vc2 0 0, .vclz .w16 ⟨4, 1, 0⟩, 0x0010001000100010), (vc2 0xFF 0, .vpopc .w32 ⟨4, 1, 0⟩, 8), (vc2 77 0, .vmov ⟨4, 1, 0⟩, 77),
    (w0, .viota .w32 4 0, 0x0000003F0000003E), (w0, .vli 4 (.imm .z32 64) 0, 0x0000004000000040), (vc2 0x80 0, .vbfx_s .w8 ⟨4, 1, 0⟩ 4 3, 0xF8),
    (vc2 0x80 0, .vbfx_z .w8 ⟨4, 1, 0⟩ 4 3, 8), (vc2 0xFFFFFFFF 0, .vbfi .w16 ⟨4, 1, 0⟩ 8 3, 0x0F000F00)]
    : List (State × Instr × Word64)).all (fun p => rV (after p.2.1 p.1) 4 31 == p.2.2) = true := by decide +kernel

/-- Only acting lanes are written; a comparison replaces only their bits; an empty act writes nothing. -/
theorem test_vector_mask : (let s := kReg 1 0x1 (kReg 3 0xF0 (vReg 1 (fun _ => 5) (vReg 2 (fun _ => 6) w0))); rV (after (.vadd .w64 ⟨4, 1, .reg 2, 1⟩) s) 4 0 = 11
      ∧ rV (after (.vadd .w64 ⟨4, 1, .reg 2, 1⟩) s) 4 1 = 0 ∧ rK (after (.vcmp 2 .w64 3 1 (.reg 2) 1) s) 3 = 0xF1
      ∧ rK (after (.vfcmp 2 .f64 3 1 (.reg 2) 0) s) 3 = 0xFFFFFFFF)
    ∧ (after (.vfdiv .f32 .rne b12) { (vc2 0x3F800000 0) with g := { (vc2 0x3F800000 0).g with live := 0 } }).g.fpstat = 0 := by decide +kernel

/-- Float vector functions (R321 to R332, R333): lane 31 of v4 and FPSTAT. -/
theorem test_vector_float : ([(vc2 0x3F8008003F800800 0x3F8008003F800800, .vfmul .f32 .rne b12, 0x3F8010003F801000, 1),
    (v31 4 0xBF801000BF801000 (vc2 0x3F8008003F800800 0x3F8008003F800800), .vfma .f32 .rne b12 4, 0x3380000033800000, 0),
    (v31 4 0x3F8010003F801000 (vc2 0x3F8008003F800800 0x3F8008003F800800), .vfms .f32 .rne b12 4, 0x3380000033800000, 0),
    (v31 4 0xBF801000BF801000 (vc2 0x3F8008003F800800 0x3F8008003F800800), .vfnma .f32 .rne b12 4, 0xB3800000B3800000, 0),
    (v31 4 0x3F8010003F801000 (vc2 0x3F8008003F800800 0x3F8008003F800800), .vfnms .f32 .rne b12 4, 0xB3800000B3800000, 0),
    (vc2 0x3FF0000000000000 0x3FE0000000000000, .vfsub .f64 .rne b12, 0x3FE0000000000000, 0), (vc2 0x3C003C003C003C00 0x4200420042004200, .vfdiv .f16 .rne b12, 0x3555355535553555, 1),
    (vc2 0x3F803F803F803F80 0x3F803F803F803F80, .vfadd .bf16 .rne b12, 0x4000400040004000, 0),
    (vc2 0x8000000080000000 0, .vfmax .f32 b12, 0, 0), (vc2 0xFFC00000FFC00000 0x4040000040400000, .vfmin .f32 b12, 0xFFC00000FFC00000, 0),
    (vc2 0xFFC00000FFC00000 0x4040000040400000, .vfminnum .f32 b12, 0x4040000040400000, 0), (vc2 0x3F8000003F800000 0x4040000040400000, .vfmaxnum .f32 b12, 0x4040000040400000, 0),
    (vc2 0x3F8000003F800000 0x8000000080000000, .vfcpys .f32 b12, 0xBF800000BF800000, 0), (vc2 0xBF800000BF800000 0, .vfabs .f32 ⟨4, 1, 0⟩, 0x3F8000003F800000, 0),
    (vc2 0 0, .vfneg .f64 ⟨4, 1, 0⟩, 0x8000000000000000, 0), (vc2 0x8000800080008000 0, .vfsqrt .bf16 .rne ⟨4, 1, 0⟩, 0x8000800080008000, 0),
    (vc2 0 0, .vfrcp .f32 .rne ⟨4, 1, 0⟩, 0x7F8000007F800000, 8), (vc2 0x4080000040800000 0, .vfrsq .f32 .rne ⟨4, 1, 0⟩, 0x3F0000003F000000, 0),
    (vc2 0x4040000040400000 0, .vfexp2 .f32 .rne ⟨4, 1, 0⟩, 0x4100000041000000, 0), (vc2 0x4100000041000000 0, .vflog2 .f32 .rne ⟨4, 1, 0⟩, 0x4040000040400000, 0),
    (vc2 0x3F0000003F000000 0, .vfsinpi .f32 .rne ⟨4, 1, 0⟩, 0x3F8000003F800000, 0), (vc2 0x3F8000003F800000 0, .vfcospi .f32 .rne ⟨4, 1, 0⟩, 0xBF800000BF800000, 0),
    (vc2 0x7F8000007F800000 0, .vftanh .f32 .rne ⟨4, 1, 0⟩, 0x3F8000003F800000, 0), (vc2 0x7BFF7BFF7BFF7BFF 0, .vfrnd .f16 .rup ⟨4, 1, 0⟩, 0x7BFF7BFF7BFF7BFF, 0),
    (vc2 0x7F8000017F800001 0, .vfclass .f32 ⟨4, 1, 0⟩, 0x0000010000000100, 0), (vc2 0x3E003E003E003E00 0xFFE7FFE7FFE7FFE7, .vfscale .f16 .rne b12, 0x0001000100010001, 3),
    (v31 3 0x3F8000003F800000 (vc2 0x3C003C003C003C00 0x4000400040004000), .vfdot2 .f16 .rne b12 3, 0x40A0000040A00000, 0),
    (vc2 0x4072C00000000000 0, .vfcvt .s8 .f64 false .rne ⟨4, 1, 0⟩ 0 0 0 0, 0x7F, 16)]
    : List (State × Instr × Word64 × FFlags)).all
      (fun p => rV (after p.2.1 p.1) 4 31 == p.2.2.1 && (after p.2.1 p.1).g.fpstat == p.2.2.2) = true := by decide +kernel

/-- The worked case of R328: part 3 of an e4m3 register, lanes 0, 1 and 31, and FPSTAT. -/
theorem test_vfcvt_worked : (let s := vReg 1 (fun l => if l = 0 then 0x3E99999A43FA0000 else if l = 1 then 0x3A83126F80000000 else 0x3F8000003F800000) w0
    let t := after (.vfcvt .e4m3 .f32 false .rne ⟨4, 1, 0⟩ 3 0 0 0) s
    let n := after (.vfcvt .e4m3 .f32 true .rne ⟨4, 1, 0⟩ 3 0 0 0) s
    rV t 4 0 = 0x2A7E000000000000 ∧ rV t 4 1 = 0x0180000000000000 ∧ rV t 4 31 = 0x3838000000000000 ∧ t.g.fpstat = 7 ∧ rV n 4 0 = 0x2A7F000000000000
    ∧ n.g.fpstat = 7) := by decide +kernel

/-- Cross-lane instructions (R337 to R349, R352): lane l of v4. v1 holds lane numbers plus 100, v2 a value in every lane. -/
def vx (b : Word64) : State := vReg 1 (fun l => BitVec.ofNat 64 (100 + l)) (vReg 2 (fun _ => b) w0)

theorem test_cross_lane : ([(vx 70, .vshf_o .w64 ⟨4, 1, 2, 0⟩ 0, 9, 109), (vx 5, .vshf_o .w64 ⟨4, 1, 2, 0⟩ 0, 9, 105), (vx 70, .vshf_w .w64 ⟨4, 1, 2, 0⟩ 0, 9, 106),
    (vx (-1), .vshf_c .w64 ⟨4, 1, 2, 0⟩ 2, 9, 111), (vx 0, .vnbr 0 .w64 ⟨4, 1, 0⟩ 0, 0, 0), (vx 0, .vnbr 0 .w64 ⟨4, 1, 0⟩ 2, 2, 100),
    (vx 0, .vnbr 4 .w64 ⟨4, 1, 0⟩ 32, 7, 107), (vx 0, .vnbr 4 .w64 ⟨4, 1, 0⟩ 1, 31, 100), (sReg 5 (-1) (vx 0), .vbcast .w64 ⟨4, 1, 0⟩ 5 2, 9, 111),
    (kReg 1 1 (vx 0), .vvote 1 ⟨4, 2, 1⟩, 0, 0), (vx 0, .vvote 0 ⟨4, 1, 0⟩, 0, 1), (vx 0, .vvote 2 ⟨4, 1, 0⟩, 0, 0xFFFFFFFF), (vx 0x47, .vperm ⟨4, 1, 2, 0⟩ 2, 0, 107),
    (vx 0x67, .vperm ⟨4, 2, 1, 0⟩ 2, 0, 107), (vx 0x67, .vpack .w64 .off ⟨4, 1, 1, 0⟩, 0, 0x0000006500000064), (vx (-1), .vpack .w64 .toZ ⟨4, 2, 1, 0⟩, 0, 0xFFFFFFFFFFFFFFFF),
    (vx (-1), .vpack .w64 .toS ⟨4, 2, 1, 0⟩, 16, 0x0000006500000064), (vx 0x80, .vunpk .w8 true 0 ⟨4, 2, 0⟩, 0, 0x000000000000FF80),
    (vx 0, .vred 0 0 .rne ⟨4, 1, 0⟩, 31, 3696), (vx 0, .vred 4 0 .rne ⟨4, 1, 0⟩, 0, 131), (vx 0, .vscan_inc 0 0 .rne ⟨4, 1, 0⟩ 0, 2, 303),
    (vx 0, .vscan_exc 0 0 .rne ⟨4, 1, 0⟩ 0, 2, 201), (vx 0, .vscan_exc 6 1 .rne ⟨4, 1, 0⟩ 0, 0, 0x000000647F800000)]
    : List (State × Instr × Nat × Word64)).all (fun p => rV (after p.2.1 p.1) 4 p.2.2.1 == p.2.2.2) = true := by decide +kernel

/-- The worked cases of R344 and R346: a reduction by the tree, and an affine scan. -/
theorem test_reduce_scan_worked :
    (let s := kReg 2 3 (vReg 1 (fun l => if l = 0 then 0x3F8000004B800000 else if l = 1 then 0x3F8000003F800000 else 0) w0)
     let t := after (.vred 1 1 .rne ⟨4, 1, 2⟩) s
     rV t 4 0 = 0x4B8000014B800001 ∧ rV t 4 1 = 0x4B8000014B800001 ∧ rV t 4 2 = 0 ∧ t.g.fpstat = 1)
    ∧ (let s := kReg 3 15 (vReg 1 (fun _ => 0x3FE0000000000000) (vReg 2 (fun l => if l = 0 then 0x3FF0000000000000 else if l = 1 then 0x4000000000000000
          else if l = 2 then 0x4008000000000000 else 0x4010000000000000) w0))
       let t := after (.vscan_inc 11 0 .rne ⟨4, 1, 3⟩ 2) s
       rV t 1 3 = 0x3FB0000000000000 ∧ rV t 4 3 = 0x4018800000000000 ∧ rV t 4 2 = 0x4011000000000000 ∧ rV t 1 4 = 0x3FE0000000000000) := by decide +kernel


/-! ### Witnesses: vector instructions -/

/-- The highest register the group has, v31, in every place. -/
theorem witness_VectorIntegerResult : canName w0 [31, 0, 31, 31] := by unfold canName; decide +kernel

theorem witness_VectorUnaryAndCompareResult : (0 : BitVec 6).toNat + (7 : BitVec 6).toNat < IW.w8.width ∧ (63 : BitVec 6).toNat + (0 : BitVec 6).toNat < IW.w64.width
    ∧ canName w0 [31, 31] := by unfold canName; decide +kernel

theorem witness_VectorFloatResult : canName w0 [31, 0, 31, 31] := by unfold canName; decide +kernel

/-- A scale register whose bytes all have E = 63, and one whose bytes have E = 0. -/
theorem witness_ConversionResult : canName w0 [31, 0, 2]
    ∧ cvtBadScale .n4 .f32 1 0 (fun j => scaleByte (vReg 2 (fun _ => -1) w0) 2 (n4Block 0 0 j)) = true
    ∧ cvtBadScale .n4 .f32 1 0 (fun j => scaleByte w0 2 (n4Block 3 3 j)) = false := by unfold canName; decide +kernel

theorem test_vfcvt_n4_scale : after (.vfcvt .n4 .f32 false .rne ⟨4, 1, 0⟩ 0 0 0 2) (vReg 2 (fun _ => -1) w0) = raiseI 1 (vReg 2 (fun _ => -1) w0) := by decide +kernel

theorem witness_ElementMoveResult : (8 : BitVec 4).toNat ≤ IW.w8.logN ∧ (0 : BitVec 4).toNat ≤ IW.w64.logN ∧ canName w0 [31, 0, 31, 31] ∧ (2 : BitVec 2) ≠ 3
    ∧ (Instr.vshf_o .w8 ⟨31, 0, 31, 0⟩ 8).wf = true ∧ (Instr.vunpk .w8 true 1 ⟨31, 0, 0⟩).wf = true := by unfold canName; decide +kernel

theorem witness_ReductionAndScanResult : (10 : BitVec 4).toNat < 11 ∧ canName w0 [31, 0] ∧ (31 : VReg) ≠ 0 ∧ canName w0 [31, 0, 31] := by unfold canName; decide +kernel

/-- Group 1 with chain partner 2 to its left, which has made its posting; and a match that its partner has left for it. -/
def wc : State :=
  { w0 with g := { w0.g with chainr := 0x00000010, chPoL := 1, idn := { w0.g.idn with ngrp := 2, gidx := 0 } }
            d := { w0.d with xposts := [{ src := 2, dst := w0.g.idn.gid, reply := true, word := 0, act := 1, data := 77 }] } }

theorem witness_NeighbourAndPairResult : canName w0 [31, 0] ∧ (0 : BitVec 3).toNat % 3 = 0 ∧ (4 : BitVec 3).toNat % 3 = 1 ∧ (5 : BitVec 3).toNat % 3 = 2
    ∧ chRd wc.g false + 1 ≤ chPo wc.g false ∧ linkOf w0 false = none ∧ (let s := { w0 with g := { w0.g with chPoL := 1 } }; chRd s.g false + 1 ≤ chPo s.g false)
    ∧ wc.g.idn.kind ≠ .window ∧ wc.g.idn.kind ≠ .job ∧ xwBad (rS wc 5) = false
    ∧ (wc.d.xposts.find? (fun p => p.reply && p.dst == wc.g.idn.gid)).isSome = true := by unfold canName; decide +kernel

theorem test_vxshf_matched : (let t := after (.vxshf ⟨4, 1, 0⟩ 5) (vReg 1 (fun _ => 5) wc); rV t 4 0 = 77 ∧ rV t 4 1 = 5)
    ∧ (after (.vnbr 2 .w64 ⟨4, 1, 0⟩ 1) { w0 with g := { w0.g with chPoL := 1 } }).g.chz = true := by decide +kernel

/-! ### Memory instructions -/

/-- One part of two 4 KiB pages at 64 KiB of core 0's SRAM. -/
def part0 : PartEnt := { v := true, st := false, core := 0, base := 16, size := 2, groups := 1, exited := 0, left := false }

def team1 : Team := { Team.nil with grid := 7, ctx := 1, parts := [part0] }

/-- The group in team 1, with a scratch address in s2, a global address in s3 and per-lane addresses in v2 and v3. -/
def wm : State :=
  let s := sReg 2 0xFE000010 (sReg 3 0x4100000100 w0)
  let s := vReg 2 (fun l => BitVec.ofNat 64 (0xFE000100 + 8 * l)) (vReg 3 (fun l => BitVec.ofNat 64 (0x4100000100 + 4 * l)) s)
  { s with g := { s.g with idn := { s.g.idn with team := 1, work := 7 } }, d := { s.d with teams := [(1, team1)] } }

/-- Only lane 0 and lane 31 live. -/
def wm2 : State := { wm with g := { wm.g with live := 0x80000001 } }

/-- A sector of the context in core 0's L1: VA 0x41_0000_0100 at PA 0x4000_0100. -/
def sec1 : L1Sec :=
  { ctx := 1, vsec := 0x4100000100 / 128, rd := true, wr := true, ex := false, sup := false, stash := false, valid := -1, data := 0x0807060504030281, poison := 0,
    p := 0, o := 0, w := 0, kept := 0, reg := 0, drop := 0, used := 0 }

def secNo : Nat := 0x40000100 / 128

def wh : State := { wm2 with m := { wm2.m with l1 := [(secNo, sec1)], regions := cellPut [] 0x4000 0x8000, rmap := [(0x4000, vGranTag 1 0x4100000100)] } }

def q0 : MemQ := ⟨0, 0, 0⟩

def readsOf (s : State) : Bool :=
  let f := fun (ls : List LaneAcc) => ls.all (fun a => a.ok) && decide (s.g.n.ld < 63) && s.g.hostDue == 0 && !partStarting s ls && !fillsPending s ls && !homesWait s true ls
    && !atomBefore s ls && !acqWaits s 4 ls && stuckSegs s ls == [] && snoopsOf s false ls == [] && hostSegs ls == []
  f (globScalar s 0 1 8 3 0) && f (globContig s 0 1 3 0 s.g.live) && f (globGather s 0 1 4 3 0 s.g.live) && f (scrScalar s 1 8 2 0)
    && f (scrContig s 1 2 0 s.g.live) && f (scrGather s 1 8 2 0 s.g.live)

def writesOf (s : State) : Bool :=
  let f := fun (ls : List LaneAcc) => ls.all (fun a => a.ok) && !isDet s s.g && decide (s.g.n.sts.length < 63) && !partStarting s ls && !storesWait s 0 ls && !storesWait s 1 ls && !storesWait s 2 ls
    && !fillsPending s ls && !releaseWaits s 4 && stuckSegs s ls == []
  f (globScalar s 1 1 8 3 0) && f (globContig s 1 1 3 0 s.g.live) && f (globGather s 1 1 4 3 0 s.g.live) && f (scrScalar s 1 8 2 0)
    && f (scrContig s 1 2 0 s.g.live) && f (scrGather s 1 8 2 0 s.g.live)

/-- Lanes that pass their checks and wait for nothing, for each of the six forms of a load and of a store, at an L1 that misses and
at one that hits. -/
theorem witness_AccessCompletes : readsOf wm2 = true ∧ readsOf wh = true ∧ writesOf wm2 = true ∧ writesOf wh = true ∧ canName wm2 [31, 3] := by
  unfold canName; decide +kernel

def offEnd (r : SReg) (v : Word64) : State := sReg r v wm2

/-- The last 8 bytes of the allocation pass, one byte further fails; so do the lanes of the other forms. -/
theorem witness_ScratchLoadResult : (scrLane (offEnd 2 0xFE001FF8) 1 0 (rS (offEnd 2 0xFE001FF8) 2) 0 8).scr = some ⟨0, 0x11FF8, 0⟩
    ∧ (scrLane (offEnd 2 0xFE001FF9) 1 0 (rS (offEnd 2 0xFE001FF9) 2) 0 8).scr = none ∧ sramPoisoned wm2 0 0x11FF8 8 = false ∧ keepsL1 q0
    ∧ (scrContig wm2 1 2 0 wm2.g.live).map (fun a => (a.lane, a.scr)) = [(0, some ⟨0, 0x10010, 0⟩), (31, some ⟨0, 0x10108, 0⟩)]
    ∧ (scrGather wm2 1 4 2 0 wm2.g.live).map (fun a => (a.lane, a.scr)) = [(0, some ⟨0, 0x10100, 0⟩), (31, some ⟨0, 0x101F8, 0⟩)] := by
  unfold keepsL1; decide +kernel

/-- A hit: the segment of each lane, in the sector the core holds, its bytes valid and not poisoned. -/
theorem witness_GlobalHitLoadResult : (globLane wh 0 1 0 0x4100000178 8).segs.map (fun g => (g.hit, g.n, g.pa)) = [(true, 8, 0x40000178)]
    ∧ (globGather wh 0 1 4 3 0 wh.g.live).map (fun a => a.segs.map (fun g => (g.hit, g.n, g.pa))) = [[(true, 4, 0x40000100)], [(true, 4, 0x4000017C)]]
    ∧ (l1At wh 0 secNo).map (fun x => (x.poison, x.valid)) = some (0, -1) ∧ isDet wh wh.g = false ∧ w0.m.l1 = [] ∧ homeRoom w0 secNo
    ∧ aliasKnown wh 0 1 0x4100000100 (128 * secNo) ∧ readsOf wh = true := by unfold homeRoom aliasKnown; decide +kernel

theorem test_loads : rS (after (.ld_s 4 3 .w8 true 0 q0) wh) 4 = 0xFFFFFFFFFFFFFF81 ∧ rS (after (.ld_s 4 3 .w16 false 0 q0) wh) 4 = 0x0281
    ∧ rV (after (.ld_g 4 3 .w32 false 0 0 q0) wh) 4 0 = 0x04030281 ∧ rV (after (.ld_g 4 3 .w32 false 0 0 q0) wh) 4 31 = 0
    ∧ rV (after (.ld_v 4 3 0 0 q0) wh) 4 0 = 0x0807060504030281 := by decide +kernel

/-- What is stored to a scratchpad is what a load reads; higher lanes overwrite lower ones. -/
theorem test_scratch : (let s := sReg 5 0x1122334455667788 wm2
    rS (after (.ld_x 0 4 2 .w16 false 0 1 q0) (after (.st_x 0 5 2 .w64 0 0 q0) s)) 4 = 0x6677)
    ∧ (let s := vReg 1 (fun l => BitVec.ofNat 64 (7 + l)) wm2
       let t := after (.st_x 1 1 2 .w64 0 0 q0) s
       let u := after (.st_x 2 1 4 .w64 0 0 q0) (vReg 4 (fun _ => 0xFE000040) s)
       rV (after (.ld_x 1 3 2 .w64 false 0 0 q0) t) 3 31 = 38 ∧ sramBytes u 0 0x10040 8 = 38 ∧ rV (after (.ld_x 2 3 2 .w64 false 0 0 q0) s) 3 31 = 0) := by decide +kernel

theorem witness_ScratchStoreResult : (scrLane (offEnd 2 0xFE001FF8) 1 0 (rS (offEnd 2 0xFE001FF8) 2) 0 8).scr = some ⟨0, 0x11FF8, 0⟩ ∧ writesOf wm2 = true := by decide +kernel

theorem witness_GlobalStoreResult :
    (globLane wh 1 1 0 0x4100000178 8).segs.map (fun g => (g.hit, g.n, g.pa, g.va)) = [(true, 8, 0x40000178, 0x4100000178)] ∧ secNo < 2 ^ 45
    ∧ (l1At wh 0 secNo).isSome = true ∧ aliasKnown wh 0 1 0x4100000178 0x40000178 ∧ writesOf wh = true ∧ noReplay wh
    ∧ (globLane wm2 1 1 0 0x4100000178 8).segs.map (fun g => (g.hit, g.n, g.pa, leafKind g.x.leaf, setD g.x.leaf == g.x.leaf)) = [(false, 8, 0x40000178, 0, true)]
    ∧ l1At wm2 0 secNo = none ∧ noReplay wm2 := by unfold aliasKnown noReplay; decide +kernel

/-- Lanes 0 and 1 live: in every form both lie in the one sector. -/
def two (s : State) : State := { s with g := { s.g with live := 3 } }

/-- The pieces of a vector store's lanes at s3 and v3: lane, bytes, address, hit, and where it misses a leaf that is on chip and dirty. -/
def vsegs (s : State) : List (Nat × Nat × Nat × Bool × Bool) :=
  (globContig s 1 1 3 0 s.g.live ++ globGather s 1 1 4 3 0 s.g.live).flatMap (fun a => a.segs.map (fun g =>
    (a.lane, g.n, g.pa, g.hit, decide (leafKind g.x.leaf < 2) && setD g.x.leaf == g.x.leaf)))

theorem witness_GlobalStoreResult_vector :
    vsegs (two wh) = [(0, 8, 0x40000100, true, false), (1, 8, 0x40000108, true, false), (0, 4, 0x40000100, true, false), (1, 4, 0x40000104, true, false)]
    ∧ vsegs (two wm2) = [(0, 8, 0x40000100, false, true), (1, 8, 0x40000108, false, true), (0, 4, 0x40000100, false, true), (1, 4, 0x40000104, false, true)]
    ∧ writesOf (two wh) = true ∧ writesOf (two wm2) = true ∧ noReplay (two wh) ∧ noReplay (two wm2) ∧ canName (two wh) [31, 3] ∧ (0x40000108 : Nat) < 2 ^ 52
    ∧ aliasKnown (two wh) 0 1 0x4100000108 0x40000108 ∧ inTable wh (2 * secNo) = false := by
  unfold noReplay canName aliasKnown; decide +kernel

theorem test_stores : (let s := sReg 5 0x1122334455667788 wh
    rS (after (.ld_s 4 3 .w64 false 8 q0) (after (.st_s 5 3 .w32 8 q0) s)) 4 = 0x55667788)
    ∧ (let t := after (.st_s 5 3 .w32 8 q0) (sReg 5 1 wh); t.agenda.length = 1 ∧ (l1At t 0 secNo).map (fun x => (x.p, x.reg)) = some (2, 0xF00))
    ∧ (let t := after (.st_s 5 3 .w32 8 ⟨0, 0, 2⟩) (sReg 5 1 wm2); l1At t 0 secNo = none ∧ t.agenda.length = 1)
    ∧ (after (.st_v 1 3 0 0 q0) wh).agenda.length = 2 ∧ (after (.st_g 1 3 .w32 0 0 q0) wh).agenda.length = 1 := by decide +kernel

/-- The vector forms: each lane's bytes in the L1, a higher lane over a lower one, or sent through under hint 2. -/
theorem test_vector_stores : (let s := vReg 1 (fun l => 0x1122334455667788 + BitVec.ofNat 64 l) (two wh)
      let t := after (.st_v 1 3 0 0 q0) s; let u := after (.st_g 1 5 .w64 0 0 q0) (vReg 5 (fun _ => 0x4100000100) s)
      coreBytes t 0 0x40000100 16 = 0x1122334455667789 * 2 ^ 64 + 0x1122334455667788 ∧ t.agenda = [.rego 0 secNo 0xFFFF]
      ∧ coreBytes u 0 0x40000100 16 = 0x1122334455667789 ∧ u.agenda = [.rego 0 secNo 0xFF])
    ∧ (let t := after (.st_v 1 3 0 0 ⟨0, 0, 2⟩) (vReg 1 (fun l => BitVec.ofNat 64 (l + 7)) (two wm2))
       t.agenda = [.wt 0 secNo { mask := 0xFFFF, data := 8 * 2 ^ 64 + 7 } false true] ∧ t.m.l1 = []) := by decide +kernel

def opAdd : AtOp := ⟨0, true, false, .rne, 0, 0, 0⟩

def atomsOf (s : State) (o : AtOp) : Bool :=
  let f := fun (ls : List LaneAcc) => ls.all (fun a => a.ok) && !isDet s s.g && decide (s.g.n.sts.length < 63 ∧ s.g.n.ld < 63) && s.g.hostDue == 0 && !homesWait s false ls && !partStarting s ls
    && !fillsPending s ls
    && (decide (o.ord.toNat < 2) || !releaseWaits s o.scope.toNat) && (decide (o.ord.toNat % 2 = 0) || !acqWaits s o.scope.toNat ls) && snoopsOf s true ls == [] && hostSegs ls == []
  f (globScalar s 2 8 8 3 o.off) && f (globGather s 2 4 4 3 o.off s.g.live) && f (scrScalar s 8 8 2 o.off) && f (scrGather s 8 8 2 o.off s.g.live)

theorem witness_AtomicCompletes : atomsOf wm2 opAdd = true ∧ atomsOf wm2 ⟨11, true, true, .rup, 0, 3, 4⟩ = true ∧ canName wm2 [31, 3, 0, 31] := by unfold canName; decide +kernel

theorem witness_AtomicResult : (2 ^ 64 - 1 : Nat) < 2 ^ (if opAdd.w64 then 64 else 32) ∧ (scrLane (offEnd 2 0xFE001FF8) 8 0 (rS (offEnd 2 0xFE001FF8) 2) 0 8).scr = some ⟨0, 0x11FF8, 0⟩ ∧ atomsOf wm2 opAdd = true
    ∧ 0x4000017C % 128 + 32 / 8 ≤ 128 ∧ 0x4000017C % (32 / 8) = 0 ∧ (homeSector wm2 (0x4000017C / 128)).poison &&& span128 (0x4000017C % 128) 4 = 0
    ∧ unowned wm2 (0x4000017C / 128) ∧ homeRoom wm2 (0x4000017C / 128) ∧ inTable wm2 (2 * (0x4000017C / 128)) = false := by unfold unowned homeRoom; decide +kernel

/-- Lanes 0, 1, 4 and 5 live, two on a word each, in a sector that its home holds (v5) and in the scratchpad (v6); v1 counts the lanes. -/
def gat : State :=
  let s := vReg 5 (fun l => BitVec.ofNat 64 (0x4100000100 + l / 4 * 8)) (vReg 6 (fun l => BitVec.ofNat 64 (0xFE000100 + l / 4 * 8)) (vReg 1 (fun l => BitVec.ofNat 64 (l + 1)) wm2))
  homeAlloc secNo { s with g := { s.g with live := 0x33 } }

def gatLanes : List LaneAcc := globGather gat 2 8 8 5 0 gat.g.live

/-- What the lanes of a gather in lane order leave, on words whose lanes lie at these keys. -/
def gatEnd (key : Nat) (m : Nat → Byte) : AtomEnd := atomWalk 0 64 .rne (fun l => (rV gat 1 l).toNat) (fun _ => 0) (fun l => key + l / 4 * 8) [0, 1, 4, 5] m

theorem witness_AtomicResult_gather : canName gat [5, 1, 4] ∧ atomsOf gat opAdd = true ∧ atomsOf gat { opAdd with nr := true } = true ∧ noReplay gat ∧ gat.agenda = []
    ∧ gatLanes.map (fun a => (a.lane, a.ok)) = [(0, true), (1, true), (4, true), (5, true)] ∧ homesWait gat false gatLanes = false ∧ fillsPending gat gatLanes = false
    ∧ snoopsOf gat true gatLanes = [] ∧ hostSegs gatLanes = []
    ∧ gatLanes.all (fun a => a.segs.length == 1 && a.segs.all (fun g => !g.hit && decide (leafKind g.x.leaf < 2) && setD g.x.leaf == g.x.leaf && g.pa % 8 == 0
        && g.pa / 128 == secNo)) = true
    ∧ l1At gat 0 secNo = none ∧ (amGet? gat.m.l2 secNo).isSome = true ∧ unowned gat secNo ∧ inTable gat (2 * secNo) = false ∧ (homeSector gat secNo).poison = 0
    ∧ (scrGather gat 8 8 6 0 gat.g.live).map (fun a => (a.lane, a.scr)) = [(0, some ⟨0, 0x10100, 0⟩), (1, some ⟨0, 0x10100, 0⟩), (4, some ⟨0, 0x10108, 0⟩), (5, some ⟨0, 0x10108, 0⟩)]
    ∧ sramPoisoned gat 0 0x10100 16 = false ∧ partStarting gat (scrGather gat 8 8 6 0 gat.g.live) = false := by unfold canName noReplay unowned; decide +kernel

/-- Atomics: the old value comes back, sign-extended for min.s; the new one stays (R364). -/
theorem test_atomics : (let s := after (.st_x 0 5 2 .w64 0 0 q0) (sReg 5 0xFFFFFFFF00000005 (sReg 6 3 wm2))
    ([(0, 8), (1, 2), (2, 1), (3, 7), (4, 6), (5, 3), (6, 3), (7, 5), (8, 5), (9, 3), (10, 5)] : List (Nat × Nat)).all (fun p =>
      let t := after (.at_x 0 ⟨BitVec.ofNat 4 p.1, false, false, .rne, 0, 0, 0⟩ 4 2 6 7 0) s
      rS t 4 == 5 && sramBytes t 0 0x10010 8 == 0xFFFFFFFF00000000 + p.2) = true
    ∧ rS (after (.at_x 0 ⟨5, false, false, .rne, 4, 0, 0⟩ 4 2 6 7 0) s) 4 = -1)
    ∧ (let t := after (.at_s opAdd 4 3 6 0) (sReg 6 41 wm2); rS t 4 = 0 ∧ cohByte t 0x40000100 = 41)
    ∧ (let s := sReg 6 0x3F80000000000000 (sReg 5 0 wm2); sramBytes (after (.at_x 0 ⟨11, true, false, .rne, 0, 0, 0⟩ 4 2 6 7 0) s) 0 0x10010 8 = 0x3F80000000000000) := by
  decide +kernel

/-- The worked case of R364: lanes on one word, in lane order. -/
theorem test_atomic_lanes : (let s := vReg 3 (fun _ => 0x4100000100) (vReg 1 (fun l => BitVec.ofNat 64 (l + 1)) { wm2 with g := { wm2.g with live := 15 } })
    let t := after (.at_g opAdd 4 3 1 0 0) s
    let u := after (.at_g { opAdd with nr := true } 0 3 1 0 0) s
    rV t 4 0 = 0 ∧ rV t 4 1 = 1 ∧ rV t 4 2 = 3 ∧ rV t 4 3 = 6 ∧ cohByte t 0x40000100 = 10 ∧ u.agenda.length = 1)
    ∧ (let t := after (.at_g opAdd 4 5 1 0 0) gat; let u := after (.at_x 2 opAdd 4 6 1 0 0) gat; let x := gatEnd 0x40000100 (cohByte gat); let y := gatEnd (sramKey 0 0x10100) (cellGet gat.m.sram)
       [0, 1, 4, 5].map (fun l => (rV t 4 l).toNat) = [0, 1, 0, 5] ∧ [0, 1, 4, 5].map x.old = [0, 1, 0, 5] ∧ [0, 1, 4, 5].map (fun l => (rV u 4 l).toNat) = [0, 1, 0, 5]
       ∧ [0, 8].all (fun i => cohByte t (0x40000100 + i) == x.mem (0x40000100 + i) && sramByte u 0 (0x10100 + i) == y.mem (sramKey 0 (0x10100 + i))) = true)
    ∧ (after (.at_g { opAdd with nr := true } 4 5 1 0 0) gat).agenda = [.atom 0 secNo 0 true .rne [⟨0, 1, 0⟩, ⟨0, 2, 0⟩, ⟨8, 5, 0⟩, ⟨8, 6, 0⟩]] := by decide +kernel

/-- The first 8 bytes of code poisoned. -/
def wpo : State := { w0 with m := { w0.m with poison := cellPut w0.m.poison 0x40000003 1 } }

theorem witness_CodeReadAndPrefetchResult : canonical (w0.g.pc.signExtend 64 + (0 : BitVec 11).signExtend 64 <<< 2) = true
    ∧ (w0.g.pc.signExtend 64).toNat % 8 = 0 ∧ codeSnoops w0 (agentOf w0 w0.g) 0x4100000000 8 = [] ∧ codeSnoops wpo (agentOf wpo wpo.g) 0x4100000000 8 = []
    ∧ (match codeRead wpo (agentOf wpo wpo.g) 0x4100000000 8 with | .error e => e.1.code == 11 | .ok _ => false) = true ∧ homeRoom wm2 (0x40000100 / 128)
    ∧ inTable wm2 (2 * (0x40000100 / 128)) = false
    ∧ (match codeRead w0 (agentOf w0 w0.g) 0x4100000000 8 with | .ok (v, _) => v == 0x0A800000 | .error _ => false) = true ∧ canName w0 [31]
    ∧ canonical (BitVec.ofNat 64 0x80000000000000) = false
    ∧ (match segOf w0 (agentOf w0 w0.g) 0 0x4200000000 128 with | .error _ => true | .ok _ => false) = true
    ∧ (match segOf wm2 (agentOf wm2 wm2.g) 0 0x4100000100 128 with
        | .ok g => !g.hit && decide (leafKind g.x.leaf < 2) && setA g.x.leaf == g.x.leaf && !fillPending wm2 0 (g.pa / 128)
        | .error _ => false) = true := by unfold canName homeRoom; decide +kernel

theorem test_slit_pf : rS (after (.slit 4 (.i11 0)) w0) 4 = 0x0A800000 ∧ (after (.pf false false 3 0 0) wm2).m.fills.length = 1
    ∧ (after (.pf true true 3 0 0) wm2).m.l2 ≠ [] ∧ (after (.pf false false 3 0 0) (sReg 3 0x80000000000000 wm2)).m.fills = [] := by decide +kernel

theorem witness_FenceAndCacheResult : releaseWaits wh 4 = false ∧ atomsOut wh = false ∧ coreFilling wh 0 = false ∧ (rS wh 3).toNat + 128 - 1 < 2 ^ 64 ∧ canonical (BitVec.ofNat 64 (0x4100000100 + 127)) = true
    ∧ wh.g.n.sts.length < 63 ∧ amSorted 0 wh.m.l1 = true ∧ (l1At wh 0 secNo).map (fun x => x.ctx) = some wh.g.idn.ctx := by decide +kernel

theorem test_fence_cache : (let s := sReg 6 128 (after (.st_s 5 3 .w32 8 q0) (sReg 5 1 wh))
    let t := after (.cinv 3 6) s
    (l1At t 0 secNo).map (fun x => (x.p, x.w, x.drop, x.valid)) = some (0, 2, 2, 0xFF00) ∧ t.agenda.length = 2
    ∧ (l1At (after (.cwb 3 6) s) 0 secNo).map (fun x => (x.p, x.w, x.valid)) = some (0, 2, -1)
    ∧ (after (.fence 2 2) wh).m.l1.map (fun e => e.2.valid) = [0] ∧ (after (.fence 1 2) wh).m.l1 = wh.m.l1) := by decide +kernel

/-- s5 holds the virtual base, s6 the size, s7 the scratch address. -/
def wsm : State := sReg 5 0x4100000100 (sReg 6 256 (sReg 7 0xFE001F00 wm2))

/-- A map of core 0 with a written sector of its own: at a page the context has, and at one it has not. -/
def mapAt (gid va : Nat) : StashMap := { part := 0, va := va, size := 128, off := 0, gid := gid }

def wsf (gid va : Nat) : State :=
  { wsm with m := { wsm.m with l1 := [(secNo, { sec1 with vsec := va / 128, stash := true, p := 1 })] }
             d := { wsm.d with teams := [(1, { team1 with stash := [mapAt gid va] })] } }

def badFault (gid va : Nat) : Option (Nat × Nat) :=
  (mapFault (wsf gid va) { team1 with stash := [mapAt gid va] } (mapAt gid va)).map (fun e => (e.1.code, e.2.vsec))

def teamN (ms : List StashMap) (s : State) : State := { s with d := { s.d with teams := [(1, { team1 with stash := ms })] } }

theorem witness_StashMapResult : teamOf wsm 1 = some team1 ∧ partEnt team1 0 = some part0 ∧ (0x1F00 : Nat) + 256 ≤ part0.size * 4096 ∧ badByte 0x4100000100 256 = none
    ∧ pagesFault wsm (agentOf wsm wsm.g) 0 (rangePages 0x4100000100 256) = none
    ∧ ((rangePages 0x4100000100 256).any (fun v => match xlate wsm (agentOf wsm wsm.g) v 0 with | .ok x => decide (2 ≤ leafKind x.leaf) | .error _ => false)) = false
    ∧ (let ms := [({ part := 0, va := 0x4100000180, size := 128, off := 0, gid := 1 } : StashMap)]; ms.any (fun m => overlapR m.va m.size 0x4100000100 256) = true)
    ∧ (let ms := [({ part := 0, va := 0x4100000100, size := 128, off := 0, gid := 1 } : StashMap)]; gTeam (teamN ms wsm) = { team1 with stash := ms })
    ∧ wsm.m.fills = [] ∧ badFault 1 0x4100000100 = none ∧ badFault 1 0x4200000000 = some (4, 0x4200000000 / 128)
    ∧ badFault 9 0x4200000000 = some (4, 0x4200000000 / 128) ∧ wsm.g.idn.gid = 1 ∧ findGroup wsm 9 = none
    ∧ (findGroup { wsm with rest := [{ w0.g with idn := { w0.g.idn with gid := 9 } }] } 9).isSome = true
    ∧ wsm.ctxs.all (fun e => !e.2.pol) = true := by decide +kernel

/-- A sunmap whose write-back has no page: a precise F_PAGE of the group that made the map, a wait where another made it, and the end
of the map where that group is gone. -/
theorem test_stash_fault : (let s := sReg 5 0x4200000000 (wsf 1 0x4200000000)
    after (.sunmap 4 5) s = raiseW { code := 4, detail := 0, acc := 1, level := 0, va := 0x4200000000, mask := 1 }
      (walkFault (stashAgent s 0 { sec1 with vsec := 0x4200000000 / 128, stash := true }) 0x4200000000 1 4 s))
    ∧ (let s := sReg 5 0x4200000000 { wsf 9 0x4200000000 with rest := [{ w0.g with idn := { w0.g.idn with gid := 9 } }] }
       let t := after (.sunmap 4 5) s
       t.g.status = .waiting ∧ t.rest.map (fun h => h.x.backFlts.map (fun e => (e.1.toNat % 65536, e.2))) = [[(4, 0x4200000000)]])
    ∧ (let s := sReg 4 7 (sReg 5 0x4200000000 (wsf 9 0x4200000000))
       let t := after (.sunmap 4 5) s
       rS t 4 = 0 ∧ (gTeam t).stash = [] ∧ t.m.l1 = []) := by decide +kernel

theorem test_stash : (let t := after (.smap 4 5 6 7) wsm; rS t 4 = 0 ∧ (gTeam t).stash.length = 1 ∧ rS (after (.smap 4 5 6 7) t) 4 = 2
    ∧ rS (after (.sunmap 4 5) t) 4 = 0 ∧ (gTeam (after (.sunmap 4 5) t)).stash = [] ∧ rS (after (.sunmap 4 5) wsm) 4 = 1)
    ∧ rS (after (.smap 4 5 6 7) (teamN (List.replicate 16 { part := 0, va := 0x4200000000, size := 128, off := 0, gid := 1 }) wsm)) 4 = 1 := by decide +kernel


/-! ### Copies, byte barriers, waits, the queue window -/

/-- TID 1 of the worked case of R405: f32, D 2, BASE 0x41_0000_0000, extents and copy tile 12 by 32, stride 48; lanes of R389. -/
def tidW : BitVec 512 :=
  (1 <<< 511) ||| (1 <<< 506) ||| (2 <<< 503) ||| (0x4100000000 <<< 368) ||| (32 <<< 240) ||| (12 <<< 208) ||| (32 <<< 144) ||| (12 <<< 128) ||| 48

/-- s2 scratch, s3 global, s4 a scratch barrier, s5 LEN 16 and OFF 0x400 of cpym, s6 the part mask, s8 and s9 a cpyg descriptor: two rows
of 16 bytes, list at 0x200, stride 64; s10 a tile at 0 under TID 1, s12 its coordinates. -/
def wq : State :=
  let s := sReg 4 0xFE001FF0 (sReg 5 0x10000400 (sReg 6 1 (sReg 8 0x0100020000000000 (sReg 9 0x40000010 (sReg 10 0x01FE000000 (sReg 12 0 wm2))))))
  { s with d := { s.d with teams := [(1, { team1 with tids := cellPut [] 1 tidW })] } }

/-- The checks of each copy, at the last place a barrier fits. -/
theorem witness_CopyAccepted : isDet wq wq.g = false ∧ copyFull wq = false ∧ linOvf 0xFFFFFFFFFFFFFFF0 16 4 = none ∧ scrChk wq (lo32 (rS wq 2)) 16 5 = none
    ∧ scrChk wq 0xFE001FF0 16 5 = none ∧ barChk wq 4 [0] = none ∧ barChk wq 0 [] = none
    ∧ tidV (tidOf wq 1) = true ∧ tidWf tidW = true ∧ [12, 32].foldl (fun x n => x * n) (tidNib tidW) / 2 = 1536 ∧ tileBoxOk tidW [0, 0, 0, 0, 0] [12, 32] = true
    ∧ tensorScratch (gTeam wq) 0 tidW = none ∧ scrChk wq (lo32 (rS wq 10)) 1536 5 = none ∧ (rS wq 6).toNat < 2 ^ (gTeam wq).parts.length
    ∧ scrChk wq (0xFE * 2 ^ 24 + 0x400) 16 5 = none ∧ (8 : SReg).getLsbD 0 = false ∧ (rS wq 8).toNat / 2 ^ 56 + 1 = 2 ∧ (rS wq 8).toNat / 2 ^ 32 % 2 ^ 24 = 0x200
    ∧ scrChk wq (0xFE * 2 ^ 24 + 0x200) 8 4 = none ∧ ((rSn wq 8 1).extractLsb' 24 40).toInt = 64 ∧ addrOk ((rS wq 3).toInt + 15) = true := by decide +kernel

theorem test_copies : ([(.cpy 0 2 3 (.imm 16) 4, 0, 16, true), (.cpy 1 3 2 (.imm 16) 0, 1, 16, false), (.cpy 2 2 4 (.imm 8) 0, 2, 8, false), (.cpy 3 3 3 (.imm 1) 4, 3, 1, true),
    (.cpyt_ld 10 12 4, 4, 1536, true), (.cpyt_st 10 12 0, 5, 1536, false), (.cpym false 6 3 5 4, 6, 16, true), (.cpym true 6 2 5 0, 6, 16, false), (.cpyg 2 3 8 4, 7, 32, true)]
    : List (Instr × BitVec 4 × Nat × Bool)).all (fun p => (after p.1 wq).g.n.cps.map (fun c => (c.opc, c.total, c.bv, c.done)) == [(p.2.1, p.2.2.1, p.2.2.2, 0)]) = true
    ∧ after (.cpy 0 2 3 (.imm 0) 4) wq = raiseW (flt 1) wq := by decide +kernel

/-- A copy of 16 bytes from offset 0x10 to 0x1FF0 under way, and its next byte's progress. -/
def wp : State :=
  let s := after (.cpy 2 4 2 (.imm 16) 0) (sramPut 0 0x10010 1 0xAB wq)
  withEv (.copy_progress s.g.idn.gid 0 1) s

theorem witness_ScratchCopyMovesByte : wp.g.n.cps.all (fun c => (barRange team1 0 c).isNone && c.ahead.isEmpty) = true ∧ part0.v = true ∧ (findGroup wp wp.g.idn.gid).map (fun g => (g.idn.part, (findCopy g 0).map (fun c => (c.opc, c.done, c.total, copyReady wp g c)))) =
      some (0, some (2, 0, 16, true))
    ∧ (teamOf wp wp.g.idn.team).map (fun t => (t.parts, t.stash)) = some ([part0], []) ∧ selOf 0 0xFE = 0 ∧ 0x1FF0 < part0.size * 4096 := by decide +kernel

theorem test_copy_progress : (let t := after .copy_progress wp; sramByte t 0 0x11FF0 = 0xAB ∧ t.g.n.cps.map (fun c => c.done) = [1]) := by decide +kernel

/-- A bbwait under way on the object at s4, for generation 65535, with what an update has shown it. -/
def bbOn7 (r : Option Nat) : State := { wq with g := { wq.g with bbOn := some (0, 0x11FF0, 65535, r) } }

theorem witness_ByteBarrierResult : (barAcc 4 wq).scr = some ⟨0, 0x11FF0, 0⟩ ∧ partStarting wq [barAcc 4 wq] = false ∧ wq.g.n.sts.length < 63 ∧ (rS (sReg 7 65535 wq) 7).toNat ≤ 65535
    ∧ (let s := sramPut 0 0x11FF0 16 (2 ^ 65) wq; (barOf (sramBytes s 0 0x11FF0 16)).errs = true)
    ∧ (let x := barOf (sramBytes wq 0 0x11FF0 16); x.errs = false ∧ x.errc = false ∧ x.gen ≠ 65535 % 65536) ∧ coreFilling wq 0 = false
    ∧ (barOf (sramBytes wq 0 0x11FF0 16)).gen = (rS (sReg 7 0 wq) 7).toNat % 65536 ∧ (bbOn7 (some 1)).g.bbOn = some (0, 0x11FF0, 65535 % 65536, some 1)
    ∧ (barAcc 4 (bbOn7 (some 0))).scr = some ⟨0, 0x11FF0, 0⟩ := by decide +kernel

theorem witness_BarrierUpdateRule : (2 : Nat) ^ 32 ≤ (barOf 0xFFFFFFFF).expb + 1 ∧ (barOf 0xFFFFFFFE).expb + 1 < 2 ^ 32 ∧ (2 : Nat) ^ 32 ≤ (barOf (0xFFFFFFFF * 2 ^ 32)).landb + 1
    ∧ (barOf 0).open_ = 0 ∧ (barOf (2 ^ 80)).open_ ≠ 0 ∧ (barAcc 4 wq).scr = some ⟨0, 0x11FF0, 0⟩ ∧ releaseWaits wq 2 = false
    ∧ (allGroups (bbOn7 none)).map (fun h => h.bbOn) = [some (0, 0x11FF0, 65535, none)] := by decide +kernel

/-- bbinit with one seal, an expectation, its credit, and the seal that completes the generation (R112 to R115). -/
theorem test_byte_barrier : (let s := after (.bbinit 4 7) (sReg 7 1 (sReg 11 16 wq)); let t := after (.bbexp 4 11) s
    let u := after .barrier_update (withEv (.barrier_update 0 0 0x11FF0 (.credit 16)) t); let v := after (.bbseal 4) u
    barOf (sramBytes v 0 0x11FF0 16) = { gen := 1, init := 1, open_ := 1, errs := false, errc := false, landb := 0, expb := 0 }
    ∧ rS (after (.bbwait 9 4 0) v) 9 = 0 ∧ (after (.bbwait 9 4 0) v).g.pc = nextPc v ∧ (after (.bbwait 9 4 7) v).g.status = .waiting
    ∧ rS (after (.bbwait 9 4 0) (sramPut 0 0x11FF0 16 (2 ^ 64) v)) 9 = 1) := by decide +kernel

/-- A group with one unit on each counter. -/
def wn : State := { wq with g := { (after (.cpy 2 4 2 (.imm 16) 0) wq).g with n := { (after (.cpy 2 4 2 (.imm 16) 0) wq).g.n with ldq := [false], sts := [⟨1, 1⟩], batches := [1] } } }

/-- A compute group with a queue window of two at v8, one entry in it, and its drone. -/
def wcomp : State :=
  let s := vReg 8 (fun l => BitVec.ofNat 64 (50 + l)) wm2
  { s with g := { s.g with qcount := 1, idn := { s.g.idn with qbase := 8, qlen := 2, mate := 9 } } }

def wdrone : State :=
  { wcomp with g := { wm2.g with idn := { wm2.g.idn with gid := 9, kind := .drone, mate := wcomp.g.idn.gid, qlen := 2 } }, rest := [wcomp.g] }

theorem witness_CounterAndQueueResult : (let n := [wn.g.n.ld, wn.g.n.sts.length, wn.g.n.cps.length, wn.g.n.batches.length]; n = [1, 1, 1, 1] ∧ n.getD 0 0 ≤ 1)
    ∧ coreFilling wn 0 = false ∧ canName wdrone [31] ∧ wdrone.g.idn.kind = .drone ∧ wdrone.g.mateGone = false ∧ wdrone.g.idn.mate ≠ wdrone.g.idn.gid
    ∧ (findGroup wdrone wdrone.g.idn.mate).map (fun h => decide (h.qcount < h.idn.qlen)) = some true ∧ releaseWaits wdrone 1 = false
    ∧ canName wcomp [31] ∧ wcomp.g.idn.kind = .compute ∧ wcomp.g.idn.qlen ≠ 0 ∧ 0 < wcomp.g.qcount ∧ wm2.g.idn.qlen = 0 := by unfold canName; decide +kernel

theorem test_waits_queue : (after (.waitc 1 1 1 1) wn).g.pc = nextPc wn ∧ (after (.waitc 0 63 63 63) wn).g.status = .waiting ∧ (after (.waitp 2 6) wn).g.pc = nextPc wn
    ∧ (after (.waitp 2 0) wn).g.status = .waiting ∧ rV (after (.qpop 3) wcomp) 3 31 = 81 ∧ (after (.qpop 3) wcomp).g.qcount = 0
    ∧ rS (after (.qstat 3) wcomp) 3 = 0x02010001 ∧ rS (after (.qstat 3) wm2) 3 = 0 ∧ (let t := after (.qpush 2) wdrone; t.rest.map (fun h => (h.qcount, cellGet h.vregs (32 * 9 + 31))) = [(2, rV wdrone 2 31)]) := by
  decide +kernel

/-! ### The matrix engine -/

/-- One tile of 32-bit elements, TIDs 1 and 2; s4 the operand word of the worked case, s6 and s7 origins, s8 and s9 N and its steps. -/
def wx : State :=
  let s := sReg 4 0x0201 (sReg 6 0 (sReg 7 0 (sReg 8 2 (sReg 9 0x0000000800000008 wm2))))
  { s with g := { s.g with idn := { s.g.idn with ntile := 1 } }
           d := { s.d with teams := [(1, { team1 with tids := cellPut (cellPut [] 1 tidW) 2 (tidW + (0x1000 <<< 368)) })] } }

theorem witness_MatrixCommandResult : (let ea := tidOf wx 1; let eb := tidOf wx 2
    tileFault wx.g 0 = none ∧ mxFull wx = false ∧ tidV ea = true ∧ tidV eb = true ∧ tidD ea = 2 ∧ tidD eb = 2 ∧ scaleOk wx ea true = true ∧ scaleOk wx eb true = true
    ∧ n4Aligned ea (rS wx 6) (rSn wx 8 1) false 2 = true ∧ n4Aligned eb (rSn wx 6 1) (rSn wx 8 1) true 2 = true ∧ canName wx (scaleRegs ea eb .base)
    ∧ (mxPair (tidTy ea) (tidTy eb)).map (fun p => (p.2, mxBoxOk ea (rS wx 6) (rSn wx 8 1) false 2 p.1, mxBoxOk eb (rSn wx 6 1) (rSn wx 8 1) true 2 p.1)) = some (false, true, true)
    ∧ tensorScratch (gTeam wx) 0 ea = none ∧ (6 : SReg).getLsbD 0 = false ∧ (rS wx 8).toNat < 2 ^ 32 ∧ wx.g.n.batches.length < 63 ∧ (rS wx 0).toNat < wx.g.n.batchCtr) := by
  unfold canName; decide +kernel

/-- The command that the next matrix_step performs. -/
def wz : State :=
  let s := after (.mxzero 0) { wx with g := { wx.g with tiles := cellPut [] 5 99 } }
  withEv (.matrix_step s.g.idn.gid 0) s

/-- A product whose panels lie wholly outside their tensors, which fill with 1.0. -/
def wl : State :=
  let one := fun (e : BitVec 512) => e ||| (0x3F800000 <<< 424)
  let s := sReg 6 100 (sReg 7 100 { wx with d := { wx.d with teams := [(1, { team1 with tids := cellPut (cellPut [] 1 (one tidW)) 2 (one tidW) })] } })
  let s := after (.mxstep 0 4 6 .base) { s with g := { s.g with tiles := cellPut [] 5 0x3F800000 } }
  withEv (.matrix_step s.g.idn.gid 0) s

theorem witness_MatrixStepResult : (findGroup wz wz.g.idn.gid).any (fun g => groupRuns g && (mxHead g).any (fun c => c.slot == 0 && !c.parked && c.zero && storesDone g c.born)) = true
    ∧ (findGroup wl wl.g.idn.gid).any (fun g => groupRuns g && (mxHead g).any (fun c => c.slot == 0 && !c.parked && !c.zero && storesDone g c.born)) = true
    ∧ (findGroup wl wl.g.idn.gid).any (fun g => (mxHead g).any (fun c => (match mxApply wl g c g.tiles with
        | .ok x fl u => (findGroup u wl.g.idn.gid).isSome && fl == 0 && cellGet x 5 == 0x41100000
        | _ => false))) = true := by
  decide +kernel

theorem test_matrix : (after (.mxloop 0 4 6 8 .base) wx).g.n.mxs.map (fun c => (c.n, c.opw, c.step)) = [(2, 0x0201, 0)] ∧ rS (after (.mxfence 10) wx) 10 = 1
    ∧ (after (.mxfence 10) wx).g.n.batchCtr = 2 ∧ (after (.mxwait 0) wx).g.pc = nextPc wx ∧ cellGet (after .matrix_step wz).g.tiles 5 = 0
    ∧ after (.mxstep 0 4 7 .base) wx = raiseI 1 wx := by decide +kernel

/-! ### Named barriers, tiles and the tensor table -/

/-- The team of a one-part, two-group part: two members. -/
def wb2 : State := { wm2 with g := { wm2.g with idn := { wm2.g.idn with ngrp := 2 } } }

theorem witness_NamedBarrierResult : wb2.g.idn.kind = .compute ∧ teamOf wb2 1 = some team1
    ∧ (let x := barrierAt team1 2 63; x.mask &&& 1 ≠ 0 ∧ x.arrived &&& 1 = 0 ∧ x.mask &&& ~~~(x.arrived ||| 1 ||| team1.exits) ≠ 0 ∧ x.mask &&& ~~~(x.arrived ||| 1 ||| 2) = 0)
    ∧ releaseWaits wb2 2 = false ∧ (rS (sReg 5 3 wb2) 5).toNat < 2 ^ 2 ∧ coreFilling wb2 0 = false
    ∧ (let t : Team := { team1 with bars := [(3, { mask := 3, arrived := 0, gen := 1, pendm := none })] }; (0 : Word64).toNat < (barrierAt t 2 3).gen.toNat) := by decide +kernel

theorem test_named_barrier : (let s := after (.bar_arr 5 3) wb2; let s2 := { s with g := { s.g with pc := 0x4100000000, idn := { s.g.idn with gidx := 1 } } }; let t := after (.bar_arr 6 3) s2
    rS s 5 = 0 ∧ barrierAt (gTeam s) 2 3 = { mask := 3, arrived := 1, gen := 0, pendm := none } ∧ rS t 6 = 0
    ∧ barrierAt (gTeam t) 2 3 = { mask := 3, arrived := 0, gen := 1, pendm := none } ∧ (after (.bar_wait 0 3) t).g.pc = nextPc t ∧ (after (.bar_wait 0 3) s).g.status = .waiting
    ∧ (barrierAt (gTeam (after (.bar_setm 7 3) (sReg 7 1 s))) 2 3).pendm = some 1) := by decide +kernel

theorem witness_TileAndTableResult : tileMoveFault wx.g 16 0 = none ∧ (16 : VReg).toNat + tileRegs wx.g ≤ 1024 ∧ tilePasts wx.g 0 = [] ∧ tileBusy wx.g 0 = false
    ∧ tileBusy (after (.mxzero 0) wx).g 0 = true ∧ canName wx [31]
    ∧ (∀ q < 8, tidW.extractLsb' (64 * q) 64 = rV (vReg 31 (fun l => tidW.extractLsb' (64 * l) 64) wx) 31 q) ∧ tidWf tidW = true ∧ tidBusy wx 255 = false := by
  unfold canName; decide +kernel

theorem test_tile_table : (let s := { wx with g := { wx.g with tiles := cellPut (cellPut [] 0 0x41C00000) 1 0x40000000 } }
    rV (after (.lda 16 0 0) s) 16 0 = 0x4000000041C00000 ∧ rV (after (.lda 16 0 0) s) 16 1 = 0
    ∧ cellGet (after (.sta 16 0 0) (vReg 17 (fun _ => 0x1111111122222222) s)).g.tiles (1024 * 0 + 32 * 31 + 3) = 0x11111111)
    ∧ (let t := after (.tidset 31 255) (vReg 31 (fun l => tidW.extractLsb' (64 * l) 64) wx); tidOf t 255 = tidW ∧ rV (after (.tidget 30 255) t) 30 5 = tidW.extractLsb' 320 64) := by
  decide +kernel


/-! ### A context -/

def loc0 : LocEnt := { v := true, depth := 0, kind := 0, shr := false, hf := false, sid := 0 }

/-- A TUMBLE stream of 100 epochs at location 1, records of 8 words, records to a ring at VA 0x41_0000_8000. -/
def desc0 : BitVec 512 :=
  (1 <<< 448) ||| (100 <<< 96) ||| (1 <<< 32) ||| (2 <<< 57) ||| (0x4100000040 <<< 128) ||| (0x4100000080 <<< 320) ||| ((0x4100008000 >>> 6) <<< 390)

/-- A stream at location 1 that sends to stream 0. -/
def desc1 : BitVec 512 := (1 <<< 448) ||| (100 <<< 96) ||| (1 <<< 32) ||| (1 <<< 57) ||| (0x4100000040 <<< 128) ||| (0x4100000080 <<< 320)

def sd (d : BitVec 512) : StreamD := { desc := d, late := 0, faulted := false, h := Stamp.zero, hold := none, parked := false, arrived := 0 }

/-- A row of one part and one group. -/
def row0 : EntryRow :=
  { entry := 0x4100000000, drone := 0, window := false, p := 1, g := 1, acc := 0, accw64 := false, vregs := 32, dvregs := 0, qbase := 0, qlen := 0, scratch := 1,
    desc := 0, opn := 0, merge := 0, close := 0, outRsz := 0, ring := 0, obj := 0 }

def obj0 : CodeObj := { base := 0x4100000000, size := 0x10000, strict := false, live := [0xF, 0], tids := [] }

def ctx1 : Ctx :=
  { Ctx.fresh with tenant := 1, handler := 0x4100000400, locs := [loc0, { loc0 with kind := 1 }], streams := [sd desc0, sd desc1], objs := [obj0], rows := [row0],
                   plBase := 0x40000800, plNext := 0x400000000 }

/-- The placed page for the command processor as well. -/
def ioTlb (s : State) : State := { s with m := { s.m with tlb := s.m.tlb ++ s.m.tlb.map (fun e => { e with cluster := ioCluster }) } }

/-- The group in context 1 with capability (0, 0) at location 1; tuning of the shipped device. -/
def wt : State :=
  let s := ioTlb wm2
  { s with ctxs := [(1, ctx1)], g := { s.g with idn := { s.g.idn with loc := 1 } } }

/-! ### Logical time -/

/-- s4 names location 1, s6 the stamp (3, 0); the frontier there is (5, 0). -/
def wf5 : State :=
  let s := sReg 4 1 (sReg 6 3 (sReg 10 1 (sReg 12 5 wt)))
  { s with t := { s.t with counts := [{ ctx := 1, loc := 1, stamp := ⟨5, 0⟩, n := 1 }] } }

theorem witness_LogicalTimeResult : (6 : SReg).getLsbD 0 = false ∧ (rS wf5 4).toNat < 65536 ∧ stampWf ⟨rS wf5 6, rS wf5 7⟩ = true ∧ (gCtx wf5).isSome = true
    ∧ placedOk ctx1 1 ⟨3, 0⟩ = true ∧ (announcedOf (subscribe 1 1 0 wf5) 1 1).map (fun f => f.stamp) = some ⟨5, 0⟩ ∧ cutOff wf5 1 1 = false ∧ coreFilling wf5 0 = false
    ∧ allowed ctx1 wf5.g 1 ⟨3, 0⟩ = true ∧ (rS wf5 10).toNat = 1 ∧ releaseWaits wf5 3 = false ∧ (rS (sReg 4 0x10001 wf5) 4).toNat < 2 ^ 32 := by decide +kernel

theorem test_logical_time : (let t := after (.fwait_pass 8 4 6) wf5; rS t 8 = 5 ∧ rS t 9 = 0 ∧ t.g.pc = nextPc wf5)
    ∧ (after (.fwait_pass 8 4 12) wf5).g.status = .waiting ∧ (after (.fwait_reach 8 4 12) wf5).g.pc = nextPc wf5
    ∧ ([(.pinc 4 6 10, [{ loc := 1, stamp := ⟨3, 0⟩, amt := 1 }]), (.pdec 4 6 10, [{ loc := 1, stamp := ⟨3, 0⟩, amt := -1 }])] : List (Instr × List Delta)).all
        (fun p => ((amGet? (after p.1 wf5).t.frets 0).getD []).map (fun b => b.ds) == [p.2]) = true
    ∧ (let t := after (.pmove 4 6 12) (sReg 4 0x10001 wf5); ((amGet? t.t.frets 0).getD []).map (fun b => b.ds) = [[⟨1, ⟨5, 0⟩, 1⟩, ⟨1, ⟨3, 0⟩, -1⟩]]) := by decide +kernel

/-! ### Windows, posted work -/

/-- A window group of stream 0; lane 0 serves a window. v4 to v7 form the record (7, 0), key 9. -/
def ww : State :=
  let s := sReg 5 0 (sReg 6 4 (vReg 4 (fun _ => 7) (vReg 5 (fun _ => 0) (vReg 6 (fun _ => 9) wt))))
  { s with g := { s.g with idn := { s.g.idn with kind := .window, work := 0 }, w := { s.g.w with lanes := [{ win := 5, start := 100, last := 107, count := 3, recNo := 0 }] } } }

def ww1 : State := { ww with g := { ww.g with idn := { ww.g.idn with work := 1 } } }

/-- Only lane 0 acts: one record to the ring, whose control block says BASE 0x41_0000_9000, 16 entries. -/
def wr : State :=
  let m := (List.range 3).foldl (fun m i => memPut m (0x40008000 + i) ((#[0x00, 0x90, 0x00] : Array Byte).getD i 0)) ww.m.mem
  let m := memPut (memPut m 0x40008004 0x41) 0x40008008 4
  { ww with m := { ww.m with mem := m }, g := { ww.g with live := 1 } }

theorem witness_WindowInstructionResult : (rS ww 5).toNat < 4096 ∧ (streamOf ww 1 0).isSome = true ∧ 4 ≤ (rS ww 6).toNat ∧ (rS ww 6).toNat ≤ 8 * (sdRsz desc0 + 1)
    ∧ runFault ww.g 4 4 = none ∧ actOf ww 0 ≠ 0 ∧ sendFault ww (some (sd desc0)) 4 4 (actOf ww 0) = none ∧ needsBow ww ww.g = false ∧ releaseWaits ww 3 = false
    ∧ sdOutK desc1 = 1 ∧ sdOutSid desc1 = 0 ∧ sdOutK desc0 = 2 ∧ lanesOf (actOf wr 0) = [0] ∧ wr.g.w.emitted = 0 ∧ sendFault wr none 4 4 (actOf wr 0) = none
    ∧ (match streamRing wr (.engine 0 1) desc0 with
        | (.inr r, u) => r.base == 0x4100009000 && r.log2n == 4 && (match ringPut (.engine 0 1) r 64 (fun _ => (laneRecord u 4 4 0).toNat) u with | .ok _ => true | _ => false)
        | _ => false) = true
    ∧ runFault ww.g 29 3 = none ∧ (29 : VReg).toNat + 3 ≤ 1024 ∧ ww.g.w.lanes[0]?.isSome = true := by decide +kernel

theorem test_windows : (let t := after (.wsend 4 5 6 0) ww; t.w.recs.map (fun e => (e.2.sid, recWord e.2.data 0, recWord e.2.data 2)) = [(0, 7, 9), (0, 7, 9)]
      ∧ ((amGet? t.t.frets 0).getD []).map (fun b => b.ds) = [[⟨1, ⟨7, 0⟩, 1⟩, ⟨1, ⟨7, 0⟩, 1⟩]])
    ∧ (after (.wemit 4 6 0) ww1).w.recs.length = 2 ∧ (let t := after (.wemit 4 6 0) wr; cohByte t 0x40009000 = 7 ∧ cohByte t 0x40009010 = 9 ∧ cohByte t 0x40008018 = 1)
    ∧ (after (.wclose 0) ww).g.w.closed = 0x80000001
    ∧ (let t := after (.winfo 29 0) ww; rV t 29 0 = 100 ∧ rV t 30 0 = 107 ∧ rV t 31 0 = 3) := by decide +kernel

/-- The group leads a team of grid 7; a launch block of one team at VA 0x41_0000_C000, a card block at 0x41_0000_C040, and an empty one. -/
def grid7 : Grid :=
  { ctx := 1, queue := 0, depth := 1, row := row0, args := 0, stamp := Stamp.zero, loc := 0xFFFF, nteam := 1, nextTeam := 1, base := 0, exitedAbove := [], teamsUp := 1, kids := 0,
    pri := 2, cmask := 0xFF, det := false, pinned := false, repl := false, replOk := false, replays := 0, snaps := [], rep := { cmd := none, donew := 0, parent := 0 },
    order := 0, bowTeam := 0, cancelled := false }

def put64 (pa : Nat) (v : Nat) (s : State) : State :=
  { s with m := { s.m with mem := (List.range 8).foldl (fun m i => memPut m (pa + i) (BitVec.ofNat 8 (v / 256 ^ i))) s.m.mem } }

def wj : State :=
  let s := sReg 12 0x410000C000 (sReg 13 0x410000C040 (sReg 14 0x410000C080 wt))
  let s := { s with d := { s.d with grids := [(7, grid7)] } }
  put64 0x4000C000 0x4100000000 (put64 0x4000C008 0x1000 (put64 0x4000C010 (1 + 0xFFFF * 2 ^ 48)
    (put64 0x4000C040 0x4100000000 (put64 0x4000C048 0x1000 (put64 0x4000C050 (8 + 64 * 2 ^ 32 + 0xFFFF * 2 ^ 48) s)))))

/-- A poisoned byte in the launch block at s12. -/
def wjp : State := { wj with m := { wj.m with poison := cellPut wj.m.poison 0x4000C011 1 } }

/-- The block at a's address, as launch and jobput read it. -/
def blockOf (a : SReg) (s : State) : (BitVec 512 × Bool) × State := let l := loadLane 1 (blockLane a s) s; ((BitVec.ofNat 512 l.1.1, l.1.2), l.2)

/-- A team of a deterministic launch that has passed the bow. -/
def wpassed : State :=
  { wj with d := { wj.d with grids := [(7, { grid7 with det := true })], teams := [(1, { team1 with bow := .passed, drained := true })] } }

theorem witness_PostWorkResult : needsBow wj wj.g = false ∧ needsBow wpassed wpassed.g = true ∧ passedBow wpassed wpassed.g = true ∧ releaseWaits wj 3 = false ∧ (gCtx wj).isSome = true ∧ isLeader wj.g = true ∧ wj.g.idn.depth < 10
    ∧ ([12, 13, 14] : List SReg).all (fun a => (laneFault 0 [blockLane a wj]).isNone && (loadHeld false [blockLane a wj] wj).isNone && !(blockOf a wj).1.2) = true
    ∧ (let b := (blockOf 12 wj).1.1; let u := (blockOf 12 wj).2; launchStatus ctx1 b = 0 ∧ plusOk ctx1 u.g ⟨0, 0⟩ 0xFFFF = true
        ∧ (rowAt ctx1 (b.extractLsb' 0 64)).isSome = true ∧ (amGet? u.d.grids u.g.idn.work).isSome = true)
    ∧ cardStatus ctx1 (blockOf 13 wj).1.1 = 0 ∧ launchStatus ctx1 (blockOf 14 wj).1.1 ≠ 0 ∧ cardStatus ctx1 (blockOf 14 wj).1.1 ≠ 0
    ∧ (laneFault 0 [blockLane 12 wjp]).isNone = true ∧ (loadHeld false [blockLane 12 wjp] wjp).isNone = true ∧ (blockOf 12 wjp).1.2 = true := by decide +kernel

theorem test_post_work : (let t := after (.launch_child 5 12) wj; rS t 5 = 0 ∧ (amGet? t.d.grids wj.d.nextId).map (fun g => (g.nteam, g.args, g.depth, g.rep.parent)) = some (1, 0x1000, 2, 7))
    ∧ (let t := after (.jobput 5 13) wj; rS t 5 = 0 ∧ (amGet? t.d.cards wj.d.nextId).map (fun c => (c.count, c.rsize, c.base)) = some (8, 64, 0x1000))
    ∧ rS (after (.launch_child 5 14) wj) 5 = 1 ∧ rS (after (.jobput 5 14) wj) 5 = 1
    ∧ (let t := after (.launch_child 5 12) wjp; t.d.grids.length = 1 ∧ t.g.x.eccu.isSome = true) := by decide +kernel

/-! ### Words, the bow, safe points, exit -/

/-- The word at s3 holds 5; another group sleeps on it. -/
def wv : State :=
  let s := put64 0x40000100 5 wt
  { s with rest := [{ s.g with status := .waiting, watch := some (0x40000100 / 8), idn := { s.g.idn with gid := 9 } }] }

/-- The word at s3 poisoned. -/
def wvp : State := { wv with m := { wv.m with poison := cellPut wv.m.poison 0x40000107 1 } }

/-- The page of host-coherent memory. -/
def wvh : State := { wv with m := { wv.m with tlb := wv.m.tlb.map (fun e => { e with leaf := e.leaf ||| (1 <<< 56) }) } }

/-- Core 0 holds the word in V, and the next in P. -/
def wvl : State := { wv with m := { wv.m with l1 := [(secNo, { sec1 with p := 2, reg := 0xFF00 })], regions := cellPut [] 0x4000 0x8000, rmap := [(0x4000, vGranTag 1 0x4100000100)] } }

theorem witness_WordWaitAndBowResult : (match Machine.wordAt wvh 3 with | .inr g => g.kind == 2 | _ => false) = true
    ∧ (match Machine.wordAt wv 3 with | .inr g => g.kind == 0 && (useSeg (agentOf wv wv.g) 0 g wv).m.l1 == [] | _ => false) = true
    ∧ (match Machine.wordAt wv 3 with | .inr g => (wordSnoops wv g).isEmpty && !wordPoisoned (useSeg (agentOf wv wv.g) 0 g wv) g | _ => false) = true
    ∧ (match Machine.wordAt wvp 3 with | .inr g => (wordSnoops wvp g).isEmpty && wordPoisoned (useSeg (agentOf wvp wvp.g) 0 g wvp) g | _ => false) = true
    ∧ (match Machine.wordAt wv 3 with | .inr g => g.pa == 0x40000100 && wordRead (useSeg (agentOf wv wv.g) 0 g wv) g == 5 | _ => false) = true
    ∧ (match Machine.wordAt wvl 3 with
        | .inr g => g.kind == 0 && g.pa == 0x40000100 && (wordSnoops wvl g).isEmpty && (l1At (useSeg (agentOf wvl wvl.g) 0 g wvl) 0 (g.pa / 128)).any (fun x => !x.stash)
        | _ => false) = true
    ∧ rS (sReg 6 5 wv) 6 = 5 ∧ isDet wt wt.g = false
    ∧ (let s := { wj with d := { wj.d with grids := [(7, { grid7 with det := true })], teams := [(1, { team1 with bow := .holds, drained := true })] } }
       isDet s s.g = true ∧ passedBow s s.g = false ∧ holdsBow s s.g = true ∧ teamWritten s 1 = true) := by decide +kernel

theorem test_words_bow : (l1At (after (.wait_v 4 3 6) wvl) 0 secNo).map (fun x => x.valid) = some (~~~0xFF) ∧ (after (.wait_v 4 3 6) wvp).g.x.eccu.isSome = true ∧ rS (after (.wait_v 4 3 6) wv) 4 = 5 ∧ (after (.wait_v 4 3 6) (sReg 6 5 wv)).g.status = .waiting ∧ (after (.wake 3) wv).rest.map (fun h => h.status) = [.running]
    ∧ rS (after (.bow_get 4) (sReg 4 9 wt)) 4 = 0
    ∧ (let s := { wj with d := { wj.d with grids := [(7, { grid7 with det := true })], teams := [(1, { team1 with bow := .holds, drained := true })] } }
       rS (after (.bow_get 4) s) 4 = 1 ∧ (teamOf (after .bow_pass s) 1).map (fun t => t.bow) = some .passed) := by decide +kernel

/-- A fault of CODE and DETAIL on a data access. -/
def fPage0 (code detail : Nat) : Flt := { code := code, detail := detail, acc := 1, level := 3, va := 0x4100010000, mask := 0x80000000 }

/-- Entry 0 of the live-register table keeps v0 to v3. -/
def wsafe : State := { wt with g := { wt.g with saveDue := true } }

/-- A load of it is not performed. -/
def wundr : State := { wsafe with g := { wsafe.g with n := { wsafe.g.n with ldq := [false] } } }

theorem witness_SafePointResult : drained wundr.g = false ∧ wundr.g.saveDue = true ∧ wundr.g.hostDue = 0 ∧ wundr.g.hostVals = [] ∧ (liveTable wundr)[0]? = some 0xF
    ∧ (liveTable wt)[0]? = some 0xF ∧ wt.g.saveDue = false ∧ wsafe.g.x.sup = false ∧ drained wsafe.g = true ∧ wt.g.sigw = 0xFFFFFFFF
    ∧ sigExcluded 0x7D000000 = true ∧ rollsBack wt wt.g = none := by decide +kernel

/-- CRC-32C of one byte's worth of folds: SIGW after nop's first word, from the spec's fold by hand of the eight-step table. -/
theorem witness_SignatureFold : (let s := { wt with ir := { w0 := 0x0A800000, len := 4 } }; let op := (s.ir.w0.extractLsb' 23 7).toNat
      ¬((0x10 ≤ op ∧ op ≤ 0x14) ∨ op = 0x79 ∨ op = 0x7A) ∧ s.g.x.sup = false ∧ handlerOf s ≠ 0)
    ∧ (let op := ((0x3C800011 : Word32).extractLsb' 23 7).toNat; op = 0x79) := by decide +kernel

/-- The context cancels a group that faults. -/
def wpol : State := { wt with ctxs := wt.ctxs.map (fun e => (e.1, { e.2 with pol := true })) }

/-- A fault folds nothing, whether its group enters the handler, stops, or is cancelled (R423). -/
theorem test_fault_folds_nothing : [fPage0 4 0, fPage0 4 11, fPage0 1 0, fPage0 11 0].all (fun f =>
      [raise f 1 0x80000001 wt, raiseW f wt].all (fun u => u.g.sigw == wt.g.sigw && u.g.sigm == wt.g.sigm && u.g.status != .gone)) = true
    ∧ (gCtx wpol).map (fun c => c.pol) = some true ∧ (raise (fPage0 1 0) 1 0x80000001 wpol).g = Group.none := by decide +kernel

theorem test_safe_sig : (let t := after (.safe 0) wsafe; t.g.status = .saved ∧ rV t 3 31 = rV wsafe 3 31 ∧ (after (.safe 0) wt).g.pc = nextPc wt)
    ∧ (let t := after (.safe 0) wundr; t.g.halt = true ∧ t.g.saveWay = .safePoint 0xF ∧ t.timers = [(16, .forced_save 1)] ∧ ready t.g = false)
    ∧ after (.sigchk 5) wt = raiseI 14 wt ∧ rS (after (.sigrd 4) { wt with ir := { w0 := 0x3D080001, len := 4 } }) 4 = -1
    ∧ (after .nop { wt with ir := { w0 := 0xFFFFFFFF, len := 4 } }).g.sigw = 0 ∧ (after .nop { wt with ir := { w0 := 0x08000000, len := 4 } }).g.sigw = 0xFFFFFFFF := by decide +kernel

theorem witness_ExitResult : wt.g.x.sup = false ∧ wt.g.n.mxs.any (fun c => c.batch == 0) = false ∧ exitReady wt = true ∧ wt.g.idn.gid ≠ 0 ∧ wt.rest = []
    ∧ (teamOf wt 1).isSome = true ∧ exitReady ww = true ∧ (0 : Nat) < part0.groups ∧ part0.groups ≤ part0.exited + 1 := by decide +kernel

theorem test_exit : (let t := after .exit wt; t.rest.length = 0 ∧ (teamOf t 1).map (fun x => (x.exits, x.parts.map (fun e => e.exited))) = some (1, [1])
    ∧ t.agenda.contains (.part_exit 1 0) = true ∧ t.g.status = .gone) := by decide +kernel

/-! ### Exceptions and the supervisor -/

/-- In the handler, after F_PAGE at 0x41_0000_0100 with lane 0 done. -/
def wsup : State :=
  let x := { wt.g.x with sup := true, cause := .precise, liveSave := 0x80000001, doneMask := 1, epc := 0x4100000000, epcSet := 0x4100000000, actSet := 0xFFFFFFFF }
  { wt with g := { wt.g with pc := 0x4100000400, live := 1, x := { x with sbank := cellPut [] 60 77, kbank := 0x55 } } }

def fPage : Flt := { code := 4, detail := 0, acc := 1, level := 3, va := 0x4100010000, mask := 0x80000000 }

/-- The fault records that are due. -/
def recsOf (s : State) : List FaultRec := s.agenda.filterMap (fun e => match e with | .fault_record r => some r | _ => none)

theorem witness_ExceptionEntry : hasHandler wt ∧ fPage.code = 4 ∧ fPage.detail ≠ 11 ∧ ¬hasHandler wsup ∧ ¬(fPage.code = 4 ∧ ({ fPage with detail := 11 } : Flt).detail ≠ 11)
    ∧ ({ fPage with code := 1 } : Flt).code ≠ 0xFFFF ∧ ({ fPage with code := 1 } : Flt).code ≠ 11 ∧ ({ fPage with code := 11 } : Flt).code = 11 := by unfold hasHandler; decide +kernel

theorem test_exception_entry : (let s := kReg 15 0xAA (sReg 60 5 wt); let t := raise fPage 1 0x80000001 s
      t.g.pc = 0x4100000400 ∧ t.g.x.sup = true ∧ t.g.x.epc = 0x4100000000 ∧ t.g.x.faultMask = 0x80000000 ∧ t.g.x.doneMask = 1 ∧ t.g.live = 0x80000000 ∧ t.g.x.liveSave = 0x80000001
      ∧ t.g.x.faultCode = 0x00190004 ∧ t.g.x.faultVa = 0x4100010000 ∧ cellGet t.g.x.sbank 60 = 5 ∧ rS t 60 = 0 ∧ t.g.x.kbank = 0xAA)
    ∧ (let t := after (.trap 0x42) wt; t.g.pc = 0x4100000400 ∧ t.g.x.epc = nextPc wt ∧ t.g.x.faultCode = 0xFFFF ∧ t.g.x.faultVa = 0x42)
    ∧ (after (.bkpt 7) wt).g.status = .stopped ∧ (recsOf (raise { fPage with code := 6 } 0 1 wt)).map (fun r => (r.fcode, r.fva, r.mask)) = [(0x00190006, 0x4100010000, 0x80000000)]
    ∧ (recsOf (raise { fPage with detail := 11 } 0 1 wt)).map (fun r => r.fcode) = [0xB0190004] := by decide +kernel

/-- In the handler after the fetch of an instruction that was to be replayed for lane 31 has faulted. -/
def wfx : State := { wsup with g := { wsup.g with x := { wsup.g.x with cause := .whole, replayKept := some 0x80000000 } } }

theorem witness_ExceptionReturn : wsup.g.x.sup = true ∧ wt.g.x.sup = false ∧ wsup.g.x.cause = .precise ∧ wsup.g.x.epc = wsup.g.x.epcSet ∧ wfx.g.x.cause = .whole ∧ wfx.g.x.epc = wfx.g.x.epcSet
    ∧ (after (.swr 5 0x24) wsup).g.x.epc ≠ (after (.swr 5 0x24) wsup).g.x.epcSet := by decide +kernel

theorem test_retf : (let t := after .retf wsup; t.g.pc = 0x4100000000 ∧ t.g.x.sup = false ∧ t.g.live = 0x80000001 ∧ t.g.x.replay = some 0x80000000 ∧ rS t 60 = 77 ∧ rK t 15 = 0x55)
    ∧ (let t := after .retf (after (.swr 5 0x24) (sReg 5 0x4100000008 wsup)); t.g.pc = 0x4100000008 ∧ t.g.x.replay = none ∧ t.g.x.doneMask = 0)
    ∧ (after .retf wfx).g.x.replay = some 0x80000000 ∧ (after .retf wfx).g.x.doneMask = 1
    ∧ after .retf wt = raiseI 2 wt ∧ after (.ill 0) wt = raiseI 1 wt := by decide +kernel


/-- Page tables for 0x41_0000_0000 to 0x41_0001_FFFF at 0x4001_1000; the third page is absent. The pool's first frame is 0x4002_0000. -/
def wpt (g : State) : State :=
  let s := put64 0x40011000 0x40012001 (put64 0x40012820 0x40013001 (put64 0x40013000 0x40014001 (put64 0x40014000 (placeLeaf 0).toNat
    (put64 0x40014008 (placeLeaf 1).toNat (put64 0x40000800 0x40020000 g)))))
  { s with ctxs := [(1, { ctx1 with root := 0x40011000 })] }

/-- Supervisor state: s5 the absent page, s6 RD and WR, s7 the first page, s8 65536, s9 the tuning number, s10 core 5 to scan, s11 a record. -/
def wss : State := wpt (sReg 5 0x4100020000 (sReg 6 0x0010000000000008 (sReg 7 0x4100000000 (sReg 8 0x10000 (sReg 9 1 (sReg 10 5 (sReg 11 0x4100000100 wsup)))))))

theorem witness_SupervisorResult : releaseWaits wss 3 = false ∧ coreFilling wss 0 = false ∧ wss.g.x.sup = true ∧ rS wss 6 &&& ~~~(0x07F0000000000008 : Word64) = 0
    ∧ canonical (rS wss 5) = true ∧ mapWalk wss 0x4100020000 4 0 0x40011000 = .free 0x40014010 ∧ mapWalk wss 0x4100000000 4 0 0x40011000 = .present
    ∧ (0x40014010 : Nat) % 8 = 0 ∧ lo32 ctx1.plNext < hi32 ctx1.plNext ∧ inDevMem wss.tun 0x40000800 = true ∧ inKind wss 0 (leafFrame (cohWord wss 0x40000800)) = true
    ∧ inTable wss (2 * (0x40014010 / 128)) = false ∧ inTable wss (2 * (0x40000800 / 128)) = false ∧ inTable wss (2 * (0x40014000 / 128)) = false
    ∧ (let e := placeLeaf 0 ||| (1 <<< 57); let s := put64 0x40014000 e.toNat wss; leafHome e = true ∧ walk s 1 0x4100000000 = .leaf 0x40014000 e 3 ∧ leafPin e = false
        ∧ pageBusy s e 3 0x4100000000 = false ∧ s.m.l1 = [])
    ∧ regionOwners wss 0x4000 = [] ∧ regionRel wss 0x4000 = false ∧ cohPoisoned wss 0x40000800 8 = false ∧ homeRoom wss (0x40014010 / 128) ∧ pageBusy wss (placeLeaf 0) 3 0x4100000000 = false ∧ wss.m.l1 = []
    ∧ launchQueued wss 7 = false ∧ launchQueued { wss with d := { wss.d with grids := [(7, { grid7 with nextTeam := 0 })] } } 2 = true
    ∧ walk wss 1 0x4100020000 = .absent 3 ∧ walk wss 1 0x4100000000 = .leaf 0x40014000 (placeLeaf 0) 3 ∧ leafPin (placeLeaf 0) = false ∧ wss.d.scans = []
    ∧ (rS wss 7).toNat % 65536 = 0 ∧ (rS wss 8).toNat % 65536 = 0 ∧ (rS wss 9).toNat < 2 ^ 32 ∧ (rS wss 9).toNat = wss.tun.tunn ∧ (0 : Nat) < wss.tun.tunn ∧ wss.tun.tunn < 2
    ∧ (rS wss 10).toNat % 256 ≤ 191 ∧ (rS wss 10).getLsbD 11 = false ∧ laneFault 1 [globLane wss 1 16 0 (rS wss 11).toNat 16] = none
    ∧ (globLane wss 1 16 0 (rS wss 11).toNat 16).segs.map (fun g => (g.kind, inHbm g.pa)) = [(0, true)] ∧ amGet? wss.d.scans 5 = none ∧ coreLive wss.tun 5 = true
    ∧ coreLive wss.tun 191 = false := by unfold homeRoom; decide +kernel

/-- At user privilege; the first page's leaf pinned, malformed, poisoned; an address that is not canonical. -/
def wuser : State := { wss with g := { wss.g with x := { wss.g.x with sup := false } } }

def wpin : State := put64 0x40014000 (placeLeaf 0 ||| (1 <<< 59)).toNat wss

def wbad : State := put64 0x40014000 (placeLeaf 0 ||| (1 <<< 60)).toNat wss

def wpsn : State := { wss with m := { wss.m with poison := cellPut wss.m.poison 0x40014007 1 } }

def wncn : State := sReg 5 0x80000000000000 wss

/-- The state after the walk of the page at va. -/
def walkedAt (va : Nat) (s : State) : State := walkTouch (agentOf s s.g) va s

theorem witness_SupervisorResult_faults : wuser.g.x.sup = false ∧ releaseWaits wuser 3 = false ∧ coreFilling wuser 0 = false ∧ (1 : Word64) &&& ~~~(0x07F0000000000008 : Word64) ≠ 0
    ∧ canonical (rS wncn 5) = false ∧ canonical (rS wss 7) = true ∧ walk (walkedAt 0x4100000000 wpin) 1 0x4100000000 = .leaf 0x40014000 (placeLeaf 0 ||| (1 <<< 59)) 3
    ∧ walk (walkedAt 0x4100000000 wbad) 1 0x4100000000 = .bad 5 3 ∧ walk (walkedAt 0x4100000000 wpsn) 1 0x4100000000 = .poisoned 3
    ∧ leafPin (placeLeaf 0 ||| (1 <<< 59)) = true ∧ (rS (sReg 8 0x1000 wss) 8).toNat % 65536 ≠ 0
    ∧ walk (walkedAt 0x4100000000 wss) 1 0x4100000000 = .leaf 0x40014000 (placeLeaf 0) 3 ∧ walk (walkedAt 0x4100020000 wss) 1 0x4100020000 = .absent 3
    ∧ pageStuck (walkedAt 0x4100000000 wss) (placeLeaf 0) 3 = false ∧ pageBusy (walkedAt 0x4100000000 wss) (placeLeaf 0) 3 0x4100000000 = false
    ∧ pageStash (walkedAt 0x4100000000 wss) (placeLeaf 0) 3 = [] ∧ cohWord (pageBack (placeLeaf 0) 3 (walkedAt 0x4100000000 wss)) 0x40014000 = placeLeaf 0
    ∧ cohWord (walkedAt 0x4100020000 wss) 0x40000800 = 0x40020000 ∧ cohPoisoned (walkedAt 0x4100020000 wss) 0x40000800 8 = false
    ∧ homeRoom (walkedAt 0x4100020000 wss) (0x40014010 / 128) := by unfold homeRoom; decide +kernel

theorem test_supervisor_faults : [Instr.mappg 4 5 6, .unmappg 4 5, .rgrel 7 8, .scan_run 4 10 11].all (fun i => decide (after i wuser = raiseI 2 wuser)) = true
    ∧ after (.mappg 4 5 6) (sReg 6 1 wss) = raiseI 1 (sReg 6 1 wss)
    ∧ (let f := raiseW { flt 10 with va := rS wncn 5 } wncn; after (.mappg 4 5 6) wncn = f ∧ after (.unmappg 4 5) wncn = f)
    ∧ (let s := sReg 8 0x1000 wss; after (.rgrel 7 8) s = raiseW { flt 3 with va := rS s 7 } s)
    ∧ after (.unmappg 4 7) wpin = raiseW { flt 5 with detail := 7, level := 3, va := rS wpin 7 } (walkedAt 0x4100000000 wpin)
    ∧ after (.unmappg 4 7) wbad = raiseW { flt 5 with detail := 5, level := 3, va := rS wbad 7 } (walkedAt 0x4100000000 wbad)
    ∧ after (.unmappg 4 7) wpsn = raiseW { flt 11 with level := 3, va := rS wpsn 7 } (walkedAt 0x4100000000 wpsn) := by decide +kernel

theorem test_supervisor : (let t := after (.mappg 4 5 6) wss; rS t 4 = 0 ∧ cohWord t 0x40014010 = 0x001000004002000D ∧ (gCtx t).map (fun c => c.plNext) = some 0x400000001)
    ∧ rS (after (.mappg 4 7 6) wss) 4 = 1 ∧ (let t := after (.unmappg 4 7) wss; rS t 4 = placeLeaf 0 ∧ t.m.tlb.any (fun e => e.vpage == 0x410000) = false)
    ∧ rS (after (.unmappg 4 5) (sReg 4 9 wss)) 4 = 0 ∧ (after (.rgrel 7 8) wss).g.pc = nextPc wss ∧ rS (after (.tunack 4 9) (sReg 4 9 wss)) 4 = 0
    ∧ rS (after (.tunack 4 0) wss) 4 = 1 ∧ rS (after (.tunack 4 10) wss) 4 = 2
    ∧ (let t := after (.scan_run 4 10 11) (sReg 4 9 wss); rS t 4 = 0 ∧ (coreOf t 5).closed = true ∧ rS (after (.scan_run 4 10 11) t) 4 = 1)
    ∧ rS (after (.scan_run 4 12 11) (sReg 12 191 wss)) 4 = 2 ∧ rS (after (.scan_run 4 0 11) wss) 4 = 3 ∧ after (.mappg 4 5 6) wt = raiseI 2 wt := by decide +kernel

/-- Clauses of the system registers at their ends: 0x26 at either privilege, 0x27 and 0x14 to 0x1F unassigned. -/
theorem witness_SystemRegisterResult : wss.g.x.sup = true ∧ wt.g.x.sup = false ∧ (gCtx wss).isSome = true ∧ (0x26 : BitVec 8).toNat ≤ 0x26 ∧ 0x27 ≤ (0x27 : BitVec 8).toNat
    ∧ (0x1F : BitVec 8).toNat < 0x20 ∧ 0x14 ≤ (0x14 : BitVec 8).toNat ∧ (4 : SReg).getLsbD 0 = false := by decide +kernel

theorem test_system_registers : ([(0x00, 0), (0x03, 1), (0x04, 1), (0x09, 1), (0x0B, 1), (0x0D, 0xFFFFFFFFFFFFFFFF), (0x0F, 0x80000001), (0x10, 0)] : List (BitVec 8 × Word64)).all
      (fun p => rS (after (.srd 4 p.1) (sReg 4 3 wt)) 4 == p.2) = true
    ∧ ([(0x23, 1), (0x24, 0x4100000000), (0x25, 0x40000800), (0x26, 0x400000000)] : List (BitVec 8 × Word64)).all (fun p => rS (after (.srd 4 p.1) wss) 4 == p.2) = true
    ∧ ([0x14, 0x1F, 0x27, 0xFF] : List (BitVec 8)).all (fun r => decide (after (.srd 4 r) wss = raiseI 1 wss) && decide (after (.swr 4 r) wss = raiseI 1 wss)) = true
    ∧ ([0x20, 0x26] : List (BitVec 8)).all (fun r => decide (after (.srd 4 r) wt = raiseI 2 wt) && decide (after (.swr 4 r) wt = raiseI 2 wt)) = true
    ∧ (after (.swr 5 0x0C) (sReg 5 0xFF wt)).g.fpstat = 0x1F ∧ (after (.swr 5 0x11) (sReg 5 (-1) wt)).g.chainr = 0xFFF0FFF0 ∧ after (.swr 5 0x0F) wt = raiseI 1 wt
    ∧ (gCtx (after (.swr 5 0x25) (sReg 5 (-1) wss))).map (fun c => c.plBase) = some 0x000FFFFFFFFFFFF8
    ∧ after (.srd 5 0x0A) wt = raiseI 1 wt
    ∧ (let s := { wss with g := { wss.g with posn := some (2, 7) } }; rS (after (.srd 4 0x06) s) 4 = 2 ∧ rS (after (.srd 4 0x07) s) 4 = 7) := by decide +kernel

/-! ### The device's events -/

/-- Core 1 owns word 0 of the sector, in P with all its bytes written; core 0 holds the sector in V. -/
def wo : State :=
  { wh with m := { wh.m with l1 := [(secNo, sec1), (2 ^ 45 + secNo, { sec1 with p := 1, reg := 0xFF, data := 0xAABB })], dir := [(16 * secNo, 1)] } }

/-- A fill of the sector under way at core 0, one forward seen, none asked for. -/
def fill0 : FillPend :=
  { core := 0, sector := secNo, tag := sec1, got := false, data := 0, poison := 0, fwds := 0, seen := 1, overMask := 0, overData := 0, alloc := true }

def out0 (k : OutKind) (ws : BitVec 16) : Outst := { kind := k, core := 0, sector := secNo, gid := 1, unit := 1, words := ws }

def wout (k : OutKind) : State :=
  { wh with m := { wh.m with l1 := [(secNo, { sec1 with p := 1, w := 2, drop := 2, reg := 0xFFFF })], outs := [out0 k 3], fills := [fill0],
                             wbuf := [{ core := 0, sector := secNo, mask := 1, data := 0 }] } }

/-- Core 1's sector is a stash sector. -/
def wos : State := { wo with m := { wo.m with l1 := [(secNo, sec1), (2 ^ 45 + secNo, { sec1 with p := 1, reg := 0xFF, data := 0xAABB, stash := true })] } }

/-- The sector's region is under release, core 1 the last owner. -/
def wrel : State := { wo with m := { wo.m with regions := cellPut [] (regionOf (128 * secNo)) 0xC000 } }

theorem witness_ProtocolMessageResult : homeRoom wh secNo ∧ homeRoom wo secNo ∧ regionRel wo (regionOf (128 * secNo)) = false ∧ regionRel wrel (regionOf (128 * secNo)) = true
    ∧ regionOwners wrel (regionOf (128 * secNo)) = [(1, secNo, 1)]
    ∧ (l1At wos 1 secNo).any (fun x => x.stash && x.p ||| x.o != 0 && (match xlate wos (stashAgent wos 1 x) (128 * x.vsec) 1 with | .ok _ => true | .error _ => false)) = true
    ∧ (wout .wb).m.outs.all (fun u => u.kind != .wt) = true ∧ ({ wout .wb with m := { (wout .wb).m with fills := [] } } : State).m.fills = []
    ∧ staleHome wh 0 secNo = false ∧ homeBusy wh secNo = false ∧ heldBefore wh secNo = false ∧ snoopLines wh secNo false = [] ∧ snoopLines wh secNo true = []
    ∧ ownersOf wh secNo 0 (some 0) = [] ∧ ownersOf wo secNo (maskWords 0xFF) (some 0) = [1] ∧ ownersOf wo secNo (BitVec.allOnes 16) (some 0) = [1] ∧ staleHome wo 0 secNo = false
    ∧ homeBusy wo secNo = false ∧ (wout .rego).m.fills.find? (fun f => f.core == 0 && f.sector == secNo) = some fill0 ∧ (l1At (wout .rego) 0 secNo).isSome = true
    ∧ (0 : Nat) ≤ fill0.seen ∧ fill0.got = false ∧ takeOut .rego 0 secNo (wout .rego).m.outs = some (out0 .rego 3, []) ∧ takeOut .wt 0 secNo (wout .wt).m.outs = some (out0 .wt 3, [])
    ∧ takeOut .wb 0 secNo (wout .wb).m.outs = some (out0 .wb 3, []) ∧ ((wout .wb).m.wbuf.find? (fun w => w.core == 0 && w.sector == secNo)).isSome = true
    ∧ takeOut .atom 0 secNo (wout .atom).m.outs = some (out0 .atom 3, []) := by unfold homeRoom; decide +kernel

/-- Two refused messages of the same home: one at its first leg, and one of another core that has reached the edge of the home's die. -/
def wref : State :=
  let e := fun (c : Nat) => Event.rds c secNo false
  { wh with m := { wh.m with refused := [(e 0x700, (refusableLegs wh (e 0x700)).headD ⟨0, .core 0, .core 0⟩), (e 0x701, (refusableLegs wh (e 0x701)).getLastD ⟨0, .core 0, .core 0⟩)] } }

/-- The message further on its way is offered again first (R85). -/
theorem test_reoffer : wref.m.refused.map (fun r => (legsFrom wref r).length) = [3, 1]
    ∧ (let t := after .refused_message_reoffer wref; t.agenda = [.rds 0x701 secNo false, .rds 0x700 secNo false] ∧ t.m.refused = []) := by decide +kernel

/-- RDS, REGO, RVK, RVKDATA, WT, WB, ATOM, FWDRD as they arrive. -/
theorem test_home_messages : (let t := after .rds (withEv (.rds 0 secNo false) wo); t.agenda.contains (.fwdrd 1 0 secNo) = true ∧ t.agenda.length = 2)
    ∧ (let t := after .rego (withEv (.rego 0 secNo 0xFF) wo); t.m.held.length = 1 ∧ t.agenda.contains (.rvk 1 secNo 1) = true)
    ∧ (let t := after .rego (withEv (.rego 0 secNo 0xFF00) wo); ownerOf t (16 * secNo + 1) = some 0 ∧ t.agenda.contains (.regack 0 secNo) = true)
    ∧ (let t := after .rvk (withEv (.rvk 1 secNo 1) wo); (l1At t 1 secNo).map (fun x => x.p) = some 0 ∧ t.agenda.length = 1)
    ∧ (let t := after .rvkdata (withEv (.rvkdata 1 secNo 1 { mask := 3, data := 0x1234 }) wo); ownerOf t (16 * secNo) = none ∧ cohByte t 0x40000101 = 0x12)
    ∧ (let t := after .wt (withEv (.wt 0 secNo { mask := 0x100, data := 0x99 <<< 64 } true false) wo); cohByte t 0x40000108 = 0x99 ∧ t.agenda.contains (.wtack 0 secNo) = true)
    ∧ (let t := after .wb (withEv (.wb 1 secNo { mask := 3, data := 0x7788 }) wo); cohByte t 0x40000100 = 0x88 ∧ ownerOf t (16 * secNo) = none)
    ∧ (let t := after .atom (withEv (.atom 0 secNo 0 true .rne [⟨8, 5, 0⟩]) wo); cohByte t 0x40000108 = 5 ∧ t.agenda.contains (.atomrsp 0 secNo true [(8, 0)]) = true)
    ∧ (after .fwdrd (withEv (.fwdrd 1 0 secNo) wo)).agenda.length = 1 ∧ (after .fwdrd (withEv (.fwdrd 1 0 secNo) wos)).agenda.length = 2
    ∧ regionHome (after .rvkdata (withEv (.rvkdata 1 secNo 1 { mask := 3, data := 0x1234 }) wrel)) (regionOf (128 * secNo)) = none := by decide +kernel

/-- FILL, FWDDATA, REGACK, WTACK, WBACK, ATOMRSP, RETRY, a region lookup, and refused messages offered again. -/
theorem test_core_messages : (let t := after .fill (withEv (.fill 0 secNo 0x42 0 0 0) (wout .rego)); fillPending t 0 secNo = false)
    ∧ (after .fwddata (withEv (.fwddata 0 secNo { mask := 1, data := 1 }) (wout .rego))).m.fills.map (fun f => (f.seen, f.overMask)) = [(2, 1)]
    ∧ (l1At (after .regack (withEv (.regack 0 secNo) (wout .rego))) 0 secNo).map (fun x => (x.p, x.o)) = some (0, 1)
    ∧ (l1At (after .wtack (withEv (.wtack 0 secNo) (wout .wt))) 0 secNo).map (fun x => (x.w, x.valid.extractLsb' 0 24)) = some (0, 0xFF00FF)
    ∧ (after .wback (withEv (.wback 0 secNo) (wout .wb))).m.wbuf = []
    ∧ (l1At (after .atomrsp (withEv (.atomrsp 0 secNo true [(16, 0)]) (wout .atom))) 0 secNo).map (fun x => x.valid.extractLsb' 16 8) = some 0
    ∧ (after .retry (withEv (.retry 0 0x4000) wh)).agenda = [.region_home_lookup 0 0x4000]
    ∧ (regionHome (after .region_home_lookup (withEv (.region_home_lookup 0 0x4000) wh)) 0x4000).isSome = true
    ∧ (after .refused_message_reoffer { wh with m := { wh.m with refused := [(.regack 0 5, ⟨0, .core 0, .slice 0⟩)] } }).agenda = [.regack 0 5] := by decide +kernel

def hline : Nat := 0x40000100 / 64

/-- The device holds a line of host memory in M. -/
def whl : State := { wh with m := { wh.m with hlines := [(5, { st := .m, data := 0x77 })], hfilt := [(hline, true)], biPend := [hline] } }

/-- The region table's first line. -/
def tline : Nat := wh.tun.rgnt / 64

theorem witness_HostMemoryEventResult : inTable wh hline = false ∧ inTable wh tline = true ∧ inHbm (64 * tline) = true ∧ homeRoom wh (hline / 2) ∧ homeRoom wh (5 / 2) ∧ homeRoom wh secNo
    ∧ wh.m.biPend.contains tline = false ∧ heldBefore wh (tline / 2) = false ∧ lineClaimed wh tline = false ∧ ownersOf wh (tline / 2) (lineWords tline) none = []
    ∧ (let s := { wh with tun := { wh.tun with exp := [0x8000000000000001] } }; homeRoom s (2 ^ 44 / 128))
    ∧ inHbm (64 * hline) = true ∧ wh.m.biPend.contains hline = false ∧ heldBefore wh (hline / 2) = false ∧ lineClaimed wh hline = false
    ∧ ownersOf wh (hline / 2) (lineWords hline) none = [] ∧ whl.m.biPend.contains hline = true ∧ (amGet? whl.m.hlines 5).isSome = true ∧ amGet? wh.m.hlines 5 = none
    ∧ amGet? wh.m.l2 secNo = none ∧ inHbm (128 * secNo) = true ∧ (findGroup wv 9).any (fun g => g.status == .waiting) = true
    ∧ (let s := { wh with tun := { wh.tun with exp := [0x8000000000000001] } }; inExpander s.tun (128 * (2 ^ 44 / 128)) = true)
    ∧ releasing wh (hline / 2) = false ∧ releasing wh (tline / 2) = false ∧ filterFull wh hline = false ∧ filterFull wh tline = false
    ∧ inDevMem wh.tun (64 * hline) = true ∧ ({ wh with h := { wh.h with portPcie := [true, false] } } : State).h.portPcie.any id = true := by unfold homeRoom; decide +kernel

theorem test_host_memory : (let t := after .memrd (withEv (.memrd hline) (put64 0x40000100 0x1234 wh)); t.h.reply = [(hline, 0x1234)] ∧ amGet? t.m.hfilt hline = some false)
    ∧ cohByte (after .memwr (withEv (.memwr hline 2 0x5500) wh)) 0x40000101 = 0x55
    ∧ (let t := after .birsp (withEv (.birsp hline true) whl); t.m.biPend = [] ∧ amGet? t.m.hfilt hline = none)
    ∧ (after .biconflict (withEv (.biconflict hline) { whl with agenda := [.memrd hline] })).m.held = [.memrd hline]
    ∧ (let t := after .snpdata (withEv (.snpdata 5) whl); t.h.reply = [(5, 0x77)] ∧ memGet t.m.mem 320 = 0x77 ∧ (amGet? t.m.hlines 5).map (fun h => h.st) = some .s)
    ∧ amGet? (after .snpinv (withEv (.snpinv 5) whl)).m.hlines 5 = none ∧ (after .snpcur (withEv (.snpcur 5) whl)).h.reply = [(5, 0x77)]
    ∧ (amGet? (after .cxl_cache_data (withEv (.cxl_cache_data 6 true true) whl)).m.hlines 6).map (fun h => h.st) = some .e
    ∧ (amGet? (after .base_die_reply (withEv (.base_die_reply secNo 9 0) wh)).m.l2 secNo).map (fun x => x.data) = some 9
    ∧ (after .pcie_host_access (withEv (.pcie_host_access false hline 0 0) (put64 0x40000100 3 { wh with h := { wh.h with portPcie := [true, false] } }))).h.reply = [(hline, 3)] := by
  decide +kernel

theorem test_host_replies : (let s := { wh with tun := { wh.tun with exp := [0x8000000000000001] } }
      (amGet? (after .expander_memrd_data (withEv (.expander_memrd_data (2 ^ 44 / 128) 9 0) s)).m.l2 (2 ^ 44 / 128)).map (fun x => x.data) = some 9)
    ∧ (let s := { wv with rest := wv.rest.map (fun g => { g with watch := none, hostDue := 1 }) }
       (after .host_port_completion (withEv (.host_port_completion 9 5) s)).rest.map (fun g => (g.hostVals, g.status)) = [([5], .running)]) := by decide +kernel

/-- Context 1 with a count of one at (1, (5, 0)), its frontier announced; device 3 is the peer. -/
def wpg : State :=
  let s := subscribe 1 1 0 wf5
  let c := { ctx1 with peers := [{ dev := 3, ctx := 1, up := false }] }
  let t := { s.t with frets := [(0, [{ src := .group 1, ctx := 1, ds := [] }])], peerSeen := [(3, 4)] }
  { s with ctxs := [(1, c)], t := { t with peerOut := [{ dev := 3, seq := 5, ctx := 1, ds := [] }] } }

/-- The exchange with device 3 is up, and location 1 is shared. -/
def wpu : State :=
  { wpg with ctxs := [(1, { ctx1 with locs := [loc0, { loc0 with kind := 1, shr := true }], peers := [{ dev := 3, ctx := 1, up := true }] })] }

theorem witness_ProgressEventResult : batchShared ((ctxOf wpu 1).getD Ctx.fresh) [⟨1, ⟨5, 0⟩, 2⟩] = true ∧ cutOff wpu 1 1 = false ∧ wouldLower wpu 1 1 ⟨5, 0⟩ = false
    ∧ wpg.t.peerOut.map (fun b => b.dev) = [3] ∧ countOf wpg 1 1 ⟨5, 0⟩ = 1 ∧ wouldLower wpg 1 1 ⟨5, 0⟩ = false ∧ wouldLower wpg 1 1 ⟨4, 0⟩ = true ∧ cutOff wpg 1 1 = false
    ∧ (amGet? wpg.t.frets 0).isSome = true ∧ (findGroup wpg wpg.g.idn.gid).isSome = true ∧ (4 : Nat) ≤ (amGet? wpg.t.peerSeen 3).getD 0 ∧ (amGet? wpg.t.peerSeen 3).getD 0 < 5
    ∧ ctxOf wpg 9 = none ∧ pairedWith wpg 1 3 = true ∧ wpg.t.peerHeld = [] ∧ (amGet? wpg.t.peerSeen 3).getD 0 + 1 < 6 ∧ (23 : Nat) < 24 := by decide +kernel

/-- Device 3 has paired its context 7. -/
def wpp : State := { wpu with ctxs := wpu.ctxs.map (fun e => (e.1, { e.2 with peers := [{ dev := 3, ctx := 7, up := true }] })) }

theorem test_progress_events : (let s := withEv (.batch (.group 1) 9 [⟨1, ⟨6, 0⟩, 2⟩]) wpg; after .batch s = s)
    ∧ (after .batch (withEv (.batch (.group 1) 1 [⟨1, ⟨6, 0⟩, 2⟩]) wpp)).t.peerWire = [.batch ⟨3, 1, 7, [⟨1, ⟨6, 0⟩, 2⟩]⟩] ∧ countOf (after .batch (withEv (.batch (.group 1) 1 [⟨1, ⟨6, 0⟩, 2⟩]) wpg)) 1 1 ⟨6, 0⟩ = 2
    ∧ (recsOf (after .batch (withEv (.batch (.group 1) 1 [⟨1, ⟨4, 0⟩, 2⟩]) wpg))).map (fun r => (r.src, r.fcode)) = [(6, 13)]
    ∧ (announcedOf (after .frontier_announcement (withEv (.frontier_announcement 1 1) wpg)) 1 1).map (fun a => a.stamp) = some ⟨5, 0⟩
    ∧ (after .fret_forward (withEv (.fret_forward 0) wpg)).agenda = [.batch (.group 1) 1 []]
    ∧ (after .batch_acknowledgement (withEv (.batch_acknowledgement wpg.g.idn.gid) { wpg with g := { wpg.g with n := { wpg.g.n with batchOut := 1 } } })).g.n.batchOut = 0
    ∧ (after .peer_flit (withEv (.peer_flit 0 true 3 (.batch 5 1 [])) wpg)).agenda = [.peer_batch 3 5 1 []]
    ∧ amGet? (after .peer_batch (withEv (.peer_batch 3 5 1 [⟨1, ⟨6, 0⟩, 2⟩]) wpg)).t.peerSeen 3 = some 5
    ∧ countOf (after .peer_batch (withEv (.peer_batch 3 4 1 [⟨1, ⟨6, 0⟩, 2⟩]) wpg)) 1 1 ⟨6, 0⟩ = 0
    ∧ (after .peer_batch (withEv (.peer_batch 3 4 1 [⟨1, ⟨6, 0⟩, 2⟩]) wpg)).t.peerWire = [.ack 3 4]
    ∧ (let t := after .peer_batch (withEv (.peer_batch 3 6 1 [⟨1, ⟨7, 0⟩, 2⟩]) wpg); let u := after .peer_batch (withEv (.peer_batch 3 5 1 [⟨1, ⟨6, 0⟩, 2⟩]) t)
        amGet? t.t.peerSeen 3 = some 4 ∧ countOf t 1 1 ⟨7, 0⟩ = 0 ∧ t.t.peerWire = [] ∧ amGet? u.t.peerSeen 3 = some 6 ∧ countOf u 1 1 ⟨7, 0⟩ = 2
          ∧ u.t.peerHeld = [] ∧ u.t.peerWire = [.ack 3 5, .ack 3 6])
    ∧ (after .batch (withEv (.batch (.group 1) 1 [⟨1, ⟨6, 0⟩, 2⟩]) wpu)).t.peerWire = [.batch ⟨3, 1, 1, [⟨1, ⟨6, 0⟩, 2⟩]⟩]
    ∧ (after .peer_batch_ack (withEv (.peer_batch_ack 3 5) wpg)).t.peerOut = []
    ∧ (after .link_retrain (withEv (.link_retrain 23 2 1) wpg)).agenda = [.tuning_event (.link 23 2 1)]
    ∧ (let t := after .link_retrain (withEv (.link_retrain 24 2 1) wpg); t.agenda = [] ∧ cellGet t.h.life.retrains 24 = 1)
    ∧ (let t := after .exchange_restore (withEv (.exchange_restore 3) wpg); (ctxOf t 1).map (fun c => c.peers.map (fun p => p.up)) = some [true]
        ∧ t.t.peerWire = [.batch ⟨3, 5, 1, []⟩]) := by decide +kernel

/-! ### Dispatch and window engines -/

/-- Stream 0 with a resume entry, 64 vector registers, 4 state words and a payload of one word. -/
def desc2 : BitVec 512 := desc0 ||| (0x41000000C0 <<< 192) ||| (2 <<< 27) ||| (4 <<< 52) ||| (1 <<< 47)

def ctx2 : Ctx := { ctx1 with streams := [sd desc2, sd desc1], pegBase := 0x40050000, log2b := 4 }

/-- The record ((105, 0), key 9). -/
def rec3 : Rec := { no := 3, ctx := 1, sid := 0, data := BitVec.ofNat 4096 (105 + 9 * 2 ^ 128 + 77 * 2 ^ 256), left := 1, opened := [5], idx := 0 }

def item3 : QItem := { recNo := 3, absorb := none, start := 100, last := 105, count := 1 }

/-- Window 5 of key 9, [100, 200), the record in its queue. -/
def win5 : Window :=
  { id := 5, ctx := 1, sid := 0, cluster := 0, st := .dormant, clp := false, opening := false, absorbed := false, key := 9, start := 100, lastE := 105, lastC := 0,
    expiry := 199, count := 1, words := 0x11, queue := [item3], folds := [], pane := false, pegPa := 0x40050100, cached := true, dirty := true, lastNo := 3,
    firstStamp := ⟨105, 0⟩, readyFor := some .resume, ready := 0 }

/-- A launch of two teams and a card of eight records in context 1, on cluster 0. -/
def grid8 : Grid := { grid7 with nteam := 2, nextTeam := 0, teamsUp := 0, cmask := 1 }

def card9 : Card :=
  { ctx := 1, queue := 0, row := row0, base := 0x1000, rsize := 64, count := 8, dealt := 0, groupsUp := 0, stamp := ⟨4, 0⟩, loc := 0xFFFF, pri := 1, cmask := 1,
    rep := { cmd := none, donew := 0, parent := 0 }, order := 0, cancelled := false }

def wdv : State :=
  let w := { wt.w with recs := [(3, rec3)], wins := [(5, win5)] }
  let d := { wt.d with grids := [(8, grid8)], cards := [(9, card9)], nextId := 20, nextGid := 20 }
  subscribe 1 1 0 { wt with ctxs := [(1, ctx2)], w := w, d := d }

/-- The record has arrived and its window does not exist yet. -/
def warr : State := { wdv with w := { wdv.w with wins := [], arrivals := [(0, [3])] } }

/-- A part that starts, with its group. -/
def wps : State :=
  let t := { team1 with grid := 8, parts := [{ part0 with v := false, st := true }] }
  { wdv with d := { wdv.d with teams := [(1, t)] }, rest := [{ wdv.g with status := .starting, idn := { wdv.g.idn with gid := 9 } }] }

/-- A part whose groups have exited, alone in its team or with another. -/
def wpx (ps : List PartEnt) : State :=
  { wdv with d := { wdv.d with teams := [(1, { team1 with grid := 8, parts := { part0 with exited := 1 } :: ps })] } }

/-- A deterministic team that has just received the bow, with one staged entry. -/
def wbow : State :=
  let e : StageEnt := { gid := 1, team := 1, part := 0, gidx := 0, seq := 0, va := 0x4100000100, mask := 0x0F, data := 0x8877665544332211 }
  { wdv with d := { wdv.d with teams := [(1, { team1 with grid := 8, bow := .holds })], cores := [(0, { coreOf wdv 0 with stage := [e] })] } }

def fitsOn (s : State) (r : EntryRow) : Bool := placeTeam s r 1 [] == some (0, [1]) && (blockPlace s (blockSize r false)).isSome && decide (0 < r.g)

theorem witness_DispatchEventResult : (ctxOf warr 1).isSome = true ∧ sdKind desc2 = 0 ∧ (member 0 rec3 desc2 warr).isRight = true ∧ candidates warr 0 1 0 9 = []
    ∧ amGet? warr.w.arrivals 0 = some [3] ∧ amGet? warr.w.recs 3 = some rec3 ∧ (streamOf warr 1 0).any (fun d => !d.parked) = true ∧ ctxRuns warr 1 = true
    ∧ amGet? wdv.w.arrivals 0 = none ∧ (announcedOf wdv 1 (sdLoc desc2)).any (fun a => a.stamp.epoch == BitVec.allOnes 64) = true ∧ sdPanes desc2 = false
    ∧ winOf wdv 5 = some win5 ∧ engineLeaving wdv = false := by decide +kernel

/-- 512 steps after the window's work has become ready. -/
def wdw : State := { wdv with tick := 600 }

theorem witness_DispatchEventResult_groups : let row := winRow wdw 1 desc2 (entryAddr desc2 .resume);
    (((laneGroups wdw 0 1 0 desc2 .resume).filter (groupDue wdw desc2 .resume)).find? (fun js => js.all (fun j => (pegMissing wdw j).isEmpty))).map (fun js => js.length) = some 1
    ∧ (laneGroups wdv 0 1 0 desc2 .resume).filter (groupDue wdv desc2 .resume) = [] ∧ ctxRuns wdw 1 = true ∧ engineLeaving wdw = false
    ∧ inTable wdw (2 * (win5.pegPa / 128)) = false ∧ cohPoisoned wdw win5.pegPa 128 = false ∧ (cachedPegs wdw 0).length < 4096
    ∧ (blockPlace wdw (blockSize row false)).isSome = true ∧ winCore wdw 0 row = some 1 ∧ coreFilling wdw 1 = false
    ∧ winOf { wdv with w := { wdv.w with wins := [(5, { win5 with cached := false })] } } 5 = some { win5 with cached := false } ∧ win5.pegPa ≠ 0 := by decide +kernel

theorem witness_DispatchEventResult_starts : gridAvoid wdv 8 = [] ∧ coreFilling wbow 0 = false ∧ inTable wbow (2 * (0x40000100 / 128)) = false
    ∧ (wbow.d.teams.any (fun e => (stagedOf wbow 1).all (fun x => (match drainSeg wbow e.2 x with | .ok g => decide (g.kind < 2) && g.pa == 0x40000100 | .error _ => false)))) = true
    ∧ amGet? wdv.d.grids 8 = some grid8 ∧ teamDue wdv grid8 = true ∧ fitsOn wdv grid8.row = true ∧ amGet? wdv.d.cards 9 = some card9
    ∧ card9.dealt < card9.count ∧ ctxRuns wdv card9.ctx = true ∧ card9.cancelled = false ∧ fitsOn wdv (jobRow card9.row) = true ∧ (teamOf wps 1).any (fun t => (partEnt t 0).any (fun e => e.st) && !t.saved) = true
    ∧ coreFilling wps 0 = false ∧ partRead (wpx []) 1 0 = false ∧ (teamOf (wpx []) 1).any (fun t => t.bow == .off && t.stash.isEmpty) = true
    ∧ (teamOf (wpx [part0]) 1).any (fun t => (partEnt t 1).any (fun e => !e.left)) = true
    ∧ (wbow.d.teams.find? (fun e => e.2.bow == .holds && !e.2.drained && !e.2.saved)).any (fun e => e.2.parts.any (fun p => !p.left)) = true
    ∧ (wbow.d.teams.any (fun e => (drainRun e.2 (stagedOf wbow 1) wbow).1.isEmpty)) = true ∧ (stagedOf wbow 1).length = 1 := by decide +kernel

/-- A record opens its TUMBLE window, or joins it; a closing frontier closes; a group starts with the window's registers. -/
theorem test_window_engine : (let t := after .window_engine_step (withEv (.window_engine_step 0) warr);
      t.w.wins.map (fun e => (e.2.start, e.2.expiry, e.2.count, e.2.key, e.2.lastE)) = [(100, 199, 1, 9, 105)] ∧ amGet? t.w.arrivals 0 = none
        ∧ t.w.wins.map (fun e => (e.2.clp, e.2.opening)) = [(true, true)] ∧ cohWord t 0x40059008 = 1)
    ∧ (let t := after .window_engine_step (withEv (.window_engine_step 0) { warr with w := { warr.w with wins := [(5, { win5 with queue := [], count := 7 })] } });
      (winOf t 5).map (fun w => (w.count, w.queue.length, w.clp)) = some (8, 1, true))
    ∧ (let t := after .window_group_start (withEv (.window_group_start 0 1 0 .resume) wdw);
      t.rest.map (fun g => (g.idn.kind, g.pc, g.live, g.idn.core, g.idn.nv)) = [(.window, 0x41000000C0, 1, 1, 64)]
        ∧ t.rest.all (fun g => ([(1, 0), (2, 1), (3, 1), (4, 0xFFFFFFFFFFFFFFFF)] : List (Nat × Word64)).all (fun p => cellGet g.sregs p.1 == p.2)
            && ([(0, 0x11), (16, 105), (18, 9), (20, 77)] : List (Nat × Word64)).all (fun p => cellGet g.vregs (32 * p.1) == p.2)) = true
        ∧ (winOf t 5).map (fun w => w.st) = some .active)
    ∧ (let t := after .peg_load (withEv (.peg_load 1 0 5) (put64 0x40050108 6 { wdv with w := { wdv.w with wins := [(5, { win5 with cached := false })] } }));
      (winOf t 5).map (fun w => (w.cached, wordOf w.words 1)) = some (true, 6)) := by decide +kernel

theorem test_team_starts : (let t := after .team_start (withEv (.team_start 8) wdv);
      t.rest.map (fun g => (g.idn.kind, g.idn.team, g.idn.core, g.idn.tidx)) = [(.compute, 20, 1, 0)] ∧ t.rest.map (fun g => (g.status, g.pc)) = [(.starting, 0x4100000000)]
        ∧ (amGet? t.d.grids 8).map (fun g => (g.nextTeam, g.teamsUp)) = some (1, 1) ∧ t.agenda.contains (.part_start 20 0) = true)
    ∧ (let t := after .part_start (withEv (.part_start 1 0) (sramPut 0 0x10000 1 5 wps)); t.rest.map (fun g => g.status) = [.running] ∧ sramByte t 0 0x10000 = 0)
    ∧ (teamOf (after .part_exit (withEv (.part_exit 1 0) (wpx [part0]))) 1).map (fun t => t.parts.map (fun p => p.v)) = some [false, true]
    ∧ (teamOf (after .part_exit (withEv (.part_exit 1 0) (wpx []))) 1).isNone = true := by decide +kernel

theorem test_chunk_and_bow : (let t := after .job_chunk_deal (withEv (.job_chunk_deal 9) wdv);
      t.rest.map (fun g => (g.idn.kind, cellGet g.sregs 1, cellGet g.sregs 2)) = [(.job, 0x1000, 64)] ∧ t.rest.map (fun g => (cellGet g.sregs 3, cellGet g.sregs 4)) = [(1, 4)]
        ∧ (amGet? t.d.cards 9).map (fun c => c.dealt) = some 1)
    ∧ (let t := after .bow_receive (withEv .bow_receive wbow); (teamOf t 1).map (fun x => x.drained) = some true ∧ cohByte t 0x40000103 = 0x44
        ∧ cohByte t 0x40000104 = 0) := by
  decide +kernel

/-! ### Deliveries, timers, transfers -/

/-- A group of context 1 with a copy in slot 0 and an mxzero behind it. -/
def wpk : State :=
  let s := after (.cpy 2 4 2 (.imm 16) 0) (sReg 4 0xFE001FF0 wt)
  after (.mxzero 0) { s with g := { s.g with idn := { s.g.idn with ntile := 1 } } }

/-- Its copy is parked with F_PAGE and awaits delivery. -/
def wpq : State :=
  let cps := wpk.g.n.cps.map (fun c => { c with parked := true, fcode := 0x30200004, fva := 0x4100020000 })
  { wpk with g := { wpk.g with live := 0x0F, n := { wpk.g.n with cps := cps, parkQ := [(false, 0)] } } }

def withStatus (st : GStatus) : State := { wt with g := { wt.g with status := st, wakeAt := 700 } }

def gq : Nat := wt.g.idn.gid

/-- A stash's write-back has failed for the group: an F_PAGE at 0x41_0002_0000 stands before it. -/
def wbk : State := { wpq with g := { wpq.g with x := { wpq.g.x with backFlts := [(0x30100004, 0x4100020000)] } } }

/-- Its copy is parked with a fault that stops the group; a replay under way; a safe's entry that keeps v0 alone. -/
def wps6 : State :=
  let cps := wpk.g.n.cps.map (fun c => { c with parked := true, fcode := 0x00200006, fva := 0x4100020000 })
  { wpk with g := { wpk.g with n := { wpk.g.n with cps := cps, parkQ := [(false, 0)] } } }

def wprep : State := { wpk with g := { wpk.g with x := { wpk.g.x with replay := some 1 } } }

def wsw : State := { wsafe with g := { wsafe.g with saveWay := .safePoint 0x1, halt := true } }

theorem witness_DeliveryAndTimerResult_boundary : atBoundary wpk.g = true ∧ wpk.g.n.parkQ = [] ∧ atBoundary wprep.g = false ∧ parkEnters wps6 wps6.g 0x00200006 = false
    ∧ wps6.g.x.backFlts = [] ∧ wps6.g.n.parkQ = [(false, 0)] ∧ parkedFault wps6.g (false, 0) = some (0x00200006, 0x4100020000) ∧ (0x00200006 : Word32).toNat % 65536 ≠ 11
    ∧ parkEnters wpq wpq.g 0x30200004 = true ∧ wundr.g.saveDue = true ∧ drained wundr.g = false ∧ findGroup wundr gq = some wundr.g ∧ wsw.g.saveDue = true
    ∧ drained wsw.g = true ∧ wsw.g.halt = true ∧ wsw.g.saveWay = .safePoint 0x1 ∧ findGroup wsw gq = some wsw.g ∧ (teamOf wsw 1).all (fun t => t.stash.isEmpty) = true := by decide +kernel

theorem witness_DeliveryAndTimerResult : wpq.g.x.backFlts = [] ∧ wbk.g.x.backFlts = [(0x30100004, 0x4100020000)] ∧ entersHandler wbk 4 3 = true
    ∧ (teamOf wsafe 1).all (fun t => t.stash.isEmpty) = true ∧ (findGroup wt gq).any (fun g => g.status == .running) = true ∧ (findGroup (withStatus .yielded) gq).any (fun g => g.status == .yielded) = true
    ∧ (findGroup (withStatus .sleeping) gq).any (fun g => g.status == .sleeping) = true
    ∧ (findGroup (withStatus .waiting) gq).any (fun g => g.status == .waiting && g.watch.isNone) = true ∧ wsafe.g.saveDue = true ∧ drained wsafe.g = true
    ∧ wpq.g.n.parkQ = [(false, 0)] ∧ parkedFault wpq.g (false, 0) = some (0x30200004, 0x4100020000)
    ∧ rollsBack wt wt.g = none ∧ (findCopy wpk.g 0).isSome = true ∧ (findMx wpk.g 0).isSome = true ∧ parkEnters wpk wpk.g 0x30200004 = true
    ∧ parkEnters wpk wpk.g 0xB0200004 = false ∧ (0xB0200004 : Word32).toNat % 65536 ≠ 11 ∧ findGroup wpk wpk.g.idn.gid = some wpk.g := by decide +kernel

theorem test_timers : (after .urgent (withEv (.urgent gq) wt)).g.urgent = true
    ∧ (after .yield_expiry (withEv (.yield_expiry gq) (withStatus .yielded))).g.status = .running
    ∧ (let t := after .sleep_expiry (withEv (.sleep_expiry gq) (withStatus .sleeping)); t.g.status = .running ∧ t.nsec = 700)
    ∧ (after .vnbr_timeout (withEv (.vnbr_timeout gq) (withStatus .waiting))).g.timedOut = true
    ∧ (after .vxshf_timeout (withEv (.vxshf_timeout gq) (withStatus .waiting))).g.status = .running
    ∧ (after .vnbr_timeout (withEv (.vnbr_timeout gq) wt)).g.timedOut = true ∧ (after .vxshf_timeout (withEv (.vxshf_timeout gq) wt)).g.timedOut = true
    ∧ (let t := after .forced_save (withEv (.forced_save gq) wundr); t.g.halt = true ∧ t.g.saveDue = true ∧ t.timers = [(16, .forced_save 1)] ∧ ready t.g = false)
    ∧ (let t := after .forced_save (withEv (.forced_save gq) wsw); t.g.status = .saved ∧ rV t 3 31 = 0 ∧ rV t 0 31 = rV wsw 0 31)
    ∧ (let t := after .forced_save (withEv (.forced_save gq) wsafe); t.g.status = .saved ∧ t.g.vregs = wsafe.g.vregs ∧ t.g.saveDue = false) := by decide +kernel

theorem test_deliveries : (let t := after .parked_fault_delivery wbk; t.g.x.faultVa = 0x4100020000 ∧ t.g.x.faultCode = 0x30100004 ∧ t.g.pc = 0x4100000400 ∧ t.g.x.backFlts = []
      ∧ t.g.n.parkQ = [(false, 0)] ∧ (after .retf t).g.x.replay = none)
    ∧ (let t := after .parked_fault_delivery wpq; t.g.x.faultMask = 1 ∧ t.g.live = 1 ∧ t.g.x.liveSave = 0x0F ∧ t.g.pc = 0x4100000400 ∧ t.g.x.faultVa = 0x4100020000
      ∧ t.g.x.epc = wpq.g.pc ∧ t.g.n.parkQ = [])
    ∧ (recsOf (after .eccu_delivery { wt with g := { wt.g with x := { wt.g.x with eccu := some (0x4100000108, 2) } } })).map (fun r => (r.fva, r.fcode.toNat % 65536, r.first)) = [(0x4100000108, 11, 0)]
    ∧ (after .park (withEv (.park false wpk.g.idn.gid 0 0x30200004 5) wpk)).g.n.parkQ = [(false, 0)]
    ∧ (after .park (withEv (.park true wpk.g.idn.gid 0 0x30400004 5) wpk)).g.n.parkQ = [(true, 0)]
    ∧ (recsOf (after .parked_fault_delivery wps6)).map (fun r => (r.src, r.fcode, r.fva)) = [(1, 0x00200006, 0x4100020000)]
    ∧ (after .park (withEv (.park false wprep.g.idn.gid 0 0xB0200004 5) wprep)).g.n.parkQ = [(false, 0)]
    ∧ (recsOf (after .park (withEv (.park false wpk.g.idn.gid 0 0xB0200004 5) wpk))).map (fun r => (r.src, r.fva)) = [(1, 5)]
    ∧ (recsOf (after .park (withEv (.park true wpk.g.idn.gid 0 0xB0400004 5) wpk))).map (fun r => (r.src, r.fva)) = [(2, 5)] := by decide +kernel

/-! ### Queues -/

/-- The ring at 0x41_0000_8000: BASE 0x41_0000_9000, 16 entries. -/
def ring2 : Ring := { block := 0x4100008000, base := 0x4100009000, log2n := 4, irq := false, port := false, vec := 0 }

def q2 : Queue :=
  { ctx := 1, tenant := 1, admin := false, block := 0x410000A000, base := 0x410000B000, log2n := 4, pri := 3, cmask := 1, ring := ring2, seen := 0, cons := 0, stopped := false,
    open_ := [], parked := [], held := false, destroying := none }

/-- Physical rings and blocks of the admin queue and of the fault ring. -/
def ringP (block base : Word64) : Ring := { ring2 with block := block, base := base }

def qa : Queue := { q2 with ctx := 0, admin := true, block := 0x40062000, base := 0x40063000, ring := ringP 0x40060000 0x40061000 }

def cmd0 (op : BitVec 8) (admin : Bool) (body : Nat) : QCmd :=
  { id := 4, queue := if admin then 1 else 2, admin := admin, op := op, ord := false, repl := false, pin := false, det := false, badHdr := false, nh := 0, uses := [], tag := 0xAB,
    body := BitVec.ofNat 768 body }

/-- A transfer of 16 bytes within the first page. -/
def xfer4 : Xfer :=
  { cmd := cmd0 7 false 0, ctx := 1, done := 0, len := 16, src := 0x4100000100, dst := 0x4100000184, peer := 0xFF, dstPeer := false, srcPeer := false, parked := false, status := 0,
    fcode := 0, finished := false, finAt := 0, ring := 0x4100008000, pri := 3 }

/-- A queue of context 1, tenant 1's admin queue and its fault ring. -/
def wcq : State :=
  let s := wpt wr
  let q := { s.q with queues := [(2, q2)], admins := [(1, qa)], frings := [(1, { ring := ringP 0x40064000 0x40065000, wait := [] })], nextCmd := 5 }
  subscribe 1 1 0 { s with ctxs := [(1, { ctx2 with root := 0x40011000, primax := 7 })], q := q, d := { s.d with nextId := 20, nextGid := 20 } }

def wxf (x : Xfer) : State := { wcq with q := { wcq.q with xfers := [(4, x)] } }

def isOk (r : RingRes) : Bool := match r with
  | .ok _ => true
  | _ => false

def isFull (r : RingRes) : Bool := match r with
  | .full _ => true
  | _ => false

def xfer4f : Xfer := { xfer4 with finished := true, done := 16 }

def isPage (r : XferRes) : Bool := match r with
  | .fault f _ _ => f.code == 4
  | _ => false

theorem witness_DeliveryAndTimerResult_transfers : (ringBehind (wxf xfer4f) 4 xfer4f = false ∧ recordHolds (wxf xfer4f) xfer4f.cmd.id = false ∧ (xferRing xfer4f (wxf xfer4f)).1 = .inr ring2
      ∧ isOk (ringPut (.virt 1) ring2 16 (fun prod => xferBits xfer4f (lapBit ring2 prod))
        (flushHandles true 1 ((xfer4f.cmd.uses.filter (fun h => h.wr)).map (fun h => h.idx)) (xferRing xfer4f (wxf xfer4f)).2)) = true)
    ∧ (let x := { xfer4 with src := 0x410001FFF8 }; isPage (xferRun x.len x (wxf x)) = true ∧ ctxRuns (wxf x) 1 = true)
    ∧ (let x := { xfer4 with dstPeer := true, peer := 3 }; (match xferRun x.len x (wxf x) with
        | .wait y _ => y.asked && !y.finished && !x.asked && y.done == 0
        | _ => false) = true) := by decide +kernel

theorem test_transfers : (let t := after .transfer_finish (withEv (.transfer_finish 4) (put64 0x40000100 0x1122334455667788 (wxf xfer4)));
      cohByte t 0x40000184 = 0x88 ∧ cohByte t 0x4000018B = 0x11 ∧ t.q.xfers = [] ∧ cohWord t 0x40009000 = 0x10000001 ∧ cohWord t 0x40009008 = 0xAB)
    ∧ (let t := after .transfer_finish (withEv (.transfer_finish 4) (wxf { xfer4 with src := 0x410001FFF8 }));
      t.q.xfers.map (fun e => (e.2.parked, e.2.done)) = [(true, 8)] ∧ (recsOf t).map (fun r => (r.src, r.fcode.toNat % 65536, r.fva)) = [(4, 4, 0x4100020000)]) := by decide +kernel

/-! ### Tuning events and scans -/

/-- Core 5 is to be scanned and is quarantined; context 1 has a deadline under way. -/
def wsn : State :=
  let sc : Scan := { core := 5, noab := false, thr := 3, ctx := 1, recVa := 0x40000200, running := false }
  let d := { wt.d with scans := [(5, sc)], cores := [(5, { coreOf wt 5 with closed := true, quarantined := true })] }
  { wt with d := d, ctxs := [(1, { ctx1 with tunDeadline := true })] }

def scan5 : Scan := { core := 5, noab := false, thr := 3, ctx := 1, recVa := 0x40000200, running := true }

theorem witness_TuningScanResult : newTuning (.core 5) wt.tun ≠ wt.tun ∧ newTuning (.cluster 3) wt.tun ≠ wt.tun ∧ (allGroups wt).all (fun g => g.idn.kind != .window) = true
    ∧ (ctxOf wsn 1).any (fun x => x.tunDeadline) = true ∧ (ctxOf wt 1).any (fun x => !x.tunDeadline) = true ∧ (amGet? wsn.d.scans 5).any (fun sc => !sc.running) = true
    ∧ residents wsn 5 = [] ∧ loopsBusy wt = false ∧ loopsBusy wsn = false ∧ inTable wsn (2 * (scan5.recVa.toNat / 128)) = false
    ∧ loopsBusy { wsn with m := { wsn.m with held := [.rds 0 5 false] } } = true ∧ scan5.running = true ∧ scan5.recVa.toNat % 16 = 0 ∧ (coreOf wsn 5).quarantined = true ∧ (coreOf wt 5).quarantined = false := by decide +kernel

/-- Groups on cores 5 and 183 of cluster 0. -/
def wmv : State :=
  let h := { wt.g with idn := { wt.g.idn with gid := 9, core := 5 } }
  { wt with rest := [h, { h with idn := { h.idn with gid := 10, core := 183 } }] }

theorem witness_TuningScanResult_places : loopsBusy wmv = false ∧ (∀ e ∈ wmv.d.grids, e.2.repl = false) ∧ wmv.tun.lorder = List.replicate 8 (List.range 184)
    ∧ (∀ g ∈ wmv.rest, g.idn.gid ≠ 0 ∧ g.status ≠ .gone ∧ g.status ≠ .saved ∧ g.idn.core % 256 ∈ liveCoresOf wmv.tun (g.idn.core / 256)) := by decide +kernel

theorem witness_TuningScanResult_nodup : ∀ cl, (liveCoresOf wmv.tun cl).Nodup := by
  intro cl
  unfold liveCoresOf
  rw [witness_TuningScanResult_places.2.2.1, List.getD_eq_getElem?_getD, List.getElem?_replicate]
  split <;> simp [List.nodup_range]

/-- LCORE stays until the group is resumed, also where the order of the cores has moved under it (R175). -/
theorem test_places_kept : (let t := after .tuning_event (withEv (.tuning_event (.core 5)) wmv);
      t.rest.map (posOf t) = [(0, 5), (0, 183)] ∧ lcoreOf t.tun 183 = 5) := by decide +kernel

/-- A scan's signature may be the expected one, or another. -/
theorem witness_TuningScanResult_obs : Config.scanSignature 5 = Config.scanSignature 5 ∧ Config.scanSignature 5 + 1 ≠ Config.scanSignature 5 := by
  refine ⟨rfl, fun h => ?_⟩
  have := congrArg BitVec.toNat h
  simp at this
  omega

theorem test_tuning : (let t := after .tuning_event (withEv (.tuning_event (.core 5)) wt);
      t.tun.tunn = 2 ∧ coreLive t.tun 5 = false ∧ lcores t.tun 0 = 183 ∧ lcoreOf t.tun 183 = 5 ∧ t.g.tev = true ∧ (ctxOf t 1).map (fun x => x.tunDeadline) = some true
        ∧ (recsOf t).map (fun r => (r.src, r.fcode, r.fva)) = [(6, 0xFFFC, 2)] ∧ cohWord t Tuning.shipped.place % 2 ^ 32 = 2)
    ∧ (recsOf (after .tune_deadline (withEv (.tune_deadline 1) wsn))).map (fun r => r.fcode) = [17]
    ∧ (let t := after .scan_pattern_start (withEv (.scan_pattern_start 5) wsn); amGet? t.d.scans 5 = some scan5 ∧ t.timers.length = 1)
    ∧ coreLive (after .pair_mismatch (withEv (.pair_mismatch 6) wsn)).tun 6 = true
    ∧ (after .patrol_scrub (withEv (.patrol_scrub 1) wt)).g = wt.g := by decide +kernel

/-! ### Doorbells and records -/

/-- PROD of queue 2 is n; the slot holds an XFER with TAG 0xAB. -/
def wdb (n : Nat) : State := put64 0x4000A018 n (put64 0x4000B000 7 (put64 0x4000B008 0xAB wcq))

/-- The doorbell of queue 2, and of tenant 1's admin queue. -/
def dbl (admin : Bool) : Event := if admin then .doorbell 0x8008 4 else .doorbell 16 8

/-- A command whose header has a reserved bit set. -/
def badCmd (op : BitVec 8) (admin : Bool) : QCmd := { cmd0 op admin 0 with badHdr := true }

def rejects (rs : QCmd → State → Queue → List Reason) (op : BitVec 8) (admin : Bool) : Bool :=
  let c := badCmd op admin
  match findQueue wcq c.admin c.queue with
  | some q => (firstReason (rs c wcq q)).isSome && (ctxOf wcq q.ctx).all (fun x => !x.terminated)
  | none => false

def frec : FaultRec := { recOfCtx wcq 5 (w32 13) 0 0 1 with ten := 1 }

def crec : CompRec := { queue := 2, admin := false, cmd := 4, tag := 0xAB, code := 3, res := 7, status := 1, wrote := [] }

/-- Rings whose consumer is sixteen entries behind. -/
def wfull : State := put64 0x40064018 16 (put64 0x40008018 16 (put64 0x40064008 4 wcq))

def oneSlot (x : (Flt ⊕ List Nat) × State) : Bool := match x.1 with
  | .inr [_] => true
  | _ => false

theorem witness_QueueRecordResult : rings 16 8 = some (false, 2) ∧ rings 0x8008 4 = some (true, 1) ∧ rings 16 2 = none ∧ rings 22 4 = none ∧ rings 0x8080 4 = none
    ∧ (ioRead (compSpace q2) (q2.block.toNat + 24) 4 (oneRing false 2 (wdb 17))).1 = .inr 17 ∧ findQueue (wdb 17) false 2 = some q2 ∧ 2 ^ q2.log2n < ((17 : Word32) - q2.cons).toNat
    ∧ (ioRead (compSpace q2) (q2.block.toNat + 24) 4 (oneRing false 2 (wdb 1))).1 = .inr 1
    ∧ oneSlot (readSlots q2 (((1 : Word32) - q2.cons).toNat - (q2.seen - q2.cons).toNat) q2.seen.toNat (ioRead (compSpace q2) (q2.block.toNat + 24) 4 (oneRing false 2 (wdb 1))).2) = true
    ∧ findQueue wcq true 1 = some qa := by decide +kernel

theorem witness_QueueRecordResult_reject : rejects launchReasons 1 false = true ∧ rejects jobReasons 2 false = true ∧ rejects putReasons 3 false = true
    ∧ rejects advanceReasons 4 false = true ∧ rejects waitReasons 5 false = true ∧ rejects signalReasons 6 false = true ∧ rejects pinReasons 8 false = true
    ∧ rejects checkpointReasons 0x18 false = true ∧ rejects qCreateReasons 0x12 true = true ∧ rejects qDestroyReasons 0x13 true = true ∧ rejects resetReasons 0x14 true = true
    ∧ rejects parkReasons 0x15 true = true ∧ rejects ctxReasons 0x16 true = true ∧ rejects ctxReasons 0x17 true = true := by decide +kernel

theorem witness_QueueRecordResult_rings : amGet? wcq.q.frings 2 = none ∧ amGet? wcq.q.frings frec.ten.toNat = some { ring := ringP 0x40064000 0x40065000, wait := [] }
    ∧ faultsWait wcq 1 = false ∧ isOk (ringPut .phys (ringP 0x40064000 0x40065000) 64 (fun _ => faultBits frec) wcq) = true
    ∧ isFull (ringPut .phys (ringP 0x40064000 0x40065000) 64 (fun _ => faultBits frec) wfull) = true ∧ compsWait wcq false 2 = false
    ∧ recordHolds wcq crec.cmd = false
    ∧ isOk (ringPut (compSpace q2) ring2 16 (fun prod => compBits crec (lapBit ring2 prod)) (flushHandles true 1 crec.wrote wcq)) = true
    ∧ isFull (ringPut (compSpace q2) ring2 16 (fun prod => compBits crec (lapBit ring2 prod)) (flushHandles true 1 crec.wrote wfull)) = true := by decide +kernel

/-- The fault record of a command waits for room. -/
def whold : State := { wcq with q := { wcq.q with running := [4], frings := [(1, { ring := ringP 0x40064000 0x40065000, wait := [{ frec with by_ := some 4 }] })] } }

theorem witness_QueueRecordResult_held : recordHolds whold crec.cmd = true ∧ findQueue whold false 2 = some q2 ∧ q2.held = false ∧ q2.parked = []
    ∧ compsWait whold false 2 = false := by decide +kernel

theorem test_record_holds : (let t := after .completion_record (withEv (.completion_record crec) whold);
    t.timers.map (fun t => t.2) = [.completion_record crec] ∧ t.q.running = [4] ∧ cohWord t 0x40008018 = 0) := by decide +kernel

theorem test_doorbells : (let t := after .doorbell (withEv (dbl false) (wdb 1));
      t.q.cmds.map (fun c => (c.op, c.tag, c.queue)) = [(7, 0xAB, 2)] ∧ (findQueue t false 2).map (fun q => q.seen) = some 1)
    ∧ (let t := after .doorbell (withEv (dbl false) (wdb 17)); (findQueue t false 2).map (fun q => q.stopped) = some true ∧ (recsOf t).map (fun r => (r.src, r.fcode)) = [(5, 1)])
    ∧ (let t := beginCmd (cmd0 7 false 0) q2 wcq; (findQueue t false 2).map (fun q => (q.cons, q.open_)) = some (1, [4]) ∧ cohWord t 0x4000A020 % 2 ^ 32 = 1)
    ∧ (after .signal (withEv (.signal (badCmd 6 false)) wcq)).agenda.any (fun e => match e with
        | .completion_record r => r.status == 3 && r.code == 2 && r.tag == 0xAB
        | _ => false) = true := by decide +kernel

theorem test_records : (let t := after .fault_record (withEv (.fault_record frec) wcq); cohWord t 0x40065000 % 2 ^ 13 = 5 + 1 * 2 ^ 3 + 1 * 2 ^ 7 ∧ cohWord t 0x40064018 = 1)
    ∧ (after .fault_record (withEv (.fault_record frec) wfull)).timers.map (fun t => t.2) = [.fault_record frec]
    ∧ (let t := after .completion_record (withEv (.completion_record crec) wcq); cohWord t 0x40009000 = 1 + 1 * 2 + 7 * 2 ^ 8 + 3 * 2 ^ 48 ∧ cohWord t 0x40009008 = 0xAB ∧ cohWord t 0x40008018 = 1)
    ∧ (after .completion_record (withEv (.completion_record crec) wfull)).timers.map (fun t => t.2) = [.completion_record crec] := by decide +kernel

/-! ### Commands -/

/-- Body bytes: values at byte offsets. -/
def bd (l : List (Nat × Nat)) : Nat := l.foldl (fun a p => a + p.2 * 256 ^ p.1) 0

/-- The fourth page is an expander page; a list of one range, the first page, at 0x41_0000_C000; a host-fed stream 1 with h = (200, 0). -/
def wcm : State :=
  let s := put64 0x40014018 (2 ^ 44 + 2 ^ 55 + 2 ^ 53 + 2 ^ 52 + 0x3D) (put64 0x4000C000 0x4100000000 (put64 0x4000C008 0x10000 (put64 0x40000100 205 wcq)))
  let c := { ctx2 with root := 0x40011000, primax := 7, locs := [loc0, { loc0 with kind := 1, hf := true }], streams := [sd desc2, { sd desc1 with h := ⟨200, 0⟩ }] }
  { s with ctxs := [(1, c)] }

def acceptsB (rs : QCmd → State → Queue → List Reason) (c : QCmd) (s : State) : Bool :=
  match findQueue s c.admin c.queue with
  | some q => (firstReason (rs c s q)).isNone && (c.admin || (ctxOf s q.ctx).all (fun x => !x.terminated))
  | none => false

theorem accepts_of {rs : QCmd → State → Queue → List Reason} {c : QCmd} {s : State} (h : acceptsB rs c s = true) : ∃ q, accepts (rs c) c q s := by
  unfold acceptsB at h
  split at h
  · rename_i q hq
    simp only [Bool.and_eq_true, Bool.or_eq_true, Option.isNone_iff_eq_none] at h
    refine ⟨q, hq, h.1, fun ha x hx => ?_⟩
    rcases h.2 with h2 | h2
    · simp [ha] at h2
    · simpa [hx] using h2
  · exact absurd h (by simp)

/-- A row of two parts of three groups, five 64-bit tiles, a queue window of four at v8, and SCRATCH 5, by the offsets of R452; and a window row. -/
def rowImg : Nat := bd [(0, 0x100), (17, 2), (18, 3), (19, 0x85), (20, 64), (22, 32), (24, 8), (25, 4), (28, 5)]

def winImg : Nat := bd [(0, 0x200), (16, 1), (17, 1), (18, 1), (32, (2 <<< 27) + (4 <<< 52)), (44, 100), (48, 0x300), (64, 0x400), (72, 3)]

/-- Rows of an object as R452 lays them out, and the stream descriptor of a window row (R217). -/
theorem test_objects : readRow 0x4100000000 0 rowImg 0 = some { row0 with entry := 0x4100000100, p := 2, g := 3, acc := 5, accw64 := true, vregs := 64, dvregs := 32, qbase := 8, qlen := 4, scratch := 5 }
    ∧ readRow 0 0 (rowImg + 2 * 256 ^ 16) 0 = none
    ∧ ((readRow 0x4100000000 0 winImg 0).map (fun r => rowDesc r 1 7 0x4100008000)) =
      some ((1 <<< 448) ||| (3 <<< 445) ||| ((0x4100008000 >>> 6) <<< 390) ||| (0x4100000400 <<< 320) ||| (0x4100000200 <<< 192) ||| (0x4100000300 <<< 128)
        ||| (100 <<< 96) ||| (4 <<< 52) ||| (1 <<< 32) ||| (2 <<< 27) ||| (7 <<< 15)) := by decide +kernel

/-- A launch whose object has an ill-formed TID entry is rejected (R388). -/
theorem test_launch_tids : launchStatus { ctx1 with objs := [{ obj0 with tids := [1 <<< 511] }] } (blockOf 12 wj).1.1 ≠ 0
    ∧ launchStatus { ctx1 with objs := [{ obj0 with tids := [tidW] }] } (blockOf 12 wj).1.1 = 0 := by decide +kernel

def cLaunch : QCmd := cmd0 1 false (bd [(0, 0x4100000000), (8, 0x1000), (16, 3), (32, 2), (36, 0xFFFF)])
def cLaunchPin : QCmd := { cmd0 1 false (bd [(0, 0x4100000000), (8, 0x1000), (32, 2), (36, 0xFFFF), (40, 0x410000C000), (48, 1)]) with pin := true }
def cJob : QCmd := cmd0 2 false (bd [(0, 0x4100000000), (8, 0x1000), (32, 8), (36, 0xFFFF), (38, 64)])
def cPut (sid : Nat) : QCmd := cmd0 3 false (bd [(0, 0x4100000100), (8, 1), (12, sid)])
def cAdvance (e : Nat) : QCmd := cmd0 4 false (bd [(0, e), (16, 1)])
def cWait (e : Nat) : QCmd := cmd0 5 false (bd [(0, e), (16, 1)])
def cSignal : QCmd := cmd0 6 false (bd [(0, 0x4100000108), (8, 0x1122334455667788)])
def cXfer : QCmd := cmd0 7 false (bd [(0, 0x4100000100), (8, 0x4100000180), (16, 16), (24, 0x4100008000), (32, 0xFF)])
def cPin (op : Nat) : QCmd := cmd0 8 false (bd [(0, 0x410000C000), (8, 1), (12, op)])
def cAck (n : Nat) : QCmd := cmd0 9 false (bd [(0, n)])
def cCheckpoint : QCmd := cmd0 0x18 false (bd [(0, 0x410000C000), (8, 1), (16, 0x4100030000)])

/-- Location 1 still has a count at (5, 0). -/
def wlow : State := { wcm with t := { wcm.t with counts := [{ ctx := 1, loc := 1, stamp := ⟨5, 0⟩, n := 1 }], ann := [] } }

def setOf (s : State) : Bool := match readPairs 1 1 0x410000C000 (begun cLaunchPin q2 s) with
  | (.inr rs, v) => (match setPages v 1 rs with
    | some ps => (rowOfCmd (pinPages 1 wcm.d.nextId (maskClusters v.tun q2.cmask) ps v) q2 cLaunchPin).isSome && decide (ps.map (fun p => p.vp) = [0x410000])
    | none => false)
  | _ => false

theorem witness_QueueCommandResult : acceptsB launchReasons cLaunch wcm = true ∧ acceptsB launchReasons cLaunchPin wcm = true ∧ acceptsB jobReasons cJob wcm = true
    ∧ acceptsB putReasons (cPut 0) wcm = true ∧ acceptsB putReasons (cPut 1) wcm = true ∧ acceptsB advanceReasons (cAdvance 201) wcm = true ∧ acceptsB waitReasons (cWait 6) wcm = true
    ∧ acceptsB signalReasons cSignal wcm = true ∧ acceptsB xferReasons cXfer wcm = true ∧ acceptsB pinReasons (cPin 0) wcm = true ∧ acceptsB pinReasons (cPin 1) wcm = true
    ∧ acceptsB (fun c s q => headReasons s q c [(0, 4)]) (cAck 1) wcm = true ∧ acceptsB checkpointReasons cCheckpoint wcm = true := by decide +kernel

/-- The records a PUT reads, by epoch. -/
def putEpochs (s : State) : List Word64 := (readRecords 1 64 1 0x4100000100 s).1.1.map (fun r => (recStamp r).epoch)

theorem witness_QueueCommandResult_values : (rowOfCmd (begun cLaunch q2 wcm) q2 cLaunch).isSome = true ∧ setOf wcm = true ∧ (cmdStream (begun (cPut 0) q2 wcm) q2 0).any (fun d => recBytes d.desc == 64) = true
    ∧ putEpochs (begun (cPut 0) q2 wcm) = [205] ∧ (cmdStream (begun (cPut 1) q2 wcm) q2 1).any (fun d => hostFed wcm 1 d && !sdLate d.desc && stampLt ⟨199, 0⟩ d.h && !stampLt ⟨205, 0⟩ d.h) = true
    ∧ putEpochs (put64 0x40000100 199 wcm) = [199] ∧ waitSatisfied (subscribe 1 1 ioCluster (begun (cWait 6) q2 wcm)) 1 (cWait 6) = true ∧ cutOff wcm 1 1 = false
    ∧ waitSatisfied (subscribe 1 1 ioCluster (begun (cWait 6) q2 wlow)) 1 (cWait 6) = false ∧ acceptsB waitReasons (cWait 6) wlow = true
    ∧ cutOff (subscribe 1 1 ioCluster (begun (cWait 6) q2 wcm)) 1 1 = false ∧ inTable wcm (2 * (0x40000108 / 128)) = false
    ∧ ((ioSegs (begun cSignal q2 wcm) (.virt 1) 1 0x4100000108 8).toOption.any (fun gs => gs.map (fun g => (g.kind, g.n, g.pa)) == [(0, 8, 0x40000108)])) = true := by decide +kernel

def ckpt0 : Ckpt := { cmd := cCheckpoint, ctx := 1, ranges := [(0x4100000100, 64)], dst := 0x4100030000, written := 0 }

def wck : State := { wcm with q := { wcm.q with ckpts := [(4, ckpt0)] } }

theorem witness_QueueCommandResult_checkpoint : amGet? wck.q.ckpts 4 = some ckpt0 ∧ findQueue wck false 2 = some q2
    ∧ (copyRanges 1 ckpt0.ranges ckpt0.dst.toNat { wck with q := { wck.q with ckpts := [] } }).1 = none := by decide +kernel

def compOf (s : State) : List (BitVec 7 × BitVec 16 × BitVec 40) := s.agenda.filterMap (fun e => match e with | .completion_record r => some (r.status, r.code, r.res) | _ => none)

def runC (i : Instr) (e : QCmd → Event) (c : QCmd) (s : State) : State := after i (withEv (e c) s)

theorem test_queue_commands : (let t := runC .launch .launch cLaunch wcm; (amGet? t.d.grids 20).map (fun g => (g.args, g.nteam, g.pri, g.stamp.epoch)) = some (0x1000, 2, 3, 3))
    ∧ (let t := runC .launch .launch cLaunchPin wcm; (amGet? t.d.grids 20).map (fun g => g.pinned) = some true ∧ t.m.tlb.any (fun e => e.cluster == 0 && e.vpage == 0x410000 && e.locks == [20]) = true
        ∧ (cohWord t 0x40014000).getLsbD 59 = true)
    ∧ (amGet? (runC .job .job cJob wcm).d.cards 20).map (fun c => (c.count, c.rsize, c.base)) = some (8, 64, 0x1000)
    ∧ (let t := runC .stream_put .stream_put (cPut 0) wcm; compOf t = [(0, 0, 0)] ∧ t.w.recs.map (fun e => (recStamp e.2.data).epoch) = [205])
    ∧ (let t := runC .stream_put .stream_put (cPut 1) (put64 0x40000100 199 wcm); compOf t = [(1, 12, 1)] ∧ (streamOf t 1 1).map (fun d => d.faulted) = some true)
    ∧ (let t := runC .stream_advance .stream_advance (cAdvance 201) wcm; compOf t = [(0, 0, 0)] ∧ (streamOf t 1 1).map (fun d => d.h.epoch) = some 201)
    ∧ compOf (runC .stream_advance .stream_advance (cAdvance 199) wcm) = [(3, 6, 0)] ∧ compOf (runC .stream_advance .stream_advance (cAdvance 200) wcm) = [(0, 0, 0)] := by decide +kernel

theorem test_queue_commands2 : compOf (runC .wait_stamp .wait_stamp (cWait 6) wcm) = [(0, 0, 0)] ∧ (runC .wait_stamp .wait_stamp (cWait 6) wlow).q.waits = [cWait 6]
    ∧ (let t := runC .signal .signal cSignal wcm; cohByte t 0x40000108 = 0x88 ∧ compOf t = [(0, 0, 0)]) ∧ (runC .xfer .xfer cXfer wcm).agenda = [.transfer_finish 4]
    ∧ (let t := runC .pin .pin (cPin 0) wcm; compOf t = [(0, 0, 0)] ∧ (cohWord t 0x40014000).getLsbD 59 = true ∧ t.m.tlb.any (fun e => e.locks == [0]) = true)
    ∧ (let t := runC .pin .pin (cPin 1) (runC .pin .pin (cPin 0) wcm); t.m.tlb.any (fun e => !e.locks.isEmpty) = false)
    ∧ compOf (runC .tune_ack .tune_ack (cAck 1) wcm) = [(0, 0, 0)] ∧ compOf (runC .tune_ack .tune_ack (cAck 0) wcm) = [(0, 0, 1)] ∧ compOf (runC .tune_ack .tune_ack (cAck 2) wcm) = [(0, 0, 2)]
    ∧ (runC .checkpoint .checkpoint cCheckpoint wcm).timers.map (fun t => t.2) = [.checkpoint_stream_end 4]
    ∧ (let t := after .checkpoint_stream_end (withEv (.checkpoint_stream_end 4) (put64 0x40000100 0x55 wck)); compOf t = [(0, 0, 64)] ∧ cohByte t (2 ^ 44) = 0x55) := by decide +kernel

/-! ### Admin commands -/

def aCreate : QCmd := cmd0 0x10 true (bd [(0, 0x40070000)])
def aDestroy : QCmd := cmd0 0x11 true (bd [(0, 1)])
def aQCreate : QCmd := cmd0 0x12 true (bd [(0, 0x410000D000), (8, 1)])
def aQDestroy : QCmd := cmd0 0x13 true (bd [(0, 2)])
def aReset : QCmd := cmd0 0x14 true (bd [(0, 1), (2, 1)])
def aPreempt : QCmd := cmd0 0x16 true (bd [(0, 1)])
def aResume : QCmd := cmd0 0x17 true (bd [(0, 1)])

def aPark (r : FaultRec) : QCmd := cmd0 0x15 true (faultBits r)

def brkRec : FaultRec := { frec with src := 0, fcode := 3 }
def winRec : FaultRec := { frec with src := 3 }
def xferRec : FaultRec := { frec with src := 4 }

/-- A descriptor with POL, PRIMAX 2 and a handler at 0x4002_0000's place in the high area; a queue control block at 0x41_0000_D000; three parked records. -/
def wad : State :=
  let s := put64 0x40070030 0x400 (put64 0x40070038 (0x4100000400 / 4) (put64 0x40070040 (2 * 16 + 128) wcm))
  let s := put64 0x4000D000 0x410000B000 (put64 0x4000D010 4 (put64 0x4000D030 (0x4100008000 * 256) s))
  let q := { s.q with xfers := [(8, { xfer4 with parked := true })], parkedFor := [(brkRec, .brk gq), (winRec, .window 1 0), (xferRec, .xfer 8)] }
  { s with q := q, g := { s.g with status := .stopped } }

/-- The same, suspended, with a transfer that waits. -/
def wsu : State := { wad with ctxs := wad.ctxs.map (fun e => (e.1, { e.2 with suspended := true })), q := { wad.q with xfers := [(8, xfer4)] } }

theorem witness_AdminCommandResult : acceptsB createReasons aCreate wad = true ∧ acceptsB ctxReasons aDestroy wad = true ∧ acceptsB qCreateReasons aQCreate wad = true
    ∧ acceptsB qDestroyReasons aQDestroy wad = true ∧ acceptsB resetReasons aReset wad = true ∧ acceptsB parkReasons (aPark brkRec) wad = true
    ∧ acceptsB parkReasons (aPark winRec) wad = true ∧ acceptsB parkReasons (aPark xferRec) wad = true ∧ acceptsB ctxReasons aPreempt wad = true
    ∧ acceptsB ctxReasons aResume wad = true := by decide +kernel

theorem witness_AdminCommandResult_values : ((readContext qa 0x40070000 (begun aCreate qa wad)).1.isRight && (freeKey (readContext qa 0x40070000 (begun aCreate qa wad)).2.ctxs 64).isSome) = true
    ∧ (4 : Nat) ∉ wad.q.running ∧ (4 : Nat) ∈ (begun aDestroy qa wad).q.running
    ∧ ((readQcb (.virt 1) 0x410000D000 (begun aQCreate qa wad)).1.isRight && (freeKey (readQcb (.virt 1) 0x410000D000 (begun aQCreate qa wad)).2.q.queues 4096).isSome) = true
    ∧ compsTimed (begun aQDestroy qa wad) false 2 (fun _ => true) = false
    ∧ (amGet? (begun aQDestroy qa wad).q.queues 2).any (fun x => x.open_.isEmpty && x.parked.isEmpty) = true
    ∧ (let s := { wad with q := { wad.q with queues := [(2, { q2 with open_ := [9] })] } };
      acceptsB qDestroyReasons aQDestroy s = true ∧ (amGet? (begun aQDestroy qa s).q.queues 2).any (fun x => !x.open_.isEmpty) = true)
    ∧ (parkedBy (begun (aPark brkRec) qa wad) qa (faultBits brkRec)).map (fun e => e.2) = some (.brk gq)
    ∧ (parkedBy (begun (aPark winRec) qa wad) qa (faultBits winRec)).map (fun e => e.2) = some (.window 1 0)
    ∧ (parkedBy (begun (aPark xferRec) qa wad) qa (faultBits xferRec)).map (fun e => e.2) = some (.xfer 8)
    ∧ (findGroup (begun (aPark brkRec) qa wad) gq).any (fun g => g.status == .stopped) = true := by decide +kernel

theorem test_contexts : (let t := runC .ctx_create .ctx_create aCreate wad; compOf t = [(0, 0, 0)] ∧ (ctxOf t 0).map (fun x => (x.pol, x.primax, x.handler)) = some (true, 2, 0x4100000400)
      ∧ (ctxOf t 0).map (fun x => (x.root, x.tenant, x.locs.length)) = some (0x40000000, 1, 0))
    ∧ (let t := runC .ctx_destroy .ctx_destroy aDestroy wad; t.agenda.contains (.ctx_destroy aDestroy) = true ∧ t.g.status = .gone
        ∧ (let u := runC .ctx_destroy .ctx_destroy aDestroy t; (ctxOf u 1).isNone = true ∧ u.q.queues = []))
    ∧ (let t := runC .preempt .preempt aPreempt wcm; (ctxOf t 1).map (fun x => x.suspended) = some true ∧ t.g.saveDue = true ∧ compOf t = [])
    ∧ (let t := runC .resume .resume aResume wsu; (ctxOf t 1).map (fun x => x.suspended) = some false ∧ compOf t = [(0, 0, 0)] ∧ t.agenda.contains (.transfer_finish 8) = true) := by
  decide +kernel

theorem test_admin_commands : (let t := runC .q_create .q_create aQCreate wad; compOf t = [(0, 0, 0)] ∧ (amGet? t.q.queues 0).map (fun q => (q.base, q.log2n, q.cons, q.seen)) = some (0x410000B000, 4, 0, 0))
    ∧ (let t := runC .q_destroy .q_destroy aQDestroy wad; compOf t = [(0, 0, 0)] ∧ t.q.queues = [])
    ∧ compOf (runC .stream_reset .stream_reset aReset wad) = [(0, 0, 0)] ∧ compOf (runC .stream_reset .stream_reset { aReset with body := BitVec.ofNat 768 (bd [(0, 1), (2, 5)]) } wad) = [(3, 7, 0)]
    ∧ (let t := runC .park_resume .park_resume (aPark brkRec) wad; compOf t = [(0, 0, 0)] ∧ t.g.status = .running ∧ t.q.parkedFor.length = 2)
    ∧ (runC .park_resume .park_resume (aPark xferRec) wad).agenda.contains (.transfer_finish 8) = true ∧ compOf (runC .park_resume .park_resume (aPark frec) wad) = [(3, 2, 0)] := by
  decide +kernel

/-! ### Start-up, the management path, attestation -/

/-- Core 5 is quarantined at a start. -/
def wqr : State := { State.reset with d := { State.reset.d with cores := [(5, { coreOf State.reset 5 with quarantined := true })] } }

/-- A start that hangs, and the state after its watchdog has expired. -/
def whung : State := after .start (withEv (.start true true true true true) State.reset)

def whang : State := after .start_watchdog whung

theorem witness_StartResult : whung.h.boot.hangs = true ∧ (State.reset : State).h.boot.hangs = false ∧ whang.h.boot.hangs = false ∧ quarantineOf State.reset = [] ∧ quarantineOf wqr = [5] ∧ coreLive (startTuning (flashTuning wqr) false 1) 5 = true
    ∧ coreLive (startTuning (flashTuning wqr) false 1) 6 = true ∧ coreLive (startTuning (flashTuning wqr) true 1) 5 = true
    ∧ coreLive (startTuning (flashTuning wqr) true 1) 6 = true := by decide +kernel

theorem test_start : (let t := after .start (withEv (.start true false true true false) State.reset); t.h.boot.reason = 3 ∧ t.h.boot.fails = 1 ∧ t.h.boot.up = false)
    ∧ (let t := after .start (withEv (.start true true false true false) { State.reset with h := { State.reset.h with boot := { State.reset.h.boot with fails := 3 } } });
      t.h.boot.reason = 4 ∧ t.h.boot.fails = 3 ∧ t.h.boot.stage = 1)
    ∧ whung.h.boot.fails = 1 ∧ whung.agenda = [.start_watchdog] ∧ whang.h.boot.reason = 6
    ∧ (let t := after .start_watchdog (after .start (withEv (.start true true true true true) whang)); t.h.boot.fails = 2 ∧ t.h.boot.reason = 6) ∧ after .start_watchdog wt = wt ∧ (after .fails_clear wt).h.boot.fails = 0 := by decide +kernel

/-- The read of BOOTSTAT (R489), and what a start's outcome leaves in it. -/
theorem test_bootstat : mgmtRead .bootstat whang = .word 0x01010006 ∧ mgmtRead .bootstat (after .start (withEv (.start true true true false false) State.reset)) = .word 0x01010005
    ∧ mgmtRead .tuningPlace wt = .word (w64 wt.tun.place) ∧ after .start_watchdog whang = whang := by decide +kernel

theorem test_start_ready : (let t := after .start (withEv (.start true true true true false) State.reset); t.h.boot.up = true ∧ t.h.boot.fails = 0 ∧ t.h.boot.reason = 0 ∧ t.tun.tunn = 1
    ∧ t.h.portUp = [true, true] ∧ t.g.status = .gone) := by decide +kernel

/-- A queue control block of an admin queue at 0x4006_2000 and its ring block. -/
def wmg : State :=
  put64 0x40062000 0x40063000 (put64 0x40062010 4 (put64 0x40062030 (0x40060000 * 256) (put64 0x40060000 0x40061000 (put64 0x40060008 4 wad))))

theorem witness_ManagementResult : ((readQcb .phys 0x40062000 wmg).1.isRight && (match (readQcb .phys 0x40062000 wmg).1 with
      | .inr x => !qcbBad x.1 x.2
      | .inl _ => false)) = true
    ∧ (match (readQcb .phys 0x40062000 (put64 0x40062010 3 wmg)).1 with
      | .inr x => qcbBad x.1 x.2
      | .inl _ => false) = true
    ∧ (match (ioRead .phys 0x40060000 64 wmg).1 with
      | .inr b => rcbLog2n b == 4
      | .inl _ => false) = true
    ∧ (match (ioRead .phys 0x40060000 64 (put64 0x40060008 17 wmg)).1 with
      | .inr b => rcbLog2n b == 17
      | .inl _ => false) = true
    ∧ amSorted 0 wmg.ctxs = true ∧ (ctxOf wmg 1).any (fun x => x.tenant == 1 && !x.destroying) = true ∧ wmg.ctxs.all (fun e => e.2.tenant != 2) = true
    ∧ wmg.ctxs.all (fun e => e.2.peers.isEmpty) = true
    ∧ (let c := { ctx1 with peers := [{ dev := 2, ctx := 1, up := true }, { dev := 3, ctx := 1, up := true }] }; let s := { wmg with ctxs := [(1, ctx1), (2, c)] }; (ctxOf s 1).isSome = true
        ∧ s.ctxs.any (fun e => e.1 != 1 && e.2.peers.any (fun p => p.dev == 3 && p.ctx == 1)) = true) := by decide +kernel

theorem test_management : (let t := after .admin_queue_create (withEv (.admin_queue_create 5 0x40062000) wmg); t.h.mgmt = [.created 5]
      ∧ (amGet? t.q.admins 5).map (fun q => (q.base, q.log2n, q.tenant)) = some (0x40063000, 4, 5))
    ∧ (after .admin_queue_create (withEv (.admin_queue_create 5 0x40062000) (put64 0x40062010 17 wmg))).h.mgmt = [.refused]
    ∧ (let t := after .fault_ring_set (withEv (.fault_ring_set 5 0x40060000) wmg); t.h.mgmt = [.created 5] ∧ (amGet? t.q.frings 5).map (fun f => f.ring.base) = some 0x40061000)
    ∧ (let t := after .tenant_reset (withEv (.tenant_reset 1) wmg); t.agenda.contains (.tenant_reset 1) = true
        ∧ (let u := after .tenant_reset (withEv (.tenant_reset 1) t); u.ctxs = [] ∧ u.h.mgmt = [.resetDone 1]))
    ∧ (let t := after .context_pairing (withEv (.context_pairing 1 3 2) wmg); t.h.mgmt = [.created 1] ∧ (ctxOf t 1).map (fun x => x.peers.map (fun p => (p.dev, p.ctx))) = some [(3, 2)])
    ∧ (after .get_version wmg).h.spdm.version = true ∧ (after .get_capabilities wmg).h.spdm.caps = false
    ∧ (after .get_capabilities (after .get_version wmg)).h.spdm.caps = true ∧ (after .negotiate_algorithms (after .get_version wmg)).h.spdm.response = [] := by decide +kernel

/-! ### The machine as a whole -/

/-- The first thing after reset is the start (R488, R489). -/
theorem test_reset : let s := sweepYield { State.reset with tick := 1 }
    next State.reset = runEvent (startEvent s) s ∧ rowOf (startEvent s) = .start := ⟨rfl, rfl⟩

def issueB (s : State) : Bool :=
  let u := { s with tick := s.tick + 1 }
  s.agenda == [] && s.h.boot.up && (firstTimer (s.timers.filter (fun t => decide (t.1 ≤ s.tick + 1)))).isNone && jobs u == [] && (delivery u).isNone
    && (picked (sweepYield u)).isSome && (urgentDue (sweepYield u)).isNone

/-- What is fetched at the turn: a word that decodes, one that does not, or a fault. -/
def fetchedB (s : State) : Bool × Bool :=
  let u := { s with tick := s.tick + 1 }
  match picked (sweepYield u) with
  | none => (false, false)
  | some g => match fetch (noteIssue (bring g.idn.gid (sweepYield u))) with
    | .ok (ws, _) => (true, (decode ws).toBool)
    | .error _ => (false, false)

def replay0 (s : State) : State := { s with g := { s.g with x := { s.g.x with replay := some 0 } } }

/-- The group at its turn, and whether the line it fetches from must be snooped first. -/
def snoopsB (s : State) : Bool :=
  let u := { s with tick := s.tick + 1 }
  match picked (sweepYield u) with
  | none => false
  | some g => !(fetchSnoops (noteIssue (bring g.idn.gid (sweepYield u)))).isEmpty

/-- The host may hold the line of the first instruction in any state. -/
def wfs : State := { w0 with m := { w0.m with hfilt := [(0x40000000 / 64, true)] } }

theorem witness_StepRunsDecodedInstruction : issueB wfs = true ∧ snoopsB wfs = true ∧ snoopsB w0 = false ∧ issueB w0 = true ∧ fetchedB w0 = (true, true) ∧ w0.g.x.replay ≠ some 0 ∧ issueB (replay0 w0) = true
    ∧ fetchedB (replay0 w0) = (true, true) ∧ issueB (State.reset.withFetchWord 32 0x0A800004) = true
    ∧ fetchedB (State.reset.withFetchWord 32 0x0A800004) = (true, false)
    ∧ (let s := { w0 with g := { w0.g with pc := 0x500000000 } }; issueB s = true ∧ fetchedB s = (false, false))
    ∧ (let s := { w0 with agenda := [.fails_clear] }; refuses { s with tick := s.tick + 1, agenda := [] } .fails_clear = false ∧ travels .fails_clear = false)
    ∧ (let s := { State.reset with agenda := [.fault_record frec] }; refuses { s with tick := s.tick + 1, agenda := [] } (.fault_record frec) = false ∧ s.h.boot.up = false)
    ∧ bootEvent (.fault_record frec) = false ∧ bootEvent .fails_clear = true ∧ (State.reset : State).h.boot.up = false
    ∧ refuses { State.reset with tick := 1 } .fails_clear = false := by
  decide +kernel

/-- The placed instruction, sli s4, 255, runs in the next step. -/
theorem test_step_runs : (match step (State.reset.withFetchWord 32 0x050800FF) with
    | .next t => rS t 4 == 255 && t.g.pc == 0x4100000004
    | _ => false) = true := by decide +kernel

theorem witness_DecodeEncode : (Instr.sli 4 (.i11 255)).isEvent = false ∧ (Instr.sli 4 (.i11 255)).wf = true
    ∧ (Instr.ld_s 1 2 .w64 false 0 ⟨1, 4, 2⟩).isEvent = false ∧ (Instr.ld_s 1 2 .w64 false 0 ⟨1, 4, 2⟩).wf = true := by decide +kernel

theorem witness_StepKeepsCanonicalMemory : Memory.wf w0.m.mem = true ∧ canonicalTables w0 ∧ (match step w0 with
    | .next _ => true
    | _ => false) = true := by
  unfold canonicalTables
  decide +kernel

/-- The saved team of the save walk (R463, R474): one part of five pages on core 17, copies in slots 5 to 7. -/
def wsb : State :=
  let cp := fun (i : Nat) => { slot := i, opc := 0, bv := true, boff := 0x400, tid := 0, done := 0, total := 2048,
                               d1 := w64 (0x4100002840 + 2048 * (i - 5)), d2 := w64 (0xFE002800 + 2048 * (i - 5)), d3 := 0x800, idx := [],
                               tident := 0, parked := false, fcode := 0, fva := 0, finished := false, born := 0, claim := [], ahead := [] : CopyCmd }
  let s := { w0 with g := { w0.g with status := .saved, pc := 0x4000000040, idn := { w0.g.idn with team := 1, slot := 0, nv := 32 },
                                      n := { w0.g.n with cps := [cp 5, cp 6, cp 7] } } }
  let t := { team1 with parts := [{ part0 with core := 17, base := 0, size := 5 }], savePlace := 0x100000, saveSize := 0x20000 }
  writeBlock 1 { s with m := { s.m with mem := [] }, d := { s.d with teams := [(1, t)] } }

theorem test_save_block : [(12, 1), (64, 4), (20800, 8), (21064, 8), (41600, 8), (42240, 8), (42328, 8), (42464, 8), (42496, 8), (42504, 8), (42512, 8), (42520, 8), (42528, 8),
      (42560, 8), (51808, 8)].map (fun p => memBytes wsb.m.mem (0x100000 + p.1) p.2)
    = [1, 0x844005, 20480, 0, 0x4000000040, 0x3000, 0, 0xFFFFFFFFFFFFFFFF, 0x0A08400000000000, 0x4100002840, 0xFE002800, 0x800, 0x0C08400001000000,
      0x0E08400002000000, 0xFFFFFFFF] := by decide +kernel

end Sys2Proof.Tests
end

section
/-! SUPPORT. What operations leave alone: folds, cells, bytes of memory, and registers under retirement. -/
namespace Sys2Proof.Machine

/-! ### Folds and cells -/

/-- What each step of a fold leaves alone, the fold leaves alone. -/
theorem foldl_kept {σ α β : Type} (p : σ → β) {f : σ → α → σ} (hf : ∀ s x, p (f s x) = p s) (l : List α) (s : σ) :
    p (l.foldl f s) = p s := by
  induction l generalizing s with
  | nil => rfl
  | cons x xs ih => exact (ih (f s x)).trans (hf s x)

theorem cellGet_cellPut (w : Nat) (m : Cells w) (i j : Nat) (v : BitVec w) :
    cellGet (cellPut m i v) j = if j = i then v else cellGet m j := by
  split
  case isTrue h => rw [h, cellGet_cellPut_same]
  case isFalse h => exact cellGet_cellPut_other _ _ _ _ h

/-! ### Memory under operations that leave the memory system -/

theorem cohByte_congr {s t : State} (hm : t.m = s.m) (ht : t.tun = s.tun) (pa : Nat) : cohByte t pa = cohByte s pa := by
  cases t; cases s; subst hm ht; rfl

theorem coreByte_congr {s t : State} (hm : t.m = s.m) (ht : t.tun = s.tun) (core pa : Nat) :
    coreByte t core pa = coreByte s core pa := by
  cases t; cases s; subst hm ht; rfl

/-- Every byte reads as before where neither the memory system nor the tuning record has changed. -/
theorem memKept_of_m_tun {s t : State} (hm : t.m = s.m) (ht : t.tun = s.tun) : memKept s t := by
  refine ⟨cohByte_congr hm ht, coreByte_congr hm ht, fun core off => ?_, fun line => ?_⟩
  · rw [sramByte, hm, sramByte]
  · rw [hostLineData, hm, hostLineData]

theorem memKept_trans {s t u : State} (h : memKept s t) (h' : memKept t u) : memKept s u := by
  obtain ⟨coh, core, sram, host⟩ := h
  obtain ⟨coh', core', sram', host'⟩ := h'
  exact ⟨fun p => (coh' p).trans (coh p), fun c p => (core' c p).trans (core c p), fun c o => (sram' c o).trans (sram c o),
    fun l => (host' l).trans (host l)⟩

/-! ### Retirement -/

@[simp] theorem retireTo_sbank (act : Word32) (pc : BitVec 56) (s : State) : (retireTo act pc s).g.x.sbank = s.g.x.sbank := by
  unfold retireTo foldSig; split <;> (dsimp only; split <;> rfl)
@[simp] theorem retireTo_kbank (act : Word32) (pc : BitVec 56) (s : State) : (retireTo act pc s).g.x.kbank = s.g.x.kbank := by
  unfold retireTo foldSig; split <;> (dsimp only; split <;> rfl)
@[simp] theorem retireTo_sup (act : Word32) (pc : BitVec 56) (s : State) : (retireTo act pc s).g.x.sup = s.g.x.sup := by
  unfold retireTo foldSig; split <;> (dsimp only; split <;> rfl)
@[simp] theorem handlerOf_retireTo (act : Word32) (pc : BitVec 56) (s : State) : handlerOf (retireTo act pc s) = handlerOf s := by
  simp [handlerOf, gCtx, ctxOf]

theorem retireTo_regsKept (act : Word32) (pc : BitVec 56) (s : State) : regsKept s (retireTo act pc s) := by
  refine ⟨fun _ _ => ?_, fun _ _ => ?_, fun _ _ _ _ => ?_, ?_, ?_⟩ <;> simp

end Sys2Proof.Machine
end

section
/-! SUPPORT. Branches and jumps, each as one shape; they settle O5 (R302 to R304). -/
namespace Sys2Proof.Machine

theorem jumpTo_canonical {t : Word64} (w s : State) (h : canonical t = true) :
    jumpTo t w s = .next (retireTo s.g.live (pcOf t) w) := if_pos h

theorem jumpTo_faults {t : Word64} (w s : State) (h : canonical t = false) :
    jumpTo t w s = .next (raiseW (targetFault fADDROVF t) s) := by simp [jumpTo, h]

/-- What a branch does: it completes at its target or at the next instruction, and no register changes. -/
theorem branchIf_spec {c : Bool} {o : BOff} {s : State} (h : c = true → canonical (branchTarget s o) = true) :
    ∃ t, branchIf c o s = .next t
      ∧ completes s t (if c then (branchTarget s o).truncate 56 else nextPc s) ∧ regsKept s t ∧ memKept s t := by
  have spec (pc : BitVec 56) : completes s (retireTo s.g.live pc s) pc ∧ regsKept s (retireTo s.g.live pc s)
      ∧ memKept s (retireTo s.g.live pc s) :=
    have hc := retireTo_completes s.g.live pc s
    ⟨hc, retireTo_regsKept _ _ _, completes_memKept hc⟩
  cases c with
  | true => exact ⟨_, jumpTo_canonical s s (h rfl), spec _⟩
  | false => exact ⟨_, rfl, spec _⟩

theorem branchIf_faults {o : BOff} {s : State} (h : canonical (branchTarget s o) = false) :
    branchIf true o s = .next (raiseW (targetFault fADDROVF (branchTarget s o)) s) := jumpTo_faults s s h

theorem jumpReg_misaligned {t : Word64} (s : State) (h : canonical t = true) (h4 : t.toNat % 4 ≠ 0) :
    jumpReg t s = .next (raiseW (targetFault fALIGN t) s) := by simp [jumpReg, h, h4]

theorem jumpReg_faults {t : Word64} (s : State) (h : canonical t = false) :
    jumpReg t s = .next (raiseW (targetFault fADDROVF t) s) := by simp [jumpReg, h, jumpTo_faults]

/-- A branch's condition on a register or a mask is that of its signed number or of its acting bits. -/
theorem beq_zero_toInt (x : Word64) : (x == 0) = decide (x.toInt = 0) := by
  have h : x = 0 ↔ x.toInt = 0 := by rw [← BitVec.toInt_inj]; rfl
  exact decide_eq_decide.2 h

/-- Settles O5: every branch is `branchIf` of its condition, bx and ret are `jumpReg` of their register. -/
theorem branchResult : Obligations.BranchResult := by
  unfold Obligations.BranchResult
  refine ⟨?_, ?_⟩
  · intro s a k o x m target p hp hcan
    have key (c c' : Bool) (i : Instr) (hi : exec i s = branchIf c' o s) (hc : c' = c) (h : p = (i, c)) :
        ∃ t, exec p.1 s = .next t ∧ completes s t (if p.2 then target.truncate 56 else nextPc s) ∧ regsKept s t
          ∧ memKept s t := by
      subst h hc
      rw [hi]
      exact branchIf_spec hcan
    simp only [List.mem_cons, List.not_mem_nil, or_false] at hp
    rcases hp with h | h | h | h | h | h | h | h | h | h
    · exact key _ _ _ rfl rfl h
    · exact key _ _ _ rfl (beq_zero_toInt _) h
    · exact key _ _ _ rfl (by rw [bne, beq_zero_toInt, decide_not]) h
    · exact key _ _ _ rfl rfl h
    · exact key _ _ _ rfl rfl h
    · exact key _ _ _ rfl rfl h
    · exact key _ _ _ rfl rfl h
    · exact key _ _ _ rfl (by rw [decide_not]; rfl) h
    · exact key _ _ _ rfl rfl h
    · exact key _ _ _ rfl rfl h
  · intro s a o
    refine ⟨fun p hp => ?_, fun hcan => ?_⟩
    · have key (v : Word64) (i : Instr) (hi : exec i s = jumpReg v s) (h : p = (i, v)) :
          (canonical p.2 = true → p.2.toNat % 4 ≠ 0 → exec p.1 s = .next (raiseW { flt 3 with acc := 3, va := p.2 } s))
          ∧ (canonical p.2 = false → exec p.1 s = .next (raiseW { flt 10 with acc := 3, va := p.2 } s)) := by
        subst h
        exact ⟨fun hc h4 => hi.trans (jumpReg_misaligned s hc h4), fun hc => hi.trans (jumpReg_faults s hc)⟩
      simp only [List.mem_cons, List.not_mem_nil, or_false] at hp
      rcases hp with h | h
      · exact key _ _ rfl h
      · exact key _ _ rfl h
    · have hloop : rS s a ≠ 1 → ¬ rS s a - 1 = 0 := fun h1 h0 => h1 (by bv_omega)
      exact ⟨branchIf_faults hcan, jumpTo_faults _ s hcan, fun h1 => (if_neg (hloop h1)).trans (jumpTo_faults _ s hcan)⟩

end Sys2Proof.Machine
end

section
/-! SUPPORT. Entry to the supervisor handler, escalation, and return; they settle O41 and O42 (R35 to R38). -/
namespace Sys2Proof.Machine

/-! ### The register bank of the supervisor -/

/-- One exchange of `swapS`. -/
def swapCell (p : Cells 64 × Cells 64) (n : Nat) : Cells 64 × Cells 64 :=
  (cellPut p.1 n (cellGet p.2 n), cellPut p.2 n (cellGet p.1 n))

/-- Exchanging a list of distinct cells exchanges those and no other. -/
theorem cellGet_foldl_swapCell (ns : List Nat) (hn : ns.Nodup) (p : Cells 64 × Cells 64) (k : Nat) :
    cellGet (ns.foldl swapCell p).1 k = (if k ∈ ns then cellGet p.2 k else cellGet p.1 k)
      ∧ cellGet (ns.foldl swapCell p).2 k = (if k ∈ ns then cellGet p.1 k else cellGet p.2 k) := by
  induction ns generalizing p with
  | nil => simp
  | cons n ns ih =>
    obtain ⟨hmem, hns⟩ := List.nodup_cons.1 hn
    obtain ⟨h1, h2⟩ := ih hns (swapCell p n)
    rw [List.foldl_cons, h1, h2]
    simp only [swapCell, cellGet_cellPut, List.mem_cons]
    by_cases hk : k = n
    · subst hk; simp [hmem]
    · simp [hk]

theorem swapS_eq (a b : Cells 64) : swapS a b = [56, 57, 58, 59, 60, 61].foldl swapCell (a, b) := rfl

theorem mem_banked (k : Nat) : k ∈ [56, 57, 58, 59, 60, 61] ↔ 56 ≤ k ∧ k ≤ 61 := by
  simp only [List.mem_cons, List.not_mem_nil, or_false]; omega

theorem cellGet_swapS_fst (a b : Cells 64) (k : Nat) :
    cellGet (swapS a b).1 k = if 56 ≤ k ∧ k ≤ 61 then cellGet b k else cellGet a k := by
  rw [swapS_eq, (cellGet_foldl_swapCell _ (by decide) (a, b) k).1]
  simp only [mem_banked]

theorem cellGet_swapS_snd (a b : Cells 64) (k : Nat) :
    cellGet (swapS a b).2 k = if 56 ≤ k ∧ k ≤ 61 then cellGet a k else cellGet b k := by
  rw [swapS_eq, (cellGet_foldl_swapCell _ (by decide) (a, b) k).2]
  simp only [mem_banked]

/-- The bank of s56 to s61 and k15 has changed places with the registers, and no other register has changed (R35). -/
structure BankSwapped (s t : State) : Prop where
  banked : ∀ r : SReg, 56 ≤ r.toNat → r.toNat ≤ 61 →
    rS t r = cellGet s.g.x.sbank r.toNat ∧ cellGet t.g.x.sbank r.toNat = rS s r
  sregs : sKept s t (fun r => 56 ≤ r.toNat ∧ r.toNat ≤ 61)
  k15 : rK t 15 = s.g.x.kbank
  kbank : t.g.x.kbank = rK s 15
  kregs : kKept s t (fun k => k = 15)
  vregs : vKept s t (fun _ _ => False)
  fpstat : t.g.fpstat = s.g.fpstat

/-- A state whose group has the bank of another's exchanged: what else differs is not a register. -/
theorem bankSwapped_of {s t : State} (hs : t.g.sregs = (swapBank s.g).sregs) (hk : t.g.kregs = (swapBank s.g).kregs)
    (hv : t.g.vregs = s.g.vregs) (hf : t.g.fpstat = s.g.fpstat) (hb : t.g.x.sbank = (swapBank s.g).x.sbank)
    (hkb : t.g.x.kbank = (swapBank s.g).x.kbank) : BankSwapped s t := by
  have hr0 (r : SReg) (h : 56 ≤ r.toNat) : r ≠ 0 := by rintro rfl; simp at h
  refine ⟨fun r h1 h2 => ⟨?_, ?_⟩, fun r hr => ?_, ?_, ?_, fun k hk15 => ?_, fun r l _ _ => ?_, hf⟩
  · rw [rS, if_neg (hr0 r h1), hs]; simp only [swapBank, cellGet_swapS_fst, h1, h2, and_self, if_true]
  · rw [rS, if_neg (hr0 r h1), hb]; simp only [swapBank, cellGet_swapS_snd, h1, h2, and_self, if_true]
  · rw [rS, rS, hs]; simp only [swapBank, cellGet_swapS_fst, if_neg hr]
  · rw [rK, if_neg (by decide), hk]; exact cellGet_cellPut_same _ _ _
  · rw [hkb, rK, if_neg (by decide)]; rfl
  · have : k.toNat ≠ 15 := fun h => hk15 (BitVec.eq_of_toNat_eq h)
    rw [rK, rK, hk]; simp only [swapBank, cellGet_cellPut_other _ _ _ _ this]
  · rw [rV, rV, hv]



@[simp] theorem swapBank_vregs (g : Group) : (swapBank g).vregs = g.vregs := by simp only [swapBank]
@[simp] theorem swapBank_fpstat (g : Group) : (swapBank g).fpstat = g.fpstat := by simp only [swapBank]

theorem enterHandler_bankSwapped (c : HandlerCause) (fc : Word32) (va : Word64) (mask done act : Word32) (epc : BitVec 56)
    (s : State) : BankSwapped s (enterHandler c fc va mask done act epc s) := by
  apply bankSwapped_of <;> simp only [enterHandler, swapBank_vregs, swapBank_fpstat]

/-! ### Entry to the supervisor handler and return from it -/

/-- What an entry to the supervisor handler leaves, from the state s of the instruction (R35). -/
def Entered (s t : State) (cause : HandlerCause) (epc : BitVec 56) (fc : Word32) (fva : Word64) (mask dm set : Word32) : Prop :=
  t.g.x.sup = true ∧ t.g.x.cause = cause ∧ t.g.x.epc = epc ∧ t.g.x.epcSet = epc ∧ t.g.x.faultCode = fc ∧ t.g.x.faultVa = fva
    ∧ t.g.x.faultMask = mask ∧ t.g.x.doneMask = dm ∧ t.g.x.actSet = set ∧ t.g.x.liveSave = s.g.live ∧ t.g.x.replay = none
    ∧ t.g.live = mask ∧ t.g.pc = handlerOf s
    ∧ (∀ r : SReg, 56 ≤ r.toNat → r.toNat ≤ 61 →
        rS t r = cellGet s.g.x.sbank r.toNat ∧ cellGet t.g.x.sbank r.toNat = rS s r)
    ∧ sKept s t (fun r => 56 ≤ r.toNat ∧ r.toNat ≤ 61) ∧ rK t 15 = s.g.x.kbank ∧ t.g.x.kbank = rK s 15
    ∧ kKept s t (fun k => k = 15) ∧ vKept s t (fun _ _ => False) ∧ t.g.fpstat = s.g.fpstat ∧ memKept s t

/-- An entry that starts from a state w whose registers, bank and memory are those of s. -/
theorem enterHandler_entered {s w : State} (hr : regsKept s w) (hm : memKept s w) (hsb : w.g.x.sbank = s.g.x.sbank)
    (hkb : w.g.x.kbank = s.g.x.kbank) (hh : handlerOf w = handlerOf s) (c : HandlerCause) (fc : Word32) (va : Word64)
    (mask done act : Word32) (epc : BitVec 56) :
    Entered s (enterHandler c fc va mask done act epc w) c epc fc va mask done act := by
  obtain ⟨hs, hk, hv, hlive, hfp⟩ := hr
  obtain ⟨banked, sregs, k15, kbank, kregs, vregs, fpstat⟩ := enterHandler_bankSwapped c fc va mask done act epc w
  have hmem : memKept s (enterHandler c fc va mask done act epc w) :=
    memKept_trans hm (memKept_of_m_tun (by simp only [enterHandler]) (by simp only [enterHandler]))
  refine ⟨?_, ?_, ?_, ?_, ?_, ?_, ?_, ?_, ?_, ?_, ?_, ?_, ?_, fun r h1 h2 => ?_, fun r h => (sregs r h).trans (hs r id),
    k15.trans hkb, kbank.trans (hk 15 id), fun k h => (kregs k h).trans (hk k id),
    fun r l h hl => (vregs r l h hl).trans (hv r l id hl), fpstat.trans hfp, hmem⟩
  case refine_14 => rw [← hsb, ← hs r id]; exact banked r h1 h2
  all_goals simp only [enterHandler, hlive, hh]

theorem entersHandler_iff (s : State) (code detail : Nat) :
    entersHandler s code detail = true ↔ hasHandler s ∧ (code = 0xFFFF ∨ code = 4 ∧ detail ≠ 11) := by
  simp [entersHandler, hasHandler, fTrap, fPAGE, and_assoc]

/-- A fault that enters the handler does so from the state of the instruction (R34, R35). -/
theorem raise_entered {s : State} {f : Flt} {done act : Word32} (hc : f.code ≠ 11) (h : entersHandler s f.code f.detail = true) :
    Entered s (raise f done act s) .precise s.g.pc (faultWord f 0 0) f.va f.mask (s.g.x.doneMask ||| done) act := by
  have hr : raise f done act s = enterHandler .precise (faultWord f 0 0) f.va f.mask (s.g.x.doneMask ||| done) act s.g.pc
      { s with g := { s.g with rdy := s.tick, urgent := false } } := by
    have hc : f.code ≠ fECCU := hc
    rw [raise, raiseAs, if_neg hc, if_pos h]
  rw [hr]
  exact enterHandler_entered ⟨fun _ _ => rfl, fun _ _ => rfl, fun _ _ _ _ => rfl, rfl, rfl⟩
    ⟨fun _ => rfl, fun _ _ => rfl, fun _ _ => rfl, fun _ => rfl⟩ rfl rfl rfl _ _ _ _ _ _ _

theorem retireS_entered (s : State) (c : HandlerCause) (fc : Word32) (va : Word64) (mask done act : Word32) (epc : BitVec 56) :
    Entered s (enterHandler c fc va mask done act epc (retireS s)) c epc fc va mask done act :=
  enterHandler_entered (retireTo_regsKept _ _ _) (completes_memKept (retireTo_completes _ _ _)) (retireTo_sbank _ _ _)
    (retireTo_kbank _ _ _) (handlerOf_retireTo _ _ _) _ _ _ _ _ _ _

/-! ### The agenda only grows when a fault is escalated -/

theorem agenda_subset_foldl {α : Type} {f : State → α → State} (hf : ∀ s x, s.agenda ⊆ (f s x).agenda) (l : List α) (s : State) :
    s.agenda ⊆ (l.foldl f s).agenda := by
  induction l generalizing s with
  | nil => exact List.Subset.refl _
  | cons x xs ih => exact List.Subset.trans (hf s x) (ih (f s x))

theorem agenda_subset_due (e : Event) (s : State) : s.agenda ⊆ (due e s).agenda := List.subset_append_left _ _
theorem agenda_subset_dues (es : List Event) (s : State) : s.agenda ⊆ (dues es s).agenda := List.subset_append_left _ _

@[simp] theorem wakeAll_agenda (s : State) : (wakeAll s).agenda = s.agenda := rfl
@[simp] theorem modCtx_agenda (c : Nat) (f : Ctx → Ctx) (s : State) : (modCtx c f s).agenda = s.agenda := rfl
@[simp] theorem mapGroups_agenda (p : Group → Bool) (f : Group → Group) (s : State) : (mapGroups p f s).agenda = s.agenda := rfl
@[simp] theorem timer_agenda (n : Nat) (e : Event) (s : State) : (timer n e s).agenda = s.agenda := by unfold timer; split <;> rfl
@[simp] theorem discardGroups_agenda (p : Group → Bool) (s : State) : (discardGroups p s).agenda = s.agenda := rfl
@[simp] theorem discardTeams_agenda (p : Team → Bool) (s : State) : (discardTeams p s).agenda = s.agenda := rfl
@[simp] theorem closeCmd_agenda (c : QCmd) (s : State) : (closeCmd c s).agenda = s.agenda := by
  unfold closeCmd closeId modQueue; dsimp only; split <;> rfl

theorem agenda_subset_giveBow (s : State) : s.agenda ⊆ (giveBow s).agenda := by
  unfold giveBow
  split
  · exact List.Subset.refl _
  split
  · exact List.Subset.refl _
  split
  · split
    · exact agenda_subset_due _ _
    · exact List.Subset.refl _
  · exact List.Subset.refl _

theorem agenda_subset_complete (c : QCmd) (st code res : Nat) (s : State) : s.agenda ⊆ (complete c st code res s).agenda := by
  unfold complete
  dsimp only
  split
  · exact agenda_subset_due _ _
  · rw [← closeCmd_agenda c s]; exact agenda_subset_due _ _

@[simp] theorem failPeers_agenda (c code : Nat) (s : State) : (failPeers c code s).agenda = s.agenda := by
  unfold failPeers
  refine (foldl_kept State.agenda (fun s e => ?_) _ _).trans rfl
  split
  · split <;> rfl
  · rfl

theorem agenda_subset_cancelCtx (c : Nat) (fcmd : Option Nat) (code : Nat) (s : State) :
    s.agenda ⊆ (cancelCtx c fcmd code s).agenda := by
  unfold cancelCtx
  dsimp only
  refine List.Subset.trans ?_ (agenda_subset_giveBow _)
  refine List.Subset.trans ?_ (agenda_subset_foldl (fun s q => ?_) _ _)
  · refine List.Subset.trans ?_ (agenda_subset_dues _ _)
    simp
  · split <;> exact agenda_subset_complete _ _ _ _ _

theorem agenda_subset_askSave (p : Group → Bool) (s : State) : s.agenda ⊆ (askSave p s).agenda := by
  unfold askSave
  dsimp only
  refine List.Subset.trans (by simp) (agenda_subset_foldl (fun s g => ?_) _ _)
  split
  · simp
  · exact agenda_subset_due _ _

theorem agenda_subset_applyPolicy (c : Nat) (fcmd : Option Nat) (code : Nat) (s : State) :
    s.agenda ⊆ (applyPolicy c fcmd code s).agenda := by
  unfold applyPolicy
  split
  · exact List.Subset.refl _
  split
  · exact List.Subset.trans (by simp) (agenda_subset_cancelCtx _ _ _ _)
  · exact List.Subset.trans (List.Subset.trans (by simp) (agenda_subset_askSave _ _)) (agenda_subset_dues _ _)

/-- The record that an escalated fault sends to the host (R454, R456). -/
def escalated (s : State) (src : BitVec 3) (fc : Word32) (fva : Word64) (mask : Word32) (pc : BitVec 56)
    (cmd : Word64 × Word64 × Word64 × Word64) : FaultRec :=
  { recOfGroup s src fc fva mask pc s.g with cmd0 := cmd.1, cmd1 := cmd.2.1, cmd2 := cmd.2.2.1, cmd3 := cmd.2.2.2 }

theorem escalate_sends (src : BitVec 3) (fc : Word32) (fva : Word64) (mask done : Word32) (pc : BitVec 56)
    (cmd : Word64 × Word64 × Word64 × Word64) (s : State) :
    .fault_record (escalated s src fc fva mask pc cmd) ∈ (escalate src fc fva mask done pc cmd s).agenda := by
  unfold escalate
  refine agenda_subset_applyPolicy _ _ _ _ ?_
  exact List.mem_append_right _ (List.mem_singleton.2 rfl)


/-- A fault that enters no handler and is no poison is escalated from the instruction (R38, R454). -/
theorem raise_escalates {s : State} {f : Flt} {done act : Word32} (hc : f.code ≠ 11) (h : entersHandler s f.code f.detail ≠ true) :
    raise f done act s = escalate 0 (faultWord f 0 0) f.va f.mask (s.g.x.doneMask ||| done) s.g.pc (0, 0, 0, 0) s := by
  have hc : f.code ≠ fECCU := hc
  rw [raise, raiseAs, if_neg hc, if_neg h]

/-- Poison is noted for the next boundary, and the group stands as it was (R356). -/
theorem notePoison_spec (va : Nat) (acc : BitVec 3) (s : State) :
    let t := notePoison va acc s
    t.g.x.eccu.isSome = true ∧ t.g.pc = s.g.pc ∧ t.g.status = s.g.status ∧ regsKept s t ∧ memKept s t := by
  unfold notePoison
  split
  case h_1 h =>
    exact ⟨by simp [h], rfl, rfl, ⟨fun _ _ => rfl, fun _ _ => rfl, fun _ _ _ _ => rfl, rfl, rfl⟩, memKept_of_m_tun rfl rfl⟩
  case h_2 =>
    exact ⟨rfl, rfl, rfl, ⟨fun _ _ => rfl, fun _ _ => rfl, fun _ _ _ _ => rfl, rfl, rfl⟩, memKept_of_m_tun rfl rfl⟩

theorem raise_eccu {s : State} {f : Flt} (done act : Word32) (hc : f.code = 11) : raise f done act s =
    notePoison f.va.toNat (BitVec.ofNat 3 f.acc) { s with g := { s.g with x := { s.g.x with doneMask := s.g.x.doneMask ||| done } } } := by
  have hc : f.code = fECCU := hc
  rw [raise, raiseAs, if_pos hc]

theorem faultWord_zero (f : Flt) :
    faultWord f 0 0 = BitVec.ofNat 32 (f.code + f.acc * 2 ^ 16 + f.level * 2 ^ 19 + f.detail * 2 ^ 28) := by
  simp [faultWord, w32]

theorem entersHandler_trap (s : State) : entersHandler s fTrap 0 = true ↔ hasHandler s := by
  rw [entersHandler_iff]; simp [fTrap]

/-- Settles O41: a fault is an entry to the handler, poison noted, or an escalation with its record. -/
theorem exceptionEntry : Obligations.ExceptionEntry := by
  unfold Obligations.ExceptionEntry
  intro s f done act i entered host fc
  have hfc : faultWord f 0 0 = fc := faultWord_zero f
  have toHost (s' : State) (hidn : s'.g.idn = s.g.idn) (c : Word32) (va : Word64) (m d : Word32) (pc : BitVec 56) :
      host (escalate 0 c va m d pc (0, 0, 0, 0) s') c va m pc :=
    ⟨_, escalate_sends 0 c va m d pc (0, 0, 0, 0) s', rfl, rfl, rfl, rfl, rfl, congrArg GIdent.tidx hidn⟩
  refine ⟨fun hh hc hd => ?_, fun hc => ?_, fun hno hc ht => ?_, fun hh => ?_, fun hh => ?_, ?_⟩
  · rw [← hfc]
    exact raise_entered (by omega) ((entersHandler_iff _ _ _).2 ⟨hh, .inr ⟨hc, hd⟩⟩)
  · intro t
    have ht : t = _ := raise_eccu done act hc
    rw [ht]
    exact notePoison_spec _ _ { s with g := { s.g with x := { s.g.x with doneMask := s.g.x.doneMask ||| done } } }
  · have hne : entersHandler s f.code f.detail ≠ true := fun h => by
      obtain ⟨hh, h | h⟩ := (entersHandler_iff _ _ _).1 h
      · exact ht h
      · exact hno.elim (· hh) (· h)
    rw [raise_escalates hc hne, hfc]
    exact toHost s rfl _ _ _ _ _
  · exact ⟨_, if_pos ((entersHandler_trap s).2 hh), retireS_entered s .trap 0xFFFF (i.zeroExtend 64) s.g.live 0 0 (nextPc s)⟩
  · exact ⟨_, if_neg (fun h => hh ((entersHandler_trap s).1 h)), toHost (retireS s) (retireTo_idn _ _ _) _ _ _ _ _⟩
  · have hm := completes_memKept (retireTo_completes s.g.live (nextPc s) s)
    exact ⟨_, _, rfl, rfl, rfl, retireTo_regsKept s.g.live (nextPc s) s, memKept_trans hm (memKept_of_m_tun rfl rfl),
      List.mem_append_right _ (List.mem_singleton.2 rfl), rfl, rfl, rfl⟩


/-! ### Return from the handler -/

/-- Only the group's status, its wait for the next issue and its engines differ, and what other groups do. -/
def SameArch (s t : State) : Prop :=
  t.m = s.m ∧ t.tun = s.tun ∧ t.g = { s.g with status := t.g.status, rdy := t.g.rdy, n := t.g.n }

theorem SameArch.refl (s : State) : SameArch s s := ⟨rfl, rfl, rfl⟩

theorem wakeGroup_eq (s : State) (g : Group) :
    wakeGroup s g = { g with status := (wakeGroup s g).status, rdy := (wakeGroup s g).rdy } := by
  unfold wakeGroup; split <;> rfl

theorem sameArch_wakeAll (s : State) : SameArch s (wakeAll s) := by
  refine ⟨rfl, rfl, ?_⟩
  have hg : (wakeAll s).g = wakeGroup s s.g := by simp [wakeAll, wakeWhere, mapGroups]
  rw [hg, wakeGroup_eq]

theorem sameArch_modGroup {gid : Nat} {f : Group → Group} (hf : ∀ g, f g = { g with n := (f g).n }) (s : State) :
    SameArch s (modGroup gid f s) := by
  unfold modGroup
  split
  · exact ⟨rfl, rfl, by rw [hf s.g]⟩
  · exact ⟨rfl, rfl, rfl⟩

theorem sameArch_unpark (fc : Word32) (gid : Nat) (s : State) : SameArch s (unpark fc gid s) := by
  unfold unpark
  dsimp only
  split
  · exact sameArch_modGroup (fun _ => rfl) s
  · exact sameArch_modGroup (fun _ => rfl) s

/-- At supervisor privilege retf is `returnHandler`, after which groups and engines may go on. -/
theorem execRetf_sup {s : State} (h : s.g.x.sup = true) : ∃ t, execRetf s = .next t ∧ SameArch (returnHandler s) t := by
  unfold execRetf
  rw [h]
  refine ⟨_, rfl, ?_⟩
  split
  · exact sameArch_unpark _ _ _
  split
  · exact sameArch_wakeAll _
  · exact SameArch.refl _

theorem returnHandler_x (s : State) :
    (returnHandler s).g.x.sup = false ∧ (returnHandler s).g.live = s.g.x.liveSave ∧ (returnHandler s).g.pc = s.g.x.epc
      ∧ (s.g.x.cause = .precise → s.g.x.epc = s.g.x.epcSet →
          (returnHandler s).g.x.replay = some (s.g.x.actSet &&& s.g.x.liveSave &&& ~~~s.g.x.doneMask)
            ∧ (returnHandler s).g.x.doneMask = s.g.x.doneMask)
      ∧ (s.g.x.cause = .whole → s.g.x.epc = s.g.x.epcSet →
          (returnHandler s).g.x.replay = s.g.x.replayKept.map (fun m => m &&& s.g.x.liveSave)
            ∧ (returnHandler s).g.x.doneMask = s.g.x.doneMask)
      ∧ (s.g.x.epc ≠ s.g.x.epcSet ∨ (s.g.x.cause ≠ .precise ∧ s.g.x.cause ≠ .whole) →
          (returnHandler s).g.x.replay = none ∧ (returnHandler s).g.x.doneMask = 0) := by
  refine ⟨by simp only [returnHandler], by simp only [returnHandler], by simp only [returnHandler], fun hc he => ?_,
    fun hc he => ?_, fun h => ?_⟩
  · simp [returnHandler, hc, he]
  · simp [returnHandler, hc, he]
  · have again : ((s.g.x.cause == .precise || s.g.x.cause == .whole) && s.g.x.epc == s.g.x.epcSet) = false := by
      rcases h with he | ⟨hp, hw⟩
      · simp [he]
      · simp [hp, hw]
    simp only [returnHandler, again, Bool.false_eq_true, if_false, and_self]

/-- Settles O42: retf is `returnHandler`, which exchanges the bank and decides by cause and EPC whether a replay is due. -/
theorem exceptionReturn : Obligations.ExceptionReturn := by
  unfold Obligations.ExceptionReturn
  intro s w a
  refine ⟨fun hsup => ?_, fun hu => ?_, rfl, fun hsup => ?_⟩
  · obtain ⟨t, ht, hm, htun, hg⟩ := execRetf_sup hsup
    have hx : t.g.x = (returnHandler s).g.x := by rw [hg]
    obtain ⟨banked, sregs, k15, kbank, kregs, vregs, fpstat⟩ : BankSwapped s t := by
      apply bankSwapped_of <;> rw [hg] <;> simp only [returnHandler, swapBank_vregs, swapBank_fpstat]
    obtain ⟨xsup, xlive, xpc, xprecise, xwhole, xother⟩ := returnHandler_x s
    have hmem : memKept s t := memKept_of_m_tun (hm.trans (by simp only [returnHandler])) (htun.trans (by simp only [returnHandler]))
    have hlive : t.g.live = (returnHandler s).g.live := by rw [hg]
    have hpc : t.g.pc = (returnHandler s).g.pc := by rw [hg]
    rw [← hx] at xsup xprecise xwhole xother
    exact ⟨t, ht, xsup, hlive.trans xlive, hpc.trans xpc, banked, sregs, k15, kbank, kregs, vregs, fpstat, hmem, xprecise, xwhole, xother⟩
  · have h : execRetf s = .next (raiseI fPRIV s) := by simp [execRetf, hu]
    exact h
  · have h : execSwr a 0x24 s = .next (retireS { s with g := { s.g with x := { s.g.x with epc := pcOf (rS s a) } } }) := by
      simp [execSwr, sysReg, sysRegSup, sysWrite, hsup]
    refine ⟨_, h, ?_, ?_⟩ <;> simp [retireS, retire, retireTo, foldSig, hsup, pcOf]

end Sys2Proof.Machine
end

section
/-! SUPPORT. Loads and stores whose lanes all lie in scratchpads; they settle O16 and O18 (R20, R125, R360, R361). -/
namespace Sys2Proof.Machine

/-! ### Lanes that pass their checks -/

theorem performing_of_allOk {ls : List LaneAcc} (h : allOk ls) : performing ls = ls := by
  have hbad : ls.filter (fun a => !a.ok) = [] := List.filter_eq_nil_iff.2 (fun a ha => by simp [h a ha])
  simp only [performing, hbad, List.any_nil, Bool.not_false, Bool.and_true]
  exact List.filter_eq_self.2 h

theorem laneFault_of_allOk {ls : List LaneAcc} (acc : Nat) (h : allOk ls) : laneFault acc ls = none := by
  have hf : failures ls = [] := List.filterMap_eq_nil_iff.2 (fun a ha => by
    have := h a ha
    unfold LaneAcc.ok at this
    split at this
    · next hr => rw [hr]
    · exact absurd this (by decide))
  unfold laneFault
  rw [hf]

/-- The lane's bytes lie in a scratchpad at the place given. -/
def LaneAcc.inScratch (a : LaneAcc) (l : SLoc) : Prop := a.res = .ok (.scr l)

theorem LaneAcc.inScratch.ok {a : LaneAcc} {l : SLoc} (h : a.inScratch l) : a.ok = true := by
  unfold LaneAcc.ok; rw [h]

theorem LaneAcc.inScratch.scr_eq {a : LaneAcc} {l : SLoc} (h : a.inScratch l) : a.scr = some l := by
  unfold LaneAcc.scr; rw [h]

theorem allOk_of_inScratch {ls : List LaneAcc} {loc : Nat → SLoc} (h : ∀ a ∈ ls, a.inScratch (loc a.lane)) : allOk ls :=
  fun a ha => (h a ha).ok

@[simp] theorem scrLane_lane (s : State) (al lane : Nat) (a : Word64) (d : Int) (n : Nat) :
    (scrLane s al lane a d n).lane = lane := by
  unfold scrLane; dsimp only; split <;> rfl
@[simp] theorem scrLane_n (s : State) (al lane : Nat) (a : Word64) (d : Int) (n : Nat) : (scrLane s al lane a d n).n = n := by
  unfold scrLane; dsimp only; split <;> rfl

theorem withRegs_of_canName {s : State} {rs : List VReg} (h : canName s rs) (out : Out) : withRegs rs s out = out := by
  unfold canName at h; simp [withRegs, h]

/-! ### A load that waits for nothing -/

theorem loadHeld_of_loadReady {s : State} {q : MemQ} {ls : List LaneAcc} (h : loadReady s q ls) :
    loadHeld (decide (q.hint = 0)) ls s = none := by
  obtain ⟨-, hhost, hpart, hfill, hhome, -, hatom, hstuck, hsnoop, hvals⟩ := h
  have hs : ¬(q.hint = 0 ∧ stuckSegs s ls ≠ []) := fun h => h.2 (hstuck h.1)
  have hv : ¬ s.g.hostVals.length < (hostSegs ls).length := by omega
  unfold loadHeld
  simp only [hhost, hpart, hfill, hhome, hatom, hsnoop, hv]
  simp only [ne_eq, not_true_eq_false, decide_false, Bool.or_self, Bool.false_eq_true, if_false, Bool.and_eq_true,
    decide_eq_true_eq, if_neg hs]

theorem acquireNow_of_keepsL1 {q : MemQ} (h : keepsL1 q) (s : State) :
    (if q.ord = 1 then acquireNow q.scope.toNat s else s) = s := by
  split
  case isTrue hord =>
    have hlt : q.scope.toNat < 2 := h.resolve_left (fun hn => hn hord)
    simp [acquireNow, acquireWide, hlt]
  case isFalse => rfl

/-- A load that passes its checks, waits for nothing and keeps the L1 takes its lanes' data and completes (R360). -/
theorem loadInstr_of_loadReady {s : State} {q : MemQ} {ls : List LaneAcc} (hk : keepsL1 q) (ha : allOk ls) (hr : loadReady s q ls)
    (scalar : Bool) (act : Word32) (put : Nat → Nat → State → State) :
    loadInstr scalar q act ls put s = .next (retire act (raiseLd ls.isEmpty (loadLanes q.hint put ls s))) := by
  have hld : s.g.n.ld < 63 := hr.1
  have hacq : q.ord = 1 → acqWaits s q.scope.toNat ls = false := hr.2.2.2.2.2.1
  have hwait : ¬((decide (s.g.n.ld ≥ 63) || decide (q.ord = 1) && acqWaits s q.scope.toNat ls) = true) := by
    simpa [hld] using hacq
  unfold loadInstr
  simp only [performing_of_allOk ha, if_neg hwait, loadHeld_of_loadReady hr, finishAccess, laneFault_of_allOk 0 ha]
  rw [acquireNow_of_keepsL1 hk]

/-! ### Loads from scratchpads -/

/-- The bytes of a lane at its place in a scratchpad. -/
def scrBytes (s : State) (loc : Nat → SLoc) (a : LaneAcc) : Nat := sramBytes s (loc a.lane).core (loc a.lane).off a.n

theorem sramBytes_congr {s t : State} (h : t.m = s.m) (core off n : Nat) : sramBytes t core off n = sramBytes s core off n := by
  induction n generalizing off with
  | zero => rfl
  | succ n ih => rw [sramBytes, sramBytes, ih, h]

/-- Lanes in scratchpads without poison write their destinations, one after the other, with the bytes of the state before. -/
theorem loadLanes_scratch {put : Nat → Nat → State → State} (hput : ∀ l v s, (put l v s).m = s.m) {loc : Nat → SLoc}
    {ls : List LaneAcc} {s : State} (h : ∀ a ∈ ls, a.inScratch (loc a.lane))
    (hp : ∀ a ∈ ls, sramPoisoned s (loc a.lane).core (loc a.lane).off a.n = false) (hint : BitVec 2) :
    loadLanes hint put ls s = ls.foldl (fun u a => put a.lane (scrBytes s loc a) u) s := by
  unfold loadLanes
  suffices key : ∀ (xs : List LaneAcc) (ims : Images) (u : State), (∀ a ∈ xs, a ∈ ls) → u.m = s.m →
      (xs.foldl (fun (x : Images × State) a =>
        let r := laneLoad hint ls a x
        (r.2.1, if r.1.2 then notePoison a.addr 0 r.2.2 else put a.lane r.1.1 r.2.2)) (ims, u)).2
        = xs.foldl (fun u a => put a.lane (scrBytes s loc a) u) u from
    key ls _ s (fun _ ha => ha) rfl
  intro xs
  induction xs with
  | nil => intro ims u _ _; rfl
  | cons a xs ih =>
    intro ims u hx hu
    have ha : a ∈ ls := hx a (List.mem_cons_self ..)
    have hload : laneLoad hint ls a (ims, u) = ((scrBytes s loc a, false), ims, u) := by
      have hpo : sramPoisoned u (loc a.lane).core (loc a.lane).off a.n = false := by
        rw [← hp a ha, sramPoisoned, hu, sramPoisoned]
      have hres : a.res = .ok (.scr (loc a.lane)) := h a ha
      unfold laneLoad
      simp only [hres, hpo, sramBytes_congr hu, scrBytes]
    simp only [List.foldl_cons, hload, Bool.false_eq_true, if_false]
    exact ih ims _ (fun b hb => hx b (List.mem_cons_of_mem _ hb)) ((hput _ _ _).trans hu)

theorem putS_m (d : SReg) (w : IW) (sx : Bool) (l v : Nat) (s : State) : (putS d w sx l v s).m = s.m := wS_m _ _ _
theorem putV_m (d : VReg) (w : IW) (sx : Bool) (l v : Nat) (s : State) : (putV d w sx l v s).m = s.m := rfl

/-- Writing a vector load's lanes one after the other is the write of its acting lanes. -/
theorem foldl_putV (d : VReg) (w : IW) (sx : Bool) (f : Nat → Nat) (ls : List Nat) (s : State) :
    ls.foldl (fun u l => putV d w sx l (f l) u) s = { s with g := putLanes s.g d.toNat ls (fun l => extW w sx (f l)) } := by
  unfold putLanes
  induction ls generalizing s with
  | nil => rfl
  | cons l ls ih => rw [List.foldl_cons, List.foldl_cons, ih]; rfl

theorem raiseLd_regWrite {s w : State} (e : Bool) (h : regWrite s w) : regWrite (raiseLd e s) (raiseLd e w) := by
  unfold regWrite at *; rw [h]; rfl

@[simp] theorem rS_raiseLd (e : Bool) (s : State) (r : SReg) : rS (raiseLd e s) r = rS s r := rfl
@[simp] theorem rK_raiseLd (e : Bool) (s : State) (r : KReg) : rK (raiseLd e s) r = rK s r := rfl
@[simp] theorem rV_raiseLd (e : Bool) (s : State) (r : VReg) (l : Nat) : rV (raiseLd e s) r l = rV s r l := rfl
@[simp] theorem nextPc_raiseLd (e : Bool) (s : State) : nextPc (raiseLd e s) = nextPc s := rfl

/-- The end of a load that has written registers only: it completes, and its unit counts in LD (R116). -/
theorem retire_raiseLd_spec {s w : State} (h : regWrite s w) (e : Bool) (act : Word32) :
    completes (raiseLd e s) (retire act (raiseLd e w)) (nextPc s) ∧ memKept s (retire act (raiseLd e w)) := by
  have hpc : nextPc (raiseLd e w) = nextPc s := by rw [h]; rfl
  have hc : completes (raiseLd e s) (retire act (raiseLd e w)) (nextPc s) := by
    rw [retire, hpc]; exact retireTo_completes_of (raiseLd_regWrite e h) act (nextPc s)
  have h0 : memKept s (raiseLd e s) := memKept_of_m_tun rfl rfl
  exact ⟨hc, memKept_trans h0 (completes_memKept hc)⟩

/-- What a scratch load of the scalar thread leaves. -/
theorem scratchLoad_scalar {s : State} {a : SReg} {off : BitVec 21} {n : Nat} {l : SLoc} {q : MemQ} (hk : keepsL1 q)
    (hl : (scrLane s 1 0 (rS s a) off.toInt n).inScratch l) (hp : sramPoisoned s l.core l.off n = false)
    (hr : loadReady s q [scrLane s 1 0 (rS s a) off.toInt n]) (d : SReg) (w : IW) (sx : Bool) :
    ∃ t, loadInstr true q s.g.live (scrScalar s 1 n a off) (putS d w sx) s = .next t ∧ completes (raiseLd false s) t (nextPc s)
      ∧ rS t d = (if d = 0 then 0 else extW w sx (sramBytes s l.core l.off n)) ∧ onlyS s t d ∧ memKept s t := by
  have hmem : ∀ x ∈ scrScalar s 1 n a off, x.inScratch l := by
    simp only [scrScalar, List.mem_singleton, forall_eq]; exact hl
  have hpoi : ∀ x ∈ scrScalar s 1 n a off, sramPoisoned s l.core l.off x.n = false := by
    simp only [scrScalar, List.mem_singleton, forall_eq, scrLane_n]; exact hp
  have hlanes : loadLanes q.hint (putS d w sx) (scrScalar s 1 n a off) s
      = wS s d (extW w sx (sramBytes s l.core l.off n)) := by
    rw [loadLanes_scratch (loc := fun _ => l) (putS_m d w sx) hmem hpoi]
    simp [scrScalar, scrBytes, putS]
  refine ⟨_, loadInstr_of_loadReady hk (allOk_of_inScratch (loc := fun _ => l) hmem) hr _ _ _, ?_⟩
  rw [hlanes]
  obtain ⟨hc, hm⟩ := retire_raiseLd_spec (wS_form s d (extW w sx (sramBytes s l.core l.off n))) false s.g.live
  refine ⟨hc, ?_, ⟨fun r hr => ?_, fun k _ => ?_, fun r l _ _ => ?_, ?_, ?_⟩, hm⟩
  · simp [scrScalar, retire, rS_wS_same]
  · simp [retire, rS_wS_other _ _ hr]
  all_goals simp [retire]

/-- What a scratch load of lanes leaves: ls names the acting lanes in ascending order. -/
theorem scratchLoad_lanes {s : State} {k : KReg} {q : MemQ} {mk : Nat → LaneAcc} {n : Nat} {loc : Nat → SLoc} (hk : keepsL1 q)
    (hlane : ∀ l, (mk l).lane = l) (hn : ∀ l, (mk l).n = n) (hr : loadReady s q ((lanesOf (actOf s k)).map mk))
    (h : ∀ a ∈ (lanesOf (actOf s k)).map mk,
      a.res = .ok (.scr (loc a.lane)) ∧ sramPoisoned s (loc a.lane).core (loc a.lane).off n = false)
    (v : VReg) (w : IW) (sx : Bool) :
    ∃ t, loadInstr false q (actOf s k) ((lanesOf (actOf s k)).map mk) (putV v w sx) s = .next t
      ∧ completes (raiseLd ((lanesOf (actOf s k)).map mk).isEmpty s) t (nextPc s)
      ∧ (∀ l < 32, rV t v l = if (actOf s k).getLsbD l then extW w sx (sramBytes s (loc l).core (loc l).off n) else rV s v l)
      ∧ onlyV s t v (actOf s k) ∧ memKept s t := by
  have hscr : ∀ a ∈ (lanesOf (actOf s k)).map mk, a.inScratch (loc a.lane) := fun a ha => (h a ha).1
  have hpoi : ∀ a ∈ (lanesOf (actOf s k)).map mk, sramPoisoned s (loc a.lane).core (loc a.lane).off a.n = false := by
    intro a ha
    obtain ⟨l, -, rfl⟩ := List.mem_map.1 ha
    rw [hn]; exact (h _ ha).2
  have hlanes : loadLanes q.hint (putV v w sx) ((lanesOf (actOf s k)).map mk) s
      = wV s v (actOf s k) (fun l => extW w sx (sramBytes s (loc l).core (loc l).off n)) := by
    rw [loadLanes_scratch (putV_m v w sx) hscr hpoi, List.foldl_map]
    simp only [scrBytes, hlane, hn]
    exact foldl_putV v w sx _ _ s
  refine ⟨_, loadInstr_of_loadReady hk (allOk_of_inScratch hscr) hr _ _ _, ?_⟩
  rw [hlanes]
  generalize ((lanesOf (actOf s k)).map mk).isEmpty = e
  obtain ⟨hc, hm⟩ := retire_raiseLd_spec
    (wV_form s v (actOf s k) (fun l => extW w sx (sramBytes s (loc l).core (loc l).off n))) e (actOf s k)
  refine ⟨hc, fun l hl => ?_, ⟨fun r _ => ?_, fun k _ => ?_, fun r l hr hl => ?_, ?_, ?_⟩, hm⟩
  · simp [retire, rV_wV _ _ _ _ _ _ hl]
  · simp [retire]
  · simp [retire]
  · simp only [retire, rV_retireTo, rV_raiseLd, rV_wV _ _ _ _ _ _ hl, if_neg hr]
  · simp [retire]
  · simp [retire]

/-- Settles O16: a scratch load that waits for nothing reads its lanes' bytes and writes its destination. -/
theorem scratchLoadResult : Obligations.ScratchLoadResult := by
  unfold Obligations.ScratchLoadResult
  intro s v u k w sx off q loc n act hk
  refine ⟨fun hl hp hr => scratchLoad_scalar hk hl hp hr _ w sx, fun p hp => ?_⟩
  simp only [List.mem_cons, List.not_mem_nil, or_false] at hp
  rcases hp with rfl | rfl
  · intro hname hr h
    have hx : exec (.ld_x 1 v u .w64 false k off q) s = loadInstr false q act (scrContig s 1 (sOf u) off act) (putV v .w64 false) s :=
      withRegs_of_canName hname _
    dsimp only
    rw [hx]
    exact scratchLoad_lanes hk (fun l => scrLane_lane _ _ _ _ _ _) (fun l => scrLane_n _ _ _ _ _ _) hr h v .w64 false
  · intro hname hr h
    have hx : exec (.ld_x 2 v u w sx k off q) s = loadInstr false q act (scrGather s 1 n u off act) (putV v w sx) s :=
      withRegs_of_canName hname _
    dsimp only
    rw [hx]
    exact scratchLoad_lanes hk (fun l => scrLane_lane _ _ _ _ _ _) (fun l => scrLane_n _ _ _ _ _ _) hr h v w sx

/-! ### A store that waits for nothing -/

/-- A store that passes its checks and waits for nothing performs its lanes and completes (R361). -/
theorem storeInstr_of_storeReady {s : State} {q : MemQ} {ls : List LaneAcc} (ha : allOk ls) (hr : storeReady s q ls)
    (scalar : Bool) (act : Word32) (val : Nat → Nat) :
    storeInstr scalar q act ls val s
      = .next (retire act (storeLanes q.hint (stUnit s) (ls.map (fun a => (a, val a.lane % 256 ^ a.n))) s)) := by
  obtain ⟨hdet, hst, hpart, hwaits, hfill, hrel, hstuck⟩ := hr
  have hpassed : passedBow s s.g = false := by simp [passedBow, hdet]
  have hbow : bowDue s s.g = false := by simp [bowDue, hdet]
  have hst' : decide (s.g.n.sts.length ≥ 63) = false := decide_eq_false (by omega)
  have hf : (q.hint != 0 && fillsPending s ls) = false := by
    by_cases h : q.hint = 0
    · simp [h]
    · simp [hfill h]
  have hq : (decide (q.ord = 2) && releaseWaits s q.scope.toNat) = false := by
    simpa using hrel
  have hs : ¬(q.hint ≠ 2 ∧ stuckSegs s ls ≠ []) := fun h => h.2 (hstuck h.1)
  unfold storeInstr
  simp only [performing_of_allOk ha, hpassed, hbow, hst', hpart, hwaits, hf, hq, hdet, if_neg hs, finishAccess, holdIf,
    laneFault_of_allOk 1 ha]
  simp

/-! ### Scratchpad bytes after a write -/

/-- A byte of the scratchpads by its key. -/
def sramCell (s : State) (k : Nat) : Byte := cellGet s.m.sram k

theorem sramPut_eq (core off n v : Nat) (s : State) : sramPut core off n v s
    = { s with m := { s.m with sram := (sramPut core off n v s).m.sram, srPoison := (sramPut core off n v s).m.srPoison } } := by
  induction n generalizing off v s with
  | zero => rfl
  | succ n ih => rw [sramPut, ih]

/-- The n bytes at a place hold the value written, and no other byte changes. -/
theorem sramCell_sramPut (core off n v : Nat) (s : State) (k : Nat) : sramCell (sramPut core off n v s) k
    = if sramKey core off ≤ k ∧ k < sramKey core off + n then BitVec.ofNat 8 (v / 256 ^ (k - sramKey core off)) else sramCell s k := by
  induction n generalizing off v s with
  | zero => rw [if_neg (by omega)]; rfl
  | succ n ih =>
    have hkey : sramKey core (off + 1) = sramKey core off + 1 := by simp only [sramKey]; omega
    rw [sramPut, ih, hkey]
    by_cases hk : k = sramKey core off
    · subst hk
      rw [if_neg (by omega), if_pos (by omega)]
      simp [sramCell]
    · have hcell : sramCell { s with m := { s.m with sram := cellPut s.m.sram (sramKey core off) (BitVec.ofNat 8 v), srPoison := cellPut s.m.srPoison (sramKey core off) 0 } } k
          = sramCell s k := cellGet_cellPut_other _ _ _ _ hk
      rw [hcell]
      by_cases hin : sramKey core off + 1 ≤ k ∧ k < sramKey core off + 1 + n
      · have hpow : k - sramKey core off = (k - (sramKey core off + 1)) + 1 := by omega
        rw [if_pos hin, if_pos (by omega), hpow, Nat.pow_succ', Nat.div_div_eq_div_mul]
      · rw [if_neg hin, if_neg (by omega)]

/-- A lane's write of its low n bytes at its place. -/
def putLow (n : Nat) (loc : Nat → SLoc) (val : Nat → Nat) (s : State) (l : Nat) : State :=
  sramPut (loc l).core (loc l).off n (val l % 256 ^ n) s

/-- Whether lane l writes the byte with a key. -/
def writesKey (n : Nat) (loc : Nat → SLoc) (l k : Nat) : Prop :=
  sramKey (loc l).core (loc l).off ≤ k ∧ k < sramKey (loc l).core (loc l).off + n

theorem ofNat8_mod_div (v n i : Nat) (h : i < n) : BitVec.ofNat 8 (v % 256 ^ n / 256 ^ i) = BitVec.ofNat 8 (v / 256 ^ i) := by
  obtain ⟨m, rfl⟩ : ∃ m, n = i + (m + 1) := ⟨n - i - 1, by omega⟩
  apply BitVec.eq_of_toNat_eq
  rw [Nat.pow_add, Nat.mod_mul_right_div_self, BitVec.toNat_ofNat, BitVec.toNat_ofNat]
  exact Nat.mod_mod_of_dvd _ ⟨256 ^ m, by rw [Nat.pow_succ']⟩

theorem sramCell_putLow {n : Nat} {loc : Nat → SLoc} (val : Nat → Nat) (s : State) {l k : Nat} (h : writesKey n loc l k) :
    sramCell (putLow n loc val s l) k = BitVec.ofNat 8 (val l / 256 ^ (k - sramKey (loc l).core (loc l).off)) := by
  have hlt : k - sramKey (loc l).core (loc l).off < n := by have := h.1; have := h.2; omega
  rw [putLow, sramCell_sramPut]
  exact (if_pos h).trans (ofNat8_mod_div _ _ _ hlt)

theorem sramCell_putLow_other {n : Nat} {loc : Nat → SLoc} (val : Nat → Nat) (s : State) {l k : Nat} (h : ¬writesKey n loc l k) :
    sramCell (putLow n loc val s l) k = sramCell s k := by
  rw [putLow, sramCell_sramPut]; exact if_neg h

theorem sramCell_foldl_putLow_other {n : Nat} {loc : Nat → SLoc} (val : Nat → Nat) {ls : List Nat} {k : Nat}
    (h : ∀ l ∈ ls, ¬writesKey n loc l k) (s : State) : sramCell (ls.foldl (putLow n loc val) s) k = sramCell s k := by
  induction ls generalizing s with
  | nil => rfl
  | cons l ls ih =>
    rw [List.foldl_cons, ih (fun j hj => h j (List.mem_cons_of_mem _ hj)), sramCell_putLow_other val s (h l (List.mem_cons_self ..))]

/-- Of lanes in ascending order the highest that writes a byte decides it (R125). -/
theorem sramCell_foldl_putLow {n : Nat} {loc : Nat → SLoc} (val : Nat → Nat) {ls : List Nat} (hs : ls.Pairwise (· < ·)) {l k : Nat}
    (hl : l ∈ ls) (hw : writesKey n loc l k) (hlast : ∀ j ∈ ls, l < j → ¬writesKey n loc j k) (s : State) :
    sramCell (ls.foldl (putLow n loc val) s) k = BitVec.ofNat 8 (val l / 256 ^ (k - sramKey (loc l).core (loc l).off)) := by
  induction ls generalizing s with
  | nil => exact absurd hl (List.not_mem_nil)
  | cons a ls ih =>
    obtain ⟨hlt, hs'⟩ := List.pairwise_cons.1 hs
    rcases List.mem_cons.1 hl with rfl | hin
    · rw [List.foldl_cons, sramCell_foldl_putLow_other val (fun j hj => hlast j (List.mem_cons_of_mem _ hj) (hlt j hj)),
        sramCell_putLow val s hw]
    · exact ih hs' hin (fun j hj => hlast j (List.mem_cons_of_mem _ hj)) (putLow n loc val s a)

/-- A fold of scratchpad writes changes nothing but the scratchpads. -/
theorem foldl_putLow_eq (n : Nat) (loc : Nat → SLoc) (val : Nat → Nat) (ls : List Nat) (s : State) :
    ls.foldl (putLow n loc val) s = { s with m := { s.m with sram := (ls.foldl (putLow n loc val) s).m.sram
                                                             srPoison := (ls.foldl (putLow n loc val) s).m.srPoison } } := by
  induction ls generalizing s with
  | nil => rfl
  | cons l ls ih => rw [List.foldl_cons, ih, putLow, sramPut_eq]

theorem lanesOf_pairwise (m : Word32) : (lanesOf m).Pairwise (· < ·) := List.pairwise_lt_range.filter _

/-! ### Stores to scratchpads -/

/-- A fold each of whose steps is the image of another's is the image of that fold. -/
theorem foldl_hom_of_mem {σ τ α : Type} (e : σ → τ) (g : σ → α → σ) {f : τ → α → τ} {ls : List α}
    (h : ∀ a ∈ ls, ∀ u, f (e u) a = e (g u a)) (s : σ) : ls.foldl f (e s) = e (ls.foldl g s) := by
  induction ls generalizing s with
  | nil => rfl
  | cons a ls ih =>
    rw [List.foldl_cons, List.foldl_cons, h a (List.mem_cons_self ..)]
    exact ih (fun b hb => h b (List.mem_cons_of_mem _ hb)) (g s a)

/-- The stores of lanes in scratchpads, in a launch that stages nothing, are their writes one after the other. -/
theorem storeLanes_scratch {s : State} {mk : Nat → LaneAcc} {n : Nat} {loc : Nat → SLoc} (hdet : isDet s s.g = false)
    (hn : ∀ l, (mk l).n = n) (hlane : ∀ l, (mk l).lane = l) {ls : List Nat} (h : ∀ l ∈ ls, (mk l).inScratch (loc l))
    (hint : BitVec 2) (unit : Nat) (val : Nat → Nat) :
    storeLanes hint unit ((ls.map mk).map (fun a => (a, val a.lane % 256 ^ a.n))) s
      = raiseSt unit 0 (ls.foldl (putLow n loc val) s) := by
  unfold storeLanes
  simp only [hdet, Bool.false_and, Bool.false_eq_true, if_false, List.map_map, List.foldl_map, Function.comp_apply, hlane, hn]
  rw [foldl_hom_of_mem (fun u => (([] : List SecWr), u)) (putLow n loc val)]
  · rfl
  · intro l hl u
    simp only [(h l hl).scr_eq]
    rfl

/-- What a scratch store leaves beside the bytes it writes. -/
def ScratchStored (s t : State) : Prop :=
  t.g.pc = nextPc s ∧ regsKept s t ∧ (∀ pa, cohByte t pa = cohByte s pa)
    ∧ (∀ core pa, coreByte t core pa = coreByte s core pa) ∧ t.rest = s.rest

theorem addUnit_form (u k : Nat) (s : State) : addUnit u k s = { s with g := { s.g with n := (addUnit u k s).g.n } } := rfl

theorem raiseSt_form (u k : Nat) (s : State) :
    raiseSt u k s = { s with g := { s.g with n := (raiseSt u k s).g.n, x := (raiseSt u k s).g.x } } := rfl

theorem scratchStored_retire {s w : State} (sram : Cells 8) (po : Cells 1)
    (hw : w = { s with m := { s.m with sram := sram, srPoison := po } }) (u k : Nat) (act : Word32) :
    ScratchStored s (retire act (raiseSt u k w)) := by
  rw [hw, raiseSt_form]
  refine ⟨rfl, ?_, fun _ => rfl, fun _ _ => rfl, rfl⟩
  exact retireTo_regsKept act (nextPc s) { s with
    m := { s.m with sram := sram, srPoison := po }
    g := { s.g with n := (raiseSt u k { s with m := { s.m with sram := sram, srPoison := po } }).g.n
                    x := (raiseSt u k { s with m := { s.m with sram := sram, srPoison := po } }).g.x } }

/-- A scratch store of lanes in ascending order that waits for nothing: what it leaves, and each byte of the scratchpads. -/
theorem scratchStore_lanes {s : State} {q : MemQ} {mk : Nat → LaneAcc} {n : Nat} {loc : Nat → SLoc} {ls : List Nat}
    (hs : ls.Pairwise (· < ·)) (hlane : ∀ l, (mk l).lane = l) (hn : ∀ l, (mk l).n = n) (hr : storeReady s q (ls.map mk))
    (h : ∀ l ∈ ls, (mk l).inScratch (loc l)) (scalar : Bool) (act : Word32) (val : Nat → Nat) :
    ∃ t, storeInstr scalar q act (ls.map mk) val s = .next t ∧ ScratchStored s t
      ∧ (∀ k, (∀ l ∈ ls, ¬writesKey n loc l k) → sramCell t k = sramCell s k)
      ∧ (∀ l ∈ ls, ∀ k, writesKey n loc l k → (∀ j ∈ ls, l < j → ¬writesKey n loc j k) →
          sramCell t k = BitVec.ofNat 8 (val l / 256 ^ (k - sramKey (loc l).core (loc l).off))) := by
  have hok : allOk (ls.map mk) := fun a ha => by
    obtain ⟨l, hl, rfl⟩ := List.mem_map.1 ha
    exact (h l hl).ok
  refine ⟨_, storeInstr_of_storeReady hok hr scalar act val, ?_⟩
  rw [storeLanes_scratch hr.1 hn hlane h]
  have hcell (k : Nat) : sramCell (retire act (raiseSt (stUnit s) 0 (ls.foldl (putLow n loc val) s))) k
      = sramCell (ls.foldl (putLow n loc val) s) k := by simp [sramCell, retire]
  refine ⟨scratchStored_retire _ _ (foldl_putLow_eq n loc val ls s) _ _ _, fun k hk => ?_, fun l hl k hw hlast => ?_⟩
  · rw [hcell, sramCell_foldl_putLow_other val hk]
  · rw [hcell, sramCell_foldl_putLow val hs hl hw hlast]

/-- A scratch store of lanes of a mask, byte by byte as its statement names them. -/
theorem scratchStore_mask {s : State} {q : MemQ} {mk : Nat → LaneAcc} {n : Nat} {loc : Nat → SLoc} {act : Word32}
    (hlane : ∀ l, (mk l).lane = l) (hn : ∀ l, (mk l).n = n) (hr : storeReady s q ((lanesOf act).map mk))
    (h : ∀ a ∈ (lanesOf act).map mk, a.res = .ok (.scr (loc a.lane))) (val : Nat → Nat) :
    let covers := fun (l c o : Nat) => l < 32 ∧ act.getLsbD l = true ∧ sramKey (loc l).core (loc l).off ≤ sramKey c o
      ∧ sramKey c o < sramKey (loc l).core (loc l).off + n
    ∃ t, storeInstr false q act ((lanesOf act).map mk) val s = .next t ∧ ScratchStored s t
      ∧ (∀ c o, (∀ l, ¬covers l c o) → sramByte t c o = sramByte s c o)
      ∧ (∀ l c o, covers l c o → (∀ j, l < j → ¬covers j c o) → sramByte t c o =
          BitVec.ofNat 8 (val l / 256 ^ (sramKey c o - sramKey (loc l).core (loc l).off))) := by
  have hin : ∀ l ∈ lanesOf act, (mk l).inScratch (loc l) := fun l hl => by
    have := h (mk l) (List.mem_map_of_mem hl)
    rwa [hlane] at this
  obtain ⟨t, ht, hst, hother, hlast⟩ := scratchStore_lanes (lanesOf_pairwise act) hlane hn hr hin false act val
  refine ⟨t, ht, hst, fun c o hc => hother _ (fun l hl hw => ?_), fun l c o hc hj => hlast l ?_ _ hc.2.2 (fun j hjl hlt hw => ?_)⟩
  · obtain ⟨h32, hb⟩ := (mem_lanesOf act l).1 hl
    exact hc l ⟨h32, hb, hw⟩
  · exact (mem_lanesOf act l).2 ⟨hc.1, hc.2.1⟩
  · obtain ⟨h32, hb⟩ := (mem_lanesOf act j).1 hjl
    exact hj j hlt ⟨h32, hb, hw⟩

/-- What a scratch store of the scalar thread leaves. -/
theorem scratchStore_scalar {s : State} {q : MemQ} {a : SReg} {off : BitVec 21} {n : Nat} {l : SLoc}
    (hl : (scrLane s 1 0 (rS s a) off.toInt n).inScratch l) (hr : storeReady s q [scrLane s 1 0 (rS s a) off.toInt n]) (v : Nat) :
    ∃ t, storeInstr true q s.g.live (scrScalar s 1 n a off) (fun _ => v) s = .next t ∧ ScratchStored s t
      ∧ (∀ i < n, sramByte t l.core (l.off + i) = BitVec.ofNat 8 (v / 256 ^ i)) ∧ sramKeptBut s t l.core l.off n := by
  have key (i : Nat) : sramKey l.core (l.off + i) = sramKey l.core l.off + i := by simp only [sramKey]; omega
  obtain ⟨t, ht, hst, hother, hlast⟩ := scratchStore_lanes (mk := fun j => scrLane s 1 j (rS s a) off.toInt n) (n := n)
    (loc := fun _ => l) (ls := [0]) (List.pairwise_singleton _ _) (fun j => scrLane_lane _ _ _ _ _ _) (fun j => scrLane_n _ _ _ _ _ _) hr
    (fun j hj => by rw [List.mem_singleton.1 hj]; exact hl) true s.g.live (fun _ => v)
  refine ⟨t, ht, hst, fun i hi => ?_, fun c o hc => hother _ (fun j _ hw => hc hw)⟩
  have hw : writesKey n (fun _ => l) 0 (sramKey l.core (l.off + i)) :=
    ⟨by rw [key]; exact Nat.le_add_right _ _, by rw [key]; exact Nat.add_lt_add_left hi _⟩
  have hb := hlast 0 (List.mem_singleton.2 rfl) _ hw (fun j hj hlt => by rw [List.mem_singleton.1 hj] at hlt; omega)
  rw [key, Nat.add_sub_cancel_left, ← key] at hb
  exact hb

/-- Settles O18: a scratch store that waits for nothing writes its lanes' low bytes in ascending order, and those bytes only. -/
theorem scratchStoreResult : Obligations.ScratchStoreResult := by
  unfold Obligations.ScratchStoreResult
  intro s v u k w off q loc n act others
  refine ⟨fun hl hr => scratchStore_scalar hl hr _, fun p hp => ?_⟩
  simp only [List.mem_cons, List.not_mem_nil, or_false] at hp
  rcases hp with rfl | rfl
  · intro hname hr h
    have hx : exec (.st_x 1 v u .w64 k off q) s
        = storeInstr false q act (scrContig s 1 (sOf u) off act) (fun l => (rV s v l).toNat) s := withRegs_of_canName hname _
    dsimp only
    rw [hx]
    exact scratchStore_mask (fun l => scrLane_lane _ _ _ _ _ _) (fun l => scrLane_n _ _ _ _ _ _) hr h _
  · intro hname hr h
    have hx : exec (.st_x 2 v u w k off q) s
        = storeInstr false q act (scrGather s 1 n u off act) (fun l => (rV s v l).toNat) s := withRegs_of_canName hname _
    dsimp only
    rw [hx]
    exact scratchStore_mask (fun l => scrLane_lane _ _ _ _ _ _) (fun l => scrLane_n _ _ _ _ _ _) hr h _

end Sys2Proof.Machine
end

section
/-! SUPPORT. The system registers as srd and swr reach them; they settle O44 (R429, R430). -/
namespace Sys2Proof.Machine

/-! ### Which registers there are -/

theorem sysReg_unassigned (s : State) {n : Nat} (h : 0x14 ≤ n ∧ n < 0x20 ∨ 0x27 ≤ n) : sysReg s n = none := by
  unfold sysReg
  dsimp only
  split
  case h_28 => rfl
  all_goals omega

theorem sysReg_supervisor (s : State) {n : Nat} (h : 0x20 ≤ n) (h' : n ≤ 0x26) : ∃ v, sysReg s n = some v := by
  interval_cases n <;> exact ⟨_, rfl⟩

/-- The registers that swr writes (R430). -/
theorem sysWrite_readOnly (v : Word64) (s : State) {n : Nat}
    (h : n ≠ 0x0C ∧ n ≠ 0x0D ∧ n ≠ 0x0E ∧ n ≠ 0x11 ∧ n ≠ 0x24 ∧ n ≠ 0x25 ∧ n ≠ 0x26) : sysWrite n v s = none := by
  unfold sysWrite
  split
  case h_8 => rfl
  all_goals omega

theorem tickClocks_other (s : State) {n : Nat} (h : n ≠ 0x12) (h' : n ≠ 0x13) : tickClocks n s = s := by
  rw [tickClocks, if_neg h, if_neg h']

@[simp] theorem tickClocks_g (n : Nat) (s : State) : (tickClocks n s).g = s.g := by
  unfold tickClocks; split
  · rfl
  · split <;> rfl
@[simp] theorem tickClocks_m (n : Nat) (s : State) : (tickClocks n s).m = s.m := by
  unfold tickClocks; split
  · rfl
  · split <;> rfl
@[simp] theorem tickClocks_tun (n : Nat) (s : State) : (tickClocks n s).tun = s.tun := by
  unfold tickClocks; split
  · rfl
  · split <;> rfl
@[simp] theorem tickClocks_ir (n : Nat) (s : State) : (tickClocks n s).ir = s.ir := by
  unfold tickClocks; split
  · rfl
  · split <;> rfl

theorem tickClocks_nsec (s : State) (n : Nat) : s.nsec ≤ (tickClocks n s).nsec := by
  unfold tickClocks; split
  · exact Nat.le_refl _
  · split
    · exact Nat.le_add_right _ _
    · exact Nat.le_refl _

/-! ### What completion leaves alone -/

theorem retireS_completes (s : State) : completes s (retireS s) (nextPc s) := retireTo_completes _ _ _

/-- Completion leaves the flags of SXSTAT and CHAINR alone. -/
theorem completes_sxstat {s t : State} {pc : BitVec 56} (h : completes s t pc) :
    t.g.chz = s.g.chz ∧ t.g.mcp = s.g.mcp ∧ t.g.tev = s.g.tev ∧ t.g.chainr = s.g.chainr := by
  rw [h]; exact ⟨rfl, rfl, rfl, rfl⟩

theorem completes_x {s t : State} {pc : BitVec 56} (h : completes s t pc) (hsup : s.g.x.sup = true) : t.g.x = s.g.x := by
  rw [h]; exact if_pos hsup

/-! ### srd -/

/-- The privilege that a register's number asks for (R429). -/
def sysAllowed (s : State) (n : Nat) : Prop := n < 0x20 ∨ s.g.x.sup = true

theorem sysRegSup_of_allowed {s : State} {n : Nat} (h : sysAllowed s n) : (sysRegSup n && !s.g.x.sup) = false := by
  rcases h with h | h
  · have : ¬ 0x20 ≤ n := by omega
    simp [sysRegSup, this]
  · simp [h]

/-- srd of a register but STAMP writes its value, with the clocks advanced. -/
theorem execSrd_reads {s : State} {r : BitVec 8} {v : Word64} (h : sysAllowed s r.toNat) (hv : sysReg (tickClocks r.toNat s) r.toNat = some v)
    (hs : r.toNat ≠ 0x0A) (d : SReg) : exec (.srd d r) s = scalarOut d v (tickClocks r.toNat s) := by
  have hx : exec (.srd d r) s = execSrd d r s := rfl
  rw [hx, execSrd]
  simp only [hv, sysRegSup_of_allowed h, if_neg hs, Bool.false_eq_true, if_false, scalarOut]

/-- srd completes from the state whose clocks have advanced, which has the registers and the memory of the one before. -/
theorem execSrd_spec {s : State} {r : BitVec 8} {v : Word64} (h : sysAllowed s r.toNat) (hv : sysReg (tickClocks r.toNat s) r.toNat = some v)
    (hs : r.toNat ≠ 0x0A) (d : SReg) : ∃ t, exec (.srd d r) s = .next t ∧ completes (tickClocks r.toNat s) t (nextPc s)
      ∧ rS t d = (if d = 0 then 0 else v) ∧ onlyS s t d ∧ memKept s t := by
  obtain ⟨t, ht, hc, hd, hs1, hk1, hv1, hl1, hf1⟩ := scalarOut_spec d v (tickClocks r.toNat s)
  have hpc : nextPc (tickClocks r.toNat s) = nextPc s := by simp [nextPc]
  rw [hpc] at hc
  refine ⟨t, (execSrd_reads h hv hs d).trans ht, hc, hd, ⟨fun q hq => ?_, fun q hq => ?_, fun q l hq hl => ?_, ?_, ?_⟩,
    memKept_trans (memKept_of_m_tun (tickClocks_m _ _) (tickClocks_tun _ _)) (completes_memKept hc)⟩
  · rw [hs1 q hq, rS, rS, tickClocks_g]
  · rw [hk1 q hq, rK, rK, tickClocks_g]
  · rw [hv1 q l hq hl, rV, rV, tickClocks_g]
  · rw [hl1, tickClocks_g]
  · rw [hf1, tickClocks_g]

/-- srd of a register that stands still. -/
theorem execSrd_still {s : State} {r : BitVec 8} {n : Nat} {v : Word64} (hr : r.toNat = n) (h : sysAllowed s r.toNat)
    (hv : sysReg s n = some v) (hn : n ≠ 0x0A ∧ n ≠ 0x12 ∧ n ≠ 0x13) (d : SReg) :
    ∃ t, exec (.srd d r) s = .next t ∧ completes s t (nextPc s) ∧ rS t d = (if d = 0 then 0 else v) ∧ onlyS s t d ∧ memKept s t := by
  subst hr
  have hk : tickClocks r.toNat s = s := tickClocks_other s hn.2.1 hn.2.2
  have := execSrd_spec h (hk.symm ▸ hv) hn.1 d
  rwa [hk] at this

/-- STAMP fills the pair of an even register (R429). -/
theorem execSrd_stamp {d : SReg} (hd : d.getLsbD 0 = false) (s : State) : exec (.srd d 0x0A) s
    = .next (retireS (wS (wS s d s.g.idn.stamp.epoch) (d + 1) s.g.idn.stamp.cw)) := by
  have hx : exec (.srd d 0x0A) s = execSrd d 0x0A s := rfl
  have hodd : ¬ d.getLsbD 0 = true := by rw [hd]; decide
  rw [hx, execSrd]
  exact if_neg hodd

theorem pair_ne_zero {d : SReg} (hd : d.getLsbD 0 = false) : d + 1 ≠ 0 := by
  revert d; decide

/-- What srd of STAMP leaves: the epoch in an even register, the count word in its partner. -/
theorem execSrd_stamp_spec {d : SReg} (hd : d.getLsbD 0 = false) (s : State) :
    ∃ t, exec (.srd d 0x0A) s = .next t ∧ completes s t (nextPc s) ∧ memKept s t ∧ (d ≠ 0 → rS t d = s.g.idn.stamp.epoch)
      ∧ rS t (d + 1) = s.g.idn.stamp.cw ∧ sKept s t (fun q => q = d ∨ q = d + 1) := by
  have h1 : d + 1 ≠ 0 := pair_ne_zero hd
  have hne : d ≠ d + 1 := by bv_omega
  have hwr : regWrite s (wS (wS s d s.g.idn.stamp.epoch) (d + 1) s.g.idn.stamp.cw) := regWrite_trans (wS_form _ _ _) (wS_form _ _ _)
  have hc : completes s (retireS (wS (wS s d s.g.idn.stamp.epoch) (d + 1) s.g.idn.stamp.cw)) (nextPc s) := by
    rw [retireS, retire, nextPc_wS, nextPc_wS]
    exact retireTo_completes_of hwr _ _
  refine ⟨_, execSrd_stamp hd s, hc, completes_memKept hc, fun h0 => ?_, ?_, fun q hq => ?_⟩
  · rw [retireS, retire, rS_retireTo, rS_wS_other _ _ hne, rS_wS_same, if_neg h0]
  · rw [retireS, retire, rS_retireTo, rS_wS_same, if_neg h1]
  · obtain ⟨hq, hq'⟩ := not_or.1 hq
    rw [retireS, retire, rS_retireTo, rS_wS_other _ _ hq', rS_wS_other _ _ hq]

theorem execSrd_stamp_odd {d : SReg} (hd : d.getLsbD 0 = true) (s : State) : exec (.srd d 0x0A) s = .next (raiseI 1 s) := by
  have hx : exec (.srd d 0x0A) s = execSrd d 0x0A s := rfl
  rw [hx, execSrd]
  exact if_pos hd

theorem coreOf_of_completes {s t : State} {pc : BitVec 56} (h : completes s t pc) (c : Nat) : coreOf t c = coreOf s c := by rw [h]; rfl
theorem nsec_of_completes {s t : State} {pc : BitVec 56} (h : completes s t pc) : t.nsec = s.nsec := by rw [h]

/-- An unassigned register raises F_ILLOP, and a supervisor's at user privilege F_PRIV. -/
theorem execSrd_unassigned {r : BitVec 8} (h : 0x14 ≤ r.toNat ∧ r.toNat < 0x20 ∨ 0x27 ≤ r.toNat) (d : SReg) (s : State) :
    exec (.srd d r) s = .next (raiseI 1 s) := by
  have hx : exec (.srd d r) s = execSrd d r s := rfl
  rw [hx, execSrd]
  simp only [sysReg_unassigned _ h, fILLOP]

theorem execSrd_private {r : BitVec 8} {s : State} (hu : s.g.x.sup = false) (h : 0x20 ≤ r.toNat) (h' : r.toNat ≤ 0x26) (d : SReg) :
    exec (.srd d r) s = .next (raiseI 2 s) := by
  have hx : exec (.srd d r) s = execSrd d r s := rfl
  obtain ⟨v, hv⟩ := sysReg_supervisor (tickClocks r.toNat s) h h'
  rw [hx, execSrd]
  simp only [hv, sysRegSup, h, hu, decide_true, Bool.not_false, Bool.and_self, if_true, fPRIV]

/-! ### swr -/

theorem execSwr_writes {s w : State} {a : SReg} {r : BitVec 8} {v : Word64} (h : sysAllowed s r.toNat) (hv : sysReg s r.toNat = some v)
    (hw : sysWrite r.toNat (rS s a) s = some w) :
    exec (.swr a r) s = .next (retireS (if r.toNat = 0x11 then wakeTeam s.g.idn.team w else w)) := by
  have hx : exec (.swr a r) s = execSwr a r s := rfl
  rw [hx, execSwr]
  simp only [hv, sysRegSup_of_allowed h, hw, Bool.false_eq_true, if_false]

theorem execSwr_unassigned {r : BitVec 8} (h : 0x14 ≤ r.toNat ∧ r.toNat < 0x20 ∨ 0x27 ≤ r.toNat) (a : SReg) (s : State) :
    exec (.swr a r) s = .next (raiseI 1 s) := by
  have hx : exec (.swr a r) s = execSwr a r s := rfl
  rw [hx, execSwr]
  simp only [sysReg_unassigned _ h, fILLOP]

theorem execSwr_private {r : BitVec 8} {s : State} (hu : s.g.x.sup = false) (h : 0x20 ≤ r.toNat) (h' : r.toNat ≤ 0x26) (a : SReg) :
    exec (.swr a r) s = .next (raiseI 2 s) := by
  have hx : exec (.swr a r) s = execSwr a r s := rfl
  obtain ⟨v, hv⟩ := sysReg_supervisor s h h'
  rw [hx, execSwr]
  simp only [hv, sysRegSup, h, hu, decide_true, Bool.not_false, Bool.and_self, if_true, fPRIV]

theorem execSwr_readOnly {r : BitVec 8} {s : State} (h : sysAllowed s r.toNat)
    (hn : r.toNat ≠ 0x0C ∧ r.toNat ≠ 0x0D ∧ r.toNat ≠ 0x0E ∧ r.toNat ≠ 0x11 ∧ r.toNat ≠ 0x24 ∧ r.toNat ≠ 0x25 ∧ r.toNat ≠ 0x26) (a : SReg) :
    exec (.swr a r) s = .next (raiseI 1 s) := by
  have hx : exec (.swr a r) s = execSwr a r s := rfl
  rw [hx, execSwr]
  split
  · rfl
  · simp only [sysRegSup_of_allowed h, sysWrite_readOnly _ _ hn, Bool.false_eq_true, if_false, fILLOP]

@[simp] theorem wakeTeam_m (team : Nat) (s : State) : (wakeTeam team s).m = s.m := rfl
@[simp] theorem wakeTeam_tun (team : Nat) (s : State) : (wakeTeam team s).tun = s.tun := rfl
@[simp] theorem wakeTeam_ir (team : Nat) (s : State) : (wakeTeam team s).ir = s.ir := rfl

/-- Waking a team changes of the group at issue only its status and its wait for the next issue. -/
theorem wakeTeam_g (team : Nat) (s : State) :
    (wakeTeam team s).g = { s.g with status := (wakeTeam team s).g.status, rdy := (wakeTeam team s).g.rdy } := by
  unfold wakeTeam wakeWhere mapGroups
  dsimp only
  split
  · rw [wakeGroup_eq]
  · rfl

@[simp] theorem nextPc_wakeTeam (team : Nat) (s : State) : nextPc (wakeTeam team s) = nextPc s := by
  rw [nextPc, wakeTeam_g, wakeTeam_ir, nextPc]

/-- What swr leaves beside the register that it writes. -/
def SwrKeeps (s t : State) : Prop :=
  t.g.pc = nextPc s ∧ sKept s t (fun _ => False) ∧ kKept s t (fun _ => False) ∧ vKept s t (fun _ _ => False) ∧ t.g.live = s.g.live
    ∧ memKept s t

/-- Completing from a state with the registers, LIVE, pc and memory of the one before. -/
theorem swrKeeps_retireS {s w : State} (hs : w.g.sregs = s.g.sregs) (hk : w.g.kregs = s.g.kregs) (hv : w.g.vregs = s.g.vregs)
    (hl : w.g.live = s.g.live) (hpc : nextPc w = nextPc s) (hm : w.m = s.m) (ht : w.tun = s.tun) : SwrKeeps s (retireS w) := by
  refine ⟨hpc, fun r _ => ?_, fun r _ => ?_, fun r l _ _ => ?_, ?_, memKept_of_m_tun hm ht⟩
  · rw [retireS, retire, rS_retireTo, rS, rS, hs]
  · rw [retireS, retire, rK_retireTo, rK, rK, hk]
  · rw [retireS, retire, rV_retireTo, rV, rV, hv]
  · rw [retireS, retire, retireTo_live, hl]

theorem gCtx_modCtx {s : State} {c : Ctx} (f : Ctx → Ctx) (h : gCtx s = some c) : gCtx (modCtx s.g.idn.ctx f s) = some (f c) := by
  have h : amGet? s.ctxs s.g.idn.ctx = some c := h
  have hm : amMod s.ctxs s.g.idn.ctx f = amPut s.ctxs s.g.idn.ctx (f c) := by rw [amMod, h]
  show amGet? (amMod s.ctxs s.g.idn.ctx f) s.g.idn.ctx = some (f c)
  rw [hm, amGet?_amPut_same]

@[simp] theorem gCtx_retireS (s : State) : gCtx (retireS s) = gCtx s := by
  simp [gCtx, ctxOf, retireS, retire]

/-- Settles O44: each register by its number; what srd reads, what swr writes, and what both refuse. -/
theorem systemRegisterResult : Obligations.SystemRegisterResult := by
  unfold Obligations.SystemRegisterResult
  intro s d a r g v cl pos z table wrote allowed
  have hw {w : State} {p : State → Prop} (hx : exec (.swr a r) s = .next (retireS w)) (hkeep : SwrKeeps s (retireS w)) (hp : p (retireS w)) :
      wrote p := by
    obtain ⟨hpc, hs, hk, hv, hl, hm⟩ := hkeep
    exact ⟨_, hx, hpc, hs, hk, hv, hl, hm, hp⟩
  have user : ∀ {n : Nat}, n < 0x20 → sysAllowed s n := fun h => .inl h
  refine ⟨?_, ?_, ?_, ?_, ?_, ?_, ?_, ?_, ?_, fun hsup => ⟨?_, ?_, ?_⟩, fun h => ?_, fun hu h h' => ?_, fun h => ?_⟩
  · have known : ∀ p ∈ table, sysReg s p.1 = some p.2 ∧ p.1 ≠ 0x0A ∧ p.1 ≠ 0x12 ∧ p.1 ≠ 0x13 := by
      simp only [table, List.forall_mem_cons]
      refine ⟨⟨rfl, by decide⟩, ⟨rfl, by decide⟩, ⟨rfl, by decide⟩, ⟨rfl, by decide⟩, ⟨rfl, by decide⟩, ⟨rfl, by decide⟩,
        ⟨rfl, by decide⟩, ⟨rfl, by decide⟩, ⟨rfl, by decide⟩, ⟨rfl, by decide⟩, ⟨rfl, by decide⟩, ⟨rfl, by decide⟩,
        ⟨rfl, by decide⟩, ⟨rfl, by decide⟩, ⟨rfl, by decide⟩, ⟨rfl, by decide⟩, ⟨rfl, by decide⟩, ⟨rfl, by decide⟩,
        ⟨rfl, by decide⟩, ⟨rfl, by decide⟩, ⟨rfl, by decide⟩, ⟨rfl, by decide⟩, ⟨rfl, by decide⟩, ⟨rfl, by decide⟩, ?_⟩
      exact fun _ h => absurd h (List.not_mem_nil)
    exact fun p hp hr hal => execSrd_still hr hal (known p hp).1 (known p hp).2 d
  · rintro rfl hd
    exact execSrd_stamp_spec hd s
  · rintro rfl hd
    exact execSrd_stamp_odd hd s
  · rintro rfl
    obtain ⟨t, ht, hc, hd, ho, hm⟩ := execSrd_spec (s := s) (r := 0x12) (user (by decide)) rfl (by decide) d
    exact ⟨t, ht, completes_g_pc hc, ho, hm, by rw [coreOf_of_completes hc]; exact hd⟩
  · rintro rfl
    obtain ⟨t, ht, hc, hd, ho, hm⟩ := execSrd_spec (s := s) (r := 0x13) (user (by decide)) rfl (by decide) d
    have hn := nsec_of_completes hc
    exact ⟨t, ht, completes_g_pc hc, ho, hm, hn ▸ tickClocks_nsec s 0x13, by rw [hn]; exact hd⟩
  · rintro rfl
    exact hw (execSwr_writes (user (by decide)) rfl rfl) (swrKeeps_retireS rfl rfl rfl rfl rfl rfl rfl) (retireTo_fpstat _ _ _)
  · rintro rfl
    exact execSwr_writes (user (by decide)) rfl rfl
  · rintro rfl
    obtain ⟨hchz, hmcp, htev, -⟩ := completes_sxstat (retireS_completes
      { s with g := { s.g with chz := s.g.chz && v.getLsbD 1, mcp := s.g.mcp && v.getLsbD 0 } })
    exact hw (execSwr_writes (user (by decide)) rfl rfl) (swrKeeps_retireS rfl rfl rfl rfl rfl rfl rfl) ⟨hchz, hmcp, htev⟩
  · rintro rfl
    obtain ⟨-, -, -, hchainr⟩ := completes_sxstat (retireS_completes
      (wakeTeam g.idn.team { s with g := { s.g with chainr := v.truncate 32 &&& 0xFFF0FFF0 } }))
    have hx : exec (.swr a 0x11) s = .next (retireS (wakeTeam g.idn.team { s with g := { s.g with chainr := v.truncate 32 &&& 0xFFF0FFF0 } })) :=
      execSwr_writes (user (by decide)) rfl rfl
    refine hw hx (swrKeeps_retireS ?_ ?_ ?_ ?_ (nextPc_wakeTeam _ _) rfl rfl) (hchainr.trans ?_)
    all_goals rw [wakeTeam_g]
  · rintro rfl
    have hx := completes_x (retireS_completes { s with g := { s.g with x := { s.g.x with epc := pcOf v } } }) hsup
    exact hw (execSwr_writes (.inr hsup) rfl rfl) (swrKeeps_retireS rfl rfl rfl rfl rfl rfl rfl) (congrArg ExcState.epc hx)
  · rintro rfl c hc
    exact hw (execSwr_writes (.inr hsup) rfl rfl) (swrKeeps_retireS rfl rfl rfl rfl rfl rfl rfl)
      ((gCtx_retireS _).trans (gCtx_modCtx _ hc))
  · rintro rfl c hc
    exact hw (execSwr_writes (.inr hsup) rfl rfl) (swrKeeps_retireS rfl rfl rfl rfl rfl rfl rfl)
      ((gCtx_retireS _).trans (gCtx_modCtx _ hc))
  · exact ⟨execSrd_unassigned h d s, execSwr_unassigned h a s⟩
  · exact ⟨execSrd_private hu h h' d, execSwr_private hu h h' a⟩
  · have num (i : Nat) (hi : i < 256) (hr : r = BitVec.ofNat 8 i) : r.toNat = i := by
      rw [hr, BitVec.toNat_ofNat, Nat.mod_eq_of_lt hi]
    have h : r.toNat ≤ 0x0B ∨ r.toNat = 0x0F ∨ r.toNat = 0x10 ∨ r.toNat = 0x12 ∨ r.toNat = 0x13
        ∨ (g.x.sup = true ∧ 0x20 ≤ r.toNat ∧ r.toNat ≤ 0x23) :=
      h.imp_right (.imp (num 0x0F (by decide)) (.imp (num 0x10 (by decide)) (.imp (num 0x12 (by decide)) (.imp_left (num 0x13 (by decide))))))
    refine execSwr_readOnly ?_ ?_ a
    · by_cases hlt : r.toNat < 0x20
      · exact .inl hlt
      · rcases h with h | h | h | h | h | ⟨hsup, -⟩
        case inr.inr.inr.inr.inr => exact .inr hsup
        all_goals omega
    · omega

end Sys2Proof.Machine
end

section
/-! SUPPORT. A state in which unmappg ends the context of its own group; it refutes O43. -/
namespace Sys2Proof.Machine

/-! ### The state

Context 1 is terminated by its policy at an escalated fault (POL). Its root table at 0x1000 leads by the table at 0x2000 to
one leaf, which maps VA 0 read-only to HBM at 0x40000000. Core 1 holds a stash sector of that page with a word still to be written
back, whose group is gone. The write-back faults as a store would; no group is left to take the fault, so it escalates, and
the policy cancels the context with the group at issue, before unmappg retires. -/

/-- The two table entries. -/
def readOnlyTables : Cells 8 := [(0x1000, 0x01), (0x1001, 0x20), (0x2000, 0x0D), (0x2003, 0x40)]

/-- A dirty stash sector of VA 0, brought in by group 5. -/
def orphanedSector : L1Sec :=
  { ctx := 1, vsec := 0, rd := true, wr := true, ex := false, sup := true, stash := true, valid := 1, data := 0, poison := 0,
    p := 1, o := 0, w := 0, kept := 0, reg := 1, drop := 0, filler := 5, used := 0 }

/-- Group 1 of context 1 runs on core 0 in its handler. -/
def orphanedState : State :=
  { State.reset with
    g := { Group.none with
      idn := { Group.none.idn with gid := 1, ctx := 1 }
      status := .running
      pc := 0x100
      x := { Group.none.x with sup := true } }
    m := { State.reset.m with mem := readOnlyTables, l1 := [(2 ^ 45 + 0x800000, orphanedSector)] }
    ctxs := [(1, { bareCtx 0 0 0 with root := 0x1000, pol := true })] }

/-- The state after the walk of unmappg. -/
def orphanedWalked : State := walkTouch (agentOf orphanedState orphanedState.g) (rS orphanedState 0).toNat orphanedState

/-- The PC of the group at issue in the state that an instruction ends in. -/
def pcAfter : Out → Option (BitVec 56)
  | .next t => some t.g.pc
  | .fault _ => none
  | .refused _ => none

/-! ### What it evaluates to -/

theorem orphanedState_ready : releaseWaits orphanedState 3 = false ∧ coreFilling orphanedState orphanedState.g.idn.core = false := by
  decide +kernel

theorem orphanedWalked_leaf :
    walk orphanedWalked orphanedState.g.idn.ctx (rS orphanedState 0).toNat = .leaf 0x2000 0x4000000D 1 := by decide +kernel

theorem orphanedWalked_notBusy : pageBusy orphanedWalked 0x4000000D 1 (rS orphanedState 0).toNat = false := by decide +kernel

/-- The sector's group is gone, so nothing waits for it to mend the fault. -/
theorem orphanedWalked_notStuck : pageStuck orphanedWalked 0x4000000D 1 = false := by decide +kernel

/-- The group at issue has been discarded: its PC starts over at 0. -/
theorem orphanedState_unmappg_pc : pcAfter (exec (.unmappg 1 0) orphanedState) = some 4 := by decide +kernel

theorem orphanedState_nextPc : nextPc orphanedState = 0x104 := by decide +kernel

/-- Refutes O43: an unmappg that passes every check does not continue at the next instruction where the write-back of a stash
sector of the page escalates a fault and the context's policy (POL) terminates the context with the group at issue. -/
theorem not_supervisorResult : ¬ Obligations.SupervisorResult := by
  unfold Obligations.SupervisorResult
  intro h
  obtain ⟨hrel, hfill⟩ := orphanedState_ready
  obtain ⟨-, -, -, -, hunmap, -⟩ := h orphanedState 1 0 0 (bareCtx 0 0 0) hrel hfill
  obtain ⟨-, -, -, hleaf⟩ := hunmap (by decide +kernel) (by decide +kernel)
  obtain ⟨-, hwrites⟩ := hleaf 0x2000 0x4000000D 1 orphanedWalked_leaf
  obtain ⟨-, t, hexec, hpc, -⟩ := hwrites (by decide +kernel) rfl orphanedWalked_notBusy orphanedWalked_notStuck
  have hpc4 := orphanedState_unmappg_pc
  rw [hexec, pcAfter, hpc, orphanedState_nextPc] at hpc4
  exact absurd hpc4 (by decide)

end Sys2Proof.Machine
end

section
/-! SUPPORT. Tables by key, commands that begin and complete, and what cancelling a context leaves alone. -/
namespace Sys2Proof.Machine

/-! ### Tables by key -/

theorem amGet?_amMod_same {α : Type} (m : List (Nat × α)) (i : Nat) (f : α → α) : amGet? (amMod m i f) i = (amGet? m i).map f := by
  unfold amMod
  split
  case h_1 v h => rw [h, amGet?_amPut_same]; rfl
  case h_2 h => rw [h]; rfl

theorem amGet?_amMod_other {α : Type} (m : List (Nat × α)) (i j : Nat) (f : α → α) (h : j ≠ i) :
    amGet? (amMod m i f) j = amGet? m j := by
  unfold amMod
  split
  · exact amGet?_amPut_other _ _ _ _ h
  · rfl

theorem mem_amPut {α : Type} {m : List (Nat × α)} {i : Nat} {v : α} {e : Nat × α} (h : e ∈ amPut m i v) : e ∈ m ∨ e = (i, v) := by
  induction m with
  | nil => exact .inr (List.mem_singleton.mp h)
  | cons p t ih =>
    obtain ⟨k, u⟩ := p
    simp only [amPut] at h
    split at h
    · simpa [or_comm, or_left_comm] using h
    · split at h
      · simp only [List.mem_cons] at h ⊢
        exact h.elim .inr fun h => .inl (.inr h)
      · simp only [List.mem_cons] at h ⊢
        exact h.elim (fun h => .inl (.inl h)) fun h => (ih h).imp .inr id

/-- What a table's entries share they share after one is changed, where the change keeps it. -/
theorem forall_mem_amMod {α : Type} {P : α → Prop} {m : List (Nat × α)} (h : ∀ e ∈ m, P e.2) (i : Nat) {f : α → α}
    (hf : ∀ v, P v → P (f v)) : ∀ e ∈ amMod m i f, P e.2 := by
  unfold amMod
  split
  case h_2 => exact h
  case h_1 v hv =>
    intro e he
    rcases mem_amPut he with he | rfl
    · exact h e he
    · exact hf v (h _ (mem_of_amGet? hv))

@[simp] theorem ctxOf_modCtx (c : Nat) (f : Ctx → Ctx) (s : State) : ctxOf (modCtx c f s) c = (ctxOf s c).map f :=
  amGet?_amMod_same _ _ _

theorem ctxOf_congr {s t : State} (h : t.ctxs = s.ctxs) (c : Nat) : ctxOf t c = ctxOf s c := by rw [ctxOf, h, ctxOf]

theorem streamOf_congr {s t : State} (h : t.ctxs = s.ctxs) (c sid : Nat) : streamOf t c sid = streamOf s c sid := by
  rw [streamOf, ctxOf_congr h, streamOf]

/-- A change of a stream that keeps its descriptor. -/
theorem streamOf_modStream {s : State} {c sid : Nat} {d : StreamD} {f : StreamD → StreamD} (hf : (f d).desc = d.desc)
    (h : streamOf s c sid = some d) : streamOf (modStream c sid f s) c sid = some (f d) := by
  unfold streamOf at h ⊢
  split at h
  case h_2 => exact absurd h (by simp)
  case h_1 x hx =>
    split at h
    case h_2 => exact absurd h (by simp)
    case h_1 e he =>
      obtain ⟨hv, rfl⟩ := Option.ite_none_right_eq_some.mp h |>.imp id Option.some.inj
      have hs : (x.streams.modify sid f)[sid]? = some (f e) := by simp [he]
      simp only [modStream, ctxOf_modCtx, hx, Option.map_some, hs, hf, if_pos hv]

/-! ### Groups by number -/

theorem findGroup_congr {s t : State} (hg : t.g = s.g) (hr : t.rest = s.rest) (gid : Nat) : findGroup t gid = findGroup s gid := by
  unfold findGroup; rw [hg, hr]

theorem allGroups_congr {s t : State} (hg : t.g = s.g) (hr : t.rest = s.rest) : allGroups t = allGroups s := by
  unfold allGroups; rw [hg, hr]

/-- A change that keeps a group's number is found under that number. -/
theorem findGroup_modGroup {gid : Nat} {f : Group → Group} (hf : ∀ g, (f g).idn.gid = g.idn.gid) (s : State) :
    findGroup (modGroup gid f s) gid = (findGroup s gid).map f := by
  unfold findGroup modGroup
  by_cases h : s.g.idn.gid = gid
  · simp [h, hf]
  · simp only [h, if_false]
    induction s.rest with
    | nil => rfl
    | cons k ks ih =>
      by_cases hk : k.idn.gid = gid
      · simp [hk, hf]
      · simpa [hk] using ih

theorem forall_mem_allGroups_mapGroups {P : Group → Prop} {p : Group → Bool} {f : Group → Group} {s : State}
    (h : ∀ g ∈ allGroups s, P (if p g then f g else g)) : ∀ g ∈ allGroups (mapGroups p f s), P g := by
  intro g hg
  simp only [allGroups, mapGroups, List.mem_cons, List.mem_map] at hg
  rcases hg with rfl | ⟨k, hk, rfl⟩
  · exact h s.g (List.mem_cons_self ..)
  · exact h k (List.mem_cons_of_mem _ hk)

/-! ### A command completes -/

theorem mem_due (e : Event) (s : State) : e ∈ (due e s).agenda := List.mem_append_right _ (List.mem_singleton_self _)

theorem closeCmd_eq (c : QCmd) (s : State) : ∃ q, closeCmd c s = { s with q := q } ∧ q.running = s.q.running.filter (fun i => i ≠ c.id)
    ∧ q.xfers = s.q.xfers ∧ q.frings = s.q.frings ∧ q.queues = (if c.admin then s.q.queues
      else amMod s.q.queues c.queue (fun x => { x with open_ := x.open_.filter (fun i => i ≠ c.id) })) := by
  unfold closeCmd closeId modQueue
  cases c.admin
  · exact ⟨_, rfl, rfl, rfl, rfl, rfl⟩
  · exact ⟨_, rfl, rfl, rfl, rfl, rfl⟩

/-- Completing a command changes nothing but the command tables and the agenda. -/
theorem complete_eq (c : QCmd) (st code res : Nat) (s : State) : ∃ q a, complete c st code res s = { s with q := q, agenda := a }
    ∧ q.xfers = s.q.xfers ∧ q.frings = s.q.frings
    ∧ (q.queues = s.q.queues ∨ q.queues = amMod s.q.queues c.queue (fun x => { x with open_ := x.open_.filter (fun i => i ≠ c.id) })) := by
  obtain ⟨q, hq, -, hx, hf, hqs⟩ := closeCmd_eq c s
  unfold complete
  dsimp only
  split
  · exact ⟨s.q, _, rfl, rfl, rfl, .inl rfl⟩
  · rw [hq]
    refine ⟨q, _, rfl, hx, hf, ?_⟩
    split at hqs
    · exact .inl hqs
    · exact .inr hqs

@[simp] theorem complete_g (c : QCmd) (st code res : Nat) (s : State) : (complete c st code res s).g = s.g := by
  obtain ⟨q, a, h, -⟩ := complete_eq c st code res s; rw [h]
@[simp] theorem complete_rest (c : QCmd) (st code res : Nat) (s : State) : (complete c st code res s).rest = s.rest := by
  obtain ⟨q, a, h, -⟩ := complete_eq c st code res s; rw [h]
@[simp] theorem complete_ctxs (c : QCmd) (st code res : Nat) (s : State) : (complete c st code res s).ctxs = s.ctxs := by
  obtain ⟨q, a, h, -⟩ := complete_eq c st code res s; rw [h]
@[simp] theorem complete_m (c : QCmd) (st code res : Nat) (s : State) : (complete c st code res s).m = s.m := by
  obtain ⟨q, a, h, -⟩ := complete_eq c st code res s; rw [h]
@[simp] theorem complete_timers (c : QCmd) (st code res : Nat) (s : State) : (complete c st code res s).timers = s.timers := by
  obtain ⟨q, a, h, -⟩ := complete_eq c st code res s; rw [h]
@[simp] theorem complete_xfers (c : QCmd) (st code res : Nat) (s : State) : (complete c st code res s).q.xfers = s.q.xfers := by
  obtain ⟨q, a, h, hx, -⟩ := complete_eq c st code res s; rw [h, ← hx]

/-- What the queues' entries share they share after a command completes, where it does not speak of the open commands. -/
theorem forall_mem_queues_complete {P : Queue → Prop} {c : QCmd} {st code res : Nat} {s : State} (h : ∀ e ∈ s.q.queues, P e.2)
    (hP : ∀ x l, P x → P { x with open_ := l }) : ∀ e ∈ (complete c st code res s).q.queues, P e.2 := by
  obtain ⟨q, a, hc, -, -, hqs | hqs⟩ := complete_eq c st code res s
  · rw [hc, hqs]; exact h
  · rw [hc, hqs]; exact forall_mem_amMod h _ fun v hv => hP v _ hv

/-- A queue without open commands stands as it did, whatever command completes. -/
theorem amGet?_queues_complete {c : QCmd} {st code res n : Nat} {s : State} {x : Option Queue} (h : amGet? s.q.queues n = x)
    (hx : ∀ y, x = some y → y.open_ = []) : amGet? (complete c st code res s).q.queues n = x := by
  obtain ⟨q, a, hc, -, -, hqs | hqs⟩ := complete_eq c st code res s
  · rw [hc, hqs, h]
  · rw [hc, hqs]
    by_cases hn : n = c.queue
    · subst hn
      rw [amGet?_amMod_same, h]
      cases x with
      | none => rfl
      | some y => cases y; cases hx _ rfl; rfl
    · rw [amGet?_amMod_other _ _ _ _ hn, h]

theorem recordHolds_complete (c : QCmd) (st code res : Nat) (s : State) (k : Nat) :
    recordHolds (complete c st code res s) k = recordHolds s k := by
  obtain ⟨q, hq, -, -, hf, -⟩ := closeCmd_eq c s
  unfold complete
  dsimp only
  split
  · simp [recordHolds, recordWaits, due]
  · rw [hq]; simp [recordHolds, recordWaits, due, hf]

theorem complete_completed (c : QCmd) (st code res : Nat) (s : State) : completed (complete c st code res s) c st code res := by
  refine ⟨fun h => ?_, ?_⟩
  · rw [recordHolds_complete] at h
    obtain ⟨q, hq, hr, -⟩ := closeCmd_eq c s
    simp [complete, h, hq, hr]
  · exact ⟨_, List.mem_append_right _ (List.mem_singleton_self _), rfl, rfl, rfl, rfl, rfl, rfl, rfl⟩

/-! ### A command that is accepted runs from the state it begins in -/

theorem runCmd_of_accepts {c : QCmd} {reasons : State → Queue → List Reason} {q : Queue} {s : State} (h : accepts reasons c q s)
    (reject cancel : Nat → State → State) (run : Queue → State → State) :
    runCmd c reasons reject cancel run s = run q (begun c q s) := by
  obtain ⟨hq, hr, ht⟩ := h
  simp only [runCmd, hq, hr]
  rw [if_neg]
  · rfl
  · split
    case h_2 => exact Bool.false_ne_true
    case h_1 x hx =>
      cases ha : c.admin
      · simp [ht ha x hx]
      · simp

theorem runPlain_of_accepts {c : QCmd} {reasons : State → Queue → List Reason} {q : Queue} {s : State} (h : accepts reasons c q s)
    (run : Queue → State → State) : runPlain c reasons run s = run q (begun c q s) := runCmd_of_accepts h _ _ _

/-! ### The PREEMPT commands that are done complete -/

@[simp] theorem settlePreempts_g (s : State) : (settlePreempts s).g = s.g :=
  foldl_kept State.g (fun _ _ => complete_g _ _ _ _ _) _ _
@[simp] theorem settlePreempts_rest (s : State) : (settlePreempts s).rest = s.rest :=
  foldl_kept State.rest (fun _ _ => complete_rest _ _ _ _ _) _ _
@[simp] theorem settlePreempts_ctxs (s : State) : (settlePreempts s).ctxs = s.ctxs :=
  foldl_kept State.ctxs (fun _ _ => complete_ctxs _ _ _ _ _) _ _
@[simp] theorem settlePreempts_xfers (s : State) : (settlePreempts s).q.xfers = s.q.xfers :=
  (foldl_kept (fun s : State => s.q.xfers) (fun _ _ => complete_xfers _ _ _ _ _) _ _).trans rfl

/-! ### A save is asked for -/

@[simp] theorem timer_rest (n : Nat) (e : Event) (s : State) : (timer n e s).rest = s.rest := by unfold timer; split <;> rfl
@[simp] theorem timer_ctxs (n : Nat) (e : Event) (s : State) : (timer n e s).ctxs = s.ctxs := by unfold timer; split <;> rfl
@[simp] theorem timer_q (n : Nat) (e : Event) (s : State) : (timer n e s).q = s.q := by unfold timer; split <;> rfl

/-- The groups that are to be saved are marked; of the rest of the machine only the timeouts and the agenda change. -/
theorem askSave_eq (p : Group → Bool) (s : State) : ∃ ts a,
    askSave p s = { mapGroups (fun g => p g && g.status != .gone && g.status != .saved) (fun g => { g with saveDue := true }) s with
      timers := ts, agenda := a } := by
  have hstep : ∀ (l : List Group) (u : State), ∃ ts a, l.foldl (fun s g =>
      if g.status = .running ∨ g.x.sup then timer (ticksOf 50000) (.forced_save g.idn.gid) s else due (.forced_save g.idn.gid) s) u
        = { u with timers := ts, agenda := a } := by
    intro l
    induction l with
    | nil => exact fun u => ⟨u.timers, u.agenda, rfl⟩
    | cons g gs ih =>
      intro u
      obtain ⟨ts, a, h⟩ := ih (if g.status = .running ∨ g.x.sup then timer (ticksOf 50000) (.forced_save g.idn.gid) u
        else due (.forced_save g.idn.gid) u)
      refine ⟨ts, a, h.trans ?_⟩
      split
      · unfold timer; split <;> rfl
      · rfl
  exact hstep _ _

@[simp] theorem askSave_ctxs (p : Group → Bool) (s : State) : (askSave p s).ctxs = s.ctxs := by
  obtain ⟨ts, a, h⟩ := askSave_eq p s; rw [h]; rfl
@[simp] theorem askSave_q (p : Group → Bool) (s : State) : (askSave p s).q = s.q := by
  obtain ⟨ts, a, h⟩ := askSave_eq p s; rw [h]; rfl

theorem saveDue_of_mem_askSave {p : Group → Bool} {s : State} :
    ∀ g ∈ allGroups (askSave p s), p g → g.status ≠ .gone → g.status ≠ .saved → g.saveDue = true := by
  obtain ⟨ts, a, h⟩ := askSave_eq p s
  have hall : allGroups (askSave p s)
      = allGroups (mapGroups (fun g => p g && g.status != .gone && g.status != .saved) (fun g => { g with saveDue := true }) s) := by
    rw [h]; rfl
  rw [hall]
  refine forall_mem_allGroups_mapGroups fun g _ => ?_
  split
  · exact fun _ _ _ => rfl
  · next h => exact fun hpg hgone hsaved => absurd (by simp [hpg, hgone, hsaved]) h

/-! ### A context is cancelled -/

theorem giveBow_kept (s : State) : (giveBow s).g = s.g ∧ (giveBow s).rest = s.rest ∧ (giveBow s).ctxs = s.ctxs := by
  unfold giveBow
  split
  · exact ⟨rfl, rfl, rfl⟩
  split
  · exact ⟨rfl, rfl, rfl⟩
  split
  · split <;> exact ⟨rfl, rfl, rfl⟩
  · exact ⟨rfl, rfl, rfl⟩

theorem failPeers_kept (c code : Nat) (s : State) :
    (failPeers c code s).g = s.g ∧ (failPeers c code s).rest = s.rest ∧ (failPeers c code s).ctxs = s.ctxs := by
  have h := foldl_kept (fun s : State => (s.g, s.rest, s.ctxs)) (f := fun s (e : FaultRec × ParkedFor) => match e.2 with
    | .peer dev m => (match peerReq m with
      | some r => toPeer dev (.faulted r.id r.done (BitVec.ofNat 16 (if code = 0 then fPEERGONE else code))) s
      | none => s)
    | _ => s) (fun s e => by
      split
      · split <;> rfl
      · rfl)
  simp only [Prod.mk.injEq] at h
  exact h _ _

/-- The groups that discarding leaves do not satisfy the test, but for the empty one at issue. -/
theorem discardGroups_allGroups {p : Group → Bool} (hp : ∀ u : State, ∀ g, p (wakeGroup u g) = p g) {s : State} {g : Group}
    (hg : g ∈ allGroups (discardGroups p s)) : p g = false ∨ g = Group.none := by
  revert hg g
  refine @(forall_mem_allGroups_mapGroups fun g hg => ?_)
  simp only [if_true, hp]
  rcases List.mem_cons.mp hg with rfl | hg
  · dsimp only
    split
    · exact .inr rfl
    · next h => exact .inl (eq_false_of_ne_true h)
  · exact .inl (by simpa using (List.mem_filter.mp hg).2)

theorem wakeGroup_gone_iff (s : State) (g : Group) : ((wakeGroup s g).status == .gone) = (g.status == .gone) := by
  unfold wakeGroup
  split
  case isTrue h => simp only [Bool.and_eq_true, decide_eq_true_eq] at h; simp [h.1]
  case isFalse => rfl

@[simp] theorem wakeGroup_idn (s : State) (g : Group) : (wakeGroup s g).idn = g.idn := by unfold wakeGroup; split <;> rfl

/-- The teams and groups that cancelling a context discards. -/
def cancelled (c : Nat) (s : State) : State :=
  discardGroups (fun g => g.idn.ctx == c && g.status != .gone) (discardTeams (fun t => t.ctx == c) s)

/-- Of groups and contexts, cancelling a context changes what discarding its work does. -/
theorem cancelCtx_kept (c : Nat) (fcmd : Option Nat) (code : Nat) (s : State) : (cancelCtx c fcmd code s).g = (cancelled c s).g
    ∧ (cancelCtx c fcmd code s).rest = (cancelled c s).rest ∧ (cancelCtx c fcmd code s).ctxs = s.ctxs := by
  have hfold := foldl_kept (fun s : State => (s.g, s.rest, s.ctxs))
    (f := fun s q => if fcmd = some q.id then complete q 1 code 0 s else complete q 2 0 0 s) (fun s q => by split <;> simp) (openCmds s c)
  simp only [Prod.mk.injEq] at hfold
  unfold cancelCtx
  dsimp only
  refine ⟨(giveBow_kept _).1.trans ((hfold _).1.trans ((failPeers_kept _ _ _).1.trans rfl)),
    (giveBow_kept _).2.1.trans ((hfold _).2.1.trans ((failPeers_kept _ _ _).2.1.trans rfl)),
    (giveBow_kept _).2.2.trans ((hfold _).2.2.trans ((failPeers_kept _ _ _).2.2.trans rfl))⟩

/-- Cancelling a context leaves no group of it. -/
theorem gone_of_mem_cancelCtx {c : Nat} {fcmd : Option Nat} {code : Nat} {s : State} {g : Group}
    (hg : g ∈ allGroups (cancelCtx c fcmd code s)) (hc : g.idn.ctx = c) : g.status = .gone := by
  obtain ⟨hkg, hkr, -⟩ := cancelCtx_kept c fcmd code s
  rw [allGroups_congr hkg hkr] at hg
  rcases discardGroups_allGroups (fun u g => by rw [wakeGroup_idn, bne, wakeGroup_gone_iff, bne]) hg with h | rfl
  · simpa [hc] using h
  · rfl

end Sys2Proof.Machine
end

section
/-! SUPPORT. The admin commands from the state they begin in; they settle O53 (R434 to R436, R440, R459, R461, R471, R479). -/
namespace Sys2Proof.Machine

/-! ### CTX.CREATE -/

/-- The counts of the streams that the host feeds keep a context but for where its streams stand. -/
theorem hostCounts_ctxs (n : Nat) (c : Ctx) (s : State) {x : Ctx} (h : ctxOf s n = some x) :
    ∃ l, ctxOf (hostCounts n c s) n = some { x with streams := l } ∧ l.map (fun d => d.desc) = x.streams.map (fun d => d.desc) := by
  unfold hostCounts
  generalize c.streams.zipIdx = es
  induction es generalizing s x with
  | nil => exact ⟨x.streams, h, rfl⟩
  | cons e es ih =>
    simp only [List.foldl_cons]
    split
    case h_2 => exact ih s h
    case h_1 le hl =>
      split
      case isFalse => exact ih s h
      case isTrue =>
        obtain ⟨l, hl, hd⟩ := ih (addCount n (sdLoc e.1.desc) (stampAt 0 le.depth.toNat) 1
            (modStream n e.2 (fun d => { d with h := stampAt 0 le.depth.toNat }) s))
          (x := { x with streams := x.streams.modify e.2 (fun d => { d with h := stampAt 0 le.depth.toNat }) })
          ((ctxOf_modCtx _ _ _).trans (by rw [h]; rfl))
        refine ⟨l, hl, hd.trans ?_⟩
        refine List.ext_getElem? fun i => ?_
        simp only [List.getElem?_map, List.getElem?_modify]
        split
        · cases x.streams[i]? <;> rfl
        · cases x.streams[i]? <;> rfl

/-! ### CTX.DESTROY, PREEMPT and RESUME -/

/-- The first stage of CTX.DESTROY marks the context and leaves no group of it. -/
theorem endCtx_ctxOf (n : Nat) (s : State) : ctxOf (endCtx n s) n = (ctxOf s n).map (fun x => { x with destroying := true }) := by
  rw [endCtx, ctxOf_congr (settlePreempts_ctxs _), ctxOf_congr (cancelCtx_kept _ _ _ _).2.2, ctxOf_modCtx]

theorem gone_of_mem_endCtx {n : Nat} {s : State} {g : Group} (hg : g ∈ allGroups (endCtx n s)) (hc : g.idn.ctx = n) : g.status = .gone := by
  rw [endCtx, allGroups_congr (settlePreempts_g _) (settlePreempts_rest _)] at hg
  exact gone_of_mem_cancelCtx hg hc

theorem dropCtx_ctxOf (n : Nat) (s : State) : ctxOf (dropCtx n s) n = none := amGet?_amDel_same _ _

theorem dropCtx_queues (n : Nat) (s : State) : ∀ e ∈ (dropCtx n s).q.queues, e.2.ctx ≠ n := by
  intro e he
  simpa using (List.mem_filter.mp he).2

/-- What PREEMPT does before the commands that wait for it complete. -/
def preempted (n : Nat) (s : State) : State :=
  askSave (fun g => g.idn.ctx == n && g.idn.gid != 0) (dropCtxTlb n (cancelXfers n (modCtx n (fun x => { x with suspended := true }) s)))

theorem preemptCtx_kept (c : QCmd) (n : Nat) (s : State) : (preemptCtx c n s).g = (preempted n s).g
    ∧ (preemptCtx c n s).rest = (preempted n s).rest ∧ (preemptCtx c n s).ctxs = (preempted n s).ctxs
    ∧ (preemptCtx c n s).q.xfers = (preempted n s).q.xfers :=
  ⟨settlePreempts_g _, settlePreempts_rest _, settlePreempts_ctxs _, settlePreempts_xfers _⟩

theorem preemptCtx_ctxOf {n : Nat} {s : State} {x : Ctx} (h : ctxOf s n = some x) (c : QCmd) :
    ctxOf (preemptCtx c n s) n = some { x with suspended := true } := by
  rw [ctxOf_congr ((preemptCtx_kept c n s).2.2.1.trans (askSave_ctxs _ _))]
  exact (ctxOf_modCtx _ _ _).trans (by rw [h]; rfl)

theorem preemptCtx_xfers (c : QCmd) (n : Nat) (s : State) :
    ∀ e ∈ (preemptCtx c n s).q.xfers, e.2.ctx = n → e.2.finished = true := by
  rw [(preemptCtx_kept c n s).2.2.2, preempted, askSave_q]
  intro e he hc
  obtain ⟨y, hy, rfl⟩ := List.mem_map.mp he
  dsimp only at hc ⊢
  split
  · rfl
  · next h =>
    rw [if_neg h] at hc
    simpa [hc] using h

theorem preemptCtx_groups (c : QCmd) (n : Nat) (s : State) : ∀ g ∈ allGroups (preemptCtx c n s),
    g.idn.ctx = n → g.idn.gid ≠ 0 → g.status ≠ .gone → g.status ≠ .saved → g.saveDue = true := by
  obtain ⟨hg, hr, -⟩ := preemptCtx_kept c n s
  rw [allGroups_congr hg hr]
  exact fun g hg hc hid => saveDue_of_mem_askSave g hg (by simp [hc, hid])

/-- RESUME changes of a context's record the suspension and the deadline, and offers its work again. -/
theorem resumeCtx_spec {n : Nat} {s : State} {x : Ctx} (h : ctxOf s n = some x) :
    (∃ y, ctxOf (resumeCtx n s) n = some y ∧ y.suspended = false)
    ∧ (∀ cl < 8, .window_engine_step cl ∈ (resumeCtx n s).agenda)
    ∧ ∀ e ∈ s.q.xfers, e.2.ctx = n → e.2.finished = false → e.2.parked = false → .transfer_finish e.1 ∈ (resumeCtx n s).agenda := by
  unfold resumeCtx
  simp only [h]
  refine ⟨?_, fun cl hcl => ?_, fun e he hc hf hp => ?_⟩
  · split
    · refine ⟨{ x with suspended := false, tunDeadline := true }, ?_, rfl⟩
      refine (ctxOf_congr (timer_ctxs _ _ _) n).trans ((ctxOf_modCtx _ _ _).trans ?_)
      rw [show ctxOf (dropCtxTlb n (modCtx n _ s)) n = _ from ctxOf_modCtx _ _ _, h]
      rfl
    · exact ⟨{ x with suspended := false }, (ctxOf_modCtx _ _ _).trans (by rw [h]; rfl), rfl⟩
  · rw [dues_agenda]
    simp [hcl]
  · rw [dues_agenda]
    refine List.mem_append_right _ (List.mem_append_right _ (List.mem_map.mpr ⟨e, List.mem_filter.mpr ⟨?_, ?_⟩, rfl⟩))
    · split
      · rw [timer_q]; exact he
      · exact he
    · simp [hc, hf, hp]

/-! ### Q.DESTROY -/

/-- A queue with nothing begun and nothing unwritten goes at once. -/
theorem settleQueue_empty {n : Nat} {s : State} {x : Queue} {c : QCmd} (h : amGet? s.q.queues n = some x) (hd : x.destroying = some c)
    (ho : x.open_ = []) (hp : x.parked = []) (ht : compsTimed s false n (fun _ => true) = false) :
    completed (settleQueue n s) c 0 0 0 ∧ amGet? (settleQueue n s).q.queues n = none := by
  have hs : settleQueue n s = complete c 0 0 0 (dropCmds (fun x => !x.admin && x.queue == n)
      { s with q := { s.q with queues := amDel s.q.queues n } }) := by
    simp [settleQueue, h, hd, ho, hp, ht]
  rw [hs]
  exact ⟨complete_completed _ _ _ _ _, amGet?_queues_complete (amGet?_amDel_same _ _) (by simp)⟩

theorem settleQueue_open {n : Nat} {s : State} {x : Queue} (h : amGet? s.q.queues n = some x) (ho : x.open_ ≠ []) : settleQueue n s = s := by
  unfold settleQueue
  rw [h]
  dsimp only
  split
  · exact if_neg fun hc => ho hc.1
  · rfl

/-! ### PARK.RESUME -/

theorem unparkFor_brk {gid : Nat} {s : State} {g : Group} (h : findGroup s gid = some g) (hst : g.status = .stopped) :
    ∃ k, findGroup (unparkFor (.brk gid) s) gid = some k ∧ k.status = .running ∧ k.pc = g.pc := by
  refine ⟨{ g with status := .running, rdy := s.tick }, ?_, rfl, rfl⟩
  rw [unparkFor, findGroup_modGroup (fun g => by split <;> rfl), h, Option.map_some, if_pos hst]

/-! ### The obligation -/

/-- A command that ends in a completion. -/
theorem ran_complete {i : Instr} {s u : State} {c : QCmd} {res : Nat} {P : State → Prop}
    (hrun : exec i s = .next (complete c 0 0 res u)) (hP : P (complete c 0 0 res u)) :
    ∃ t, exec i s = .next t ∧ completed t c 0 0 res ∧ P t :=
  ⟨_, hrun, complete_completed _ _ _ _ _, hP⟩

section
variable {s : State} {c : QCmd} {q : Queue}

theorem ctxCreate_spec (hev : s.ev = some (.ctx_create c)) (ha : accepts (createReasons c) c q s) {b n : Nat} {tb : Tables} {v : State}
    (hr : readContext q (bodyN c 0 8) (begun c q s) = (.inr (b, some tb), v)) (hn : freeKey v.ctxs 64 = some n) :
    ∃ t, exec .ctx_create s = .next t ∧ completed t c 0 0 n ∧ ∃ l, ctxOf t n = some { ctxOfTables q.tenant v.tun.tunn b tb with streams := l }
      ∧ l.map (fun d => d.desc) = tb.streams.map (BitVec.ofNat 512) := by
  let x := ctxOfTables q.tenant v.tun.tunn b tb
  obtain ⟨l, hl, hd⟩ := hostCounts_ctxs n x { v with ctxs := amPut v.ctxs n x } (amGet?_amPut_same _ _ _)
  have hrun : exec .ctx_create s = .next (complete c 0 0 n (hostCounts n x { v with ctxs := amPut v.ctxs n x })) := by
    have hx : exec .ctx_create s = execCtxCreate s := rfl
    rw [hx, execCtxCreate, hev]
    simp only [runCmd_of_accepts ha, ctxCreate, hr, hn]
    rfl
  refine ran_complete hrun ⟨l, (ctxOf_congr (complete_ctxs _ _ _ _ _) n).trans hl, hd.trans ?_⟩
  simp [x, ctxOfTables, streamOfDesc, Function.comp_def]

theorem ctxDestroy_begins (hev : s.ev = some (.ctx_destroy c)) (hid : c.id ∉ s.q.running) (ha : accepts (ctxReasons c) c q s) :
    exec .ctx_destroy s = .next (due (.ctx_destroy c) (endCtx (bodyN c 0 1) (begun c q s))) := by
  have hx : exec .ctx_destroy s = execCtxDestroy s := rfl
  rw [hx, execCtxDestroy, hev]
  dsimp only
  rw [if_neg (by simpa using hid), runPlain_of_accepts ha]

theorem ctxDestroy_ends (hev : s.ev = some (.ctx_destroy c)) (hid : c.id ∈ s.q.running) :
    exec .ctx_destroy s = .next (complete c 0 0 0 (dropCtx (bodyN c 0 1) s)) := by
  have hx : exec .ctx_destroy s = execCtxDestroy s := rfl
  rw [hx, execCtxDestroy, hev]
  dsimp only
  rw [if_pos (by simpa using hid)]

theorem qCreate_eq {u v : State} {b r n : Nat} (hr : readQcb (.virt (bodyN c 8 1)) (bodyN c 0 8) u = (.inr (b, r), v))
    (hn : freeKey v.q.queues 4096 = some n) : qCreate c q u = complete c 0 0 n { v with q := { v.q with
      queues := amPut v.q.queues n (queueOfQcb (bodyN c 8 1) q.tenant false (bodyW c 0) b r) } } := by
  unfold qCreate
  rw [hr]
  dsimp only
  rw [hn]

theorem qCreate_run (hev : s.ev = some (.q_create c)) (ha : accepts (qCreateReasons c) c q s) :
    exec .q_create s = .next (qCreate c q (begun c q s)) := by
  have hx : exec .q_create s = execQCreate s := rfl
  rw [hx, execQCreate, hev]
  dsimp only
  rw [runPlain_of_accepts ha]

theorem qCreate_spec (hev : s.ev = some (.q_create c)) (ha : accepts (qCreateReasons c) c q s) {b r n : Nat} {v : State}
    (hr : readQcb (.virt (bodyN c 8 1)) (bodyN c 0 8) (begun c q s) = (.inr (b, r), v)) (hn : freeKey v.q.queues 4096 = some n) :
    ∃ t, exec .q_create s = .next t ∧ completed t c 0 0 n
      ∧ amGet? t.q.queues n = some (queueOfQcb (bodyN c 8 1) q.tenant false (bodyW c 0) b r) := by
  have hrun := qCreate_run hev ha
  rw [qCreate_eq hr hn] at hrun
  exact ran_complete hrun (amGet?_queues_complete (amGet?_amPut_same _ _ _) fun y hy => by cases hy; rfl)

theorem qDestroy_run (hev : s.ev = some (.q_destroy c)) (ha : accepts (qDestroyReasons c) c q s) : exec .q_destroy s
    = .next (settleQueue (bodyN c 0 2) (modQueue false (bodyN c 0 2) (fun x => { x with destroying := some c }) (begun c q s))) := by
  have hx : exec .q_destroy s = execQDestroy s := rfl
  rw [hx, execQDestroy, hev]
  dsimp only
  rw [runPlain_of_accepts ha]

theorem destroying_queue {u : State} {x : Queue} {n : Nat} (h : amGet? u.q.queues n = some x) :
    amGet? (modQueue false n (fun x => { x with destroying := some c }) u).q.queues n = some { x with destroying := some c } :=
  (amGet?_amMod_same _ _ _).trans (by rw [h]; rfl)

theorem streamReset_run (hev : s.ev = some (.stream_reset c)) (ha : accepts (resetReasons c) c q s) : exec .stream_reset s
    = .next (complete c 0 0 0 (modStream (bodyN c 0 1) (bodyN c 2 2) (fun d => { d with faulted := false }) (begun c q s))) := by
  have hx : exec .stream_reset s = execStreamReset s := rfl
  rw [hx, execStreamReset, hev]
  dsimp only
  rw [runPlain_of_accepts ha]

/-- The state after PARK.RESUME takes a parked record off the list. -/
def unlisted (u : State) (e : FaultRec × ParkedFor) : State := { u with q := { u.q with parkedFor := u.q.parkedFor.erase e } }

theorem parkResume_run {e : FaultRec × ParkedFor} (hev : s.ev = some (.park_resume c)) (ha : accepts (parkReasons c) c q s)
    (hp : parkedBy (begun c q s) q (bodyN c 0 64) = some e) :
    exec .park_resume s = .next (complete c 0 0 0 (unparkFor e.2 (unlisted (begun c q s) e))) := by
  have hx : exec .park_resume s = execParkResume s := rfl
  rw [hx, execParkResume, hev]
  simp only [runPlain_of_accepts ha, hp]
  rfl

theorem preempt_run (hev : s.ev = some (.preempt c)) (ha : accepts (ctxReasons c) c q s) :
    exec .preempt s = .next (preemptCtx c (bodyN c 0 1) (begun c q s)) := by
  have hx : exec .preempt s = execPreempt s := rfl
  rw [hx, execPreempt, hev]
  dsimp only
  rw [runPlain_of_accepts ha]

theorem resume_run (hev : s.ev = some (.resume c)) (ha : accepts (ctxReasons c) c q s) :
    exec .resume s = .next (complete c 0 0 0 (resumeCtx (bodyN c 0 1) (begun c q s))) := by
  have hx : exec .resume s = execResume s := rfl
  rw [hx, execResume, hev]
  dsimp only
  rw [runPlain_of_accepts ha]
end

/-- Settles O53, command by command: each runs from the state it begins in, and completing it changes only the command tables
and the agenda. -/
theorem adminCommandResult : Obligations.AdminCommandResult := by
  unfold Obligations.AdminCommandResult
  intro s c q
  refine ⟨?_, ?_, ?_, ?_, ?_, ?_, ?_, ?_⟩
  case refine_1 =>
    intro b tb v n hev ha hr hn
    obtain ⟨t, hexec, hcomp, l, hl, hd⟩ := ctxCreate_spec hev ha hr hn
    exact ⟨t, hexec, hcomp, _, hl, rfl, rfl, rfl, rfl, rfl, rfl, rfl, hd, rfl, rfl⟩
  case refine_2 =>
    intro hev
    refine ⟨fun hid ha => ⟨_, ctxDestroy_begins hev hid ha, mem_due _ _, fun x hx => ?_, fun g hg hc => ?_⟩,
      fun hid => ran_complete (ctxDestroy_ends hev hid) ⟨?_, ?_⟩⟩
    · refine ⟨{ x with destroying := true }, ?_, rfl⟩
      rw [ctxOf_congr (due_ctxs _ _), endCtx_ctxOf, hx, Option.map_some]
    · rw [allGroups_congr (due_g _ _) (due_rest _ _)] at hg
      exact gone_of_mem_endCtx hg hc
    · rw [ctxOf_congr (complete_ctxs _ _ _ _ _)]
      exact dropCtx_ctxOf _ _
    · exact forall_mem_queues_complete (P := fun x => x.ctx ≠ bodyN c 0 1) (dropCtx_queues _ _) fun _ _ h => h
  case refine_3 => exact fun b r v n hev ha hr hn => qCreate_spec hev ha hr hn
  case refine_4 =>
    intro x hev ha hx
    refine ⟨fun ho hp ht => ?_, fun ho => ?_⟩
    · exact ⟨_, qDestroy_run hev ha, settleQueue_empty (destroying_queue hx) rfl ho hp ht⟩
    · refine ⟨_, qDestroy_run hev ha, ?_⟩
      rw [settleQueue_open (destroying_queue hx) ho]
      exact ⟨destroying_queue hx, rfl⟩
  case refine_5 =>
    intro d hev ha hd
    exact ran_complete (streamReset_run hev ha)
      ((streamOf_congr (complete_ctxs _ _ _ _ _) _ _).trans (streamOf_modStream (d := d) rfl hd))
  case refine_6 =>
    intro fr p hev ha hp
    have hrun := parkResume_run hev ha hp
    refine ⟨?_, ?_, ?_⟩
    · rintro gid g rfl hg hst
      obtain ⟨k, hk, hks, hkpc⟩ := unparkFor_brk (s := unlisted (begun c q s) (fr, .brk gid)) (g := g) hg hst
      exact ran_complete hrun ⟨k, (findGroup_congr (complete_g _ _ _ _ _) (complete_rest _ _ _ _ _) gid).trans hk, hks, hkpc⟩
    · rintro k sid d rfl hd
      exact ran_complete hrun ((streamOf_congr (complete_ctxs _ _ _ _ _) _ _).trans
        (streamOf_modStream (s := unlisted (begun c q s) (fr, .window k sid)) (d := d) rfl hd))
    · rintro id x rfl hx
      refine ran_complete hrun ⟨?_, agenda_subset_complete _ _ _ _ _ (mem_due _ _)⟩
      rw [complete_xfers]
      exact (amGet?_amMod_same _ _ _).trans (by rw [show amGet? (unlisted (begun c q s) (fr, .xfer id)).q.xfers id = some x from hx]; rfl)
  case refine_7 =>
    intro x hev ha hx
    exact ⟨_, preempt_run hev ha, ⟨_, preemptCtx_ctxOf hx c, rfl⟩, preemptCtx_xfers _ _ _, preemptCtx_groups _ _ _⟩
  case refine_8 =>
    intro x hev ha hx
    obtain ⟨hsus, hwin, hxf⟩ := resumeCtx_spec hx
    refine ran_complete (resume_run hev ha) ⟨?_, fun cl hcl => agenda_subset_complete _ _ _ _ _ (hwin cl hcl),
      fun e he hc hf hp => agenda_subset_complete _ _ _ _ _ (hxf e he hc hf hp)⟩
    rw [ctxOf_congr (complete_ctxs _ _ _ _ _)]
    exact hsus

end Sys2Proof.Machine
end

section
/-! SUPPORT. What the steps of the memory system leave of everything else: groups are woken and no more, and the tables of
work and of contexts stand (R57 to R61, R69 to R71, R100, R419). -/
namespace Sys2Proof.Machine

/-! ### Groups in step -/

/-- Group by group, t's stand to s's as R says. -/
structure GroupsStep (R : Group → Group → Prop) (s t : State) : Prop where
  g : R s.g t.g
  rest : List.Forall₂ R s.rest t.rest

/-- A wake: the group may be ready again, or woken where it was saved in its wait. -/
def Woken (g h : Group) : Prop :=
  h = { g with status := h.status, rdy := h.rdy, watch := h.watch, woken := h.woken } ∧ (g.status = .saved → h.status = .saved)

/-- The group is the same one, at the same instruction. -/
def Placed (g h : Group) : Prop := h.idn = g.idn ∧ h.pc = g.pc

theorem Woken.refl (g : Group) : Woken g g := ⟨rfl, id⟩

theorem Woken.trans {g h k : Group} (hgh : Woken g h) (hhk : Woken h k) : Woken g k := by
  obtain ⟨h1, h2⟩ := hgh
  obtain ⟨k1, k2⟩ := hhk
  exact ⟨by rw [k1, h1], fun h => k2 (h2 h)⟩

theorem Woken.placed {g h : Group} (hgh : Woken g h) : Placed g h := by
  rw [hgh.1]; exact ⟨rfl, rfl⟩

theorem Placed.refl (g : Group) : Placed g g := ⟨rfl, rfl⟩

theorem Placed.trans {g h k : Group} (hgh : Placed g h) (hhk : Placed h k) : Placed g k :=
  ⟨hhk.1.trans hgh.1, hhk.2.trans hgh.2⟩

theorem GroupsStep.refl {R : Group → Group → Prop} (hR : ∀ g, R g g) (s : State) : GroupsStep R s s :=
  ⟨hR _, List.forall₂_same.mpr fun _ _ => hR _⟩

theorem GroupsStep.trans {R : Group → Group → Prop} (hR : ∀ {g h k}, R g h → R h k → R g k) {s t u : State}
    (hst : GroupsStep R s t) (htu : GroupsStep R t u) : GroupsStep R s u := by
  refine ⟨hR hst.g htu.g, ?_⟩
  have h1 := hst.rest
  have h2 := htu.rest
  generalize s.rest = l at h1
  generalize t.rest = m at h1 h2
  generalize u.rest = n at h2
  induction h1 generalizing n with
  | nil => cases h2; exact .nil
  | cons hab _ ih => cases h2 with
    | cons hbc htl => exact .cons (hR hab hbc) (ih _ htl)

theorem GroupsStep.mono {R R' : Group → Group → Prop} (hR : ∀ {g h}, R g h → R' g h) {s t : State} (h : GroupsStep R s t) :
    GroupsStep R' s t := ⟨hR h.g, h.rest.imp fun _ _ => hR⟩

theorem GroupsStep.of_eq {R : Group → Group → Prop} (hR : ∀ g, R g g) {s t : State} (hg : t.g = s.g) (hr : t.rest = s.rest) :
    GroupsStep R s t := by
  refine ⟨by rw [hg]; exact hR _, by rw [hr]; exact List.forall₂_same.mpr fun _ _ => hR _⟩

/-- A change of the groups that satisfy a test, each as R says. -/
theorem groupsStep_mapGroups {R : Group → Group → Prop} (hR : ∀ g, R g g) {p : Group → Bool} {f : Group → Group} (hf : ∀ g, R g (f g))
    (s : State) : GroupsStep R s (mapGroups p f s) := by
  have h : ∀ g, R g (if p g then f g else g) := fun g => by split; exacts [hf g, hR g]
  exact ⟨h _, List.forall₂_map_right_iff.mpr (List.forall₂_same.mpr fun g _ => h g)⟩

theorem groupsStep_modGroup {R : Group → Group → Prop} (hR : ∀ g, R g g) {gid : Nat} {f : Group → Group} (hf : ∀ g, R g (f g))
    (s : State) : GroupsStep R s (modGroup gid f s) := by
  unfold modGroup
  split
  · exact ⟨hf _, List.forall₂_same.mpr fun _ _ => hR _⟩
  · have h : ∀ g : Group, R g (if g.idn.gid = gid then f g else g) := fun g => by split; exacts [hf g, hR g]
    exact ⟨hR _, List.forall₂_map_right_iff.mpr (List.forall₂_same.mpr fun g _ => h g)⟩

/-- A group is found under its number after a step that keeps numbers. -/
theorem GroupsStep.findGroup {R : Group → Group → Prop} (hR : ∀ {g h}, R g h → h.idn = g.idn) {s t : State} (hst : GroupsStep R s t)
    {gid : Nat} {g : Group} (hg : findGroup s gid = some g) : ∃ h, findGroup t gid = some h ∧ R g h := by
  unfold Machine.findGroup at hg ⊢
  rw [hR hst.g]
  split at hg
  case isTrue hid => exact ⟨t.g, by rw [if_pos hid], Option.some.inj hg ▸ hst.g⟩
  case isFalse hid =>
    rw [if_neg hid]
    have h := hst.rest
    generalize s.rest = l at h hg
    generalize t.rest = m at h
    induction h with
    | nil => simp at hg
    | @cons a b as bs hab _ ih =>
      rw [List.find?_cons] at hg ⊢
      rw [hR hab]
      split at hg
      · next => exact ⟨b, rfl, Option.some.inj hg ▸ hab⟩
      · next => exact ih hg

theorem GroupsStep.findGroup_none {R : Group → Group → Prop} (hR : ∀ {g h}, R g h → h.idn = g.idn) {s t : State} (hst : GroupsStep R s t)
    {gid : Nat} (hg : Machine.findGroup s gid = none) : Machine.findGroup t gid = none := by
  unfold Machine.findGroup at hg ⊢
  rw [hR hst.g]
  split at hg
  · simp at hg
  · next hid =>
    rw [if_neg hid]
    have h := hst.rest
    generalize s.rest = l at h hg
    generalize t.rest = m at h
    induction h with
    | nil => rfl
    | cons hab _ ih =>
      rw [List.find?_cons] at hg ⊢
      rw [hR hab]
      split at hg
      · simp at hg
      · next => exact ih hg

/-! ### Steps of the memory system -/

/-- A step that changes the memory system, and of the groups what R says. -/
structure HomeStep (R : Group → Group → Prop) (s t : State) : Prop where
  groups : GroupsStep R s t
  ir : t.ir = s.ir
  d : t.d = s.d
  ctxs : t.ctxs = s.ctxs

/-- A step that leaves the groups as they are. -/
theorem HomeStep.still {R : Group → Group → Prop} (hR : ∀ g, R g g) {s t : State} (hg : t.g = s.g) (hr : t.rest = s.rest) (hi : t.ir = s.ir)
    (hd : t.d = s.d) (hc : t.ctxs = s.ctxs) : HomeStep R s t := ⟨.of_eq hR hg hr, hi, hd, hc⟩

theorem HomeStep.same {s t : State} (h : (t.g, t.rest, t.ir, t.d, t.ctxs) = (s.g, s.rest, s.ir, s.d, s.ctxs)) : HomeStep Woken s t := by
  simp only [Prod.mk.injEq] at h
  obtain ⟨hg, hr, hi, hd, hc⟩ := h
  exact .still Woken.refl hg hr hi hd hc

theorem HomeStep.trans {s t u : State} (hst : HomeStep Woken s t) (htu : HomeStep Woken t u) : HomeStep Woken s u :=
  ⟨hst.groups.trans (R := Woken) (fun h h' => h.trans h') htu.groups, htu.ir.trans hst.ir, htu.d.trans hst.d, htu.ctxs.trans hst.ctxs⟩

theorem HomeStep.due {R : Group → Group → Prop} {s t : State} (h : HomeStep R s t) (e : Event) : HomeStep R s (due e t) :=
  ⟨⟨h.groups.g, h.groups.rest⟩, h.ir, h.d, h.ctxs⟩

theorem HomeStep.foldl {α : Type} {f : State → α → State} (hf : ∀ s x, HomeStep Woken s (f s x)) (l : List α) (s : State) :
    HomeStep Woken s (l.foldl f s) := by
  induction l generalizing s with
  | nil => exact .same rfl
  | cons x xs ih => exact (hf s x).trans (ih _)

theorem homeStep_wakeWord (word : Nat) (s : State) : HomeStep Woken s (wakeWord word s) := by
  refine ⟨groupsStep_mapGroups Woken.refl (fun g => ?_) s, rfl, rfl, rfl⟩
  split
  · next h => exact ⟨rfl, fun h' => absurd (h.symm.trans h') (by decide)⟩
  · split
    · exact ⟨rfl, id⟩
    · exact .refl g

theorem homeStep_wakeAll (s : State) : HomeStep Woken s (wakeAll s) := by
  refine ⟨groupsStep_mapGroups (p := fun _ => true) (f := wakeGroup s) Woken.refl (fun g => ?_) s, rfl, rfl, rfl⟩
  unfold wakeGroup
  split
  · next h => exact ⟨rfl, fun h' => by simp [h'] at h⟩
  · exact .refl g

theorem homeStep_wakeWords (sec : Nat) (words : BitVec 16) (s : State) : HomeStep Woken s (wakeWords sec words s) :=
  .foldl (fun _ _ => homeStep_wakeWord _ _) _ _

/-! ### The home's copy -/

theorem homeStep_homeDrop (sec : Nat) (s : State) : HomeStep Woken s (homeDrop sec s) := by
  unfold homeDrop
  split
  · dsimp only
    split <;> exact .same rfl
  · exact .same rfl

theorem homeStep_hostDrop (line : Nat) (s : State) : HomeStep Woken s (hostDrop line s) := by
  unfold hostDrop
  split
  · dsimp only
    split <;> exact .same rfl
  · exact .same rfl

theorem homeStep_l2Room (sec : Nat) (s : State) : HomeStep Woken s (l2Room sec s) := by
  unfold l2Room
  dsimp only
  split
  · exact .same rfl
  · exact .foldl (fun s x => ((homeStep_homeDrop x s).trans (homeStep_hostDrop _ _)).trans (homeStep_hostDrop _ _)) _ _

theorem homeStep_homeAlloc (sec : Nat) (s : State) : HomeStep Woken s (homeAlloc sec s) := by
  unfold homeAlloc
  split
  · exact .same rfl
  · split
    · exact .same rfl
    · exact (homeStep_l2Room sec s).trans (.same rfl)

theorem homeStep_homeMerge (sec : Nat) (m : BitVec 128) (d : BitVec 1024) (po : BitVec 128) (alloc : Bool) (s : State) :
    HomeStep Woken s (homeMerge sec m d po alloc s) := by
  unfold homeMerge
  split
  · exact .same rfl
  · refine .trans ?_ (.foldl (fun _ _ => homeStep_wakeWord _ _) _ _)
    cases alloc
    · simp only [Bool.false_eq_true, if_false]
      split <;> exact .same rfl
    · simp only [if_true]
      refine (homeStep_homeAlloc sec s).trans ?_
      split <;> exact .same rfl

/-! ### Owners are revoked -/

theorem homeStep_homeTouch (sec : Nat) (s : State) : HomeStep Woken s (homeTouch sec s) := .same rfl
theorem homeStep_l1Mod (core sec : Nat) (f : L1Sec → L1Sec) (s : State) : HomeStep Woken s (l1Mod core sec f s) := .same rfl
theorem homeStep_l1Del (core sec : Nat) (s : State) : HomeStep Woken s (l1Del core sec s) := .same rfl
theorem homeStep_clearOwner (sec : Nat) (words : BitVec 16) (s : State) : HomeStep Woken s (clearOwner sec words s) := .same rfl
theorem homeStep_setOwner (sec : Nat) (words : BitVec 16) (c : Nat) (s : State) : HomeStep Woken s (setOwner sec words c s) := .same rfl
theorem homeStep_supersede (core sec : Nat) (words : BitVec 16) (s : State) : HomeStep Woken s (supersede core sec words s) := .same rfl

theorem homeStep_revokeFrom (sec : Nat) (words : BitVec 16) (c : Nat) (s : State) : HomeStep Woken s (revokeFrom sec words c s) :=
  (((homeStep_homeMerge _ _ _ _ _ _).trans (homeStep_l1Mod _ _ _ _)).trans (homeStep_supersede _ _ _ _)).trans (homeStep_clearOwner _ _ _)

theorem homeStep_revoke (sec : Nat) (words : BitVec 16) (me : Option Nat) (s : State) : HomeStep Woken s (revoke sec words me s) :=
  .foldl (fun _ _ => homeStep_revokeFrom _ _ _ _) _ _

theorem homeStep_snoopNow (line : Nat) (write : Bool) (s : State) : HomeStep Woken s (snoopNow line write s) := by
  unfold snoopNow
  split <;> exact .same rfl

theorem homeStep_snoopSec (sec : Nat) (write : Bool) (s : State) : HomeStep Woken s (snoopSec sec write s) :=
  (homeStep_snoopNow _ _ _).trans (homeStep_snoopNow _ _ _)

theorem homeStep_cohPutWord (pa : Nat) (v : Word64) (s : State) : HomeStep Woken s (cohPutWord pa v s) :=
  ((homeStep_snoopNow _ _ _).trans (homeStep_revoke _ _ _ _)).trans (homeStep_homeMerge _ _ _ _ _ _)

theorem homeStep_flushRange (lo n : Nat) (s : State) : HomeStep Woken s (flushRange lo n s) :=
  (HomeStep.foldl (fun _ _ => homeStep_revoke _ _ _ _) _ _).trans (.foldl (fun _ _ => homeStep_homeDrop _ _) _ _)

theorem homeStep_of_pickOne {α : Type} {l : List α} {o : Option α} {s t : State} (h : pickOne l s = (o, t)) : HomeStep Woken s t := by
  obtain rfl : (pickOne l s).2 = t := congrArg Prod.snd h
  exact .same rfl

theorem homeStep_dirRoom (sec : Nat) (s : State) : HomeStep Woken s (dirRoom sec s) := by
  unfold dirRoom
  split
  · split
    · next h => exact (homeStep_of_pickOne h).trans (homeStep_revoke _ _ _ _)
    · next h => exact homeStep_of_pickOne h
  · exact .same rfl

/-! ### Homes of regions, and walks -/

theorem homeStep_homeRegion (region home : Nat) (s : State) : HomeStep Woken s (homeRegion region home s) := by
  unfold homeRegion
  split
  · exact .same rfl
  · split <;> exact .same rfl

theorem homeStep_rhomeRoom (core : Nat) (s : State) : HomeStep Woken s (rhomeRoom core s) := by
  unfold rhomeRoom
  dsimp only
  split
  · exact .same rfl
  · split
    · next h => exact (homeStep_of_pickOne h).trans (.same rfl)
    · next h => exact homeStep_of_pickOne h

theorem homeStep_lookupHome (core region : Nat) (s : State) : HomeStep Woken s (lookupHome core region s) := by
  unfold lookupHome
  dsimp only
  split
  · exact .same rfl
  · have hroom := (homeStep_homeRegion region (homeFor s.tun core) s).trans (homeStep_rhomeRoom core _)
    exact hroom.trans (.same rfl)

theorem homeStep_agentHome (a : Agent) (region : Nat) (s : State) : HomeStep Woken s (agentHome a region s) := by
  unfold agentHome
  split
  · exact .same rfl
  · split
    · exact homeStep_lookupHome _ _ _
    · exact homeStep_homeRegion _ _ _

theorem homeStep_walkTouch (a : Agent) (va : Nat) (s : State) : HomeStep Woken s (walkTouch a va s) := by
  unfold walkTouch
  split
  · exact .foldl (fun s l => ((homeStep_agentHome _ _ _).trans (homeStep_snoopNow _ _ _)).trans (homeStep_homeTouch _ _)) _ _
  · exact .same rfl

theorem homeStep_walkSnoops (a : Agent) (va acc : Nat) (s : State) : HomeStep Woken s (walkSnoops a va acc s) := by
  have h : walkSnoops a va acc s = walkTouch a va s ∨ walkSnoops a va acc s = s := ite_eq_or_eq _ _ _
  rcases h with h | h
  · rw [h]; exact homeStep_walkTouch _ _ _
  · rw [h]; exact .same rfl

theorem homeStep_markLeaf (acc : Nat) (x : Xl) (s : State) : HomeStep Woken s (markLeaf acc x s).2 := by
  unfold markLeaf
  split
  · exact .same rfl
  · dsimp only
    split
    · dsimp only
      split
      · exact .same rfl
      · exact homeStep_cohPutWord _ _ _
    · exact .same rfl

theorem homeStep_tlbRoom (cl vp : Nat) (s : State) : HomeStep Woken s (tlbRoom cl vp s) := by
  unfold tlbRoom
  dsimp only
  split
  · exact .same rfl
  · split
    · next h => exact (homeStep_of_pickOne h).trans (.same rfl)
    · next h => exact homeStep_of_pickOne h

theorem homeStep_tlb1Room (core : Nat) (s : State) : HomeStep Woken s (tlb1Room core s) := by
  unfold tlb1Room
  dsimp only
  split
  · exact .same rfl
  · split
    · next h => exact (homeStep_of_pickOne h).trans (.same rfl)
    · next h => exact homeStep_of_pickOne h

theorem homeStep_useXlate (a : Agent) (va acc : Nat) (x : Xl) (s : State) : HomeStep Woken s (useXlate a va acc x s) := by
  have hmark := (homeStep_walkSnoops a va acc s).trans (homeStep_markLeaf acc x _)
  unfold useXlate
  dsimp only
  generalize (markLeaf acc x (walkSnoops a va acc s)).2 = u at hmark ⊢
  have hput : ∀ tlb : List TlbEnt, HomeStep Woken s { u with m := { u.m with tlb := tlb } } := fun _ => hmark.trans (.same rfl)
  split
  · exact (hput _).trans (homeStep_tlbRoom _ _ _)
  · generalize hv : tlbRoom a.cluster _ _ = v
    have hroom : HomeStep Woken s v := hv ▸ (hput _).trans (homeStep_tlbRoom _ _ _)
    refine .trans ?_ (homeStep_tlb1Room _ _)
    exact hroom.trans (.same rfl)

/-! ### Requests at their homes

An atomic that meets poison marks the group that issued it, so that these steps are no mere wakes. -/

theorem HomeStep.placed {s t : State} (h : HomeStep Woken s t) : HomeStep Placed s t := ⟨h.groups.mono Woken.placed, h.ir, h.d, h.ctxs⟩

theorem HomeStep.samePlaced {s t : State} (h : (t.g, t.rest, t.ir, t.d, t.ctxs) = (s.g, s.rest, s.ir, s.d, s.ctxs)) :
    HomeStep Placed s t := (HomeStep.same h).placed

theorem HomeStep.then {s t u : State} (hst : HomeStep Placed s t) (htu : HomeStep Placed t u) : HomeStep Placed s u :=
  ⟨hst.groups.trans (R := Placed) (fun h h' => h.trans h') htu.groups, htu.ir.trans hst.ir, htu.d.trans hst.d, htu.ctxs.trans hst.ctxs⟩

theorem HomeStep.fold {α : Type} {f : State → α → State} (hf : ∀ s x, HomeStep Placed s (f s x)) (l : List α) (s : State) :
    HomeStep Placed s (l.foldl f s) := by
  induction l generalizing s with
  | nil => exact HomeStep.samePlaced rfl
  | cons x xs ih => exact (hf s x).then (ih _)

theorem homeStep_regoServe (core sec : Nat) (words : BitVec 16) (s : State) : HomeStep Woken s (regoServe core sec words s) :=
  (((homeStep_dirRoom sec s).trans (homeStep_setOwner _ _ _ _)).trans (homeStep_wakeWords sec words _)).due _

theorem homeStep_wtServe (core sec : Nat) (d : SectorData) (rel bypass : Bool) (s : State) :
    HomeStep Woken s (wtServe core sec d rel bypass s) := by
  unfold wtServe
  dsimp only
  split
  · exact ((homeStep_homeMerge _ _ _ _ _ _).trans (homeStep_clearOwner _ _ _)).due _
  · exact (homeStep_homeMerge _ _ _ _ _ _).due _

theorem homeStep_wbServe (core sec : Nat) (d : SectorData) (s : State) : HomeStep Woken s (wbServe core sec d s) := by
  unfold wbServe
  dsimp only
  split
  · exact (homeStep_clearOwner _ _ _).due _
  · exact ((homeStep_homeMerge _ _ _ _ _ _).trans (homeStep_clearOwner _ _ _)).due _

theorem homeStep_rdsServe (core sec : Nat) (bypass : Bool) (s : State) : HomeStep Woken s (rdsServe core sec bypass s) := by
  unfold rdsServe
  cases bypass
  · exact (homeStep_homeAlloc _ _).due _
  · exact .due (.same rfl) _

theorem homeStep_homeAtomic (pa aop n : Nat) (r : Rnd) (b c : Nat) (s : State) : HomeStep Woken s (homeAtomic pa aop n r b c s).2 := by
  unfold homeAtomic
  dsimp only
  split
  · exact homeStep_revoke _ _ _ _
  · exact (homeStep_revoke _ _ _ _).trans (homeStep_homeMerge _ _ _ _ _ _)

theorem homeStep_atomLanes (sec : Nat) (aop : BitVec 4) (w : Bool) (r : Rnd) (ls : List AtomLane) (s : State) :
    HomeStep Woken s (atomLanes sec aop w r ls s).2 := by
  unfold atomLanes
  generalize (([], none) : List (Nat × Word64) × Option Nat) = acc
  induction ls generalizing s acc with
  | nil => exact .same rfl
  | cons l ls ih => exact (homeStep_homeAtomic _ _ _ _ _ _ s).trans (ih _ _)

theorem homeStep_modGroup {f : Group → Group} (hf : ∀ g, Placed g (f g)) (gid : Nat) (s : State) : HomeStep Placed s (modGroup gid f s) := by
  refine ⟨groupsStep_modGroup Placed.refl hf s, ?_, ?_, ?_⟩ <;> (unfold modGroup; split <;> rfl)

theorem homeStep_atomServe (core sec : Nat) (aop : BitVec 4) (w : Bool) (r : Rnd) (ls : List AtomLane) (s : State) :
    HomeStep Placed s (atomServe core sec aop w r ls s) := by
  have hl := (homeStep_atomLanes sec aop w r ls s).placed
  unfold atomServe
  dsimp only
  split
  · refine HomeStep.due (hl.then (homeStep_modGroup (fun g => ?_) _ _)) _
    exact ⟨rfl, rfl⟩
  · exact hl.due _

theorem homeStep_memrdServe (line : Nat) (s : State) : HomeStep Woken s (memrdServe line s) := .same rfl

theorem homeStep_serveReq (e : Event) (s : State) : HomeStep Placed s (serveReq e s) := by
  unfold serveReq
  split
  case h_1 => exact ((homeStep_snoopSec _ _ _).trans (homeStep_rdsServe _ _ _ _)).placed
  case h_2 => exact (((homeStep_snoopSec _ _ _).trans (homeStep_revoke _ _ _ _)).trans (homeStep_regoServe _ _ _ _)).placed
  case h_3 => exact (((homeStep_snoopSec _ _ _).trans (homeStep_revoke _ _ _ _)).trans (homeStep_wtServe _ _ _ _ _ _)).placed
  case h_4 => exact (homeStep_wbServe _ _ _ _).placed
  case h_5 => exact (homeStep_snoopSec _ _ _).placed.then (homeStep_atomServe _ _ _ _ _ _ _)
  case h_6 => exact ((homeStep_revoke _ _ _ _).trans (homeStep_memrdServe _ _)).placed
  case h_7 => exact ((homeStep_revoke _ _ _ _).trans (homeStep_homeMerge _ _ _ _ _ _)).placed
  case h_8 => exact HomeStep.samePlaced rfl

theorem homeStep_unhold (s : State) : HomeStep Woken s (unhold s) := by
  unfold unhold
  refine .trans ?_ (homeStep_wakeAll _)
  exact .same rfl

theorem homeStep_serveOwn (core sec : Nat) (s : State) : HomeStep Placed s (serveOwn core sec s) := by
  unfold serveOwn
  extract_lets here own first later es
  split
  · exact .samePlaced rfl
  · refine (HomeStep.then ?_ (.fold (fun _ _ => homeStep_serveReq _ _) _ _)).then (homeStep_unhold _).placed
    exact .samePlaced rfl

/-! ### Sectors leave a core -/

theorem homeStep_writeThroughNow (core sec : Nat) (words : BitVec 16) (s : State) :
    HomeStep Placed s (writeThroughNow core sec words s) := by
  refine (homeStep_serveOwn core sec s).then (HomeStep.placed ?_)
  generalize hu : serveOwn core sec s = u
  unfold writeThroughNow
  dsimp only
  rw [hu]
  split
  · split
    · exact .same rfl
    · exact ((((homeStep_snoopSec _ _ _).trans (homeStep_revoke _ _ _ _)).trans (homeStep_homeMerge _ _ _ _ _ _)).trans
        (homeStep_l1Mod _ _ _ _)).trans (homeStep_clearOwner _ _ _)
  · exact .same rfl

theorem homeStep_stashLeave (core sec : Nat) (s : State) : HomeStep Woken s (stashLeave core sec s) := by
  unfold stashLeave
  split
  · split
    · exact .same rfl
    · split
      · exact .same rfl
      · refine .foldl (fun s i => ?_) _ _
        exact .same rfl
  · exact .same rfl

theorem homeStep_loseSector (core sec : Nat) (s : State) : HomeStep Woken s (loseSector core sec s) :=
  (homeStep_stashLeave core sec s).trans (homeStep_l1Del _ _ _)

theorem homeStep_flushSector (core sec : Nat) (s : State) : HomeStep Placed s (flushSector core sec s) :=
  (homeStep_writeThroughNow _ _ _ _).then (homeStep_loseSector core sec _).placed

theorem homeStep_flushWhere (core : Nat) (p : Nat → L1Sec → Bool) (s : State) : HomeStep Placed s (flushWhere core p s) :=
  .fold (fun _ _ => homeStep_flushSector _ _ _) _ _

theorem homeStep_unmapSector (core sec : Nat) (x : L1Sec) (s : State) : HomeStep Placed s (unmapSector core sec x s) := by
  unfold unmapSector
  split
  · exact homeStep_flushSector _ _ _
  · split
    · exact (homeStep_useXlate _ _ _ _ _).placed.then (homeStep_flushSector _ _ _)
    · exact (homeStep_loseSector _ _ _).placed

end Sys2Proof.Machine
end

section
/-! SUPPORT. smap and sunmap; they settle O24 (R27, R95, R100, R370). -/
namespace Sys2Proof.Machine

/-! ### smap -/

/-- The KIND of a page as smap finds it. -/
def pageKind (s : State) (a : Agent) (v : Nat) : Nat := match xlate s a v 0 with
  | .ok x => leafKind x.leaf
  | .error _ => 0

theorem pageKinds_eq (s : State) (a : Agent) (vs : List Nat) : (vs.map (pageKind s a)).any (fun k => decide (k ≥ 2))
    = vs.any (fun v => match xlate s a v 0 with
      | .ok x => decide (2 ≤ leafKind x.leaf)
      | .error _ => false) := by
  have h : ∀ v, decide (pageKind s a v ≥ 2) = (match xlate s a v 0 with
      | .ok x => decide (2 ≤ leafKind x.leaf)
      | .error _ => false) := by
    intro v
    unfold pageKind
    cases xlate s a v 0 <;> rfl
  rw [List.any_map]
  exact congrArg (List.any vs) (funext h)

theorem gTeam_of_teamOf {s : State} {tm : Team} (h : teamOf s s.g.idn.team = some tm) : gTeam s = tm := by rw [gTeam, h]; rfl

/-- The state in which smap adds its map: the L1's sectors of the range have left the core. -/
def mapCleared (va n : Nat) (s : State) : State :=
  flushWhere s.g.idn.core (fun _ x => x.ctx == s.g.idn.ctx && decide (va / 128 ≤ x.vsec ∧ x.vsec < (va + n) / 128)) s

def addMap (m : StashMap) (s : State) : State := modTeam s.g.idn.team (fun t => { t with stash := t.stash ++ [m] }) s

section
variable {s : State} {d a b c : SReg} {tm : Team} {e : PartEnt}

/-- smap past its checks: the answers in their order (R95). -/
theorem smap_checked (ht : teamOf s s.g.idn.team = some tm) (he : partEnt tm s.g.idn.part = some e)
    (hn : (rS s b).toNat % 128 = 0) (hn0 : 0 < (rS s b).toNat) (hn64 : (rS s b).toNat ≤ 65536) (hva : (rS s a).toNat % 128 = 0)
    (hoff : (rS s c).toNat % 2 ^ 32 % 2 ^ 24 % 128 = 0)
    (hsel : (rS s c).toNat % 2 ^ 32 / 2 ^ 24 = 0xFE ∨ (rS s c).toNat % 2 ^ 32 / 2 ^ 24 = s.g.idn.part)
    (hfit : (rS s c).toNat % 2 ^ 32 % 2 ^ 24 + (rS s b).toNat ≤ e.size * 4096) (hbad : badByte (rS s a).toNat (rS s b).toNat = none)
    (hpages : pagesFault s (agentOf s s.g) 0 (rangePages (rS s a).toNat (rS s b).toNat) = none) :
    exec (.smap d a b c) s =
      (let va := (rS s a).toNat; let n := (rS s b).toNat; let off := (rS s c).toNat % 2 ^ 32 % 2 ^ 24
       let mine := tm.stash.filter (fun m => m.part == s.g.idn.part)
       if mine.length ≥ 16 then scalarOut d 1 s
       else if mine.any (fun m => overlapR m.va m.size va n || overlapR m.off m.size off n) then scalarOut d 2 s
       else if ((rangePages va n).map (pageKind s (agentOf s s.g))).any (fun k => decide (k ≥ 2)) then scalarOut d 3 s
       else if s.m.fills.any (fun f => f.core == s.g.idn.core && f.tag.ctx == s.g.idn.ctx
           && decide (va / 128 ≤ f.tag.vsec ∧ f.tag.vsec < (va + n) / 128)) then .next (block s)
       else scalarOut d 0 (addMap { part := s.g.idn.part, va := va, size := n, off := off, gid := (mapCleared va n s).g.idn.gid } (mapCleared va n s))) := by
  have hx : exec (.smap d a b c) s = execSmap d a b c s := rfl
  rw [hx, execSmap]
  simp only [gTeam_of_teamOf ht, he, hbad, hpages]
  rw [if_neg (by omega), if_neg (by omega), if_neg (by omega), if_neg (Nat.not_lt.mpr hfit)]
  rfl

end


/-! ### The maps of a team change -/

theorem teamOf_modTeam (t : Nat) (f : Team → Team) (s : State) : teamOf (modTeam t f s) t = (teamOf s t).map f := amGet?_amMod_same _ _ _

@[simp] theorem askSave_ir (p : Group → Bool) (s : State) : (askSave p s).ir = s.ir := by
  obtain ⟨ts, a, h⟩ := askSave_eq p s; rw [h]; rfl
@[simp] theorem askSave_d (p : Group → Bool) (s : State) : (askSave p s).d = s.d := by
  obtain ⟨ts, a, h⟩ := askSave_eq p s; rw [h]; rfl

theorem groupsStep_askSave (p : Group → Bool) (s : State) : GroupsStep Placed s (askSave p s) := by
  obtain ⟨ts, a, h⟩ := askSave_eq p s
  have hmap := groupsStep_mapGroups (R := Placed) (p := fun g => p g && g.status != .gone && g.status != .saved)
    (f := fun g => { g with saveDue := true }) Placed.refl (fun _ => ⟨rfl, rfl⟩) s
  rw [h]
  exact ⟨hmap.g, hmap.rest⟩

/-- An escalated fault leaves the groups where they are in a context whose policy is to suspend (R454). -/
theorem applyPolicy_suspends {s : State} {c : Nat} (fcmd : Option Nat) (code : Nat) (hpol : ∀ y, ctxOf s c = some y → y.pol = false) :
    GroupsStep Placed s (applyPolicy c fcmd code s) ∧ (applyPolicy c fcmd code s).ir = s.ir ∧ (applyPolicy c fcmd code s).d = s.d := by
  unfold applyPolicy
  split
  case h_1 => exact ⟨.refl Placed.refl s, rfl, rfl⟩
  case h_2 y hy =>
    rw [if_neg (by rw [hpol y hy]; exact Bool.false_ne_true)]
    have hask := groupsStep_askSave (fun g => g.idn.ctx == c) (modCtx c (fun y => { y with suspended := true }) s)
    exact ⟨⟨hask.g, hask.rest⟩, askSave_ir _ _, askSave_d _ _⟩

/-- The maps of a team have changed: the group stands at its instruction still. -/
structure MapsChanged (s u : State) (team : Nat) (stash : List StashMap) : Prop where
  groups : GroupsStep Placed s u
  ir : u.ir = s.ir
  team : ∃ t, teamOf u team = some t ∧ t.stash = stash

theorem homeStep_mapCleared (va n : Nat) (s : State) : HomeStep Placed s (mapCleared va n s) := homeStep_flushWhere _ _ _

theorem addMap_mapsChanged {s : State} {tm : Team} (ht : teamOf s s.g.idn.team = some tm) (m : StashMap) (va n : Nat) :
    MapsChanged s (addMap m (mapCleared va n s)) s.g.idn.team (tm.stash ++ [m]) := by
  obtain ⟨hg, hir, hd, -⟩ := homeStep_mapCleared va n s
  refine ⟨⟨hg.g, hg.rest⟩, hir, ?_⟩
  rw [addMap, hg.g.1]
  exact ⟨{ tm with stash := tm.stash ++ [m] }, by rw [teamOf_modTeam, teamOf, hd, ← teamOf, ht]; rfl, rfl⟩

/-- The state in which a map's sectors have left its core and the map is gone. -/
def unmapped (team : Nat) (t : Team) (m : StashMap) (s : State) : State :=
  modTeam team (fun t => { t with stash := t.stash.filter (fun x => !(x.part == m.part && x.va == m.va)) })
    (unmapFills t m ((mapSectors s t m).foldl (fun s e => unmapSector e.1 e.2.1 e.2.2 s) s))

theorem unmapStash_eq {s : State} {team : Nat} {t : Team} {m : StashMap} (ht : teamOf s team = some t) (hp : (partEnt t m.part).isSome = true) :
    unmapStash team m s = (match mapFault s t m with
      | some (f, x) => backFault m.gid x f (unmapped team t m s)
      | none => unmapped team t m s) := by
  have hp' : (partEnt t m.part).isNone = false := by rw [← Option.not_isSome, hp]; rfl
  unfold unmapStash
  simp only [ht, hp']
  rfl

theorem homeStep_unmapSectors (s : State) (t : Team) (m : StashMap) :
    HomeStep Placed s (unmapFills t m ((mapSectors s t m).foldl (fun s e => unmapSector e.1 e.2.1 e.2.2 s) s)) := by
  have hfold : HomeStep Placed s ((mapSectors s t m).foldl (fun s e => unmapSector e.1 e.2.1 e.2.2 s) s) :=
    .fold (fun _ _ => homeStep_unmapSector _ _ _ _) _ _
  refine hfold.then ?_
  exact .samePlaced rfl

theorem unmapped_mapsChanged {s : State} {team : Nat} {t : Team} (ht : teamOf s team = some t) (m : StashMap) :
    MapsChanged s (unmapped team t m s) team (t.stash.filter (fun x => !(x.part == m.part && x.va == m.va))) := by
  obtain ⟨hg, hir, hd, -⟩ := homeStep_unmapSectors s t m
  exact ⟨⟨hg.g, hg.rest⟩, hir, { t with stash := t.stash.filter (fun x => !(x.part == m.part && x.va == m.va)) },
    by rw [unmapped, teamOf_modTeam, teamOf, hd, ← teamOf, ht]; rfl, rfl⟩

/-- A fault of a write-back whose group is gone suspends the context, where its policy is to suspend (R27, R454). -/
theorem backFault_mapsChanged {s u : State} {team : Nat} {stash : List StashMap} (h : MapsChanged s u team stash) {gid : Nat} (x : L1Sec) (f : AFlt)
    (hgid : findGroup s gid = none) (hpol : ∀ y, ctxOf u x.ctx = some y → y.pol = false) : MapsChanged s (backFault gid x f u) team stash := by
  have hnone : findGroup u gid = none := h.groups.findGroup_none (fun h => h.1) hgid
  unfold backFault backFaultAt
  simp only [hnone]
  obtain ⟨hg, hir, hd⟩ := applyPolicy_suspends (c := x.ctx) none f.code (s := due (.fault_record (recOfCtx u 0 (faultWord
    { code := f.code, detail := f.detail, acc := 1, level := f.level, va := w64 (128 * x.vsec), mask := 1 } 0 0)
    (w64 (128 * x.vsec)) 0 x.ctx)) u) hpol
  exact ⟨h.groups.trans (R := Placed) (fun h h' => h.trans h') ⟨hg.g, hg.rest⟩, hir.trans h.ir, by rw [teamOf, hd]; exact h.team⟩

/-- sunmap retires where the map is gone. -/
theorem retired_of_mapsChanged {s u : State} {team : Nat} {stash : List StashMap} (h : MapsChanged s u team stash) (d : SReg) :
    ∃ t, scalarOut d 0 u = .next t ∧ t.g.pc = nextPc s ∧ rS t d = 0 ∧ ∃ x, teamOf t team = some x ∧ x.stash = stash := by
  obtain ⟨t, ht, hcomp, hd, -⟩ := scalarOut_spec d 0 u
  refine ⟨t, ht, ?_, by rw [hd]; split <;> rfl, ?_⟩
  · rw [completes_g_pc hcomp, nextPc, nextPc, h.groups.g.2, h.ir]
  · rw [teamOf, show t.d = u.d by rw [hcomp]]
    exact h.team

/-! ### sunmap -/

section
variable {s : State} {d a : SReg} {tm : Team} {m : StashMap}

theorem sunmap_none (ht : teamOf s s.g.idn.team = some tm)
    (hfind : tm.stash.find? (fun m => m.part == s.g.idn.part && m.va == (rS s a).toNat) = none) :
    exec (.sunmap d a) s = scalarOut d 1 s := by
  have hx : exec (.sunmap d a) s = execSunmap d a s := rfl
  rw [hx, execSunmap, gTeam_of_teamOf ht, hfind]
  rfl

theorem sunmap_ok (ht : teamOf s s.g.idn.team = some tm)
    (hfind : tm.stash.find? (fun m => m.part == s.g.idn.part && m.va == (rS s a).toNat) = some m) (hp : (partEnt tm m.part).isSome = true)
    (hok : mapFault s tm m = none) : exec (.sunmap d a) s = scalarOut d 0 (unmapped s.g.idn.team tm m s) := by
  have hx : exec (.sunmap d a) s = execSunmap d a s := rfl
  rw [hx, execSunmap, gTeam_of_teamOf ht, hfind]
  dsimp only
  rw [hok, unmapStash_eq ht hp, hok]
  rfl

theorem sunmap_fault (ht : teamOf s s.g.idn.team = some tm)
    (hfind : tm.stash.find? (fun m => m.part == s.g.idn.part && m.va == (rS s a).toNat) = some m) {f : AFlt} {x : L1Sec}
    (hf : mapFault s tm m = some (f, x)) : exec (.sunmap d a) s =
      (if m.gid = s.g.idn.gid then .next (raiseW
          { code := f.code, detail := f.detail, acc := 1, level := f.level, va := w64 (128 * x.vsec), mask := 1 }
          (walkFault (stashAgent s s.g.idn.core x) (128 * x.vsec) 1 f.code s))
        else if (findGroup s m.gid).isSome then .next (block (backFault m.gid x f s))
        else .next (if (unmapStash s.g.idn.team m s).g.idn.gid = s.g.idn.gid then retireS (wS (unmapStash s.g.idn.team m s) d 0)
          else unmapStash s.g.idn.team m s)) := by
  have hx : exec (.sunmap d a) s = execSunmap d a s := rfl
  rw [hx, execSunmap, gTeam_of_teamOf ht, hfind]
  dsimp only
  rw [hf]

end

/-- Settles O24: smap by its checks in order, sunmap by what the write-backs of the map's sectors meet; the rest of the machine only
steps as the homes do. -/
theorem stashMapResult : Obligations.StashMapResult := by
  unfold Obligations.StashMapResult
  intro s d a b c tm e va n sa off part mine clash host ht he
  refine ⟨?_, ?_, ?_⟩
  case refine_1 =>
    intro hn hn0 hn64 hva hoff hsel hfit hbad hpages
    have hexec := smap_checked (d := d) ht he hn hn0 hn64 hva hoff hsel hfit hbad hpages
    dsimp only at hexec
    have hkinds := pageKinds_eq s (agentOf s s.g) (rangePages va n)
    refine ⟨fun hlen hclash hhost hfills => ?_, fun hno => ?_⟩
    · rw [if_neg (Nat.not_le.mpr hlen), if_neg (ne_true_of_eq_false hclash), if_neg (ne_true_of_eq_false (hkinds.trans hhost)),
        if_neg (ne_true_of_eq_false hfills)] at hexec
      have hmaps := addMap_mapsChanged ht { part := part, va := va, size := n, off := off, gid := (mapCleared va n s).g.idn.gid } va n
      obtain ⟨t, hout, hpc, hd, hteam⟩ := retired_of_mapsChanged hmaps d
      rw [(homeStep_mapCleared va n s).groups.g.1] at hteam
      exact ⟨t, hexec.trans hout, hpc, hd, hteam⟩
    · have hans : ∃ v : Word64, exec (.smap d a b c) s = scalarOut d v s ∧ v = (if 16 ≤ mine.length then 1 else if clash then 2 else 3) := by
        split at hexec
        case isTrue h => exact ⟨1, hexec, (if_pos h).symm⟩
        case isFalse h =>
          split at hexec
          case isTrue h' => exact ⟨2, hexec, by rw [if_neg h, if_pos h']⟩
          case isFalse h' =>
            have hhost : host = true := (hno.resolve_left h).resolve_left h'
            rw [if_pos (hkinds.trans hhost)] at hexec
            exact ⟨3, hexec, by rw [if_neg h, if_neg h']⟩
      obtain ⟨v, hv, rfl⟩ := hans
      obtain ⟨t, hout, hcomp, hd, honly⟩ := scalarOut_spec d (if 16 ≤ mine.length then 1 else if clash then 2 else 3) s
      exact ⟨t, hv.trans hout, hcomp, hd, honly, completes_memKept hcomp⟩
  case refine_2 =>
    intro hnone
    obtain ⟨t, hout, hcomp, hd, honly⟩ := scalarOut_spec d 1 s
    refine ⟨t, (sunmap_none ht ?_).trans hout, hcomp, hd, honly, completes_memKept hcomp⟩
    exact List.find?_eq_none.mpr fun m hm => by simpa using hnone m hm
  case refine_3 =>
    intro m hfind
    have hm : m.part = part ∧ m.va = va := by simpa using List.find?_some hfind
    obtain ⟨hmp, hmv⟩ := hm
    have hp : (partEnt tm m.part).isSome = true := by rw [hmp, he]; rfl
    have hmaps := unmapped_mapsChanged ht m
    rw [hmp, hmv] at hmaps
    refine ⟨fun hok => ?_, fun f x hf => ⟨fun hg => ?_, fun hg hsome => ?_, fun hg hnone hpol => ?_⟩⟩
    · obtain ⟨t, hout, hpc, hd, u, hu, hstash⟩ := retired_of_mapsChanged hmaps d
      exact ⟨t, u, (sunmap_ok ht hfind hp hok).trans hout, hpc, hd, hu, hstash⟩
    · rw [sunmap_fault ht hfind hf, if_pos hg]
      rfl
    · rw [sunmap_fault ht hfind hf, if_neg hg, if_pos hsome]
    · have hback := backFault_mapsChanged hmaps x f hnone fun y hy => hpol x.ctx y (by
        rw [ctxOf, ← (homeStep_unmapSectors s tm m).ctxs]; exact hy)
      obtain ⟨t, hout, hpc, hd, u, hu, hstash⟩ := retired_of_mapsChanged hback d
      refine ⟨t, u, ?_, hpc, hd, hu, hstash⟩
      rw [sunmap_fault ht hfind hf, if_neg hg, if_neg (by simp [hnone]), unmapStash_eq ht hp, hf]
      dsimp only
      rw [hback.groups.g.1, if_pos rfl]
      exact hout

end Sys2Proof.Machine
end

section
/-! SUPPORT. The timers of groups and the forced save (R306, R307, R340, R351, R451, R459). -/
namespace Sys2Proof.Machine

/-! ### A group and its changes by number -/

@[simp] theorem modGroup_d (gid : Nat) (f : Group → Group) (s : State) : (modGroup gid f s).d = s.d := by unfold modGroup; split <;> rfl
@[simp] theorem modGroup_ctxs (gid : Nat) (f : Group → Group) (s : State) : (modGroup gid f s).ctxs = s.ctxs := by unfold modGroup; split <;> rfl
@[simp] theorem modGroup_nsec (gid : Nat) (f : Group → Group) (s : State) : (modGroup gid f s).nsec = s.nsec := by unfold modGroup; split <;> rfl
@[simp] theorem modGroup_tick (gid : Nat) (f : Group → Group) (s : State) : (modGroup gid f s).tick = s.tick := by unfold modGroup; split <;> rfl
@[simp] theorem modGroup_agenda (gid : Nat) (f : Group → Group) (s : State) : (modGroup gid f s).agenda = s.agenda := by unfold modGroup; split <;> rfl

theorem found_modGroup {gid : Nat} {g : Group} {s : State} (h : findGroup s gid = some g) {f : Group → Group}
    (hf : ∀ g, (f g).idn.gid = g.idn.gid) : findGroup (modGroup gid f s) gid = some (f g) := by
  rw [findGroup_modGroup hf, h]; rfl

theorem gid_of_findGroup {s : State} {gid : Nat} {g : Group} (h : findGroup s gid = some g) : g.idn.gid = gid := by
  unfold findGroup at h
  split at h
  · next hid => exact Option.some.inj h ▸ hid
  · simpa using List.find?_some h

theorem findGroup_map {f : Group → Group} (hf : ∀ g, (f g).idn.gid = g.idn.gid) (s : State) (gid : Nat) :
    findGroup { s with g := f s.g, rest := s.rest.map f } gid = (findGroup s gid).map f := by
  unfold findGroup
  by_cases h : s.g.idn.gid = gid
  · simp [h, hf]
  · simp only [hf, h, if_false]
    induction s.rest with
    | nil => rfl
    | cons k ks ih =>
      by_cases hk : k.idn.gid = gid
      · simp [hk, hf]
      · simpa only [List.map_cons, List.find?_cons, hf, beq_false_of_ne hk] using ih

theorem findGroup_wakeGid {gid : Nat} {g : Group} {s : State} (h : findGroup s gid = some g) :
    findGroup (wakeGid gid s) gid = some (wakeGroup s g) := by
  have hmap := findGroup_map (f := fun k => if (k.idn.gid == gid) = true then wakeGroup s k else k)
    (fun k => by split <;> simp) s gid
  have hgid : (g.idn.gid == gid) = true := beq_iff_eq.mpr (gid_of_findGroup h)
  simp only [h, Option.map_some, hgid, if_true] at hmap
  exact hmap

/-! ### The timers -/

section
variable {s : State} {gid : Nat} {g : Group}

theorem urgent_run (hev : s.ev = some (.urgent gid)) :
    exec .urgent s = .next (modGroup gid (fun g => if g.status = .running then { g with urgent := true } else g) s) := by
  have hx : exec .urgent s = execUrgent s := rfl
  rw [hx, execUrgent, hev]

theorem yieldExpiry_run (hev : s.ev = some (.yield_expiry gid)) : exec .yield_expiry s = .next (modGroup gid (fun g =>
    if g.status = .yielded then { g with status := .running, yieldFor := [], rdy := s.tick } else g) s) := by
  have hx : exec .yield_expiry s = execYieldExpiry s := rfl
  rw [hx, execYieldExpiry, hev]

theorem sleepExpiry_run (hev : s.ev = some (.sleep_expiry gid)) (hg : findGroup s gid = some g) (hst : g.status = .sleeping) :
    exec .sleep_expiry s = .next (modGroup gid (fun g => if g.status = .sleeping then { g with status := .running, rdy := s.tick } else g)
      { s with nsec := Nat.max s.nsec g.wakeAt }) := by
  have hx : exec .sleep_expiry s = execSleepExpiry s := rfl
  rw [hx, execSleepExpiry, hev]
  simp only [hg, hst, if_true]

theorem vnbrTimeout_run (hev : s.ev = some (.vnbr_timeout gid)) : exec .vnbr_timeout s = .next (timeUp gid s) := by
  have hx : exec .vnbr_timeout s = execVnbrTimeout s := rfl
  rw [hx, execVnbrTimeout, hev]

theorem vxshfTimeout_run (hev : s.ev = some (.vxshf_timeout gid)) : exec .vxshf_timeout s = .next (timeUp gid s) := by
  have hx : exec .vxshf_timeout s = execVxshfTimeout s := rfl
  rw [hx, execVxshfTimeout, hev]

/-- A wait that has run out of time: its instruction executes again, if it waited. -/
theorem timeUp_found (hg : findGroup s gid = some g) (hst : g.status = .waiting ∨ g.status = .running) :
    (timeUp gid s).m = s.m ∧ findGroup (timeUp gid s) gid = some (wakeGroup s { g with timedOut := true }) := by
  have hf : ∀ k : Group, (if k.status = .waiting ∨ k.status = .running then { k with timedOut := true } else k).idn.gid = k.idn.gid :=
    fun k => by split <;> rfl
  have hmod := found_modGroup hg hf
  rw [if_pos hst] at hmod
  refine ⟨modGroup_m _ _ _, (findGroup_wakeGid hmod).trans ?_⟩
  rw [wakeGroup, wakeGroup, modGroup_tick]

end

/-! ### What a save keeps of a group -/

theorem settleMx_eq (bs : List Nat) (g : Group) : ∃ f n, settleMx bs g = { g with fpstat := f, n := n } := by
  induction bs generalizing g with
  | nil => exact ⟨_, _, rfl⟩
  | cons b bs ih =>
    unfold settleMx
    split
    · obtain ⟨f, n, h⟩ := ih { g with
        fpstat := (g.n.mxs.filter (fun c => c.batch == b)).foldl (fun f c => fpstatOr f c.flags) g.fpstat
        n := { g.n with mxs := g.n.mxs.filter (fun c => c.batch ≠ b) } }
      exact ⟨f, n, h⟩
    · exact ⟨_, _, rfl⟩

/-- The registers and tiles that a save leaves, by the way the save is made (R422). -/
def savedCells (g : Group) : Group := match g.saveWay with
  | .safePoint e => dropDead e g
  | _ => g

/-- What stands of a group's registers once it is saved. -/
structure SavedAs (g h : Group) : Prop where
  status : h.status = .saved
  saveDue : h.saveDue = false
  pc : h.pc = g.pc
  sregs : h.sregs = g.sregs
  kregs : h.kregs = g.kregs
  live : h.live = g.live
  x : h.x = g.x
  vregs : h.vregs = (savedCells g).vregs
  tiles : h.tiles = (savedCells g).tiles

theorem savedGroup_savedAs (g : Group) : SavedAs g (savedGroup g) := by
  have hclosed : ∃ f n, (if g.n.mxs.any (fun c => c.batch == 0) then closeBatch g else g) = { g with fpstat := f, n := n } := by
    split
    · obtain ⟨f, n, h⟩ := settleMx_eq (g.n.batches ++ [g.n.batchCtr]) { g with n := { g.n with
        mxs := g.n.mxs.map (fun c => if c.batch = 0 then { c with batch := g.n.batchCtr } else c)
        batches := g.n.batches ++ [g.n.batchCtr]
        batchCtr := g.n.batchCtr + 1 } }
      exact ⟨f, n, h⟩
    · exact ⟨g.fpstat, g.n, rfl⟩
  obtain ⟨f, n, h⟩ := hclosed
  unfold savedGroup
  dsimp only
  rw [h]
  dsimp only
  cases hw : g.saveWay <;>
    exact ⟨rfl, rfl, rfl, rfl, rfl, rfl, rfl, by simp only [savedCells, hw, dropDead], by simp only [savedCells, hw, dropDead]⟩

theorem SavedAs.woken {g h k : Group} (hgh : SavedAs g h) (hhk : Woken h k) : SavedAs g k := by
  obtain ⟨hk, hst⟩ := hhk
  obtain ⟨status, saveDue, pc, sregs, kregs, live, x, vregs, tiles⟩ := hgh
  refine ⟨hst status, ?_, ?_, ?_, ?_, ?_, ?_, ?_, ?_⟩ <;> (rw [hk]; assumption)

theorem cellGet_filter {w : Nat} (m : Cells w) (p : Nat → Bool) (k : Nat) :
    cellGet (m.filter (fun c => p c.1)) k = if p k then cellGet m k else 0 := by
  have h : amGet? (m.filter (fun c => p c.1)) k = if p k then amGet? m k else none := by
    induction m with
    | nil => simp [amGet?]
    | cons c cs ih =>
      obtain ⟨j, v⟩ := c
      by_cases hj : p j = true
      · by_cases hk : k = j
        · subst hk; simp [hj, amGet?]
        · simp [hj, amGet?, hk, ih]
      · by_cases hk : k = j
        · subst hk; simp [hj, ih]
        · simp [hj, amGet?, hk, ih]
  unfold cellGet amGetD
  rw [h]
  split <;> rfl

/-! ### A team is saved -/

theorem groupsStep_imagePart (team : Nat) (t : Team) (p : Nat) (e : PartEnt) (s : State) : GroupsStep Woken s (imagePart team t p e s) :=
  .of_eq Woken.refl rfl rfl

theorem groupsStep_liftStaged (team : Nat) (s : State) : GroupsStep Woken s (liftStaged team s) :=
  ⟨(homeStep_wakeAll _).groups.g, (homeStep_wakeAll _).groups.rest⟩

theorem groupsStep_modTeam (team : Nat) (f : Team → Team) (s : State) : GroupsStep Woken s (modTeam team f s) :=
  .of_eq Woken.refl rfl rfl

theorem groupsStep_writeBlock (team : Nat) (s : State) : GroupsStep Woken s (writeBlock team s) := by
  unfold writeBlock
  split
  · exact .refl Woken.refl s
  · split
    · exact .refl Woken.refl s
    · have h := fun lo n => (homeStep_flushRange lo n s).groups
      exact ⟨(h _ _).g, (h _ _).rest⟩

/-- A team without stash maps is saved, and its groups are no more than woken. -/
theorem groupsStep_saveTeam {team : Nat} {s : State} (hstash : ∀ tm, teamOf s team = some tm → tm.stash = []) :
    GroupsStep Woken s (saveTeam team s) := by
  have trans : ∀ {a b c : State}, GroupsStep Woken a b → GroupsStep Woken b c → GroupsStep Woken a c :=
    fun h h' => h.trans (R := Woken) (fun h h' => h.trans h') h'
  have images : ∀ (l : List (PartEnt × Nat)) (t : Team) (u : State),
      GroupsStep Woken u (l.foldl (fun s p => imagePart team t p.2 p.1 s) u) := by
    intro l t
    induction l with
    | nil => exact fun u => .refl Woken.refl u
    | cons p ps ih => exact fun u => trans (groupsStep_imagePart _ _ _ _ u) (ih _)
  unfold saveTeam
  split
  case h_1 => exact .refl Woken.refl s
  case h_2 t ht =>
    split
    · exact .refl Woken.refl s
    · rw [hstash t ht]
      simp only [List.foldl_nil]
      exact trans (trans (trans (images _ t s) (groupsStep_liftStaged team _)) (groupsStep_modTeam team _ _))
        (groupsStep_writeBlock team _)

/-! ### The forced save -/

@[simp] theorem noTimer_g (e : Event) (s : State) : (noTimer e s).g = s.g := rfl
@[simp] theorem noTimer_rest (e : Event) (s : State) : (noTimer e s).rest = s.rest := rfl
@[simp] theorem noTimer_d (e : Event) (s : State) : (noTimer e s).d = s.d := rfl
@[simp] theorem noGroupTimers_g (gid : Nat) (s : State) : (noGroupTimers gid s).g = s.g := foldl_kept State.g (fun _ _ => noTimer_g _ _) _ _
@[simp] theorem noGroupTimers_rest (gid : Nat) (s : State) : (noGroupTimers gid s).rest = s.rest :=
  foldl_kept State.rest (fun _ _ => noTimer_rest _ _) _ _
@[simp] theorem noGroupTimers_d (gid : Nat) (s : State) : (noGroupTimers gid s).d = s.d := foldl_kept State.d (fun _ _ => noTimer_d _ _) _ _
@[simp] theorem withdraw_g (gid : Nat) (s : State) : (withdraw gid s).g = s.g := rfl
@[simp] theorem withdraw_rest (gid : Nat) (s : State) : (withdraw gid s).rest = s.rest := rfl
@[simp] theorem withdraw_teams (gid : Nat) (s : State) : (withdraw gid s).d.teams = s.d.teams := rfl

theorem saveGroup_found {s : State} {gid : Nat} {g : Group} (hg : findGroup s gid = some g)
    (hstash : ∀ tm, teamOf s g.idn.team = some tm → tm.stash = []) : ∃ h, findGroup (saveGroup gid s) gid = some h ∧ SavedAs g h := by
  have hkeep : ∀ k, (savedGroup k).idn = k.idn := by
    intro k
    unfold savedGroup
    dsimp only
    have hc : (if k.n.mxs.any (fun c => c.batch == 0) then closeBatch k else k).idn = k.idn := by
      split
      · obtain ⟨f, n, h⟩ := settleMx_eq (k.n.batches ++ [k.n.batchCtr]) { k with n := { k.n with
          mxs := k.n.mxs.map (fun c => if c.batch = 0 then { c with batch := k.n.batchCtr } else c)
          batches := k.n.batches ++ [k.n.batchCtr]
          batchCtr := k.n.batchCtr + 1 } }
        rw [show closeBatch k = _ from h]
      · rfl
    split <;> exact hc
  have hmod : findGroup (noGroupTimers gid (withdraw gid (modGroup gid savedGroup s))) gid = some (savedGroup g) := by
    rw [findGroup_congr (noGroupTimers_g _ _) (noGroupTimers_rest _ _), findGroup_congr (withdraw_g _ _) (withdraw_rest _ _)]
    exact found_modGroup hg fun k => congrArg GIdent.gid (hkeep k)
  have hteam : ∀ tm, teamOf (noGroupTimers gid (withdraw gid (modGroup gid savedGroup s))) g.idn.team = some tm → tm.stash = [] := by
    intro tm htm
    refine hstash tm ?_
    rw [← htm]
    simp [teamOf]
  obtain ⟨h, hh, hw⟩ := (groupsStep_saveTeam hteam).findGroup (fun h => by rw [h.1]) hmod
  refine ⟨h, ?_, (savedGroup_savedAs g).woken hw⟩
  unfold saveGroup
  rw [hg]
  exact (findGroup_congr (settlePreempts_g _) (settlePreempts_rest _) gid).trans hh

/-- The group as a forced save finds it: the save of a group that runs, or is in its handler, is made with every register. -/
def forcedWay (g : Group) : Group := if !g.halt && (g.status == .running || g.x.sup) then { g with saveWay := .forced } else g

theorem timer_set (n : Nat) (e : Event) (s : State) : ∃ k, (k, e) ∈ (timer n e s).timers := by
  unfold timer
  split
  · next h =>
    obtain ⟨⟨k, e'⟩, hmem, he⟩ := List.any_eq_true.mp h
    exact ⟨k, by rwa [← eq_of_beq he]⟩
  · exact ⟨s.tick + n, List.mem_append_right _ (List.mem_singleton_self _)⟩

section
variable {s : State} {gid : Nat} {g : Group}

theorem forcedSave_run (hev : s.ev = some (.forced_save gid)) (hg : findGroup s gid = some g) (hdue : g.saveDue = true) :
    ∃ u, exec .forced_save s = .next (if drained g then saveGroup gid u else haltGroup gid u) ∧ findGroup u gid = some (forcedWay g)
      ∧ u.m = s.m ∧ u.d = s.d := by
  have hx : exec .forced_save s = execForcedSave s := rfl
  rw [hx, execForcedSave, hev]
  refine ⟨if !g.halt && (g.status == .running || g.x.sup) then modGroup gid (fun g => { g with saveWay := .forced }) s else s, ?_, ?_, ?_, ?_⟩
  · simp only [forcedSave, hg, hdue, Bool.not_true, Bool.false_eq_true, if_false]
  · unfold forcedWay
    split
    · exact found_modGroup hg fun _ => rfl
    · exact hg
  · split <;> simp
  · split <;> simp

theorem forcedWay_kept (g : Group) : (forcedWay g).pc = g.pc ∧ (forcedWay g).sregs = g.sregs ∧ (forcedWay g).kregs = g.kregs
    ∧ (forcedWay g).vregs = g.vregs ∧ (forcedWay g).tiles = g.tiles ∧ (forcedWay g).live = g.live ∧ (forcedWay g).x = g.x
    ∧ (forcedWay g).idn = g.idn ∧ (forcedWay g).saveDue = g.saveDue ∧ (forcedWay g).hostDue = g.hostDue
    ∧ (forcedWay g).hostVals = g.hostVals := by
  unfold forcedWay
  split <;> exact ⟨rfl, rfl, rfl, rfl, rfl, rfl, rfl, rfl, rfl, rfl, rfl⟩

/-- A save that is not of a safe point keeps every register and tile. -/
theorem savedCells_forcedWay (h : ∀ e, g.saveWay ≠ .safePoint e) : savedCells (forcedWay g) = forcedWay g := by
  unfold savedCells
  split
  case h_2 => rfl
  case h_1 e he =>
    unfold forcedWay at he
    split at he
    · exact absurd he (by simp)
    · exact absurd he (h e)

/-- The save of a halted group at a safe point keeps the registers that it names. -/
theorem savedCells_safePoint {e : BitVec 1024} (he : g.saveWay = .safePoint e) (hh : g.halt = true) (r l : Nat) (hl : l < 32) :
    cellGet (savedCells (forcedWay g)).vregs (32 * r + l) = if e.getLsbD r then cellGet g.vregs (32 * r + l) else 0 := by
  have hf : forcedWay g = g := by simp [forcedWay, hh]
  have hr : (32 * r + l) / 32 = r := by omega
  rw [hf, savedCells, he]
  have hcell := cellGet_filter g.vregs (fun k => e.getLsbD (k / 32)) (32 * r + l)
  rw [hr] at hcell
  exact hcell

/-- A group that cannot be saved yet is halted. -/
theorem haltGroup_spec {u : State} {k : Group} (hk : findGroup u gid = some k) : (haltGroup gid u).m = u.m
    ∧ findGroup (haltGroup gid u) gid = some { k with halt := true, urgent := false } ∧ ∃ n, (n, .forced_save gid) ∈ (haltGroup gid u).timers := by
  refine ⟨?_, ?_, timer_set _ _ _⟩
  · rw [haltGroup, timer_m]; exact modGroup_m _ _ _
  · rw [haltGroup, findGroup_congr (timer_g _ _ _) (timer_rest _ _ _)]
    exact found_modGroup hk fun _ => rfl

end

end Sys2Proof.Machine
end

section
/-! SUPPORT. Engine commands that park and what a group's boundary delivers (R43 to R46, R356, R453, R457). -/
namespace Sys2Proof.Machine

/-! ### A delivery ends the group's wait -/

/-- The group at issue as the end of its wait leaves it, at a time. -/
def waitEnded (rdy : Nat) (g : Group) : Group :=
  { g with rdy := rdy, watch := none, yieldFor := [], timedOut := false, hostVals := [], snooped := [], bbOn := none }

theorem endWait_kept {gid : Nat} {s : State} (h : s.g.idn.gid = gid) : (∃ rdy, (endWait gid s).g = waitEnded rdy s.g)
    ∧ (endWait gid s).ctxs = s.ctxs ∧ (endWait gid s).d.grids = s.d.grids := by
  have htimers := foldl_kept (fun s : State => (s.g, s.ctxs, s.d)) (f := fun s e => noTimer e s) (fun _ _ => rfl)
    [Event.yield_expiry gid, .sleep_expiry gid, .vnbr_timeout gid, .vxshf_timeout gid] s
  simp only [Prod.mk.injEq] at htimers
  obtain ⟨hg, hc, hd⟩ := htimers
  unfold endWait
  dsimp only
  generalize [Event.yield_expiry gid, .sleep_expiry gid, .vnbr_timeout gid, .vxshf_timeout gid].foldl (fun s e => noTimer e s) s = u at *
  refine ⟨?_, (modGroup_ctxs _ _ _).trans hc, ?_⟩
  · unfold modGroup
    rw [if_pos (by rw [withdraw_g, hg, h]), withdraw_g, hg]
    exact ⟨_, rfl⟩
  · rw [modGroup_d]
    rw [← hd]; rfl

/-- The state in which a parked or written-back fault is delivered to the group at issue. -/
def atDelivery (s : State) : State :=
  { endWait s.g.idn.gid s with g := { (endWait s.g.idn.gid s).g with x := { (endWait s.g.idn.gid s).g.x with doneMask := 0 } } }

theorem atDelivery_kept (s : State) : (∃ rdy, (atDelivery s).g = { waitEnded rdy s.g with x := { s.g.x with doneMask := 0 } })
    ∧ (atDelivery s).ctxs = s.ctxs := by
  obtain ⟨⟨rdy, hg⟩, hc, -⟩ := endWait_kept (s := s) rfl
  refine ⟨⟨rdy, ?_⟩, hc⟩
  rw [atDelivery, hg]
  rfl

theorem handlerOf_congr {s t : State} (hg : t.g.idn.ctx = s.g.idn.ctx) (hc : t.ctxs = s.ctxs) : handlerOf t = handlerOf s := by
  rw [handlerOf, handlerOf, gCtx, gCtx, ctxOf_congr hc, hg]

@[simp] theorem swapBank_n (g : Group) : (swapBank g).n = g.n := by simp only [swapBank]
@[simp] theorem swapBank_backFlts (g : Group) : (swapBank g).x.backFlts = g.x.backFlts := by simp only [swapBank]

/-- A delivery enters the handler with lane 0's mask (R43, R46). -/
theorem enterHandler_atDelivery (cause : HandlerCause) (fc : Word32) (va : Word64) (s : State) :
    let t := enterHandler cause fc va 1 0 (atDelivery s).g.live (atDelivery s).g.pc (atDelivery s)
    t.g.x.sup = true ∧ t.g.x.cause = cause ∧ t.g.x.faultMask = 1 ∧ t.g.live = 1 ∧ t.g.x.doneMask = 0
      ∧ t.g.x.faultCode = fc ∧ t.g.x.faultVa = va ∧ t.g.x.epc = s.g.pc ∧ t.g.x.liveSave = s.g.live ∧ t.g.pc = handlerOf s
      ∧ t.g.status = .running ∧ t.g.n = s.g.n ∧ t.g.x.backFlts = s.g.x.backFlts := by
  obtain ⟨⟨rdy, hg⟩, hc⟩ := atDelivery_kept s
  have hh : handlerOf (atDelivery s) = handlerOf s := handlerOf_congr (by rw [hg]; rfl) hc
  simp only [enterHandler, swapBank_n, swapBank_backFlts, hh, hg, waitEnded, and_self]

/-! ### A parked fault that goes to the host -/

theorem parkEnters_congr {s t : State} {g h : Group} (hc : t.ctxs = s.ctxs) (hidn : h.idn = g.idn) (fc : Word32) :
    parkEnters t h fc = parkEnters s g fc := by
  rw [parkEnters, parkEnters, ctxOf_congr hc, hidn]

/-- The record of an engine command's fault (R454, R457). -/
def engineRec (s : State) (src : BitVec 3) (fc : Word32) (fva : Word64) (mask : Word32) (cmd : Word64 × Word64 × Word64 × Word64)
    (g : Group) : FaultRec :=
  { recOfGroup s src fc fva mask g.pc g with first := 0, cmd0 := cmd.1, cmd1 := cmd.2.1, cmd2 := cmd.2.2.1, cmd3 := cmd.2.2.2 }

theorem parkToHost_sends {s : State} {gid : Nat} {g : Group} (hg : findGroup s gid = some g) {fc : Word32} (hfc : fc.toNat % 65536 ≠ 11)
    (matrix : Bool) (fva : Word64) (k : Group) (mask : Word32) (cmd : Word64 × Word64 × Word64 × Word64) :
    .fault_record (engineRec s (if matrix then 2 else 1) fc fva mask cmd g) ∈ (parkToHost gid matrix fc fva k mask cmd s).agenda := by
  have hne : ¬fc.toNat % 65536 = fECCU := hfc
  unfold parkToHost
  rw [if_neg hne]
  unfold escalateCmd
  rw [hg]
  exact agenda_subset_applyPolicy _ _ _ _ (List.mem_append_right _ (List.mem_singleton_self _))

/-- A copy's parked fault goes to the host with the copy's record. -/
theorem parkOut_copy_sends {s : State} {gid slot : Nat} {g k : Group} {c : CopyCmd} (hg : findGroup s gid = some g)
    (hc : findCopy k slot = some c) (hfc : c.fcode.toNat % 65536 ≠ 11) : ∃ r, .fault_record r ∈ (parkOut gid (false, slot) k s).agenda
      ∧ r.src = 1 ∧ r.fcode = c.fcode ∧ r.fva = c.fva ∧ r.pc = g.pc ∧ r.cmd1 = c.d1 ∧ r.cmd2 = c.d2 ∧ r.cmd3 = c.d3 := by
  have hout : parkOut gid (false, slot) k s = parkToHost gid false c.fcode c.fva k 0 (copyDword0 k c, c.d1, c.d2, c.d3) s := by
    simp only [parkOut, hc, Bool.false_eq_true, if_false]
  rw [hout]
  exact ⟨_, parkToHost_sends hg hfc _ _ _ _ _, rfl, rfl, rfl, rfl, rfl, rfl, rfl⟩

/-- A matrix command's parked fault goes to the host with the command's record. -/
theorem parkOut_mx_sends {s : State} {gid slot : Nat} {g k : Group} {c : MxCmd} (hg : findGroup s gid = some g)
    (hc : findMx k slot = some c) (hfc : c.fcode.toNat % 65536 ≠ 11) : ∃ r, .fault_record r ∈ (parkOut gid (true, slot) k s).agenda
      ∧ r.src = 2 ∧ r.fcode = c.fcode ∧ r.fva = c.fva ∧ r.pc = g.pc ∧ r.cmd1 = c.c0 ∧ r.cmd2 = c.c1 ∧ r.cmd3 = c.dn := by
  have hout : parkOut gid (true, slot) k s = parkToHost gid true c.fcode c.fva k (w32 c.step) (mxCmdWords c) s := by
    simp only [parkOut, hc, if_true]
  rw [hout]
  exact ⟨_, parkToHost_sends hg hfc _ _ _ _ _, rfl, rfl, rfl, rfl, rfl, rfl, rfl⟩

/-- A parked command of either engine. -/
theorem parkOut_sends {s : State} {gid : Nat} {p : Bool × Nat} {g k : Group} {fc : Word32} {va : Word64} (hg : findGroup s gid = some g)
    (hp : parkedFault k p = some (fc, va)) (hfc : fc.toNat % 65536 ≠ 11) : ∃ r, .fault_record r ∈ (parkOut gid p k s).agenda
      ∧ r.src = (if p.1 then 2 else 1) ∧ r.fcode = fc ∧ r.fva = va ∧ r.pc = g.pc := by
  obtain ⟨matrix, slot⟩ := p
  cases matrix
  · obtain ⟨c, hc, hcf⟩ := Option.map_eq_some_iff.mp (show (findCopy k slot).map (fun c => (c.fcode, c.fva)) = some (fc, va) from hp)
    cases hcf
    obtain ⟨r, hr, hsrc, hcode, hva, hpc, -⟩ := parkOut_copy_sends hg hc hfc
    exact ⟨r, hr, hsrc, hcode, hva, hpc⟩
  · obtain ⟨c, hc, hcf⟩ := Option.map_eq_some_iff.mp (show (findMx k slot).map (fun c => (c.fcode, c.fva)) = some (fc, va) from hp)
    cases hcf
    obtain ⟨r, hr, hsrc, hcode, hva, hpc, -⟩ := parkOut_mx_sends hg hc hfc
    exact ⟨r, hr, hsrc, hcode, hva, hpc⟩

/-! ### PARKED_FAULT_DELIVERY -/

section
variable {s : State} {p : Bool × Nat} {ps : List (Bool × Nat)} {fc : Word32} {va : Word64}

/-- The group at issue without the first of its parked commands. -/
def parkedTaken (ps : List (Bool × Nat)) (s : State) : State := { s with g := { s.g with n := { s.g.n with parkQ := ps } } }

theorem parkedFaultDelivery_run (hb : s.g.x.backFlts = []) (hq : s.g.n.parkQ = p :: ps) (hp : parkedFault s.g p = some (fc, va)) :
    let u := atDelivery (parkedTaken ps s)
    exec .parked_fault_delivery s = if !parkEnters u u.g fc then .next (parkOut u.g.idn.gid p u.g u)
      else .next (enterHandler .parked fc va 1 0 u.g.live u.g.pc u) := by
  have hx : exec .parked_fault_delivery s = execParkedFaultDelivery s := rfl
  have hp' : parkedFault (parkedTaken ps s).g p = some (fc, va) := hp
  rw [hx, execParkedFaultDelivery, hb, hq]
  unfold parkedTaken at hp'
  simp only [hp']
  rfl

/-- Delivering a parked fault leaves what the handler's entry turns on. -/
theorem parkEnters_atDelivery (fc : Word32) :
    parkEnters (atDelivery (parkedTaken ps s)) (atDelivery (parkedTaken ps s)).g fc = parkEnters s s.g fc := by
  obtain ⟨⟨rdy, hg⟩, hc⟩ := atDelivery_kept (parkedTaken ps s)
  exact parkEnters_congr hc (by rw [hg]; rfl) fc

/-- A write-back's fault that the handler takes. -/
theorem backFaultDelivery_run {bs : List (Word32 × Word64)} (hb : s.g.x.backFlts = (fc, va) :: bs)
    (hen : entersHandler s (fc.toNat % 65536) (fc.toNat / 2 ^ 28) = true) :
    let u := atDelivery { s with g := { s.g with x := { s.g.x with backFlts := bs } } }
    exec .parked_fault_delivery s = .next (enterHandler .back fc va 1 0 u.g.live u.g.pc u) := by
  intro u
  obtain ⟨⟨rdy, hg⟩, hc⟩ := atDelivery_kept { s with g := { s.g with x := { s.g.x with backFlts := bs } } }
  have hen' : entersHandler u (fc.toNat % 65536) (fc.toNat / 2 ^ 28) = true := by
    have hh : handlerOf u = handlerOf s := handlerOf_congr (by rw [hg]; rfl) hc
    have hsup : u.g.x.sup = s.g.x.sup := by rw [hg]
    rw [← hen, entersHandler, entersHandler, hh, hsup]
  have hx : exec .parked_fault_delivery s = execParkedFaultDelivery s := rfl
  rw [hx, execParkedFaultDelivery, hb]
  exact congrArg Host.Outcome.next (if_pos hen')

end

/-! ### ECCU_DELIVERY -/

theorem rootGrid_congr {s t : State} (h : t.d.grids = s.d.grids) (n g : Nat) : rootGrid t n g = rootGrid s n g := by
  induction n generalizing g with
  | zero => rfl
  | succ n ih => simp only [rootGrid, h, ih]

theorem rollsBack_congr {s t : State} {g k : Group} (h : t.d.grids = s.d.grids) (hidn : k.idn = g.idn) : rollsBack t k = rollsBack s g := by
  simp only [rollsBack, gridOf, hidn, h, rootGrid_congr h]

theorem faultWord_toNat (f : Flt) :
    (faultWord f 0 0).toNat = (f.code + f.acc * 2 ^ 16 + f.level * 2 ^ 19 + f.detail * 2 ^ 28) % 2 ^ 32 := by
  rw [faultWord_zero, BitVec.toNat_ofNat]

theorem faultWord_code (f : Flt) : (faultWord f 0 0).extractLsb' 0 16 = BitVec.ofNat 16 f.code := by
  have hsum : ∀ c a l d : Nat, (c + a * 2 ^ 16 + l * 2 ^ 19 + d * 2 ^ 28) % 2 ^ 32 % 2 ^ 16 = c % 2 ^ 16 := fun c a l d => by omega
  apply BitVec.eq_of_toNat_eq
  rw [BitVec.extractLsb'_toNat, Nat.shiftRight_zero, faultWord_toNat, hsum, BitVec.toNat_ofNat]

theorem faultWord_acc {f : Flt} (hc : f.code < 2 ^ 16) : (faultWord f 0 0).extractLsb' 16 3 = BitVec.ofNat 3 f.acc := by
  have hsum : ∀ c a l d : Nat, c < 2 ^ 16 → (c + a * 2 ^ 16 + l * 2 ^ 19 + d * 2 ^ 28) % 2 ^ 32 / 2 ^ 16 % 2 ^ 3 = a % 2 ^ 3 :=
    fun c a l d hc => by omega
  apply BitVec.eq_of_toNat_eq
  rw [BitVec.extractLsb'_toNat, Nat.shiftRight_eq_div_pow, faultWord_toNat, hsum _ _ _ _ hc, BitVec.toNat_ofNat]

theorem eccuDelivery_run {s : State} {va : Word64} {acc : BitVec 3} (he : s.g.x.eccu = some (va, acc)) (hr : rollsBack s s.g = none) :
    ∃ u mask, u.g.pc = s.g.pc ∧ exec .eccu_delivery s = .next
      (escalate 0 (faultWord { flt fECCU with acc := acc.toNat, va := va } 0 0) va mask 0 s.g.pc (0, 0, 0, 0) u) := by
  obtain ⟨⟨rdy, hg⟩, -, hd⟩ := endWait_kept (s := { s with g := { s.g with x := { s.g.x with eccu := none } } }) (gid := s.g.idn.gid) rfl
  have hx : exec .eccu_delivery s = execEccuDelivery s := rfl
  rw [hx, execEccuDelivery, he]
  dsimp only
  generalize hu : endWait s.g.idn.gid { s with g := { s.g with x := { s.g.x with eccu := none } } } = u at hg hd
  have hroll : rollsBack u u.g = none := (rollsBack_congr (s := s) (g := s.g) hd (by rw [hg]; rfl)).trans hr
  have hpc : u.g.pc = s.g.pc := by rw [hg]; rfl
  rw [hroll]
  exact ⟨(drawFree u).2, _, hpc, by rw [← hpc]⟩

/-! ### PARK -/

theorem find?_dropWhile {α : Type} {p q : α → Bool} (h : ∀ a, q a = true → p a = false) (l : List α) :
    (l.dropWhile q).find? p = l.find? p := by
  induction l with
  | nil => rfl
  | cons a as ih =>
    by_cases hq : q a = true
    · rw [List.dropWhile_cons_of_pos hq, ih, List.find?_cons_of_neg (by simp [h a hq])]
    · rw [List.dropWhile_cons_of_neg hq]

/-- A change of one entry that keeps what the search looks at. -/
theorem find?_map_changed {α : Type} {p : α → Bool} {f : α → α} (hp : ∀ a, p (f a) = p a) {l : List α} {a : α} (h : l.find? p = some a) :
    (l.map (fun b => if p b then f b else b)).find? p = some (f a) := by
  have hcomp : p ∘ (fun b => if p b then f b else b) = p := by
    funext b
    simp only [Function.comp]
    split
    · exact hp b
    · rfl
  rw [List.find?_map, hcomp, h, Option.map_some, if_pos (List.find?_some h)]

section
variable {g : Group} {slot : Nat} {fc : Word32} {va : Word64}

/-- A group after a copy's command has parked. -/
def copyParked (slot : Nat) (fc : Word32) (va : Word64) (g : Group) : Group :=
  { g with n := { g.n with
    cps := settleCps (g.n.cps.map (fun c => if c.slot = slot ∧ !c.finished then { c with parked := true, fcode := fc, fva := va } else c)) } }

/-- A group after a matrix command has parked. -/
def mxParked (slot : Nat) (fc : Word32) (va : Word64) (g : Group) : Group :=
  { g with n := { g.n with
    mxs := g.n.mxs.map (fun c => if c.slot = slot ∧ !mxDone c then { c with parked := true, fcode := fc, fva := va } else c) } }

theorem findCopy_copyParked {c : CopyCmd} (h : findCopy g slot = some c) :
    findCopy (copyParked slot fc va g) slot = some { c with parked := true, fcode := fc, fva := va } := by
  have hmap := find?_map_changed (f := fun c : CopyCmd => { c with parked := true, fcode := fc, fva := va })
    (p := fun c => c.slot == slot && !c.finished) (fun _ => rfl) (by unfold findCopy at h; exact h)
  unfold findCopy copyParked settleCps
  rw [find?_dropWhile (fun c hc => by simp [hc])]
  simpa only [Bool.and_eq_true, beq_iff_eq] using hmap

theorem findMx_mxParked {c : MxCmd} (h : findMx g slot = some c) :
    findMx (mxParked slot fc va g) slot = some { c with parked := true, fcode := fc, fva := va } := by
  have hmap := find?_map_changed (f := fun c : MxCmd => { c with parked := true, fcode := fc, fva := va })
    (p := fun c => c.slot == slot && !mxDone c) (fun _ => rfl) (by unfold findMx at h; exact h)
  unfold findMx mxParked
  simpa only [Bool.and_eq_true, beq_iff_eq] using hmap

end

/-- The group after its command has parked. -/
def cmdParked (matrix : Bool) (slot : Nat) (fc : Word32) (va : Word64) : Group → Group :=
  if matrix then mxParked slot fc va else copyParked slot fc va

section
variable {s : State} {matrix : Bool} {gid slot : Nat} {g : Group} {fc : Word32} {va : Word64}

/-- PARK: the command has parked, and its fault is queued for the group's boundary, or goes to the host there. -/
theorem park_run (hev : s.ev = some (.park matrix gid slot fc va)) (hg : findGroup s gid = some g)
    (hc : (if matrix then (findMx g slot).isNone else (findCopy g slot).isNone) = false) :
    ∃ u, findGroup u gid = some (cmdParked matrix slot fc va g) ∧ exec .park s
      = .next (if !parkEnters s g fc && atBoundary g && g.n.parkQ.isEmpty then parkOut gid (matrix, slot) (cmdParked matrix slot fc va g) u
        else modGroup gid (fun h => { h with n := { h.n with parkQ := h.n.parkQ ++ [(matrix, slot)] } }) u) := by
  have hkeep : ∀ k, (cmdParked matrix slot fc va k).idn.gid = k.idn.gid := by
    intro k; cases matrix <;> rfl
  have hmod := found_modGroup hg hkeep
  have hx : exec .park s = execPark s := rfl
  refine ⟨modGroup gid (cmdParked matrix slot fc va) s, hmod, ?_⟩
  rw [hx, execPark, hev]
  simp only [parkCmd, hg, hc, Bool.false_eq_true, if_false]
  have hu : (if matrix then modMx gid slot (fun c => { c with parked := true, fcode := fc, fva := va }) s
      else modCopy gid slot (fun c => { c with parked := true, fcode := fc, fva := va }) s) = modGroup gid (cmdParked matrix slot fc va) s := by
    cases matrix <;> rfl
  rw [hu, hmod, parkEnters_congr (modGroup_ctxs _ _ _) rfl]
  rfl

/-- A fault that waits for the group's boundary. -/
theorem park_queued (hev : s.ev = some (.park matrix gid slot fc va)) (hg : findGroup s gid = some g)
    (hc : (if matrix then (findMx g slot).isNone else (findCopy g slot).isNone) = false)
    (hwait : parkEnters s g fc = true ∨ atBoundary g = false ∨ g.n.parkQ ≠ []) : ∃ t, exec .park s = .next t ∧
      findGroup t gid = some { cmdParked matrix slot fc va g with
        n := { (cmdParked matrix slot fc va g).n with parkQ := (cmdParked matrix slot fc va g).n.parkQ ++ [(matrix, slot)] } } := by
  obtain ⟨u, hu, hrun⟩ := park_run hev hg hc
  rw [if_neg] at hrun
  · exact ⟨_, hrun, found_modGroup hu fun _ => rfl⟩
  · rcases hwait with h | h | h <;> simp [h]

/-- A fault that goes to the host at once. -/
theorem park_out (hev : s.ev = some (.park matrix gid slot fc va)) (hg : findGroup s gid = some g)
    (hc : (if matrix then (findMx g slot).isNone else (findCopy g slot).isNone) = false)
    (hno : parkEnters s g fc = false) (hb : atBoundary g = true) (hq : g.n.parkQ = []) :
    ∃ u, findGroup u gid = some (cmdParked matrix slot fc va g)
      ∧ exec .park s = .next (parkOut gid (matrix, slot) (cmdParked matrix slot fc va g) u) := by
  obtain ⟨u, hu, hrun⟩ := park_run hev hg hc
  rw [if_pos (by simp [hno, hb, hq])] at hrun
  exact ⟨u, hu, hrun⟩

end

end Sys2Proof.Machine
end

section
/-! PROOF. O49: the end of a transfer (R122), and the statement. -/
namespace Sys2Proof.Machine

/-! ### A queue settles after its command has closed -/

theorem complete_running (c : QCmd) (st code res : Nat) (s : State) : (complete c st code res s).q.running ⊆ s.q.running := by
  obtain ⟨q, hq, hr, -⟩ := closeCmd_eq c s
  unfold complete
  dsimp only
  split
  · exact List.Subset.refl _
  · rw [hq]
    exact (congrArg (· ⊆ s.q.running) hr).mpr (List.filter_sublist.subset)

theorem settleQueue_kept (n : Nat) (s : State) : (settleQueue n s).q.xfers = s.q.xfers ∧ (settleQueue n s).q.running ⊆ s.q.running := by
  unfold settleQueue
  split
  · split
    · split
      · exact ⟨complete_xfers _ _ _ _ _, complete_running _ _ _ _ _⟩
      · exact ⟨rfl, List.Subset.refl _⟩
    · exact ⟨rfl, List.Subset.refl _⟩
  · exact ⟨rfl, List.Subset.refl _⟩

/-! ### The record of a transfer, and its bytes -/

section
variable {s u v : State} {id : Nat} {x y : Xfer}

theorem transferFinish_run (hev : s.ev = some (.transfer_finish id)) : exec .transfer_finish s = .next (transferFinish id s) := by
  have hx : exec .transfer_finish s = execTransferFinish s := rfl
  rw [hx, execTransferFinish, hev]

/-- A finished transfer whose record is written closes its command. -/
theorem recordXfer_ok {ring : Ring} (hb : ringBehind s id x = false) (hh : recordHolds s x.cmd.id = false)
    (hr : xferRing x s = (.inr ring, u)) (hput : ringPut (.virt x.ctx) ring 16 (fun prod => xferBits x (lapBit ring prod))
      (flushHandles true x.ctx ((x.cmd.uses.filter (fun h => h.wr)).map (fun h => h.idx)) u) = .ok v) :
    recordXfer id x s = settleQueue x.cmd.queue (closeCmd x.cmd { v with q := { v.q with xfers := amDel v.q.xfers id } }) := by
  simp only [recordXfer, hb, hh, Bool.or_self, Bool.false_eq_true, if_false, hr, hput]

theorem transferFinish_recorded (hx : amGet? s.q.xfers id = some x) (hp : x.parked = false) (hf : x.finished = true) :
    transferFinish id s = recordXfer id x s := by
  simp [transferFinish, hx, hp, hf]

/-- A transfer whose command is closed is gone, and its command runs no more. -/
theorem settled_closed (id : Nat) (c : QCmd) (v : State) :
    amGet? (settleQueue c.queue (closeCmd c { v with q := { v.q with xfers := amDel v.q.xfers id } })).q.xfers id = none
      ∧ c.id ∉ (settleQueue c.queue (closeCmd c { v with q := { v.q with xfers := amDel v.q.xfers id } })).q.running := by
  obtain ⟨q, hq, hrun, hxf, -⟩ := closeCmd_eq c { v with q := { v.q with xfers := amDel v.q.xfers id } }
  obtain ⟨hkx, hkr⟩ := settleQueue_kept c.queue (closeCmd c { v with q := { v.q with xfers := amDel v.q.xfers id } })
  rw [hq] at hkx hkr ⊢
  refine ⟨?_, fun hmem => ?_⟩
  · rw [hkx]
    exact (congrArg (amGet? · id) hxf).trans (amGet?_amDel_same _ _)
  · have := hkr hmem
    rw [hrun] at this
    simp at this

/-- A transfer that moves bytes and neither finishes nor goes on to its record stands as its bytes leave it. -/
theorem transferFinish_moved (hx : amGet? s.q.xfers id = some x) (hp : x.parked = false) (hf : x.finished = false)
    (ha : x.asked = false) (hc : ctxRuns s x.ctx = true) (hm : moveXfer id x s = u) (hy : amGet? u.q.xfers id = some y)
    (hstop : (y.finished && !y.parked) = false) : transferFinish id s = u := by
  simp [transferFinish, hx, hp, hf, ha, hc, hm, hy, hstop]

theorem moveXfer_waits (hw : xferRun x.len x s = .wait y u) :
    moveXfer id x s = { u with q := { u.q with xfers := amPut u.q.xfers id y } } := by
  rw [moveXfer, hw]

theorem moveXfer_parks {f : Flt} (hw : xferRun x.len x s = .fault f y u) (hf : f.code = 4) : moveXfer id x s = parkXfer id y f u := by
  have hpage : f.code = fPAGE := hf
  rw [moveXfer, hw]
  exact if_pos hpage

theorem parkXfer_xfers (f : Flt) : amGet? (parkXfer id y f u).q.xfers id = some { y with parked := true } := amGet?_amPut_same _ _ _

theorem parkXfer_sends (f : Flt) : .fault_record (xferFaultRec u y f) ∈ (parkXfer id y f u).agenda := mem_due _ _

end

/-! ### The statement's clauses -/

section
variable {s : State} {gid : Nat} {g : Group}

/-- Waking a group that waits on nothing but the time lets it run. -/
theorem wakeGroup_timed (hst : g.status = .waiting) (hw : g.watch = none) : wakeGroup s { g with timedOut := true }
    = { g with status := .running, timedOut := true, rdy := s.tick } := by
  simp [wakeGroup, hst, hw]

theorem wakeGroup_running (hst : g.status = .running) : wakeGroup s { g with timedOut := true } = { g with timedOut := true } := by
  simp [wakeGroup, hst]

theorem forcedSave_saves (hg : findGroup s gid = some g) (hev : s.ev = some (.forced_save gid)) (hdue : g.saveDue = true)
    (hd : drained g = true) (hstash : ∀ tm, teamOf s g.idn.team = some tm → tm.stash = []) :
    ∃ t, exec .forced_save s = .next t ∧ ∃ h, findGroup t gid = some h ∧ SavedAs (forcedWay g) h := by
  obtain ⟨u, hrun, hu, -, hud⟩ := forcedSave_run hev hg hdue
  obtain ⟨-, -, -, -, -, -, -, hidn, -⟩ := forcedWay_kept g
  rw [if_pos hd] at hrun
  exact ⟨_, hrun, saveGroup_found hu fun tm htm => hstash tm (by rw [hidn, teamOf, hud] at htm; exact htm)⟩

theorem forcedSave_halts (hg : findGroup s gid = some g) (hev : s.ev = some (.forced_save gid)) (hdue : g.saveDue = true)
    (hd : drained g = false) : ∃ t, exec .forced_save s = .next t ∧ t.m = s.m
      ∧ findGroup t gid = some { forcedWay g with halt := true, urgent := false } ∧ ∃ n, (n, .forced_save gid) ∈ t.timers := by
  obtain ⟨u, hrun, hu, hum, -⟩ := forcedSave_run hev hg hdue
  obtain ⟨hm, hfound, htimer⟩ := haltGroup_spec hu
  rw [if_neg (by simp [hd])] at hrun
  exact ⟨_, hrun, hm.trans hum, hfound, htimer⟩

end

/-- Settles O49: a delivery is an entry to the handler or an escalation from the group as its wait's end leaves it; a timer changes
its own group; a finished transfer's record closes its command. -/
theorem deliveryAndTimerResult : Obligations.DeliveryAndTimerResult := by
  intro s gid g hg
  dsimp only
  refine ⟨?_, ?_, ?_, ?_, ?_, ?_, ?_, ?_, ?_, ?_, ?_, ?_, ?_, ?_, ?_⟩
  case refine_1 =>
    intro hev hst
    refine ⟨_, urgent_run hev, modGroup_m _ _ _, _, found_modGroup hg fun k => by split <;> rfl, ?_⟩
    rw [if_pos hst]
    exact ⟨rfl, rfl, rfl⟩
  case refine_2 =>
    intro hev hst
    refine ⟨_, yieldExpiry_run hev, modGroup_m _ _ _, _, found_modGroup hg fun k => by split <;> rfl, ?_⟩
    rw [if_pos hst]
    exact ⟨rfl, rfl, rfl⟩
  case refine_3 =>
    intro hev hst
    have hg' : findGroup { s with nsec := Nat.max s.nsec g.wakeAt } gid = some g := hg
    refine ⟨_, sleepExpiry_run hev hg hst, ?_, modGroup_m _ _ _, _, found_modGroup hg' fun k => by split <;> rfl, ?_⟩
    · rw [modGroup_nsec]
      exact Nat.le_max_right _ _
    · rw [if_pos hst]
      exact ⟨rfl, rfl, rfl⟩
  case refine_4 =>
    intro hev hst hw
    obtain ⟨hm, hfound⟩ := timeUp_found hg (.inl hst)
    exact ⟨_, vnbrTimeout_run hev, hm, _, hfound.trans (congrArg some (wakeGroup_timed hst hw)), rfl, rfl, rfl⟩
  case refine_5 =>
    intro hev hst
    obtain ⟨hm, hfound⟩ := timeUp_found hg (.inr hst)
    exact ⟨_, vnbrTimeout_run hev, hm, _, hfound.trans (congrArg some (wakeGroup_running hst)), rfl, rfl, rfl⟩
  case refine_6 =>
    intro hev hst hw
    obtain ⟨hm, hfound⟩ := timeUp_found hg (.inl hst)
    exact ⟨_, vxshfTimeout_run hev, hm, _, hfound.trans (congrArg some (wakeGroup_timed hst hw)), rfl, rfl, rfl⟩
  case refine_7 =>
    intro hev hst
    obtain ⟨hm, hfound⟩ := timeUp_found hg (.inr hst)
    exact ⟨_, vxshfTimeout_run hev, hm, _, hfound.trans (congrArg some (wakeGroup_running hst)), rfl, rfl, rfl⟩
  case refine_8 =>
    intro hev hdue hd hstash
    obtain ⟨t, hrun, h, hh, hsaved⟩ := forcedSave_saves hg hev hdue hd hstash
    obtain ⟨hpc, hsregs, hkregs, hvregs, htiles, hlive, hx, -⟩ := forcedWay_kept g
    refine ⟨t, hrun, h, hh, hsaved.status, hsaved.saveDue, hsaved.pc.trans hpc, hsaved.sregs.trans hsregs, hsaved.kregs.trans hkregs,
      hsaved.live.trans hlive, hsaved.x.trans hx, fun hway => ?_, fun e he hhalt r l hl => ?_⟩
    · rw [hsaved.vregs, hsaved.tiles, savedCells_forcedWay hway]
      exact ⟨hvregs, htiles⟩
    · rw [hsaved.vregs]
      exact savedCells_safePoint he hhalt r l hl
  case refine_9 =>
    intro hev hdue hd
    obtain ⟨t, hrun, hm, hfound, n, hn⟩ := forcedSave_halts hg hev hdue hd
    obtain ⟨hpc, hsregs, -, hvregs, -, -, -, -, hsd, hhd, hhv⟩ := forcedWay_kept g
    exact ⟨t, hrun, hm, _, n, hfound, hn, rfl, hsd.trans hdue, hpc, hsregs, hvregs, fun h0 h1 => by
      simp [ready, hhd, hhv, h0, h1]⟩
  case refine_10 =>
    intro hsg
    subst hsg
    refine ⟨fun p ps fc va hb hq hp => ⟨fun hen => ?_, fun hen hfc => ?_⟩, fun fc va bs hb hen => ?_⟩
    · obtain ⟨hsup, hcause, hmask, hlive, hdone, hfcode, hfva, hepc, hls, hpc, hst, hn, -⟩ :=
        enterHandler_atDelivery .parked fc va (parkedTaken ps s)
      refine ⟨_, (parkedFaultDelivery_run hb hq hp).trans (if_neg (by rw [parkEnters_atDelivery, hen]; decide)), hsup, hcause, hmask, hlive,
        hdone, hfcode, hfva, hepc, hls, hpc, hst, ?_⟩
      rw [hn]; rfl
    · obtain ⟨⟨rdy, hu⟩, -⟩ := atDelivery_kept (parkedTaken ps s)
      have hfound : findGroup (atDelivery (parkedTaken ps s)) (atDelivery (parkedTaken ps s)).g.idn.gid
        = some (atDelivery (parkedTaken ps s)).g := if_pos rfl
      have hp' : parkedFault (atDelivery (parkedTaken ps s)).g p = some (fc, va) := by rw [hu]; exact hp
      obtain ⟨r, hr, hsrc, hcode, hva, hpc⟩ := parkOut_sends hfound hp' hfc
      refine ⟨_, (parkedFaultDelivery_run hb hq hp).trans (if_pos (by rw [parkEnters_atDelivery, hen]; decide)), r, hr, hsrc, hcode, hva, ?_⟩
      rw [hpc, hu]; rfl
    · obtain ⟨hsup, hcause, hmask, hlive, hdone, hfcode, hfva, hepc, hls, hpc, hst, hn, hbs⟩ :=
        enterHandler_atDelivery .back fc va { s with g := { s.g with x := { s.g.x with backFlts := bs } } }
      exact ⟨_, backFaultDelivery_run hb hen, hsup, hcause, hmask, hlive, hdone, hfcode, hfva, hepc, hls, hpc, hst, hbs, by rw [hn]⟩
  case refine_11 =>
    intro hsg va acc he hr
    subst hsg
    obtain ⟨u, mask, -, hrun⟩ := eccuDelivery_run he hr
    refine ⟨_, hrun, _, escalate_sends _ _ _ _ _ _ _ _, rfl, rfl, (faultWord_code _).trans rfl,
      (faultWord_acc (show 11 < 2 ^ 16 by decide)).trans ?_⟩
    simp
  case refine_12 =>
    intro slot c fc va hev hc
    have hc' : (if false then (findMx g slot).isNone else (findCopy g slot).isNone) = false := by simp [hc]
    refine ⟨fun hwait => ?_, fun hen hb hq hfc => ?_⟩
    · obtain ⟨t, hrun, hfound⟩ := park_queued hev hg hc' hwait
      exact ⟨t, hrun, _, hfound, rfl, findCopy_copyParked hc⟩
    · obtain ⟨u, hfound, hrun⟩ := park_out hev hg hc' hen hb hq
      obtain ⟨r, hr, hrec⟩ := parkOut_copy_sends hfound (findCopy_copyParked hc) hfc
      exact ⟨_, hrun, r, hr, hrec⟩
  case refine_13 =>
    intro slot c fc va hev hc
    have hc' : (if true then (findMx g slot).isNone else (findCopy g slot).isNone) = false := by simp [hc]
    refine ⟨fun hwait => ?_, fun hen hb hq hfc => ?_⟩
    · obtain ⟨t, hrun, hfound⟩ := park_queued hev hg hc' hwait
      exact ⟨t, hrun, _, hfound, rfl, findMx_mxParked hc⟩
    · obtain ⟨u, hfound, hrun⟩ := park_out hev hg hc' hen hb hq
      obtain ⟨r, hr, hrec⟩ := parkOut_mx_sends hfound (findMx_mxParked hc) hfc
      exact ⟨_, hrun, r, hr, hrec⟩
  case refine_14 =>
    intro id x ring u v hev hx hp hf hb hh hr hput
    refine ⟨_, transferFinish_run hev, ?_⟩
    rw [transferFinish_recorded hx hp hf, recordXfer_ok hb hh hr hput]
    exact settled_closed id x.cmd v
  case refine_15 =>
    intro id x f u y hev hx hp hf ha hc
    refine ⟨fun hw hy => ⟨_, transferFinish_run hev, ?_⟩, fun hw hcode => ⟨_, transferFinish_run hev, ?_⟩⟩
    · rw [transferFinish_moved hx hp hf ha hc (moveXfer_waits hw) (amGet?_amPut_same _ _ _) (by simp [hy])]
      exact ⟨rfl, amGet?_amPut_same _ _ _⟩
    · rw [transferFinish_moved hx hp hf ha hc (moveXfer_parks hw hcode) (parkXfer_xfers f) (by simp)]
      exact ⟨⟨_, parkXfer_xfers f, rfl, rfl⟩, _, parkXfer_sends f, rfl, (faultWord_code _).trans (by rw [hcode]; rfl), rfl⟩

end Sys2Proof.Machine
end

section
/-! SUPPORT. A step keeps memory canonical and its tables sorted (R51, R54, R434). The invariant, and the operations on groups and tables. -/
namespace Sys2Proof.Machine

/-- Memory in its canonical form, the tables of L1 sectors and of contexts sorted by key. -/
def CanonTables (mem : Memory) (l1 : AMap L1Sec) (ctxs : AMap Ctx) : Prop :=
  Memory.wf mem = true ∧ amSorted 0 l1 = true ∧ amSorted 0 ctxs = true

/-- The invariant of a state: its memory and its two tables are canonical. -/
def State.Canon (s : State) : Prop := CanonTables s.m.mem s.m.l1 s.ctxs

theorem State.canon_iff (s : State) : s.Canon ↔ Memory.wf s.m.mem = true ∧ canonicalTables s := Iff.rfl

theorem canon_mk (tick free nsec g rest ir ev agenda timers) {m : MemSys} (d t w q h) {ctxs : AMap Ctx} (tun)
    (hm : CanonTables m.mem m.l1 ctxs) :
    (State.mk tick free nsec g rest ir ev agenda timers m d t w q h ctxs tun).Canon := hm

theorem State.Canon.tables {s : State} (h : s.Canon) : CanonTables s.m.mem s.m.l1 s.ctxs := h

theorem canon_foldl_of {α β : Type} (p : β → State) {f : β → α → β} (hf : ∀ b x, (p b).Canon → (p (f b x)).Canon) (l : List α)
    {b : β} (hb : (p b).Canon) : (p (l.foldl f b)).Canon := by
  induction l generalizing b with
  | nil => exact hb
  | cons x l ih => exact ih (hf b x hb)

theorem canon_foldl {α : Type} {f : State → α → State} (l : List α) {s : State} (h : s.Canon)
    (hf : ∀ s x, s.Canon → (f s x).Canon) : (l.foldl f s).Canon :=
  canon_foldl_of id hf l h

/-- The state that a meaning goes on to is canonical. -/
def OutCanon : Out → Prop
  | .next t => t.Canon
  | _ => True

theorem outCanon_next {t : State} (h : t.Canon) : OutCanon (.next t) := h

/-- The state in which an engine's access of a byte leaves the device is canonical. -/
def EngRes.Canon : EngRes → Prop
  | .ok _ _ s => s.Canon
  | .fault _ _ => True
  | .wait _ s => s.Canon

theorem EngRes.canon_ok {v : Nat} {m : Bool} {s : State} : (EngRes.ok v m s).Canon ↔ s.Canon := Iff.rfl
theorem EngRes.canon_fault {f : AFlt} {va : Nat} : (EngRes.fault f va).Canon := trivial
theorem EngRes.canon_wait {ls : List Nat} {s : State} : (EngRes.wait ls s).Canon ↔ s.Canon := Iff.rfl

/-- The same of a step of a matrix command. -/
def MxRes.Canon : MxRes → Prop
  | .ok _ _ s => s.Canon
  | .fault _ _ => True
  | .wait _ s => s.Canon

theorem MxRes.canon_ok {x : Cells 64} {f : FFlags} {s : State} : (MxRes.ok x f s).Canon ↔ s.Canon := Iff.rfl
theorem MxRes.canon_fault {f : AFlt} {va : Nat} : (MxRes.fault f va).Canon := trivial
theorem MxRes.canon_wait {ls : List Nat} {s : State} : (MxRes.wait ls s).Canon ↔ s.Canon := Iff.rfl

/-- The same of an entry written to a ring. -/
def RingRes.Canon : RingRes → Prop
  | .ok s => s.Canon
  | .full s => s.Canon
  | .fault _ s => s.Canon

theorem RingRes.canon_ok {s : State} : (RingRes.ok s).Canon ↔ s.Canon := Iff.rfl
theorem RingRes.canon_full {s : State} : (RingRes.full s).Canon ↔ s.Canon := Iff.rfl
theorem RingRes.canon_fault {f : Flt} {s : State} : (RingRes.fault f s).Canon ↔ s.Canon := Iff.rfl

/-- The same of a transfer's bytes. -/
def XferRes.Canon : XferRes → Prop
  | .done _ s => s.Canon
  | .wait _ s => s.Canon
  | .fault _ _ s => s.Canon

theorem XferRes.canon_done {x : Xfer} {s : State} : (XferRes.done x s).Canon ↔ s.Canon := Iff.rfl
theorem XferRes.canon_wait {x : Xfer} {s : State} : (XferRes.wait x s).Canon ↔ s.Canon := Iff.rfl
theorem XferRes.canon_fault {f : Flt} {x : Xfer} {s : State} : (XferRes.fault f x s).Canon ↔ s.Canon := Iff.rfl

/-- The same of what the device does next. -/
def Next.Canon : Next → Prop
  | .run _ s => s.Canon
  | .stay s => s.Canon

theorem Next.canon_run {i : Instr} {s : State} : (Next.run i s).Canon ↔ s.Canon := Iff.rfl
theorem Next.canon_stay {s : State} : (Next.stay s).Canon ↔ s.Canon := Iff.rfl

theorem canon_snd_of_eq {α : Type} {p : α × State} {x : α} {t : State} (e : p = (x, t)) (h : p.2.Canon) : t.Canon := by
  rw [e] at h
  exact h

theorem canon_ite_snd {α : Type} {c : Prop} [Decidable c] {a b : α × State} (ha : a.2.Canon) (hb : b.2.Canon) :
    (if c then a else b).2.Canon := by
  split
  · exact ha
  · exact hb

theorem canon_drawFree {s : State} (hs : s.Canon) : (drawFree s).2.Canon := by
  unfold drawFree
  grind only [canon_mk, State.Canon.tables]

theorem canon_mapGroups (p : Group → Bool) (f : Group → Group) {s : State} (hs : s.Canon) : (mapGroups p f s).Canon := by
  unfold mapGroups
  grind only [canon_mk, State.Canon.tables]

theorem canon_modGroup (gid : Nat) (f : Group → Group) {s : State} (hs : s.Canon) : (modGroup gid f s).Canon := by
  unfold modGroup
  grind only [canon_mk, State.Canon.tables]

theorem canon_wakeWhere (p : Group → Bool) {s : State} (hs : s.Canon) : (wakeWhere p s).Canon := by
  unfold wakeWhere
  grind only [canon_mapGroups, canon_mk, State.Canon.tables]

theorem canon_wakeAll {s : State} (hs : s.Canon) : (wakeAll s).Canon := by
  unfold wakeAll
  grind only [canon_wakeWhere, canon_mk, State.Canon.tables]

theorem canon_wakeTeam (team : Nat) {s : State} (hs : s.Canon) : (wakeTeam team s).Canon := by
  unfold wakeTeam
  grind only [canon_wakeWhere, canon_mk, State.Canon.tables]

theorem canon_wakeGid (gid : Nat) {s : State} (hs : s.Canon) : (wakeGid gid s).Canon := by
  unfold wakeGid
  grind only [canon_wakeWhere, canon_mk, State.Canon.tables]

theorem canon_wakeWord (word : Nat) {s : State} (hs : s.Canon) : (wakeWord word s).Canon := by
  unfold wakeWord
  grind only [canon_mapGroups, canon_mk, State.Canon.tables]

theorem canon_due (e : Event) {s : State} (hs : s.Canon) : (due e s).Canon := by
  unfold due
  grind only [canon_mk, State.Canon.tables]

theorem canon_saveAtWait {s : State} (hs : s.Canon) : (saveAtWait s).Canon := by
  unfold saveAtWait
  grind only [canon_due, canon_mk, State.Canon.tables]

theorem canon_block {s : State} (hs : s.Canon) : (block s).Canon := by
  unfold block
  grind only [canon_saveAtWait, canon_mk, State.Canon.tables]

theorem canon_blockSeen {s : State} (hs : s.Canon) : (blockSeen s).Canon := by
  unfold blockSeen
  grind only [canon_saveAtWait, canon_mk, State.Canon.tables]

theorem canon_blockOn (word : Nat) {s : State} (hs : s.Canon) : (blockOn word s).Canon := by
  unfold blockOn
  grind only [canon_saveAtWait, canon_mk, State.Canon.tables]

theorem canon_blockFor (a : Nat × Bool × Stamp) {s : State} (hs : s.Canon) : (blockFor a s).Canon := by
  unfold blockFor
  grind only [canon_saveAtWait, canon_mk, State.Canon.tables]

theorem canon_dues (es : List Event) {s : State} (hs : s.Canon) : (dues es s).Canon := by
  unfold dues
  grind only [canon_mk, State.Canon.tables]

theorem canon_timer (n : Nat) (e : Event) {s : State} (hs : s.Canon) : (timer n e s).Canon := by
  unfold timer
  grind only [canon_mk, State.Canon.tables]

theorem canon_noTimer (e : Event) {s : State} (hs : s.Canon) : (noTimer e s).Canon := by
  unfold noTimer
  grind only [canon_mk, State.Canon.tables]

theorem canon_modCtx (c : Nat) (f : Ctx → Ctx) {s : State} (hs : s.Canon) :
    (modCtx c f s).Canon := ⟨hs.1, hs.2.1, amSorted_amMod hs.2.2 _ _⟩

theorem canon_modTeam (t : Nat) (f : Team → Team) {s : State} (hs : s.Canon) : (modTeam t f s).Canon := by
  unfold modTeam
  grind only [canon_mk, State.Canon.tables]

theorem canon_modGrid (t : Nat) (f : Grid → Grid) {s : State} (hs : s.Canon) : (modGrid t f s).Canon := by
  unfold modGrid
  grind only [canon_mk, State.Canon.tables]

theorem canon_modCard (t : Nat) (f : Card → Card) {s : State} (hs : s.Canon) : (modCard t f s).Canon := by
  unfold modCard
  grind only [canon_mk, State.Canon.tables]

theorem canon_setCore (c : Nat) (v : CoreSt) {s : State} (hs : s.Canon) : (setCore c v s).Canon := by
  unfold setCore
  grind only [canon_mk, State.Canon.tables]

theorem canon_modQueue (admin : Bool) (n : Nat) (f : Queue → Queue) {s : State} (hs : s.Canon) :
    (modQueue admin n f s).Canon := by
  unfold modQueue
  grind only [canon_mk, State.Canon.tables]

theorem canon_closeId (id queue : Nat) (admin : Bool) {s : State} (hs : s.Canon) : (closeId id queue admin s).Canon := by
  unfold closeId
  grind only [canon_modQueue, canon_mk, State.Canon.tables]

theorem canon_closeCmd (c : QCmd) {s : State} (hs : s.Canon) : (closeCmd c s).Canon := by
  unfold closeCmd
  grind only [canon_closeId, canon_mk, State.Canon.tables]

theorem canon_dropCmds (p : QCmd → Bool) {s : State} (hs : s.Canon) : (dropCmds p s).Canon := by
  unfold dropCmds
  grind only [canon_mk, State.Canon.tables]

theorem canon_complete (c : QCmd) (status code res : Nat) {s : State} (hs : s.Canon) :
    (complete c status code res s).Canon := by
  unfold complete
  grind only [canon_closeCmd, canon_due, canon_mk, State.Canon.tables]

theorem canon_giveBow {s : State} (hs : s.Canon) : (giveBow s).Canon := by
  unfold giveBow
  grind only [canon_due, canon_modTeam, canon_mk, State.Canon.tables]

theorem canon_passBowOf (gr : Nat) {s : State} (hs : s.Canon) : (passBowOf gr s).Canon := by
  unfold passBowOf
  grind only [canon_giveBow, canon_modGrid, canon_mk, State.Canon.tables]

theorem canon_discardGroups (p : Group → Bool) {s : State} (hs : s.Canon) : (discardGroups p s).Canon := by
  unfold discardGroups
  grind only [canon_wakeAll, canon_mk, State.Canon.tables]

theorem canon_discardTeams (p : Team → Bool) {s : State} (hs : s.Canon) : (discardTeams p s).Canon := by
  unfold discardTeams
  grind only [canon_discardGroups, canon_mk, State.Canon.tables]

theorem canon_toPeer (dev : Nat) (m : PeerMsg) {s : State} (hs : s.Canon) : (toPeer dev m s).Canon := by
  unfold toPeer
  grind only [canon_mk, State.Canon.tables]

theorem canon_failPeers (c code : Nat) {s : State} (hs : s.Canon) : (failPeers c code s).Canon := by
  unfold failPeers
  grind only [canon_toPeer, canon_mk, State.Canon.tables, canon_foldl]

theorem canon_cancelCtx (c : Nat) (fcmd : Option Nat) (code : Nat) {s : State} (hs : s.Canon) :
    (cancelCtx c fcmd code s).Canon := by
  unfold cancelCtx
  grind only [canon_discardTeams, canon_discardGroups, canon_failPeers, canon_dues, canon_giveBow, canon_complete, canon_mk,
    State.Canon.tables, canon_foldl]

theorem canon_endReplay (grid detail : Nat) {s : State} (hs : s.Canon) : (endReplay grid detail s).Canon := by
  unfold endReplay
  grind only [canon_due, canon_modGrid, canon_mk, State.Canon.tables]

theorem canon_askSave (p : Group → Bool) {s : State} (hs : s.Canon) : (askSave p s).Canon := by
  unfold askSave
  grind only [canon_mapGroups, canon_timer, canon_due, canon_mk, State.Canon.tables, canon_foldl]

theorem canon_applyPolicy (c : Nat) (fcmd : Option Nat) (code : Nat) {s : State} (hs : s.Canon) :
    (applyPolicy c fcmd code s).Canon := by
  unfold applyPolicy
  grind only [canon_cancelCtx, canon_modCtx, canon_dues, canon_askSave, canon_mk, State.Canon.tables]

theorem canon_wS {s : State} (r : SReg) (v : Word64) (hs : s.Canon) : (wS s r v).Canon := by
  unfold wS
  grind only [canon_mk, State.Canon.tables]

theorem canon_wK {s : State} (k : KReg) (v : Word32) (hs : s.Canon) : (wK s k v).Canon := by
  unfold wK
  grind only [canon_mk, State.Canon.tables]

theorem canon_wV {s : State} (r : VReg) (act : Word32) (f : Nat → Word64) (hs : s.Canon) : (wV s r act f).Canon := by
  unfold wV
  grind only [canon_mk, State.Canon.tables]

theorem canon_orFlags {s : State} (f : FFlags) (hs : s.Canon) : (orFlags s f).Canon := by
  unfold orFlags
  grind only [canon_mk, State.Canon.tables]

theorem canon_wStamp {s : State} (r : SReg) (t : Stamp) (hs : s.Canon) : (wStamp s r t).Canon := by
  unfold wStamp
  grind only [canon_wS, canon_mk, State.Canon.tables]

theorem canon_payFlags {s : State} (hs : s.Canon) : (payFlags s).Canon := by
  unfold payFlags
  grind only [canon_mk, State.Canon.tables]

theorem canon_retireTo (act : Word32) (target : BitVec 56) {s : State} (hs : s.Canon) : (retireTo act target s).Canon := by
  unfold retireTo
  grind only [canon_mk, State.Canon.tables]

theorem canon_retire (act : Word32) {s : State} (hs : s.Canon) : (retire act s).Canon := by
  unfold retire
  grind only [canon_retireTo, canon_mk, State.Canon.tables]

theorem canon_retireS {s : State} (hs : s.Canon) : (retireS s).Canon := by
  unfold retireS
  grind only [canon_retire, canon_mk, State.Canon.tables]

theorem canon_enterHandler (cause : HandlerCause) (fc : Word32) (fva : Word64) (mask done act : Word32) (epc : BitVec 56) {s :
  State} (hs : s.Canon) :
    (enterHandler cause fc fva mask done act epc s).Canon := by
  unfold enterHandler
  grind only [canon_mk, State.Canon.tables]

theorem canon_returnHandler {s : State} (hs : s.Canon) : (returnHandler s).Canon := by
  unfold returnHandler
  grind only [canon_mk, State.Canon.tables]

theorem canon_escalate (src : BitVec 3) (fc : Word32) (fva : Word64) (mask done : Word32) (pc : BitVec 56) (cmd : Word64 ×
  Word64 × Word64 × Word64) {s : State} (hs : s.Canon) :
    (escalate src fc fva mask done pc cmd s).Canon := by
  unfold escalate
  grind only [canon_applyPolicy, canon_due, canon_mk, State.Canon.tables]

theorem canon_notePoison (va : Nat) (acc : BitVec 3) {s : State} (hs : s.Canon) : (notePoison va acc s).Canon := by
  unfold notePoison
  grind only [canon_mk, State.Canon.tables]

theorem canon_raiseAs (cause : HandlerCause) (f : Flt) (done act : Word32) {s : State} (hs : s.Canon) :
    (raiseAs cause f done act s).Canon := by
  unfold raiseAs
  grind only [canon_notePoison, canon_enterHandler, canon_escalate, canon_mk, State.Canon.tables]

theorem canon_raise (f : Flt) (done act : Word32) {s : State} (hs : s.Canon) : (raise f done act s).Canon := by
  unfold raise
  grind only [canon_raiseAs, canon_mk, State.Canon.tables]

theorem canon_raiseW (f : Flt) {s : State} (hs : s.Canon) : (raiseW f s).Canon := by
  unfold raiseW
  grind only [canon_raiseAs, canon_mk, State.Canon.tables]

theorem canon_raiseI (code : Nat) {s : State} (hs : s.Canon) : (raiseI code s).Canon := by
  unfold raiseI
  grind only [canon_raiseW, canon_mk, State.Canon.tables]

end Sys2Proof.Machine
end

section
/-! SUPPORT. A step keeps memory canonical and its tables sorted (R51, R54, R434). The home, its tables and what it sends. -/
namespace Sys2Proof.Machine

theorem Memory.wf_foldl {α : Type} {f : Memory → α → Memory} (hf : ∀ m x, Memory.wf m = true → Memory.wf (f m x) = true) (l :
  List α)
    {m : Memory} (h : Memory.wf m = true) : Memory.wf (l.foldl f m) = true := by
  induction l generalizing m with
  | nil => exact h
  | cons x l ih => exact ih (hf m x h)
theorem canon_putSector (sec : Nat) (m : BitVec 128) (d : BitVec 1024) (po : BitVec 128) {s : State} (hs : s.Canon) :
    (putSector sec m d po s).Canon := ⟨Memory.wf_foldl (fun _ _ h => Memory.wf_memPut h _ _) _ hs.1, hs.2⟩

theorem canon_pickOne {α : Type} (l : List α) {s : State} (hs : s.Canon) : (pickOne l s).2.Canon := by
  unfold pickOne
  grind only [canon_drawFree, canon_mk, State.Canon.tables]

theorem canon_homeRegion (region home : Nat) {s : State} (hs : s.Canon) : (homeRegion region home s).Canon := by
  unfold homeRegion
  grind only [canon_mk, State.Canon.tables]

theorem canon_rhomeRoom (core : Nat) {s : State} (hs : s.Canon) : (rhomeRoom core s).Canon := by
  unfold rhomeRoom
  grind only [canon_pickOne, canon_mk, State.Canon.tables]

theorem canon_lookupHome (core region : Nat) {s : State} (hs : s.Canon) : (lookupHome core region s).Canon := by
  unfold lookupHome
  grind only [canon_rhomeRoom, canon_homeRegion, canon_mk, State.Canon.tables]

theorem canon_noteHome (region : Nat) (h : Bool) {s : State} (hs : s.Canon) : (noteHome region h s).Canon := by
  unfold noteHome
  grind only [canon_mk, State.Canon.tables]

theorem canon_homeTouch (sec : Nat) {s : State} (hs : s.Canon) : (homeTouch sec s).Canon := by
  unfold homeTouch
  grind only [canon_mk, State.Canon.tables]

theorem canon_homeDrop (sec : Nat) {s : State} (hs : s.Canon) : (homeDrop sec s).Canon := by
  unfold homeDrop
  grind only [canon_putSector, canon_mk, State.Canon.tables]

theorem canon_hostPutM (pa n v po : Nat) {s : State} (hs : s.Canon) :
    (hostPutM pa n v po s).Canon := ⟨Memory.wf_memPutBytes hs.1 _ _ _, hs.2⟩

theorem canon_hostPut (pa n v : Nat) {s : State} (hs : s.Canon) : (hostPut pa n v s).Canon := by
  unfold hostPut
  grind only [canon_hostPutM, canon_mk, State.Canon.tables]

theorem canon_hostDrop (line : Nat) {s : State} (hs : s.Canon) : (hostDrop line s).Canon := by
  unfold hostDrop
  grind only [canon_hostPutM, canon_mk, State.Canon.tables]

theorem canon_l2Room (sec : Nat) {s : State} (hs : s.Canon) : (l2Room sec s).Canon := by
  unfold l2Room
  grind only [canon_hostDrop, canon_homeDrop, canon_mk, State.Canon.tables, canon_foldl]

theorem canon_homeAlloc (sec : Nat) {s : State} (hs : s.Canon) : (homeAlloc sec s).Canon := by
  unfold homeAlloc
  grind only [canon_l2Room, canon_mk, State.Canon.tables]

theorem canon_homeMerge (sec : Nat) (m : BitVec 128) (d : BitVec 1024) (po : BitVec 128) (alloc : Bool) {s : State} (hs :
  s.Canon) :
    (homeMerge sec m d po alloc s).Canon := by
  unfold homeMerge
  grind only [canon_homeAlloc, canon_putSector, canon_wakeWord, canon_mk, State.Canon.tables, canon_foldl]

theorem canon_l1Put (core sec : Nat) (x : L1Sec) {s : State} (hs : s.Canon) :
    (l1Put core sec x s).Canon := ⟨hs.1, amSorted_amPut hs.2.1 _ _ (Nat.zero_le _), hs.2.2⟩

theorem canon_l1Mod (core sec : Nat) (f : L1Sec → L1Sec) {s : State} (hs : s.Canon) :
    (l1Mod core sec f s).Canon := ⟨hs.1, amSorted_amMod hs.2.1 _ _, hs.2.2⟩

theorem canon_l1Del (core sec : Nat) {s : State} (hs : s.Canon) :
    (l1Del core sec s).Canon := ⟨hs.1, amSorted_filter hs.2.1 _, hs.2.2⟩

theorem canon_setOwner (sec : Nat) (words : BitVec 16) (c : Nat) {s : State} (hs : s.Canon) :
    (setOwner sec words c s).Canon := by
  unfold setOwner
  grind only [canon_mk, State.Canon.tables, canon_foldl]

theorem canon_clearOwner (sec : Nat) (words : BitVec 16) {s : State} (hs : s.Canon) : (clearOwner sec words s).Canon := by
  unfold clearOwner
  grind only [canon_mk, State.Canon.tables, canon_foldl]

theorem canon_supersede (core sec : Nat) (words : BitVec 16) {s : State} (hs : s.Canon) :
    (supersede core sec words s).Canon := by
  unfold supersede
  grind only [canon_mk, State.Canon.tables]

theorem canon_revokeFrom (sec : Nat) (words : BitVec 16) (c : Nat) {s : State} (hs : s.Canon) :
    (revokeFrom sec words c s).Canon := by
  unfold revokeFrom
  grind only [canon_homeMerge, canon_supersede, canon_l1Mod, canon_clearOwner, canon_mk, State.Canon.tables]

theorem canon_revoke (sec : Nat) (words : BitVec 16) (me : Option Nat) {s : State} (hs : s.Canon) :
    (revoke sec words me s).Canon := by
  unfold revoke
  grind only [canon_revokeFrom, canon_mk, State.Canon.tables, canon_foldl]

theorem canon_snoopNow (line : Nat) (write : Bool) {s : State} (hs : s.Canon) : (snoopNow line write s).Canon := by
  unfold snoopNow
  grind only [canon_mk, State.Canon.tables]

theorem canon_snoopSec (sec : Nat) (write : Bool) {s : State} (hs : s.Canon) : (snoopSec sec write s).Canon := by
  unfold snoopSec
  grind only [canon_snoopNow, canon_mk, State.Canon.tables]

theorem canon_homeWrite (sec : Nat) (m : BitVec 128) (d : BitVec 1024) (po : BitVec 128) (alloc : Bool) {s : State} (hs :
  s.Canon) :
    (homeWrite sec m d po alloc s).Canon := by
  unfold homeWrite
  grind only [canon_homeMerge, canon_revoke, canon_mk, State.Canon.tables]

theorem canon_cohPutWord (pa : Nat) (v : Word64) {s : State} (hs : s.Canon) : (cohPutWord pa v s).Canon := by
  unfold cohPutWord
  grind only [canon_homeWrite, canon_snoopNow, canon_mk, State.Canon.tables]

theorem canon_hostLineGet (line : Nat) (st : Mesi) {s : State} (hs : s.Canon) : (hostLineGet line st s).Canon := by
  unfold hostLineGet
  grind only [canon_l2Room, canon_mk, State.Canon.tables]

theorem canon_hostUse (pa n : Nat) {s : State} (hs : s.Canon) : (hostUse pa n s).Canon := by
  unfold hostUse
  grind only [canon_mk, State.Canon.tables, canon_foldl]

theorem canon_hostTouch (pa n : Nat) {s : State} (hs : s.Canon) : (hostTouch pa n s).Canon := by
  unfold hostTouch
  grind only [canon_hostLineGet, canon_mk, State.Canon.tables, canon_foldl]

theorem canon_hostWriteM (pa n v po : Nat) {s : State} (hs : s.Canon) : (hostWriteM pa n v po s).Canon := by
  unfold hostWriteM
  grind only [canon_hostLineGet, canon_wakeWord, canon_mk, State.Canon.tables, canon_foldl]

theorem canon_hostWrite (pa n v : Nat) {s : State} (hs : s.Canon) : (hostWrite pa n v s).Canon := by
  unfold hostWrite
  grind only [canon_hostWriteM, canon_mk, State.Canon.tables]

theorem canon_dirRoom (sec : Nat) {s : State} (hs : s.Canon) : (dirRoom sec s).Canon := by
  unfold dirRoom
  grind only [canon_pickOne, canon_revoke, canon_mk, State.Canon.tables]

theorem canon_hostWriteBy (pa n v : Nat) {s : State} (hs : s.Canon) : (hostWriteBy pa n v s).Canon := by
  unfold hostWriteBy
  grind only [canon_hostWrite, canon_wakeWord, canon_hostPut, canon_mk, State.Canon.tables, canon_foldl]

theorem canon_sendSnoops (ls : List Nat) {s : State} (hs : s.Canon) : (sendSnoops ls s).Canon := by
  unfold sendSnoops
  grind only [canon_mk, State.Canon.tables]

theorem canon_ackUnit (gid unit : Nat) {s : State} (hs : s.Canon) : (ackUnit gid unit s).Canon := by
  unfold ackUnit
  grind only [canon_modGroup, canon_mk, State.Canon.tables]

theorem canon_addUnit (unit k : Nat) {s : State} (hs : s.Canon) : (addUnit unit k s).Canon := by
  unfold addUnit
  grind only [canon_mk, State.Canon.tables]

theorem canon_raiseSt (unit k : Nat) {s : State} (hs : s.Canon) : (raiseSt unit k s).Canon := by
  unfold raiseSt
  grind only [canon_addUnit, canon_mk, State.Canon.tables]

theorem canon_holdUnit (unit : Nat) {s : State} (hs : s.Canon) : (holdUnit unit s).Canon := by
  unfold holdUnit
  grind only [canon_mk, State.Canon.tables]

theorem canon_addOut (o : Outst) {s : State} (hs : s.Canon) : (addOut o s).Canon := by
  unfold addOut
  grind only [canon_mk, State.Canon.tables]

theorem canon_answered (kind : OutKind) (core sec : Nat) {f : Outst → State → State} {s : State} (hf : ∀ x0 s, s.Canon → (f x0
  s).Canon) (hs : s.Canon) :
    (answered kind core sec f s).Canon := by
  unfold answered
  grind only [canon_wakeAll, canon_ackUnit, canon_mk, State.Canon.tables, canon_foldl]

theorem canon_freeWb (core sec : Nat) {s : State} (hs : s.Canon) : (freeWb core sec s).Canon := by
  unfold freeWb
  grind only [canon_mk, State.Canon.tables]

theorem canon_sramPut (core off n0 n1 : Nat) {s : State} (hs : s.Canon) : (sramPut core off n0 n1 s).Canon := by
  induction n0 generalizing off n1 s with
  | zero => exact hs
  | succ n ih => exact ih (off + 1) (n1 / 256) hs

theorem canon_homeAtomic (pa aop n : Nat) (r : Rnd) (b c : Nat) {s : State} (hs : s.Canon) :
    (homeAtomic pa aop n r b c s).2.Canon := by
  unfold homeAtomic
  grind only [canon_revoke, canon_homeMerge, canon_mk, State.Canon.tables]

theorem canon_hostReply (line : Nat) (d : BitVec 512) {s : State} (hs : s.Canon) : (hostReply line d s).Canon := by
  unfold hostReply
  grind only [canon_mk, State.Canon.tables]

theorem canon_wakeWords (sec : Nat) (words : BitVec 16) {s : State} (hs : s.Canon) : (wakeWords sec words s).Canon := by
  unfold wakeWords
  grind only [canon_wakeWord, canon_mk, State.Canon.tables, canon_foldl]

theorem canon_regoServe (core sec : Nat) (words : BitVec 16) {s : State} (hs : s.Canon) :
    (regoServe core sec words s).Canon := by
  unfold regoServe
  grind only [canon_due, canon_wakeWords, canon_setOwner, canon_dirRoom, canon_mk, State.Canon.tables]

theorem canon_wtServe (core sec : Nat) (d : SectorData) (rel bypass : Bool) {s : State} (hs : s.Canon) :
    (wtServe core sec d rel bypass s).Canon := by
  unfold wtServe
  grind only [canon_homeMerge, canon_due, canon_clearOwner, canon_mk, State.Canon.tables]

theorem canon_wbServe (core sec : Nat) (d : SectorData) {s : State} (hs : s.Canon) : (wbServe core sec d s).Canon := by
  unfold wbServe
  grind only [canon_homeMerge, canon_due, canon_clearOwner, canon_mk, State.Canon.tables]

theorem canon_rdsServe (core sec : Nat) (bypass : Bool) {s : State} (hs : s.Canon) :
    (rdsServe core sec bypass s).Canon := by
  unfold rdsServe
  grind only [canon_homeAlloc, canon_due, canon_mk, State.Canon.tables]

theorem canon_atomLanes (sec : Nat) (aop : BitVec 4) (w : Bool) (r : Rnd) (ls : List AtomLane) {s : State} (hs : s.Canon) :
    (atomLanes sec aop w r ls s).2.Canon := by
  unfold atomLanes
  exact canon_foldl_of (fun x : (List (Nat × Word64) × Option Nat) × State => x.2) (fun _ _ h => canon_homeAtomic _ _ _ _ _ _ h)
    ls hs

theorem canon_atomServe (core sec : Nat) (aop : BitVec 4) (w : Bool) (r : Rnd) (ls : List AtomLane) {s : State} (hs : s.Canon) :
    (atomServe core sec aop w r ls s).Canon := by
  unfold atomServe
  grind only [canon_atomLanes, canon_modGroup, canon_due, canon_mk, State.Canon.tables]

theorem canon_memrdServe (line : Nat) {s : State} (hs : s.Canon) : (memrdServe line s).Canon := by
  unfold memrdServe
  grind only [canon_hostReply, canon_homeTouch, canon_mk, State.Canon.tables]

theorem canon_memwrServe (line : Nat) (mask : BitVec 64) (data : BitVec 512) {s : State} (hs : s.Canon) :
    (memwrServe line mask data s).Canon := by
  unfold memwrServe
  grind only [canon_homeMerge, canon_mk, State.Canon.tables]

theorem canon_serveReq (e : Event) {s : State} (hs : s.Canon) : (serveReq e s).Canon := by
  unfold serveReq
  grind only [canon_rdsServe, canon_snoopSec, canon_regoServe, canon_revoke, canon_wtServe, canon_wbServe, canon_atomServe,
    canon_memrdServe, canon_memwrServe, canon_mk, State.Canon.tables]

theorem canon_dueNow (es : List Event) {s : State} (hs : s.Canon) : (dueNow es s).Canon := by
  unfold dueNow
  grind only [canon_mk, State.Canon.tables]

theorem canon_hold (e : Event) {s : State} (hs : s.Canon) : (hold e s).Canon := by
  unfold hold
  grind only [canon_mk, State.Canon.tables]

theorem canon_unhold {s : State} (hs : s.Canon) : (unhold s).Canon := by
  unfold unhold
  grind only [canon_wakeAll, canon_mk, State.Canon.tables]

theorem canon_serveOwn (core sec : Nat) {s : State} (hs : s.Canon) : (serveOwn core sec s).Canon := by
  unfold serveOwn
  grind only [canon_unhold, canon_serveReq, canon_mk, State.Canon.tables, canon_foldl]

theorem canon_wbSettle (core : Nat) {s : State} (hs : s.Canon) : (wbSettle core s).Canon := by
  unfold wbSettle
  grind only [canon_serveOwn, canon_answered, canon_freeWb, canon_mk, State.Canon.tables]

theorem canon_sendHome (core sec : Nat) {s : State} (hs : s.Canon) : (sendHome core sec s).Canon := by
  unfold sendHome
  grind only [canon_lookupHome, canon_mk, State.Canon.tables]

theorem amSorted_map {α β : Type} {f : Nat × α → Nat × β} (hf : ∀ e, (f e).1 = e.1) {lo : Nat} {m : List (Nat × α)}
    (h : amSorted lo m = true) : amSorted lo (m.map f) = true := by
  induction m generalizing lo with
  | nil => rfl
  | cons e t ih =>
    obtain ⟨k, u⟩ := e
    simp only [amSorted, Bool.and_eq_true] at h
    simp only [List.map_cons, amSorted, hf, Bool.and_eq_true]
    exact ⟨h.1, ih h.2⟩
theorem canon_selfInvalidate (core : Nat) {s : State} (hs : s.Canon) :
    (selfInvalidate core s).Canon := ⟨hs.1, amSorted_map (fun e => by split <;> rfl) hs.2.1, hs.2.2⟩

theorem canon_dropVWord (core sec : Nat) (words : BitVec 16) {s : State} (hs : s.Canon) :
    (dropVWord core sec words s).Canon := by
  unfold dropVWord
  grind only [canon_l1Mod, canon_mk, State.Canon.tables]

theorem canon_writeThroughNow (core sec : Nat) (words : BitVec 16) {s0 : State} (hs : s0.Canon) :
    (writeThroughNow core sec words s0).Canon := by
  unfold writeThroughNow
  grind only [canon_serveOwn, canon_revoke, canon_snoopSec, canon_homeMerge, canon_l1Mod, canon_clearOwner, canon_mk,
    State.Canon.tables]

theorem canon_stashLeave (core sec : Nat) {s : State} (hs : s.Canon) : (stashLeave core sec s).Canon := by
  unfold stashLeave
  grind only [canon_mk, State.Canon.tables, canon_foldl]

theorem canon_flushSector (core sec : Nat) {s : State} (hs : s.Canon) : (flushSector core sec s).Canon := by
  unfold flushSector
  grind only [canon_l1Del, canon_stashLeave, canon_writeThroughNow, canon_mk, State.Canon.tables]

theorem canon_flushWhere (core : Nat) (p : Nat → L1Sec → Bool) {s : State} (hs : s.Canon) :
    (flushWhere core p s).Canon := by
  unfold flushWhere
  grind only [canon_flushSector, canon_mk, State.Canon.tables, canon_foldl]

theorem canon_flushEverywhere (p : Nat → Nat → L1Sec → Bool) {s : State} (hs : s.Canon) : (flushEverywhere p s).Canon := by
  unfold flushEverywhere
  grind only [canon_flushWhere, canon_mk, State.Canon.tables, canon_foldl]

theorem canon_flushRange (lo n : Nat) {s : State} (hs : s.Canon) : (flushRange lo n s).Canon := by
  unfold flushRange
  grind only [canon_revoke, canon_homeDrop, canon_mk, State.Canon.tables, canon_foldl]

theorem canon_endRelease (r : Nat) {s : State} (hs : s.Canon) : (endRelease r s).Canon := by
  unfold endRelease
  grind only [canon_flushRange, canon_mk, State.Canon.tables]

theorem canon_releaseRegion (r : Nat) {s : State} (hs : s.Canon) : (releaseRegion r s).Canon := by
  unfold releaseRegion
  grind only [canon_endRelease, canon_dueNow, canon_mk, State.Canon.tables]

theorem canon_releaseRegions (lo n : Nat) {s : State} (hs : s.Canon) : (releaseRegions lo n s).Canon := by
  unfold releaseRegions
  grind only [canon_releaseRegion, canon_mk, State.Canon.tables, canon_foldl]

end Sys2Proof.Machine
end

section
/-! SUPPORT. A step keeps memory canonical and its tables sorted (R51, R54, R434). Translation and the accesses of a core. -/
namespace Sys2Proof.Machine

theorem canon_tlbRoom (cl vp : Nat) {s : State} (hs : s.Canon) : (tlbRoom cl vp s).Canon := by
  unfold tlbRoom
  grind only [canon_pickOne, canon_mk, State.Canon.tables]

theorem canon_tlb1Room (core : Nat) {s : State} (hs : s.Canon) : (tlb1Room core s).Canon := by
  unfold tlb1Room
  grind only [canon_pickOne, canon_mk, State.Canon.tables]

theorem canon_markLeaf (acc : Nat) (x : Xl) {s : State} (hs : s.Canon) : (markLeaf acc x s).2.Canon := by
  unfold markLeaf
  grind only [canon_cohPutWord, canon_mk, State.Canon.tables]

theorem canon_agentHome (a : Agent) (region : Nat) {s : State} (hs : s.Canon) : (agentHome a region s).Canon := by
  unfold agentHome
  grind only [canon_lookupHome, canon_homeRegion, canon_mk, State.Canon.tables]

theorem canon_walkTouch (a : Agent) (va : Nat) {s : State} (hs : s.Canon) : (walkTouch a va s).Canon := by
  unfold walkTouch
  grind only [canon_homeTouch, canon_snoopNow, canon_agentHome, canon_mk, State.Canon.tables, canon_foldl]

theorem canon_walkSnoops (a : Agent) (va acc : Nat) {s : State} (hs : s.Canon) : (walkSnoops a va acc s).Canon := by
  unfold walkSnoops
  grind only [canon_walkTouch, canon_mk, State.Canon.tables]

theorem canon_walkFault (a : Agent) (va acc code : Nat) {s : State} (hs : s.Canon) :
    (walkFault a va acc code s).Canon := by
  unfold walkFault
  grind only [canon_walkSnoops, canon_mk, State.Canon.tables]

theorem canon_useXlate (a : Agent) (va acc : Nat) (x : Xl) {s0 : State} (hs : s0.Canon) :
    (useXlate a va acc x s0).Canon := by
  unfold useXlate
  grind only [canon_markLeaf, canon_walkSnoops, canon_tlbRoom, canon_tlb1Room, canon_mk, State.Canon.tables]

theorem canon_dropPage (ctx level vp : Nat) {s : State} (hs : s.Canon) : (dropPage ctx level vp s).Canon := by
  unfold dropPage
  grind only [canon_mk, State.Canon.tables]

theorem canon_dropCtxTlb (ctx : Nat) {s : State} (hs : s.Canon) : (dropCtxTlb ctx s).Canon := by
  unfold dropCtxTlb
  grind only [canon_mk, State.Canon.tables]

theorem canon_snapGranule (grid gran : Nat) {s : State} (hs : s.Canon) : (snapGranule grid gran s).Canon := by
  unfold snapGranule
  grind only [canon_endReplay, canon_flushRange, canon_modGrid, canon_mk, State.Canon.tables, canon_foldl]

theorem canon_noteWrite (g : Group) (leaf : Word64) (pa : Nat) {s : State} (hs : s.Canon) :
    (noteWrite g leaf pa s).Canon := by
  unfold noteWrite
  grind only [canon_endReplay, canon_snapGranule, canon_mk, State.Canon.tables]

theorem canon_useSeg (a : Agent) (acc : Nat) (g : Seg) {s : State} (hs : s.Canon) : (useSeg a acc g s).Canon := by
  unfold useSeg
  grind only [canon_useXlate, canon_agentHome, canon_noteHome, canon_mk, State.Canon.tables]

theorem canon_backFaultAt (gid ctx : Nat) (va : Word64) (f : AFlt) {s : State} (hs : s.Canon) :
    (backFaultAt gid ctx va f s).Canon := by
  unfold backFaultAt
  grind only [canon_modGroup, canon_wakeGid, canon_applyPolicy, canon_due, canon_mk, State.Canon.tables]

theorem canon_backFault (gid : Nat) (x : L1Sec) (f : AFlt) {s : State} (hs : s.Canon) : (backFault gid x f s).Canon := by
  unfold backFault
  grind only [canon_backFaultAt, canon_mk, State.Canon.tables]

theorem canon_stashUse (gid core : Nat) (x : L1Sec) {s : State} (hs : s.Canon) : (stashUse gid core x s).2.Canon := by
  unfold stashUse
  grind only [canon_useXlate, canon_backFault, canon_walkFault, canon_mk, State.Canon.tables]

theorem canon_loseSector (core sec : Nat) {s : State} (hs : s.Canon) : (loseSector core sec s).Canon := by
  unfold loseSector
  grind only [canon_l1Del, canon_stashLeave, canon_mk, State.Canon.tables]

theorem canon_backSector (core sec : Nat) (x : L1Sec) {s : State} (hs : s.Canon) : (backSector core sec x s).Canon := by
  unfold backSector
  grind only [canon_flushSector, canon_stashUse, canon_loseSector, canon_mk, State.Canon.tables]

theorem canon_backRegion (cluster region : Nat) {s : State} (hs : s.Canon) : (backRegion cluster region s).Canon := by
  unfold backRegion
  grind only [canon_backSector, canon_mk, State.Canon.tables, canon_foldl]

theorem canon_rmapRoom (cluster : Nat) {s : State} (hs : s.Canon) : (rmapRoom cluster s).Canon := by
  unfold rmapRoom
  grind only [canon_pickOne, canon_backRegion, canon_mk, State.Canon.tables]

theorem canon_takeAlias (cluster ctx va pa : Nat) {s : State} (hs : s.Canon) : (takeAlias cluster ctx va pa s).Canon := by
  unfold takeAlias
  grind only [canon_backRegion, canon_loseSector, canon_rmapRoom, canon_mk, State.Canon.tables, canon_foldl]

theorem canon_writeBack (core sec : Nat) (x : L1Sec) (words : BitVec 16) {s0 : State} (hs : s0.Canon) :
    (writeBack core sec x words s0).Canon := by
  unfold writeBack
  grind only [canon_sendHome, canon_wbSettle, canon_due, canon_addOut, canon_mk, State.Canon.tables]

theorem canon_makeRoom (core va sec : Nat) {s : State} (hs : s.Canon) : (makeRoom core va sec s).Canon := by
  unfold makeRoom
  grind only [canon_l1Del, canon_writeBack, canon_mk, State.Canon.tables, canon_foldl]

theorem canon_allocSec (core ctx va sec : Nat) (leaf : Word64) {s : State} (hs : s.Canon) :
    (allocSec core ctx va sec leaf s).Canon := by
  unfold allocSec
  grind only [canon_takeAlias, canon_l1Mod, canon_makeRoom, canon_l1Put, canon_mk, State.Canon.tables]

theorem canon_lazyBack (owner sec : Nat) {s : State} (hs : s.Canon) : (lazyBack owner sec s).Canon := by
  unfold lazyBack
  grind only [canon_stashUse, canon_l1Mod, canon_writeBack, canon_mk, State.Canon.tables]

theorem canon_lazyBacks (sec : Nat) (me : Option Nat) {s : State} (hs : s.Canon) : (lazyBacks sec me s).Canon := by
  unfold lazyBacks
  grind only [canon_lazyBack, canon_mk, State.Canon.tables, canon_foldl]

theorem canon_fillNow (core ctx va sec : Nat) (leaf : Word64) {s : State} (hs : s.Canon) :
    (fillNow core ctx va sec leaf s).Canon := by
  unfold fillNow
  grind only [canon_allocSec, canon_homeAlloc, canon_lazyBacks, canon_l1Mod, canon_mk, State.Canon.tables]

theorem canon_serveSector (hint : BitVec 2) (ls : List LaneAcc) (sec : Nat) {s : State} (hs : s.Canon) :
    (serveSector hint ls sec s).2.Canon := by
  unfold serveSector
  grind only [canon_fillNow, canon_homeAlloc, canon_homeTouch, canon_lazyBacks, canon_dropVWord, canon_mk, State.Canon.tables]

theorem canon_loadSeg (hint : BitVec 2) (host : Nat) (ls : List LaneAcc) (g : Seg) {x : Images × State} (hx : x.2.Canon) :
    (loadSeg hint host ls g x).2.2.Canon := by
  unfold loadSeg
  grind only [canon_hostUse, canon_hostTouch, canon_l1Mod, canon_serveSector, canon_mk, State.Canon.tables]

theorem canon_laneLoad (hint : BitVec 2) (ls : List LaneAcc) (a : LaneAcc) {x : Images × State} (hx : x.2.Canon) :
    (laneLoad hint ls a x).2.2.Canon := by
  unfold laneLoad
  split
  · refine canon_foldl_of (fun y : Nat × Nat × Nat × Images × State => y.2.2.2.2) (fun y g h => canon_loadSeg _ _ _ _ ?_) _ hx
    grind only [canon_useSeg, canon_mk, State.Canon.tables]
  · exact hx
  · exact hx

theorem canon_loadLane (hint : BitVec 2) (a : LaneAcc) {s : State} (hs : s.Canon) : (loadLane hint a s).2.Canon := by
  unfold loadLane
  grind only [canon_laneLoad, canon_mk, State.Canon.tables]

theorem canon_sendStore (e : Event) (kind : OutKind) (near : Bool) (core sec unit : Nat) (ws : BitVec 16) {x : Nat × State} (hx
  : x.2.Canon) :
    (sendStore e kind near core sec unit ws x).2.Canon := by
  unfold sendStore
  grind only [canon_due, canon_addOut, canon_sendHome, canon_mk, State.Canon.tables]

theorem canon_storeSec (core ctx unit : Nat) (hint : BitVec 2) (w : SecWr) {x : Nat × State} (hx : x.2.Canon) :
    (storeSec core ctx unit hint w x).2.Canon := by
  unfold storeSec
  dsimp only
  refine canon_ite_snd ?_ (canon_sendStore _ _ _ _ _ _ _ (canon_l1Mod _ _ _ ?_))
  all_goals
    refine canon_ite_snd ?_ (canon_ite_snd (canon_ite_snd (canon_l1Mod _ _ _ ?_) (canon_sendStore _ _ _ _ _ _ _ (canon_l1Mod _ _
      _ ?_)))
      (canon_sendStore _ _ _ _ _ _ _ (canon_ite_snd (canon_l1Mod _ _ _ ?_) (canon_sendStore _ _ _ _ _ _ _ (canon_l1Mod _ _ _
        ?_)))))
  all_goals
    exact canon_ite_snd hx (canon_ite_snd (canon_l1Mod _ _ _ (canon_allocSec _ _ _ _ _ hx))
      (canon_sendStore _ _ _ _ _ _ _ (canon_l1Mod _ _ _ (canon_allocSec _ _ _ _ _ hx))))

theorem canon_stageStore (g : Seg) (v : Nat) {s : State} (hs : s.Canon) : (stageStore g v s).Canon := by
  unfold stageStore
  grind only [canon_setCore, canon_mk, State.Canon.tables, canon_foldl]

theorem canon_stageLane (a : Agent) (gs : List Seg) (v : Nat) {s : State} (hs : s.Canon) : (stageLane a gs v s).Canon := by
  unfold stageLane
  refine canon_foldl_of (fun y : Nat × State => y.2) (fun y g h => ?_) gs hs
  dsimp only
  exact canon_stageStore _ _ (canon_noteWrite _ _ _ (canon_useSeg _ _ _ h))

theorem canon_storeLanes (hint : BitVec 2) (unit : Nat) (ls : List (LaneAcc × Nat)) {s : State} (hs : s.Canon) :
    (storeLanes hint unit ls s).Canon := by
  unfold storeLanes
  split
  · refine canon_raiseSt _ _ (canon_foldl ls hs fun s p h => ?_)
    split
    · exact canon_sramPut _ _ _ _ h
    · exact canon_stageLane _ _ _ h
  · refine canon_raiseSt _ _ (canon_foldl_of (fun x : Nat × State => x.2) (fun _ _ h => canon_storeSec _ _ _ _ _ h) _ ?_)
    refine canon_foldl_of (fun x : List SecWr × State => x.2) (fun x p h => ?_) ls hs
    dsimp only
    split
    · exact canon_sramPut _ _ _ _ h
    · refine canon_foldl_of (fun y : Nat × List SecWr × State => y.2.2) (fun y g h => ?_) _ h
      grind only [canon_noteWrite, canon_useSeg, canon_hostWriteBy, canon_hostWrite, canon_hostPut]

theorem canon_acquireNow (scope : Nat) {s : State} (hs : s.Canon) : (acquireNow scope s).Canon := by
  unfold acquireNow
  grind only [canon_selfInvalidate, canon_mk, State.Canon.tables]

theorem canon_waitAlias (gs : List Seg) {s : State} (hs : s.Canon) : (waitAlias gs s).Canon := by
  unfold waitAlias
  grind only [canon_block, canon_backRegion, canon_mk, State.Canon.tables, canon_foldl]

theorem canon_waitSnoops (ls : List Nat) {s : State} (hs : s.Canon) : (waitSnoops ls s).Canon := by
  unfold waitSnoops
  grind only [canon_block, canon_sendSnoops, canon_mk, State.Canon.tables]

theorem canon_failedWalks (acc : Nat) (ls : List LaneAcc) {s : State} (hs : s.Canon) : (failedWalks acc ls s).Canon := by
  unfold failedWalks
  grind only [canon_walkFault, canon_mk, State.Canon.tables, canon_foldl]

theorem canon_fltWalk (f : Flt) {s : State} (hs : s.Canon) : (fltWalk f s).Canon := by
  unfold fltWalk
  grind only [canon_walkFault, canon_mk, State.Canon.tables]

theorem canon_finishAccess (scalar : Bool) (acc : Nat) (act : Word32) (ls : List LaneAcc) {done : State} {fin : State → State}
  (hdone : done.Canon) (hfin : ∀ s, s.Canon → (fin s).Canon) :
    (finishAccess scalar acc act ls done fin).Canon := by
  unfold finishAccess
  grind only [canon_failedWalks, canon_raiseW, canon_raise, canon_mk, State.Canon.tables]

theorem canon_loadLanes (hint : BitVec 2) {put : Nat → Nat → State → State} (ls : List LaneAcc) {s : State} (hput : ∀ x0 x1 s,
  s.Canon → (put x0 x1 s).Canon) (hs : s.Canon) :
    (loadLanes hint put ls s).Canon := by
  unfold loadLanes
  refine canon_foldl_of (fun x : Images × State => x.2) (fun x a h => ?_) ls hs
  grind only [canon_laneLoad, canon_notePoison]

theorem canon_awaitHost (n : Nat) {s : State} (hs : s.Canon) : (awaitHost n s).Canon := by
  unfold awaitHost
  grind only [canon_block, canon_mk, State.Canon.tables]

theorem canon_hostRequests (gs : List Seg) {s : State} (hs : s.Canon) : (hostRequests gs s).Canon := by
  unfold hostRequests
  grind only [canon_awaitHost, canon_dues, canon_mk, State.Canon.tables]

theorem canon_raiseLd (none : Bool) {s : State} (hs : s.Canon) : (raiseLd none s).Canon := by
  unfold raiseLd
  grind only [canon_mk, State.Canon.tables]

theorem canon_loadHeld (alloc : Bool) (ok : List LaneAcc) {s : State} (hs : s.Canon) :
    ∀ t, loadHeld alloc ok s = some t → t.Canon := by
  unfold loadHeld
  grind only [canon_block, canon_waitAlias, canon_waitSnoops, canon_hostRequests, canon_mk, State.Canon.tables]

theorem canon_loadInstr (scalar : Bool) (q : MemQ) (act : Word32) (ls : List LaneAcc) {put : Nat → Nat → State → State} {s :
  State} (hput : ∀ x0 x1 s, s.Canon → (put x0 x1 s).Canon) (hs : s.Canon) :
    OutCanon (loadInstr scalar q act ls put s) := by
  unfold loadInstr
  grind only [canon_block, canon_loadHeld, canon_retire, canon_raiseLd, canon_acquireNow, canon_finishAccess, canon_loadLanes,
    canon_mk, State.Canon.tables, outCanon_next]

theorem canon_holdIf (acc : Nat) (ls : List LaneAcc) (unit : Nat) {s : State} (hs : s.Canon) :
    (holdIf acc ls unit s).Canon := by
  unfold holdIf
  grind only [canon_holdUnit, canon_mk, State.Canon.tables]

theorem canon_storeInstr (scalar : Bool) (q : MemQ) (act : Word32) (ls : List LaneAcc) (val : Nat → Nat) {s : State} (hs :
  s.Canon) :
    OutCanon (storeInstr scalar q act ls val s) := by
  unfold storeInstr
  dsimp only
  repeat' split
  · exact canon_raiseI _ hs
  · exact canon_block hs
  · exact canon_waitAlias _ hs
  · exact canon_finishAccess _ _ _ _ (canon_holdIf _ _ _ (canon_storeLanes _ _ _ hs)) fun _ h => canon_retire _ h

end Sys2Proof.Machine
end

section
/-! SUPPORT. A step keeps memory canonical and its tables sorted (R51, R54, R434). Loads, stores, atomics and the messages of the protocol. -/
namespace Sys2Proof.Machine

theorem canon_checked (c : Option Nat) {s : State} {run : State} (hs : s.Canon) (hrun : run.Canon) :
    OutCanon (checked c s run) := by
  unfold checked
  grind only [canon_raiseI, canon_mk, State.Canon.tables, outCanon_next]

theorem canon_scalarOut (d : SReg) (v : Word64) {s : State} (hs : s.Canon) : OutCanon (scalarOut d v s) := by
  unfold scalarOut
  grind only [canon_retireS, canon_wS, canon_mk, State.Canon.tables, outCanon_next]

theorem canon_scalarF (d : SReg) (r : Nat × FFlags) {s : State} (hs : s.Canon) : OutCanon (scalarF d r s) := by
  unfold scalarF
  grind only [canon_retireS, canon_orFlags, canon_wS, canon_mk, State.Canon.tables, outCanon_next]

theorem canon_vecDone (d : VReg) (k : KReg) (f : Nat → Word64) {s : State} (hs : s.Canon) : (vecDone d k f s).Canon := by
  unfold vecDone
  grind only [canon_retire, canon_wV, canon_mk, State.Canon.tables]

theorem canon_vecOut (rs : List VReg) (d : VReg) (k : KReg) (f : Nat → Word64) {s : State} (hs : s.Canon) :
    OutCanon (vecOut rs d k f s) := by
  unfold vecOut
  grind only [canon_checked, canon_vecDone, canon_mk, State.Canon.tables, outCanon_next]

theorem canon_vecDoneF (d : VReg) (k : KReg) (f : Nat → Word64 × FFlags) {s : State} (hs : s.Canon) :
    (vecDoneF d k f s).Canon := by
  unfold vecDoneF
  grind only [canon_retire, canon_orFlags, canon_wV, canon_mk, State.Canon.tables]

theorem canon_vecOutF (rs : List VReg) (d : VReg) (k : KReg) (f : Nat → Word64 × FFlags) {s : State} (hs : s.Canon) :
    OutCanon (vecOutF rs d k f s) := by
  unfold vecOutF
  grind only [canon_checked, canon_vecDoneF, canon_mk, State.Canon.tables, outCanon_next]

theorem canon_cmpDone (kd k : KReg) (p : Nat → Bool × FFlags) {s : State} (hs : s.Canon) : (cmpDone kd k p s).Canon := by
  unfold cmpDone
  grind only [canon_retire, canon_orFlags, canon_wK, canon_mk, State.Canon.tables, canon_foldl]

theorem canon_cmpOut (rs : List VReg) (kd k : KReg) (p : Nat → Bool × FFlags) {s : State} (hs : s.Canon) :
    OutCanon (cmpOut rs kd k p s) := by
  unfold cmpOut
  grind only [canon_checked, canon_cmpDone, canon_mk, State.Canon.tables, outCanon_next]

theorem canon_codeRead {s : State} (a : Agent) (va n : Nat) (hs : s.Canon) :
    ∀ x t, codeRead s a va n = .ok (x, t) → t.Canon := by
  unfold codeRead
  grind only [canon_useSeg, canon_hostUse, canon_lazyBacks, canon_homeTouch, canon_mk, State.Canon.tables]

theorem canon_codeWords (a : Agent) (n0 n1 : Nat) {s : State} (hs : s.Canon) :
    ∀ x t, codeWords a n0 n1 s = .ok (x, t) → t.Canon := by
  induction n0 generalizing n1 s with
  | zero => unfold codeWords; grind only
  | succ n ih => unfold codeWords; grind only [canon_codeRead]

theorem canon_fetch {s : State} (hs : s.Canon) : ∀ x t, fetch s = .ok (x, t) → t.Canon := by
  intro x t ht
  unfold fetch at ht
  dsimp only at ht
  split at ht
  · cases ht
  · split at ht
    · cases ht
    · cases ht
      exact canon_codeWords _ _ _ (canon_codeRead _ _ _ hs _ _ ‹_›) _ _ ‹_›

@[simp] theorem canon_execSlit (d : SReg) (o : POff) {s : State} (hs : s.Canon) : OutCanon (execSlit d o s) := by
  unfold execSlit
  grind only [canon_raiseW, canon_waitSnoops, canon_codeRead, canon_retireS, canon_notePoison, canon_fltWalk, canon_wS,
    canon_mk, State.Canon.tables, outCanon_next]

@[simp] theorem canon_execIll (w : Word32) {s : State} (hs : s.Canon) : OutCanon (execIll w s) := by
  unfold execIll
  grind only [canon_raiseI, canon_mk, State.Canon.tables, outCanon_next]

theorem canon_putS (d : SReg) (w : IW) (sx : Bool) (l v : Nat) {s : State} (hs : s.Canon) : (putS d w sx l v s).Canon := by
  unfold putS
  grind only [canon_wS, canon_mk, State.Canon.tables]

theorem canon_putV (d : VReg) (w : IW) (sx : Bool) (l v : Nat) {s : State} (hs : s.Canon) : (putV d w sx l v s).Canon := by
  unfold putV
  grind only [canon_mk, State.Canon.tables]

theorem canon_withRegs (rs : List VReg) {s : State} {out : Out} (hs : s.Canon) (hout : OutCanon out) :
    OutCanon (withRegs rs s out) := by
  unfold withRegs
  grind only [canon_raiseI, canon_mk, State.Canon.tables, outCanon_next]

@[simp] theorem canon_execLdS (d a : SReg) (w : IW) (sx : Bool) (off : BitVec 21) (q : MemQ) {s : State} (hs : s.Canon) :
    OutCanon (execLdS d a w sx off q s) := by
  unfold execLdS
  grind only [canon_loadInstr, canon_putS, canon_mk, State.Canon.tables, outCanon_next]

@[simp] theorem canon_execStS (d a : SReg) (w : IW) (off : BitVec 21) (q : MemQ) {s : State} (hs : s.Canon) :
    OutCanon (execStS d a w off q s) := by
  unfold execStS
  grind only [canon_storeInstr, canon_mk, State.Canon.tables, outCanon_next]

@[simp] theorem canon_execLdV (d : VReg) (a : SReg) (k : KReg) (off : BitVec 21) (q : MemQ) {s : State} (hs : s.Canon) :
    OutCanon (execLdV d a k off q s) := by
  unfold execLdV
  grind only [canon_withRegs, canon_loadInstr, canon_putV, canon_mk, State.Canon.tables, outCanon_next]

@[simp] theorem canon_execStV (d : VReg) (a : SReg) (k : KReg) (off : BitVec 21) (q : MemQ) {s : State} (hs : s.Canon) :
    OutCanon (execStV d a k off q s) := by
  unfold execStV
  grind only [canon_withRegs, canon_storeInstr, canon_mk, State.Canon.tables, outCanon_next]

@[simp] theorem canon_execLdG (d a : VReg) (w : IW) (sx : Bool) (k : KReg) (off : BitVec 21) (q : MemQ) {s : State} (hs :
  s.Canon) :
    OutCanon (execLdG d a w sx k off q s) := by
  unfold execLdG
  grind only [canon_withRegs, canon_loadInstr, canon_putV, canon_mk, State.Canon.tables, outCanon_next]

@[simp] theorem canon_execStG (d a : VReg) (w : IW) (k : KReg) (off : BitVec 21) (q : MemQ) {s : State} (hs : s.Canon) :
    OutCanon (execStG d a w k off q s) := by
  unfold execStG
  grind only [canon_withRegs, canon_storeInstr, canon_mk, State.Canon.tables, outCanon_next]

@[simp] theorem canon_execLdX (am : BitVec 2) (d a : VReg) (w : IW) (sx : Bool) (k : KReg) (off : BitVec 21) (q : MemQ) {s :
  State} (hs : s.Canon) :
    OutCanon (execLdX am d a w sx k off q s) := by
  unfold execLdX
  grind only [canon_loadInstr, canon_putS, canon_withRegs, canon_putV, canon_mk, State.Canon.tables, outCanon_next]

@[simp] theorem canon_execStX (am : BitVec 2) (d a : VReg) (w : IW) (k : KReg) (off : BitVec 21) (q : MemQ) {s : State} (hs :
  s.Canon) :
    OutCanon (execStX am d a w k off q s) := by
  unfold execStX
  grind only [canon_storeInstr, canon_withRegs, canon_mk, State.Canon.tables, outCanon_next]

theorem canon_atLane (o : AtOp) (b c : Nat) (a : LaneAcc) {s : State} (hs : s.Canon) : (atLane o b c a s).2.Canon := by
  unfold atLane
  grind only [canon_sramPut, canon_noteWrite, canon_useSeg, canon_hostWrite, canon_homeAtomic, canon_writeThroughNow,
    canon_dropVWord, canon_mk, State.Canon.tables]

theorem canon_hostAtomics (o : AtOp) (bv cv : Nat → Nat) (ls : List LaneAcc) {s : State} (hs : s.Canon) :
    (hostAtomics o bv cv ls s).Canon := by
  unfold hostAtomics
  grind only [canon_awaitHost, canon_due, canon_hostPut, canon_mk, State.Canon.tables, canon_foldl]

theorem canon_noteFlags {s : State} (f : FFlags) (hs : s.Canon) : (noteFlags s f).Canon := by
  unfold noteFlags
  grind only [canon_mk, State.Canon.tables]

theorem canon_atLanes (o : AtOp) (bv cv : Nat → Nat) {put : Nat → Word64 → State → State} (ls : List LaneAcc) {s : State} (hput
  : ∀ x0 x1 s, s.Canon → (put x0 x1 s).Canon) (hs : s.Canon) :
    (atLanes o bv cv put ls s).Canon := by
  unfold atLanes
  grind only [canon_atLane, canon_noteFlags, canon_notePoison, canon_mk, State.Canon.tables, canon_foldl]

theorem canon_atSend (o : AtOp) (bv cv : Nat → Nat) (unit : Nat) (ls : List LaneAcc) {s : State} (hs : s.Canon) :
    (atSend o bv cv unit ls s).Canon := by
  unfold atSend
  grind only [canon_noteWrite, canon_useSeg, canon_writeThroughNow, canon_raiseSt, canon_due, canon_addOut, canon_sendHome,
    canon_mk, State.Canon.tables, canon_foldl]

theorem canon_atomInstr (scalar glob : Bool) (o : AtOp) (act : Word32) (ls : List LaneAcc) (bv cv : Nat → Nat) {put : Nat →
  Word64 → State → State} {s : State} (hput : ∀ x0 x1 s, s.Canon → (put x0 x1 s).Canon) (hs : s.Canon) :
    OutCanon (atomInstr scalar glob o act ls bv cv put s) := by
  have hfin (b : Bool) (s : State) (h : s.Canon) : (retire act (payFlags (if b then acquireNow o.scope.toNat s else s))).Canon
    := by
    grind only [canon_retire, canon_payFlags, canon_acquireNow]
  have hld (t : State) (h : t.Canon) : (if o.nr then t else raiseLd (hostOps s o ls).isEmpty t).Canon := by
    grind only [canon_raiseLd]
  unfold atomInstr
  dsimp only
  split
  · exact canon_raiseI _ hs
  split
  · exact canon_block hs
  split
  · exact canon_waitSnoops _ hs
  split
  · exact canon_hostAtomics _ _ _ _ hs
  split
  · exact canon_finishAccess _ _ _ _ (canon_holdIf _ _ _ (canon_atSend _ _ _ _ _ hs)) (hfin _)
  · refine canon_finishAccess _ _ _ _ ?_ fun s' h => hfin _ _ (hld s' h)
    grind only [canon_holdIf, canon_raiseSt, canon_atLanes]

@[simp] theorem canon_execAtS (o : AtOp) (d a b c : SReg) {s : State} (hs : s.Canon) : OutCanon (execAtS o d a b c s) := by
  unfold execAtS
  grind only [canon_atomInstr, canon_wS, canon_mk, State.Canon.tables, outCanon_next]

@[simp] theorem canon_execAtG (o : AtOp) (d a b c : VReg) (k : KReg) {s : State} (hs : s.Canon) :
    OutCanon (execAtG o d a b c k s) := by
  unfold execAtG
  grind only [canon_withRegs, canon_atomInstr, canon_mk, State.Canon.tables, outCanon_next]

@[simp] theorem canon_execAtX (am : BitVec 2) (o : AtOp) (d a b c : VReg) (k : KReg) {s : State} (hs : s.Canon) :
    OutCanon (execAtX am o d a b c k s) := by
  unfold execAtX
  grind only [canon_atomInstr, canon_wS, canon_withRegs, canon_mk, State.Canon.tables, outCanon_next]

theorem canon_pfOne (l2 : Bool) (va : Nat) {s : State} (hs : s.Canon) : (pfOne l2 va s).Canon := by
  unfold pfOne
  grind only [canon_walkFault, canon_useSeg, canon_homeAlloc, canon_snoopSec, canon_due, canon_mk, State.Canon.tables]

@[simp] theorem canon_execPf (l2 lanes : Bool) (a : VReg) (k : KReg) (off : BitVec 21) {s : State} (hs : s.Canon) :
    OutCanon (execPf l2 lanes a k off s) := by
  unfold execPf
  grind only [canon_withRegs, canon_retire, canon_pfOne, canon_retireS, canon_mk, State.Canon.tables, canon_foldl, outCanon_next]

@[simp] theorem canon_execFence (kind : BitVec 2) (scope : BitVec 3) {s : State} (hs : s.Canon) :
    OutCanon (execFence kind scope s) := by
  unfold execFence
  grind only [canon_block, canon_retireS, canon_acquireNow, canon_mk, State.Canon.tables, outCanon_next]

theorem canon_awaitW (core sec unit : Nat) (words : BitVec 16) {x : Nat × State} (hx : x.2.Canon) :
    (awaitW core sec unit words x).2.Canon := by
  unfold awaitW
  grind only [canon_mk, State.Canon.tables]

theorem canon_cacheOp (inv : Bool) (unit core sec : Nat) (words : BitVec 16) {x : Nat × State} (hx : x.2.Canon) :
    (cacheOp inv unit core sec words x).2.Canon := by
  unfold cacheOp
  grind only [canon_l1Put, canon_awaitW, canon_sendStore, canon_mk, State.Canon.tables]

theorem canon_cacheRange (inv : Bool) (a b : SReg) {s : State} (hs : s.Canon) : OutCanon (cacheRange inv a b s) := by
  unfold cacheRange
  have hfold := canon_foldl_of (fun x : Nat × State => x.2) (fun x e h => canon_cacheOp inv s.tick s.g.idn.core e.1 (wordsIn
    e.2.vsec (rS s a).toNat (rS s b).toNat) h)
    ((l1Of s s.g.idn.core).filter (fun e => e.2.ctx == s.g.idn.ctx && wordsIn e.2.vsec (rS s a).toNat (rS s b).toNat != 0)) (b
      := (0, s)) hs
  grind only [canon_retireS, canon_raiseW, canon_block, canon_addUnit, outCanon_next]

@[simp] theorem canon_execCwb (a b : SReg) {s : State} (hs : s.Canon) : OutCanon (execCwb a b s) := by
  unfold execCwb
  grind only [canon_cacheRange, canon_mk, State.Canon.tables, outCanon_next]

@[simp] theorem canon_execCinv (a b : SReg) {s : State} (hs : s.Canon) : OutCanon (execCinv a b s) := by
  unfold execCinv
  grind only [canon_cacheRange, canon_mk, State.Canon.tables, outCanon_next]

@[simp] theorem canon_execSmap (d a b c : SReg) {s : State} (hs : s.Canon) : OutCanon (execSmap d a b c s) := by
  unfold execSmap
  dsimp only
  repeat' split
  all_goals grind only [canon_retireS, canon_wS, canon_raiseI, canon_raiseW, canon_walkFault, canon_block, canon_flushWhere,
    canon_modTeam, canon_mk, State.Canon.tables, outCanon_next]

theorem canon_unmapSector (core sec : Nat) (x : L1Sec) {s : State} (hs : s.Canon) : (unmapSector core sec x s).Canon := by
  unfold unmapSector
  grind only [canon_flushSector, canon_useXlate, canon_loseSector, canon_mk, State.Canon.tables]

theorem canon_unmapFills (t : Team) (m : StashMap) {s : State} (hs : s.Canon) : (unmapFills t m s).Canon := by
  unfold unmapFills
  grind only [canon_mk, State.Canon.tables]

theorem canon_unmapStash (team : Nat) (m : StashMap) {s0 : State} (hs : s0.Canon) : (unmapStash team m s0).Canon := by
  unfold unmapStash
  grind only [canon_unmapFills, canon_unmapSector, canon_modTeam, canon_backFault, canon_mk, State.Canon.tables, canon_foldl]

@[simp] theorem canon_execSunmap (d a : SReg) {s : State} (hs : s.Canon) : OutCanon (execSunmap d a s) := by
  unfold execSunmap
  grind only [canon_raiseW, canon_walkFault, canon_block, canon_backFault, canon_unmapStash, canon_retireS, canon_wS, canon_mk,
    State.Canon.tables, outCanon_next]

theorem canon_atHome (e : Event) (core sec : Nat) (write : Bool) (words : BitVec 16) (me : Option Nat) {serve : State → State}
  {s : State} (hserve : ∀ s, s.Canon → (serve s).Canon) (hs : s.Canon) :
    (atHome e core sec write words me serve s).Canon := by
  unfold atHome
  grind only [canon_dueNow, canon_hold, canon_sendSnoops, canon_mk, State.Canon.tables]

@[simp] theorem canon_execRds {s : State} (hs : s.Canon) : OutCanon (execRds s) := by
  unfold execRds
  grind only [canon_atHome, canon_homeTouch, canon_homeAlloc, canon_dueNow, canon_due, canon_mk, State.Canon.tables,
    outCanon_next]

@[simp] theorem canon_execRego {s : State} (hs : s.Canon) : OutCanon (execRego s) := by
  unfold execRego
  grind only [canon_atHome, canon_regoServe, canon_mk, State.Canon.tables, outCanon_next]

@[simp] theorem canon_execWt {s : State} (hs : s.Canon) : OutCanon (execWt s) := by
  unfold execWt
  grind only [canon_atHome, canon_wtServe, canon_mk, State.Canon.tables, outCanon_next]

@[simp] theorem canon_execWb {s : State} (hs : s.Canon) : OutCanon (execWb s) := by
  unfold execWb
  grind only [canon_atHome, canon_wbServe, canon_mk, State.Canon.tables, outCanon_next]

@[simp] theorem canon_execAtom {s : State} (hs : s.Canon) : OutCanon (execAtom s) := by
  unfold execAtom
  grind only [canon_atHome, canon_atomServe, canon_mk, State.Canon.tables, outCanon_next]

@[simp] theorem canon_execRvkdata {s : State} (hs : s.Canon) : OutCanon (execRvkdata s) := by
  unfold execRvkdata
  grind only [canon_homeMerge, canon_clearOwner, canon_unhold, canon_endRelease, canon_mk, State.Canon.tables, outCanon_next]

@[simp] theorem canon_execFwdrd {s : State} (hs : s.Canon) : OutCanon (execFwdrd s) := by
  unfold execFwdrd
  grind only [canon_lazyBack, canon_due, canon_mk, State.Canon.tables, outCanon_next]

@[simp] theorem canon_execRvk {s : State} (hs : s.Canon) : OutCanon (execRvk s) := by
  unfold execRvk
  grind only [canon_dueNow, canon_supersede, canon_l1Mod, canon_mk, State.Canon.tables, outCanon_next]

theorem canon_endFill (f : FillPend) {s : State} (hs : s.Canon) : (endFill f s).Canon := by
  unfold endFill
  grind only [canon_wakeAll, canon_l1Put, canon_makeRoom, canon_takeAlias, canon_l1Mod, canon_mk, State.Canon.tables]

theorem canon_endFills (core : Nat) {s : State} (hs : s.Canon) : (endFills core s).Canon := by
  unfold endFills
  grind only [canon_endFill, canon_mk, State.Canon.tables, canon_foldl]

theorem canon_fillArrive (core sec : Nat) (up : FillPend → FillPend) {s : State} (hs : s.Canon) :
    (fillArrive core sec up s).Canon := by
  unfold fillArrive
  grind only [canon_endFill, canon_mk, State.Canon.tables]

@[simp] theorem canon_execFill {s : State} (hs : s.Canon) : OutCanon (execFill s) := by
  unfold execFill
  grind only [canon_fillArrive, canon_mk, State.Canon.tables, outCanon_next]

@[simp] theorem canon_execFwddata {s : State} (hs : s.Canon) : OutCanon (execFwddata s) := by
  unfold execFwddata
  grind only [canon_fillArrive, canon_mk, State.Canon.tables, outCanon_next]

@[simp] theorem canon_execRegack {s : State} (hs : s.Canon) : OutCanon (execRegack s) := by
  unfold execRegack
  grind only [canon_answered, canon_l1Mod, canon_mk, State.Canon.tables, outCanon_next]

@[simp] theorem canon_execWtack {s : State} (hs : s.Canon) : OutCanon (execWtack s) := by
  unfold execWtack
  grind only [canon_answered, canon_l1Mod, canon_mk, State.Canon.tables, outCanon_next]

@[simp] theorem canon_execWback {s : State} (hs : s.Canon) : OutCanon (execWback s) := by
  unfold execWback
  grind only [canon_answered, canon_endFills, canon_freeWb, canon_mk, State.Canon.tables, outCanon_next]

@[simp] theorem canon_execAtomrsp {s : State} (hs : s.Canon) : OutCanon (execAtomrsp s) := by
  unfold execAtomrsp
  grind only [canon_answered, canon_dropVWord, canon_mk, State.Canon.tables, outCanon_next]

@[simp] theorem canon_execRetry {s : State} (hs : s.Canon) : OutCanon (execRetry s) := by
  unfold execRetry
  grind only [canon_dueNow, canon_mk, State.Canon.tables, outCanon_next]

@[simp] theorem canon_execRegionHomeLookup {s : State} (hs : s.Canon) : OutCanon (execRegionHomeLookup s) := by
  unfold execRegionHomeLookup
  grind only [canon_lookupHome, canon_mk, State.Canon.tables, outCanon_next]

@[simp] theorem canon_execRefusedMessageReoffer {s : State} (hs : s.Canon) : OutCanon (execRefusedMessageReoffer s) := by
  unfold execRefusedMessageReoffer
  grind only [canon_dueNow, canon_mk, State.Canon.tables, outCanon_next]

end Sys2Proof.Machine
end

section
/-! SUPPORT. A step keeps memory canonical and its tables sorted (R51, R54, R434). Scalar, vector and cross-lane instructions. -/
namespace Sys2Proof.Machine

@[simp] theorem canon_execSadd (d a : SReg) (b : SOpd) {s : State} (hs : s.Canon) : OutCanon (execSadd d a b s) := by
  unfold execSadd
  grind only [canon_scalarOut, canon_mk, State.Canon.tables, outCanon_next]

@[simp] theorem canon_execSsub (d a : SReg) (b : SOpd) {s : State} (hs : s.Canon) : OutCanon (execSsub d a b s) := by
  unfold execSsub
  grind only [canon_scalarOut, canon_mk, State.Canon.tables, outCanon_next]

@[simp] theorem canon_execSmul (d a : SReg) (b : SOpd) {s : State} (hs : s.Canon) : OutCanon (execSmul d a b s) := by
  unfold execSmul
  grind only [canon_scalarOut, canon_mk, State.Canon.tables, outCanon_next]

@[simp] theorem canon_execSmulhS (d a : SReg) (b : SOpd) {s : State} (hs : s.Canon) : OutCanon (execSmulhS d a b s) := by
  unfold execSmulhS
  grind only [canon_scalarOut, canon_mk, State.Canon.tables, outCanon_next]

@[simp] theorem canon_execSmulhZ (d a : SReg) (b : SOpd) {s : State} (hs : s.Canon) : OutCanon (execSmulhZ d a b s) := by
  unfold execSmulhZ
  grind only [canon_scalarOut, canon_mk, State.Canon.tables, outCanon_next]

@[simp] theorem canon_execSdivS (d a : SReg) (b : SOpd) {s : State} (hs : s.Canon) : OutCanon (execSdivS d a b s) := by
  unfold execSdivS
  grind only [canon_scalarOut, canon_mk, State.Canon.tables, outCanon_next]

@[simp] theorem canon_execSdivZ (d a : SReg) (b : SOpd) {s : State} (hs : s.Canon) : OutCanon (execSdivZ d a b s) := by
  unfold execSdivZ
  grind only [canon_scalarOut, canon_mk, State.Canon.tables, outCanon_next]

@[simp] theorem canon_execSremS (d a : SReg) (b : SOpd) {s : State} (hs : s.Canon) : OutCanon (execSremS d a b s) := by
  unfold execSremS
  grind only [canon_scalarOut, canon_mk, State.Canon.tables, outCanon_next]

@[simp] theorem canon_execSremZ (d a : SReg) (b : SOpd) {s : State} (hs : s.Canon) : OutCanon (execSremZ d a b s) := by
  unfold execSremZ
  grind only [canon_scalarOut, canon_mk, State.Canon.tables, outCanon_next]

@[simp] theorem canon_execSand (d a : SReg) (b : SOpd) {s : State} (hs : s.Canon) : OutCanon (execSand d a b s) := by
  unfold execSand
  grind only [canon_scalarOut, canon_mk, State.Canon.tables, outCanon_next]

@[simp] theorem canon_execSor (d a : SReg) (b : SOpd) {s : State} (hs : s.Canon) : OutCanon (execSor d a b s) := by
  unfold execSor
  grind only [canon_scalarOut, canon_mk, State.Canon.tables, outCanon_next]

@[simp] theorem canon_execSxor (d a : SReg) (b : SOpd) {s : State} (hs : s.Canon) : OutCanon (execSxor d a b s) := by
  unfold execSxor
  grind only [canon_scalarOut, canon_mk, State.Canon.tables, outCanon_next]

@[simp] theorem canon_execSandn (d a : SReg) (b : SOpd) {s : State} (hs : s.Canon) : OutCanon (execSandn d a b s) := by
  unfold execSandn
  grind only [canon_scalarOut, canon_mk, State.Canon.tables, outCanon_next]

@[simp] theorem canon_execSshl (d a : SReg) (b : SOpd) {s : State} (hs : s.Canon) : OutCanon (execSshl d a b s) := by
  unfold execSshl
  grind only [canon_scalarOut, canon_mk, State.Canon.tables, outCanon_next]

@[simp] theorem canon_execSshr (d a : SReg) (b : SOpd) {s : State} (hs : s.Canon) : OutCanon (execSshr d a b s) := by
  unfold execSshr
  grind only [canon_scalarOut, canon_mk, State.Canon.tables, outCanon_next]

@[simp] theorem canon_execSsra (d a : SReg) (b : SOpd) {s : State} (hs : s.Canon) : OutCanon (execSsra d a b s) := by
  unfold execSsra
  grind only [canon_scalarOut, canon_mk, State.Canon.tables, outCanon_next]

@[simp] theorem canon_execSrol (d a : SReg) (b : SOpd) {s : State} (hs : s.Canon) : OutCanon (execSrol d a b s) := by
  unfold execSrol
  grind only [canon_scalarOut, canon_mk, State.Canon.tables, outCanon_next]

@[simp] theorem canon_execSminS (d a : SReg) (b : SOpd) {s : State} (hs : s.Canon) : OutCanon (execSminS d a b s) := by
  unfold execSminS
  grind only [canon_scalarOut, canon_mk, State.Canon.tables, outCanon_next]

@[simp] theorem canon_execSminZ (d a : SReg) (b : SOpd) {s : State} (hs : s.Canon) : OutCanon (execSminZ d a b s) := by
  unfold execSminZ
  grind only [canon_scalarOut, canon_mk, State.Canon.tables, outCanon_next]

@[simp] theorem canon_execSmaxS (d a : SReg) (b : SOpd) {s : State} (hs : s.Canon) : OutCanon (execSmaxS d a b s) := by
  unfold execSmaxS
  grind only [canon_scalarOut, canon_mk, State.Canon.tables, outCanon_next]

@[simp] theorem canon_execSmaxZ (d a : SReg) (b : SOpd) {s : State} (hs : s.Canon) : OutCanon (execSmaxZ d a b s) := by
  unfold execSmaxZ
  grind only [canon_scalarOut, canon_mk, State.Canon.tables, outCanon_next]

@[simp] theorem canon_execSclz (d a : SReg) {s : State} (hs : s.Canon) : OutCanon (execSclz d a s) := by
  unfold execSclz
  grind only [canon_scalarOut, canon_mk, State.Canon.tables, outCanon_next]

@[simp] theorem canon_execSctz (d a : SReg) {s : State} (hs : s.Canon) : OutCanon (execSctz d a s) := by
  unfold execSctz
  grind only [canon_scalarOut, canon_mk, State.Canon.tables, outCanon_next]

@[simp] theorem canon_execSpopc (d a : SReg) {s : State} (hs : s.Canon) : OutCanon (execSpopc d a s) := by
  unfold execSpopc
  grind only [canon_scalarOut, canon_mk, State.Canon.tables, outCanon_next]

@[simp] theorem canon_execSbrev (d a : SReg) {s : State} (hs : s.Canon) : OutCanon (execSbrev d a s) := by
  unfold execSbrev
  grind only [canon_scalarOut, canon_mk, State.Canon.tables, outCanon_next]

@[simp] theorem canon_execSbswap (d a : SReg) {s : State} (hs : s.Canon) : OutCanon (execSbswap d a s) := by
  unfold execSbswap
  grind only [canon_scalarOut, canon_mk, State.Canon.tables, outCanon_next]

@[simp] theorem canon_execSmov (d a : SReg) {s : State} (hs : s.Canon) : OutCanon (execSmov d a s) := by
  unfold execSmov
  grind only [canon_scalarOut, canon_mk, State.Canon.tables, outCanon_next]

@[simp] theorem canon_execSbfxS (d a : SReg) (pos len1 : BitVec 6) {s : State} (hs : s.Canon) :
    OutCanon (execSbfxS d a pos len1 s) := by
  unfold execSbfxS
  grind only [canon_scalarOut, canon_mk, State.Canon.tables, outCanon_next]

@[simp] theorem canon_execSbfxZ (d a : SReg) (pos len1 : BitVec 6) {s : State} (hs : s.Canon) :
    OutCanon (execSbfxZ d a pos len1 s) := by
  unfold execSbfxZ
  grind only [canon_scalarOut, canon_mk, State.Canon.tables, outCanon_next]

@[simp] theorem canon_execSbfi (d a : SReg) (pos len1 : BitVec 6) {s : State} (hs : s.Canon) :
    OutCanon (execSbfi d a pos len1 s) := by
  unfold execSbfi
  grind only [canon_scalarOut, canon_mk, State.Canon.tables, outCanon_next]

@[simp] theorem canon_execScmpEq (d a : SReg) (b : SOpd) {s : State} (hs : s.Canon) : OutCanon (execScmpEq d a b s) := by
  unfold execScmpEq
  grind only [canon_scalarOut, canon_mk, State.Canon.tables, outCanon_next]

@[simp] theorem canon_execScmpNe (d a : SReg) (b : SOpd) {s : State} (hs : s.Canon) : OutCanon (execScmpNe d a b s) := by
  unfold execScmpNe
  grind only [canon_scalarOut, canon_mk, State.Canon.tables, outCanon_next]

@[simp] theorem canon_execScmpLt (d a : SReg) (b : SOpd) {s : State} (hs : s.Canon) : OutCanon (execScmpLt d a b s) := by
  unfold execScmpLt
  grind only [canon_scalarOut, canon_mk, State.Canon.tables, outCanon_next]

@[simp] theorem canon_execScmpLe (d a : SReg) (b : SOpd) {s : State} (hs : s.Canon) : OutCanon (execScmpLe d a b s) := by
  unfold execScmpLe
  grind only [canon_scalarOut, canon_mk, State.Canon.tables, outCanon_next]

@[simp] theorem canon_execScmpLtz (d a : SReg) (b : SOpd) {s : State} (hs : s.Canon) : OutCanon (execScmpLtz d a b s) := by
  unfold execScmpLtz
  grind only [canon_scalarOut, canon_mk, State.Canon.tables, outCanon_next]

@[simp] theorem canon_execScmpLez (d a : SReg) (b : SOpd) {s : State} (hs : s.Canon) : OutCanon (execScmpLez d a b s) := by
  unfold execScmpLez
  grind only [canon_scalarOut, canon_mk, State.Canon.tables, outCanon_next]

@[simp] theorem canon_execSsel (d a : SReg) (b : SOpd) {s : State} (hs : s.Canon) : OutCanon (execSsel d a b s) := by
  unfold execSsel
  grind only [canon_scalarOut, canon_mk, State.Canon.tables, outCanon_next]

@[simp] theorem canon_execSaddImm (d a : SReg) (i : SImm) {s : State} (hs : s.Canon) : OutCanon (execSaddImm d a i s) := by
  unfold execSaddImm
  grind only [canon_scalarOut, canon_mk, State.Canon.tables, outCanon_next]

@[simp] theorem canon_execSandImm (d a : SReg) (i : SImm) {s : State} (hs : s.Canon) : OutCanon (execSandImm d a i s) := by
  unfold execSandImm
  grind only [canon_scalarOut, canon_mk, State.Canon.tables, outCanon_next]

@[simp] theorem canon_execSorImm (d a : SReg) (i : SImm) {s : State} (hs : s.Canon) : OutCanon (execSorImm d a i s) := by
  unfold execSorImm
  grind only [canon_scalarOut, canon_mk, State.Canon.tables, outCanon_next]

@[simp] theorem canon_execSxorImm (d a : SReg) (i : SImm) {s : State} (hs : s.Canon) : OutCanon (execSxorImm d a i s) := by
  unfold execSxorImm
  grind only [canon_scalarOut, canon_mk, State.Canon.tables, outCanon_next]

@[simp] theorem canon_execSshlImm (d a : SReg) (i : SImm) {s : State} (hs : s.Canon) : OutCanon (execSshlImm d a i s) := by
  unfold execSshlImm
  grind only [canon_scalarOut, canon_mk, State.Canon.tables, outCanon_next]

@[simp] theorem canon_execSshrImm (d a : SReg) (i : SImm) {s : State} (hs : s.Canon) : OutCanon (execSshrImm d a i s) := by
  unfold execSshrImm
  grind only [canon_scalarOut, canon_mk, State.Canon.tables, outCanon_next]

@[simp] theorem canon_execSsraImm (d a : SReg) (i : SImm) {s : State} (hs : s.Canon) : OutCanon (execSsraImm d a i s) := by
  unfold execSsraImm
  grind only [canon_scalarOut, canon_mk, State.Canon.tables, outCanon_next]

@[simp] theorem canon_execSli (d : SReg) (i : SImm) {s : State} (hs : s.Canon) : OutCanon (execSli d i s) := by
  unfold execSli
  grind only [canon_scalarOut, canon_mk, State.Canon.tables, outCanon_next]

@[simp] theorem canon_execSadr (d : SReg) (o : POff) {s : State} (hs : s.Canon) : OutCanon (execSadr d o s) := by
  unfold execSadr
  grind only [canon_scalarOut, canon_mk, State.Canon.tables, outCanon_next]

@[simp] theorem canon_execSfaddCode (t : FTy) (d a : SReg) (c : BitVec 8) {s : State} (hs : s.Canon) :
    OutCanon (execSfaddCode t d a c s) := by
  unfold execSfaddCode
  grind only [canon_scalarF, canon_mk, State.Canon.tables, outCanon_next]

@[simp] theorem canon_execSfmulCode (t : FTy) (d a : SReg) (c : BitVec 8) {s : State} (hs : s.Canon) :
    OutCanon (execSfmulCode t d a c s) := by
  unfold execSfmulCode
  grind only [canon_scalarF, canon_mk, State.Canon.tables, outCanon_next]

@[simp] theorem canon_execSfadd (t : FTy) (r : Rnd) (d a : SReg) (b : SOpd) {s : State} (hs : s.Canon) :
    OutCanon (execSfadd t r d a b s) := by
  unfold execSfadd
  grind only [canon_scalarF, canon_mk, State.Canon.tables, outCanon_next]

@[simp] theorem canon_execSfsub (t : FTy) (r : Rnd) (d a : SReg) (b : SOpd) {s : State} (hs : s.Canon) :
    OutCanon (execSfsub t r d a b s) := by
  unfold execSfsub
  grind only [canon_scalarF, canon_mk, State.Canon.tables, outCanon_next]

@[simp] theorem canon_execSfmul (t : FTy) (r : Rnd) (d a : SReg) (b : SOpd) {s : State} (hs : s.Canon) :
    OutCanon (execSfmul t r d a b s) := by
  unfold execSfmul
  grind only [canon_scalarF, canon_mk, State.Canon.tables, outCanon_next]

@[simp] theorem canon_execSfdiv (t : FTy) (r : Rnd) (d a : SReg) (b : SOpd) {s : State} (hs : s.Canon) :
    OutCanon (execSfdiv t r d a b s) := by
  unfold execSfdiv
  grind only [canon_scalarF, canon_mk, State.Canon.tables, outCanon_next]

@[simp] theorem canon_execSfsqrt (t : FTy) (r : Rnd) (d a : SReg) {s : State} (hs : s.Canon) :
    OutCanon (execSfsqrt t r d a s) := by
  unfold execSfsqrt
  grind only [canon_scalarF, canon_mk, State.Canon.tables, outCanon_next]

@[simp] theorem canon_execSfma (t : FTy) (r : Rnd) (d a : SReg) (b : SOpd) (c : SReg) {s : State} (hs : s.Canon) :
    OutCanon (execSfma t r d a b c s) := by
  unfold execSfma
  grind only [canon_scalarF, canon_mk, State.Canon.tables, outCanon_next]

@[simp] theorem canon_execSfcvt (dst src : Ty5) (r : Rnd) (d a : SReg) {s : State} (hs : s.Canon) :
    OutCanon (execSfcvt dst src r d a s) := by
  unfold execSfcvt
  grind only [canon_retireS, canon_orFlags, canon_wS, canon_mk, State.Canon.tables, outCanon_next]

@[simp] theorem canon_execSfcmp (c : BitVec 3) (t : FTy) (d a : SReg) (b : SOpd) {s : State} (hs : s.Canon) :
    OutCanon (execSfcmp c t d a b s) := by
  unfold execSfcmp
  grind only [canon_retireS, canon_orFlags, canon_wS, canon_mk, State.Canon.tables, outCanon_next]

theorem canon_vflt2 (t : FTy) (o : VBin) (f : FFmt → Nat → Nat → Nat × FFlags) {s : State} (hs : s.Canon) :
    OutCanon (vflt2 t o f s) := by
  unfold vflt2
  grind only [canon_vecOutF, canon_mk, State.Canon.tables, outCanon_next]

theorem canon_vflt1 (t : FTy) (o : VUn) (f : FFmt → Nat → Nat × FFlags) {s : State} (hs : s.Canon) :
    OutCanon (vflt1 t o f s) := by
  unfold vflt1
  grind only [canon_vecOutF, canon_mk, State.Canon.tables, outCanon_next]

theorem canon_vfused (np nc : Bool) (t : FTy) (r : Rnd) (o : VBin) (c : VReg) {s : State} (hs : s.Canon) :
    OutCanon (vfused np nc t r o c s) := by
  unfold vfused
  grind only [canon_vecOutF, canon_mk, State.Canon.tables, outCanon_next]

@[simp] theorem canon_execVfadd (t : FTy) (r : Rnd) (o : VBin) {s : State} (hs : s.Canon) :
    OutCanon (execVfadd t r o s) := by
  unfold execVfadd
  grind only [canon_vflt2, canon_mk, State.Canon.tables, outCanon_next]

@[simp] theorem canon_execVfsub (t : FTy) (r : Rnd) (o : VBin) {s : State} (hs : s.Canon) :
    OutCanon (execVfsub t r o s) := by
  unfold execVfsub
  grind only [canon_vflt2, canon_mk, State.Canon.tables, outCanon_next]

@[simp] theorem canon_execVfmul (t : FTy) (r : Rnd) (o : VBin) {s : State} (hs : s.Canon) :
    OutCanon (execVfmul t r o s) := by
  unfold execVfmul
  grind only [canon_vflt2, canon_mk, State.Canon.tables, outCanon_next]

@[simp] theorem canon_execVfdiv (t : FTy) (r : Rnd) (o : VBin) {s : State} (hs : s.Canon) :
    OutCanon (execVfdiv t r o s) := by
  unfold execVfdiv
  grind only [canon_vflt2, canon_mk, State.Canon.tables, outCanon_next]

@[simp] theorem canon_execVfma (t : FTy) (r : Rnd) (o : VBin) (c : VReg) {s : State} (hs : s.Canon) :
    OutCanon (execVfma t r o c s) := by
  unfold execVfma
  grind only [canon_vfused, canon_mk, State.Canon.tables, outCanon_next]

@[simp] theorem canon_execVfms (t : FTy) (r : Rnd) (o : VBin) (c : VReg) {s : State} (hs : s.Canon) :
    OutCanon (execVfms t r o c s) := by
  unfold execVfms
  grind only [canon_vfused, canon_mk, State.Canon.tables, outCanon_next]

@[simp] theorem canon_execVfnma (t : FTy) (r : Rnd) (o : VBin) (c : VReg) {s : State} (hs : s.Canon) :
    OutCanon (execVfnma t r o c s) := by
  unfold execVfnma
  grind only [canon_vfused, canon_mk, State.Canon.tables, outCanon_next]

@[simp] theorem canon_execVfnms (t : FTy) (r : Rnd) (o : VBin) (c : VReg) {s : State} (hs : s.Canon) :
    OutCanon (execVfnms t r o c s) := by
  unfold execVfnms
  grind only [canon_vfused, canon_mk, State.Canon.tables, outCanon_next]

@[simp] theorem canon_execVfmin (t : FTy) (o : VBin) {s : State} (hs : s.Canon) : OutCanon (execVfmin t o s) := by
  unfold execVfmin
  grind only [canon_vflt2, canon_mk, State.Canon.tables, outCanon_next]

@[simp] theorem canon_execVfmax (t : FTy) (o : VBin) {s : State} (hs : s.Canon) : OutCanon (execVfmax t o s) := by
  unfold execVfmax
  grind only [canon_vflt2, canon_mk, State.Canon.tables, outCanon_next]

@[simp] theorem canon_execVfminnum (t : FTy) (o : VBin) {s : State} (hs : s.Canon) : OutCanon (execVfminnum t o s) := by
  unfold execVfminnum
  grind only [canon_vflt2, canon_mk, State.Canon.tables, outCanon_next]

@[simp] theorem canon_execVfmaxnum (t : FTy) (o : VBin) {s : State} (hs : s.Canon) : OutCanon (execVfmaxnum t o s) := by
  unfold execVfmaxnum
  grind only [canon_vflt2, canon_mk, State.Canon.tables, outCanon_next]

@[simp] theorem canon_execVfcpys (t : FTy) (o : VBin) {s : State} (hs : s.Canon) : OutCanon (execVfcpys t o s) := by
  unfold execVfcpys
  grind only [canon_vflt2, canon_mk, State.Canon.tables, outCanon_next]

@[simp] theorem canon_execVfcmp (c : BitVec 3) (t : FTy) (kd : KReg) (a : VReg) (b : VOpd) (k : KReg) {s : State} (hs : s.Canon) :
    OutCanon (execVfcmp c t kd a b k s) := by
  unfold execVfcmp
  grind only [canon_cmpOut, canon_mk, State.Canon.tables, canon_foldl, outCanon_next]

@[simp] theorem canon_execVfabs (t : FTy) (o : VUn) {s : State} (hs : s.Canon) : OutCanon (execVfabs t o s) := by
  unfold execVfabs
  grind only [canon_vflt1, canon_mk, State.Canon.tables, outCanon_next]

@[simp] theorem canon_execVfneg (t : FTy) (o : VUn) {s : State} (hs : s.Canon) : OutCanon (execVfneg t o s) := by
  unfold execVfneg
  grind only [canon_vflt1, canon_mk, State.Canon.tables, outCanon_next]

@[simp] theorem canon_execVfsqrt (t : FTy) (r : Rnd) (o : VUn) {s : State} (hs : s.Canon) :
    OutCanon (execVfsqrt t r o s) := by
  unfold execVfsqrt
  grind only [canon_vflt1, canon_mk, State.Canon.tables, outCanon_next]

@[simp] theorem canon_execVfrcp (t : FTy) (r : Rnd) (o : VUn) {s : State} (hs : s.Canon) :
    OutCanon (execVfrcp t r o s) := by
  unfold execVfrcp
  grind only [canon_vflt1, canon_mk, State.Canon.tables, outCanon_next]

@[simp] theorem canon_execVfrsq (t : FTy) (r : Rnd) (o : VUn) {s : State} (hs : s.Canon) :
    OutCanon (execVfrsq t r o s) := by
  unfold execVfrsq
  grind only [canon_vflt1, canon_mk, State.Canon.tables, outCanon_next]

@[simp] theorem canon_execVfexp2 (t : FTy) (r : Rnd) (o : VUn) {s : State} (hs : s.Canon) :
    OutCanon (execVfexp2 t r o s) := by
  unfold execVfexp2
  grind only [canon_vflt1, canon_mk, State.Canon.tables, outCanon_next]

@[simp] theorem canon_execVflog2 (t : FTy) (r : Rnd) (o : VUn) {s : State} (hs : s.Canon) :
    OutCanon (execVflog2 t r o s) := by
  unfold execVflog2
  grind only [canon_vflt1, canon_mk, State.Canon.tables, outCanon_next]

@[simp] theorem canon_execVfsinpi (t : FTy) (r : Rnd) (o : VUn) {s : State} (hs : s.Canon) :
    OutCanon (execVfsinpi t r o s) := by
  unfold execVfsinpi
  grind only [canon_vflt1, canon_mk, State.Canon.tables, outCanon_next]

@[simp] theorem canon_execVfcospi (t : FTy) (r : Rnd) (o : VUn) {s : State} (hs : s.Canon) :
    OutCanon (execVfcospi t r o s) := by
  unfold execVfcospi
  grind only [canon_vflt1, canon_mk, State.Canon.tables, outCanon_next]

@[simp] theorem canon_execVftanh (t : FTy) (r : Rnd) (o : VUn) {s : State} (hs : s.Canon) :
    OutCanon (execVftanh t r o s) := by
  unfold execVftanh
  grind only [canon_vflt1, canon_mk, State.Canon.tables, outCanon_next]

@[simp] theorem canon_execVfrnd (t : FTy) (r : Rnd) (o : VUn) {s : State} (hs : s.Canon) :
    OutCanon (execVfrnd t r o s) := by
  unfold execVfrnd
  grind only [canon_vflt1, canon_mk, State.Canon.tables, outCanon_next]

@[simp] theorem canon_execVfclass (t : FTy) (o : VUn) {s : State} (hs : s.Canon) : OutCanon (execVfclass t o s) := by
  unfold execVfclass
  grind only [canon_vflt1, canon_mk, State.Canon.tables, outCanon_next]

@[simp] theorem canon_execVfcvt (dst src : Ty5) (nsat : Bool) (r : Rnd) (o : VUn) (part : BitVec 4) (q seg : BitVec 2) (sc :
  VReg) {s : State} (hs : s.Canon) :
    OutCanon (execVfcvt dst src nsat r o part q seg sc s) := by
  unfold execVfcvt
  grind only [canon_raiseI, canon_vecDoneF, canon_mk, State.Canon.tables, outCanon_next]

@[simp] theorem canon_execVfdot2 (t : FTy) (r : Rnd) (o : VBin) (c : VReg) {s : State} (hs : s.Canon) :
    OutCanon (execVfdot2 t r o c s) := by
  unfold execVfdot2
  grind only [canon_vecOutF, canon_mk, State.Canon.tables, outCanon_next]

@[simp] theorem canon_execVfscale (t : FTy) (r : Rnd) (o : VBin) {s : State} (hs : s.Canon) :
    OutCanon (execVfscale t r o s) := by
  unfold execVfscale
  grind only [canon_vecOutF, canon_mk, State.Canon.tables, outCanon_next]

theorem canon_vint2 (sx : Bool) (w : IW) (o : VBin) (f : BitVec w.width → BitVec w.width → BitVec w.width) {s : State} (hs :
  s.Canon) :
    OutCanon (vint2 sx w o f s) := by
  unfold vint2
  grind only [canon_vecOut, canon_mk, State.Canon.tables, outCanon_next]

theorem canon_vint1 (w : IW) (o : VUn) (f : BitVec w.width → BitVec w.width) {s : State} (hs : s.Canon) :
    OutCanon (vint1 w o f s) := by
  unfold vint1
  grind only [canon_vecOut, canon_mk, State.Canon.tables, outCanon_next]

theorem canon_vlane2 (o : VBin) (f : Word64 → Word64 → Word64) {s : State} (hs : s.Canon) : OutCanon (vlane2 o f s) := by
  unfold vlane2
  grind only [canon_vecOut, canon_mk, State.Canon.tables, outCanon_next]

theorem canon_vlane1 (o : VUn) (f : Word64 → Word64) {s : State} (hs : s.Canon) : OutCanon (vlane1 o f s) := by
  unfold vlane1
  grind only [canon_vecOut, canon_mk, State.Canon.tables, outCanon_next]

@[simp] theorem canon_execVadd (w : IW) (o : VBin) {s : State} (hs : s.Canon) : OutCanon (execVadd w o s) := by
  unfold execVadd
  grind only [canon_vint2, canon_mk, State.Canon.tables, outCanon_next]

@[simp] theorem canon_execVsub (w : IW) (o : VBin) {s : State} (hs : s.Canon) : OutCanon (execVsub w o s) := by
  unfold execVsub
  grind only [canon_vint2, canon_mk, State.Canon.tables, outCanon_next]

@[simp] theorem canon_execVaddsS (w : IW) (o : VBin) {s : State} (hs : s.Canon) : OutCanon (execVaddsS w o s) := by
  unfold execVaddsS
  grind only [canon_vint2, canon_mk, State.Canon.tables, outCanon_next]

@[simp] theorem canon_execVaddsZ (w : IW) (o : VBin) {s : State} (hs : s.Canon) : OutCanon (execVaddsZ w o s) := by
  unfold execVaddsZ
  grind only [canon_vint2, canon_mk, State.Canon.tables, outCanon_next]

@[simp] theorem canon_execVsubsS (w : IW) (o : VBin) {s : State} (hs : s.Canon) : OutCanon (execVsubsS w o s) := by
  unfold execVsubsS
  grind only [canon_vint2, canon_mk, State.Canon.tables, outCanon_next]

@[simp] theorem canon_execVsubsZ (w : IW) (o : VBin) {s : State} (hs : s.Canon) : OutCanon (execVsubsZ w o s) := by
  unfold execVsubsZ
  grind only [canon_vint2, canon_mk, State.Canon.tables, outCanon_next]

@[simp] theorem canon_execVmul (w : IW) (o : VBin) {s : State} (hs : s.Canon) : OutCanon (execVmul w o s) := by
  unfold execVmul
  grind only [canon_vint2, canon_mk, State.Canon.tables, outCanon_next]

@[simp] theorem canon_execVmulhS (w : IW) (o : VBin) {s : State} (hs : s.Canon) : OutCanon (execVmulhS w o s) := by
  unfold execVmulhS
  grind only [canon_vint2, canon_mk, State.Canon.tables, outCanon_next]

@[simp] theorem canon_execVmulhZ (w : IW) (o : VBin) {s : State} (hs : s.Canon) : OutCanon (execVmulhZ w o s) := by
  unfold execVmulhZ
  grind only [canon_vint2, canon_mk, State.Canon.tables, outCanon_next]

@[simp] theorem canon_execVmad (w : IW) (o : VBin) (c : VReg) {s : State} (hs : s.Canon) :
    OutCanon (execVmad w o c s) := by
  unfold execVmad
  grind only [canon_vecOut, canon_mk, State.Canon.tables, outCanon_next]

@[simp] theorem canon_execVand (o : VBin) {s : State} (hs : s.Canon) : OutCanon (execVand o s) := by
  unfold execVand
  grind only [canon_vlane2, canon_mk, State.Canon.tables, outCanon_next]

@[simp] theorem canon_execVor (o : VBin) {s : State} (hs : s.Canon) : OutCanon (execVor o s) := by
  unfold execVor
  grind only [canon_vlane2, canon_mk, State.Canon.tables, outCanon_next]

@[simp] theorem canon_execVxor (o : VBin) {s : State} (hs : s.Canon) : OutCanon (execVxor o s) := by
  unfold execVxor
  grind only [canon_vlane2, canon_mk, State.Canon.tables, outCanon_next]

@[simp] theorem canon_execVandn (o : VBin) {s : State} (hs : s.Canon) : OutCanon (execVandn o s) := by
  unfold execVandn
  grind only [canon_vlane2, canon_mk, State.Canon.tables, outCanon_next]

@[simp] theorem canon_execVshl (w : IW) (o : VBin) {s : State} (hs : s.Canon) : OutCanon (execVshl w o s) := by
  unfold execVshl
  grind only [canon_vint2, canon_mk, State.Canon.tables, outCanon_next]

@[simp] theorem canon_execVshr (w : IW) (o : VBin) {s : State} (hs : s.Canon) : OutCanon (execVshr w o s) := by
  unfold execVshr
  grind only [canon_vint2, canon_mk, State.Canon.tables, outCanon_next]

@[simp] theorem canon_execVsra (w : IW) (o : VBin) {s : State} (hs : s.Canon) : OutCanon (execVsra w o s) := by
  unfold execVsra
  grind only [canon_vint2, canon_mk, State.Canon.tables, outCanon_next]

@[simp] theorem canon_execVminS (w : IW) (o : VBin) {s : State} (hs : s.Canon) : OutCanon (execVminS w o s) := by
  unfold execVminS
  grind only [canon_vint2, canon_mk, State.Canon.tables, outCanon_next]

@[simp] theorem canon_execVminZ (w : IW) (o : VBin) {s : State} (hs : s.Canon) : OutCanon (execVminZ w o s) := by
  unfold execVminZ
  grind only [canon_vint2, canon_mk, State.Canon.tables, outCanon_next]

@[simp] theorem canon_execVmaxS (w : IW) (o : VBin) {s : State} (hs : s.Canon) : OutCanon (execVmaxS w o s) := by
  unfold execVmaxS
  grind only [canon_vint2, canon_mk, State.Canon.tables, outCanon_next]

@[simp] theorem canon_execVmaxZ (w : IW) (o : VBin) {s : State} (hs : s.Canon) : OutCanon (execVmaxZ w o s) := by
  unfold execVmaxZ
  grind only [canon_vint2, canon_mk, State.Canon.tables, outCanon_next]

@[simp] theorem canon_execVcmp (c : BitVec 3) (w : IW) (kd : KReg) (a : VReg) (b : VOpd) (k : KReg) {s : State} (hs : s.Canon) :
    OutCanon (execVcmp c w kd a b k s) := by
  unfold execVcmp
  grind only [canon_cmpOut, canon_mk, State.Canon.tables, outCanon_next]

@[simp] theorem canon_execVnot (o : VUn) {s : State} (hs : s.Canon) : OutCanon (execVnot o s) := by
  unfold execVnot
  grind only [canon_vlane1, canon_mk, State.Canon.tables, outCanon_next]

@[simp] theorem canon_execVabs (w : IW) (o : VUn) {s : State} (hs : s.Canon) : OutCanon (execVabs w o s) := by
  unfold execVabs
  grind only [canon_vint1, canon_mk, State.Canon.tables, outCanon_next]

@[simp] theorem canon_execVneg (w : IW) (o : VUn) {s : State} (hs : s.Canon) : OutCanon (execVneg w o s) := by
  unfold execVneg
  grind only [canon_vint1, canon_mk, State.Canon.tables, outCanon_next]

@[simp] theorem canon_execVclz (w : IW) (o : VUn) {s : State} (hs : s.Canon) : OutCanon (execVclz w o s) := by
  unfold execVclz
  grind only [canon_vint1, canon_mk, State.Canon.tables, outCanon_next]

@[simp] theorem canon_execVpopc (w : IW) (o : VUn) {s : State} (hs : s.Canon) : OutCanon (execVpopc w o s) := by
  unfold execVpopc
  grind only [canon_vint1, canon_mk, State.Canon.tables, outCanon_next]

@[simp] theorem canon_execVmov (o : VUn) {s : State} (hs : s.Canon) : OutCanon (execVmov o s) := by
  unfold execVmov
  grind only [canon_vlane1, canon_mk, State.Canon.tables, outCanon_next]

@[simp] theorem canon_execViota (w : IW) (d : VReg) (k : KReg) {s : State} (hs : s.Canon) :
    OutCanon (execViota w d k s) := by
  unfold execViota
  grind only [canon_vecOut, canon_mk, State.Canon.tables, outCanon_next]

@[simp] theorem canon_execVli (d : VReg) (v : VLiVal) (k : KReg) {s : State} (hs : s.Canon) :
    OutCanon (execVli d v k s) := by
  unfold execVli
  grind only [canon_vecOut, canon_mk, State.Canon.tables, outCanon_next]

@[simp] theorem canon_execVbfxS (w : IW) (o : VUn) (pos len1 : BitVec 6) {s : State} (hs : s.Canon) :
    OutCanon (execVbfxS w o pos len1 s) := by
  unfold execVbfxS
  grind only [canon_vint1, canon_mk, State.Canon.tables, outCanon_next]

@[simp] theorem canon_execVbfxZ (w : IW) (o : VUn) (pos len1 : BitVec 6) {s : State} (hs : s.Canon) :
    OutCanon (execVbfxZ w o pos len1 s) := by
  unfold execVbfxZ
  grind only [canon_vint1, canon_mk, State.Canon.tables, outCanon_next]

@[simp] theorem canon_execVbfi (w : IW) (o : VUn) (pos len1 : BitVec 6) {s : State} (hs : s.Canon) :
    OutCanon (execVbfi w o pos len1 s) := by
  unfold execVbfi
  grind only [canon_vecOut, canon_mk, State.Canon.tables, outCanon_next]

@[simp] theorem canon_execVsel (o : VBin) (c : VReg) {s : State} (hs : s.Canon) : OutCanon (execVsel o c s) := by
  unfold execVsel
  grind only [canon_vecOut, canon_mk, State.Canon.tables, outCanon_next]

theorem canon_elemOut (rs : List VReg) (n : Nat) (d : VReg) (k : KReg) (f : Nat → Nat) {s : State} (hs : s.Canon) :
    OutCanon (elemOut rs n d k f s) := by
  unfold elemOut
  grind only [canon_vecOut, canon_mk, State.Canon.tables, outCanon_next]

theorem canon_shuffle (mode : Nat) (w : IW) (o : VTri) (sg : BitVec 4) {s : State} (hs : s.Canon) :
    OutCanon (shuffle mode w o sg s) := by
  unfold shuffle
  grind only [canon_elemOut, canon_mk, State.Canon.tables, outCanon_next]

@[simp] theorem canon_execVshfO (w : IW) (o : VTri) (sg : BitVec 4) {s : State} (hs : s.Canon) :
    OutCanon (execVshfO w o sg s) := by
  unfold execVshfO
  grind only [canon_shuffle, canon_mk, State.Canon.tables, outCanon_next]

@[simp] theorem canon_execVshfW (w : IW) (o : VTri) (sg : BitVec 4) {s : State} (hs : s.Canon) :
    OutCanon (execVshfW w o sg s) := by
  unfold execVshfW
  grind only [canon_shuffle, canon_mk, State.Canon.tables, outCanon_next]

@[simp] theorem canon_execVshfC (w : IW) (o : VTri) (sg : BitVec 4) {s : State} (hs : s.Canon) :
    OutCanon (execVshfC w o sg s) := by
  unfold execVshfC
  grind only [canon_shuffle, canon_mk, State.Canon.tables, outCanon_next]

@[simp] theorem canon_execVbcast (w : IW) (o : VUn) (b : SReg) (sg : BitVec 4) {s : State} (hs : s.Canon) :
    OutCanon (execVbcast w o b sg s) := by
  unfold execVbcast
  grind only [canon_elemOut, canon_mk, State.Canon.tables, outCanon_next]

@[simp] theorem canon_execVvote (f : BitVec 2) (o : VUn) {s : State} (hs : s.Canon) : OutCanon (execVvote f o s) := by
  unfold execVvote
  grind only [canon_vecOut, canon_mk, State.Canon.tables, outCanon_next]

theorem canon_nbrDone (n d : Nat) (right : Bool) (o : VUn) (edge : Nat → Nat) {s : State} (hs : s.Canon) :
    (nbrDone n d right o edge s).Canon := by
  unfold nbrDone
  grind only [canon_vecDone, canon_mk, State.Canon.tables]

theorem canon_chReadDone (right : Bool) {s : State} (hs : s.Canon) : (chReadDone right s).Canon := by
  unfold chReadDone
  grind only [canon_mk, State.Canon.tables]

theorem canon_chWait {s : State} (hs : s.Canon) : (chWait s).Canon := by
  unfold chWait
  grind only [canon_timer, canon_block, canon_mk, State.Canon.tables]

theorem canon_chPostNow (right : Bool) (a : VReg) {s : State} (hs : s.Canon) :
    ∀ t, chPostNow right a s = some t → t.Canon := by
  unfold chPostNow
  grind only [canon_wakeTeam, canon_noTimer, canon_mk, State.Canon.tables]

theorem canon_chained (n d : Nat) (right : Bool) (o : VUn) {s : State} (hs : s.Canon) : (chained n d right o s).Canon := by
  unfold chained
  grind only [canon_raiseI, canon_chPostNow, canon_chWait, canon_nbrDone, canon_noTimer, canon_chReadDone, canon_wakeTeam,
    canon_mk, State.Canon.tables]

@[simp] theorem canon_execVnbr (f : BitVec 3) (w : IW) (o : VUn) (dist : BitVec 9) {s : State} (hs : s.Canon) :
    OutCanon (execVnbr f w o dist s) := by
  unfold execVnbr
  grind only [canon_checked, canon_nbrDone, canon_chained, canon_mk, State.Canon.tables, outCanon_next]

@[simp] theorem canon_execVred (f : BitVec 4) (t : BitVec 2) (r : Rnd) (o : VUn) {s : State} (hs : s.Canon) :
    OutCanon (execVred f t r o s) := by
  unfold execVred
  grind only [canon_checked, canon_retire, canon_orFlags, canon_wV, canon_mk, State.Canon.tables, outCanon_next]

theorem canon_scanOut (exc : Bool) (f : BitVec 4) (t : BitVec 2) (r : Rnd) (o : VUn) (c : VReg) {s : State} (hs : s.Canon) :
    OutCanon (scanOut exc f t r o c s) := by
  unfold scanOut
  grind only [canon_checked, canon_retire, canon_orFlags, canon_wV, canon_mk, State.Canon.tables, outCanon_next]

@[simp] theorem canon_execVscanInc (f : BitVec 4) (t : BitVec 2) (r : Rnd) (o : VUn) (c : VReg) {s : State} (hs : s.Canon) :
    OutCanon (execVscanInc f t r o c s) := by
  unfold execVscanInc
  grind only [canon_scanOut, canon_mk, State.Canon.tables, outCanon_next]

@[simp] theorem canon_execVscanExc (f : BitVec 4) (t : BitVec 2) (r : Rnd) (o : VUn) (c : VReg) {s : State} (hs : s.Canon) :
    OutCanon (execVscanExc f t r o c s) := by
  unfold execVscanExc
  grind only [canon_scanOut, canon_mk, State.Canon.tables, outCanon_next]

@[simp] theorem canon_execVperm (o : VTri) (c : VReg) {s : State} (hs : s.Canon) : OutCanon (execVperm o c s) := by
  unfold execVperm
  grind only [canon_vecOut, canon_mk, State.Canon.tables, outCanon_next]

@[simp] theorem canon_execVpack (w : IW) (sat : Sat) (o : VTri) {s : State} (hs : s.Canon) :
    OutCanon (execVpack w sat o s) := by
  unfold execVpack
  grind only [canon_elemOut, canon_mk, State.Canon.tables, outCanon_next]

@[simp] theorem canon_execVunpk (w : IW) (sx : Bool) (part : BitVec 1) (o : VUn) {s : State} (hs : s.Canon) :
    OutCanon (execVunpk w sx part o s) := by
  unfold execVunpk
  grind only [canon_elemOut, canon_mk, State.Canon.tables, outCanon_next]

theorem canon_xshfDone (o : VUn) (theirs : Word32) (img : BitVec 2048) {s : State} (hs : s.Canon) :
    (xshfDone o theirs img s).Canon := by
  unfold xshfDone
  grind only [canon_noTimer, canon_vecDone, canon_mk, State.Canon.tables]

theorem canon_withdraw (gid : Nat) {s : State} (hs : s.Canon) : (withdraw gid s).Canon := by
  unfold withdraw
  grind only [canon_mk, State.Canon.tables]

theorem canon_xshf (o : VUn) (w : Word64) {s : State} (hs : s.Canon) : (xshf o w s).Canon := by
  unfold xshf
  grind only [canon_raiseI, canon_withdraw, canon_noTimer, canon_xshfDone, canon_wakeGid, canon_timer, canon_block, canon_mk,
    State.Canon.tables]

@[simp] theorem canon_execVxshf (o : VUn) (b : SReg) {s : State} (hs : s.Canon) : OutCanon (execVxshf o b s) := by
  unfold execVxshf
  grind only [canon_raiseI, canon_xshf, canon_mk, State.Canon.tables, outCanon_next]

end Sys2Proof.Machine
end

section
/-! SUPPORT. A step keeps memory canonical and its tables sorted (R51, R54, R434). Engines: copies, tensor and matrix commands, and saves. -/
namespace Sys2Proof.Machine

theorem canon_engRead (a : Agent) (t : Team) (late : Bool) (p : Pt) {s : State} (hs : s.Canon) :
    (engRead a t late p s).Canon := by
  unfold engRead
  grind only [canon_sendSnoops, canon_useSeg, canon_hostTouch, canon_lazyBacks, canon_homeAlloc, canon_mk, State.Canon.tables,
    EngRes.canon_ok, EngRes.canon_fault, EngRes.canon_wait]

theorem canon_engWrite (a : Agent) (t : Team) (g : Option Group) (p : Pt) (m v : Nat) (po : Bool) {s : State} (hs : s.Canon) :
    (engWrite a t g p m v po s).Canon := by
  unfold engWrite
  grind only [canon_sendSnoops, canon_useSeg, canon_noteWrite, canon_hostWriteM, canon_hostPutM, canon_homeWrite, canon_sramPut,
    canon_mk, State.Canon.tables, EngRes.canon_ok, EngRes.canon_fault, EngRes.canon_wait]

theorem canon_readPieces (a : Agent) (t : Team) (c : CopyCmd) (n0 : List Piece) (n1 : Nat) (n2 : Bool) {s : State} (hs :
  s.Canon) :
    (readPieces a t c n0 n1 n2 s).Canon := by
  induction n0 generalizing n1 n2 s with
  | nil => exact hs
  | cons p ps ih => unfold readPieces; grind only [canon_engRead, EngRes.canon_ok]

theorem canon_writePieces (a : Agent) (t : Team) (g : Group) (v : Nat) (po : Bool) (n0 : List Piece) (n1 : Bool) {s : State} (hs
  : s.Canon) :
    (writePieces a t g v po n0 n1 s).Canon := by
  induction n0 generalizing n1 s with
  | nil => exact hs
  | cons p ps ih => unfold writePieces; grind only [canon_engWrite, EngRes.canon_ok]

theorem canon_copyRun (a : Agent) (t : Team) (g : Group) (c : CopyCmd) (n0 n1 : Nat) (n2 : Bool) {s : State} (hs : s.Canon) :
    (copyRun a t g c n0 n1 n2 s).s.Canon := by
  induction n0 generalizing n1 n2 s c with
  | zero => exact hs
  | succ n ih =>
    unfold copyRun
    grind only [canon_readPieces, canon_writePieces, canon_walkFault, EngRes.canon_ok, EngRes.canon_wait]

theorem canon_modCopy (gid slot : Nat) (f : CopyCmd → CopyCmd) {s : State} (hs : s.Canon) :
    (modCopy gid slot f s).Canon := by
  unfold modCopy
  grind only [canon_modGroup, canon_mk, State.Canon.tables]

theorem canon_copyProgress (gid slot n : Nat) {s : State} (hs : s.Canon) : (copyProgress gid slot n s).Canon := by
  unfold copyProgress
  grind only [canon_copyRun, canon_modGroup, canon_dues, canon_modCopy, canon_wakeWhere, canon_due, canon_mk, State.Canon.tables]

@[simp] theorem canon_execCopyProgress {s : State} (hs : s.Canon) : OutCanon (execCopyProgress s) := by
  unfold execCopyProgress
  grind only [canon_copyProgress, canon_mk, State.Canon.tables, outCanon_next]

theorem canon_accept (c : CopyCmd) {s : State} (hs : s.Canon) : (accept c s).Canon := by
  unfold accept
  grind only [canon_mk, State.Canon.tables]

theorem canon_copyInstr (chk : List (Option Flt)) (c : CopyCmd) {s : State} (hs : s.Canon) :
    OutCanon (copyInstr chk c s) := by
  unfold copyInstr
  grind only [canon_raiseI, canon_block, canon_raiseW, canon_retireS, canon_accept, canon_mk, State.Canon.tables, outCanon_next]

@[simp] theorem canon_execCpy (dir : BitVec 2) (d a : SReg) (n : CpyLen) (r : SReg) {s : State} (hs : s.Canon) :
    OutCanon (execCpy dir d a n r s) := by
  unfold execCpy
  grind only [canon_copyInstr, canon_mk, State.Canon.tables, outCanon_next]

theorem canon_cpyt (store : Bool) (d a r : SReg) {s : State} (hs : s.Canon) : OutCanon (cpyt store d a r s) := by
  unfold cpyt
  grind only [canon_copyInstr, canon_mk, State.Canon.tables, canon_foldl, outCanon_next]

@[simp] theorem canon_execCpytLd (d a b : SReg) {s : State} (hs : s.Canon) : OutCanon (execCpytLd d a b s) := by
  unfold execCpytLd
  grind only [canon_cpyt, canon_mk, State.Canon.tables, outCanon_next]

@[simp] theorem canon_execCpytSt (d a b : SReg) {s : State} (hs : s.Canon) : OutCanon (execCpytSt d a b s) := by
  unfold execCpytSt
  grind only [canon_cpyt, canon_mk, State.Canon.tables, outCanon_next]

@[simp] theorem canon_execCpym (sx : Bool) (d a b r : SReg) {s : State} (hs : s.Canon) :
    OutCanon (execCpym sx d a b r s) := by
  unfold execCpym
  grind only [canon_copyInstr, canon_mk, State.Canon.tables, outCanon_next]

@[simp] theorem canon_execCpyg (d a b r : SReg) {s : State} (hs : s.Canon) : OutCanon (execCpyg d a b r s) := by
  unfold execCpyg
  grind only [canon_copyInstr, canon_mk, State.Canon.tables, outCanon_next]

theorem canon_barApply (core off : Nat) (u : BarUpd) {s : State} (hs : s.Canon) : (barApply core off u s).Canon := by
  unfold barApply
  grind only [canon_wakeWhere, canon_mapGroups, canon_sramPut, canon_mk, State.Canon.tables]

@[simp] theorem canon_execBarrierUpdate {s : State} (hs : s.Canon) : OutCanon (execBarrierUpdate s) := by
  unfold execBarrierUpdate
  grind only [canon_barApply, canon_mk, State.Canon.tables, outCanon_next]

theorem canon_barInstr (release : Bool) (a : SReg) {upd : Nat → Nat → State → State} {s : State} (hupd : ∀ x0 x1 s, s.Canon →
  (upd x0 x1 s).Canon) (hs : s.Canon) :
    OutCanon (barInstr release a upd s) := by
  unfold barInstr
  grind only [canon_raiseW, canon_block, canon_retireS, canon_addUnit, canon_mk, State.Canon.tables, outCanon_next]

@[simp] theorem canon_execBbinit (a b : SReg) {s : State} (hs : s.Canon) : OutCanon (execBbinit a b s) := by
  unfold execBbinit
  grind only [canon_raiseI, canon_barInstr, canon_wakeWhere, canon_sramPut, canon_mk, State.Canon.tables, outCanon_next]

@[simp] theorem canon_execBbexp (a b : SReg) {s : State} (hs : s.Canon) : OutCanon (execBbexp a b s) := by
  unfold execBbexp
  grind only [canon_barInstr, canon_barApply, canon_mk, State.Canon.tables, outCanon_next]

@[simp] theorem canon_execBbseal (a : SReg) {s : State} (hs : s.Canon) : OutCanon (execBbseal a s) := by
  unfold execBbseal
  grind only [canon_barInstr, canon_barApply, canon_mk, State.Canon.tables, outCanon_next]

theorem canon_bbEnds (d : SReg) (on : Nat × Nat × Nat) (r : Nat) {s : State} (hs : s.Canon) : (bbEnds d on r s).Canon := by
  unfold bbEnds
  grind only [canon_retireS, canon_wS, canon_blockSeen, canon_acquireNow, canon_mk, State.Canon.tables]

@[simp] theorem canon_execBbwait (d a b : SReg) {s : State} (hs : s.Canon) : OutCanon (execBbwait d a b s) := by
  unfold execBbwait
  grind only [canon_bbEnds, canon_raiseW, canon_block, canon_blockSeen, canon_mk, State.Canon.tables, outCanon_next]

theorem canon_copyAcquire {s : State} (hs : s.Canon) : (copyAcquire s).Canon := by
  unfold copyAcquire
  grind only [canon_acquireNow, canon_mk, State.Canon.tables]

@[simp] theorem canon_execWaitc (ld st cp mx : BitVec 6) {s : State} (hs : s.Canon) :
    OutCanon (execWaitc ld st cp mx s) := by
  unfold execWaitc
  grind only [canon_retireS, canon_copyAcquire, canon_block, canon_mk, State.Canon.tables, outCanon_next]

@[simp] theorem canon_execWaitp (c : BitVec 2) (a : SReg) {s : State} (hs : s.Canon) : OutCanon (execWaitp c a s) := by
  unfold execWaitp
  grind only [canon_retireS, canon_copyAcquire, canon_blockSeen, canon_mk, State.Canon.tables, outCanon_next]

@[simp] theorem canon_execQpush (v : VReg) {s : State} (hs : s.Canon) : OutCanon (execQpush v s) := by
  unfold execQpush
  grind only [canon_raiseI, canon_blockSeen, canon_block, canon_retireS, canon_modGroup, canon_mk, State.Canon.tables,
    outCanon_next]

@[simp] theorem canon_execQpop (v : VReg) {s : State} (hs : s.Canon) : OutCanon (execQpop v s) := by
  unfold execQpop
  grind only [canon_raiseI, canon_blockSeen, canon_retireS, canon_wakeGid, canon_mk, State.Canon.tables, outCanon_next]

@[simp] theorem canon_execQstat (d : SReg) {s : State} (hs : s.Canon) : OutCanon (execQstat d s) := by
  unfold execQstat
  grind only [canon_scalarOut, canon_mk, State.Canon.tables, outCanon_next]

theorem canon_setAnn (ctx l : Nat) (f : Stamp) (sub : List Nat) {s : State} (hs : s.Canon) :
    (setAnn ctx l f sub s).Canon := by
  unfold setAnn
  grind only [canon_mk, State.Canon.tables]

theorem canon_subscribe (ctx l cl : Nat) {s : State} (hs : s.Canon) : (subscribe ctx l cl s).Canon := by
  unfold subscribe
  grind only [canon_setAnn, canon_mk, State.Canon.tables]

theorem canon_addCount (ctx l : Nat) (t : Stamp) (n : Int) {s : State} (hs : s.Canon) : (addCount ctx l t n s).Canon := by
  unfold addCount
  grind only [canon_mk, State.Canon.tables]

theorem canon_progressFault (ctx : Nat) {s : State} (hs : s.Canon) : (progressFault ctx s).Canon := by
  unfold progressFault
  grind only [canon_applyPolicy, canon_due, canon_mk, State.Canon.tables]

theorem canon_applyDelta (ctx : Nat) (d : Delta) {s : State} (hs : s.Canon) : (applyDelta ctx d s).Canon := by
  unfold applyDelta
  grind only [canon_progressFault, canon_addCount, canon_mk, State.Canon.tables]

theorem canon_applyBatch (ctx : Nat) (ds : List Delta) {s : State} (hs : s.Canon) : (applyBatch ctx ds s).Canon := by
  unfold applyBatch
  grind only [canon_applyDelta, canon_mk, State.Canon.tables, canon_foldl]

theorem canon_applyAnnounce (ctx : Nat) (ds : List Delta) {s : State} (hs : s.Canon) : (applyAnnounce ctx ds s).Canon := by
  unfold applyAnnounce
  grind only [canon_applyBatch, canon_dues, canon_mk, State.Canon.tables]

theorem canon_sendTo (ds : List Delta) {s : State} (p : Peer) (hs : s.Canon) : (sendTo ds s p).Canon := by
  unfold sendTo
  grind only [canon_mk, State.Canon.tables]

theorem canon_sendPeer (ctx : Nat) (ds : List Delta) {s : State} (hs : s.Canon) : (sendPeer ctx ds s).Canon := by
  unfold sendPeer
  grind only [canon_sendTo, canon_mk, State.Canon.tables, canon_foldl]

theorem canon_batchArrives (src : BatchSrc) (ctx : Nat) (ds : List Delta) {s : State} (hs : s.Canon) :
    (batchArrives src ctx ds s).Canon := by
  unfold batchArrives
  grind only [canon_applyAnnounce, canon_sendPeer, canon_due, canon_mk, State.Canon.tables]

@[simp] theorem canon_execBatch {s : State} (hs : s.Canon) : OutCanon (execBatch s) := by
  unfold execBatch
  grind only [canon_batchArrives, canon_mk, State.Canon.tables, outCanon_next]

theorem canon_noteFrontier (ctx l : Nat) (f : Stamp) {s : State} (hs : s.Canon) : (noteFrontier ctx l f s).Canon := by
  unfold noteFrontier
  grind only [canon_mapGroups, canon_mk, State.Canon.tables]

theorem canon_announce (ctx l : Nat) {s : State} (hs : s.Canon) : (announce ctx l s).Canon := by
  unfold announce
  grind only [canon_noteFrontier, canon_wakeWhere, canon_setAnn, canon_complete, canon_dues, canon_mk, State.Canon.tables,
    canon_foldl]

@[simp] theorem canon_execFrontierAnnouncement {s : State} (hs : s.Canon) : OutCanon (execFrontierAnnouncement s) := by
  unfold execFrontierAnnouncement
  grind only [canon_announce, canon_mk, State.Canon.tables, outCanon_next]

theorem canon_sendBatch (ds : List Delta) {s : State} (hs : s.Canon) : (sendBatch ds s).Canon := by
  unfold sendBatch
  grind only [canon_due, canon_mk, State.Canon.tables]

theorem canon_fretForward (cl : Nat) {s : State} (hs : s.Canon) : (fretForward cl s).Canon := by
  unfold fretForward
  grind only [canon_due, canon_mk, State.Canon.tables]

@[simp] theorem canon_execFretForward {s : State} (hs : s.Canon) : OutCanon (execFretForward s) := by
  unfold execFretForward
  grind only [canon_fretForward, canon_mk, State.Canon.tables, outCanon_next]

@[simp] theorem canon_execBatchAcknowledgement {s : State} (hs : s.Canon) : OutCanon (execBatchAcknowledgement s) := by
  unfold execBatchAcknowledgement
  grind only [canon_wakeGid, canon_modGroup, canon_mk, State.Canon.tables, outCanon_next]

theorem canon_fwait (reach : Bool) (d a b : SReg) {s : State} (hs : s.Canon) : OutCanon (fwait reach d a b s) := by
  unfold fwait
  grind only [canon_raiseI, canon_subscribe, canon_blockFor, canon_retireS, canon_acquireNow, canon_wStamp, canon_mk,
    State.Canon.tables, outCanon_next]

@[simp] theorem canon_execFwaitPass (d a b : SReg) {s : State} (hs : s.Canon) : OutCanon (execFwaitPass d a b s) := by
  unfold execFwaitPass
  grind only [canon_fwait, canon_mk, State.Canon.tables, outCanon_next]

@[simp] theorem canon_execFwaitReach (d a b : SReg) {s : State} (hs : s.Canon) : OutCanon (execFwaitReach d a b s) := by
  unfold execFwaitReach
  grind only [canon_fwait, canon_mk, State.Canon.tables, outCanon_next]

theorem canon_leaveReplay (detail : Nat) {s : State} (hs : s.Canon) : (leaveReplay detail s).Canon := by
  unfold leaveReplay
  grind only [canon_endReplay, canon_mk, State.Canon.tables]

theorem canon_countInstr (ill : Bool) (ds : List Delta) {s : State} (hs : s.Canon) : OutCanon (countInstr ill ds s) := by
  unfold countInstr
  grind only [canon_raiseI, canon_block, canon_leaveReplay, canon_retireS, canon_sendBatch, canon_mk, State.Canon.tables,
    outCanon_next]

@[simp] theorem canon_execPinc (a b c : SReg) {s : State} (hs : s.Canon) : OutCanon (execPinc a b c s) := by
  unfold execPinc
  grind only [canon_raiseI, canon_countInstr, canon_mk, State.Canon.tables, outCanon_next]

@[simp] theorem canon_execPdec (a b c : SReg) {s : State} (hs : s.Canon) : OutCanon (execPdec a b c s) := by
  unfold execPdec
  grind only [canon_raiseI, canon_countInstr, canon_mk, State.Canon.tables, outCanon_next]

@[simp] theorem canon_execPmove (a b c : SReg) {s : State} (hs : s.Canon) : OutCanon (execPmove a b c s) := by
  unfold execPmove
  grind only [canon_raiseI, canon_countInstr, canon_mk, State.Canon.tables, outCanon_next]

theorem canon_setBarrier (n : Nat) (b : Barrier) {s : State} (hs : s.Canon) : (setBarrier n b s).Canon := by
  unfold setBarrier
  grind only [canon_wakeTeam, canon_modTeam, canon_mk, State.Canon.tables]

@[simp] theorem canon_execBarArr (d : SReg) (b : BitVec 6) {s : State} (hs : s.Canon) : OutCanon (execBarArr d b s) := by
  unfold execBarArr
  grind only [canon_raiseI, canon_block, canon_retireS, canon_wS, canon_setBarrier, canon_mk, State.Canon.tables, outCanon_next]

@[simp] theorem canon_execBarWait (a : SReg) (b : BitVec 6) {s : State} (hs : s.Canon) : OutCanon (execBarWait a b s) := by
  unfold execBarWait
  grind only [canon_raiseI, canon_retireS, canon_acquireNow, canon_blockSeen, canon_mk, State.Canon.tables, outCanon_next]

@[simp] theorem canon_execBarSetm (a : SReg) (b : BitVec 6) {s : State} (hs : s.Canon) : OutCanon (execBarSetm a b s) := by
  unfold execBarSetm
  grind only [canon_raiseI, canon_retireS, canon_setBarrier, canon_mk, State.Canon.tables, outCanon_next]

theorem canon_barrierExit (g : Group) {s : State} (hs : s.Canon) : (barrierExit g s).Canon := by
  unfold barrierExit
  grind only [canon_wakeTeam, canon_modTeam, canon_mk, State.Canon.tables, canon_foldl]

@[simp] theorem canon_execTidset (v : VReg) (t : BitVec 8) {s : State} (hs : s.Canon) : OutCanon (execTidset v t s) := by
  unfold execTidset
  grind only [canon_raiseI, canon_block, canon_retireS, canon_modTeam, canon_mk, State.Canon.tables, outCanon_next]

@[simp] theorem canon_execTidget (v : VReg) (t : BitVec 8) {s : State} (hs : s.Canon) : OutCanon (execTidget v t s) := by
  unfold execTidget
  grind only [canon_raiseI, canon_retireS, canon_mk, State.Canon.tables, outCanon_next]

theorem canon_elemBytes (a : Agent) (t : Team) (e : BitVec 512) (own : Nat) (xs : List Int) (n0 n1 n2 : Nat) (n3 : Bool) {s :
  State} (hs : s.Canon) :
    (elemBytes a t e own xs n0 n1 n2 n3 s).Canon := by
  induction n0 generalizing n1 n2 n3 s with
  | zero => exact hs
  | succ n ih => unfold elemBytes; grind only [canon_engRead, EngRes.canon_ok]

theorem canon_elemRead (a : Agent) (t : Team) (e : BitVec 512) (own : Nat) (xs : List Int) {s : State} (hs : s.Canon) :
    (elemRead a t e own xs s).Canon := by
  unfold elemRead
  grind only [canon_elemBytes, canon_mk, State.Canon.tables, EngRes.canon_ok, EngRes.canon_fault, EngRes.canon_wait]

theorem canon_scaleRead (a : Agent) (t : Team) (e : BitVec 512) (own : Nat) (x : ScaleSrc) (xs : List Int) (r k : Nat) {s :
  State} (hs : s.Canon) :
    (scaleRead a t e own x xs r k s).Canon := by
  unfold scaleRead
  grind only [canon_elemRead, canon_mk, State.Canon.tables, EngRes.canon_ok, EngRes.canon_fault, EngRes.canon_wait]

theorem canon_eccuAt (va : Nat)  : (eccuAt va).Canon := by
  unfold eccuAt
  grind only [EngRes.canon_ok, EngRes.canon_fault, EngRes.canon_wait]

theorem canon_elemVal (a : Agent) (t : Team) (e : BitVec 512) (own : Nat) (x : ScaleSrc) (xs : List Int) (r k : Nat) {s : State}
  (hs : s.Canon) :
    (elemVal a t e own x xs r k s).2.Canon := by
  unfold elemVal
  grind only [canon_elemRead, canon_eccuAt, canon_scaleRead, canon_mk, State.Canon.tables, EngRes.canon_ok, EngRes.canon_fault,
    EngRes.canon_wait]

theorem canon_lineVals (a : Agent) (t : Team) (e : BitVec 512) (own : Nat) (x : ScaleSrc) (o : Int × Int) (r n0 n1 : Nat) (n2 :
  List FVal) {s : State} (hs : s.Canon) :
    (lineVals a t e own x o r n0 n1 n2 s).2.Canon := by
  induction n0 generalizing n1 n2 s with
  | zero => exact hs
  | succ n ih => unfold lineVals; grind only [canon_elemVal, EngRes.canon_ok]

theorem canon_panelVals (a : Agent) (t : Team) (e : BitVec 512) (own : Nat) (x : ScaleSrc) (o : Int × Int) (kk n0 n1 : Nat) (n2
  : List (List FVal)) {s : State} (hs : s.Canon) :
    (panelVals a t e own x o kk n0 n1 n2 s).2.Canon := by
  induction n0 generalizing n1 n2 s with
  | zero => exact hs
  | succ n ih => unfold panelVals; grind only [canon_lineVals, EngRes.canon_ok]

theorem canon_mxApply {s : State} (g : Group) (c : MxCmd) (tiles : Cells 64) (hs : s.Canon) :
    (mxApply s g c tiles).Canon := by
  unfold mxApply
  grind only [canon_panelVals, canon_mk, State.Canon.tables, canon_foldl, EngRes.canon_ok, EngRes.canon_fault,
    EngRes.canon_wait, MxRes.canon_ok, MxRes.canon_fault, MxRes.canon_wait]

theorem canon_modMx (gid slot : Nat) (f : MxCmd → MxCmd) {s : State} (hs : s.Canon) : (modMx gid slot f s).Canon := by
  unfold modMx
  grind only [canon_modGroup, canon_mk, State.Canon.tables]

theorem canon_matrixStep (gid slot : Nat) {s : State} (hs : s.Canon) : (matrixStep gid slot s).Canon := by
  unfold matrixStep
  grind only [canon_mxApply, canon_modMx, canon_due, canon_walkFault, canon_modGroup, canon_wakeWhere, canon_mk,
    State.Canon.tables, MxRes.canon_ok, MxRes.canon_fault, MxRes.canon_wait]

@[simp] theorem canon_execMatrixStep {s : State} (hs : s.Canon) : OutCanon (execMatrixStep s) := by
  unfold execMatrixStep
  grind only [canon_matrixStep, canon_mk, State.Canon.tables, outCanon_next]

theorem canon_mxAccept (c : MxCmd) {s : State} (hs : s.Canon) : (mxAccept c s).Canon := by
  unfold mxAccept
  grind only [canon_mk, State.Canon.tables]

@[simp] theorem canon_execMxzero (a : AReg) {s : State} (hs : s.Canon) : OutCanon (execMxzero a s) := by
  unfold execMxzero
  grind only [canon_raiseI, canon_block, canon_retireS, canon_mxAccept, canon_mk, State.Canon.tables, outCanon_next]

theorem canon_mxIssue (a : AReg) (f : MxForm) (opw c0 c1 : Word64) (n : Nat) (badN : Bool) (dn : Word64) {s : State} (hs :
  s.Canon) :
    OutCanon (mxIssue a f opw c0 c1 n badN dn s) := by
  unfold mxIssue
  grind only [canon_raiseI, canon_raiseW, canon_block, canon_retireS, canon_mxAccept, canon_mk, State.Canon.tables, outCanon_next]

@[simp] theorem canon_execMxstep (a : AReg) (t c : SReg) (f : MxForm) {s : State} (hs : s.Canon) :
    OutCanon (execMxstep a t c f s) := by
  unfold execMxstep
  grind only [canon_raiseI, canon_mxIssue, canon_mk, State.Canon.tables, outCanon_next]

@[simp] theorem canon_execMxloop (a : AReg) (t c n : SReg) (f : MxForm) {s : State} (hs : s.Canon) :
    OutCanon (execMxloop a t c n f s) := by
  unfold execMxloop
  grind only [canon_raiseI, canon_mxIssue, canon_mk, State.Canon.tables, outCanon_next]

@[simp] theorem canon_execMxfence (d : SReg) {s : State} (hs : s.Canon) : OutCanon (execMxfence d s) := by
  unfold execMxfence
  grind only [canon_block, canon_retireS, canon_wS, canon_mk, State.Canon.tables, outCanon_next]

@[simp] theorem canon_execMxwait (a : SReg) {s : State} (hs : s.Canon) : OutCanon (execMxwait a s) := by
  unfold execMxwait
  grind only [canon_raiseI, canon_blockSeen, canon_retireS, canon_mk, State.Canon.tables, outCanon_next]

@[simp] theorem canon_execLda (v : VReg) (a : AReg) (k : KReg) {s : State} (hs : s.Canon) :
    OutCanon (execLda v a k s) := by
  unfold execLda
  grind only [canon_raiseI, canon_retire, canon_mk, State.Canon.tables, canon_foldl, outCanon_next]

@[simp] theorem canon_execSta (v : VReg) (a : AReg) (k : KReg) {s : State} (hs : s.Canon) :
    OutCanon (execSta v a k s) := by
  unfold execSta
  grind only [canon_raiseI, canon_block, canon_retire, canon_mk, State.Canon.tables, canon_foldl, outCanon_next]

theorem Memory.wf_putFields {m : Memory} (h : Memory.wf m = true) (base : Nat) (fs : List SaveField) : Memory.wf (putFields base
  fs m) = true := by
  induction fs with
  | nil => exact h
  | cons f fs ih =>
    show Memory.wf (if f.2.2 = 0 then putFields base fs m else memPutBytes (putFields base fs m) (base + f.1) f.2.1 f.2.2) = true
    split
    · exact ih
    · exact Memory.wf_memPutBytes ih _ _ _
theorem canon_writeBlock (team : Nat) {s : State} (hs : s.Canon) : (writeBlock team s).Canon := by
  unfold writeBlock
  split
  · exact hs
  split
  · exact hs
  · have h := canon_flushRange ‹Team›.savePlace (teamBlock ‹Team› (teamGroups s team)).2 hs
    exact ⟨Memory.wf_putFields (cellsWf_filter h.1 _) _ _, h.2⟩

theorem canon_noGroupTimers (gid : Nat) {s : State} (hs : s.Canon) : (noGroupTimers gid s).Canon := by
  unfold noGroupTimers
  grind only [canon_noTimer, canon_mk, State.Canon.tables, canon_foldl]

theorem canon_imagePart (team : Nat) (t : Team) (p : Nat) (e : PartEnt) {s : State} (hs : s.Canon) :
    (imagePart team t p e s).Canon := by
  unfold imagePart
  grind only [canon_modTeam, canon_mk, State.Canon.tables, canon_foldl]

theorem canon_liftStaged (team : Nat) {s : State} (hs : s.Canon) : (liftStaged team s).Canon := by
  unfold liftStaged
  grind only [canon_wakeAll, canon_modTeam, canon_mk, State.Canon.tables]

theorem canon_saveTeam (team : Nat) {s : State} (hs : s.Canon) : (saveTeam team s).Canon := by
  unfold saveTeam
  grind only [canon_unmapStash, canon_imagePart, canon_liftStaged, canon_writeBlock, canon_modTeam, canon_mk,
    State.Canon.tables, canon_foldl]

theorem canon_settlePreempts {s : State} (hs : s.Canon) : (settlePreempts s).Canon := by
  unfold settlePreempts
  grind only [canon_complete, canon_mk, State.Canon.tables, canon_foldl]

theorem canon_saveGroup (gid : Nat) {s : State} (hs : s.Canon) : (saveGroup gid s).Canon := by
  unfold saveGroup
  grind only [canon_settlePreempts, canon_saveTeam, canon_noGroupTimers, canon_withdraw, canon_modGroup, canon_mk,
    State.Canon.tables]

theorem canon_swapOut (team : Nat) {s : State} (hs : s.Canon) : (swapOut team s).Canon := by
  unfold swapOut
  grind only [canon_modTeam, canon_saveGroup, canon_mk, State.Canon.tables, canon_foldl]

theorem canon_haltGroup (gid : Nat) {s : State} (hs : s.Canon) : (haltGroup gid s).Canon := by
  unfold haltGroup
  grind only [canon_timer, canon_noTimer, canon_modGroup, canon_mk, State.Canon.tables]

theorem canon_forcedSave (gid : Nat) {s : State} (hs : s.Canon) : (forcedSave gid s).Canon := by
  unfold forcedSave
  grind only [canon_modGroup, canon_saveGroup, canon_haltGroup, canon_mk, State.Canon.tables]

@[simp] theorem canon_execForcedSave {s : State} (hs : s.Canon) : OutCanon (execForcedSave s) := by
  unfold execForcedSave
  grind only [canon_forcedSave, canon_mk, State.Canon.tables, outCanon_next]

theorem canon_restoreSnaps (grid : Nat) (gr : Grid) {s : State} (hs : s.Canon) : (restoreSnaps grid gr s).Canon := by
  unfold restoreSnaps
  refine canon_foldl _ hs fun s e h => ?_
  exact ⟨Memory.wf_foldl (fun _ _ h => Memory.wf_memPut h _ _) _ (cellsWf_filter h.1 _), amSorted_filter h.2.1 _, h.2.2⟩

theorem canon_rollback (grid code : Nat) (core : Option Nat) {s : State} (hs : s.Canon) :
    (rollback grid code core s).Canon := by
  unfold rollback
  grind only [canon_discardTeams, canon_restoreSnaps, canon_setCore, canon_modGrid, canon_due, canon_giveBow, canon_mk,
    State.Canon.tables]

end Sys2Proof.Machine
end

section
/-! SUPPORT. A step keeps memory canonical and its tables sorted (R51, R54, R434). System instructions, launches, windows and rings. -/
namespace Sys2Proof.Machine

theorem canon_wordReadUse (g : Seg) {s : State} (hs : s.Canon) : (wordReadUse g s).Canon := by
  unfold wordReadUse
  grind only [canon_hostUse, canon_lazyBacks, canon_homeTouch, canon_dropVWord, canon_mk, State.Canon.tables]

@[simp] theorem canon_execWaitV (d a b : SReg) {s : State} (hs : s.Canon) : OutCanon (execWaitV d a b s) := by
  unfold execWaitV
  grind only [canon_raiseW, canon_fltWalk, canon_useSeg, canon_wordReadUse, canon_waitSnoops, canon_retireS, canon_notePoison,
    canon_blockOn, canon_wS, canon_mk, State.Canon.tables, outCanon_next]

@[simp] theorem canon_execWake (a : SReg) {s : State} (hs : s.Canon) : OutCanon (execWake a s) := by
  unfold execWake
  grind only [canon_raiseW, canon_fltWalk, canon_retireS, canon_wakeWord, canon_useSeg, canon_mk, State.Canon.tables,
    outCanon_next]

@[simp] theorem canon_execBowGet (d : SReg) {s : State} (hs : s.Canon) : OutCanon (execBowGet d s) := by
  unfold execBowGet
  grind only [canon_retireS, canon_wS, canon_raiseI, canon_block, canon_mk, State.Canon.tables, outCanon_next]

theorem canon_passBow (team : Nat) {s : State} (hs : s.Canon) : (passBow team s).Canon := by
  unfold passBow
  grind only [canon_passBowOf, canon_modTeam, canon_mk, State.Canon.tables]

@[simp] theorem canon_execBowPass {s : State} (hs : s.Canon) : OutCanon (execBowPass s) := by
  unfold execBowPass
  grind only [canon_retireS, canon_passBow, canon_block, canon_mk, State.Canon.tables, outCanon_next]

@[simp] theorem canon_execSafe (i : Word32) {s : State} (hs : s.Canon) : OutCanon (execSafe i s) := by
  unfold execSafe
  grind only [canon_raiseI, canon_retireS, canon_saveGroup, canon_haltGroup, canon_mk, State.Canon.tables, outCanon_next]

theorem canon_sigFault {s : State} (hs : s.Canon) : (sigFault s).Canon := by
  unfold sigFault
  grind only [canon_rollback, canon_raiseI, canon_mk, State.Canon.tables]

@[simp] theorem canon_execSigchk (i : Word32) {s : State} (hs : s.Canon) : OutCanon (execSigchk i s) := by
  unfold execSigchk
  grind only [canon_retireS, canon_sigFault, canon_mk, State.Canon.tables, outCanon_next]

@[simp] theorem canon_execSigrd (d : SReg) {s : State} (hs : s.Canon) : OutCanon (execSigrd d s) := by
  unfold execSigrd
  grind only [canon_retireS, canon_wS, canon_mk, State.Canon.tables, outCanon_next]

@[simp] theorem canon_execTrap (i : BitVec 16) {s : State} (hs : s.Canon) : OutCanon (execTrap i s) := by
  unfold execTrap
  grind only [canon_retireS, canon_enterHandler, canon_escalate, canon_mk, State.Canon.tables, outCanon_next]

@[simp] theorem canon_execBkpt (i : BitVec 16) {s : State} (hs : s.Canon) : OutCanon (execBkpt i s) := by
  unfold execBkpt
  grind only [canon_retireS, canon_due, canon_mk, State.Canon.tables, outCanon_next]

theorem canon_unpark (fc : Word32) (gid : Nat) {s : State} (hs : s.Canon) : (unpark fc gid s).Canon := by
  unfold unpark
  grind only [canon_modMx, canon_modCopy, canon_mk, State.Canon.tables]

@[simp] theorem canon_execRetf {s : State} (hs : s.Canon) : OutCanon (execRetf s) := by
  unfold execRetf
  grind only [canon_raiseI, canon_returnHandler, canon_unpark, canon_wakeAll, canon_mk, State.Canon.tables, outCanon_next]

theorem canon_gated {s : State} {run : State} (hs : s.Canon) (hrun : run.Canon) : OutCanon (gated s run) := by
  unfold gated
  grind only [canon_block, canon_mk, State.Canon.tables, outCanon_next]

theorem canon_retireAcq {s : State} (hs : s.Canon) : (retireAcq s).Canon := by
  unfold retireAcq
  grind only [canon_retireS, canon_acquireNow, canon_mk, State.Canon.tables]

theorem canon_mapPage (c : Ctx) (va : Nat) (attrs : Word64) {s : State} (hs : s.Canon) :
    (mapPage c va attrs s).2.Canon := by
  unfold mapPage
  grind only [canon_homeTouch, canon_snoopNow, canon_lookupHome, canon_cohPutWord, canon_modCtx, canon_mk, State.Canon.tables]

@[simp] theorem canon_execMappg (d a b : SReg) {s : State} (hs : s.Canon) : OutCanon (execMappg d a b s) := by
  unfold execMappg
  grind only [canon_raiseI, canon_raiseW, canon_mapPage, canon_walkTouch, canon_gated, canon_retireAcq, canon_wS, canon_mk,
    State.Canon.tables, outCanon_next]

theorem canon_pageBack (e : Word64) (level : Nat) {s : State} (hs : s.Canon) : (pageBack e level s).Canon := by
  unfold pageBack
  grind only [canon_backSector, canon_mk, State.Canon.tables, canon_foldl]

theorem canon_unmapLeaf (p : Nat) (e : Word64) (level va : Nat) {s : State} (hs : s.Canon) :
    (unmapLeaf p e level va s).Canon := by
  unfold unmapLeaf
  grind only [canon_cohPutWord, canon_dropPage, canon_flushEverywhere, canon_releaseRegions, canon_mk, State.Canon.tables]

@[simp] theorem canon_execUnmappg (d a : SReg) {s : State} (hs : s.Canon) : OutCanon (execUnmappg d a s) := by
  unfold execUnmappg
  grind only [canon_raiseI, canon_raiseW, canon_gated, canon_walkTouch, canon_retireAcq, canon_wS, canon_block, canon_pageBack,
    canon_unmapLeaf, canon_mk, State.Canon.tables, outCanon_next]

@[simp] theorem canon_execRgrel (a b : SReg) {s : State} (hs : s.Canon) : OutCanon (execRgrel a b s) := by
  unfold execRgrel
  grind only [canon_raiseI, canon_raiseW, canon_gated, canon_retireAcq, canon_releaseRegions, canon_mk, State.Canon.tables,
    outCanon_next]

theorem canon_tuneAck (ctx n : Nat) {s : State} (hs : s.Canon) : (tuneAck ctx n s).2.Canon := by
  unfold tuneAck
  grind only [canon_modCtx, canon_noTimer, canon_mapGroups, canon_mk, State.Canon.tables]

@[simp] theorem canon_execTunack (d a : SReg) {s : State} (hs : s.Canon) : OutCanon (execTunack d a s) := by
  unfold execTunack
  grind only [canon_raiseI, canon_tuneAck, canon_gated, canon_retireAcq, canon_wS, canon_mk, State.Canon.tables, outCanon_next]

theorem canon_endScan (t : Tuning) (core out : Nat) (obs : Word64) {s : State} (hs : s.Canon) :
    (endScan t core out obs s).Canon := by
  unfold endScan
  grind only [canon_cohPutWord, canon_setCore, canon_wakeAll, canon_mk, State.Canon.tables]

theorem canon_startScan (core : Nat) (w : Word64) (pa : Nat) {s : State} (hs : s.Canon) :
    (startScan core w pa s).Canon := by
  unfold startScan
  grind only [canon_setCore, canon_mk, State.Canon.tables]

theorem canon_scanRun (core : Nat) (w : Word64) (pa : Nat) {s : State} (hs : s.Canon) : (scanRun core w pa s).Canon := by
  unfold scanRun
  grind only [canon_startScan, canon_endScan, canon_mk, State.Canon.tables]

@[simp] theorem canon_execScanRun (d a b : SReg) {s : State} (hs : s.Canon) : OutCanon (execScanRun d a b s) := by
  unfold execScanRun
  grind only [canon_raiseI, canon_raiseW, canon_fltWalk, canon_useSeg, canon_gated, canon_retireAcq, canon_wS, canon_scanRun,
    canon_mk, State.Canon.tables, outCanon_next]

theorem canon_tickClocks (n : Nat) {s : State} (hs : s.Canon) : (tickClocks n s).Canon := by
  unfold tickClocks
  grind only [canon_drawFree, canon_setCore, canon_mk, State.Canon.tables]

@[simp] theorem canon_execSrd (d : SReg) (g : BitVec 8) {s : State} (hs : s.Canon) : OutCanon (execSrd d g s) := by
  unfold execSrd
  grind only [canon_tickClocks, canon_raiseI, canon_retireS, canon_wS, canon_mk, State.Canon.tables, outCanon_next]

theorem canon_sysWrite (n : Nat) (v : Word64) {s : State} (hs : s.Canon) : ∀ t, sysWrite n v s = some t → t.Canon := by
  unfold sysWrite
  grind only [canon_modCtx, canon_mk, State.Canon.tables]

@[simp] theorem canon_execSwr (a : SReg) (g : BitVec 8) {s : State} (hs : s.Canon) : OutCanon (execSwr a g s) := by
  unfold execSwr
  grind only [canon_raiseI, canon_sysWrite, canon_retireS, canon_wakeTeam, canon_mk, State.Canon.tables, outCanon_next]

theorem canon_ioWalk (sp : IoSpace) (acc : Nat) (e : AFlt × Nat) {s : State} (hs : s.Canon) :
    (ioWalk sp acc e s).Canon := by
  unfold ioWalk
  grind only [canon_walkFault, canon_mk, State.Canon.tables]

theorem canon_ioUse (sp : IoSpace) (acc : Nat) (g : Seg) {s : State} (hs : s.Canon) : (ioUse sp acc g s).Canon := by
  unfold ioUse
  grind only [canon_useSeg, canon_homeRegion, canon_snoopNow, canon_mk, State.Canon.tables]

theorem canon_ioReadP (sp : IoSpace) (addr n : Nat) {s : State} (hs : s.Canon) : (ioReadP sp addr n s).2.Canon := by
  unfold ioReadP
  split
  · exact canon_ioWalk _ _ _ hs
  · refine canon_foldl_of (fun x : Nat × Nat × Nat × State => x.2.2.2) (fun x g h => ?_) _ hs
    grind only [canon_ioUse, canon_lazyBacks, canon_homeTouch, canon_hostUse]

theorem canon_ioRead (sp : IoSpace) (addr n : Nat) {s : State} (hs : s.Canon) : (ioRead sp addr n s).2.Canon := by
  unfold ioRead
  grind only [canon_ioReadP, canon_mk, State.Canon.tables]

theorem canon_ioWriteP (sp : IoSpace) (addr n v po : Nat) {s : State} (hs : s.Canon) :
    (ioWriteP sp addr n v po s).2.Canon := by
  unfold ioWriteP
  split
  · exact canon_ioWalk _ _ _ hs
  · refine canon_foldl_of (fun x : Nat × State => x.2) (fun x g h => ?_) _ hs
    grind only [canon_ioUse, canon_hostWriteM, canon_hostPutM, canon_homeWrite]

theorem canon_ioWrite (sp : IoSpace) (addr n v : Nat) {s : State} (hs : s.Canon) : (ioWrite sp addr n v s).2.Canon := by
  unfold ioWrite
  grind only [canon_ioWriteP, canon_mk, State.Canon.tables]

theorem canon_ioAddOne (ctx va : Nat) {s : State} (hs : s.Canon) : (ioAddOne ctx va s).2.Canon := by
  unfold ioAddOne
  grind only [canon_ioWalk, canon_ioUse, canon_hostWrite, canon_hostPut, canon_cohPutWord, canon_wakeWord, canon_mk,
    State.Canon.tables]

theorem canon_ioReport (ctx : Nat) (cmd : Option Nat) (f : Flt) {s : State} (hs : s.Canon) :
    (ioReport ctx cmd f s).Canon := by
  unfold ioReport
  grind only [canon_due, canon_mk, State.Canon.tables]

theorem canon_abortScans (pri : Nat) {s : State} (hs : s.Canon) : (abortScans pri s).Canon := by
  unfold abortScans
  grind only [canon_endScan, canon_mk, State.Canon.tables, canon_foldl]

theorem canon_addGroup (g : Group) {s : State} (hs : s.Canon) : (addGroup g s).Canon := by
  unfold addGroup
  grind only [canon_mk, State.Canon.tables]

theorem canon_addPair (i : TeamIdent) (r : EntryRow) (sregs : Cells 64) (part core : Nat) {s : State} (gi : Nat) (hs : s.Canon) :
    (addPair i r sregs part core s gi).Canon := by
  unfold addPair
  grind only [canon_addGroup, canon_mk, State.Canon.tables]

theorem canon_setSplit (core l1k : Nat) {s : State} (hs : s.Canon) : (setSplit core l1k s).Canon := by
  unfold setSplit
  grind only [canon_setCore, canon_flushWhere, canon_mk, State.Canon.tables]

theorem canon_addPart (i : TeamIdent) (r : EntryRow) (sregs : Cells 64) {s : State} (p : Nat × Nat) (hs : s.Canon) :
    (addPart i r sregs s p).Canon := by
  unfold addPart
  grind only [canon_setSplit, canon_modTeam, canon_due, canon_addPair, canon_mk, State.Canon.tables, canon_foldl]

theorem canon_startTeam (i : TeamIdent) (isJob : Bool) (r : EntryRow) (det : Bool) (cl : Nat) (cores : List Nat) (place : Nat)
  (sregs : Cells 64) {s : State} (hs : s.Canon) :
    (startTeam i isJob r det cl cores place sregs s).Canon := by
  unfold startTeam
  grind only [canon_addPart, canon_mk, State.Canon.tables, canon_foldl]

theorem canon_teamStart (grid : Nat) {s : State} (hs : s.Canon) : (teamStart grid s).Canon := by
  unfold teamStart
  grind only [canon_startTeam, canon_giveBow, canon_modGrid, canon_mk, State.Canon.tables]

@[simp] theorem canon_execTeamStart {s : State} (hs : s.Canon) : OutCanon (execTeamStart s) := by
  unfold execTeamStart
  grind only [canon_teamStart, canon_mk, State.Canon.tables, outCanon_next]

theorem canon_modPart (team part : Nat) (f : PartEnt → PartEnt) {s : State} (hs : s.Canon) :
    (modPart team part f s).Canon := by
  unfold modPart
  grind only [canon_modTeam, canon_mk, State.Canon.tables]

theorem canon_partStart (team part : Nat) {s : State} (hs : s.Canon) : (partStart team part s).Canon := by
  unfold partStart
  grind only [canon_due, canon_modPart, canon_selfInvalidate, canon_mapGroups, canon_wakeTeam, canon_mk, State.Canon.tables]

@[simp] theorem canon_execPartStart {s : State} (hs : s.Canon) : OutCanon (execPartStart s) := by
  unfold execPartStart
  grind only [canon_partStart, canon_mk, State.Canon.tables, outCanon_next]

theorem canon_countDown (ctx : Nat) (loc : BitVec 16) (t : Stamp) {s : State} (hs : s.Canon) :
    (countDown ctx loc t s).Canon := by
  unfold countDown
  grind only [canon_due, canon_mk, State.Canon.tables]

theorem canon_doneAdd (ctx : Nat) (cmd : Option Nat) (w : Word64) {s : State} (hs : s.Canon) :
    (doneAdd ctx cmd w s).Canon := by
  unfold doneAdd
  grind only [canon_ioAddOne, canon_applyPolicy, canon_ioReport, canon_mk, State.Canon.tables]

theorem canon_reportDone (ctx : Nat) (loc : BitVec 16) (t : Stamp) (r : Reports) {s : State} (hs : s.Canon) :
    (reportDone ctx loc t r s).Canon := by
  unfold reportDone
  grind only [canon_doneAdd, canon_countDown, canon_complete, canon_mk, State.Canon.tables]

theorem canon_unlockPins (grid : Nat) {s : State} (hs : s.Canon) : (unlockPins grid s).Canon := by
  unfold unlockPins
  grind only [canon_mk, State.Canon.tables]

theorem canon_gridRetire (n0 n1 : Nat) {s : State} (hs : s.Canon) : (gridRetire n0 n1 s).Canon := by
  induction n0 generalizing n1 s with
  | zero => unfold gridRetire; grind only [canon_endReplay, canon_unlockPins, canon_reportDone, canon_modGrid, canon_mk,
    State.Canon.tables]
  | succ n ih =>
    unfold gridRetire
    grind only [canon_endReplay, canon_unlockPins, canon_reportDone, canon_modGrid, canon_mk, State.Canon.tables]

theorem canon_cardDone (card : Nat) {s : State} (hs : s.Canon) : (cardDone card s).Canon := by
  unfold cardDone
  grind only [canon_reportDone, canon_mk, State.Canon.tables]

theorem canon_dropTeam (team grid : Nat) {s : State} (hs : s.Canon) : (dropTeam team grid s).Canon := by
  unfold dropTeam
  grind only [canon_gridRetire, canon_modGrid, canon_mk, State.Canon.tables]

theorem canon_teamExit (team : Nat) {s : State} (hs : s.Canon) : (teamExit team s).Canon := by
  unfold teamExit
  grind only [canon_modTeam, canon_cardDone, canon_modCard, canon_modGrid, canon_giveBow, canon_dropTeam, canon_passBow,
    canon_mk, State.Canon.tables]

theorem canon_partExit (team part : Nat) {s : State} (hs : s.Canon) : (partExit team part s).Canon := by
  unfold partExit
  grind only [canon_unmapStash, canon_modPart, canon_timer, canon_wakeTeam, canon_teamExit, canon_mk, State.Canon.tables,
    canon_foldl]

@[simp] theorem canon_execPartExit {s : State} (hs : s.Canon) : OutCanon (execPartExit s) := by
  unfold execPartExit
  grind only [canon_partExit, canon_mk, State.Canon.tables, outCanon_next]

theorem canon_drainEntry (t : Team) (e : StageEnt) (g : Seg) {s0 : State} (hs : s0.Canon) :
    (drainEntry t e g s0).Canon := by
  unfold drainEntry
  grind only [canon_useSeg, canon_hostWrite, canon_hostPut, canon_homeWrite, canon_snoopNow, canon_mk, State.Canon.tables,
    canon_foldl]

theorem canon_drainFault (t : Team) (e : StageEnt) (f : AFlt) {s : State} (hs : s.Canon) :
    (drainFault t e f s).2.Canon := by
  unfold drainFault
  grind only [canon_backFaultAt, canon_mk, State.Canon.tables]

theorem canon_drainRun (t : Team) (n0 : List StageEnt) {s : State} (hs : s.Canon) : (drainRun t n0 s).2.Canon := by
  induction n0 generalizing s with
  | nil => unfold drainRun; grind only [canon_drainEntry, canon_drainFault, canon_mk, State.Canon.tables]
  | cons e es ih =>
    unfold drainRun
    grind only [canon_drainEntry, canon_drainFault, canon_mk, State.Canon.tables]

theorem canon_keepStaged (team : Nat) (left : List StageEnt) {s : State} (hs : s.Canon) :
    (keepStaged team left s).Canon := by
  unfold keepStaged
  grind only [canon_wakeAll, canon_modTeam, canon_mk, State.Canon.tables]

theorem canon_bowReceive {s : State} (hs : s.Canon) : (bowReceive s).Canon := by
  unfold bowReceive
  grind only [canon_drainRun, canon_keepStaged, canon_timer, canon_selfInvalidate, canon_wakeTeam, canon_modTeam,
    canon_dropTeam, canon_passBow, canon_mk, State.Canon.tables, canon_foldl]

@[simp] theorem canon_execBowReceive {s : State} (hs : s.Canon) : OutCanon (execBowReceive s) := by
  unfold execBowReceive
  grind only [canon_bowReceive, canon_mk, State.Canon.tables, outCanon_next]

theorem canon_jobDeal (card : Nat) {s : State} (hs : s.Canon) : (jobDeal card s).Canon := by
  unfold jobDeal
  grind only [canon_startTeam, canon_modCard, canon_mk, State.Canon.tables]

@[simp] theorem canon_execJobChunkDeal {s : State} (hs : s.Canon) : OutCanon (execJobChunkDeal s) := by
  unfold execJobChunkDeal
  grind only [canon_jobDeal, canon_mk, State.Canon.tables, outCanon_next]

theorem canon_plusOne (t : Stamp) (l : BitVec 16) {s : State} (hs : s.Canon) : (plusOne t l s).Canon := by
  unfold plusOne
  grind only [canon_sendBatch, canon_mk, State.Canon.tables]

theorem canon_addChild (b : BitVec 512) (r : EntryRow) {s : State} (hs : s.Canon) : (addChild b r s).Canon := by
  unfold addChild
  grind only [canon_modGrid, canon_abortScans, canon_mk, State.Canon.tables]

theorem canon_addCard (b : BitVec 512) (r : EntryRow) {s : State} (hs : s.Canon) : (addCard b r s).Canon := by
  unfold addCard
  grind only [canon_mk, State.Canon.tables]

theorem canon_postWork (d a : SReg) (status : Ctx → BitVec 512 → Nat) {add : BitVec 512 → EntryRow → State → State} {s : State}
  (hadd : ∀ x0 x1 s, s.Canon → (add x0 x1 s).Canon) (hs : s.Canon) :
    OutCanon (postWork d a status add s) := by
  unfold postWork
  dsimp only
  repeat' split
  all_goals grind only [canon_block, canon_raiseI, canon_raiseW, canon_fltWalk, canon_loadHeld, canon_loadLane, canon_retireS,
    canon_notePoison, canon_wS, canon_drawFree, canon_plusOne, canon_mk, State.Canon.tables, outCanon_next]

@[simp] theorem canon_execLaunchChild (d a : SReg) {s : State} (hs : s.Canon) : OutCanon (execLaunchChild d a s) := by
  unfold execLaunchChild
  grind only [canon_raiseI, canon_postWork, canon_addChild, canon_mk, State.Canon.tables, outCanon_next]

@[simp] theorem canon_execJobput (d a : SReg) {s : State} (hs : s.Canon) : OutCanon (execJobput d a s) := by
  unfold execJobput
  grind only [canon_postWork, canon_addCard, canon_leaveReplay, canon_mk, State.Canon.tables, outCanon_next]

theorem canon_sendVec (r : Ring) {s : State} (hs : s.Canon) : (sendVec r s).Canon := by
  unfold sendVec
  grind only [canon_mk, State.Canon.tables]

theorem canon_ringCounters (sp : IoSpace) (r : Ring) {s : State} (hs : s.Canon) : (ringCounters sp r s).2.Canon := by
  unfold ringCounters
  grind only [canon_ioRead, canon_mk, State.Canon.tables]

theorem canon_ringPut (sp : IoSpace) (r : Ring) (size : Nat) (data : Nat → Nat) {s : State} (hs : s.Canon) :
    (ringPut sp r size data s).Canon := by
  unfold ringPut
  repeat' split
  all_goals grind only [canon_ringCounters, canon_ioWrite, canon_sendVec, RingRes.canon_ok, RingRes.canon_full,
    RingRes.canon_fault]

theorem canon_modStream (ctx sid : Nat) (f : StreamD → StreamD) {s : State} (hs : s.Canon) :
    (modStream ctx sid f s).Canon := by
  unfold modStream
  grind only [canon_modCtx, canon_mk, State.Canon.tables]

theorem canon_sendRecord (ctx sid : Nat) (d : BitVec 512) (data : BitVec 4096) {s : State} (hs : s.Canon) :
    (sendRecord ctx sid d data s).Canon := by
  unfold sendRecord
  grind only [canon_modStream, canon_due, canon_mk, State.Canon.tables]

theorem canon_engineFault (r : Rec) (kind : Nat) (f : Flt) {s : State} (hs : s.Canon) :
    (engineFault r kind f s).Canon := by
  unfold engineFault
  grind only [canon_due, canon_modStream, canon_applyPolicy, canon_mk, State.Canon.tables]

theorem canon_pegHome (pa : Nat) {s : State} (hs : s.Canon) : (pegHome pa s).Canon := by
  unfold pegHome
  grind only [canon_noteHome, canon_mk, State.Canon.tables]

theorem canon_pegSeen (pa : Nat) {s : State} (hs : s.Canon) : (pegSeen pa s).Canon := by
  unfold pegSeen
  grind only [canon_snoopSec, canon_pegHome, canon_mk, State.Canon.tables]

theorem canon_pegPut (pa : Nat) (v : Word64) {s : State} (hs : s.Canon) : (pegPut pa v s).Canon := by
  unfold pegPut
  grind only [canon_cohPutWord, canon_pegHome, canon_mk, State.Canon.tables]

theorem canon_modWin (id : Nat) (f : Window → Window) {s : State} (hs : s.Canon) : (modWin id f s).Canon := by
  unfold modWin
  grind only [canon_mk, State.Canon.tables]

theorem canon_writePeg (id : Nat) {s : State} (hs : s.Canon) : (writePeg id s).Canon := by
  unfold writePeg
  grind only [canon_pegPut, canon_modWin, canon_mk, State.Canon.tables, canon_foldl]

theorem canon_pegRoom (cl : Nat) {s : State} (hs : s.Canon) : (pegRoom cl s).Canon := by
  unfold pegRoom
  grind only [canon_pickOne, canon_writePeg, canon_mk, State.Canon.tables]

theorem canon_pegLoad (kind id : Nat) {s : State} (hs : s.Canon) : (pegLoad kind id s).Canon := by
  unfold pegLoad
  grind only [canon_pegSeen, canon_engineFault, canon_modWin, canon_pegRoom, canon_mk, State.Canon.tables, canon_foldl]

theorem canon_bucketMark (b slot : Nat) (on : Bool) {s : State} (hs : s.Canon) : (bucketMark b slot on s).Canon := by
  unfold bucketMark
  grind only [canon_pegPut, canon_mk, State.Canon.tables]

theorem canon_pegFrame (cl ctx : Nat) {s : State} (hs : s.Canon) : ∀ x t, pegFrame cl ctx s = .inr (x, t) → t.Canon := by
  unfold pegFrame
  grind only [canon_modCtx, canon_snoopNow, canon_homeRegion, canon_mk, State.Canon.tables]

theorem canon_pegPlace (cl ctx n0 n1 : Nat) {s : State} (hs : s.Canon) :
    ∀ x t, pegPlace cl ctx n0 n1 s = .inr (x, t) → t.Canon := by
  induction n0 generalizing n1 s with
  | zero => unfold pegPlace; grind only [canon_pegSeen, canon_bucketMark, canon_pegFrame, canon_pegPut, canon_mk,
    State.Canon.tables]
  | succ n ih =>
    unfold pegPlace
    grind only [canon_pegSeen, canon_bucketMark, canon_pegFrame, canon_pegPut, canon_mk, State.Canon.tables]

theorem canon_dropWin (id : Nat) {s : State} (hs : s.Canon) : (dropWin id s).Canon := by
  unfold dropWin
  grind only [canon_bucketMark, canon_mk, State.Canon.tables]

theorem canon_recMore (no : Nat) (opened : List Nat) {s : State} (hs : s.Canon) : (recMore no opened s).Canon := by
  unfold recMore
  grind only [canon_mk, State.Canon.tables]

theorem canon_openWin (cl : Nat) (r : Rec) (d : BitVec 512) (start expiry : Word64) (pane : Bool) {s : State} (hs : s.Canon) :
    ∀ t, openWin cl r d start expiry pane s = .inr t → t.Canon := by
  unfold openWin
  grind only [canon_pegPlace, canon_pegRoom, canon_recMore, canon_mk, State.Canon.tables]

theorem canon_joinTo (r : Rec) (w : Window) (start : Word64) (last : Stamp) (expiry : Word64) (count : Nat) (absorb : Option
  Nat) {s : State} (hs : s.Canon) :
    (joinTo r w start last expiry count absorb s).Canon := by
  unfold joinTo
  grind only [canon_recMore, canon_modWin, canon_mk, State.Canon.tables]

theorem canon_memberAt (cl : Nat) (r : Rec) (d : BitVec 512) (start len : Nat) (pane : Bool) {s : State} (hs : s.Canon) :
    ∀ t, memberAt cl r d start len pane s = .inr t → t.Canon := by
  unfold memberAt
  grind only [canon_joinTo, canon_openWin, canon_mk, State.Canon.tables]

theorem canon_memberCountKind (cl : Nat) (r : Rec) (d : BitVec 512) {s : State} (hs : s.Canon) :
    ∀ t, memberCountKind cl r d s = .inr t → t.Canon := by
  unfold memberCountKind
  grind only [canon_joinTo, canon_openWin, canon_mk, State.Canon.tables, canon_foldl]

theorem canon_memberGap (cl : Nat) (r : Rec) (d : BitVec 512) {s : State} (hs : s.Canon) :
    ∀ t, memberGap cl r d s = .inr t → t.Canon := by
  unfold memberGap
  grind only [canon_openWin, canon_joinTo, canon_modWin, canon_mk, State.Canon.tables]

theorem canon_slideFold (cl : Nat) (r : Rec) (d : BitVec 512) (l : Nat) (ss : List Nat) {x : AFlt ⊕ State} (hx : ∀ t, x = .inr t
  → t.Canon) :
    ∀ t, ss.foldl (fun (x : AFlt ⊕ State) st => match x with
      | .inl f => .inl f
      | .inr s => memberAt cl r d st l false s) x = .inr t → t.Canon := by
  induction ss generalizing x with
  | nil => exact hx
  | cons st ss ih =>
    refine ih fun t ht => ?_
    cases x with
    | inl f => cases ht
    | inr s => exact canon_memberAt _ _ _ _ _ _ (hx s rfl) t ht
theorem canon_member (cl : Nat) (r : Rec) (d : BitVec 512) {s : State} (hs : s.Canon) :
    ∀ t, member cl r d s = .inr t → t.Canon := by
  unfold member
  dsimp only
  split
  · exact canon_memberAt _ _ _ _ _ _ hs
  · split
    · exact canon_memberAt _ _ _ _ _ _ hs
    · exact canon_slideFold _ _ _ _ _ fun t ht => by cases ht; exact hs
  · exact canon_memberCountKind _ _ _ hs
  · exact canon_memberGap _ _ _ hs

theorem canon_engineBatch (cl ctx : Nat) (ds : List Delta) {s : State} (hs : s.Canon) :
    (engineBatch cl ctx ds s).Canon := by
  unfold engineBatch
  grind only [canon_due, canon_mk, State.Canon.tables]

theorem canon_recLess (cl no : Nat) {s : State} (hs : s.Canon) : (recLess cl no s).Canon := by
  unfold recLess
  grind only [canon_engineBatch, canon_mk, State.Canon.tables]

theorem canon_setHold (cl ctx sid : Nat) {s : State} (hs : s.Canon) : (setHold cl ctx sid s).Canon := by
  unfold setHold
  grind only [canon_engineBatch, canon_modStream, canon_hold, canon_mk, State.Canon.tables]

theorem canon_closeWin (id : Nat) {s : State} (hs : s.Canon) : (closeWin id s).Canon := by
  unfold closeWin
  grind only [canon_modWin, canon_mk, State.Canon.tables]

theorem canon_closePanes (cl ctx sid : Nat) (k : Word64) (start len : Nat) {s : State} (hs : s.Canon) :
    (closePanes cl ctx sid k start len s).Canon := by
  unfold closePanes
  grind only [canon_pegLoad, canon_modWin, canon_mk, State.Canon.tables, canon_foldl]

theorem canon_testCloses (cl ctx sid : Nat) {s : State} (hs : s.Canon) : (testCloses cl ctx sid s).Canon := by
  unfold testCloses
  grind only [canon_closePanes, canon_closeWin, canon_mk, State.Canon.tables, canon_foldl]

theorem canon_noteReady (cl ctx sid : Nat) {s : State} (hs : s.Canon) : (noteReady cl ctx sid s).Canon := by
  unfold noteReady
  grind only [canon_mk, State.Canon.tables]

theorem canon_armKind (cl ctx sid : Nat) (d : BitVec 512) {s : State} (k : WEntry) (hs : s.Canon) :
    (armKind cl ctx sid d s k).Canon := by
  unfold armKind
  grind only [canon_due, canon_noTimer, canon_timer, canon_mk, State.Canon.tables, canon_foldl]

theorem canon_armWork (cl ctx sid : Nat) {s : State} (hs : s.Canon) : (armWork cl ctx sid s).Canon := by
  unfold armWork
  grind only [canon_armKind, canon_noteReady, canon_mk, State.Canon.tables, canon_foldl]

theorem canon_freePanes (w : Window) {s : State} (hs : s.Canon) : (freePanes w s).Canon := by
  unfold freePanes
  grind only [canon_dropWin, canon_mk, State.Canon.tables, canon_foldl]

theorem canon_finishClose (id : Nat) {s : State} (hs : s.Canon) : (finishClose id s).Canon := by
  unfold finishClose
  grind only [canon_dropWin, canon_freePanes, canon_mk, State.Canon.tables]

theorem canon_skipCloses (cl ctx sid : Nat) {s : State} (hs : s.Canon) : (skipCloses cl ctx sid s).Canon := by
  unfold skipCloses
  grind only [canon_finishClose, canon_mk, State.Canon.tables, canon_foldl]

theorem canon_settleStream (cl ctx sid : Nat) {s : State} (hs : s.Canon) : (settleStream cl ctx sid s).Canon := by
  unfold settleStream
  grind only [canon_armWork, canon_setHold, canon_skipCloses, canon_mk, State.Canon.tables]

theorem canon_takeRecord (cl : Nat) {x : State × List Nat} (no : Nat) (hx : x.1.Canon) : (takeRecord cl x no).1.Canon := by
  unfold takeRecord
  grind only [canon_member, canon_engineFault, canon_mk, State.Canon.tables]

theorem canon_engineStep (cl : Nat) {s : State} (hs : s.Canon) : (engineStep cl s).Canon := by
  unfold engineStep
  refine canon_foldl _ (canon_foldl _ ?_ fun s p h => ?_) fun _ _ h => canon_writePeg _ h
  · exact canon_foldl_of (fun x : State × List Nat => x.1) (fun _ _ h => canon_takeRecord _ _ h) _ hs
  · grind only [canon_settleStream, canon_testCloses]

@[simp] theorem canon_execWindowEngineStep {s : State} (hs : s.Canon) : OutCanon (execWindowEngineStep s) := by
  unfold execWindowEngineStep
  grind only [canon_engineStep, canon_mk, State.Canon.tables, outCanon_next]

theorem canon_laneRegs {s : State} (d : BitVec 512) (k : WEntry) (l : Nat) {x : Cells 64 × State} (j : LaneJob) (hx : x.2.Canon) :
    (laneRegs s d k l x j).2.Canon := by
  unfold laneRegs
  dsimp only
  split
  · exact hx
  split
  · exact hx
  · refine canon_foldl_of (fun y : Cells 64 × State => y.2) (fun y r h => ?_) _ hx
    exact canon_drawFree h

theorem canon_lanePutAll {s : State} (d : BitVec 512) (k : WEntry) (js : List LaneJob) (hs : s.Canon) :
    (lanePutAll s d k js).2.Canon := canon_foldl_of (fun x : Cells 64 × State => x.2) (fun _ p h => canon_laneRegs d k p.2 p.1
      h) js.zipIdx hs

theorem canon_winScratch (core base : Nat) (recs : List (Option Rec)) (n : Nat) {s : State} (hs : s.Canon) :
    (winScratch core base recs n s).Canon := by
  unfold winScratch
  grind only [canon_sramPut, canon_mk, State.Canon.tables, canon_foldl]

theorem canon_windowStart (cl ctx sid : Nat) (k : WEntry) {s : State} (hs : s.Canon) :
    (windowStart cl ctx sid k s).Canon := by
  unfold windowStart
  grind only [canon_timer, canon_armWork, canon_dues, canon_lanePutAll, canon_setSplit, canon_winScratch, canon_addGroup,
    canon_modWin, canon_selfInvalidate, canon_mk, State.Canon.tables, canon_foldl]

@[simp] theorem canon_execPegLoad {s : State} (hs : s.Canon) : OutCanon (execPegLoad s) := by
  unfold execPegLoad
  grind only [canon_pegLoad, canon_mk, State.Canon.tables, outCanon_next]

@[simp] theorem canon_execWindowGroupStart {s : State} (hs : s.Canon) : OutCanon (execWindowGroupStart s) := by
  unfold execWindowGroupStart
  grind only [canon_windowStart, canon_mk, State.Canon.tables, outCanon_next]

@[simp] theorem canon_execWindowGroupTimeout {s : State} (hs : s.Canon) : OutCanon (execWindowGroupTimeout s) := by
  unfold execWindowGroupTimeout
  grind only [canon_windowStart, canon_mk, State.Canon.tables, outCanon_next]

theorem canon_saveLane (g : Group) (stw l : Nat) (x : LaneWin) {s : State} (hs : s.Canon) :
    (saveLane g stw l x s).Canon := by
  unfold saveLane
  grind only [canon_pegRoom, canon_modWin, canon_mk, State.Canon.tables]

theorem canon_endLane (g : Group) (n cl : Nat) {s : State} (p : LaneWin × Nat) (hs : s.Canon) :
    (endLane g n cl s p).Canon := by
  unfold endLane
  grind only [canon_modWin, canon_recLess, canon_dropWin, canon_freePanes, canon_finishClose, canon_mk, State.Canon.tables]

theorem canon_windowExit (g : Group) {s : State} (hs : s.Canon) : (windowExit g s).Canon := by
  unfold windowExit
  grind only [canon_saveLane, canon_endLane, canon_due, canon_settleStream, canon_mk, State.Canon.tables, canon_foldl]

theorem canon_sendLanes (ctx sid : Nat) (d : StreamD) (v : VReg) (n : Nat) (act : Word32) {s : State} (hs : s.Canon) :
    (sendLanes ctx sid d v n act s).Canon := by
  unfold sendLanes
  grind only [canon_sendBatch, canon_sendRecord, canon_mk, State.Canon.tables, canon_foldl]

theorem canon_sendInstr (ill : Bool) (tgt : Option StreamD) (w : Nat) (v : VReg) (n : Nat) (act : Word32) {s : State} {run :
  Out} (hs : s.Canon) (hrun : OutCanon run) :
    OutCanon (sendInstr ill tgt w v n act s run) := by
  unfold sendInstr
  grind only [canon_raise, canon_retire, canon_block, canon_mk, State.Canon.tables, outCanon_next]

@[simp] theorem canon_execWsend (v : VReg) (a b : SReg) (k : KReg) {s : State} (hs : s.Canon) :
    OutCanon (execWsend v a b k s) := by
  unfold execWsend
  grind only [canon_raise, canon_sendInstr, canon_retire, canon_sendLanes, canon_leaveReplay, canon_mk, State.Canon.tables,
    outCanon_next]

theorem canon_streamRing {s : State} (sp : IoSpace) (d : BitVec 512) (hs : s.Canon) : (streamRing s sp d).2.Canon := by
  unfold streamRing
  grind only [canon_ioRead, canon_mk, State.Canon.tables]

theorem canon_emitRing (d : BitVec 512) (v : VReg) (n : Nat) (act : Word32) (n0 : List Nat) {s : State} (hs : s.Canon) :
    OutCanon (emitRing d v n act n0 s) := by
  induction n0 generalizing s with
  | nil => exact canon_retire act hs
  | cons l ls ih =>
    -- Lean's equation for this function is too large to generate, so its recursion is opened by hand.
    delta emitRing
    dsimp only
    generalize hrec : (@List.rec _ _ _ _ ls) = rec
    have ih : ∀ {u : State}, u.Canon → OutCanon (rec.1 u) := by
      intro u hu
      have h := ih hu
      revert h
      delta emitRing
      delta List.brecOn List.brecOn.go
      dsimp only
      rw [hrec]
      exact id
    delta emitRing._f
    dsimp only
    have hring := canon_streamRing (IoSpace.engine (clusterOf s.g.idn.core) s.g.idn.ctx) d hs
    split
    · exact canon_block (canon_engineFault _ _ _ (canon_snd_of_eq ‹_› hring))
    · next r t heq =>
      have hput := canon_ringPut (IoSpace.engine (clusterOf s.g.idn.core) s.g.idn.ctx) r (64 * (sdOutRsz d + 1))
        (fun _ => (laneRecord t v n l).toNat) (canon_snd_of_eq heq hring)
      split
      · next u hu => rw [hu] at hput; exact ih (canon_mk _ _ _ _ _ _ _ _ _ _ _ _ _ _ _ hput)
      · next u hu => rw [hu] at hput; exact hput
      · next f u hu => rw [hu] at hput; exact canon_block (canon_engineFault _ _ _ hput)

@[simp] theorem canon_execWemit (v : VReg) (b : SReg) (k : KReg) {s : State} (hs : s.Canon) :
    OutCanon (execWemit v b k s) := by
  unfold execWemit
  grind only [canon_raise, canon_sendInstr, canon_retire, canon_sendLanes, canon_leaveReplay, canon_block, canon_emitRing,
    canon_mk, State.Canon.tables, outCanon_next]

@[simp] theorem canon_execWclose (k : KReg) {s : State} (hs : s.Canon) : OutCanon (execWclose k s) := by
  unfold execWclose
  grind only [canon_raiseI, canon_retire, canon_mk, State.Canon.tables, outCanon_next]

@[simp] theorem canon_execWinfo (d : VReg) (k : KReg) {s : State} (hs : s.Canon) : OutCanon (execWinfo d k s) := by
  unfold execWinfo
  grind only [canon_raiseI, canon_retire, canon_mk, State.Canon.tables, outCanon_next]

theorem canon_tellMate (g : Group) {s : State} (hs : s.Canon) : (tellMate g s).Canon := by
  unfold tellMate
  grind only [canon_wakeGid, canon_modGroup, canon_mk, State.Canon.tables]

theorem canon_leaveCore {s : State} (hs : s.Canon) : (leaveCore s).Canon := by
  unfold leaveCore
  grind only [canon_noGroupTimers, canon_wakeTeam, canon_tellMate, canon_mk, State.Canon.tables]

theorem canon_partCount (g : Group) {s : State} (hs : s.Canon) : (partCount g s).Canon := by
  unfold partCount
  grind only [canon_modPart, canon_due, canon_mk, State.Canon.tables]

theorem canon_dropWindowTeam (team : Nat) {s : State} (hs : s.Canon) : (dropWindowTeam team s).Canon := by
  unfold dropWindowTeam
  grind only [canon_unmapStash, canon_mk, State.Canon.tables, canon_foldl]

theorem canon_groupEnds {s : State} (hs : s.Canon) : (groupEnds s).Canon := by
  unfold groupEnds
  grind only [canon_leaveCore, canon_windowExit, canon_dropWindowTeam, canon_partCount, canon_barrierExit, canon_settlePreempts,
    canon_saveTeam, canon_mk, State.Canon.tables]

@[simp] theorem canon_execExit {s : State} (hs : s.Canon) : OutCanon (execExit s) := by
  unfold execExit
  grind only [canon_raiseI, canon_groupEnds, canon_block, canon_mk, State.Canon.tables, outCanon_next]

theorem canon_endWait (gid : Nat) {s : State} (hs : s.Canon) : (endWait gid s).Canon := by
  unfold endWait
  grind only [canon_noTimer, canon_withdraw, canon_modGroup, canon_mk, State.Canon.tables, canon_foldl]

theorem canon_escalateCmd (gid : Nat) (src : BitVec 3) (fc : Word32) (fva : Word64) (mask : Word32) (cmd : Word64 × Word64 ×
  Word64 × Word64) {s : State} (hs : s.Canon) :
    (escalateCmd gid src fc fva mask cmd s).Canon := by
  unfold escalateCmd
  grind only [canon_modGroup, canon_endWait, canon_applyPolicy, canon_due, canon_mk, State.Canon.tables]

theorem canon_parkToHost (gid : Nat) (matrix : Bool) (fc : Word32) (fva : Word64) (g : Group) (mask : Word32) (cmd : Word64 ×
  Word64 × Word64 × Word64) {s : State} (hs : s.Canon) :
    (parkToHost gid matrix fc fva g mask cmd s).Canon := by
  unfold parkToHost
  grind only [canon_rollback, canon_escalateCmd, canon_mk, State.Canon.tables]

theorem canon_parkOut (gid : Nat) (p : Bool × Nat) (g : Group) {s : State} (hs : s.Canon) : (parkOut gid p g s).Canon := by
  unfold parkOut
  grind only [canon_parkToHost, canon_mk, State.Canon.tables]

theorem canon_parkCmd (matrix : Bool) (gid slot : Nat) (fc : Word32) (fva : Word64) {s : State} (hs : s.Canon) :
    (parkCmd matrix gid slot fc fva s).Canon := by
  unfold parkCmd
  grind only [canon_modMx, canon_modCopy, canon_parkOut, canon_modGroup, canon_mk, State.Canon.tables]

@[simp] theorem canon_execPark {s : State} (hs : s.Canon) : OutCanon (execPark s) := by
  unfold execPark
  grind only [canon_parkCmd, canon_mk, State.Canon.tables, outCanon_next]

theorem canon_deliverBack (fc : Word32) (va : Word64) {s : State} (hs : s.Canon) : (deliverBack fc va s).Canon := by
  unfold deliverBack
  grind only [canon_endWait, canon_enterHandler, canon_escalate, canon_mk, State.Canon.tables]

@[simp] theorem canon_execParkedFaultDelivery {s : State} (hs : s.Canon) : OutCanon (execParkedFaultDelivery s) := by
  unfold execParkedFaultDelivery
  grind only [canon_deliverBack, canon_endWait, canon_parkOut, canon_enterHandler, canon_mk, State.Canon.tables, outCanon_next]

@[simp] theorem canon_execEccuDelivery {s : State} (hs : s.Canon) : OutCanon (execEccuDelivery s) := by
  unfold execEccuDelivery
  grind only [canon_endWait, canon_rollback, canon_drawFree, canon_escalate, canon_mk, State.Canon.tables, outCanon_next]

@[simp] theorem canon_execUrgent {s : State} (hs : s.Canon) : OutCanon (execUrgent s) := by
  unfold execUrgent
  grind only [canon_modGroup, canon_mk, State.Canon.tables, outCanon_next]

@[simp] theorem canon_execYieldExpiry {s : State} (hs : s.Canon) : OutCanon (execYieldExpiry s) := by
  unfold execYieldExpiry
  grind only [canon_modGroup, canon_mk, State.Canon.tables, outCanon_next]

@[simp] theorem canon_execSleepExpiry {s : State} (hs : s.Canon) : OutCanon (execSleepExpiry s) := by
  unfold execSleepExpiry
  grind only [canon_modGroup, canon_mk, State.Canon.tables, outCanon_next]

theorem canon_timeUp (gid : Nat) {s : State} (hs : s.Canon) : (timeUp gid s).Canon := by
  unfold timeUp
  grind only [canon_wakeGid, canon_modGroup, canon_mk, State.Canon.tables]

@[simp] theorem canon_execVnbrTimeout {s : State} (hs : s.Canon) : OutCanon (execVnbrTimeout s) := by
  unfold execVnbrTimeout
  grind only [canon_timeUp, canon_mk, State.Canon.tables, outCanon_next]

@[simp] theorem canon_execVxshfTimeout {s : State} (hs : s.Canon) : OutCanon (execVxshfTimeout s) := by
  unfold execVxshfTimeout
  grind only [canon_timeUp, canon_mk, State.Canon.tables, outCanon_next]

end Sys2Proof.Machine
end

section
/-! SUPPORT. A step keeps memory canonical and its tables sorted (R51, R54, R434). The host, its ports and tuning. -/
namespace Sys2Proof.Machine

theorem canon_filterRoom (line : Nat) {s : State} (hs : s.Canon) : (filterRoom line s).Canon := by
  unfold filterRoom
  grind only [canon_pickOne, canon_sendSnoops, canon_mk, State.Canon.tables]

theorem canon_hostAtHome (e : Event) (line : Nat) (records : Bool) {serve : State → State} {s : State} (hserve : ∀ s, s.Canon →
  (serve s).Canon) (hs : s.Canon) :
    (hostAtHome e line records serve s).Canon := by
  unfold hostAtHome
  grind only [canon_hold, canon_filterRoom, canon_homeRegion, canon_dueNow, canon_mk, State.Canon.tables]

@[simp] theorem canon_execMemrd {s : State} (hs : s.Canon) : OutCanon (execMemrd s) := by
  unfold execMemrd
  grind only [canon_hostAtHome, canon_memrdServe, canon_mk, State.Canon.tables, outCanon_next]

@[simp] theorem canon_execMemwr {s : State} (hs : s.Canon) : OutCanon (execMemwr s) := by
  unfold execMemwr
  grind only [canon_hostAtHome, canon_memwrServe, canon_mk, State.Canon.tables, outCanon_next]

@[simp] theorem canon_execBirsp {s : State} (hs : s.Canon) : OutCanon (execBirsp s) := by
  unfold execBirsp
  grind only [canon_wakeAll, canon_unhold, canon_mk, State.Canon.tables, outCanon_next]

@[simp] theorem canon_execBiconflict {s : State} (hs : s.Canon) : OutCanon (execBiconflict s) := by
  unfold execBiconflict
  grind only [canon_mk, State.Canon.tables, outCanon_next]

theorem canon_hostLineBack (line : Nat) (h : HostLine) {s : State} (hs : s.Canon) : (hostLineBack line h s).Canon := by
  unfold hostLineBack
  grind only [canon_hostPutM, canon_mk, State.Canon.tables]

theorem canon_setHostLine (line : Nat) (h : HostLine) {s : State} (hs : s.Canon) : (setHostLine line h s).Canon := by
  unfold setHostLine
  grind only [canon_mk, State.Canon.tables]

@[simp] theorem canon_execSnpdata {s : State} (hs : s.Canon) : OutCanon (execSnpdata s) := by
  unfold execSnpdata
  grind only [canon_setHostLine, canon_hostReply, canon_hostLineBack, canon_mk, State.Canon.tables, outCanon_next]

@[simp] theorem canon_execSnpinv {s : State} (hs : s.Canon) : OutCanon (execSnpinv s) := by
  unfold execSnpinv
  grind only [canon_hostReply, canon_hostLineBack, canon_mk, State.Canon.tables, outCanon_next]

@[simp] theorem canon_execSnpcur {s : State} (hs : s.Canon) : OutCanon (execSnpcur s) := by
  unfold execSnpcur
  grind only [canon_hostReply, canon_mk, State.Canon.tables, outCanon_next]

@[simp] theorem canon_execCxlCacheData {s : State} (hs : s.Canon) : OutCanon (execCxlCacheData s) := by
  unfold execCxlCacheData
  grind only [canon_setHostLine, canon_hostLineGet, canon_mk, State.Canon.tables, outCanon_next]

theorem canon_sectorArrives (sec : Nat) (data : BitVec 1024) (poison : BitVec 128) {s : State} (hs : s.Canon) :
    (sectorArrives sec data poison s).Canon := by
  unfold sectorArrives
  grind only [canon_l2Room, canon_mk, State.Canon.tables]

@[simp] theorem canon_execExpanderMemrdData {s : State} (hs : s.Canon) : OutCanon (execExpanderMemrdData s) := by
  unfold execExpanderMemrdData
  grind only [canon_sectorArrives, canon_mk, State.Canon.tables, outCanon_next]

@[simp] theorem canon_execBaseDieReply {s : State} (hs : s.Canon) : OutCanon (execBaseDieReply s) := by
  unfold execBaseDieReply
  grind only [canon_sectorArrives, canon_mk, State.Canon.tables, outCanon_next]

theorem canon_noteErrors (stack : Nat) {s : State} (hs : s.Canon) : (noteErrors stack s).Canon := by
  unfold noteErrors
  grind only [canon_drawFree, canon_mk, State.Canon.tables, canon_foldl]

theorem canon_noteSamples {s : State} (hs : s.Canon) : (noteSamples s).Canon := by
  unfold noteSamples
  grind only [canon_drawFree, canon_mk, State.Canon.tables, canon_foldl]

@[simp] theorem canon_execPatrolScrub {s : State} (hs : s.Canon) : OutCanon (execPatrolScrub s) := by
  unfold execPatrolScrub
  grind only [canon_noteSamples, canon_noteErrors, canon_timer, canon_mk, State.Canon.tables, outCanon_next]

@[simp] theorem canon_execHostPortCompletion {s : State} (hs : s.Canon) : OutCanon (execHostPortCompletion s) := by
  unfold execHostPortCompletion
  grind only [canon_modGroup, canon_wakeGid, canon_mk, State.Canon.tables, outCanon_next]

@[simp] theorem canon_execPcieHostAccess {s : State} (hs : s.Canon) : OutCanon (execPcieHostAccess s) := by
  unfold execPcieHostAccess
  grind only [canon_putSector, canon_hostReply, canon_mk, State.Canon.tables, outCanon_next]

theorem canon_peerFault (dev : Nat) (msg : PeerMsg) (r : PeerReq) (f : Flt) {s : State} (hs : s.Canon) :
    (peerFault dev msg r f s).Canon := by
  unfold peerFault
  grind only [canon_due, canon_applyPolicy, canon_toPeer, canon_timer, canon_mk, State.Canon.tables]

theorem canon_peerPerform (dev : Nat) (msg : PeerMsg) (r : PeerReq) {s : State} (hs : s.Canon) :
    (peerPerform dev msg r s).Canon := by
  unfold peerPerform
  grind only [canon_toPeer, canon_timer, canon_ioWriteP, canon_peerFault, canon_ioReadP, canon_mk, State.Canon.tables]

theorem canon_peerAnswers (dev id done : Nat) (f : Xfer → Xfer) {s : State} (hs : s.Canon) :
    (peerAnswers dev id done f s).Canon := by
  unfold peerAnswers
  grind only [canon_due, canon_mk, State.Canon.tables]

theorem canon_peerArrives (dev : Nat) (msg : PeerMsg) {s : State} (hs : s.Canon) : (peerArrives dev msg s).Canon := by
  unfold peerArrives
  grind only [canon_due, canon_peerPerform, canon_peerAnswers, canon_mk, State.Canon.tables]

@[simp] theorem canon_execPeerFlit {s : State} (hs : s.Canon) : OutCanon (execPeerFlit s) := by
  unfold execPeerFlit
  grind only [canon_peerArrives, canon_mk, State.Canon.tables, outCanon_next]

theorem canon_ackPeer (dev seq : Nat) {s : State} (hs : s.Canon) : (ackPeer dev seq s).Canon := by
  unfold ackPeer
  grind only [canon_mk, State.Canon.tables]

theorem canon_applyPeer (dev seq ctx : Nat) (ds : List Delta) {s : State} (hs : s.Canon) :
    (applyPeer dev seq ctx ds s).Canon := by
  unfold applyPeer
  grind only [canon_ackPeer, canon_batchArrives, canon_mk, State.Canon.tables]

theorem canon_peerFollow (n0 n1 : Nat) {s : State} (hs : s.Canon) : (peerFollow n0 n1 s).Canon := by
  induction n0 generalizing n1 s with
  | zero => unfold peerFollow; grind only [canon_applyPeer, canon_mk, State.Canon.tables]
  | succ n ih =>
    unfold peerFollow
    grind only [canon_applyPeer, canon_mk, State.Canon.tables]

@[simp] theorem canon_execPeerBatch {s : State} (hs : s.Canon) : OutCanon (execPeerBatch s) := by
  unfold execPeerBatch
  grind only [canon_ackPeer, canon_peerFollow, canon_applyPeer, canon_mk, State.Canon.tables, outCanon_next]

@[simp] theorem canon_execPeerBatchAck {s : State} (hs : s.Canon) : OutCanon (execPeerBatchAck s) := by
  unfold execPeerBatchAck
  grind only [canon_mk, State.Canon.tables, outCanon_next]

@[simp] theorem canon_execExchangeRestore {s : State} (hs : s.Canon) : OutCanon (execExchangeRestore s) := by
  unfold execExchangeRestore
  grind only [canon_modCtx, canon_dues, canon_wakeAll, canon_mk, State.Canon.tables, canon_foldl, outCanon_next]

@[simp] theorem canon_execLinkRetrain {s : State} (hs : s.Canon) : OutCanon (execLinkRetrain s) := by
  unfold execLinkRetrain
  grind only [canon_due, canon_mk, State.Canon.tables, outCanon_next]

theorem canon_writeTuning {s : State} (hs : s.Canon) : (writeTuning s).Canon := by
  unfold writeTuning
  grind only [canon_homeWrite, canon_mk, State.Canon.tables, canon_foldl]

theorem canon_releaseNow (r : Nat) {s : State} (hs : s.Canon) : (releaseNow r s).Canon := by
  unfold releaseNow
  grind only [canon_endRelease, canon_revoke, canon_mk, State.Canon.tables, canon_foldl]

theorem canon_drainSlices (gone : List Nat) {s : State} (hs : s.Canon) : (drainSlices gone s).Canon := by
  unfold drainSlices
  grind only [canon_releaseNow, canon_revoke, canon_homeDrop, canon_hostDrop, canon_mk, State.Canon.tables, canon_foldl]

theorem canon_moveEngines (u : Tuning) {s : State} (hs : s.Canon) : (moveEngines u s).Canon := by
  unfold moveEngines
  grind only [canon_writePeg, canon_dues, canon_mk, State.Canon.tables, canon_foldl]

theorem canon_losePeers {s : State} (hs : s.Canon) : (losePeers s).Canon := by
  have hsorted : amSorted 0 (amMap s.ctxs (fun _ c => cutPeer s.tun c)) = true := amSorted_map (f := fun p => (p.1, cutPeer
    s.tun p.2)) (fun _ => rfl) hs.2.2
  exact canon_dues _ ⟨hs.1, hs.2.1, hsorted⟩

theorem canon_forceSave (teams : List Nat) {s : State} (hs : s.Canon) : (forceSave teams s).Canon := by
  unfold forceSave
  grind only [canon_dues, canon_mapGroups, canon_mk, State.Canon.tables]

theorem canon_evict (teams : List Nat) {s : State} (hs : s.Canon) : (evict teams s).Canon := by
  unfold evict
  grind only [canon_rollback, canon_forceSave, canon_mk, State.Canon.tables, canon_foldl]

theorem canon_keepPos (t : Tuning) (teams : List Nat) {s : State} (hs : s.Canon) : (keepPos t teams s).Canon := by
  unfold keepPos
  grind only [canon_mapGroups, canon_mk, State.Canon.tables]

theorem canon_displaceTeams (t : Tuning) (p q : Nat → Bool) {s : State} (hs : s.Canon) :
    (displaceTeams t p q s).Canon := by
  unfold displaceTeams
  grind only [canon_keepPos, canon_askSave, canon_evict, canon_mk, State.Canon.tables]

theorem canon_displace (c : TuneCause) (t : Tuning) {s : State} (hs : s.Canon) : (displace c t s).Canon := by
  unfold displace
  grind only [canon_displaceTeams, canon_mk, State.Canon.tables]

theorem canon_publish (c : TuneCause) (u : Tuning) {s : State} (hs : s.Canon) : (publish c u s).Canon := by
  unfold publish
  grind only [canon_writeTuning, canon_mapGroups, canon_due, canon_timer, canon_modCtx, canon_noTimer, canon_modGroup, canon_mk,
    State.Canon.tables, canon_foldl]

theorem canon_endScans (t : Tuning) {s : State} (hs : s.Canon) : (endScans t s).Canon := by
  unfold endScans
  grind only [canon_endScan, canon_mk, State.Canon.tables, canon_foldl]

theorem canon_retune (c : TuneCause) {s : State} (hs : s.Canon) : (retune c s).Canon := by
  unfold retune
  grind only [canon_drainSlices, canon_moveEngines, canon_losePeers, canon_displace, canon_publish, canon_mk, State.Canon.tables]

@[simp] theorem canon_execTuningEvent {s : State} (hs : s.Canon) : OutCanon (execTuningEvent s) := by
  unfold execTuningEvent
  grind only [canon_timer, canon_endScans, canon_retune, canon_mk, State.Canon.tables, outCanon_next]

@[simp] theorem canon_execTuneDeadline {s : State} (hs : s.Canon) : OutCanon (execTuneDeadline s) := by
  unfold execTuneDeadline
  grind only [canon_applyPolicy, canon_due, canon_mk, State.Canon.tables, outCanon_next]

@[simp] theorem canon_execScanPatternStart {s : State} (hs : s.Canon) : OutCanon (execScanPatternStart s) := by
  unfold execScanPatternStart
  grind only [canon_drawFree, canon_timer, canon_mk, State.Canon.tables, outCanon_next]

@[simp] theorem canon_execScanCompare {s : State} (hs : s.Canon) : OutCanon (execScanCompare s) := by
  unfold execScanCompare
  grind only [canon_endScan, canon_complete, canon_timer, canon_retune, canon_mk, State.Canon.tables, outCanon_next]

theorem canon_pairRun (core : Nat) {s : State} (hs : s.Canon) : (pairRun core s).Canon := by
  unfold pairRun
  grind only [canon_setCore, canon_due, canon_mk, State.Canon.tables]

@[simp] theorem canon_execPairMismatch {s : State} (hs : s.Canon) : OutCanon (execPairMismatch s) := by
  unfold execPairMismatch
  grind only [canon_timer, canon_endScans, canon_retune, canon_mk, State.Canon.tables, outCanon_next]

theorem canon_failStart (fails stage : Nat) (reason : BitVec 8) (minimal : Bool) {s : State} (hs : s.Canon) :
    (failStart fails stage reason minimal s).Canon := ⟨hs.1, rfl, rfl⟩

theorem canon_pairStart (t : Tuning) {x : Tuning × List TuneCause × State} (k : Nat) (hx : x.2.2.Canon) :
    (pairStart t x k).2.2.Canon := by
  unfold pairStart
  grind only [canon_setCore, canon_mk, State.Canon.tables]

theorem canon_readyStart (fails : Nat) (minimal : Bool) {s : State} (hs : s.Canon) :
    (readyStart fails minimal s).Canon := by
  unfold readyStart
  dsimp only
  have hfail := canon_failStart fails 4 (if minimal then 1 else 0) minimal hs
  have hruns (t full : Tuning) (ks : List Nat) : (ks.foldl (pairStart t) (full, [], failStart fails 4 (if minimal then 1 else 0)
    minimal s)).2.2.Canon :=
    canon_foldl_of (fun x : Tuning × List TuneCause × State => x.2.2) (fun _ k h => canon_pairStart t k h) ks hfail
  exact canon_writeTuning (canon_foldl _ (hruns _ _ _) fun _ _ h => canon_timer _ _ h)

theorem canon_hungStart (fails : Nat) (minimal : Bool) {s : State} (hs : s.Canon) : (hungStart fails minimal s).Canon := by
  unfold hungStart
  grind only [canon_failStart, canon_mk, State.Canon.tables]

@[simp] theorem canon_execStart {s : State} (hs : s.Canon) : OutCanon (execStart s) := by
  unfold execStart
  grind only [canon_failStart, canon_due, canon_hungStart, canon_readyStart, canon_mk, State.Canon.tables, outCanon_next]

@[simp] theorem canon_execStartWatchdog {s : State} (hs : s.Canon) : OutCanon (execStartWatchdog s) := by
  unfold execStartWatchdog
  grind only [canon_mk, State.Canon.tables, outCanon_next]

@[simp] theorem canon_execFailsClear {s : State} (hs : s.Canon) : OutCanon (execFailsClear s) := by
  unfold execFailsClear
  grind only [canon_mk, State.Canon.tables, outCanon_next]

theorem canon_spdmAnswer (req resp : List Byte) (f : Spdm → Spdm) {s : State} (hs : s.Canon) :
    (spdmAnswer req resp f s).Canon := by
  unfold spdmAnswer
  grind only [canon_mk, State.Canon.tables]

theorem canon_spdmNone {s : State} (hs : s.Canon) : (spdmNone s).Canon := by
  unfold spdmNone
  grind only [canon_mk, State.Canon.tables]

@[simp] theorem canon_execGetVersion {s : State} (hs : s.Canon) : OutCanon (execGetVersion s) := by
  unfold execGetVersion
  grind only [canon_spdmAnswer, canon_mk, State.Canon.tables, outCanon_next]

@[simp] theorem canon_execGetCapabilities {s : State} (hs : s.Canon) : OutCanon (execGetCapabilities s) := by
  unfold execGetCapabilities
  grind only [canon_spdmAnswer, canon_spdmNone, canon_mk, State.Canon.tables, outCanon_next]

@[simp] theorem canon_execNegotiateAlgorithms {s : State} (hs : s.Canon) : OutCanon (execNegotiateAlgorithms s) := by
  unfold execNegotiateAlgorithms
  grind only [canon_spdmAnswer, canon_spdmNone, canon_mk, State.Canon.tables, outCanon_next]

@[simp] theorem canon_execGetDigests {s : State} (hs : s.Canon) : OutCanon (execGetDigests s) := by
  unfold execGetDigests
  grind only [canon_spdmAnswer, canon_spdmNone, canon_mk, State.Canon.tables, outCanon_next]

@[simp] theorem canon_execGetCertificate {s : State} (hs : s.Canon) : OutCanon (execGetCertificate s) := by
  unfold execGetCertificate
  grind only [canon_spdmAnswer, canon_spdmNone, canon_mk, State.Canon.tables, outCanon_next]

theorem canon_signed (nonce : BitVec 256) (body : List Byte) {s : State} (hs : s.Canon) : (signed nonce body s).Canon := by
  unfold signed
  grind only [canon_spdmAnswer, canon_mk, State.Canon.tables]

@[simp] theorem canon_execChallenge {s : State} (hs : s.Canon) : OutCanon (execChallenge s) := by
  unfold execChallenge
  grind only [canon_signed, canon_spdmNone, canon_mk, State.Canon.tables, outCanon_next]

@[simp] theorem canon_execGetMeasurements {s : State} (hs : s.Canon) : OutCanon (execGetMeasurements s) := by
  unfold execGetMeasurements
  grind only [canon_signed, canon_spdmNone, canon_mk, State.Canon.tables, outCanon_next]

theorem canon_setWait (ten : Nat) (rs : List FaultRec) {s : State} (hs : s.Canon) : (setWait ten rs s).Canon := by
  unfold setWait
  grind only [canon_mk, State.Canon.tables]

theorem canon_putFaults (ten : Nat) (ring : Ring) (n0 : List FaultRec) {s : State} (hs : s.Canon) :
    (putFaults ten ring n0 s).Canon := by
  induction n0 generalizing s with
  | nil => unfold putFaults; grind only [canon_setWait, canon_ringPut, canon_timer, canon_mk, State.Canon.tables,
    RingRes.canon_ok, RingRes.canon_full, RingRes.canon_fault]
  | cons e es ih =>
    unfold putFaults
    grind only [canon_setWait, canon_ringPut, canon_timer, canon_mk, State.Canon.tables, RingRes.canon_ok, RingRes.canon_full,
      RingRes.canon_fault]

@[simp] theorem canon_execFaultRecord {s : State} (hs : s.Canon) : OutCanon (execFaultRecord s) := by
  unfold execFaultRecord
  grind only [canon_setWait, canon_putFaults, canon_mk, State.Canon.tables, outCanon_next]

theorem canon_flushPieces (keep : Bool) (ps : List (Nat × Nat)) {s : State} (hs : s.Canon) :
    (flushPieces keep ps s).Canon := by
  unfold flushPieces
  grind only [canon_flushRange, canon_revoke, canon_mk, State.Canon.tables, canon_foldl]

theorem canon_flushHandles (keep : Bool) (ctx : Nat) (idx : List Nat) {s : State} (hs : s.Canon) :
    (flushHandles keep ctx idx s).Canon := by
  unfold flushHandles
  grind only [canon_flushPieces, canon_mk, State.Canon.tables, canon_foldl]

theorem canon_putComps (admin : Bool) (n : Nat) (q : Queue) (n0 : List CompRec) {s : State} (hs : s.Canon) :
    (putComps admin n q n0 s).Canon := by
  induction n0 generalizing s with
  | nil => unfold putComps; grind only [canon_modQueue, canon_timer, canon_ringPut, canon_closeId, canon_due, canon_mk,
    State.Canon.tables, RingRes.canon_ok, RingRes.canon_full, RingRes.canon_fault]
  | cons e es ih =>
    unfold putComps
    grind only [canon_modQueue, canon_timer, canon_ringPut, canon_closeId, canon_due, canon_mk, State.Canon.tables,
      RingRes.canon_ok, RingRes.canon_full, RingRes.canon_fault]

theorem canon_settleQueue (n : Nat) {s : State} (hs : s.Canon) : (settleQueue n s).Canon := by
  unfold settleQueue
  grind only [canon_complete, canon_dropCmds, canon_mk, State.Canon.tables]

@[simp] theorem canon_execCompletionRecord {s : State} (hs : s.Canon) : OutCanon (execCompletionRecord s) := by
  unfold execCompletionRecord
  grind only [canon_flushHandles, canon_modQueue, canon_putComps, canon_settleQueue, canon_mk, State.Canon.tables, outCanon_next]

theorem canon_modXfer (id : Nat) (f : Xfer → Xfer) {s : State} (hs : s.Canon) : (modXfer id f s).Canon := by
  unfold modXfer
  grind only [canon_mk, State.Canon.tables]

theorem canon_askPeer (x : Xfer) (m : PeerMsg) {s : State} (hs : s.Canon) : (askPeer x m s).Canon := by
  unfold askPeer
  grind only [canon_toPeer, canon_mk, State.Canon.tables, XferRes.canon_done, XferRes.canon_wait, XferRes.canon_fault]

theorem canon_xferBytes (x : Xfer) (n : Nat) {s : State} (hs : s.Canon) : (xferBytes x n s).2.Canon := by
  unfold xferBytes
  grind only [canon_ioReadP, canon_mk, State.Canon.tables]

theorem canon_xferRun (n0 : Nat) (n1 : Xfer) {s : State} (hs : s.Canon) : (xferRun n0 n1 s).Canon := by
  induction n0 generalizing n1 s with
  | zero => unfold xferRun; grind only [canon_xferBytes, canon_askPeer, canon_ioWriteP, canon_mk, State.Canon.tables,
    XferRes.canon_done, XferRes.canon_wait, XferRes.canon_fault]
  | succ n ih =>
    unfold xferRun
    grind only [canon_xferBytes, canon_askPeer, canon_ioWriteP, canon_mk, State.Canon.tables, XferRes.canon_done,
      XferRes.canon_wait, XferRes.canon_fault]

theorem canon_parkXfer (id : Nat) (x : Xfer) (f : Flt) {s : State} (hs : s.Canon) : (parkXfer id x f s).Canon := by
  unfold parkXfer
  grind only [canon_due, canon_mk, State.Canon.tables]

theorem canon_moveXfer (id : Nat) (x : Xfer) {s : State} (hs : s.Canon) : (moveXfer id x s).Canon := by
  unfold moveXfer
  grind only [canon_xferRun, canon_parkXfer, canon_due, canon_applyPolicy, canon_mk, State.Canon.tables, XferRes.canon_done,
    XferRes.canon_wait, XferRes.canon_fault]

theorem canon_xferRing (x : Xfer) {s : State} (hs : s.Canon) : (xferRing x s).2.Canon := by
  unfold xferRing
  grind only [canon_ioRead, canon_mk, State.Canon.tables]

theorem canon_recordXfer (id : Nat) (x : Xfer) {s : State} (hs : s.Canon) : (recordXfer id x s).Canon := by
  unfold recordXfer
  grind only [canon_timer, canon_xferRing, canon_parkXfer, canon_flushHandles, canon_ringPut, canon_settleQueue, canon_closeCmd,
    canon_mk, State.Canon.tables, RingRes.canon_ok, RingRes.canon_full, RingRes.canon_fault]

theorem canon_transferFinish (id : Nat) {s : State} (hs : s.Canon) : (transferFinish id s).Canon := by
  unfold transferFinish
  grind only [canon_moveXfer, canon_recordXfer, canon_mk, State.Canon.tables]

@[simp] theorem canon_execTransferFinish {s : State} (hs : s.Canon) : OutCanon (execTransferFinish s) := by
  unfold execTransferFinish
  grind only [canon_transferFinish, canon_mk, State.Canon.tables, outCanon_next]

end Sys2Proof.Machine
end

section
/-! SUPPORT. A step keeps memory canonical and its tables sorted (R51, R54, R434). Commands, contexts and control registers. -/
namespace Sys2Proof.Machine

theorem canon_arrive (admin : Bool) (n : Nat) (q : Queue) {s : State} (b : Nat) (hs : s.Canon) :
    (arrive admin n q s b).Canon := by
  unfold arrive
  grind only [canon_mk, State.Canon.tables]

theorem canon_stopQueue (admin : Bool) (n : Nat) (q : Queue) (f : Flt) {s : State} (hs : s.Canon) :
    (stopQueue admin n q f s).Canon := by
  unfold stopQueue
  grind only [canon_due, canon_modQueue, canon_mk, State.Canon.tables]

theorem canon_readSlots (q : Queue) (n0 n1 : Nat) {s : State} (hs : s.Canon) : (readSlots q n0 n1 s).2.Canon := by
  induction n0 generalizing n1 s with
  | zero => unfold readSlots; grind only [canon_ioRead, canon_mk, State.Canon.tables]
  | succ n ih =>
    unfold readSlots
    grind only [canon_ioRead, canon_mk, State.Canon.tables]

theorem canon_oneRing (admin : Bool) (n : Nat) {s : State} (hs : s.Canon) : (oneRing admin n s).Canon := by
  unfold oneRing
  grind only [canon_mk, State.Canon.tables]

theorem canon_doorbell (admin : Bool) (n : Nat) {s : State} (hs : s.Canon) : (doorbell admin n s).Canon := by
  unfold doorbell
  grind only [canon_ioRead, canon_stopQueue, canon_readSlots, canon_modQueue, canon_arrive, canon_mk, State.Canon.tables,
    canon_foldl]

@[simp] theorem canon_execDoorbell {s : State} (hs : s.Canon) : OutCanon (execDoorbell s) := by
  unfold execDoorbell
  grind only [canon_doorbell, canon_oneRing, canon_mk, State.Canon.tables, outCanon_next]

theorem canon_beginCmd (c : QCmd) (q : Queue) {s : State} (hs : s.Canon) : (beginCmd c q s).Canon := by
  unfold beginCmd
  grind only [canon_modQueue, canon_ioWrite, canon_due, canon_mk, State.Canon.tables]

theorem canon_runCmd (c : QCmd) (reasons : State → Queue → List Reason) {reject : Nat → State → State} {cancel : Nat → State →
  State} {run : Queue → State → State} {s : State} (hreject : ∀ x0 s, s.Canon → (reject x0 s).Canon) (hcancel : ∀ x0 s, s.Canon →
  (cancel x0 s).Canon) (hrun : ∀ x0 s, s.Canon → (run x0 s).Canon) (hs : s.Canon) :
    (runCmd c reasons reject cancel run s).Canon := by
  unfold runCmd
  grind only [canon_beginCmd, canon_flushHandles, canon_mk, State.Canon.tables]

theorem canon_runPlain (c : QCmd) (reasons : State → Queue → List Reason) {run : Queue → State → State} {s : State} (hrun : ∀ x0
  s, s.Canon → (run x0 s).Canon) (hs : s.Canon) :
    (runPlain c reasons run s).Canon := by
  unfold runPlain
  grind only [canon_runCmd, canon_complete, canon_mk, State.Canon.tables]

theorem canon_failCmd (c : QCmd) (q : Queue) (f : Flt) (res : Nat) {s : State} (hs : s.Canon) :
    (failCmd c q f res s).Canon := by
  unfold failCmd
  grind only [canon_complete, canon_due, canon_mk, State.Canon.tables]

theorem canon_commandPlus (ctx : Nat) (t : Stamp) (loc : Nat) {s : State} (hs : s.Canon) :
    (commandPlus ctx t loc s).Canon := by
  unfold commandPlus
  grind only [canon_due, canon_mk, State.Canon.tables]

theorem readPairs_succ (ctx n va : Nat) (s : State) : readPairs ctx (n + 1) va s = (match ioRead (.virt ctx) va 16 s with
    | (.inl f, s) => (.inl f, s)
    | (.inr b, s) => match readPairs ctx n (va + 16) s with
      | (.inl f, s) => (.inl f, s)
      | (.inr ps, s) => (.inr ((b % 2 ^ 64, b / 2 ^ 64) :: ps), s)) := (rfl)
theorem canon_readPairs (ctx n0 n1 : Nat) {s : State} (hs : s.Canon) : (readPairs ctx n0 n1 s).2.Canon := by
  induction n0 generalizing n1 s with
  | zero => exact hs
  | succ n ih =>
    rw [readPairs_succ]
    split
    · exact canon_snd_of_eq ‹_› (canon_ioRead _ _ _ hs)
    · have h := ih (n1 + 16) (canon_snd_of_eq ‹_› (canon_ioRead _ _ _ hs))
      split
      · exact canon_snd_of_eq ‹_› h
      · exact canon_snd_of_eq ‹_› h

theorem canon_putLeaf (pte : Nat) (e : Word64) {s : State} (hs : s.Canon) : (putLeaf pte e s).Canon := by
  unfold putLeaf
  grind only [canon_cohPutWord, canon_mk, State.Canon.tables]

theorem canon_lockPage (ctx owner cl : Nat) (p : SetPage) {s : State} (hs : s.Canon) :
    (lockPage ctx owner cl p s).Canon := by
  unfold lockPage
  grind only [canon_tlbRoom, canon_mk, State.Canon.tables]

theorem canon_pinPages (ctx owner : Nat) (cls : List Nat) (ps : List SetPage) {s : State} (hs : s.Canon) :
    (pinPages ctx owner cls ps s).Canon := by
  unfold pinPages
  grind only [canon_lockPage, canon_putLeaf, canon_mk, State.Canon.tables, canon_foldl]

theorem canon_pinSet (c : QCmd) (q : Queue) (owner n va : Nat) {go : State → State} {s : State} (hgo : ∀ s, s.Canon → (go
  s).Canon) (hs : s.Canon) :
    (pinSet c q owner n va go s).Canon := by
  unfold pinSet
  grind only [canon_readPairs, canon_failCmd, canon_pinPages, canon_mk, State.Canon.tables]

theorem canon_runWork (c : QCmd) (reasons : State → Queue → List Reason) {run : Queue → State → State} {s : State} (hrun : ∀ x0
  s, s.Canon → (run x0 s).Canon) (hs : s.Canon) :
    (runWork c reasons run s).Canon := by
  unfold runWork
  grind only [canon_runCmd, canon_complete, canon_drawFree, canon_mk, State.Canon.tables]

theorem canon_launchGrid (c : QCmd) (q : Queue) {s : State} (hs : s.Canon) : (launchGrid c q s).Canon := by
  unfold launchGrid
  grind only [canon_commandPlus, canon_abortScans, canon_mk, State.Canon.tables]

@[simp] theorem canon_execLaunch {s : State} (hs : s.Canon) : OutCanon (execLaunch s) := by
  unfold execLaunch
  grind only [canon_runWork, canon_pinSet, canon_launchGrid, canon_mk, State.Canon.tables, outCanon_next]

theorem canon_jobCard (c : QCmd) (q : Queue) {s : State} (hs : s.Canon) : (jobCard c q s).Canon := by
  unfold jobCard
  grind only [canon_commandPlus, canon_mk, State.Canon.tables]

@[simp] theorem canon_execJob {s : State} (hs : s.Canon) : OutCanon (execJob s) := by
  unfold execJob
  grind only [canon_runWork, canon_jobCard, canon_mk, State.Canon.tables, outCanon_next]

theorem canon_readRecords (ctx size n0 n1 : Nat) {s : State} (hs : s.Canon) : (readRecords ctx size n0 n1 s).2.Canon := by
  induction n0 generalizing n1 s with
  | zero => unfold readRecords; grind only [canon_ioRead, canon_mk, State.Canon.tables]
  | succ n ih =>
    unfold readRecords
    grind only [canon_ioRead, canon_mk, State.Canon.tables]

theorem canon_writeLate (ctx sid : Nat) {s : State} (hs : s.Canon) : (writeLate ctx sid s).2.Canon := by
  unfold writeLate
  grind only [canon_ioWrite, canon_mk, State.Canon.tables]

theorem canon_takePut (ctx sid : Nat) (h : Option Stamp) (drop : Bool) (n0 : List (BitVec 4096)) (n1 : Nat) {s : State} (hs :
  s.Canon) :
    (takePut ctx sid h drop n0 n1 s).2.Canon := by
  induction n0 generalizing n1 s with
  | nil => unfold takePut; grind only [canon_writeLate, canon_modStream, canon_mk, State.Canon.tables]
  | cons e es ih =>
    unfold takePut
    grind only [canon_writeLate, canon_modStream, canon_mk, State.Canon.tables]

theorem canon_acceptRecords (ctx sid : Nat) (d : StreamD) (rs : List (BitVec 4096)) {s : State} (hs : s.Canon) :
    (acceptRecords ctx sid d rs s).Canon := by
  unfold acceptRecords
  grind only [canon_due, canon_sendRecord, canon_mk, State.Canon.tables, canon_foldl]

theorem canon_streamPut (c : QCmd) (q : Queue) {s : State} (hs : s.Canon) : (streamPut c q s).Canon := by
  unfold streamPut
  grind only [canon_readRecords, canon_takePut, canon_acceptRecords, canon_complete, canon_due, canon_modStream, canon_failCmd,
    canon_mk, State.Canon.tables]

@[simp] theorem canon_execStreamPut {s : State} (hs : s.Canon) : OutCanon (execStreamPut s) := by
  unfold execStreamPut
  grind only [canon_runPlain, canon_streamPut, canon_mk, State.Canon.tables, outCanon_next]

theorem canon_streamAdvance (c : QCmd) (q : Queue) {s : State} (hs : s.Canon) : (streamAdvance c q s).Canon := by
  unfold streamAdvance
  dsimp only
  split
  · exact hs
  · refine canon_complete _ _ _ _ ?_
    split
    · exact canon_due _ (canon_modStream _ _ _ hs)
    · exact hs

@[simp] theorem canon_execStreamAdvance {s : State} (hs : s.Canon) : OutCanon (execStreamAdvance s) := by
  unfold execStreamAdvance
  grind only [canon_runPlain, canon_streamAdvance, canon_mk, State.Canon.tables, outCanon_next]

theorem canon_waitStamp (c : QCmd) (q : Queue) {s : State} (hs : s.Canon) : (waitStamp c q s).Canon := by
  unfold waitStamp
  grind only [canon_subscribe, canon_complete, canon_mk, State.Canon.tables]

@[simp] theorem canon_execWaitStamp {s : State} (hs : s.Canon) : OutCanon (execWaitStamp s) := by
  unfold execWaitStamp
  grind only [canon_runPlain, canon_waitStamp, canon_mk, State.Canon.tables, outCanon_next]

theorem canon_signalWord (c : QCmd) (q : Queue) {s : State} (hs : s.Canon) : (signalWord c q s).Canon := by
  unfold signalWord
  grind only [canon_failCmd, canon_ioWrite, canon_complete, canon_wakeWord, canon_mk, State.Canon.tables, canon_foldl]

@[simp] theorem canon_execSignal {s : State} (hs : s.Canon) : OutCanon (execSignal s) := by
  unfold execSignal
  grind only [canon_runPlain, canon_signalWord, canon_mk, State.Canon.tables, outCanon_next]

theorem canon_addXfer (c : QCmd) (x : Xfer) {s : State} (hs : s.Canon) : (addXfer c x s).Canon := by
  unfold addXfer
  grind only [canon_due, canon_mk, State.Canon.tables]

theorem canon_endedXfer (c : QCmd) (status : Nat) {s : State} (hs : s.Canon) : (endedXfer c status s).Canon := by
  unfold endedXfer
  grind only [canon_addXfer, canon_mk, State.Canon.tables]

@[simp] theorem canon_execXfer {s : State} (hs : s.Canon) : OutCanon (execXfer s) := by
  unfold execXfer
  grind only [canon_runCmd, canon_complete, canon_closeCmd, canon_endedXfer, canon_addXfer, canon_mk, State.Canon.tables,
    outCanon_next]

theorem canon_releasePages (ctx : Nat) (rs : List (Nat × Nat)) {s : State} (hs : s.Canon) :
    (releasePages ctx rs s).Canon := by
  unfold releasePages
  grind only [canon_putLeaf, canon_mk, State.Canon.tables, canon_foldl]

theorem canon_pinCmd (c : QCmd) (q : Queue) {s : State} (hs : s.Canon) : (pinCmd c q s).Canon := by
  unfold pinCmd
  grind only [canon_pinSet, canon_complete, canon_readPairs, canon_failCmd, canon_releasePages, canon_mk, State.Canon.tables]

@[simp] theorem canon_execPin {s : State} (hs : s.Canon) : OutCanon (execPin s) := by
  unfold execPin
  grind only [canon_runPlain, canon_pinCmd, canon_mk, State.Canon.tables, outCanon_next]

@[simp] theorem canon_execTuneAck {s : State} (hs : s.Canon) : OutCanon (execTuneAck s) := by
  unfold execTuneAck
  grind only [canon_runPlain, canon_tuneAck, canon_complete, canon_mk, State.Canon.tables, outCanon_next]

theorem canon_readTable (va n : Nat) {s : State} (hs : s.Canon) : (readTable va n s).2.Canon := by
  unfold readTable
  grind only [canon_ioRead, canon_mk, State.Canon.tables]

theorem canon_readTables (b : Nat) {s : State} (hs : s.Canon) : (readTables b s).2.Canon := by
  unfold readTables
  grind only [canon_readTable, canon_mk, State.Canon.tables]

theorem canon_readContext (q : Queue) (desc : Nat) {s : State} (hs : s.Canon) : (readContext q desc s).2.Canon := by
  unfold readContext
  split
  · exact canon_snd_of_eq ‹_› (canon_ioRead _ _ _ hs)
  · next b t heq =>
    have ht : t.Canon := canon_snd_of_eq heq (canon_ioRead _ _ _ hs)
    have hput : State.Canon { t with ctxs := amPut t.ctxs newSpace (bareCtx q.tenant t.tun.tunn b) } :=
      ⟨ht.1, ht.2.1, amSorted_amPut ht.2.2 _ _ (Nat.zero_le _)⟩
    have hr := canon_readTables b hput
    have hdel : (dropCtxTlb newSpace { (readTables b { t with ctxs := amPut t.ctxs newSpace (bareCtx q.tenant t.tun.tunn b) }).2
      with
        ctxs := amDel (readTables b { t with ctxs := amPut t.ctxs newSpace (bareCtx q.tenant t.tun.tunn b) }).2.ctxs newSpace
          }).Canon :=
      canon_dropCtxTlb _ ⟨hr.1, hr.2.1, amSorted_filter hr.2.2 _⟩
    split
    · exact ht
    · dsimp only
      split <;> exact hdel

theorem canon_hostCounts (n : Nat) (c : Ctx) {s : State} (hs : s.Canon) : (hostCounts n c s).Canon := by
  unfold hostCounts
  grind only [canon_addCount, canon_modStream, canon_mk, State.Canon.tables, canon_foldl]

theorem canon_ctxCreate (c : QCmd) (q : Queue) {s : State} (hs : s.Canon) : (ctxCreate c q s).Canon := by
  unfold ctxCreate
  split
  · exact canon_failCmd _ _ _ _ (canon_snd_of_eq ‹_› (canon_readContext _ _ hs))
  · next b t u heq =>
    have hu : u.Canon := canon_snd_of_eq heq (canon_readContext _ _ hs)
    split
    · exact canon_complete _ _ _ _ (canon_hostCounts _ _ ⟨hu.1, hu.2.1, amSorted_amPut hu.2.2 _ _ (Nat.zero_le _)⟩)
    · exact hu

theorem canon_rejectCreate (c : QCmd) (r : Nat) {s : State} (hs : s.Canon) : (rejectCreate c r s).Canon := by
  unfold rejectCreate
  grind only [canon_complete, canon_mk, State.Canon.tables]

@[simp] theorem canon_execCtxCreate {s : State} (hs : s.Canon) : OutCanon (execCtxCreate s) := by
  unfold execCtxCreate
  grind only [canon_runCmd, canon_rejectCreate, canon_complete, canon_ctxCreate, canon_mk, State.Canon.tables, outCanon_next]

theorem canon_dropCtx (n : Nat) {s : State} (hs : s.Canon) : (dropCtx n s).Canon := by
  have h := canon_dropCmds (fun c => !c.admin && (queuesOf s n).contains c.queue)
    (canon_dropCtxTlb n (canon_flushEverywhere (fun _ _ x => x.ctx == n) hs))
  exact ⟨h.1, h.2.1, amSorted_filter h.2.2 _⟩

theorem canon_endCtx (n : Nat) {s : State} (hs : s.Canon) : (endCtx n s).Canon := by
  unfold endCtx
  grind only [canon_settlePreempts, canon_cancelCtx, canon_modCtx, canon_mk, State.Canon.tables]

@[simp] theorem canon_execCtxDestroy {s : State} (hs : s.Canon) : OutCanon (execCtxDestroy s) := by
  unfold execCtxDestroy
  grind only [canon_complete, canon_dropCtx, canon_runPlain, canon_due, canon_endCtx, canon_mk, State.Canon.tables, outCanon_next]

theorem canon_readQcb (sp : IoSpace) (qcb : Nat) {s : State} (hs : s.Canon) : (readQcb sp qcb s).2.Canon := by
  unfold readQcb
  grind only [canon_ioRead, canon_mk, State.Canon.tables]

theorem canon_qCreate (c : QCmd) (q : Queue) {s : State} (hs : s.Canon) : (qCreate c q s).Canon := by
  unfold qCreate
  grind only [canon_readQcb, canon_failCmd, canon_complete, canon_mk, State.Canon.tables]

@[simp] theorem canon_execQCreate {s : State} (hs : s.Canon) : OutCanon (execQCreate s) := by
  unfold execQCreate
  grind only [canon_runPlain, canon_qCreate, canon_mk, State.Canon.tables, outCanon_next]

@[simp] theorem canon_execQDestroy {s : State} (hs : s.Canon) : OutCanon (execQDestroy s) := by
  unfold execQDestroy
  grind only [canon_runPlain, canon_settleQueue, canon_modQueue, canon_mk, State.Canon.tables, outCanon_next]

@[simp] theorem canon_execStreamReset {s : State} (hs : s.Canon) : OutCanon (execStreamReset s) := by
  unfold execStreamReset
  grind only [canon_runPlain, canon_complete, canon_modStream, canon_mk, State.Canon.tables, outCanon_next]

theorem canon_unparkFor (p : ParkedFor) {s : State} (hs : s.Canon) : (unparkFor p s).Canon := by
  unfold unparkFor
  grind only [canon_modGroup, canon_dues, canon_modStream, canon_due, canon_modXfer, canon_putComps, canon_settleQueue,
    canon_peerArrives, canon_mk, State.Canon.tables]

@[simp] theorem canon_execParkResume {s : State} (hs : s.Canon) : OutCanon (execParkResume s) := by
  unfold execParkResume
  grind only [canon_runPlain, canon_complete, canon_unparkFor, canon_mk, State.Canon.tables, outCanon_next]

theorem canon_cancelXfers (n : Nat) {s : State} (hs : s.Canon) : (cancelXfers n s).Canon := by
  unfold cancelXfers
  grind only [canon_dues, canon_mk, State.Canon.tables]

theorem canon_preemptCtx (c : QCmd) (n : Nat) {s : State} (hs : s.Canon) : (preemptCtx c n s).Canon := by
  unfold preemptCtx
  grind only [canon_dropCtxTlb, canon_cancelXfers, canon_modCtx, canon_dues, canon_askSave, canon_settlePreempts, canon_mk,
    State.Canon.tables]

@[simp] theorem canon_execPreempt {s : State} (hs : s.Canon) : OutCanon (execPreempt s) := by
  unfold execPreempt
  grind only [canon_runPlain, canon_preemptCtx, canon_mk, State.Canon.tables, outCanon_next]

theorem canon_resumeCtx (n : Nat) {s : State} (hs : s.Canon) : (resumeCtx n s).Canon := by
  unfold resumeCtx
  grind only [canon_dropCtxTlb, canon_modCtx, canon_timer, canon_noTimer, canon_dues, canon_mk, State.Canon.tables]

@[simp] theorem canon_execResume {s : State} (hs : s.Canon) : OutCanon (execResume s) := by
  unfold execResume
  grind only [canon_runPlain, canon_complete, canon_resumeCtx, canon_mk, State.Canon.tables, outCanon_next]

theorem canon_checkpoint (c : QCmd) (q : Queue) {s : State} (hs : s.Canon) : (checkpoint c q s).Canon := by
  unfold checkpoint
  grind only [canon_readPairs, canon_failCmd, canon_flushPieces, canon_timer, canon_mk, State.Canon.tables, canon_foldl]

@[simp] theorem canon_execCheckpoint {s : State} (hs : s.Canon) : OutCanon (execCheckpoint s) := by
  unfold execCheckpoint
  grind only [canon_runPlain, canon_checkpoint, canon_mk, State.Canon.tables, outCanon_next]

theorem copyBlocks_succ (ctx n src dst : Nat) (s : State) : copyBlocks ctx (n + 1) src dst s = (match ioReadP (.virt ctx) src 64
  s with
    | (.inl f, s) => (some f, s)
    | (.inr v, s) => match ioWriteP (.virt ctx) dst 64 v.1 v.2 s with
      | (some f, s) => (some f, s)
      | (none, s) => copyBlocks ctx n (src + 64) (dst + 64) s) := (rfl)
theorem canon_copyBlocks (ctx n0 n1 n2 : Nat) {s : State} (hs : s.Canon) : (copyBlocks ctx n0 n1 n2 s).2.Canon := by
  induction n0 generalizing n1 n2 s with
  | zero => exact hs
  | succ n ih =>
    rw [copyBlocks_succ]
    split
    · exact canon_snd_of_eq ‹_› (canon_ioReadP _ _ _ hs)
    · have h {d v p} := canon_ioWriteP (.virt ctx) d 64 v p (canon_snd_of_eq ‹_› (canon_ioReadP (.virt ctx) n1 64 hs))
      split
      · exact canon_snd_of_eq ‹_› h
      · exact ih _ _ (canon_snd_of_eq ‹_› h)

theorem canon_copyRanges (ctx : Nat) (n0 : List (Nat × Nat)) (n1 : Nat) {s : State} (hs : s.Canon) :
    (copyRanges ctx n0 n1 s).2.Canon := by
  induction n0 generalizing n1 s with
  | nil => unfold copyRanges; grind only [canon_copyBlocks, canon_mk, State.Canon.tables]
  | cons e es ih =>
    unfold copyRanges
    grind only [canon_copyBlocks, canon_mk, State.Canon.tables]

theorem canon_checkpointEnd (id : Nat) {s : State} (hs : s.Canon) : (checkpointEnd id s).Canon := by
  unfold checkpointEnd
  grind only [canon_copyRanges, canon_failCmd, canon_complete, canon_mk, State.Canon.tables]

@[simp] theorem canon_execCheckpointStreamEnd {s : State} (hs : s.Canon) : OutCanon (execCheckpointStreamEnd s) := by
  unfold execCheckpointStreamEnd
  grind only [canon_checkpointEnd, canon_mk, State.Canon.tables, outCanon_next]

theorem canon_jumpTo (t : Word64) {w : State} {s : State} (hw : w.Canon) (hs : s.Canon) : OutCanon (jumpTo t w s) := by
  unfold jumpTo
  grind only [canon_retireTo, canon_raiseW, canon_mk, State.Canon.tables, outCanon_next]

theorem canon_branchIf (c : Bool) (o : BOff) {s : State} (hs : s.Canon) : OutCanon (branchIf c o s) := by
  unfold branchIf
  grind only [canon_jumpTo, canon_retireS, canon_mk, State.Canon.tables, outCanon_next]

@[simp] theorem canon_execB (o : BOff) {s : State} (hs : s.Canon) : OutCanon (execB o s) := by
  unfold execB
  grind only [canon_branchIf, canon_mk, State.Canon.tables, outCanon_next]

@[simp] theorem canon_execBz (a : SReg) (o : BOff) {s : State} (hs : s.Canon) : OutCanon (execBz a o s) := by
  unfold execBz
  grind only [canon_branchIf, canon_mk, State.Canon.tables, outCanon_next]

@[simp] theorem canon_execBnz (a : SReg) (o : BOff) {s : State} (hs : s.Canon) : OutCanon (execBnz a o s) := by
  unfold execBnz
  grind only [canon_branchIf, canon_mk, State.Canon.tables, outCanon_next]

@[simp] theorem canon_execBcLt (a : SReg) (o : BOff) {s : State} (hs : s.Canon) : OutCanon (execBcLt a o s) := by
  unfold execBcLt
  grind only [canon_branchIf, canon_mk, State.Canon.tables, outCanon_next]

@[simp] theorem canon_execBcGe (a : SReg) (o : BOff) {s : State} (hs : s.Canon) : OutCanon (execBcGe a o s) := by
  unfold execBcGe
  grind only [canon_branchIf, canon_mk, State.Canon.tables, outCanon_next]

@[simp] theorem canon_execBcGt (a : SReg) (o : BOff) {s : State} (hs : s.Canon) : OutCanon (execBcGt a o s) := by
  unfold execBcGt
  grind only [canon_branchIf, canon_mk, State.Canon.tables, outCanon_next]

@[simp] theorem canon_execBcLe (a : SReg) (o : BOff) {s : State} (hs : s.Canon) : OutCanon (execBcLe a o s) := by
  unfold execBcLe
  grind only [canon_branchIf, canon_mk, State.Canon.tables, outCanon_next]

@[simp] theorem canon_execBkAny (k : KReg) (o : BOff) {s : State} (hs : s.Canon) : OutCanon (execBkAny k o s) := by
  unfold execBkAny
  grind only [canon_branchIf, canon_mk, State.Canon.tables, outCanon_next]

@[simp] theorem canon_execBkAll (k : KReg) (o : BOff) {s : State} (hs : s.Canon) : OutCanon (execBkAll k o s) := by
  unfold execBkAll
  grind only [canon_branchIf, canon_mk, State.Canon.tables, outCanon_next]

@[simp] theorem canon_execBkNone (k : KReg) (o : BOff) {s : State} (hs : s.Canon) : OutCanon (execBkNone k o s) := by
  unfold execBkNone
  grind only [canon_branchIf, canon_mk, State.Canon.tables, outCanon_next]

@[simp] theorem canon_execCall (o : BOff) {s : State} (hs : s.Canon) : OutCanon (execCall o s) := by
  unfold execCall
  grind only [canon_jumpTo, canon_wS, canon_mk, State.Canon.tables, outCanon_next]

theorem canon_jumpReg (t : Word64) {s : State} (hs : s.Canon) : OutCanon (jumpReg t s) := by
  unfold jumpReg
  grind only [canon_raiseW, canon_jumpTo, canon_mk, State.Canon.tables, outCanon_next]

@[simp] theorem canon_execBx (a : SReg) {s : State} (hs : s.Canon) : OutCanon (execBx a s) := by
  unfold execBx
  grind only [canon_jumpReg, canon_mk, State.Canon.tables, outCanon_next]

@[simp] theorem canon_execRet {s : State} (hs : s.Canon) : OutCanon (execRet s) := by
  unfold execRet
  grind only [canon_jumpReg, canon_mk, State.Canon.tables, outCanon_next]

@[simp] theorem canon_execSloop (a : SReg) (o : BOff) {s : State} (hs : s.Canon) : OutCanon (execSloop a o s) := by
  unfold execSloop
  grind only [canon_retireS, canon_wS, canon_jumpTo, canon_mk, State.Canon.tables, outCanon_next]

@[simp] theorem canon_execNop {s : State} (hs : s.Canon) : OutCanon (execNop s) := by
  unfold execNop
  grind only [canon_retireS, canon_mk, State.Canon.tables, outCanon_next]

@[simp] theorem canon_execYield {s : State} (hs : s.Canon) : OutCanon (execYield s) := by
  unfold execYield
  grind only [canon_retireS, canon_timer, canon_mk, State.Canon.tables, outCanon_next]

@[simp] theorem canon_execSleep (a : SReg) {s : State} (hs : s.Canon) : OutCanon (execSleep a s) := by
  unfold execSleep
  grind only [canon_retireS, canon_timer, canon_mk, State.Canon.tables, outCanon_next]

theorem canon_maskOut (d : KReg) (v : Word32) {s : State} (hs : s.Canon) : OutCanon (maskOut d v s) := by
  unfold maskOut
  grind only [canon_retireS, canon_wK, canon_mk, State.Canon.tables, outCanon_next]

@[simp] theorem canon_execKand (d a b : KReg) {s : State} (hs : s.Canon) : OutCanon (execKand d a b s) := by
  unfold execKand
  grind only [canon_maskOut, canon_mk, State.Canon.tables, outCanon_next]

@[simp] theorem canon_execKor (d a b : KReg) {s : State} (hs : s.Canon) : OutCanon (execKor d a b s) := by
  unfold execKor
  grind only [canon_maskOut, canon_mk, State.Canon.tables, outCanon_next]

@[simp] theorem canon_execKxor (d a b : KReg) {s : State} (hs : s.Canon) : OutCanon (execKxor d a b s) := by
  unfold execKxor
  grind only [canon_maskOut, canon_mk, State.Canon.tables, outCanon_next]

@[simp] theorem canon_execKandn (d a b : KReg) {s : State} (hs : s.Canon) : OutCanon (execKandn d a b s) := by
  unfold execKandn
  grind only [canon_maskOut, canon_mk, State.Canon.tables, outCanon_next]

@[simp] theorem canon_execKnot (d a : KReg) {s : State} (hs : s.Canon) : OutCanon (execKnot d a s) := by
  unfold execKnot
  grind only [canon_maskOut, canon_mk, State.Canon.tables, outCanon_next]

@[simp] theorem canon_execKmov (d a : KReg) {s : State} (hs : s.Canon) : OutCanon (execKmov d a s) := by
  unfold execKmov
  grind only [canon_maskOut, canon_mk, State.Canon.tables, outCanon_next]

@[simp] theorem canon_execKexit (a : KReg) {s : State} (hs : s.Canon) : OutCanon (execKexit a s) := by
  unfold execKexit
  grind only [canon_retire, canon_mk, State.Canon.tables, outCanon_next]

@[simp] theorem canon_execKset (d : KReg) (a : SReg) {s : State} (hs : s.Canon) : OutCanon (execKset d a s) := by
  unfold execKset
  grind only [canon_maskOut, canon_mk, State.Canon.tables, outCanon_next]

@[simp] theorem canon_execKget (d : SReg) (a : KReg) {s : State} (hs : s.Canon) : OutCanon (execKget d a s) := by
  unfold execKget
  grind only [canon_scalarOut, canon_mk, State.Canon.tables, outCanon_next]

@[simp] theorem canon_execKpopc (d : SReg) (a : KReg) {s : State} (hs : s.Canon) : OutCanon (execKpopc d a s) := by
  unfold execKpopc
  grind only [canon_scalarOut, canon_mk, State.Canon.tables, outCanon_next]

@[simp] theorem canon_execKffs (d : SReg) (a : KReg) {s : State} (hs : s.Canon) : OutCanon (execKffs d a s) := by
  unfold execKffs
  grind only [canon_scalarOut, canon_mk, State.Canon.tables, outCanon_next]

theorem canon_report (r : MgmtReport) {s : State} (hs : s.Canon) : (report r s).Canon := by
  unfold report
  grind only [canon_mk, State.Canon.tables]

theorem canon_adminCreate (ten qcb : Nat) {s : State} (hs : s.Canon) : (adminCreate ten qcb s).Canon := by
  unfold adminCreate
  grind only [canon_readQcb, canon_report, canon_dropCmds, canon_mk, State.Canon.tables]

@[simp] theorem canon_execAdminQueueCreate {s : State} (hs : s.Canon) : OutCanon (execAdminQueueCreate s) := by
  unfold execAdminQueueCreate
  grind only [canon_adminCreate, canon_mk, State.Canon.tables, outCanon_next]

theorem canon_faultRingSet (ten rcb : Nat) {s : State} (hs : s.Canon) : (faultRingSet ten rcb s).Canon := by
  unfold faultRingSet
  grind only [canon_ioRead, canon_report, canon_mk, State.Canon.tables]

@[simp] theorem canon_execFaultRingSet {s : State} (hs : s.Canon) : OutCanon (execFaultRingSet s) := by
  unfold execFaultRingSet
  grind only [canon_faultRingSet, canon_mk, State.Canon.tables, outCanon_next]

theorem canon_emptyAdmin (ten : Nat) {s : State} (hs : s.Canon) : (emptyAdmin ten s).Canon := by
  unfold emptyAdmin
  grind only [canon_dropCmds, canon_modQueue, canon_ioWrite, canon_mk, State.Canon.tables]

theorem canon_tenantReset (ten : Nat) {s : State} (hs : s.Canon) : (tenantReset ten s).Canon := by
  unfold tenantReset
  grind only [canon_due, canon_endCtx, canon_dropCtx, canon_report, canon_emptyAdmin, canon_mk, State.Canon.tables, canon_foldl]

@[simp] theorem canon_execTenantReset {s : State} (hs : s.Canon) : OutCanon (execTenantReset s) := by
  unfold execTenantReset
  grind only [canon_tenantReset, canon_mk, State.Canon.tables, outCanon_next]

theorem canon_pairCtx (n dev peerCtx : Nat) {s : State} (hs : s.Canon) : (pairCtx n dev peerCtx s).Canon := by
  unfold pairCtx
  grind only [canon_report, canon_modCtx, canon_mk, State.Canon.tables]

@[simp] theorem canon_execContextPairing {s : State} (hs : s.Canon) : OutCanon (execContextPairing s) := by
  unfold execContextPairing
  grind only [canon_pairCtx, canon_mk, State.Canon.tables, outCanon_next]

end Sys2Proof.Machine
end

section
/-! SUPPORT. A step keeps memory canonical and its tables sorted (R51, R54, R434). exec, the schedule, and a step of the device; this settles O60. -/
namespace Sys2Proof.Machine

theorem canon_seatGroups (core : Nat) (starting : Bool) (gids : List Nat) {s : State} (hs : s.Canon) :
    (seatGroups core starting gids s).Canon := by
  unfold seatGroups
  grind only [canon_modGroup, canon_mk, State.Canon.tables, canon_foldl]

theorem canon_putImage (t : Team) (p core base : Nat) (e : PartEnt) {s : State} (hs : s.Canon) :
    (putImage t p core base e s).Canon := by
  unfold putImage
  grind only [canon_mk, State.Canon.tables, canon_foldl]

theorem canon_flushMaps (core p : Nat) (t : Team) {s : State} (hs : s.Canon) : (flushMaps core p t s).Canon := by
  unfold flushMaps
  grind only [canon_flushWhere, canon_mk, State.Canon.tables]

theorem canon_reissue (team : Nat) {s : State} (hs : s.Canon) : (reissue team s).Canon := by
  unfold reissue
  grind only [canon_parkCmd, canon_mk, State.Canon.tables, canon_foldl]

theorem canon_seatPart (team : Nat) (t : Team) {s : State} (x : Nat × Nat) (hs : s.Canon) :
    (seatPart team t s x).Canon := by
  unfold seatPart
  grind only [canon_setSplit, canon_putImage, canon_modPart, canon_seatGroups, canon_setCore, canon_selfInvalidate,
    canon_flushMaps, canon_due, canon_mk, State.Canon.tables]

theorem canon_resumeTeam (team : Nat) {s : State} (hs : s.Canon) : (resumeTeam team s).Canon := by
  unfold resumeTeam
  grind only [canon_modTeam, canon_reissue, canon_seatPart, canon_due, canon_mk, State.Canon.tables, canon_foldl]

theorem canon_runEvent (e : Event) {s : State} (hs : s.Canon) : (runEvent e s).Canon := by
  unfold runEvent
  grind only [canon_mk, State.Canon.tables, Next.canon_run, Next.canon_stay]

theorem canon_runInstr {s : State} (hs : s.Canon) : (runInstr s).Canon := by
  unfold runInstr
  grind only [canon_waitSnoops, canon_fetch, canon_raiseW, canon_fltWalk, canon_raiseI, canon_mk, State.Canon.tables,
    Next.canon_run, Next.canon_stay]

theorem canon_runTimer (t : Nat × Event) {s : State} (hs : s.Canon) : (runTimer t s).Canon := by
  unfold runTimer
  grind only [canon_runEvent, canon_mk, State.Canon.tables, Next.canon_run, Next.canon_stay]

theorem canon_loadDone (gid : Nat) {s : State} (hs : s.Canon) : (loadDone gid s).Canon := by
  unfold loadDone
  grind only [canon_wakeGid, canon_modGroup, canon_mk, State.Canon.tables]

theorem canon_runJob (j : Job) {s : State} (hs : s.Canon) : (runJob j s).Canon := by
  unfold runJob
  grind only [canon_runEvent, canon_loadDone, canon_resumeTeam, canon_swapOut, canon_unhold, canon_pairRun, canon_mk,
    State.Canon.tables, Next.canon_run, Next.canon_stay]

theorem canon_bring (gid : Nat) {s : State} (hs : s.Canon) : (bring gid s).Canon := by
  unfold bring
  grind only [canon_mk, State.Canon.tables]

theorem canon_delivery {s : State} (hs : s.Canon) : ∀ n, delivery s = some n → n.Canon := by
  unfold delivery
  grind only [canon_runEvent, canon_bring, canon_mk, State.Canon.tables, Next.canon_run, Next.canon_stay]

theorem canon_sweepYield {s : State} (hs : s.Canon) : (sweepYield s).Canon := by
  unfold sweepYield
  grind only [canon_mapGroups, canon_noTimer, canon_mk, State.Canon.tables, canon_foldl]

theorem canon_noteIssue {s : State} (hs : s.Canon) : (noteIssue s).Canon := by
  unfold noteIssue
  grind only [canon_mapGroups, canon_mk, State.Canon.tables]

theorem canon_groupsAct {s : State} (hs : s.Canon) : ∀ n, groupsAct s = some n → n.Canon := by
  unfold groupsAct
  grind only [canon_delivery, canon_runEvent, canon_runInstr, canon_noteIssue, canon_bring, canon_mk, State.Canon.tables,
    Next.canon_run, Next.canon_stay]

theorem canon_refuseHead (e : Event) {s : State} (hs : s.Canon) : (refuseHead e s).Canon := by
  unfold refuseHead
  grind only [canon_due, canon_mk, State.Canon.tables]

theorem canon_arrived (e : Event) {s : State} (hs : s.Canon) : (arrived e s).Canon := by
  unfold arrived
  grind only [canon_mk, State.Canon.tables]

theorem canon_runHead (e : Event) {s : State} (hs : s.Canon) : (runHead e s).Canon := by
  unfold runHead
  grind only [canon_arrived, canon_refuseHead, canon_runEvent, canon_mk, State.Canon.tables, Next.canon_run, Next.canon_stay]

theorem canon_quiet {s : State} (hs : s.Canon) : (quiet s).Canon := by
  unfold quiet
  grind only [canon_groupsAct, canon_runTimer, canon_runJob, canon_mk, State.Canon.tables, Next.canon_run, Next.canon_stay]

theorem canon_next {s0 : State} (hs : s0.Canon) : (next s0).Canon := by
  unfold next
  dsimp only
  have hs' := canon_sweepYield (s := { s0 with tick := s0.tick + 1 }) hs
  generalize sweepYield { s0 with tick := s0.tick + 1 } = s at hs' ⊢
  split
  · next e es _ =>
    have hrest : State.Canon { s with agenda := es } := hs'
    have hhead : (if (s.h.boot.up || bootEvent e) = true then runHead e { s with agenda := es } else Next.stay { s with agenda
      := es }).Canon := by
      split
      · exact canon_runHead _ hrest
      · exact hrest
    split
    · cases hg : groupsAct s with
      | none => exact hhead
      | some n => exact canon_groupsAct hs' n hg
    · exact hhead
  · split
    · split
      · exact canon_runEvent _ hs'
      · exact hs'
    · split
      · exact canon_runTimer _ hs'
      · exact canon_quiet hs'

/-- Every instruction and every event keeps the invariant: exec is the table of the meanings above. -/
theorem canon_exec (i : Instr) {s : State} (hs : s.Canon) : OutCanon (exec i s) := by
  cases i <;> simp [exec, hs]

/-- Settles O60: every function that a step calls keeps memory canonical and the two tables sorted. -/
theorem stepKeepsCanonicalMemory : Obligations.StepKeepsCanonicalMemory := by
  unfold Obligations.StepKeepsCanonicalMemory
  intro s t hmem htab hstep
  have hnext := canon_next ((State.canon_iff s).mpr ⟨hmem, htab⟩)
  rw [← State.canon_iff]
  unfold step at hstep
  split at hstep
  · next i u hu =>
    rw [hu] at hnext
    have hexec := canon_exec i (Next.canon_run.mp hnext)
    rwa [hstep] at hexec
  · next u hu =>
    rw [hu] at hnext
    injection hstep with hut
    rw [← hut]
    exact hnext

end Sys2Proof.Machine
end

section
/-! SUPPORT. What the device does next, case by case; it settles O58 (R265, R266, R283, R310, R451). -/
namespace Sys2Proof.Machine

theorem noTimer_foldl_kept (gids : List Nat) (s : State) :
    let t := gids.foldl (fun s gid => noTimer (.yield_expiry gid) s) s
    t.agenda = s.agenda ∧ t.h = s.h := by
  induction gids generalizing s with
  | nil => exact ⟨rfl, rfl⟩
  | cons gid gids ih => exact ih (noTimer (.yield_expiry gid) s)

/-- The state that a step looks at: one tick later, with the yields that have ended swept (R306). -/
def State.swept (s : State) : State := sweepYield { s with tick := s.tick + 1 }

theorem sweepYield_kept (s : State) : (sweepYield s).agenda = s.agenda ∧ (sweepYield s).h = s.h := by
  unfold sweepYield
  dsimp only
  split
  · exact noTimer_foldl_kept _ s
  · exact ⟨rfl, rfl⟩

@[simp] theorem State.swept_agenda (s : State) : s.swept.agenda = s.agenda := (sweepYield_kept _).1

@[simp] theorem State.swept_h (s : State) : s.swept.h = s.h := (sweepYield_kept _).2

theorem step_of_run {s u : State} {i : Instr} (h : next s = .run i u) : step s = exec i u := by rw [step, h]

theorem step_of_stay {s u : State} (h : next s = .stay u) : step s = .next u := by rw [step, h]

/-- Where no event is due, no timeout has ended and no agent but a group can act, the picked group's instruction is next. -/
theorem next_of_picked {s : State} {g : Group} (ha : s.agenda = []) (hup : s.h.boot.up = true)
    (ht : firstTimer (s.swept.timers.filter (fun t => decide (t.1 ≤ s.swept.tick))) = none) (hj : jobs s.swept = [])
    (hd : delivery s.swept = none) (hp : picked s.swept = some g) (hu : urgentDue s.swept = none) :
    next s = runInstr (noteIssue (bring g.idn.gid s.swept)) := by
  have hg : groupsAct s.swept = some (runInstr (noteIssue (bring g.idn.gid s.swept))) := by simp only [groupsAct, hd, hp, hu]
  unfold next
  rw [← State.swept]
  simp [ha, hup, ht, quiet, hj, hg]

/-- Where a message that no group can overtake is due, or the device is not up, the head of the agenda is next. -/
theorem next_of_agenda {s : State} {e : Event} {es : List Event} (ha : s.agenda = e :: es)
    (halone : s.h.boot.up = true → travels e = false) :
    next s = if s.h.boot.up || bootEvent e then runHead e { s.swept with agenda := es } else .stay { s.swept with agenda := es } := by
  unfold next
  rw [← State.swept]
  simp only [State.swept_agenda, State.swept_h, ha]
  refine if_neg ?_
  cases hup : s.h.boot.up with
  | false => simp
  | true => simp [halone hup]

theorem runHead_of_accepted {s : State} {e : Event} (h : refuses s e = false) : runHead e s = runEvent e (arrived e s) := by
  simp [runHead, h]

theorem next_of_accepted {s : State} {e : Event} {es : List Event} (ha : s.agenda = e :: es)
    (halone : s.h.boot.up = true → travels e = false) (htaken : (s.h.boot.up || bootEvent e) = true)
    (href : refuses { s.swept with agenda := es } e = false) :
    next s = runEvent e (arrived e { s.swept with agenda := es }) := by
  rw [next_of_agenda ha halone, if_pos htaken, runHead_of_accepted href]

theorem next_of_untaken {s : State} {e : Event} {es : List Event} (ha : s.agenda = e :: es) (hup : s.h.boot.up = false)
    (hboot : bootEvent e = false) : next s = .stay { s.swept with agenda := es } := by
  rw [next_of_agenda ha (by simp [hup])]
  simp [hup, hboot]

theorem runInstr_of_snoops {s : State} (h : fetchSnoops s ≠ []) : runInstr s = .stay (waitSnoops (fetchSnoops s) s) := if_pos h

section
variable {s : State} (hsnoops : fetchSnoops s = [])
include hsnoops

theorem runInstr_of_decoded {w : State} {ws : List Word32} {i : Instr} {n : Nat} (hf : fetch s = .ok (ws, w))
    (hd : decode ws = .ok (i, n)) : runInstr s = .run i { w with ir := { w0 := ws.headD 0, len := 4 * ws.length } } := by
  simp [runInstr, hsnoops, hf, hd]

theorem runInstr_of_undecoded {w : State} {ws : List Word32} {e : DecodeError} (hf : fetch s = .ok (ws, w))
    (hd : decode ws = .error e) :
    runInstr s = .stay (raiseI fILLOP { w with ir := { w0 := ws.headD 0, len := 4 * ws.length } }) := by
  simp [runInstr, hsnoops, hf, hd]

theorem runInstr_of_fault {e : AFlt × Nat} (hf : fetch s = .error e) :
    runInstr s = .stay (raiseW (fetchFlt e) (fltWalk (fetchFlt e) s)) := by
  simp [runInstr, hsnoops, hf]

end

/-- Settles O58: each case is one equation of what is next. -/
theorem stepRunsDecodedInstruction : Obligations.StepRunsDecodedInstruction := by
  unfold Obligations.StepRunsDecodedInstruction
  intro s
  change _ ∧ _ ∧ _
  refine ⟨?_, fun e es ha href hcase => ?_, fun e es ha hup hboot => ?_⟩
  · intro g ha hup ht hj hd hp hu v
    have hnext : next s = runInstr v := next_of_picked ha hup ht hj hd hp hu
    refine ⟨fun hsn => ?_, fun hsn => ⟨fun ws w i n hf => ⟨fun hdec => ?_, fun e hdec => ?_⟩, fun e hf => ?_⟩⟩
    · exact step_of_stay (hnext.trans (runInstr_of_snoops hsn))
    · exact step_of_run (hnext.trans (runInstr_of_decoded hsn hf hdec))
    · exact step_of_stay (hnext.trans (runInstr_of_undecoded hsn hf hdec))
    · exact step_of_stay (hnext.trans (runInstr_of_fault hsn hf))
  · have htaken : (s.h.boot.up || bootEvent e) = true := by rcases hcase with ⟨h, -⟩ | ⟨-, h⟩ <;> simp [h]
    exact step_of_run (next_of_accepted ha (fun hup => by simpa [hup] using hcase) htaken href)
  · exact step_of_stay (next_of_untaken ha hup hboot)

end Sys2Proof.Machine
end

section
/-! SUPPORT. The bits and bytes of sectors, lines and masks (R51, R53, R57, R80). -/
namespace Sys2Proof.Machine

/-! ### Folds -/

/-- A fold that leaves p alone wherever each step does. -/
theorem foldl_eq_of_mem {σ α β : Type} (p : σ → β) {f : σ → α → σ} {l : List α} (hf : ∀ x ∈ l, ∀ s, p (f s x) = p s) (s : σ) :
    p (l.foldl f s) = p s := by
  induction l generalizing s with
  | nil => rfl
  | cons x xs ih =>
    rw [List.foldl_cons, ih (fun y hy => hf y (List.mem_cons_of_mem _ hy)), hf x (List.mem_cons_self ..)]

/-- A fold that ors in a mask for each element that p holds of has the bits that any of them has. -/
theorem getLsbD_foldl_or {α : Type} {w : Nat} (p : α → Prop) [DecidablePred p] (m : α → BitVec w) (l : List α) (k : Nat) :
    (l.foldl (fun a x => if p x then a ||| m x else a) (0 : BitVec w)).getLsbD k = true ↔ ∃ x ∈ l, p x ∧ (m x).getLsbD k = true := by
  suffices h : ∀ a : BitVec w, (l.foldl (fun a x => if p x then a ||| m x else a) a).getLsbD k = true
      ↔ a.getLsbD k = true ∨ ∃ x ∈ l, p x ∧ (m x).getLsbD k = true by simpa using h 0
  induction l with
  | nil => simp
  | cons x xs ih =>
    intro a
    rw [List.foldl_cons, ih]
    by_cases hp : p x <;> simp [hp, or_assoc]

/-! ### Bits -/

@[simp] theorem getLsbD_bit16 (i k : Nat) : (bit16 i).getLsbD k = decide (i < 16 ∧ k = i) := by
  rw [Bool.eq_iff_iff]
  by_cases h : k < 16 <;> simp [bit16, BitVec.getLsbD_shiftLeft, BitVec.getLsbD_one, h] <;> omega

@[simp] theorem getLsbD_bit128 (i k : Nat) : (bit128 i).getLsbD k = decide (i < 128 ∧ k = i) := by
  rw [Bool.eq_iff_iff]
  by_cases h : k < 128 <;> simp [bit128, BitVec.getLsbD_shiftLeft, BitVec.getLsbD_one, h] <;> omega

@[simp] theorem mem_wordIdx {w : BitVec 16} {i : Nat} : i ∈ wordIdx w ↔ w.getLsbD i = true := by
  simp only [wordIdx, List.mem_filter, List.mem_range, and_iff_right_iff_imp]
  exact fun h => BitVec.lt_of_getLsbD h

@[simp] theorem mem_secIdx {m : BitVec 128} {i : Nat} : i ∈ secIdx m ↔ m.getLsbD i = true := by
  simp only [secIdx, List.mem_filter, List.mem_range, and_iff_right_iff_imp]
  exact fun h => BitVec.lt_of_getLsbD h

theorem getLsbD_span128 {i n k : Nat} (h : i + n ≤ 128) : (span128 i n).getLsbD k = decide (i ≤ k ∧ k < i + n) := by
  rw [Bool.eq_iff_iff]
  simp only [span128, BitVec.getLsbD_ofNat, Nat.testBit_mul_two_pow, Nat.testBit_two_pow_sub_one, Bool.and_eq_true, decide_eq_true_eq]
  omega

theorem getLsbD_255 {w : Nat} (hw : 8 ≤ w) (k : Nat) : (BitVec.ofNat w 255).getLsbD k = decide (k < 8) := by
  rw [Bool.eq_iff_iff, BitVec.getLsbD_ofNat, show 255 = 2 ^ 8 - 1 from rfl, Nat.testBit_two_pow_sub_one]
  simp only [Bool.and_eq_true, decide_eq_true_eq]
  omega

@[simp] theorem getLsbD_wordBytes (w : BitVec 16) (k : Nat) : (wordBytes w).getLsbD k = w.getLsbD (k / 8) := by
  rw [Bool.eq_iff_iff]
  refine (getLsbD_foldl_or (fun i => w.getLsbD i = true) (fun i => (0xFF : BitVec 128) <<< (8 * i)) _ k).trans ?_
  simp only [List.mem_range, BitVec.getLsbD_shiftLeft, BitVec.ofNat_eq_ofNat, getLsbD_255 (show 8 ≤ 128 by decide), Bool.and_eq_true,
    decide_eq_true_eq, Bool.not_eq_true', decide_eq_false_iff_not]
  constructor
  · rintro ⟨i, hi, hw, ⟨hk, hge⟩, hlt⟩
    rwa [show k / 8 = i by omega]
  · intro h
    have := BitVec.lt_of_getLsbD h
    exact ⟨k / 8, this, h, ⟨by omega, by omega⟩, by omega⟩

/-- A number has no low eight bits just when it is a multiple of 256. -/
theorem mod_256_ne_zero (n : Nat) : n % 256 ≠ 0 ↔ ∃ j < 8, n.testBit j = true := by
  constructor
  · intro h
    obtain ⟨j, hj⟩ := Nat.exists_testBit_of_ne_zero h
    rw [show (256 : Nat) = 2 ^ 8 from rfl, Nat.testBit_mod_two_pow, Bool.and_eq_true, decide_eq_true_eq] at hj
    exact ⟨j, hj⟩
  · rintro ⟨j, hj, hb⟩ h0
    have hmod := Nat.testBit_mod_two_pow n 8 j
    rw [show (2 : Nat) ^ 8 = 256 from rfl, h0] at hmod
    simp [hj, hb] at hmod

theorem getLsbD_maskWords (m : BitVec 128) (i : Nat) : (maskWords m).getLsbD i = true ↔ ∃ j < 8, m.getLsbD (8 * i + j) = true := by
  refine (getLsbD_foldl_or (fun i => (m >>> (8 * i)).toNat % 256 ≠ 0) (fun i => bit16 i) _ i).trans ?_
  have hbit : ∀ i j, (m >>> (8 * i)).toNat.testBit j = m.getLsbD (8 * i + j) := fun i j =>
    (BitVec.testBit_toNat ..).trans (BitVec.getLsbD_ushiftRight ..)
  simp only [List.mem_range, getLsbD_bit16, mod_256_ne_zero, hbit, decide_eq_true_eq]
  constructor
  · rintro ⟨x, -, hx, -, rfl⟩
    exact hx
  · rintro ⟨j, hj, hm⟩
    have := BitVec.lt_of_getLsbD hm
    exact ⟨i, by omega, ⟨j, hj, hm⟩, by omega, rfl⟩

/-! ### Bytes of a sector -/

theorem getLsbD_secPut (d : BitVec 1024) {i : Nat} (hi : i < 128) (b : Byte) (k : Nat) :
    (secPut d i b).getLsbD k = if k / 8 = i then b.getLsbD (k % 8) else d.getLsbD k := by
  by_cases hk : k < 1024
  · simp only [secPut, BitVec.getLsbD_or, BitVec.getLsbD_and, BitVec.getLsbD_not, BitVec.getLsbD_shiftLeft, BitVec.ofNat_eq_ofNat,
      getLsbD_255 (show 8 ≤ 1024 by decide),
      BitVec.getLsbD_setWidth, hk, decide_true, Bool.true_and]
    by_cases h : k / 8 = i
    · rw [if_pos h, show k - 8 * i = k % 8 by omega]
      simp [show ¬k < 8 * i by omega, show k % 8 < 8 by omega, show k % 8 < 1024 by omega]
    · rw [if_neg h]
      by_cases hlt : k < 8 * i
      · simp [hlt]
      · simp [hlt, show ¬(k - 8 * i) < 8 by omega, BitVec.getLsbD_of_ge b (k - 8 * i) (by omega)]
  · rw [BitVec.getLsbD_of_ge _ _ (by omega), if_neg (by omega), BitVec.getLsbD_of_ge _ _ (by omega)]

theorem getLsbD_secByte (d : BitVec 1024) (i k : Nat) : (secByte d i).getLsbD k = (decide (k < 8) && d.getLsbD (8 * i + k)) := by
  simp [secByte, BitVec.getLsbD_extractLsb']

/-- A merge takes the bytes under its mask from the new sector, the others from the old one. -/
theorem getLsbD_secMerge (old : BitVec 1024) (m : BitVec 128) (new : BitVec 1024) (k : Nat) :
    (secMerge old m new).getLsbD k = if m.getLsbD (k / 8) then new.getLsbD k else old.getLsbD k := by
  have hfold : ∀ (l : List Nat) (a : BitVec 1024), (∀ i ∈ l, i < 128) →
      (l.foldl (fun a i => secPut a i (secByte new i)) a).getLsbD k = if k / 8 ∈ l then new.getLsbD k else a.getLsbD k := by
    intro l
    induction l with
    | nil => simp
    | cons i l ih =>
      intro a hl
      rw [List.foldl_cons, ih _ (fun j hj => hl j (List.mem_cons_of_mem _ hj)), getLsbD_secPut _ (hl i (List.mem_cons_self ..)),
        getLsbD_secByte]
      by_cases hi : k / 8 = i
      · simp [hi, show 8 * i + k % 8 = k by omega, show k % 8 < 8 by omega]
      · simp [hi]
  rw [secMerge, hfold _ _ (fun i hi => BitVec.lt_of_getLsbD (mem_secIdx.mp hi))]
  simp only [mem_secIdx]

theorem secByte_secMerge (old : BitVec 1024) (m : BitVec 128) (new : BitVec 1024) (i : Nat) :
    secByte (secMerge old m new) i = if m.getLsbD i then secByte new i else secByte old i := by
  apply BitVec.eq_of_getLsbD_eq
  intro k hk
  rw [getLsbD_secByte, getLsbD_secMerge, show (8 * i + k) / 8 = i by omega]
  split <;> rw [getLsbD_secByte]

/-- Bytes of memory as one number, one at a time. -/
theorem memBytes_div (m : Memory) (a n i : Nat) (h : i < n) : memBytes m a n / 256 ^ i % 256 = (memGet m (a + i)).toNat := by
  induction n generalizing a i with
  | zero => omega
  | succ n ih =>
    have hlt := (memGet m a).isLt
    cases i with
    | zero => simp only [memBytes, Nat.pow_zero, Nat.div_one, Nat.add_zero]; omega
    | succ i =>
      rw [memBytes, Nat.pow_succ', ← Nat.div_div_eq_div_mul, show ((memGet m a).toNat + 256 * memBytes m (a + 1) n) / 256
        = memBytes m (a + 1) n by omega, ih _ _ (by omega), show a + 1 + i = a + (i + 1) by omega]

theorem secByte_memSector (s : State) (sec : Nat) {i : Nat} (h : i < 128) : secByte (memSector s sec) i = memGet s.m.mem (128 * sec + i) := by
  apply BitVec.eq_of_toNat_eq
  rw [← memBytes_div _ _ 128 _ h, secByte, memSector, BitVec.extractLsb'_toNat, BitVec.toNat_ofNat, Nat.shiftRight_eq_div_pow,
    Nat.pow_mul, show (2 : Nat) ^ 8 = 256 from rfl, show (2 : Nat) ^ 1024 = 256 ^ i * (256 * 256 ^ (127 - i)) by
      rw [← Nat.pow_succ', ← Nat.pow_add, show i + (127 - i).succ = 128 by omega, show (256 : Nat) = 2 ^ 8 from rfl, ← Nat.pow_mul]]
  rw [Nat.mod_mul_right_div_self, Nat.mod_mul_right_mod]

end Sys2Proof.Machine
end

section
/-! SUPPORT. Owners of words, and a sector as a read at its home finds it (R53, R57, R59). -/
namespace Sys2Proof.Machine

/-! ### Owners -/

theorem getLsbD_wordsOwnedBy {s : State} {sec : Nat} {words : BitVec 16} {c i : Nat} :
    (wordsOwnedBy s sec words c).getLsbD i = true ↔ words.getLsbD i = true ∧ ownerOf s (16 * sec + i) = some c := by
  refine (getLsbD_foldl_or (fun i => ownerOf s (16 * sec + i) = some c) bit16 _ i).trans ?_
  simp only [mem_wordIdx, getLsbD_bit16, decide_eq_true_eq]
  constructor
  · rintro ⟨x, hw, ho, -, rfl⟩
    exact ⟨hw, ho⟩
  · rintro ⟨hw, ho⟩
    exact ⟨i, hw, ho, BitVec.lt_of_getLsbD hw, rfl⟩

theorem mem_ownersOf {s : State} {sec : Nat} {words : BitVec 16} {me : Option Nat} {c : Nat} :
    c ∈ ownersOf s sec words me ↔ ∃ i, words.getLsbD i = true ∧ ownerOf s (16 * sec + i) = some c ∧ some c ≠ me := by
  simp only [ownersOf, List.mem_eraseDups, List.mem_filterMap, mem_wordIdx]
  refine exists_congr fun i => and_congr_right fun _ => ?_
  cases ownerOf s (16 * sec + i) with
  | none => simp
  | some o =>
    by_cases ho : some o = me
    · simp only [ho, if_true, reduceCtorEq, false_iff, not_and, not_not, ne_eq]
      exact fun h => h.symm
    · simp only [ho, if_false, Option.some.injEq, iff_self_and]
      rintro rfl
      exact ho

theorem ownersOf_eq_nil {s : State} {sec : Nat} {words : BitVec 16} {me : Option Nat} :
    ownersOf s sec words me = [] ↔ ∀ i, words.getLsbD i = true → ∀ c, ownerOf s (16 * sec + i) = some c → some c = me := by
  simp only [List.eq_nil_iff_forall_not_mem, mem_ownersOf, not_exists, not_and, ne_eq, not_not]
  exact ⟨fun h i hi c => h c i hi, fun h c i hi => h i hi c⟩

/-- An owner answers for no byte outside the words it is asked for. -/
theorem ownerBytes_mask {s : State} {c sec : Nat} {words : BitVec 16} {k : Nat}
    (h : (ownerBytes s c sec words).1.mask.getLsbD k = true) : words.getLsbD (k / 8) = true := by
  have hwb : ∀ (l : List WbEnt) (a : SectorData), (a.mask.getLsbD k = true → words.getLsbD (k / 8) = true) →
      (l.foldl (fun (a : SectorData) e => if e.core = c ∧ e.sector = sec then
        { mask := a.mask ||| (e.mask &&& wordBytes words), data := secMerge a.data (e.mask &&& wordBytes words) e.data } else a) a).mask.getLsbD k
        = true → words.getLsbD (k / 8) = true := by
    intro l
    induction l with
    | nil => exact fun a ha => ha
    | cons e l ih =>
      intro a ha
      refine ih _ ?_
      dsimp only
      split
      · simp only [BitVec.getLsbD_or, BitVec.getLsbD_and, getLsbD_wordBytes, Bool.or_eq_true, Bool.and_eq_true]
        rintro (h | ⟨-, h⟩)
        exacts [ha h, h]
      · exact ha
  have hwb := hwb s.m.wbuf { mask := 0, data := 0 } (by simp)
  unfold ownerBytes at h
  dsimp only at h
  split at h
  · simp only [BitVec.getLsbD_or, BitVec.getLsbD_and, getLsbD_wordBytes, Bool.or_eq_true, Bool.and_eq_true] at h
    rcases h with h | ⟨-, -, h⟩
    exacts [hwb h, h]
  · exact hwb h

/-! ### The sector as a read finds it -/

section
variable {s : State} {sec k : Nat} {me : Option Nat}

/-- A bit of a word that no other core owns is the home's. -/
theorem getLsbD_cohSector_data (h : ∀ c, ownerOf s (16 * sec + k / 64) = some c → some c = me) :
    (cohSector s sec me).data.getLsbD k = (homeSector s sec).data.getLsbD k := by
  refine foldl_eq_of_mem (fun x : L2Sec => x.data.getLsbD k) (fun c hc x => ?_) _
  dsimp only
  rw [getLsbD_secMerge, if_neg]
  intro hm
  have hw := (getLsbD_wordsOwnedBy.mp (ownerBytes_mask hm)).2
  obtain ⟨i, -, -, hne⟩ := mem_ownersOf.mp hc
  exact hne (h c (by rwa [show k / 64 = k / 8 / 8 by omega]))

end

/-! ### What a read at the home depends on -/

/-- The owners and their bytes stand in both states alike. -/
structure OwnersKept (s t : State) : Prop where
  dir : t.m.dir = s.m.dir
  l1 : t.m.l1 = s.m.l1
  wbuf : t.m.wbuf = s.m.wbuf

theorem ownerOf_congr {s t : State} (h : t.m.dir = s.m.dir) (w : Nat) : ownerOf t w = ownerOf s w := by
  unfold ownerOf; rw [h]

theorem ownersOf_congr {s t : State} (h : t.m.dir = s.m.dir) (sec : Nat) (words : BitVec 16) (me : Option Nat) :
    ownersOf t sec words me = ownersOf s sec words me := by
  unfold ownersOf; simp only [ownerOf_congr h]

theorem wordsOwnedBy_congr {s t : State} (h : t.m.dir = s.m.dir) (sec : Nat) (words : BitVec 16) (c : Nat) :
    wordsOwnedBy t sec words c = wordsOwnedBy s sec words c := by
  unfold wordsOwnedBy; simp only [ownerOf_congr h]

theorem l1At_congr {s t : State} (h : t.m.l1 = s.m.l1) (core sec : Nat) : l1At t core sec = l1At s core sec := by
  unfold l1At; rw [h]

theorem ownerBytes_congr {s t : State} (hl : t.m.l1 = s.m.l1) (hw : t.m.wbuf = s.m.wbuf) (core sec : Nat) (words : BitVec 16) :
    ownerBytes t core sec words = ownerBytes s core sec words := by
  unfold ownerBytes; rw [l1At_congr hl, hw]

theorem cohSector_congr {s t : State} (h : OwnersKept s t) {sec : Nat} (hd : (homeSector t sec).data = (homeSector s sec).data)
    (hp : (homeSector t sec).poison = (homeSector s sec).poison) (me : Option Nat) :
    (cohSector t sec me).data = (cohSector s sec me).data ∧ (cohSector t sec me).poison = (cohSector s sec me).poison := by
  unfold cohSector
  simp only [ownersOf_congr h.dir, ownerBytes_congr h.l1 h.wbuf, wordsOwnedBy_congr h.dir]
  generalize ownersOf s sec (BitVec.allOnes 16) me = l
  generalize homeSector t sec = x at hd hp ⊢
  generalize homeSector s sec = y at hd hp ⊢
  induction l generalizing x y with
  | nil => exact ⟨hd, hp⟩
  | cons c l ih => exact ih _ _ (by dsimp only; rw [hd]) (by dsimp only; rw [hp])

theorem coreByte_of_cohByte {s t : State} (h : t.m.l1 = s.m.l1) {core pa : Nat} (hc : cohByte t pa = cohByte s pa) :
    coreByte t core pa = coreByte s core pa := by
  unfold coreByte; rw [l1At_congr h, hc]

section
variable {s t : State} {sec : Nat}

theorem inTable_congr (h : t.tun = s.tun) (line : Nat) : inTable t line = inTable s line := by unfold inTable; rw [h]

theorem homeSector_of_table (h : inTable s (2 * sec) = true) :
    homeSector s sec = { dirty := false, data := tableSector s sec, poison := 0 } := by
  unfold homeSector; rw [if_pos h]

theorem homeSector_of_l2 (h : inTable s (2 * sec) = false) {x : L2Sec} (hx : amGet? s.m.l2 sec = some x) : homeSector s sec = x := by
  unfold homeSector; rw [if_neg (by simp [h]), hx]

theorem homeSector_of_mem (h : inTable s (2 * sec) = false) (hx : amGet? s.m.l2 sec = none) :
    homeSector s sec = { dirty := false, data := memSector s sec, poison := memPoison s sec } := by
  unfold homeSector; rw [if_neg (by simp [h]), hx]

theorem memSector_congr (h : t.m.mem = s.m.mem) : memSector t sec = memSector s sec := by unfold memSector; rw [h]

theorem memPoison_congr (h : t.m.poison = s.m.poison) : memPoison t sec = memPoison s sec := by unfold memPoison; rw [h]

/-- What the home holds of a sector outside the region table is what its L2 lists, else memory. -/
theorem homeSector_congr (htun : t.tun = s.tun) (h : inTable s (2 * sec) = false) (hl2 : amGet? t.m.l2 sec = amGet? s.m.l2 sec)
    (hmem : t.m.mem = s.m.mem) (hpo : t.m.poison = s.m.poison) : homeSector t sec = homeSector s sec := by
  have ht : inTable t (2 * sec) = false := by rwa [inTable_congr htun]
  cases hx : amGet? s.m.l2 sec with
  | some x => rw [homeSector_of_l2 h hx, homeSector_of_l2 ht (hl2.trans hx)]
  | none => rw [homeSector_of_mem h hx, homeSector_of_mem ht (hl2.trans hx), memSector_congr hmem, memPoison_congr hpo]

theorem tableSector_congr (ht : t.tun = s.tun) (hr : t.m.regions = s.m.regions) : tableSector t sec = tableSector s sec := by
  unfold tableSector tableLine; rw [ht, hr]

end

/-! ### Steps that leave what is read -/

/-- Every read outside the region table finds in t what it finds in s, and t has no line of the L2 written back. -/
structure ReadsKept (s t : State) : Prop extends OwnersKept s t where
  sram : t.m.sram = s.m.sram
  hlines : ∀ line, hostLineData t line = hostLineData s line
  tun : t.tun = s.tun
  data : ∀ sec, inTable s (2 * sec) = false → (homeSector t sec).data = (homeSector s sec).data
  poison : ∀ sec, inTable s (2 * sec) = false → (homeSector t sec).poison = (homeSector s sec).poison

theorem ReadsKept.refl (s : State) : ReadsKept s s := ⟨⟨rfl, rfl, rfl⟩, rfl, fun _ => rfl, rfl, fun _ _ => rfl, fun _ _ => rfl⟩

theorem ReadsKept.trans {s t u : State} (h : ReadsKept s t) (h' : ReadsKept t u) : ReadsKept s u where
  dir := h'.dir.trans h.dir
  l1 := h'.l1.trans h.l1
  wbuf := h'.wbuf.trans h.wbuf
  sram := h'.sram.trans h.sram
  hlines l := (h'.hlines l).trans (h.hlines l)
  tun := h'.tun.trans h.tun
  data sec ht := (h'.data sec (by rwa [inTable_congr h.tun])).trans (h.data sec ht)
  poison sec ht := (h'.poison sec (by rwa [inTable_congr h.tun])).trans (h.poison sec ht)

theorem ReadsKept.cohByte {s t : State} (h : ReadsKept s t) {pa : Nat} (ht : inTable s (2 * (pa / 128)) = false) :
    cohByte t pa = cohByte s pa := by
  unfold Machine.cohByte; rw [(cohSector_congr h.toOwnersKept (h.data _ ht) (h.poison _ ht) none).1]

theorem ReadsKept.memKeptOut {s t : State} (h : ReadsKept s t) : memKeptOut s t :=
  ⟨fun _ ht => h.cohByte ht, fun _ _ ht => coreByte_of_cohByte h.l1 (h.cohByte ht), fun core off => by rw [sramByte, h.sram, sramByte],
    h.hlines⟩

/-- Where the region table has not changed either, every byte reads as before. -/
theorem ReadsKept.memKept {s t : State} (h : ReadsKept s t) (hr : t.m.regions = s.m.regions) : memKept s t := by
  have hcoh : ∀ pa, Machine.cohByte t pa = Machine.cohByte s pa := fun pa => by
    cases ht : inTable s (2 * (pa / 128)) with
    | false => exact h.cohByte ht
    | true =>
      have hsec : homeSector t (pa / 128) = homeSector s (pa / 128) := by
        rw [homeSector_of_table ht, homeSector_of_table (by rwa [inTable_congr h.tun]), tableSector_congr h.tun hr]
      unfold Machine.cohByte
      rw [(cohSector_congr h.toOwnersKept (by rw [hsec]) (by rw [hsec]) none).1]
  exact ⟨hcoh, fun _ _ => coreByte_of_cohByte h.l1 (hcoh _), h.memKeptOut.2.2.1, h.hlines⟩

/-- A step that changes the L2 only in when its sectors were used last, and the region table. -/
theorem readsKept_of_l2 {s t : State} (hown : OwnersKept s t) (hsram : t.m.sram = s.m.sram) (hmem : t.m.mem = s.m.mem)
    (hpo : t.m.poison = s.m.poison) (hhl : t.m.hlines = s.m.hlines) (htun : t.tun = s.tun)
    (hl2 : ∀ sec, inTable s (2 * sec) = false → (amGet? t.m.l2 sec).map (fun x => (x.data, x.poison)) = (amGet? s.m.l2 sec).map (fun x => (x.data, x.poison))) :
    ReadsKept s t := by
  have hsec : ∀ sec, inTable s (2 * sec) = false → (homeSector t sec).data = (homeSector s sec).data
      ∧ (homeSector t sec).poison = (homeSector s sec).poison := by
    intro sec ht
    have ht' : inTable t (2 * sec) = false := by rwa [inTable_congr htun]
    have h := hl2 sec ht
    cases hs : amGet? s.m.l2 sec with
    | none =>
      rw [hs, Option.map_none, Option.map_eq_none_iff] at h
      rw [homeSector_of_mem ht hs, homeSector_of_mem ht' h, memSector_congr hmem, memPoison_congr hpo]
      exact ⟨rfl, rfl⟩
    | some x =>
      rw [hs, Option.map_some, Option.map_eq_some_iff] at h
      obtain ⟨y, hy, hxy⟩ := h
      rw [homeSector_of_l2 ht hs, homeSector_of_l2 ht' hy]
      exact Prod.mk.inj hxy
  exact ⟨hown, hsram, fun line => by unfold hostLineData; rw [hhl, hmem], htun, fun sec ht => (hsec sec ht).1, fun sec ht => (hsec sec ht).2⟩

theorem readsKept_homeTouch (sec : Nat) (s : State) : ReadsKept s (homeTouch sec s) := by
  refine readsKept_of_l2 ⟨rfl, rfl, rfl⟩ rfl rfl rfl rfl rfl fun x _ => ?_
  by_cases h : x = sec
  · subst h
    simp only [homeTouch, amGet?_amMod_same, Option.map_map]
    rfl
  · simp only [homeTouch, amGet?_amMod_other _ _ _ _ h]

theorem homeRegion_form (region home : Nat) (s : State) :
    homeRegion region home s = { s with m := { s.m with regions := (homeRegion region home s).m.regions } } := by
  unfold homeRegion
  split
  · rfl
  · split <;> rfl

theorem readsKept_homeRegion (region home : Nat) (s : State) : ReadsKept s (homeRegion region home s) := by
  rw [homeRegion_form]
  exact readsKept_of_l2 ⟨rfl, rfl, rfl⟩ rfl rfl rfl rfl rfl fun _ _ => rfl

/-- An allocation that evicts nothing leaves what is read. -/
theorem readsKept_homeAlloc_of_l2Room {sec : Nat} {s : State} (hroom : l2Room sec s = s) : ReadsKept s (homeAlloc sec s) := by
  cases ht : inTable s (2 * sec) with
  | true => rw [homeAlloc_table ht]; exact .refl s
  | false =>
    cases hx : amGet? s.m.l2 sec with
    | some x =>
      have h : homeAlloc sec s = { s with m := { s.m with l2 := amPut s.m.l2 sec { x with used := s.tick } } } := by
        unfold homeAlloc; rw [if_neg (by simp [ht]), hx]
      rw [h]
      refine readsKept_of_l2 ⟨rfl, rfl, rfl⟩ rfl rfl rfl rfl rfl fun y _ => ?_
      by_cases hy : y = sec
      · subst hy; dsimp only; rw [amGet?_amPut_same, hx]; rfl
      · dsimp only; rw [amGet?_amPut_other _ _ _ _ hy]
    | none =>
      have h : homeAlloc sec s = { s with m := { s.m with l2 := amPut s.m.l2 sec { homeSector s sec with used := s.tick } } } := by
        unfold homeAlloc; rw [if_neg (by simp [ht]), hx]; dsimp only; rw [hroom]
      rw [h]
      set u : State := { s with m := { s.m with l2 := amPut s.m.l2 sec { homeSector s sec with used := s.tick } } } with hu
      have hsec : ∀ y, inTable s (2 * y) = false → (homeSector u y).data = (homeSector s y).data
          ∧ (homeSector u y).poison = (homeSector s y).poison := by
        intro y hy
        by_cases hyx : y = sec
        · subst hyx
          rw [homeSector_of_l2 (s := u) hy (amGet?_amPut_same _ _ _)]
          exact ⟨rfl, rfl⟩
        · rw [homeSector_congr (s := s) (t := u) rfl hy (amGet?_amPut_other _ _ _ _ hyx) rfl rfl]
          exact ⟨rfl, rfl⟩
      exact ⟨⟨rfl, rfl, rfl⟩, rfl, fun _ => rfl, rfl, fun y hy => (hsec y hy).1, fun y hy => (hsec y hy).2⟩

/-- An allocation where the home has room leaves what is read. -/
theorem readsKept_homeAlloc {sec : Nat} {s : State} (hroom : homeRoom s sec) : ReadsKept s (homeAlloc sec s) :=
  readsKept_homeAlloc_of_l2Room (l2Room_of_homeRoom hroom)

end Sys2Proof.Machine
end

section
/-! SUPPORT. Merges at a home with room (R53, R66, R419), and registers under steps of the memory system. -/
namespace Sys2Proof.Machine

/-! ### Registers -/

/-- A step that leaves the registers of the group at issue. -/
theorem regsKept_of_regs {s t : State} (h : (t.g.sregs, t.g.kregs, t.g.vregs, t.g.live, t.g.fpstat) = (s.g.sregs, s.g.kregs, s.g.vregs, s.g.live, s.g.fpstat)) :
    regsKept s t := by
  simp only [Prod.mk.injEq] at h
  obtain ⟨hs, hk, hv, hl, hf⟩ := h
  exact ⟨fun r _ => by simp only [rS, hs], fun k _ => by simp only [rK, hk], fun r l _ _ => by simp only [rV, hv], hl, hf⟩

theorem regsKept_of_g {s t : State} (h : t.g = s.g) : regsKept s t := regsKept_of_regs (by rw [h])

theorem regsKept_of_woken {s t : State} (h : Woken s.g t.g) : regsKept s t := regsKept_of_regs (by rw [h.1])

theorem HomeStep.regsKept {s t : State} (h : HomeStep Woken s t) : regsKept s t := regsKept_of_woken h.groups.g

theorem regsKept_trans {s t u : State} (h : regsKept s t) (h' : regsKept t u) : regsKept s u := by
  obtain ⟨hs, hk, hv, hl, hf⟩ := h
  obtain ⟨hs', hk', hv', hl', hf'⟩ := h'
  exact ⟨fun r hr => (hs' r hr).trans (hs r hr), fun k hk0 => (hk' k hk0).trans (hk k hk0),
    fun r l hn hl0 => (hv' r l hn hl0).trans (hv r l hn hl0), hl'.trans hl, hf'.trans hf⟩

/-! ### Waits look again -/

section
variable (sec : Nat) (words : BitVec 16) (s : State)

theorem wakeWords_form : wakeWords sec words s = { s with g := (wakeWords sec words s).g, rest := (wakeWords sec words s).rest } := by
  unfold wakeWords
  induction wordIdx words generalizing s with
  | nil => rfl
  | cons i is ih => rw [List.foldl_cons, ih]; rfl

@[simp] theorem wakeWords_m : (wakeWords sec words s).m = s.m := by rw [wakeWords_form]
@[simp] theorem wakeWords_tun : (wakeWords sec words s).tun = s.tun := by rw [wakeWords_form]
@[simp] theorem wakeWords_agenda : (wakeWords sec words s).agenda = s.agenda := by rw [wakeWords_form]
@[simp] theorem wakeWords_tick : (wakeWords sec words s).tick = s.tick := by rw [wakeWords_form]
@[simp] theorem wakeWords_h : (wakeWords sec words s).h = s.h := by rw [wakeWords_form]
@[simp] theorem wakeWords_d : (wakeWords sec words s).d = s.d := by rw [wakeWords_form]

end

/-! ### A merge -/

/-- A sector with bytes merged into it at a step. -/
def L2Sec.merge (x : L2Sec) (m : BitVec 128) (d : BitVec 1024) (po : BitVec 128) (tick : Nat) : L2Sec :=
  { dirty := true, data := secMerge x.data m d, poison := (x.poison &&& ~~~m) ||| (po &&& m), used := tick }

/-- Nothing merges into the region table (R69). -/
theorem homeMerge_table {s : State} {sec : Nat} (ht : inTable s (2 * sec) = true) (m : BitVec 128) (d : BitVec 1024) (po : BitVec 128)
    (alloc : Bool) : homeMerge sec m d po alloc s = s := by
  unfold homeMerge; rw [if_pos ht]

section
variable {s : State} {sec : Nat} (m : BitVec 128) (d : BitVec 1024) (po : BitVec 128)

/-- The state of the memory system after a merge: the L2 lists the sector with the bytes merged, and lists the others as before. -/
structure Merged (s t : State) (sec : Nat) (m : BitVec 128) (d : BitVec 1024) (po : BitVec 128) : Prop where
  form : t = wakeWords sec (maskWords m) { s with m := { s.m with l2 := t.m.l2 } }
  here : amGet? t.m.l2 sec = some ((homeSector s sec).merge m d po s.tick)
  others : ∀ k, k ≠ sec → amGet? t.m.l2 k = amGet? s.m.l2 k

theorem homeRoom_of_held {x : L2Sec} (h : amGet? s.m.l2 sec = some x) : homeRoom s sec := .inl (by rw [h]; rfl)

/-- What an allocation with room leaves: the sector is listed, as the home holds it. -/
theorem homeAlloc_listed (ht : inTable s (2 * sec) = false) (hroom : homeRoom s sec) : ∃ l2 x,
    homeAlloc sec s = { s with m := { s.m with l2 := l2 } } ∧ amGet? l2 sec = some x
      ∧ x = { homeSector s sec with used := s.tick } ∧ ∀ k, k ≠ sec → amGet? l2 k = amGet? s.m.l2 k := by
  cases hx : amGet? s.m.l2 sec with
  | none => exact ⟨_, _, homeAlloc_of_homeRoom ht hroom hx, amGet?_amPut_same _ _ _, rfl, fun k hk => amGet?_amPut_other _ _ _ _ hk⟩
  | some x =>
    refine ⟨amPut s.m.l2 sec { x with used := s.tick }, _, ?_, amGet?_amPut_same _ _ _, ?_, fun k hk => amGet?_amPut_other _ _ _ _ hk⟩
    · unfold homeAlloc
      rw [if_neg (by simp [ht]), hx]
    · rw [homeSector_of_l2 ht hx]

/-- A merge at a home that holds the sector, or that allocates it and has room. -/
theorem homeMerge_merged {alloc : Bool} (ht : inTable s (2 * sec) = false) (hroom : homeRoom s sec)
    (halloc : alloc = false → (amGet? s.m.l2 sec).isSome = true) : Merged s (homeMerge sec m d po alloc s) sec m d po := by
  have hmerged : ∀ (l2 : AMap L2Sec) (x : L2Sec), (if alloc then homeAlloc sec s else s) = { s with m := { s.m with l2 := l2 } } →
      amGet? l2 sec = some x → x.merge m d po s.tick = (homeSector s sec).merge m d po s.tick → (∀ k, k ≠ sec → amGet? l2 k = amGet? s.m.l2 k) →
      Merged s (homeMerge sec m d po alloc s) sec m d po := by
    intro l2 x ha hx hdata hother
    have hform : homeMerge sec m d po alloc s
        = wakeWords sec (maskWords m) { s with m := { s.m with l2 := amPut l2 sec (x.merge m d po s.tick) } } := by
      unfold homeMerge
      rw [if_neg (by simp [ht]), ha]
      dsimp only
      rw [hx]
      rfl
    rw [hform]
    refine ⟨by simp, ?_, fun k hk => ?_⟩
    · rw [wakeWords_m, hdata]
      exact amGet?_amPut_same _ _ _
    · rw [wakeWords_m]
      exact (amGet?_amPut_other _ _ _ _ hk).trans (hother k hk)
  cases alloc with
  | true =>
    obtain ⟨l2, x, ha, hx, rfl, hother⟩ := homeAlloc_listed ht hroom
    exact hmerged l2 _ ha hx rfl hother
  | false =>
    obtain ⟨x, hx⟩ := Option.isSome_iff_exists.mp (halloc rfl)
    exact hmerged s.m.l2 x rfl hx (by rw [homeSector_of_l2 ht hx]) (fun _ _ => rfl)

end

section
variable {s t : State} {sec : Nat} {mk : BitVec 128} {d : BitVec 1024} {po : BitVec 128} (h : Merged s t sec mk d po)
include h

theorem Merged.tun : t.tun = s.tun := by rw [h.form]; simp
theorem Merged.agenda : t.agenda = s.agenda := by rw [h.form]; simp
theorem Merged.tick : t.tick = s.tick := by rw [h.form]; simp
theorem Merged.memSys : t.m = { s.m with l2 := t.m.l2 } := by rw [h.form]; simp

theorem Merged.homeSector (ht : inTable s (2 * sec) = false) : homeSector t sec = (Machine.homeSector s sec).merge mk d po s.tick :=
  homeSector_of_l2 (by rwa [inTable_congr h.tun]) h.here

end

end Sys2Proof.Machine
end

section
/-! SUPPORT. What the host, the expanders and the base dies ask and answer; it settles O46 (R74 to R80, R366, R445). -/
namespace Sys2Proof.Machine

/-! ### Lines of device memory -/

theorem getLsbD_lineOf (line : Nat) (d : BitVec 1024) {k : Nat} (hk : k < 512) :
    (lineOf line d).getLsbD k = d.getLsbD (512 * (line % 2) + k) := by
  simp [lineOf, hk]

theorem getLsbD_lineWords {line i : Nat} : (lineWords line).getLsbD i = true ↔ i / 8 = line % 2 := by
  unfold lineWords
  rcases Nat.mod_two_eq_zero_or_one line with h | h
  · rw [h, if_pos rfl, BitVec.ofNat_eq_ofNat, getLsbD_255 (by decide), decide_eq_true_eq]
    omega
  · rw [h, if_neg (by decide), show (0xFF00 : BitVec 16) = BitVec.ofNat 16 ((2 ^ 8 - 1) * 2 ^ 8) from rfl, BitVec.getLsbD_ofNat,
      Nat.testBit_mul_two_pow, Nat.testBit_two_pow_sub_one]
    simp only [Bool.and_eq_true, decide_eq_true_eq]
    omega

theorem getLsbD_lineMask {line : Nat} {m : BitVec 64} {i : Nat} :
    (lineMask line m).getLsbD i = true ↔ i / 64 = line % 2 ∧ m.getLsbD (i % 64) = true := by
  have hlt := fun k (h : m.getLsbD k = true) => BitVec.lt_of_getLsbD h
  simp only [lineMask, BitVec.getLsbD_shiftLeft, BitVec.getLsbD_setWidth, Bool.and_eq_true, decide_eq_true_eq, Bool.not_eq_true',
    decide_eq_false_iff_not]
  constructor
  · rintro ⟨⟨hi, hge⟩, -, hm⟩
    have := hlt _ hm
    exact ⟨by omega, by rwa [show i % 64 = i - 64 * (line % 2) by omega]⟩
  · rintro ⟨hi, hm⟩
    exact ⟨⟨by omega, by omega⟩, by omega, by rwa [show i - 64 * (line % 2) = i % 64 by omega]⟩

theorem secByte_lineData {line : Nat} (d : BitVec 512) {i : Nat} (h : i / 64 = line % 2) :
    secByte (lineData line d) i = d.extractLsb' (8 * (i % 64)) 8 := by
  apply BitVec.eq_of_getLsbD_eq
  intro k hk
  rw [getLsbD_secByte, lineData, BitVec.getLsbD_shiftLeft, BitVec.getLsbD_setWidth, BitVec.getLsbD_extractLsb',
    show 8 * i + k - 512 * (line % 2) = 8 * (i % 64) + k by omega]
  simp [hk, show 8 * i + k < 1024 by omega, show ¬8 * i + k < 512 * (line % 2) by omega, show 8 * (i % 64) + k < 1024 by omega]

/-- A line of the region table's sector is the table's line. -/
theorem lineOf_tableSector (s : State) (line : Nat) : lineOf line (tableSector s (line / 2)) = tableLine s line := by
  apply BitVec.eq_of_getLsbD_eq
  intro k hk
  rw [getLsbD_lineOf _ _ hk, tableSector, BitVec.getLsbD_or, BitVec.getLsbD_shiftLeft, BitVec.getLsbD_setWidth, BitVec.getLsbD_setWidth]
  rcases Nat.mod_two_eq_zero_or_one line with h | h
  · rw [h, show 2 * (line / 2) = line by omega]
    simp [hk, show k < 1024 by omega]
  · rw [h, show 2 * (line / 2) + 1 = line by omega]
    simp [show 512 + k < 1024 by omega, show k < 1024 by omega]

/-- A line that no core owns a word of is read as the home holds it. -/
theorem lineOf_cohSector {s : State} {line : Nat} (h : ownersOf s (line / 2) (lineWords line) none = []) :
    lineOf line (cohSector s (line / 2) none).data = lineOf line (homeSector s (line / 2)).data := by
  apply BitVec.eq_of_getLsbD_eq
  intro k hk
  rw [getLsbD_lineOf _ _ hk, getLsbD_lineOf _ _ hk]
  exact getLsbD_cohSector_data (ownersOf_eq_nil.mp h _ (getLsbD_lineWords.mpr (by omega)))


/-! ### The host's requests -/

/-- A request of the host waits for nothing at the home of its line. -/
structure HostServed (s : State) (line : Nat) : Prop where
  hbm : inHbm (64 * line) = true
  snoops : s.m.biPend.contains line = false
  release : releasing s (line / 2) = false
  held : heldBefore s (line / 2) = false
  claim : lineClaimed s line = false
  owners : ownersOf s (line / 2) (lineWords line) none = []

/-- The state in which the home serves a request of the host for a line: its region has a home. -/
def hostHomed (line : Nat) (s : State) : State := homeRegion (regionOf (64 * line)) (keeperOf s.tun (regionOf (64 * line))) s

section
variable {s : State} {line : Nat} (h : HostServed s line)
include h

theorem hostAtHome_served (e : Event) {records : Bool} (hfull : records = true → filterFull s line = false) (serve : State → State) :
    hostAtHome e line records serve s = serve (hostHomed line s) := by
  have hrecords : (records && filterFull s line) = false := by
    cases records with
    | false => rfl
    | true => rw [hfull rfl]; rfl
  unfold hostAtHome
  dsimp only
  rw [h.hbm, h.snoops, h.release, h.held, h.claim, hrecords, h.owners]
  rfl

theorem memrd_run (hev : s.ev = some (.memrd line)) (hfull : filterFull s line = false) :
    exec .memrd s = .next (memrdServe line (hostHomed line s)) := by
  have hx : exec .memrd s = execMemrd s := rfl
  rw [hx, execMemrd, hev]
  dsimp only
  rw [hostAtHome_served h _ (fun _ => hfull)]

theorem memwr_run {m : BitVec 64} {d : BitVec 512} (hev : s.ev = some (.memwr line m d)) :
    exec .memwr s = .next (memwrServe line m d (hostHomed line s)) := by
  have hx : exec .memwr s = execMemwr s := rfl
  rw [hx, execMemwr, hev]
  dsimp only
  rw [hostAtHome_served h _ (by simp)]

end

theorem hostHomed_form (line : Nat) (s : State) : hostHomed line s = { s with m := { s.m with regions := (hostHomed line s).m.regions } } :=
  homeRegion_form _ _ _

@[simp] theorem hostHomed_g (line : Nat) (s : State) : (hostHomed line s).g = s.g := by rw [hostHomed_form]
@[simp] theorem hostHomed_h (line : Nat) (s : State) : (hostHomed line s).h = s.h := by rw [hostHomed_form]
@[simp] theorem hostHomed_l2 (line : Nat) (s : State) : (hostHomed line s).m.l2 = s.m.l2 := by rw [hostHomed_form]
@[simp] theorem hostHomed_mem (line : Nat) (s : State) : (hostHomed line s).m.mem = s.m.mem := by rw [hostHomed_form]
@[simp] theorem hostHomed_hlines (line : Nat) (s : State) : (hostHomed line s).m.hlines = s.m.hlines := by rw [hostHomed_form]

theorem readsKept_memrdServe (line : Nat) (s : State) : ReadsKept s (memrdServe line s) := by
  have h : (memrdServe line s).m = { (homeTouch (line / 2) s).m with hfilt := amPut s.m.hfilt line false } := rfl
  refine (readsKept_homeTouch (line / 2) s).trans (readsKept_of_l2 ⟨rfl, rfl, rfl⟩ rfl rfl rfl rfl rfl fun _ _ => rfl)

theorem memrdServe_spec {s : State} {line : Nat} (h : HostServed s line) : let u := hostHomed line s; let t := memrdServe line u
    regsKept s t ∧ (inTable s (2 * (line / 2)) = false → t.h.reply = s.h.reply ++ [(line, lineOf line (homeSector s (line / 2)).data)])
      ∧ (inTable s (2 * (line / 2)) = true → t.h.reply = s.h.reply ++ [(line, tableLine u line)])
      ∧ amGet? t.m.hfilt line = some false ∧ ∀ pa, inTable s (2 * (pa / 128)) = false → cohByte t pa = cohByte s pa := by
  intro u t
  have hkept : ReadsKept s u := readsKept_homeRegion _ _ _
  have htu : inTable u (2 * (line / 2)) = inTable s (2 * (line / 2)) := inTable_congr hkept.tun _
  have howners : ownersOf u (line / 2) (lineWords line) none = [] := by rw [ownersOf_congr hkept.dir]; exact h.owners
  have hreply : t.h.reply = s.h.reply ++ [(line, lineOf line (cohSector u (line / 2) none).data)] := by
    change u.h.reply ++ _ = _
    rw [hostHomed_h]
  refine ⟨regsKept_of_g (hostHomed_g line s), fun ht => ?_, fun ht => ?_, amGet?_amPut_same _ _ _, fun pa ht => ?_⟩
  · rw [hreply, lineOf_cohSector howners, hkept.data _ ht]
  · rw [hreply, lineOf_cohSector howners, homeSector_of_table (by rwa [htu]), lineOf_tableSector]
  · exact (hkept.trans (readsKept_memrdServe line u)).cohByte ht

theorem homeRoom_congr {s t : State} (hl : t.m.l2 = s.m.l2) (hh : t.m.hlines = s.m.hlines) {sec : Nat} (h : homeRoom s sec) : homeRoom t sec := by
  unfold homeRoom; rwa [hl, hh]

/-- The host's bytes over the home's. -/
theorem memwrServe_spec {s : State} {line : Nat} (ht : inTable s (2 * (line / 2)) = false) (hroom : homeRoom s (line / 2))
    (m : BitVec 64) (d : BitVec 512) : let t := memwrServe line m d (hostHomed line s)
    regsKept s t ∧ ∀ i < 128, secByte (homeSector t (line / 2)).data i = if i / 64 = line % 2 ∧ m.getLsbD (i % 64) = true
      then d.extractLsb' (8 * (i % 64)) 8 else secByte (homeSector s (line / 2)).data i := by
  intro t
  have hkept : ReadsKept s (hostHomed line s) := readsKept_homeRegion _ _ _
  have ht' : inTable (hostHomed line s) (2 * (line / 2)) = false := by rwa [inTable_congr hkept.tun]
  have hmerge : Merged (hostHomed line s) t (line / 2) (lineMask line m) (lineData line d) 0 :=
    homeMerge_merged _ _ _ ht' (homeRoom_congr (by simp) (by simp) hroom) (by simp)
  refine ⟨regsKept_trans (regsKept_of_g (hostHomed_g line s)) (homeStep_homeMerge _ _ _ _ _ _).regsKept, fun i _ => ?_⟩
  rw [hmerge.homeSector ht', L2Sec.merge, secByte_secMerge, hkept.data _ ht]
  by_cases hi : i / 64 = line % 2 ∧ m.getLsbD (i % 64) = true
  · rw [if_pos hi, if_pos (getLsbD_lineMask.mpr hi), secByte_lineData d hi.1]
  · rw [if_neg hi, if_neg (fun h => hi (getLsbD_lineMask.mp h))]

theorem memwrServe_table {s : State} {line : Nat} (ht : inTable s (2 * (line / 2)) = true) (m : BitVec 64) (d : BitVec 512) :
    memwrServe line m d (hostHomed line s) = hostHomed line s :=
  homeMerge_table ((inTable_congr (s := s) (readsKept_homeRegion _ _ _).tun _).trans ht) _ _ _ _

/-! ### Answers to snoops -/

section
variable {s : State} {line : Nat}

theorem birsp_run {inv : Bool} (hev : s.ev = some (.birsp line inv)) : exec .birsp s = .next
    (if s.m.biPend.contains line then wakeAll (unhold { s with m := { s.m with
      biPend := s.m.biPend.filter (fun l => l ≠ line)
      hfilt := if inv then amDel s.m.hfilt line else amMod s.m.hfilt line (fun _ => false) } }) else s) := by
  have hx : exec .birsp s = execBirsp s := rfl
  rw [hx, execBirsp, hev]

/-- A message of the host for a line. -/
def hostAsks (line : Nat) (e : Event) : Bool := match e with
  | .memrd l => l == line
  | .memwr l _ _ => l == line
  | _ => false

theorem biconflict_run (hev : s.ev = some (.biconflict line)) (hc : s.m.biPend.contains line = true) : exec .biconflict s = .next
    { s with agenda := s.agenda.filter (fun e => !hostAsks line e)
             m := { s.m with held := s.m.held ++ s.agenda.filter (hostAsks line), under := s.m.under.filter (fun u => !hostAsks line u.1) } } := by
  have hx : exec .biconflict s = execBiconflict s := rfl
  rw [hx, execBiconflict, hev]
  dsimp only
  rw [if_pos hc]
  rfl

/-! ### Host lines -/

theorem memGet_memPutBytes (m : Memory) (a n v b : Nat) :
    memGet (memPutBytes m a n v) b = if a ≤ b ∧ b < a + n then BitVec.ofNat 8 (v / 256 ^ (b - a)) else memGet m b := by
  induction n generalizing m a v with
  | zero => rw [if_neg (by omega)]; rfl
  | succ n ih =>
    rw [memPutBytes, ih]
    by_cases hb : b = a
    · subst hb
      rw [if_neg (by omega), if_pos (by omega)]
      simp
    · rw [memGet_memPut_other _ _ _ _ hb]
      by_cases hin : a + 1 ≤ b ∧ b < a + 1 + n
      · rw [if_pos hin, if_pos (by omega), show b - a = (b - (a + 1)) + 1 by omega, Nat.pow_succ', Nat.div_div_eq_div_mul]
      · rw [if_neg hin, if_neg (by omega)]

/-- The bytes of memory just written read back as the number written. -/
theorem memBytes_memPutBytes (m : Memory) (a n v : Nat) : memBytes (memPutBytes m a n v) a n = v % 256 ^ n := by
  induction n generalizing m a v with
  | zero => simp [memBytes, Nat.mod_one]
  | succ n ih =>
    rw [memBytes, memGet_memPutBytes, if_pos (by omega), memPutBytes, ih, Nat.sub_self, Nat.pow_zero, Nat.div_one, BitVec.toNat_ofNat,
      show 256 ^ (n + 1) = 256 * 256 ^ n from Nat.pow_succ', Nat.mod_mul]

theorem hostLineBack_mem (h : HostLine) (s : State) : memBytes (hostLineBack line h s).m.mem (64 * line) 64
    = if h.st = .m then h.data.toNat else memBytes s.m.mem (64 * line) 64 := by
  unfold hostLineBack
  split
  · exact (memBytes_memPutBytes _ _ _ _).trans (Nat.mod_eq_of_lt (lt_of_lt_of_eq h.data.isLt (Nat.pow_mul 2 8 64)))
  · rfl

theorem hostLineBack_form (h : HostLine) (s : State) : hostLineBack line h s = { s with m := (hostLineBack line h s).m } := by
  unfold hostLineBack
  split <;> rfl

variable {h : HostLine} (hl : amGet? s.m.hlines line = some h)
include hl

theorem snpdata_run (hev : s.ev = some (.snpdata line)) :
    exec .snpdata s = .next (setHostLine line { h with st := .s } (hostReply line h.data (hostLineBack line h s))) := by
  have hx : exec .snpdata s = execSnpdata s := rfl
  rw [hx, execSnpdata, hev]
  dsimp only
  rw [hl]

theorem snpinv_run (hev : s.ev = some (.snpinv line)) : exec .snpinv s = .next
    { hostReply line h.data (hostLineBack line h s) with
      m := { (hostLineBack line h s).m with hlines := amDel (hostLineBack line h s).m.hlines line } } := by
  have hx : exec .snpinv s = execSnpinv s := rfl
  rw [hx, execSnpinv, hev]
  dsimp only
  rw [hl]
  rfl

theorem snpcur_run (hev : s.ev = some (.snpcur line)) : exec .snpcur s = .next (hostReply line h.data s) := by
  have hx : exec .snpcur s = execSnpcur s := rfl
  rw [hx, execSnpcur, hev]
  dsimp only
  rw [hl]

end

theorem cxlCacheData_run {s : State} {line : Nat} {own keep : Bool} (hev : s.ev = some (.cxl_cache_data line own keep)) :
    exec .cxl_cache_data s = .next (if !keep then s else match amGet? s.m.hlines line with
        | some h => if own && h.st == .s then setHostLine line { h with st := .e } s else s
        | none => hostLineGet line (if own then .e else .s) s) := by
  have hx : exec .cxl_cache_data s = execCxlCacheData s := rfl
  rw [hx, execCxlCacheData, hev] <;> rfl

/-- A line that the home takes where it has room. -/
theorem hostLineGet_of_homeRoom {s : State} {line : Nat} (hroom : homeRoom s (line / 2)) (st : Mesi) :
    hostLineGet line st s = setHostLine line { st := st, data := hostLineData s line, poison := hostLineMarks s line, used := s.tick } s := by
  unfold hostLineGet
  rw [l2Room_of_homeRoom hroom]
  rfl

/-! ### Expanders and base dies -/

/-- A sector's bytes reach a home that has room and does not hold it. -/
theorem sectorArrives_of_homeRoom {s : State} {sec : Nat} (hn : amGet? s.m.l2 sec = none) (hroom : homeRoom s sec) (d : BitVec 1024)
    (po : BitVec 128) : sectorArrives sec d po s
      = { s with m := { s.m with l2 := amPut s.m.l2 sec { dirty := false, data := d, poison := po, used := s.tick } } } := by
  unfold sectorArrives
  rw [hn]
  dsimp only
  rw [l2Room_of_homeRoom hroom]

theorem expanderMemrdData_run {s : State} {sec : Nat} {d : BitVec 1024} {po : BitVec 128} (hev : s.ev = some (.expander_memrd_data sec d po)) :
    exec .expander_memrd_data s = .next (if inExpander s.tun (128 * sec) then sectorArrives sec d po s else s) := by
  have hx : exec .expander_memrd_data s = execExpanderMemrdData s := rfl
  rw [hx, execExpanderMemrdData, hev]

theorem baseDieReply_run {s : State} {sec : Nat} {d : BitVec 1024} {po : BitVec 128} (hev : s.ev = some (.base_die_reply sec d po)) :
    exec .base_die_reply s = .next (if inHbm (128 * sec) then sectorArrives sec d po s else s) := by
  have hx : exec .base_die_reply s = execBaseDieReply s := rfl
  rw [hx, execBaseDieReply, hev]

/-! ### Values from the host's port, and accesses through it -/

/-- A group takes a value that the host's port brings. -/
def takeHostVal (v : Word64) (g : Group) : Group :=
  if g.hostDue = 0 then g else { g with hostVals := g.hostVals ++ [v], hostDue := g.hostDue - 1 }

section
variable {s : State} {gid : Nat} {g : Group} {v : Word64}

/-- The value reaches its group, which goes on when it was the last one due. -/
def hostValArrives (gid : Nat) (v : Word64) (g : Group) (s : State) : State :=
  if (takeHostVal v g).hostDue = 0 then wakeGid gid (modGroup gid (takeHostVal v) s) else modGroup gid (takeHostVal v) s

theorem found_takeHostVal (hg : findGroup s gid = some g) : findGroup (modGroup gid (takeHostVal v) s) gid = some (takeHostVal v g) :=
  found_modGroup hg (fun k => by unfold takeHostVal; split <;> rfl)

theorem hostPortCompletion_run (hev : s.ev = some (.host_port_completion gid v)) (hg : findGroup s gid = some g) :
    exec .host_port_completion s = .next (hostValArrives gid v g s) := by
  have hx : exec .host_port_completion s = execHostPortCompletion s := rfl
  have hfound := found_takeHostVal (v := v) hg
  unfold takeHostVal at hfound
  rw [hx, execHostPortCompletion, hev]
  dsimp only
  rw [hfound]
  rfl

theorem found_hostValArrives (hg : findGroup s gid = some g) : findGroup (hostValArrives gid v g s) gid
    = some (if (takeHostVal v g).hostDue = 0 then wakeGroup (modGroup gid (takeHostVal v) s) (takeHostVal v g) else takeHostVal v g) := by
  unfold hostValArrives
  split
  · exact findGroup_wakeGid (found_takeHostVal hg)
  · exact found_takeHostVal hg

theorem regsKept_hostValArrives : regsKept s (hostValArrives gid v g s) := by
  have hmod : regsKept s (modGroup gid (takeHostVal v) s) := by
    unfold modGroup
    split
    · refine regsKept_of_regs ?_
      dsimp only
      unfold takeHostVal
      split <;> rfl
    · exact regsKept_of_g rfl
  have hwake : ∀ u, regsKept u (wakeGid gid u) := fun u => by
    refine regsKept_of_regs ?_
    simp only [wakeGid, wakeWhere, mapGroups]
    split
    · unfold wakeGroup
      split <;> rfl
    · rfl
  unfold hostValArrives
  split
  · exact regsKept_trans hmod (hwake _)
  · exact hmod

theorem wakeGroup_hostVals (u : State) (g : Group) : (wakeGroup u g).hostVals = g.hostVals ∧ (wakeGroup u g).hostDue = g.hostDue := by
  unfold wakeGroup
  split <;> exact ⟨rfl, rfl⟩

theorem hostPortCompletion_spec (hev : s.ev = some (.host_port_completion gid v)) (hg : findGroup s gid = some g) :
    ∃ t, exec .host_port_completion s = .next t ∧ regsKept s t ∧ ∃ h, findGroup t gid = some h ∧ h.hostDue = g.hostDue - 1
      ∧ h.hostVals = (if g.hostDue = 0 then g.hostVals else g.hostVals ++ [v]) ∧ (1 < g.hostDue → h.status = g.status)
      ∧ (g.hostDue = 1 → g.status = .waiting → g.watch = none → h.status = .running) := by
  refine ⟨_, hostPortCompletion_run hev hg, regsKept_hostValArrives, _, found_hostValArrives hg, ?_⟩
  have htaken : (takeHostVal v g).hostDue = g.hostDue - 1
      ∧ (takeHostVal v g).hostVals = (if g.hostDue = 0 then g.hostVals else g.hostVals ++ [v])
      ∧ (takeHostVal v g).status = g.status ∧ (takeHostVal v g).watch = g.watch := by
    unfold takeHostVal
    split
    · next h => exact ⟨by omega, rfl, rfl, rfl⟩
    · exact ⟨rfl, rfl, rfl, rfl⟩
  obtain ⟨hdue, hvals, hstatus, hwatch⟩ := htaken
  by_cases h0 : (takeHostVal v g).hostDue = 0
  · obtain ⟨wvals, wdue⟩ := wakeGroup_hostVals (modGroup gid (takeHostVal v) s) (takeHostVal v g)
    rw [if_pos h0]
    refine ⟨wdue.trans hdue, wvals.trans hvals, fun h => by omega, fun _ hw hn => ?_⟩
    unfold wakeGroup
    rw [if_pos (by simp [hstatus, hwatch, hw, hn])]
  · rw [if_neg h0]
    exact ⟨hdue, hvals, fun _ => hstatus, fun h => by omega⟩

theorem pcieHostAccess_run {write : Bool} {line : Nat} {m : BitVec 64} {d : BitVec 512} (hev : s.ev = some (.pcie_host_access write line m d))
    (hdev : inDevMem s.tun (64 * line) = true) (hport : s.h.portPcie.any id = true) :
    exec .pcie_host_access s = .next (if write then (if inTable s line then s else putSector (line / 2) (lineMask line m) (lineData line d) 0 s)
      else hostReply line (if inTable s line then tableLine s line else lineOf line (memSector s (line / 2))) s) := by
  have hx : exec .pcie_host_access s = execPcieHostAccess s := rfl
  rw [hx, execPcieHostAccess, hev]
  dsimp only
  rw [hdev, hport]
  rfl

end

/-- A sector written under a mask holds the bytes under it, and the others as before. -/
theorem secByte_putSector (s : State) (sec : Nat) (m : BitVec 128) (d : BitVec 1024) (po : BitVec 128) {i : Nat} (hi : i < 128) :
    secByte (memSector (putSector sec m d po s) sec) i = if m.getLsbD i then secByte d i else secByte (memSector s sec) i := by
  have hfold : ∀ (l : List Nat) (mm : Memory), memGet (l.foldl (fun mm i => memPut mm (128 * sec + i) (secByte d i)) mm) (128 * sec + i)
      = if i ∈ l then secByte d i else memGet mm (128 * sec + i) := by
    intro l
    induction l with
    | nil => simp
    | cons j l ih =>
      intro mm
      rw [List.foldl_cons, ih]
      by_cases hij : i = j
      · subst hij; simp
      · rw [memGet_memPut_other _ _ _ _ (by omega)]
        simp [hij]
  rw [secByte_memSector _ _ hi, secByte_memSector _ _ hi]
  exact (hfold _ _).trans (by simp only [mem_secIdx])

/-- Settles O46, event by event. -/
theorem hostMemoryEventResult : Obligations.HostMemoryEventResult := by
  unfold Obligations.HostMemoryEventResult
  intro s line sec
  refine ⟨?_, ?_, ?_, ?_, ?_, ?_, ?_, ?_, ?_, ?_⟩
  case refine_1 =>
    rintro hev ⟨hbm, hbi, hrel, hheld, hclaim, hown⟩ hfull
    have h : HostServed s line := ⟨hbm, hbi, hrel, hheld, hclaim, hown⟩
    exact ⟨_, memrd_run h hev hfull, memrdServe_spec h⟩
  case refine_2 =>
    rintro m d hev ⟨hbm, hbi, hrel, hheld, hclaim, hown⟩
    have h : HostServed s line := ⟨hbm, hbi, hrel, hheld, hclaim, hown⟩
    refine ⟨fun ht hroom => ⟨_, memwr_run h hev, memwrServe_spec ht hroom m d⟩, fun ht => ⟨_, memwr_run h hev, ?_⟩⟩
    rw [memwrServe_table ht]
    exact ⟨regsKept_of_g (hostHomed_g _ _), hostHomed_l2 _ _, hostHomed_mem _ _⟩
  case refine_3 =>
    intro inv hev
    refine ⟨fun hc => ⟨s, ?_, regsKept_of_g rfl, rfl⟩, fun hc => ⟨_, birsp_run hev, ?_⟩⟩
    · rw [birsp_run hev, if_neg (by simp only [hc, Bool.false_eq_true, not_false_eq_true])]
    · rw [if_pos hc]
      refine ⟨?_, ?_, ?_, ?_, rfl⟩
      · exact ((HomeStep.same rfl).trans ((homeStep_unhold _).trans (homeStep_wakeAll _))).regsKept
      · change line ∉ s.m.biPend.filter (fun l => l ≠ line)
        simp
      · rintro rfl
        exact amGet?_amDel_same _ _
      · rintro rfl x hx
        exact (amGet?_amMod_same _ _ _).trans (by rw [hx]; rfl)
  case refine_4 =>
    intro hev hc
    refine ⟨_, biconflict_run hev hc, regsKept_of_g rfl, ?_, ?_, fun m d => ⟨?_, ?_⟩⟩ <;>
      simp +contextual [hostAsks]
  case refine_5 =>
    intro h hl was back
    have hb := hostLineBack_mem (line := line) h s
    have hform := hostLineBack_form (line := line) h s
    have hreply : (hostLineBack line h s).h.reply = s.h.reply := by rw [hform]
    have hregs : regsKept s (hostLineBack line h s) := regsKept_of_g (by rw [hform])
    refine ⟨fun hev => ⟨_, snpdata_run hl hev, hregs, ?_, amGet?_amPut_same _ _ _, hb⟩,
      fun hev => ⟨_, snpinv_run hl hev, hregs, ?_, amGet?_amDel_same _ _, hb⟩,
      fun hev => ⟨_, snpcur_run hl hev, regsKept_of_g rfl, rfl, rfl⟩⟩
    · exact congrArg (· ++ [(line, h.data)]) hreply
    · exact congrArg (· ++ [(line, h.data)]) hreply
  case refine_6 =>
    intro own hev hn hroom
    refine ⟨_, cxlCacheData_run hev, ?_⟩
    rw [hn]
    simp only [Bool.not_true, Bool.false_eq_true, if_false]
    rw [hostLineGet_of_homeRoom hroom]
    exact ⟨regsKept_of_g rfl, amGet?_amPut_same _ _ _⟩
  case refine_7 => exact fun own hev => ⟨_, cxlCacheData_run hev, regsKept_of_g rfl, rfl⟩
  case refine_8 =>
    intro d po hn hroom
    refine ⟨fun hev hin => ⟨_, expanderMemrdData_run hev, ?_⟩, fun hev hin => ⟨_, baseDieReply_run hev, ?_⟩⟩
    all_goals
      rw [if_pos hin, sectorArrives_of_homeRoom hn hroom]
      exact ⟨regsKept_of_g rfl, amGet?_amPut_same _ _ _⟩
  case refine_9 => exact fun gid g v hev hg => hostPortCompletion_spec hev hg
  case refine_10 =>
    intro m d hdev hport
    refine ⟨fun hev ht => ⟨_, pcieHostAccess_run hev hdev hport, ?_⟩, fun hev ht => ⟨_, pcieHostAccess_run hev hdev hport, ?_⟩,
      fun hev => ⟨_, pcieHostAccess_run hev hdev hport, regsKept_of_g rfl, rfl, rfl⟩⟩
    · rw [if_pos rfl, if_pos ht]
      exact ⟨regsKept_of_g rfl, rfl⟩
    · rw [if_pos rfl, if_neg (by simp [ht])]
      refine ⟨regsKept_of_g rfl, rfl, fun i hi => ?_⟩
      rw [secByte_putSector _ _ _ _ _ hi]
      by_cases hm : i / 64 = line % 2 ∧ m.getLsbD (i % 64) = true
      · rw [if_pos hm, if_pos (getLsbD_lineMask.mpr hm), secByte_lineData d hm.1]
      · rw [if_neg hm, if_neg (fun h => hm (getLsbD_lineMask.mp h))]

end Sys2Proof.Machine
end

section
/-! SUPPORT. A state in which a read that a home forwards to an owner ends the context of the group at issue; it refutes O45
(R27, R59, R99, R454). -/
namespace Sys2Proof.Machine

/-! ### The state

It is the state in which unmappg ends its own context (O43), with a forwarded read of the orphaned stash sector due at its owner and
a flag in the FPSTAT of the group at issue. A stash that has answered a read writes the words back. The page is read-only, so the
write-back faults; the group that filled the sector is gone, so the fault is escalated, and the policy of the context (POL)
terminates it with the group at issue, whose registers are gone. -/

/-- Core 0 reads the sector at 0x40000000, which the stash of core 1 owns. -/
def forwardedState : State :=
  { orphanedState with g := { orphanedState.g with fpstat := 1 }, ev := some (.fwdrd 1 0 0x800000) }

/-- FPSTAT of the group at issue in the state that an instruction or event ends in. -/
def fpstatAfter : Out → Option FFlags
  | .next t => some t.g.fpstat
  | .fault _ => none
  | .refused _ => none

/-- The group at issue has been discarded. -/
theorem forwardedState_fwdrd_fpstat : fpstatAfter (exec .fwdrd forwardedState) = some 0 := by decide +kernel

/-- Refutes O45: a FWDRD at a stash whose write-back faults does not leave the registers of the group at issue where no group is left
to take the fault and the context's policy (POL) terminates the context with the group at issue. -/
theorem not_protocolMessageResult : ¬ Obligations.ProtocolMessageResult := by
  unfold Obligations.ProtocolMessageResult
  intro h
  obtain ⟨-, -, -, -, -, -, -, hfwdrd, -⟩ := h forwardedState 0 0x800000
  obtain ⟨t, hexec, ⟨-, -, -, -, hfpstat⟩, -⟩ := hfwdrd 1 rfl
  have hafter := forwardedState_fwdrd_fpstat
  rw [hexec, fpstatAfter, hfpstat] at hafter
  exact absurd hafter (by decide)

end Sys2Proof.Machine
end

section
/-! SUPPORT. A state with two teams under one number, in which a team that gives the bow up gets it back; it refutes O37 (R160, R163,
R421). -/
namespace Sys2Proof.Machine

/-! ### The state

The statement speaks of every state, so also of one whose table of teams lists a number twice. A team is found by number in its first
entry. The bow is given to the first team of its grid with the right index, found by its own fields, and marked by its number. Here
the first entry of number 1 is the team of index 0, which holds the bow, and the second is the team of index 1, whose turn is next: it
is the first entry that receives the bow again. -/

/-- A row of one group to a part and one part to a team. -/
def bowRow : EntryRow :=
  { entry := 0, drone := 0, window := false, p := 1, g := 1, acc := 0, accw64 := false, vregs := 32, dvregs := 0, qbase := 0, qlen := 0,
    scratch := 0, desc := 0, opn := 0, merge := 0, close := 0, outRsz := 0, ring := 0, obj := 0 }

/-- Deterministic launch 1, of two teams: the bow is with the first. -/
def bowGrid : Grid :=
  { ctx := 1, queue := 0, depth := 1, row := bowRow, args := 0, stamp := Stamp.zero, loc := 0xFFFF,
    nteam := 2, nextTeam := 2, base := 0, exitedAbove := [], teamsUp := 2, kids := 0, pri := 0, cmask := 0, det := true, pinned := false,
    repl := false, replOk := false, replays := 0, snaps := [], rep := { cmd := none, donew := 0, parent := 0 }, order := 0, bowTeam := 0,
    cancelled := false }

/-- The team of launch 1 that holds the bow and has drained. -/
def bowHolder : Team := { Team.nil with grid := 1, ctx := 1, bow := .holds, drained := true }

/-- The team of launch 1 whose turn is next. -/
def bowNext : Team := { Team.nil with grid := 1, ctx := 1, tidx := 1, bow := .before }

/-- Group 1 of the first team is at issue. -/
def twiceNumberedState : State :=
  { State.reset with
    g := { Group.none with
      idn := { Group.none.idn with gid := 1, ctx := 1, work := 1, team := 1 }
      status := .running }
    d := { State.reset.d with teams := [(1, bowHolder), (1, bowNext)], grids := [(1, bowGrid)], bowQ := [1] } }

/-- Where the team of the group at issue stands with the bow, in the state that an instruction ends in. -/
def bowAfter (team : Nat) : Out → Option BowState
  | .next t => (teamOf t team).map (fun x => x.bow)
  | .fault _ => none
  | .refused _ => none

theorem twiceNumberedState_isDet : isDet twiceNumberedState twiceNumberedState.g = true := by decide +kernel

theorem twiceNumberedState_bow :
    passedBow twiceNumberedState twiceNumberedState.g = false ∧ holdsBow twiceNumberedState twiceNumberedState.g = true
      ∧ teamWritten twiceNumberedState twiceNumberedState.g.idn.team = true := by decide +kernel

/-- The bow comes back to the number that has given it up. -/
theorem twiceNumberedState_bow_pass : bowAfter 1 (exec .bow_pass twiceNumberedState) = some .holds := by decide +kernel

/-- Refutes O37: bow.pass does not leave the bow passed where the table of teams lists the number of the team a second time, for the
team whose turn is next. -/
theorem not_wordWaitAndBowResult : ¬ Obligations.WordWaitAndBowResult := by
  unfold Obligations.WordWaitAndBowResult
  intro h
  obtain ⟨-, hbow⟩ := h
  obtain ⟨-, -, -, hpass⟩ := hbow twiceNumberedState 0
  obtain ⟨hpassed, hholds, hwritten⟩ := twiceNumberedState_bow
  obtain ⟨t, u, hexec, -, -, -, hteam, hafter⟩ := hpass twiceNumberedState_isDet hpassed hholds hwritten
  have hback := twiceNumberedState_bow_pass
  rw [hexec, bowAfter, show (1 : Nat) = twiceNumberedState.g.idn.team from rfl, hteam, Option.map_some, hafter] at hback
  exact absurd hback (by decide)

end Sys2Proof.Machine
end

section
/-! SUPPORT. launch and jobput, by the outcomes of their shared course; they settle O36 (R416, R417). -/
namespace Sys2Proof.Machine

/-! ### What a posting leaves of the group -/

/-- The group at issue stands at the same instruction with the same registers. -/
structure StillAtIssue (s t : State) : Prop where
  pc : t.g.pc = s.g.pc
  ir : t.ir = s.ir
  idn : t.g.idn = s.g.idn
  regs : regsKept s t

theorem HomeStep.stillAtIssue {s t : State} (h : HomeStep Woken s t) : StillAtIssue s t := by
  obtain ⟨hidn, hpc⟩ := h.groups.g.placed
  exact ⟨hpc, h.ir, hidn, h.regsKept⟩

theorem stillAtIssue_of_g {s t : State} (hg : t.g = s.g) (hi : t.ir = s.ir) : StillAtIssue s t :=
  ⟨by rw [hg], hi, by rw [hg], regsKept_of_g hg⟩

theorem StillAtIssue.refl (s : State) : StillAtIssue s s := stillAtIssue_of_g rfl rfl

theorem StillAtIssue.trans {s t u : State} (h : StillAtIssue s t) (h' : StillAtIssue t u) : StillAtIssue s u :=
  ⟨h'.pc.trans h.pc, h'.ir.trans h.ir, h'.idn.trans h.idn, regsKept_trans h.regs h'.regs⟩

theorem StillAtIssue.nextPc {s t : State} (h : StillAtIssue s t) : nextPc t = nextPc s := by
  simp only [Machine.nextPc, h.pc, h.ir]

/-- A scan that ends writes its record, wakes who waits, and posts no work. -/
theorem endScan_still (tun : Tuning) (core out : Nat) (obs : Word64) (s : State) :
    StillAtIssue s (endScan tun core out obs s) ∧ (endScan tun core out obs s).d.grids = s.d.grids := by
  unfold endScan
  split
  · exact ⟨.refl s, rfl⟩
  · next sc _ =>
    extract_lets s1 s2 c s3 life scans disp host s4 s5
    have hput : HomeStep Woken s s2 := (homeStep_cohPutWord _ _ _).trans (homeStep_cohPutWord _ _ _)
    have hrec : StillAtIssue s2 s4 := stillAtIssue_of_g rfl rfl
    have hwake : HomeStep Woken s4 s5 := homeStep_wakeAll s4
    have hgrids : s2.d.grids = s.d.grids := congrArg DispSys.grids hput.d
    have hgrids' : s5.d.grids = s4.d.grids := congrArg DispSys.grids hwake.d
    exact ⟨(hput.stillAtIssue.trans hrec).trans (hwake.stillAtIssue.trans (stillAtIssue_of_g rfl rfl)), hgrids'.trans hgrids⟩

theorem abortScans_still (pri : Nat) (s : State) :
    StillAtIssue s (abortScans pri s) ∧ (abortScans pri s).d.grids = s.d.grids := by
  unfold abortScans
  generalize List.map _ _ = cores
  induction cores generalizing s with
  | nil => exact ⟨.refl s, rfl⟩
  | cons core cores ih =>
    obtain ⟨hstill, hgrids⟩ := endScan_still s.tun core 3 0 s
    obtain ⟨hstill', hgrids'⟩ := ih (endScan s.tun core 3 0 s)
    exact ⟨hstill.trans hstill', hgrids'.trans hgrids⟩

/-- The implicit +1 goes to the aggregator. -/
theorem plusOne_still (x : Stamp) (l : BitVec 16) (s : State) : StillAtIssue s (plusOne x l s) ∧ (plusOne x l s).d = s.d := by
  unfold plusOne
  split
  · exact ⟨.refl s, rfl⟩
  · exact ⟨⟨rfl, rfl, rfl, regsKept_of_regs rfl⟩, rfl⟩

theorem endReplay_still (grid detail : Nat) (s : State) : StillAtIssue s (endReplay grid detail s)
    ∧ (endReplay grid detail s).d.cards = s.d.cards ∧ (endReplay grid detail s).d.nextId = s.d.nextId := by
  unfold endReplay
  split
  · split
    · exact ⟨stillAtIssue_of_g rfl rfl, rfl, rfl⟩
    · exact ⟨.refl s, rfl, rfl⟩
  · exact ⟨.refl s, rfl, rfl⟩

theorem leaveReplay_still (detail : Nat) (s : State) : StillAtIssue s (leaveReplay detail s)
    ∧ (leaveReplay detail s).d.cards = s.d.cards ∧ (leaveReplay detail s).d.nextId = s.d.nextId := by
  unfold leaveReplay
  split
  · exact endReplay_still _ _ s
  · exact ⟨.refl s, rfl, rfl⟩

/-! ### What is posted -/

/-- The child grid of a launch block, of a group of grid p. -/
def childGrid (b : BitVec 512) (r : EntryRow) (p : Grid) (s : State) : Grid :=
  { ctx := p.ctx, queue := p.queue, depth := p.depth + 1, row := r, args := b.extractLsb' 64 64, stamp := blkStamp b,
    loc := blkLoc b, nteam := blkN b, nextTeam := 0, base := 0, exitedAbove := [], teamsUp := 0, kids := 0, pri := p.pri,
    cmask := p.cmask, det := false, pinned := p.pinned, repl := false, replOk := false, replays := 0, snaps := [],
    rep := { cmd := none, donew := blkDonew b, parent := s.g.idn.work }, order := s.q.beginNo, bowTeam := 0, cancelled := false }

/-- The job card of a card block. -/
def postedCard (b : BitVec 512) (r : EntryRow) (s : State) : Card :=
  { ctx := s.g.idn.ctx, queue := (posterOf s s.g).1, row := r, base := b.extractLsb' 64 64, rsize := (b.extractLsb' 160 16).toNat,
    count := blkN b, dealt := 0, groupsUp := 0, stamp := blkStamp b, loc := blkLoc b, pri := (posterOf s s.g).2.1,
    cmask := (posterOf s s.g).2.2.1, rep := { cmd := none, donew := blkDonew b, parent := (posterOf s s.g).2.2.2 },
    order := s.q.beginNo, cancelled := false }

/-- The child grid is queued, and counts as a child of the grid that posted it. -/
def withChild (b : BitVec 512) (r : EntryRow) (p : Grid) (s : State) : State :=
  { s with
    d := { s.d with
      grids := amPut (amMod s.d.grids s.g.idn.work (fun x => { x with kids := x.kids + 1 })) s.d.nextId (childGrid b r p s)
      nextId := s.d.nextId + 1 }
    q := { s.q with beginNo := s.q.beginNo + 1 } }

theorem addChild_of_grid {s : State} {p : Grid} (b : BitVec 512) (r : EntryRow) (hp : amGet? s.d.grids s.g.idn.work = some p) :
    addChild b r s = abortScans p.pri (withChild b r p s) := by
  unfold addChild
  rw [hp]
  rfl

theorem addChild_still {s : State} {p : Grid} (b : BitVec 512) (r : EntryRow) (hp : amGet? s.d.grids s.g.idn.work = some p) :
    StillAtIssue s (addChild b r s) ∧ amGet? (addChild b r s).d.grids s.d.nextId = some (childGrid b r p s) := by
  obtain ⟨hstill, hgrids⟩ := abortScans_still p.pri (withChild b r p s)
  rw [addChild_of_grid b r hp]
  have hadd : StillAtIssue s (withChild b r p s) := stillAtIssue_of_g rfl rfl
  exact ⟨hadd.trans hstill, by rw [hgrids]; exact amGet?_amPut_same _ _ _⟩

theorem addCard_still (b : BitVec 512) (r : EntryRow) (s : State) :
    StillAtIssue s (addCard b r s) ∧ amGet? (addCard b r s).d.cards s.d.nextId = some (postedCard b r s) :=
  ⟨stillAtIssue_of_g rfl rfl, amGet?_amPut_same _ _ _⟩

/-! ### The outcomes of the shared course -/

/-- What completes with a register written over a state at the same instruction. -/
theorem retireS_wS_still {s t : State} (h : StillAtIssue s t) (d : SReg) (x : Word64) :
    (retireS (wS t d x)).g.pc = nextPc s ∧ onlyS s (retireS (wS t d x)) d ∧ rS (retireS (wS t d x)) d = if d = 0 then 0 else x := by
  obtain ⟨hs, hk, hv, hl, hf⟩ := h.regs
  refine ⟨?_, ⟨fun r hr => ?_, fun k hk0 => ?_, fun r l hn hl0 => ?_, ?_, ?_⟩, ?_⟩
  · simp [retireS, retire, h.nextPc]
  · simpa [retireS, retire, rS_wS_other _ _ hr] using hs r id
  · simpa [retireS, retire] using hk k hk0
  · simpa [retireS, retire] using hv r l hn hl0
  · simpa [retireS, retire] using hl
  · simpa [retireS, retire] using hf
  · simp [retireS, retire, rS_wS_same]

/-- A rejection only writes its status. -/
theorem retireS_wS_rejects (s : State) (d : SReg) (x : Word64) :
    completes s (retireS (wS s d x)) (nextPc s) ∧ onlyS s (retireS (wS s d x)) d ∧ memKept s (retireS (wS s d x))
      ∧ rS (retireS (wS s d x)) d = if d = 0 then 0 else x := by
  obtain ⟨t, ht, hc, hr, ho⟩ := scalarOut_spec d x s
  cases ht
  exact ⟨hc, ho, completes_memKept hc, hr⟩

theorem retireTo_eccu (act : Word32) (pc : BitVec 56) (s : State) : (retireTo act pc s).g.x.eccu = s.g.x.eccu := by
  unfold retireTo foldSig; split <;> (dsimp only; split <;> rfl)

theorem retireS_wS_d (s : State) (d : SReg) (x : Word64) : (retireS (wS s d x)).d = s.d := by
  rw [retireS, retire, retireTo_d, wS_form s d x]

/-- Poison in the block is noted, and nothing posted. -/
theorem retireS_notePoison (va : Nat) (acc : BitVec 3) (s : State) : let t := retireS (notePoison va acc s)
    t.g.pc = nextPc s ∧ regsKept s t ∧ t.m = s.m ∧ t.d = s.d ∧ t.g.x.eccu.isSome = true := by
  obtain ⟨heccu, hpc, -, hregs, -⟩ := notePoison_spec va acc s
  have hsame : (notePoison va acc s).m = s.m ∧ (notePoison va acc s).d = s.d ∧ (notePoison va acc s).ir = s.ir := by
    unfold notePoison; split <;> exact ⟨rfl, rfl, rfl⟩
  obtain ⟨hm, hd, hir⟩ := hsame
  refine ⟨?_, regsKept_trans hregs (retireTo_regsKept _ _ _), hm, hd, ?_⟩
  · simp [retireS, retire, nextPc, hpc, hir]
  · rw [retireS, retire, retireTo_eccu]
    exact heccu

section
variable {s u : State} {d a : SReg} {c : Ctx} {v : Nat} {status : Ctx → BitVec 512 → Nat} {add : BitVec 512 → EntryRow → State → State}

/-- The instruction has passed its waits and the checks of its block's address. -/
structure BlockServed (s : State) (a : SReg) (c : Ctx) : Prop where
  bow : needsBow s s.g = false ∨ passedBow s s.g = true
  released : releaseWaits s 3 = false
  ctx : gCtx s = some c
  noFault : laneFault 0 [blockLane a s] = none
  free : loadHeld false [blockLane a s] s = none

theorem BlockServed.noWait (h : BlockServed s a c) : ((needsBow s s.g && !passedBow s s.g) || releaseWaits s scDev) = false := by
  rw [show releaseWaits s scDev = false from h.released]
  rcases h.bow with hb | hb <;> simp [hb]

theorem postWork_poisoned (h : BlockServed s a c) (hload : loadLane 1 (blockLane a s) s = ((v, true), u)) :
    postWork d a status add s = .next (retireS (notePoison (blockLane a s).addr 0 u)) := by
  simp only [postWork, h.noWait, h.ctx, h.noFault, h.free, hload]
  rfl

/-- A rejection's status: free where R388 rejects. -/
def rejection (status : Nat) (u : State) : Word64 × State :=
  if status = tidStatus then ((drawFree u).1, (drawFree u).2) else (BitVec.ofNat 64 status, u)

theorem postWork_rejected (h : BlockServed s a c) (hload : loadLane 1 (blockLane a s) s = ((v, false), u))
    (hst : status c (BitVec.ofNat 512 v) ≠ 0) :
    postWork d a status add s = .next (retireS (wS (rejection (status c (BitVec.ofNat 512 v)) u).2 d
      (rejection (status c (BitVec.ofNat 512 v)) u).1)) := by
  simp only [postWork, h.noWait, h.ctx, h.noFault, h.free, hload, rejection]
  by_cases ht : status c (BitVec.ofNat 512 v) = tidStatus
  · simp [ht]
  · simp [ht, hst, w64]

theorem postWork_posts {r : EntryRow} (h : BlockServed s a c) (hload : loadLane 1 (blockLane a s) s = ((v, false), u))
    (hst : status c (BitVec.ofNat 512 v) = 0) (hplus : plusOk c u.g (blkStamp (BitVec.ofNat 512 v)) (blkLoc (BitVec.ofNat 512 v)) = true)
    (hrow : rowAt c ((BitVec.ofNat 512 v).extractLsb' 0 64) = some r) :
    postWork d a status add s = .next (retireS (wS (add (BitVec.ofNat 512 v) r
      (plusOne (blkStamp (BitVec.ofNat 512 v)) (blkLoc (BitVec.ofNat 512 v)) u)) d 0)) := by
  have htid : tidStatus ≠ 0 := by decide
  simp only [postWork, h.noWait, h.ctx, h.noFault, h.free, hload]
  simp [hst, htid.symm, hplus, hrow]

theorem postWork_rejects (h : BlockServed s a c) (hload : loadLane 1 (blockLane a s) s = ((v, false), u))
    (hst : status c (BitVec.ofNat 512 v) ≠ 0) : let w := rejection (status c (BitVec.ofNat 512 v)) u
    ∃ t, postWork d a status add s = .next t ∧ completes w.2 t (nextPc u) ∧ onlyS u t d ∧ memKept u t
      ∧ rS t d = if d = 0 then 0 else w.1 := by
  intro w
  have hpc : nextPc w.2 = nextPc u := by unfold w rejection; split <;> rfl
  have hregs : onlyS w.2 (retireS (wS w.2 d w.1)) d → onlyS u (retireS (wS w.2 d w.1)) d := by unfold w rejection; split <;> exact id
  have hmem : memKept w.2 (retireS (wS w.2 d w.1)) → memKept u (retireS (wS w.2 d w.1)) := by unfold w rejection; split <;> exact id
  obtain ⟨hc, ho, hm, hr⟩ := retireS_wS_rejects w.2 d w.1
  exact ⟨_, postWork_rejected h hload hst, hpc ▸ hc, hregs ho, hmem hm, hr⟩

/-- Work that is added to the state after the +1 at the same instruction is posted with status 0. -/
theorem posted_of_still {w : State} (h : StillAtIssue u w) : (retireS (wS w d 0)).g.pc = nextPc u ∧ onlyS u (retireS (wS w d 0)) d
    ∧ rS (retireS (wS w d 0)) d = 0 := by
  obtain ⟨hpc, ho, hr⟩ := retireS_wS_still h d 0
  exact ⟨hpc, ho, by simpa using hr⟩

end

theorem exec_launch_child {s : State} (d a : SReg) (hl : isLeader s.g = true) (hd : s.g.idn.depth < 10) :
    exec (.launch_child d a) s = postWork d a launchStatus addChild s := by
  have hx : exec (.launch_child d a) s = execLaunchChild d a s := rfl
  rw [hx, execLaunchChild, if_neg (by simp [hl, hd])]

/-- Settles O36: launch and jobput share one course, and what each adds leaves its group at the same instruction. -/
theorem postWorkResult : Obligations.PostWorkResult := by
  unfold Obligations.PostWorkResult
  intro s u d a c v r b l stamp loc rejects posts hbow hrel hctx hfault hheld
  have hserved : BlockServed s a c := ⟨hbow, hrel, hctx, hfault, hheld⟩
  have hjob : exec (.jobput d a) s = postWork d a cardStatus (fun b r s => addCard b r (leaveReplay 4 s)) s := rfl
  refine ⟨fun x hload i hi => ?_, fun hload => ⟨fun hl hd => ⟨fun hst => ?_, fun hst p hp hplus hrow => ?_⟩, fun hst => ?_, fun hst hplus hrow => ?_⟩⟩
  · obtain ⟨status, add, hi⟩ : ∃ status add, exec i s = postWork d a status add s := by
      rcases List.mem_cons.1 hi with rfl | hi
      · exact ⟨_, _, hjob⟩
      · split at hi
        · next hlead =>
          obtain ⟨hl, hd⟩ := Bool.and_eq_true_iff.1 hlead
          cases List.mem_singleton.1 hi
          exact ⟨_, _, exec_launch_child d a hl (of_decide_eq_true hd)⟩
        · exact absurd hi List.not_mem_nil
    exact ⟨_, hi.trans (postWork_poisoned hserved hload), retireS_notePoison _ _ _⟩
  · change ∃ t, exec (.launch_child d a) s = .next t ∧ _
    rw [exec_launch_child d a hl hd]
    exact postWork_rejects hserved hload hst
  · rw [exec_launch_child d a hl hd, postWork_posts hserved hload hst hplus hrow]
    obtain ⟨hstill, hsame⟩ := plusOne_still stamp loc u
    obtain ⟨hstill', hgrid⟩ := addChild_still b r (s := plusOne stamp loc u) (p := p) (by rw [hsame, hstill.idn, hp])
    obtain ⟨hpc, ho, hr⟩ := posted_of_still (d := d) (hstill.trans hstill')
    refine ⟨_, rfl, hpc, ho, hr, childGrid b r p (plusOne stamp loc u), ?_, rfl, rfl, rfl, rfl, rfl, rfl, rfl, rfl, rfl, hstill.idn ▸ rfl, rfl⟩
    rw [hsame] at hgrid
    rw [retireS_wS_d]
    exact hgrid
  · change ∃ t, exec (.jobput d a) s = .next t ∧ _
    rw [hjob]
    exact postWork_rejects hserved hload hst
  · rw [hjob, postWork_posts hserved hload hst hplus hrow]
    obtain ⟨hstill, hsame⟩ := plusOne_still stamp loc u
    obtain ⟨hstill1, hcards, hid⟩ := leaveReplay_still 4 (plusOne stamp loc u)
    obtain ⟨hstill2, hcard⟩ := addCard_still b r (leaveReplay 4 (plusOne stamp loc u))
    obtain ⟨hpc, ho, hr⟩ := posted_of_still (d := d) (hstill.trans (hstill1.trans hstill2))
    refine ⟨_, rfl, hpc, ho, hr, postedCard b r (leaveReplay 4 (plusOne stamp loc u)), ?_, ?_, rfl, rfl, rfl, rfl, rfl, rfl, rfl, rfl⟩
    · rw [hid, hsame] at hcard
      rw [retireS_wS_d]
      exact hcard
    · exact congrArg GIdent.ctx (hstill1.idn.trans hstill.idn)

end Sys2Proof.Machine
end

section
/-! SUPPORT. A state in which a store brings back an old byte beside those that it writes; it refutes O19 (R57, R58, R59). -/
namespace Sys2Proof.Machine

/-! ### The state

The statement speaks of every state, so also of one whose directory records an owner of a word that the core's L1 has in none of P, O
and W, while a byte of the word still counts as written there. An owner answers with its written bytes of words that it holds, so a read
finds the home's byte. A store to another byte of the word puts the word in P, and from then on a read finds the old byte of the L1. -/

/-- A sector whose byte 1 counts as written, and which holds no word. -/
def staleSector : L1Sec :=
  { ctx := 1, vsec := 0, rd := true, wr := true, ex := false, sup := false, stash := false, valid := BitVec.allOnes 128, data := 0xAA00,
    poison := 0, p := 0, o := 0, w := 0, kept := 0, reg := 2, drop := 0, used := 0 }

/-- Lane 0 of group 1 is live on core 0, whose L1 has VA 0 at the physical sector 8; the directory records core 0 as owner of the sector's
first word. -/
def staleState : State :=
  { State.reset with
    g := { Group.none with
      idn := { Group.none.idn with gid := 1, ctx := 1 }
      status := .running
      live := 1 }
    m := { State.reset.m with l1 := [(8, staleSector)], dir := [(128, 0)], rmap := [(0, 2 ^ 48)] } }

/-- Under hint 0, without order. -/
def plainQ : MemQ := { ord := 0, scope := 0, hint := 0 }

/-- The first byte of the sector. -/
def staleSeg : Seg := { va := 0, n := 1, pa := 0x400, hit := true, x := { leaf := 0, level := 0, pte := 0 } }

/-- The lanes of a store of one byte to VA 0. -/
def staleLanes : List LaneAcc := globGather staleState 1 1 (IW.width .w8 / 8) 1 0 (actOf staleState 0)

/-- A byte of memory in the state that an instruction ends in. -/
def byteAfter (pa : Nat) : Out → Option Byte
  | .next t => some (cohByte t pa)
  | .fault _ => none
  | .refused _ => none

/-! ### What it evaluates to -/

theorem staleLanes_hit : ∀ x ∈ staleLanes, x.res = .ok (.glob [staleSeg]) := by
  have h : staleLanes.map (fun x => x.res) = [.ok (.glob [staleSeg])] := by decide +kernel
  intro x hx
  simpa [h] using List.mem_map_of_mem (f := fun x => x.res) hx

theorem staleState_storeReady : storeReady staleState plainQ staleLanes := by unfold storeReady; decide +kernel

theorem staleState_st_g : byteAfter 0x401 (exec (.st_g 0 1 .w8 0 0 plainQ) staleState) = some 0xAA := by decide +kernel

theorem staleState_cohByte : cohByte staleState 0x401 = 0 := by decide +kernel

/-- Refutes O19: the byte next to a stored one does not read as before where the L1 counts it as written in a word that it does not hold
and the directory records the core as the word's owner. -/
theorem not_globalStoreResult : ¬ Obligations.GlobalStoreResult := by
  unfold Obligations.GlobalStoreResult
  intro h
  obtain ⟨-, -, hvec⟩ := h
  have hst := hvec staleState 0 0 1 0 .w8 0 plainQ (fun _ => staleSeg) (.st_g 0 1 .w8 0 0 plainQ, [0, 1], staleLanes, IW.width .w8 / 8)
    (List.mem_cons_of_mem _ (List.mem_singleton.2 rfl)) (by unfold canName; decide +kernel) staleState_storeReady (.inl (by decide +kernel))
    (fun x hx => ⟨staleLanes_hit x hx, by decide, by decide, by decide⟩)
  obtain ⟨hplain, -⟩ := hst
  obtain ⟨t, hexec, -, -, -, -, -, -, -, -, hother⟩ := hplain rfl
    (fun x hx => ⟨rfl, by decide +kernel, by unfold aliasKnown; decide +kernel⟩)
  obtain ⟨hbyte, -⟩ := hother 0x401 (by decide)
    (fun l ⟨_, _, _, hlt⟩ => absurd hlt (by decide)) (by decide +kernel)
  have hafter := staleState_st_g
  rw [hexec, byteAfter, hbyte, staleState_cohByte] at hafter
  exact absurd hafter (by decide)

end Sys2Proof.Machine
end

section
/-! SUPPORT. A state in which an atomic has a refused message of its core served before it; it refutes O21 (R57, R62, R66, R84). -/
namespace Sys2Proof.Machine

/-! ### The state

The statement speaks of every state, so also of one in which a leg's destination refuses a WT of the core for the sector while no
outstanding message of the core for it is recorded. The atomic does not wait for it: what waits is read off the outstanding messages.
Before the atomic goes out the core's own requests for the sector reach their home, the refused WT among them, and its WTACK comes up. -/

/-- Lane 0 of group 1 is live on core 0; the cluster TLB maps VA 0 to HBM at 0x40000000, readable and writable, with A and D set; a WT of
byte 0 of that sector is refused. -/
def refusedState : State :=
  { State.reset with
    g := { Group.none with
      idn := { Group.none.idn with gid := 1, ctx := 1 }
      status := .running
      live := 1 }
    m := { State.reset.m with
      tlb := [{ cluster := 0, ctx := 1, level := 3, vpage := 0, leaf := 0x10000040000039, leafPa := 0, locks := [] }]
      refused := [(.wt 0 0x800000 { mask := 1, data := 0 } false false, { loop := 0, src := .core 0, dst := .slice 0 })] } }

/-- A non-returning add of 32 bits without order. -/
def addNr : AtOp := { aop := 0, w64 := false, nr := true, r := .rne, off := 0, ord := 0, scope := 0 }

/-- The word at VA 0. -/
def refusedSeg : Seg := { va := 0, n := 4, pa := 0x40000000, hit := false, x := { leaf := 0x10000040000039, level := 3, pte := 0 } }

/-- The lanes of an atomic on VA 0. -/
def refusedLanes : List LaneAcc := globGather refusedState 2 (32 / 8) (32 / 8) 1 addNr.off (actOf refusedState 0)

/-- Whether an event is due in the state that an instruction ends in. -/
def dueAfter (e : Event) : Out → Bool
  | .next t => decide (e ∈ t.agenda)
  | .fault _ => false
  | .refused _ => false

/-! ### What it evaluates to -/

theorem refusedLanes_res : ∀ a ∈ refusedLanes, a.res = .ok (.glob [refusedSeg]) := by
  have h : refusedLanes.map (fun a => a.res) = [.ok (.glob [refusedSeg])] := by decide +kernel
  intro a ha
  simpa [h] using List.mem_map_of_mem (f := fun a => a.res) ha

theorem refusedState_atomReady : atomReady refusedState addNr refusedLanes := by unfold atomReady; decide +kernel

theorem refusedState_at_g : dueAfter (.wtack 0 0x800000) (exec (.at_g addNr 0 1 0 1 0) refusedState) = true := by decide +kernel

/-- Refutes O21: a non-returning gather of atomics does not leave its own messages alone on the agenda where a refused message of its core
for the sector is served before it. -/
theorem not_atomicResult : ¬ Obligations.AtomicResult := by
  unfold Obligations.AtomicResult
  intro h
  obtain ⟨-, -, -, hgather⟩ := h
  obtain ⟨-, hglob⟩ := hgather refusedState addNr 0 1 0 1 0 (by unfold canName; decide +kernel) (by decide)
  obtain ⟨-, hsend⟩ := hglob (fun _ => refusedSeg) refusedState_atomReady (.inl (by decide +kernel)) rfl
    (fun a ha => ⟨refusedLanes_res a ha, rfl, by decide, by decide, by decide, by decide +kernel⟩)
  obtain ⟨t, hexec, -, -, hagenda⟩ := hsend rfl (by decide)
  have hack := refusedState_at_g
  rw [hexec, dueAfter, decide_eq_true_iff, hagenda] at hack
  obtain ⟨a, -, heq⟩ := hack
  cases heq

end Sys2Proof.Machine
end

section
/-! SUPPORT. The L1 sectors as a table by core and sector, and reads under steps that change of a sector nothing its core answers with
(R52, R57, R59). -/
namespace Sys2Proof.Machine

/-! ### Tables in the order of their keys -/

theorem amGet?_map {α β : Type} (f : Nat × α → β) (m : List (Nat × α)) (i : Nat) :
    amGet? (m.map (fun e => (e.1, f e))) i = (amGet? m i).map (fun v => f (i, v)) := by
  induction m with
  | nil => rfl
  | cons e t ih =>
    obtain ⟨k, v⟩ := e
    rw [List.map_cons, amGet?, amGet?]
    by_cases h : i = k
    · rw [if_pos h, if_pos h, h]; rfl
    · rw [if_neg h, if_neg h, ih]

/-- The keys of a table in their order are distinct, and not below its bound. -/
theorem keys_of_amSorted {α : Type} {lo : Nat} {m : List (Nat × α)} (h : amSorted lo m = true) :
    (m.map Prod.fst).Nodup ∧ ∀ k ∈ m.map Prod.fst, lo ≤ k := by
  induction m generalizing lo with
  | nil => exact ⟨List.nodup_nil, fun _ hk => absurd hk List.not_mem_nil⟩
  | cons e t ih =>
    simp only [amSorted, Bool.and_eq_true, decide_eq_true_eq] at h
    obtain ⟨hlo, ht⟩ := h
    obtain ⟨hnd, hge⟩ := ih ht
    refine ⟨List.nodup_cons.2 ⟨fun hmem => absurd (hge _ hmem) (by omega), hnd⟩, fun k hk => ?_⟩
    rcases List.mem_cons.1 hk with rfl | hk
    · exact hlo
    · exact Nat.le_of_succ_le (Nat.le_trans (Nat.succ_le_succ hlo) (hge k hk))

/-- Where no key stands twice, what is listed under a key is what is found. -/
theorem amGet?_of_mem {α : Type} {m : List (Nat × α)} (hn : (m.map Prod.fst).Nodup) {i : Nat} {v : α} (h : (i, v) ∈ m) :
    amGet? m i = some v := by
  induction m with
  | nil => exact absurd h List.not_mem_nil
  | cons e t ih =>
    obtain ⟨k, u⟩ := e
    rw [List.map_cons, List.nodup_cons] at hn
    rw [amGet?]
    rcases List.mem_cons.1 h with heq | hmem
    · obtain ⟨rfl, rfl⟩ := Prod.mk.inj heq; exact if_pos rfl
    · have hik : i ≠ k := fun hik => hn.1 (List.mem_map.2 ⟨(i, v), hmem, hik⟩)
      rw [if_neg hik, ih hn.2 hmem]

/-! ### A core's sectors -/

theorem l1Key_core_ne {core core' : Nat} (sec : Nat) (h : core' ≠ core) : l1Key core' sec ≠ l1Key core sec := by
  unfold l1Key; omega

theorem l1Key_sec_ne {sec sec' : Nat} (core : Nat) (h : sec' ≠ sec) : l1Key core sec' ≠ l1Key core sec := by
  unfold l1Key; omega

section
variable (core sec : Nat) (x : L1Sec) (s : State)

theorem l1At_l1Put_same : l1At (l1Put core sec x s) core sec = some x := amGet?_amPut_same _ _ _

variable {core sec}

theorem l1At_l1Put_other {core' sec' : Nat} (h : l1Key core' sec' ≠ l1Key core sec) :
    l1At (l1Put core sec x s) core' sec' = l1At s core' sec' := amGet?_amPut_other _ _ _ _ h

end

theorem mem_l1Of {s : State} {core sec : Nat} {x : L1Sec} : (sec, x) ∈ l1Of s core ↔ sec < 2 ^ 45 ∧ (l1Key core sec, x) ∈ s.m.l1 := by
  simp only [l1Of, List.mem_filterMap, Option.ite_none_right_eq_some, Option.some.injEq, Prod.mk.injEq]
  constructor
  · rintro ⟨⟨k, y⟩, hmem, hcore, rfl, rfl⟩
    dsimp only at hcore hmem ⊢
    refine ⟨Nat.mod_lt _ (by decide), ?_⟩
    have hk : l1Key core (k % 2 ^ 45) = k := by unfold l1Key; omega
    rwa [hk]
  · rintro ⟨hsec, hmem⟩
    refine ⟨_, hmem, ?_, ?_, rfl⟩ <;> (dsimp only; unfold l1Key; omega)

/-- A core lists each of its sectors once. -/
theorem l1Of_nodup {s : State} (h : amSorted 0 s.m.l1 = true) (core : Nat) : ((l1Of s core).map Prod.fst).Nodup := by
  obtain ⟨hn, -⟩ := keys_of_amSorted h
  unfold l1Of
  generalize s.m.l1 = m at hn
  induction m with
  | nil => exact List.nodup_nil
  | cons e t ih =>
    rw [List.map_cons, List.nodup_cons] at hn
    obtain ⟨hnot, ht⟩ := hn
    rw [List.filterMap_cons]
    split
    · exact ih ht
    · next y hy =>
      simp only [Option.ite_none_right_eq_some, Option.some.injEq] at hy
      obtain ⟨hcore, rfl⟩ := hy
      rw [List.map_cons, List.nodup_cons]
      refine ⟨fun hmem => hnot ?_, ih ht⟩
      simp only [List.mem_map, List.mem_filterMap, Option.ite_none_right_eq_some, Option.some.injEq] at hmem
      obtain ⟨p, ⟨e', he', hcore', rfl⟩, heq⟩ := hmem
      dsimp only at heq
      have hkey : e'.1 = e.1 := by omega
      exact hkey ▸ List.mem_map_of_mem he'

/-! ### What a core answers with -/

theorem secMerge_zero (old new : BitVec 1024) : secMerge old 0#128 new = old := by
  simp [secMerge, secIdx]

/-- A sector of which no byte counts as written answers with what is in the write-back buffer alone, as an absent one does. -/
theorem ownerBytes_of_clean {s t : State} {c sec : Nat} (hs : ∀ x, l1At s c sec = some x → x.reg = 0)
    (ht : ∀ x, l1At t c sec = some x → x.reg = 0) (hw : t.m.wbuf = s.m.wbuf) (words : BitVec 16) :
    ownerBytes t c sec words = ownerBytes s c sec words := by
  have clean : ∀ u : State, (∀ x, l1At u c sec = some x → x.reg = 0) → ownerBytes u c sec words
      = (u.m.wbuf.foldl (fun (a : SectorData) e => if e.core = c ∧ e.sector = sec then
          { mask := a.mask ||| (e.mask &&& wordBytes words), data := secMerge a.data (e.mask &&& wordBytes words) e.data } else a)
          { mask := 0, data := 0 }, 0) := by
    intro u hu
    unfold ownerBytes
    cases hx : l1At u c sec with
    | none => rfl
    | some x => simp [hu x hx, secMerge_zero]
  rw [clean s hs, clean t ht, hw]

/-- What of a sector its core answers reads with. -/
def L1Sec.written (x : L1Sec) : BitVec 128 × BitVec 16 × BitVec 1024 × BitVec 128 := (x.reg, x.held, x.data, x.poison)

theorem ownerBytes_of_written {s t : State} {c sec : Nat}
    (h : (l1At t c sec).map L1Sec.written = (l1At s c sec).map L1Sec.written) (hw : t.m.wbuf = s.m.wbuf) (words : BitVec 16) :
    ownerBytes t c sec words = ownerBytes s c sec words := by
  unfold ownerBytes
  rw [hw]
  cases hs : l1At s c sec with
  | none =>
    rw [hs, Option.map_none, Option.map_eq_none_iff] at h
    rw [h]
  | some x =>
    rw [hs, Option.map_some, Option.map_eq_some_iff] at h
    obtain ⟨y, hy, heq⟩ := h
    simp only [L1Sec.written, Prod.mk.injEq] at heq
    obtain ⟨hreg, hheld, hdata, hpo⟩ := heq
    rw [hy]
    simp only [hreg, hheld, hdata, hpo]

/-- What a read at the home finds depends on the owners, on what they answer, and on the home's copy. -/
theorem cohSector_of_answers {s t : State} {sec : Nat} {me : Option Nat} (hdir : t.m.dir = s.m.dir)
    (hown : ∀ c, some c ≠ me → ∀ words, ownerBytes t c sec words = ownerBytes s c sec words)
    (hd : (homeSector t sec).data = (homeSector s sec).data) (hp : (homeSector t sec).poison = (homeSector s sec).poison) :
    (cohSector t sec me).data = (cohSector s sec me).data ∧ (cohSector t sec me).poison = (cohSector s sec me).poison := by
  unfold cohSector
  rw [ownersOf_congr hdir]
  have hne : ∀ c ∈ ownersOf s sec (BitVec.allOnes 16) me, some c ≠ me := fun c hc => by
    obtain ⟨_, _, _, hne⟩ := mem_ownersOf.mp hc
    exact hne
  generalize ownersOf s sec (BitVec.allOnes 16) me = l at hne
  generalize homeSector t sec = x at hd hp
  generalize homeSector s sec = y at hd hp
  induction l generalizing x y with
  | nil => exact ⟨hd, hp⟩
  | cons c cs ih =>
    rw [List.foldl_cons, List.foldl_cons]
    refine ih (fun c hc => hne c (List.mem_cons_of_mem _ hc)) _ _ ?_ ?_ <;>
      simp only [wordsOwnedBy_congr hdir, hown c (hne c List.mem_cons_self), hd, hp]

/-- A step that changes of the L1 sectors nothing that their cores answer with, and nothing else of what reads find. -/
theorem cohByte_of_written {s t : State} (hdir : t.m.dir = s.m.dir) (hw : t.m.wbuf = s.m.wbuf)
    (h : ∀ c sec, (l1At t c sec).map L1Sec.written = (l1At s c sec).map L1Sec.written)
    (hhome : ∀ sec, homeSector t sec = homeSector s sec) (pa : Nat) : cohByte t pa = cohByte s pa := by
  unfold cohByte
  rw [(cohSector_of_answers hdir (fun c _ => ownerBytes_of_written (h c _) hw) (by rw [hhome]) (by rw [hhome])).1]

theorem homeSector_of_eq {s t : State} (htun : t.tun = s.tun) (hl2 : t.m.l2 = s.m.l2) (hmem : t.m.mem = s.m.mem)
    (hpo : t.m.poison = s.m.poison) (hr : t.m.regions = s.m.regions) (sec : Nat) : homeSector t sec = homeSector s sec := by
  unfold homeSector
  rw [inTable_congr htun, tableSector_congr htun hr, hl2, memSector_congr hmem, memPoison_congr hpo]

/-! ### A home is looked up -/

/-- A lookup of a home: of the machine only the region table, region-home caches and free values change (R70). -/
def Located (s t : State) : Prop := t = { s with free := t.free, m := { s.m with regions := t.m.regions, rhome := t.m.rhome } }

theorem Located.refl (s : State) : Located s s := rfl

theorem Located.trans {s t u : State} (h : Located s t) (h' : Located t u) : Located s u := by
  unfold Located at *; rw [h', h]

theorem located_homeRegion (region home : Nat) (s : State) : Located s (homeRegion region home s) := by
  unfold Located; rw [homeRegion_form]

theorem located_rhomeRoom (core : Nat) (s : State) : Located s (rhomeRoom core s) := by
  unfold rhomeRoom pickOne drawFree Located
  dsimp only
  split
  · rfl
  · split
    · next heq => obtain ⟨-, rfl⟩ := Prod.mk.inj heq; rfl
    · next heq => obtain ⟨-, rfl⟩ := Prod.mk.inj heq; rfl

theorem located_lookupHome (core region : Nat) (s : State) : Located s (lookupHome core region s) := by
  unfold lookupHome
  dsimp only
  split
  · exact .refl s
  · exact ((located_homeRegion _ _ _).trans (located_rhomeRoom _ _)).trans rfl

theorem located_sendHome (core sec : Nat) (s : State) : Located s (sendHome core sec s) := by
  unfold sendHome
  dsimp only
  split
  · exact .refl s
  · exact located_lookupHome _ _ _

theorem located_agentHome (a : Agent) (region : Nat) (s : State) : Located s (agentHome a region s) := by
  unfold agentHome
  split
  · exact .refl s
  · split
    · exact located_lookupHome _ _ _
    · exact located_homeRegion _ _ _

theorem Located.readsKept {s t : State} (h : Located s t) : ReadsKept s t := by
  rw [h]
  exact readsKept_of_l2 ⟨rfl, rfl, rfl⟩ rfl rfl rfl rfl rfl fun _ _ => rfl

end Sys2Proof.Machine
end

section
/-! SUPPORT. Fences, cwb and cinv: what an acquire drops, and what a range's sectors send home; they settle O23 (R65, R67, R136, R137,
R368, R369). -/
namespace Sys2Proof.Machine

/-! ### The acquire's self-invalidation -/

/-- A sector whose words in V are I. -/
def L1Sec.invalidated (x : L1Sec) : L1Sec := { x with valid := x.valid &&& wordBytes x.held, kept := 0 }

/-- The acquire takes nothing that the core answers with. -/
theorem L1Sec.written_invalidated (x : L1Sec) (p : Prop) [Decidable p] : (if p then x.invalidated else x).written = x.written := by
  split <;> rfl

theorem l1At_selfInvalidate (core c sec : Nat) (s : State) : l1At (selfInvalidate core s) c sec
    = (l1At s c sec).map (fun x => if l1Key c sec / 2 ^ 45 = core then x.invalidated else x) := by
  have hmap : (selfInvalidate core s).m.l1
      = s.m.l1.map (fun e => (e.1, if e.1 / 2 ^ 45 = core then e.2.invalidated else e.2)) := by
    unfold selfInvalidate
    refine List.map_congr_left fun e _ => ?_
    split <;> rfl
  unfold l1At
  rw [hmap, amGet?_map]

theorem l1At_selfInvalidate_same {core sec : Nat} {s : State} {x : L1Sec} (hsec : sec < 2 ^ 45) (hx : l1At s core sec = some x) :
    l1At (selfInvalidate core s) core sec = some x.invalidated := by
  have hkey : l1Key core sec / 2 ^ 45 = core := by unfold l1Key; omega
  rw [l1At_selfInvalidate, hx, Option.map_some, if_pos hkey]

theorem written_selfInvalidate (core c sec : Nat) (s : State) :
    (l1At (selfInvalidate core s) c sec).map L1Sec.written = (l1At s c sec).map L1Sec.written := by
  rw [l1At_selfInvalidate, Option.map_map]
  cases l1At s c sec with
  | none => rw [Option.map_none, Option.map_none]
  | some x => rw [Option.map_some, Option.map_some, Function.comp, L1Sec.written_invalidated]

theorem cohByte_selfInvalidate (core pa : Nat) (s : State) : cohByte (selfInvalidate core s) pa = cohByte s pa :=
  cohByte_of_written (s := s) (t := selfInvalidate core s) rfl rfl (fun c sec => written_selfInvalidate core c sec s)
    (homeSector_of_eq rfl rfl rfl rfl rfl) pa

/-! ### Fences -/

/-- A fence that waits for nothing completes, after its acquire. -/
theorem exec_fence {s : State} {kind : BitVec 2} {scope : BitVec 3} (hrel : kind ≠ 0 → releaseWaits s scope.toNat = false)
    (hfill : kind ≠ 1 → decide (2 ≤ scope.toNat) = true → coreFilling s s.g.idn.core = false)
    (hatoms : kind ≠ 1 → 1 ≤ scope.toNat → atomsOut s = false) :
    exec (.fence kind scope) s = .next (retireS (if fenceAcq kind then acquireNow scope.toNat s else s)) := by
  have hx : exec (.fence kind scope) s = execFence kind scope s := rfl
  have h1 : (fenceRel kind && releaseWaits s scope.toNat) = false := by
    by_cases h : kind = 0
    · simp [fenceRel, h]
    · rw [hrel h, Bool.and_false]
  have h2 : (fenceAcq kind && ((acquireWide scope.toNat && coreFilling s s.g.idn.core) || (decide (scope.toNat ≥ 1) && atomsOut s))) = false := by
    by_cases h : kind = 1
    · simp [fenceAcq, h]
    · have hf : (acquireWide scope.toNat && coreFilling s s.g.idn.core) = false := by
        cases hw : acquireWide scope.toNat with
        | false => rfl
        | true => rw [hfill h hw, Bool.and_false]
      have ha : (decide (scope.toNat ≥ 1) && atomsOut s) = false := by
        by_cases hs : 1 ≤ scope.toNat
        · rw [hatoms h hs, Bool.and_false]
        · simp [hs]
      rw [hf, ha, Bool.or_false, Bool.and_false]
  rw [hx, execFence, h1, h2, if_neg (by simp)]

/-! ### What the core writes through -/

/-- A sector after the words named have been written through: those in P or O are in W, and cinv has dropped the others. -/
def L1Sec.wroteThrough (inv : Bool) (words : BitVec 16) (x : L1Sec) : L1Sec :=
  let po := (x.p ||| x.o) &&& words
  let keep := x.w ||| po
  { x with p := x.p &&& ~~~po, o := x.o &&& ~~~po, w := keep,
           valid := if inv then x.valid &&& ~~~wordBytes (words &&& ~~~keep) else x.valid,
           drop := if inv then x.drop ||| (words &&& keep) else x.drop }

/-- Messages go out, and are outstanding: the L1, the agenda and what is outstanding change, and homes are looked up. -/
structure SentStep (s t : State) : Prop where
  form : t = { s with free := t.free, agenda := t.agenda,
                      m := { s.m with l1 := t.m.l1, outs := t.m.outs, regions := t.m.regions, rhome := t.m.rhome } }
  agenda : s.agenda ⊆ t.agenda

theorem SentStep.refl (s : State) : SentStep s s := ⟨rfl, fun _ h => h⟩

theorem SentStep.trans {s t u : State} (h : SentStep s t) (h' : SentStep t u) : SentStep s u :=
  ⟨by rw [h'.form, h.form], fun _ he => h'.agenda (h.agenda he)⟩

theorem Located.sent {s t : State} (h : Located s t) : SentStep s t := by
  have ha : t.agenda = s.agenda := by rw [h]
  exact ⟨by rw [h], fun _ he => ha ▸ he⟩

section
variable (e : Event) (kind : OutKind) (near : Bool) (core sec unit : Nat) (ws : BitVec 16) (x : Nat × State)

theorem sentStep_sendStore : SentStep x.2 (sendStore e kind near core sec unit ws x).2 := by
  have hloc : SentStep x.2 (sendHome core sec x.2) := (located_sendHome core sec x.2).sent
  exact hloc.trans ⟨rfl, fun _ he => List.mem_append_left _ he⟩

theorem sendStore_l1 : (sendStore e kind near core sec unit ws x).2.m.l1 = x.2.m.l1 := by
  have hloc := located_sendHome core sec x.2
  change (sendHome core sec x.2).m.l1 = x.2.m.l1
  rw [hloc]

theorem sendStore_sends : e ∈ (sendStore e kind near core sec unit ws x).2.agenda :=
  List.mem_append_right _ (List.mem_singleton.2 rfl)

end

section
variable (inv : Bool) (unit core sec : Nat) (words : BitVec 16) (x : Nat × State)

/-- The unit awaits what earlier write-throughs of the words have sent. -/
theorem sentStep_awaitW : SentStep x.2 (awaitW core sec unit words x).2 := ⟨rfl, fun _ he => he⟩

/-- A sector that the core does not hold is passed over. -/
theorem cacheOp_of_absent (h : l1At x.2 core sec = none) : cacheOp inv unit core sec words x = x := by
  unfold cacheOp; rw [h]

/-- The message that a sector's words in P and O leave with. -/
def throughEvent (core sec : Nat) (words : BitVec 16) (l : L1Sec) : Event :=
  .wt core sec { mask := l.reg &&& wordBytes ((l.p ||| l.o) &&& words), data := l.data } true false

/-- A sector that the core holds: its words go to W, and leave if bytes of theirs are written. -/
theorem cacheOp_of_held {l : L1Sec} (h : l1At x.2 core sec = some l) :
    cacheOp inv unit core sec words x =
      (let y : Nat × State := (x.1, l1Put core sec (l.wroteThrough inv words) x.2)
       let z := if inv then awaitW core sec unit (words &&& l.w) y else y
       if l.reg &&& wordBytes ((l.p ||| l.o) &&& words) = 0 then z
       else sendStore (throughEvent core sec words l) .wt true core sec unit ((l.p ||| l.o) &&& words) z) := by
  unfold cacheOp
  rw [h]
  rfl

theorem cacheOp_spec {l : L1Sec} (h : l1At x.2 core sec = some l) : let t := (cacheOp inv unit core sec words x).2
    SentStep x.2 t ∧ t.m.l1 = (l1Put core sec (l.wroteThrough inv words) x.2).m.l1
      ∧ (l.reg &&& wordBytes ((l.p ||| l.o) &&& words) ≠ 0 → throughEvent core sec words l ∈ t.agenda) := by
  rw [cacheOp_of_held inv unit core sec words x h]
  extract_lets y z t
  have hy : SentStep x.2 y.2 := ⟨rfl, fun _ he => he⟩
  have hz : SentStep y.2 z.2 ∧ z.2.m.l1 = y.2.m.l1 := by
    unfold z
    split
    · exact ⟨sentStep_awaitW _ _ _ _ _, rfl⟩
    · exact ⟨.refl _, rfl⟩
  obtain ⟨hstep, hl1⟩ := hz
  unfold t
  split
  · next hm => exact ⟨hy.trans hstep, hl1, fun hne => absurd hm hne⟩
  · exact ⟨(hy.trans hstep).trans (sentStep_sendStore ..), (sendStore_l1 ..).trans hl1, fun _ => sendStore_sends ..⟩

theorem sentStep_cacheOp : SentStep x.2 (cacheOp inv unit core sec words x).2 := by
  cases h : l1At x.2 core sec with
  | none => rw [cacheOp_of_absent inv unit core sec words x h]; exact .refl _
  | some l => exact (cacheOp_spec inv unit core sec words x h).1

theorem l1At_cacheOp_other {c k : Nat} (hne : l1Key c k ≠ l1Key core sec) :
    l1At (cacheOp inv unit core sec words x).2 c k = l1At x.2 c k := by
  cases h : l1At x.2 core sec with
  | none => rw [cacheOp_of_absent inv unit core sec words x h]
  | some l =>
    obtain ⟨-, hl1, -⟩ := cacheOp_spec inv unit core sec words x h
    exact (l1At_congr hl1 c k).trans (l1At_l1Put_other _ _ hne)

end

/-! ### A range -/

/-- The sectors listed, each of which the core writes through and cinv drops. -/
def cacheOps (inv : Bool) (unit core lo n : Nat) (l : List (Nat × L1Sec)) (x : Nat × State) : Nat × State :=
  l.foldl (fun x e => cacheOp inv unit core e.1 (wordsIn e.2.vsec lo n) x) x

section
variable (inv : Bool) (unit core lo n : Nat)

theorem sentStep_cacheOps (l : List (Nat × L1Sec)) (x : Nat × State) : SentStep x.2 (cacheOps inv unit core lo n l x).2 := by
  induction l generalizing x with
  | nil => exact .refl _
  | cons e es ih => exact (sentStep_cacheOp ..).trans (ih _)

theorem l1At_cacheOps_other {sec : Nat} {l : List (Nat × L1Sec)} (hsec : sec ∉ l.map Prod.fst) (x : Nat × State) :
    l1At (cacheOps inv unit core lo n l x).2 core sec = l1At x.2 core sec := by
  induction l generalizing x with
  | nil => rfl
  | cons e es ih =>
    rw [List.map_cons, List.mem_cons, not_or] at hsec
    obtain ⟨hne, hes⟩ := hsec
    exact (ih hes _).trans (l1At_cacheOp_other _ _ _ _ _ _ (l1Key_sec_ne core hne))

/-- A sector that is listed once is written through as it stands. -/
theorem l1At_cacheOps_mem {sec : Nat} {e : L1Sec} {l : List (Nat × L1Sec)} (hn : (l.map Prod.fst).Nodup) (hmem : (sec, e) ∈ l)
    {x : Nat × State} {v : L1Sec} (hv : l1At x.2 core sec = some v) : let t := (cacheOps inv unit core lo n l x).2
    l1At t core sec = some (v.wroteThrough inv (wordsIn e.vsec lo n))
      ∧ (v.reg &&& wordBytes ((v.p ||| v.o) &&& wordsIn e.vsec lo n) ≠ 0 → throughEvent core sec (wordsIn e.vsec lo n) v ∈ t.agenda) := by
  induction l generalizing x with
  | nil => exact absurd hmem List.not_mem_nil
  | cons a as ih =>
    rw [List.map_cons, List.nodup_cons] at hn
    obtain ⟨hnot, has⟩ := hn
    rcases List.mem_cons.1 hmem with rfl | hmem
    · obtain ⟨-, hl1, hsent⟩ := cacheOp_spec inv unit core sec (wordsIn e.vsec lo n) x hv
      refine ⟨?_, fun hne => (sentStep_cacheOps inv unit core lo n as _).agenda (hsent hne)⟩
      exact (l1At_cacheOps_other inv unit core lo n hnot _).trans ((l1At_congr hl1 core sec).trans (l1At_l1Put_same _ _ _ _))
    · have hne : sec ≠ a.1 := fun h => hnot (List.mem_map.2 ⟨(sec, e), hmem, h⟩)
      exact ih has hmem ((l1At_cacheOp_other _ _ _ _ _ _ (l1Key_sec_ne core hne)).trans hv)

end

/-- The sectors of the group's context that a range touches, on its core. -/
def rangeSecs (s : State) (lo n : Nat) : List (Nat × L1Sec) :=
  (l1Of s s.g.idn.core).filter (fun e => e.2.ctx == s.g.idn.ctx && wordsIn e.2.vsec lo n != 0)

/-- A range whose addresses are canonical is written through, sector by sector. -/
theorem cacheRange_of_canonical {inv : Bool} {a b : SReg} {s : State} (hn : 0 < (rS s b).toNat)
    (hlast : (rS s a).toNat + (rS s b).toNat - 1 < 2 ^ 64) (hlo : canonical (BitVec.ofNat 64 (rS s a).toNat) = true)
    (hhi : canonical (BitVec.ofNat 64 ((rS s a).toNat + (rS s b).toNat - 1)) = true) (hst : s.g.n.sts.length < 63) :
    cacheRange inv a b s =
      .next (retireS (addUnit s.tick (cacheOps inv s.tick s.g.idn.core (rS s a).toNat (rS s b).toNat
          (rangeSecs s (rS s a).toNat (rS s b).toNat) (0, s)).1
        (cacheOps inv s.tick s.g.idn.core (rS s a).toNat (rS s b).toNat (rangeSecs s (rS s a).toNat (rS s b).toNat) (0, s)).2)) := by
  unfold cacheRange
  dsimp only
  rw [if_neg (by omega), if_neg, if_neg (by omega)]
  · rfl
  · simp only [w64, hlo, hhi]
    simp only [Bool.not_true, Bool.false_eq_true, or_false]
    omega

/-- What the words of a range become: those in W stay there, and cinv drops the rest. -/
theorem L1Sec.wroteThrough_p (inv : Bool) (words : BitVec 16) (x : L1Sec) :
    (x.wroteThrough inv words).p = x.p &&& ~~~words ∧ (x.wroteThrough inv words).o = x.o &&& ~~~words := by
  constructor <;>
  · apply BitVec.eq_of_getLsbD_eq
    intro i hi
    simp only [L1Sec.wroteThrough, BitVec.getLsbD_and, BitVec.getLsbD_not, BitVec.getLsbD_or, hi, decide_true, Bool.true_and]
    cases x.p.getLsbD i <;> cases x.o.getLsbD i <;> rfl

/-- A sector that the range does not touch stays as it is, and sends nothing. -/
theorem L1Sec.wroteThrough_zero (inv : Bool) (x : L1Sec) : x.wroteThrough inv 0#16 = x ∧ x.reg &&& wordBytes ((x.p ||| x.o) &&& 0#16) = 0 := by
  have hz : wordBytes 0#16 = 0#128 := by decide
  have hall : ∀ w (y : BitVec w), y &&& ~~~0#w = y := fun w y => by rw [BitVec.not_zero, BitVec.and_allOnes]
  refine ⟨?_, by simp [hz]⟩
  cases inv <;> simp only [L1Sec.wroteThrough, BitVec.and_zero, BitVec.zero_and, BitVec.or_zero, hz, hall, if_true, Bool.false_eq_true, if_false]

theorem cacheRange_spec {inv : Bool} {a b : SReg} {s : State} (hn : 0 < (rS s b).toNat)
    (hlast : (rS s a).toNat + (rS s b).toNat - 1 < 2 ^ 64) (hlo : canonical (BitVec.ofNat 64 (rS s a).toNat) = true)
    (hhi : canonical (BitVec.ofNat 64 ((rS s a).toNat + (rS s b).toNat - 1)) = true) (hst : s.g.n.sts.length < 63)
    (hsorted : amSorted 0 s.m.l1 = true) :
    ∃ t, cacheRange inv a b s = .next t ∧ t.g.pc = nextPc s ∧ regsKept s t ∧ t.m.l2 = s.m.l2 ∧ t.m.mem = s.m.mem
      ∧ ∀ sec x, sec < 2 ^ 45 → l1At s s.g.idn.core sec = some x → x.ctx = s.g.idn.ctx →
        let ws := wordsIn x.vsec (rS s a).toNat (rS s b).toNat
        l1At t s.g.idn.core sec = some (x.wroteThrough inv ws)
          ∧ (x.reg &&& wordBytes ((x.p ||| x.o) &&& ws) ≠ 0 → throughEvent s.g.idn.core sec ws x ∈ t.agenda) := by
  set r := cacheOps inv s.tick s.g.idn.core (rS s a).toNat (rS s b).toNat (rangeSecs s (rS s a).toNat (rS s b).toNat) (0, s) with hr
  have hstep : SentStep s r.2 := sentStep_cacheOps inv s.tick s.g.idn.core (rS s a).toNat (rS s b).toNat _ (0, s)
  refine ⟨_, cacheRange_of_canonical hn hlast hlo hhi hst, ?_, ?_, ?_, ?_, fun sec x hsec hx hctx => ?_⟩
  · change nextPc r.2 = nextPc s
    rw [hstep.form]; rfl
  · refine regsKept_trans (regsKept_of_g (t := r.2) (by rw [hstep.form])) (regsKept_trans ?_ (retireTo_regsKept _ _ _))
    exact regsKept_of_regs rfl
  · change r.2.m.l2 = s.m.l2
    rw [hstep.form]
  · change r.2.m.mem = s.m.mem
    rw [hstep.form]
  · change l1At r.2 s.g.idn.core sec = _ ∧ (_ → _ ∈ r.2.agenda)
    have hmem : (sec, x) ∈ l1Of s s.g.idn.core := mem_l1Of.2 ⟨hsec, mem_of_amGet? hx⟩
    have hnodup := l1Of_nodup hsorted s.g.idn.core
    have hsub : List.Sublist ((rangeSecs s (rS s a).toNat (rS s b).toNat).map Prod.fst) ((l1Of s s.g.idn.core).map Prod.fst) :=
      List.filter_sublist.map _
    by_cases hws : wordsIn x.vsec (rS s a).toNat (rS s b).toNat = 0#16
    · have hnot : sec ∉ (rangeSecs s (rS s a).toNat (rS s b).toNat).map Prod.fst := by
        intro hin
        obtain ⟨⟨sec', y⟩, hy, rfl⟩ := List.mem_map.1 hin
        obtain ⟨hy, hp⟩ := List.mem_filter.1 hy
        have hxy : some x = some y := hx.symm.trans (amGet?_of_mem (keys_of_amSorted hsorted).1 (mem_l1Of.1 hy).2)
        cases hxy
        simp [hws] at hp
      obtain ⟨hsame, hnone⟩ := L1Sec.wroteThrough_zero inv x
      rw [hws, hsame, hr]
      exact ⟨(l1At_cacheOps_other inv s.tick s.g.idn.core (rS s a).toNat (rS s b).toNat hnot _).trans hx, fun hne => absurd hnone hne⟩
    · refine l1At_cacheOps_mem inv s.tick s.g.idn.core (rS s a).toNat (rS s b).toNat (hnodup.sublist hsub) ?_ hx
      exact List.mem_filter.2 ⟨hmem, by simp [hctx, hws]⟩

/-- Settles O23: a fence is its acquire, and a range is its sectors written through. -/
theorem fenceAndCacheResult : Obligations.FenceAndCacheResult := by
  unfold Obligations.FenceAndCacheResult
  refine ⟨?_, ?_⟩
  · intro s kind scope core wide hrel hfill hatoms
    refine ⟨_, exec_fence hrel hfill hatoms, ?_⟩
    by_cases hacq : fenceAcq kind = true ∧ acquireWide scope.toNat = true
    · obtain ⟨hk, hw⟩ := hacq
      rw [if_pos hk, acquireNow, if_pos hw]
      refine ⟨rfl, regsKept_trans (regsKept_of_g rfl) (retireTo_regsKept _ _ _), rfl, fun pa => ?_, fun hno => ?_, fun _ _ sec x hsec hx => ?_⟩
      · exact cohByte_selfInvalidate _ _ _
      · rcases hno with rfl | hno
        · exact absurd hk (by decide)
        · exact absurd (hw.symm.trans hno) (by decide)
      · exact l1At_selfInvalidate_same hsec hx
    · have hnone : (if fenceAcq kind then acquireNow scope.toNat s else s) = s := by
        split
        · next hk => rw [acquireNow, if_neg (fun hw => hacq ⟨hk, hw⟩)]
        · rfl
      rw [hnone]
      have hc := retireS_completes s
      refine ⟨rfl, retireTo_regsKept _ _ _, rfl, fun _ => rfl, fun _ => ⟨hc, completes_memKept hc⟩, fun hk hw => absurd ⟨?_, hw⟩ hacq⟩
      simpa [fenceAcq] using hk
  · intro s a b lo n core p hp
    obtain ⟨inv, hexec⟩ : ∃ inv, exec p.1 s = cacheRange inv a b s ∧ p.2 = inv := by
      simp only [List.mem_cons, List.mem_nil_iff, or_false] at hp
      rcases hp with rfl | rfl
      · exact ⟨false, rfl, rfl⟩
      · exact ⟨true, rfl, rfl⟩
    obtain ⟨hexec, hinv⟩ := hexec
    rw [hexec, hinv]
    refine ⟨fun hn => ?_, fun hn hlast hlo hhi hst hsorted => ?_⟩
    · have hc := retireS_completes s
      refine ⟨retireS s, ?_, rfl, retireTo_regsKept _ _ _, completes_memKept hc, rfl⟩
      unfold cacheRange
      exact if_pos hn
    · obtain ⟨t, ht, hpc, hregs, hl2, hmem, hsecs⟩ := cacheRange_spec (inv := inv) hn hlast hlo hhi hst hsorted
      refine ⟨t, ht, hpc, hregs, hl2, hmem, ?_⟩
      intro sec x hsec hx hctx ws
      obtain ⟨hl1, hsent⟩ := hsecs sec x hsec hx hctx
      obtain ⟨hp, ho⟩ := L1Sec.wroteThrough_p inv ws x
      exact ⟨_, hl1, hp, ho, rfl, rfl, rfl, rfl, rfl, hsent⟩

end Sys2Proof.Machine
end

section
/-! SUPPORT. Walks and translations that mark nothing: what they leave, and room at a home after them (R10, R13, R29, R53, R70, R75). -/
namespace Sys2Proof.Machine

/-! ### Room by lines -/

theorem nodup_eraseDups {α : Type} [BEq α] [LawfulBEq α] : ∀ l : List α, l.eraseDups.Nodup
  | [] => List.nodup_nil
  | a :: as => by
    rw [List.eraseDups_cons, List.nodup_cons]
    refine ⟨fun h => ?_, nodup_eraseDups _⟩
    rw [List.mem_eraseDups, List.mem_filter] at h
    simp at h
termination_by l => l.length
decreasing_by exact Nat.lt_succ_of_le (List.length_filter_le _ _)

/-- The lines that lie in the set of a sector: those of L2 sectors and of host lines (R53, R74). -/
def setLines (s : State) (sec : Nat) : List Nat :=
  ((s.m.l2.map Prod.fst).filter (fun k => l2Set k == l2Set sec)).map (fun k => k / 8)
    ++ ((s.m.hlines.map Prod.fst).filter (fun k => l2Set (k / 2) == l2Set sec)).map (fun k => k / 2 / 8)

/-- The home holds the sector, or fewer than 16 lines lie in its set: less than `homeRoom` asks, and kept by a walk. -/
def lineRoom (s : State) (sec : Nat) : Prop :=
  (amGet? s.m.l2 sec).isSome = true ∨ (setLines s sec).toFinset.card < 16

theorem lineRoom_of_homeRoom {s : State} {sec : Nat} (h : homeRoom s sec) : lineRoom s sec := by
  refine h.imp id fun h => Nat.lt_of_le_of_lt (List.toFinset_card_le _) ?_
  simpa [setLines, List.filter_map, Function.comp_def] using h

theorem mem_l2Near_line {s : State} {sec : Nat} {e : Nat × Nat} (h : e ∈ l2Near s sec) : e.1 / 8 ∈ setLines s sec := by
  unfold l2Near at h
  dsimp only at h
  split at h
  · exact absurd h List.not_mem_nil
  · simp only [List.mem_filter, List.mem_append, List.mem_map] at h
    obtain ⟨⟨p, ⟨hp, hset⟩, rfl⟩ | ⟨p, ⟨hp, hset⟩, rfl⟩, -⟩ := h
    · refine List.mem_append_left _ (List.mem_map.2 ⟨p.1, List.mem_filter.2 ⟨List.mem_map_of_mem hp, hset⟩, rfl⟩)
    · refine List.mem_append_right _ (List.mem_map.2 ⟨p.1, List.mem_filter.2 ⟨List.mem_map_of_mem hp, hset⟩, rfl⟩)

theorem l2Room_of_lineRoom {s : State} {sec : Nat} (h : lineRoom s sec) : l2Room sec s = s := by
  rcases h with h | h
  · exact l2Room_of_homeRoom (.inl h)
  · have hlen : ((l2Near s sec).map (fun e => e.1 / 8)).eraseDups.length < 16 := by
      rw [← List.toFinset_card_of_nodup (nodup_eraseDups _)]
      refine Nat.lt_of_le_of_lt (Finset.card_le_card fun l hl => ?_) h
      rw [List.mem_toFinset, List.mem_eraseDups, List.mem_map] at hl
      obtain ⟨e, he, rfl⟩ := hl
      exact List.mem_toFinset.2 (mem_l2Near_line he)
    unfold l2Room
    dsimp only
    exact if_pos (Bool.or_eq_true_iff.2 (.inl (decide_eq_true hlen)))

/-! ### The L2 after reads -/

theorem mem_keys_amPut {α : Type} {m : List (Nat × α)} {i k : Nat} {v : α} :
    k ∈ (amPut m i v).map Prod.fst ↔ k = i ∨ k ∈ m.map Prod.fst := by
  induction m with
  | nil => simp [amPut]
  | cons e t ih =>
    obtain ⟨j, u⟩ := e
    rw [amPut]
    split
    · simp
    · split
      · next h => subst h; simp
      · simp only [List.map_cons, List.mem_cons, ih]
        tauto

/-- Reads have touched an L2: it lists the same sectors with the same bytes and marks. -/
structure L2Touched (a b : AMap L2Sec) : Prop where
  content : ∀ sec, (amGet? b sec).map (fun x => (x.data, x.poison)) = (amGet? a sec).map (fun x => (x.data, x.poison))
  keys : ∀ k, k ∈ b.map Prod.fst ↔ k ∈ a.map Prod.fst

theorem L2Touched.refl (a : AMap L2Sec) : L2Touched a a := ⟨fun _ => rfl, fun _ => .rfl⟩

theorem L2Touched.trans {a b c : AMap L2Sec} (h : L2Touched a b) (h' : L2Touched b c) : L2Touched a c :=
  ⟨fun sec => (h'.content sec).trans (h.content sec), fun k => (h'.keys k).trans (h.keys k)⟩

theorem l2Touched_homeTouch (sec : Nat) (s : State) : L2Touched s.m.l2 (homeTouch sec s).m.l2 := by
  refine ⟨fun k => ?_, fun k => ?_⟩
  · by_cases h : k = sec
    · subst h
      simp only [homeTouch, amGet?_amMod_same, Option.map_map]
      rfl
    · simp only [homeTouch, amGet?_amMod_other _ _ _ _ h]
  · change k ∈ (amMod s.m.l2 sec _).map Prod.fst ↔ _
    unfold amMod
    split
    · next x hx =>
      rw [mem_keys_amPut]
      exact or_iff_right_of_imp fun hk => hk ▸ List.mem_map_of_mem (f := Prod.fst) (mem_of_amGet? hx)
    · rfl

/-! ### Walks that mark nothing -/

/-- A walk and what a translation keeps of it, without marks in the table: sectors are used last, homes looked up, filter entries shared,
TLBs filled. -/
structure WalkStep (s t : State) : Prop where
  form : t = { s with free := t.free, m := { s.m with l2 := t.m.l2, hfilt := t.m.hfilt, regions := t.m.regions, rhome := t.m.rhome,
                                                      hashed := t.m.hashed, tlb := t.m.tlb, tlb1 := t.m.tlb1 } }
  l2 : L2Touched s.m.l2 t.m.l2

theorem WalkStep.refl (s : State) : WalkStep s s := ⟨rfl, .refl _⟩

theorem WalkStep.trans {s t u : State} (h : WalkStep s t) (h' : WalkStep t u) : WalkStep s u :=
  ⟨by rw [h'.form, h.form], h.l2.trans h'.l2⟩

theorem WalkStep.foldl {α : Type} {f : State → α → State} (hf : ∀ s x, WalkStep s (f s x)) (l : List α) (s : State) :
    WalkStep s (l.foldl f s) := by
  induction l generalizing s with
  | nil => exact .refl s
  | cons x xs ih => exact (hf s x).trans (ih _)

theorem Located.walkStep {s t : State} (h : Located s t) : WalkStep s t := by
  have hl2 : t.m.l2 = s.m.l2 := by rw [h]
  exact ⟨by rw [h], hl2 ▸ .refl _⟩

theorem walkStep_homeTouch (sec : Nat) (s : State) : WalkStep s (homeTouch sec s) := ⟨rfl, l2Touched_homeTouch sec s⟩

theorem walkStep_snoopNow (line : Nat) (write : Bool) (s : State) : WalkStep s (snoopNow line write s) := by
  unfold snoopNow
  split
  · exact ⟨rfl, .refl _⟩
  · exact .refl s

theorem walkStep_snoopSec (sec : Nat) (write : Bool) (s : State) : WalkStep s (snoopSec sec write s) :=
  (walkStep_snoopNow _ _ _).trans (walkStep_snoopNow _ _ _)

theorem walkStep_walkTouch (a : Agent) (va : Nat) (s : State) : WalkStep s (walkTouch a va s) := by
  unfold walkTouch
  split
  · exact .foldl (fun u l => ((located_agentHome a (regionOf (64 * l)) u).walkStep.trans (walkStep_snoopNow _ _ _)).trans
      (walkStep_homeTouch _ _)) _ _
  · exact .refl s

theorem walkStep_walkSnoops (a : Agent) (va acc : Nat) (s : State) : WalkStep s (walkSnoops a va acc s) := by
  have h : walkSnoops a va acc s = walkTouch a va s ∨ walkSnoops a va acc s = s := ite_eq_or_eq _ _ _
  rcases h with h | h <;> rw [h]
  · exact walkStep_walkTouch a va s
  · exact .refl s

theorem walkStep_walkFault (a : Agent) (va acc code : Nat) (s : State) : WalkStep s (walkFault a va acc code s) := by
  unfold walkFault
  split
  · exact walkStep_walkSnoops a va acc s
  · exact .refl s

theorem walkStep_of_pickOne {α : Type} {l : List α} {o : Option α} {s t : State} (h : pickOne l s = (o, t)) : WalkStep s t := by
  obtain ⟨-, rfl⟩ := Prod.mk.inj h
  exact ⟨rfl, .refl _⟩

theorem walkStep_tlb (l : List TlbEnt) (s : State) : WalkStep s { s with m := { s.m with tlb := l } } := ⟨rfl, .refl _⟩

theorem walkStep_tlb1 (l : List Tlb1Ent) (s : State) : WalkStep s { s with m := { s.m with tlb1 := l } } := ⟨rfl, .refl _⟩

theorem walkStep_tlbRoom (cl vp : Nat) (s : State) : WalkStep s (tlbRoom cl vp s) := by
  unfold tlbRoom
  dsimp only
  split
  · exact .refl s
  · split
    · next heq => exact (walkStep_of_pickOne heq).trans ⟨rfl, .refl _⟩
    · next heq => exact walkStep_of_pickOne heq

theorem walkStep_tlb1Room (core : Nat) (s : State) : WalkStep s (tlb1Room core s) := by
  unfold tlb1Room
  dsimp only
  split
  · exact .refl s
  · split
    · next heq => exact (walkStep_of_pickOne heq).trans ⟨rfl, .refl _⟩
    · next heq => exact walkStep_of_pickOne heq

/-- A leaf that has the marks of the access is used without a write to its entry (R13). -/
theorem walkStep_useXlate {a : Agent} {va acc : Nat} {x : Xl} (hmark : marked acc x.leaf = x.leaf) (s : State) :
    WalkStep s (useXlate a va acc x s) := by
  have hleaf : markLeaf acc x (walkSnoops a va acc s) = (x.leaf, walkSnoops a va acc s) := if_pos hmark
  have hroom : ∀ l, WalkStep s (tlbRoom a.cluster (vpage x.level va)
      { walkSnoops a va acc s with m := { (walkSnoops a va acc s).m with tlb := l } }) := fun l =>
    ((walkStep_walkSnoops a va acc s).trans (walkStep_tlb l _)).trans (walkStep_tlbRoom _ _ _)
  unfold useXlate
  rw [hleaf]
  dsimp only
  split
  · exact hroom _
  · exact ((hroom _).trans (walkStep_tlb1 _ _)).trans (walkStep_tlb1Room _ _)

theorem walkStep_noteHome (region : Nat) (h : Bool) (s : State) : WalkStep s (noteHome region h s) := by
  unfold noteHome
  split
  · exact .refl s
  · exact ⟨rfl, .refl _⟩

/-- The use of a segment whose leaf has the marks of the access. -/
theorem walkStep_useSeg {a : Agent} {acc : Nat} {g : Seg} (hmark : g.hit = true ∨ marked acc g.x.leaf = g.x.leaf) (s : State) :
    WalkStep s (useSeg a acc g s) := by
  unfold useSeg
  split
  · exact .refl s
  · next hhit =>
    have hx : WalkStep s (useXlate a g.va acc g.x s) := walkStep_useXlate (hmark.resolve_left hhit) s
    dsimp only
    split
    · exact hx
    · exact (hx.trans (walkStep_noteHome _ _ _)).trans (located_agentHome _ _ _).walkStep

section
variable {s t : State} (h : WalkStep s t)
include h

theorem WalkStep.g : t.g = s.g := by rw [h.form]
theorem WalkStep.agenda : t.agenda = s.agenda := by rw [h.form]
theorem WalkStep.fills : t.m.fills = s.m.fills := by rw [h.form]
theorem WalkStep.d : t.d = s.d := by rw [h.form]

theorem WalkStep.stillAtIssue : StillAtIssue s t := stillAtIssue_of_g h.g (by rw [h.form])

theorem WalkStep.readsKept : ReadsKept s t :=
  readsKept_of_l2 ⟨by rw [h.form], by rw [h.form], by rw [h.form]⟩ (by rw [h.form]) (by rw [h.form]) (by rw [h.form]) (by rw [h.form])
    (by rw [h.form]) fun sec _ => h.l2.content sec

theorem WalkStep.lineRoom {sec : Nat} (hroom : lineRoom s sec) : lineRoom t sec := by
  refine hroom.imp (fun hs => ?_) fun hcard => ?_
  · have hc := congrArg Option.isSome (h.l2.content sec)
    rwa [Option.isSome_map, Option.isSome_map, hs] at hc
  · have hh : t.m.hlines = s.m.hlines := by rw [h.form]
    have hset : (setLines t sec).toFinset = (setLines s sec).toFinset := by
      ext l
      simp only [setLines, List.mem_toFinset, List.mem_append, List.mem_map (f := fun (k : Nat) => k / 8), List.mem_filter, h.l2.keys, hh]
    rwa [hset]

end

end Sys2Proof.Machine
end

section
/-! SUPPORT. slit, and prefetches by what becomes of their address; they settle O22 (R75, R80, R280, R356, R367). -/
namespace Sys2Proof.Machine

/-! ### slit -/

section
variable {s : State} {d : SReg} {o : POff} (hcan : canonical (vaOf s.g.pc + poff o) = true) (halign : (vaOf s.g.pc + poff o).toNat % 8 = 0)
  (hsnoop : codeSnoops s (agentOf s s.g) (vaOf s.g.pc + poff o).toNat 8 = [])
include hcan halign hsnoop

theorem exec_slit : exec (.slit d o) s = match codeRead s (agentOf s s.g) (vaOf s.g.pc + poff o).toNat 8 with
    | .error e => .next (if e.1.code = fECCU then retireS (notePoison (vaOf s.g.pc + poff o).toNat 3 s)
        else raiseW (fetchFlt e) (fltWalk (fetchFlt e) s))
    | .ok (v, s') => .next (retireS (wS s' d (w64 v))) := by
  have hx : exec (.slit d o) s = execSlit d o s := rfl
  have hva : canonical (w64 (vaOf s.g.pc + poff o).toNat) = true := by rw [w64, BitVec.ofNat_toNat, BitVec.setWidth_eq, hcan]
  simp only [hx, execSlit, hva, halign, hsnoop, Bool.not_true, Bool.false_eq_true, if_false, ne_eq, not_true_eq_false] <;> rfl

theorem exec_slit_ok {v : Nat} {u : State} (h : codeRead s (agentOf s s.g) (vaOf s.g.pc + poff o).toNat 8 = .ok (v, u)) :
    exec (.slit d o) s = scalarOut d (w64 v) u := by
  rw [exec_slit hcan halign hsnoop, h] <;> rfl

theorem exec_slit_poisoned {e : AFlt × Nat} (h : codeRead s (agentOf s s.g) (vaOf s.g.pc + poff o).toNat 8 = .error e)
    (he : e.1.code = fECCU) : exec (.slit d o) s = .next (retireS (notePoison (vaOf s.g.pc + poff o).toNat 3 s)) := by
  rw [exec_slit hcan halign hsnoop, h]
  dsimp only
  rw [if_pos he]

end

/-! ### Prefetches: the group stands -/

theorem homeStep_noteHome (region : Nat) (h : Bool) (s : State) : HomeStep Woken s (noteHome region h s) := by
  unfold noteHome
  split <;> exact .same rfl

theorem homeStep_useSeg (a : Agent) (acc : Nat) (g : Seg) (s : State) : HomeStep Woken s (useSeg a acc g s) := by
  unfold useSeg
  split
  · exact .same rfl
  · dsimp only
    split
    · exact homeStep_useXlate a g.va acc g.x s
    · exact ((homeStep_useXlate a g.va acc g.x s).trans (homeStep_noteHome _ _ _)).trans (homeStep_agentHome _ _ _)

theorem pfOne_still (l2 : Bool) (va : Nat) (s : State) : StillAtIssue s (pfOne l2 va s) := by
  unfold pfOne
  extract_lets a
  split
  · exact .refl s
  · split
    · exact (walkStep_walkFault _ _ _ _ _).stillAtIssue
    · next g _ =>
      split
      · exact .refl s
      · extract_lets t core sec
        have ht : HomeStep Woken s t := homeStep_useSeg a 0 g s
        split
        · exact ((ht.trans (homeStep_snoopSec _ _ _)).trans (homeStep_homeAlloc _ _)).stillAtIssue
        · split
          · exact ht.stillAtIssue
          · exact ht.stillAtIssue.trans (stillAtIssue_of_g rfl rfl)

theorem pfLanes_still (l2 : Bool) (f : State → Nat → Nat) (ls : List Nat) (s : State) :
    StillAtIssue s (ls.foldl (fun s l => pfOne l2 (f s l) s) s) := by
  induction ls generalizing s with
  | nil => exact .refl s
  | cons l ls ih => exact (pfOne_still l2 (f s l) s).trans (ih _)

/-- An instruction that completes at the same place with the same registers. -/
theorem retire_still {s t : State} (h : StillAtIssue s t) (act : Word32) : (retire act t).g.pc = nextPc s ∧ regsKept s (retire act t) :=
  ⟨h.nextPc, regsKept_trans h.regs (retireTo_regsKept _ _ _)⟩

theorem exec_pf {s : State} {l2 lanes : Bool} {a : VReg} {k : KReg} {off : BitVec 21} (hname : lanes = true → canName s [a]) :
    ∃ t, exec (.pf l2 lanes a k off) s = .next t ∧ t.g.pc = nextPc s ∧ regsKept s t := by
  have hx : exec (.pf l2 lanes a k off) s = execPf l2 lanes a k off s := rfl
  rw [hx]
  cases lanes with
  | true => exact ⟨_, (if_pos rfl).trans (withRegs_of_canName (hname rfl) _), retire_still (pfLanes_still l2 _ _ s) _⟩
  | false => exact ⟨_, rfl, retire_still (pfOne_still l2 _ s) _⟩

theorem exec_pf_scalar (s : State) (l2 : Bool) (a : VReg) (k : KReg) (off : BitVec 21) :
    exec (.pf l2 false a k off) s = .next (retireS (pfOne l2 (rS s (sOf a) + off.signExtend 64).toNat s)) := rfl

/-! ### Prefetches: the address -/

theorem pfOne_of_not_canonical {s : State} {va : Nat} (l2 : Bool) (h : canonical (BitVec.ofNat 64 va) = false) : pfOne l2 va s = s := by
  have h : canonical (w64 va) = false := h
  simp [pfOne, h]

/-- Whatever would fault is dropped, but for the walk. -/
theorem pfOne_of_error {s : State} {va : Nat} {e : AFlt} (l2 : Bool)
    (h : segOf s (agentOf s s.g) 0 (va / 128 * 128) 128 = .error e) : WalkStep s (pfOne l2 va s) := by
  unfold pfOne
  dsimp only
  rw [h]
  split
  · exact .refl s
  · exact walkStep_walkFault _ _ _ _ _

theorem memKeptOut_retireS {s t : State} (h : memKeptOut s t) : memKeptOut s (retireS t) := h

/-- An allocation after a walk lists the sector. -/
theorem homeAlloc_after_walk {s u : State} {sec : Nat} (h : WalkStep s u) (hroom : homeRoom s sec) (htab : inTable s (2 * sec) = false) :
    memKeptOut s (homeAlloc sec u) ∧ (amGet? (homeAlloc sec u).m.l2 sec).isSome = true := by
  have hl2 : l2Room sec u = u := l2Room_of_lineRoom (h.lineRoom (lineRoom_of_homeRoom hroom))
  refine ⟨(h.readsKept.trans (readsKept_homeAlloc_of_l2Room hl2)).memKeptOut, ?_⟩
  unfold homeAlloc
  rw [if_neg (by simp [inTable_congr h.readsKept.tun, htab])]
  split <;> exact congrArg Option.isSome (amGet?_amPut_same _ _ _)

/-- The fill that a prefetch asks for. -/
def prefetchFill (va : Nat) (g : Seg) (s : State) : FillPend :=
  FillPend.mk s.g.idn.core (g.pa / 128) (freshSec s s.g.idn.core s.g.idn.ctx va g.x.leaf) false 0 0 0 0 0 0 true

/-- A prefetch that misses in the L1. -/
structure Prefetched (s : State) (va : Nat) (g : Seg) : Prop where
  canonical : canonical (BitVec.ofNat 64 va) = true
  seg : segOf s (agentOf s s.g) 0 (va / 128 * 128) 128 = .ok g
  miss : g.hit = false
  device : leafKind g.x.leaf < 2
  marked : setA g.x.leaf = g.x.leaf

section
variable {s : State} {va : Nat} {g : Seg} (h : Prefetched s va g)
include h

theorem Prefetched.used : WalkStep s (useSeg (agentOf s s.g) 0 g s) :=
  walkStep_useSeg (acc := 0) (.inr h.marked) s

theorem Prefetched.dropped : (g.hit || decide (leafKind g.x.leaf ≥ 2)) = false := by
  have hd := h.device
  rw [h.miss, Bool.false_or, decide_eq_false_iff_not]
  omega

/-- The segment is used, and then the sector is allocated at its home, or asked of it. -/
theorem pfOne_of_miss (l2 : Bool) {u : State} (hu : useSeg (agentOf s s.g) 0 g s = u) :
    pfOne l2 va s = if l2 then homeAlloc (g.pa / 128) (snoopSec (g.pa / 128) false u)
      else if fillPending u u.g.idn.core (g.pa / 128) then u
      else due (.rds u.g.idn.core (g.pa / 128) false) { u with m := { u.m with fills := u.m.fills ++ [prefetchFill va g u] } } := by
  have hc : Machine.canonical (w64 va) = true := h.canonical
  unfold pfOne
  simp only [hc, h.seg, h.dropped, hu, Bool.not_true, Bool.false_eq_true, if_false] <;> rfl

/-- To the L1: the home is asked for the sector. -/
theorem pfOne_l1 {u : State} (hu : useSeg (agentOf s s.g) 0 g s = u) (hfill : fillPending s s.g.idn.core (g.pa / 128) = false) :
    pfOne false va s = due (.rds s.g.idn.core (g.pa / 128) false) { u with m := { u.m with fills := u.m.fills ++ [prefetchFill va g u] } } := by
  have hused := hu ▸ h.used
  have hg : u.g.idn.core = s.g.idn.core := by rw [hused.g]
  have hfill' : fillPending u s.g.idn.core (g.pa / 128) = false := by
    unfold fillPending at hfill ⊢; rw [hused.fills, hfill]
  rw [pfOne_of_miss h false hu, hg, hfill', if_neg (by simp), if_neg (by simp)]

theorem pf_fills (hfill : fillPending s s.g.idn.core (g.pa / 128) = false) : let t := retireS (pfOne false va s)
    memKeptOut s t ∧ t.agenda = s.agenda ++ [.rds s.g.idn.core (g.pa / 128) false] ∧ fillPending t s.g.idn.core (g.pa / 128) = true := by
  obtain ⟨u, hu⟩ : ∃ u, useSeg (agentOf s s.g) 0 g s = u := ⟨_, rfl⟩
  have hused := hu ▸ h.used
  rw [pfOne_l1 h hu hfill]
  refine ⟨memKeptOut_retireS ?_, congrArg (fun l => l ++ [_]) hused.agenda, ?_⟩
  · exact (hused.readsKept.trans (readsKept_of_l2 ⟨rfl, rfl, rfl⟩ rfl rfl rfl rfl rfl fun _ _ => rfl)).memKeptOut
  · change (u.m.fills ++ [prefetchFill va g u]).any _ = true
    rw [List.any_append, Bool.or_eq_true]
    exact .inr (by simp [prefetchFill, hused.g])

theorem pf_allocates (hroom : homeRoom s (g.pa / 128)) (htab : inTable s (2 * (g.pa / 128)) = false) :
    let t := retireS (pfOne true va s)
    memKeptOut s t ∧ (amGet? t.m.l2 (g.pa / 128)).isSome = true := by
  rw [pfOne_of_miss h true rfl, if_pos rfl]
  obtain ⟨hmem, hsome⟩ := homeAlloc_after_walk (h.used.trans (walkStep_snoopSec _ _ _)) hroom htab
  exact ⟨memKeptOut_retireS hmem, hsome⟩

end

/-- Settles O22: slit is a read of code and its write, and a prefetch is one of its outcomes. -/
theorem codeReadAndPrefetchResult : Obligations.CodeReadAndPrefetchResult := by
  unfold Obligations.CodeReadAndPrefetchResult
  refine ⟨?_, ?_⟩
  · intro s u d o v va hcan halign hsnoop
    have hva : va = vaOf s.g.pc + poff o := by cases o <;> rfl
    rw [hva] at hcan halign hsnoop ⊢
    refine ⟨fun hread => ?_, fun e hread he => ?_⟩
    · obtain ⟨t, ht, hc, hr, ho⟩ := scalarOut_spec d (w64 v) u
      exact ⟨t, (exec_slit_ok hcan halign hsnoop hread).trans ht, hc, hr, ho⟩
    · obtain ⟨hpc, hregs, -, -, heccu⟩ := retireS_notePoison (vaOf s.g.pc + poff o).toNat 3 s
      obtain ⟨-, -, -, -, hmem⟩ := notePoison_spec (vaOf s.g.pc + poff o).toNat 3 s
      exact ⟨_, exec_slit_poisoned hcan halign hsnoop hread he, hpc, hregs,
        memKept_trans hmem (completes_memKept (retireS_completes _)), heccu⟩
  · intro s l2 lanes a k off g va core seg
    refine ⟨exec_pf, fun hcan => ?_, fun e hseg => ?_, fun hcan hseg hmiss hkind hmark hfill hroom => ?_⟩
    · have hc := retireS_completes s
      refine ⟨retireS s, ?_, hc, retireTo_regsKept _ _ _, completes_memKept hc⟩
      rw [exec_pf_scalar, pfOne_of_not_canonical l2 hcan]
    · have hwalk := pfOne_of_error l2 hseg
      exact ⟨_, exec_pf_scalar s l2 a k off, (retire_still hwalk.stillAtIssue _).2, hwalk.readsKept.memKeptOut, hwalk.agenda, hwalk.fills⟩
    · have hpf : Prefetched s va g := ⟨hcan, hseg, hmiss, hkind, hmark⟩
      refine ⟨⟨_, exec_pf_scalar s false a k off, pf_fills hpf hfill⟩, fun htab => ?_⟩
      exact ⟨_, exec_pf_scalar s true a k off, pf_allocates hpf hroom htab⟩

end Sys2Proof.Machine
end

section
/-! SUPPORT. Loads whose lanes the core's own sectors serve, and a fill of an empty L1; they settle O17 (R54, R59, R125, R360). -/
namespace Sys2Proof.Machine

/-! ### The number that bytes of a sector make -/

/-- Bytes of a sector, read as a number, are the core's bytes where it holds them. -/
theorem secRead_coreBytes {s : State} {core : Nat} {d : BitVec 1024} (po : BitVec 128) (n : Nat) :
    ∀ pa, pa % 128 + n ≤ 128 → (∀ i < n, coreByte s core (pa + i) = secByte d (pa % 128 + i)) →
      (secRead d po (pa % 128) n).1 = coreBytes s core pa n := by
  unfold secRead
  induction n with
  | zero => intro pa _ _; simp [coreBytes, Nat.mod_one]
  | succ n ih =>
    intro pa hpa h
    have hfirst : (coreByte s core pa).toNat = (d >>> (8 * (pa % 128))).toNat % 256 := by
      rw [show coreByte s core pa = secByte d (pa % 128) from h 0 (Nat.succ_pos n), secByte, BitVec.extractLsb'_toNat, BitVec.toNat_ushiftRight]
    have hnext : (d >>> (8 * (pa % 128))).toNat / 256 % 256 ^ n = coreBytes s core (pa + 1) n := by
      rcases Nat.eq_zero_or_pos n with rfl | hn
      · simp [coreBytes, Nat.mod_one]
      · have hmod : (pa + 1) % 128 = pa % 128 + 1 := by omega
        rw [← ih (pa + 1) (by omega) fun i hi => by rw [hmod, Nat.add_assoc, Nat.add_assoc, Nat.add_comm 1 i]; exact h (i + 1) (by omega)]
        dsimp only
        rw [hmod, BitVec.toNat_ushiftRight, BitVec.toNat_ushiftRight, Nat.shiftRight_eq_div_pow, Nat.shiftRight_eq_div_pow, Nat.div_div_eq_div_mul,
          show (256 : Nat) = 2 ^ 8 from rfl, ← Nat.pow_add, Nat.mul_add]
    dsimp only at hnext ⊢
    rw [Nat.pow_succ', Nat.mod_mul, hnext, ← hfirst, coreBytes]

/-! ### Sectors that are used -/

/-- A sector but for the step of its last access. -/
def L1Sec.untimed (x : L1Sec) : L1Sec := { x with used := 0 }

/-- An L1 after hits: only when its sectors were used last has changed (R52). -/
def L1Touched (a b : AMap L1Sec) : Prop := ∀ k, (amGet? b k).map L1Sec.untimed = (amGet? a k).map L1Sec.untimed

theorem L1Touched.refl (a : AMap L1Sec) : L1Touched a a := fun _ => rfl

theorem L1Touched.trans {a b c : AMap L1Sec} (h : L1Touched a b) (h' : L1Touched b c) : L1Touched a c := fun k => (h' k).trans (h k)

theorem l1Touched_use (m : AMap L1Sec) (k tick : Nat) : L1Touched m (amMod m k (fun x => { x with used := tick })) := by
  intro j
  by_cases h : j = k
  · subst h
    rw [amGet?_amMod_same, Option.map_map]
    rfl
  · rw [amGet?_amMod_other _ _ _ _ h]

/-- Everything that reads find stays where sectors are used only. -/
theorem memKept_of_l1Touched {s : State} {l1 : AMap L1Sec} (h : L1Touched s.m.l1 l1) : memKept s { s with m := { s.m with l1 := l1 } } := by
  obtain ⟨t, ht⟩ : ∃ t : State, t = { s with m := { s.m with l1 := l1 } } := ⟨_, rfl⟩
  have hl1 : ∀ c sec, (l1At t c sec).map L1Sec.untimed = (l1At s c sec).map L1Sec.untimed := fun c sec => by rw [ht]; exact h _
  have hcoh : ∀ pa, cohByte t pa = cohByte s pa := by
    refine cohByte_of_written (by rw [ht]) (by rw [ht]) (fun c sec => ?_)
      (homeSector_of_eq (by rw [ht]) (by rw [ht]) (by rw [ht]) (by rw [ht]) (by rw [ht]))
    have hw := congrArg (Option.map L1Sec.written) (hl1 c sec)
    rwa [Option.map_map, Option.map_map] at hw
  rw [← ht]
  refine ⟨hcoh, fun c pa => ?_, fun _ _ => by rw [ht]; rfl, fun _ => by rw [ht]; rfl⟩
  have hb := hl1 c (pa / 128)
  unfold coreByte
  cases hs : l1At s c (pa / 128) with
  | none =>
    rw [hs, Option.map_none, Option.map_eq_none_iff] at hb
    rw [hb]
    exact hcoh pa
  | some x =>
    rw [hs, Option.map_some, Option.map_eq_some_iff] at hb
    obtain ⟨y, hy, hxy⟩ := hb
    rw [hy]
    have hvalid : y.valid = x.valid := by simpa [L1Sec.untimed] using congrArg L1Sec.valid hxy
    have hdata : y.data = x.data := by simpa [L1Sec.untimed] using congrArg L1Sec.data hxy
    dsimp only
    rw [hvalid, hdata, hcoh]

/-! ### Lanes that hit -/

theorem hitLane.ok {s : State} {a : LaneAcc} {g : Seg} (h : hitLane s a g) : a.ok = true := by
  obtain ⟨hres, -⟩ := h
  unfold LaneAcc.ok; rw [hres]

theorem hitLane.kind {s : State} {a : LaneAcc} {g : Seg} (h : hitLane s a g) : g.kind = 0 := by
  obtain ⟨-, hhit, -⟩ := h
  unfold Seg.kind; rw [if_pos hhit]

theorem hitLane.segs {s : State} {a : LaneAcc} {g : Seg} (h : hitLane s a g) : a.segs = [g] := by
  obtain ⟨hres, -⟩ := h
  unfold LaneAcc.segs; rw [hres]

section
variable {s : State} {ls : List LaneAcc} {seg : Nat → Seg} (h : ∀ a ∈ ls, hitLane s a (seg a.lane))
include h

theorem allOk_of_hitLanes : allOk ls := fun a ha => (h a ha).ok

theorem mem_devSegs_of_hitLanes {g : Seg} : g ∈ devSegs ls ↔ ∃ a ∈ ls, g = seg a.lane := by
  simp only [devSegs, List.mem_filter, List.mem_flatMap, decide_eq_true_eq]
  constructor
  · rintro ⟨⟨a, ha, hg⟩, -⟩
    rw [(h a ha).segs, List.mem_singleton] at hg
    exact ⟨a, ha, hg⟩
  · rintro ⟨a, ha, rfl⟩
    refine ⟨⟨a, ha, ?_⟩, ?_⟩
    · rw [(h a ha).segs]; exact List.mem_singleton.2 rfl
    · rw [(h a ha).kind]; decide

theorem missOf_of_hitLanes (sec : Nat) : missOf ls sec = none := by
  refine List.find?_eq_none.2 fun g hg => ?_
  obtain ⟨a, ha, rfl⟩ := (mem_devSegs_of_hitLanes h).1 hg
  obtain ⟨-, hhit, -⟩ := h a ha
  simp [hhit]

/-- Before any lane is served there is an image of each sector, as the core holds it. -/
theorem hitImages_of_hitLanes {a : LaneAcc} (ha : a ∈ ls) :
    amGet? (hitImages ls s) ((seg a.lane).pa / 128) = (l1At s s.g.idn.core ((seg a.lane).pa / 128)).map L1Sec.image := by
  have key : ∀ (gs : List Seg) (ims : Images) (sec : Nat), (∀ g ∈ gs, (l1At s s.g.idn.core (g.pa / 128)).isSome = true) →
      amGet? (gs.foldl (fun ims g => if (missOf ls (g.pa / 128)).isSome then ims
        else match l1At s s.g.idn.core (g.pa / 128) with
          | some x => amPut ims (g.pa / 128) x.image
          | none => ims) ims) sec
        = if sec ∈ gs.map (fun g => g.pa / 128) then (l1At s s.g.idn.core sec).map L1Sec.image else amGet? ims sec := by
    intro gs
    induction gs with
    | nil => intro ims sec _; simp
    | cons g gs ih =>
      intro ims sec hgs
      obtain ⟨x, hx⟩ := Option.isSome_iff_exists.1 (hgs g List.mem_cons_self)
      rw [List.foldl_cons, ih _ _ fun g' hg' => hgs g' (List.mem_cons_of_mem _ hg'), missOf_of_hitLanes h, hx, List.map_cons]
      simp only [Option.isSome_none, Bool.false_eq_true, if_false]
      by_cases hmem : sec ∈ gs.map (fun g => g.pa / 128)
      · rw [if_pos hmem, if_pos (List.mem_cons_of_mem _ hmem)]
      · rw [if_neg hmem]
        by_cases hsec : sec = g.pa / 128
        · rw [if_pos (by rw [hsec]; exact List.mem_cons_self), hsec, hx]
          exact amGet?_amPut_same _ _ _
        · rw [if_neg (by rw [List.mem_cons, not_or]; exact ⟨hsec, hmem⟩)]
          exact amGet?_amPut_other _ _ _ _ hsec
  have hmem : seg a.lane ∈ devSegs ls := (mem_devSegs_of_hitLanes h).2 ⟨a, ha, rfl⟩
  refine (key (devSegs ls) [] _ fun g hg => ?_).trans (if_pos (List.mem_map_of_mem hmem))
  obtain ⟨b, hb, rfl⟩ := (mem_devSegs_of_hitLanes h).1 hg
  obtain ⟨-, -, -, -, x, hx, -⟩ := h b hb
  rw [hx]; rfl

end

/-! ### What a lane that hits gives -/

/-- The bytes of a lane as the core reads them. -/
def hitBytes (s : State) (seg : Nat → Seg) (a : LaneAcc) : Nat := coreBytes s s.g.idn.core (seg a.lane).pa a.n

theorem stageOver_of_not_det {s : State} (hdet : isDet s s.g = false) (va n : Nat) (v : Nat × Nat) : stageOver s va n v = v := by
  unfold stageOver; rw [hdet]; rfl

/-- The image that serves a lane makes its number, unpoisoned. -/
theorem hitLane.marked {s : State} {a : LaneAcc} {g : Seg} (h : hitLane s a g) :
    ∃ x, l1At s s.g.idn.core (g.pa / 128) = some x
      ∧ secMarked x.image.data x.image.poison (g.pa % 128) g.n = (coreBytes s s.g.idn.core g.pa a.n, 0) := by
  obtain ⟨-, -, hn, hfit, x, hx, hpo, hvalid⟩ := h
  refine ⟨x, hx, Prod.ext ?_ ?_⟩
  · rw [← hn]
    refine secRead_coreBytes x.poison g.n g.pa hfit fun i hi => ?_
    have hsec : (g.pa + i) / 128 = g.pa / 128 := by omega
    have hoff : (g.pa + i) % 128 = g.pa % 128 + i := by omega
    unfold coreByte
    rw [hsec, hx]
    dsimp only
    rw [hoff, if_pos (hvalid i hi)]
    rfl
  · change (x.poison >>> (g.pa % 128)).toNat % 2 ^ g.n = 0
    rw [hpo]; simp

/-- A lane that hits takes its bytes from the image, and its sector is used. -/
theorem laneLoad_of_hitLane {s : State} {a : LaneAcc} {g : Seg} (h : hitLane s a g) (hint : BitVec 2) (ls : List LaneAcc) {ims : Images}
    (him : amGet? ims (g.pa / 128) = (l1At s s.g.idn.core (g.pa / 128)).map L1Sec.image) {u : State} (hidn : u.g.idn = s.g.idn)
    (hdet : isDet u u.g = false) :
    laneLoad hint ls a (ims, u) = ((coreBytes s s.g.idn.core g.pa a.n, false), ims,
      l1Mod s.g.idn.core (g.pa / 128) (fun y => { y with used := u.tick }) u) := by
  obtain ⟨x, hx, hmarked⟩ := h.marked
  have hkind := h.kind
  obtain ⟨hres, hhit, -⟩ := h
  rw [hx, Option.map_some] at him
  have huse : ∀ ag : Agent, useSeg ag 0 g u = u := fun ag => if_pos hhit
  have hload : ∀ host, loadSeg hint host ls g (ims, u) = ((coreBytes s s.g.idn.core g.pa a.n, 0), ims,
      l1Mod s.g.idn.core (g.pa / 128) (fun y => { y with used := u.tick }) u) := by
    intro host
    unfold loadSeg
    simp only [hkind, him, hhit, hmarked, hidn, if_true]
  have hdet' : isDet (l1Mod s.g.idn.core (g.pa / 128) (fun y => { y with used := u.tick }) u)
      (l1Mod s.g.idn.core (g.pa / 128) (fun y => { y with used := u.tick }) u).g = false := hdet
  unfold laneLoad
  simp only [hres, List.foldl_cons, List.foldl_nil, huse, hkind]
  simp [hload, stageOver_of_not_det hdet']

/-! ### A load of such lanes -/

/-- What writes a lane's destination writes registers only. -/
structure RegPut (put : Nat → Nat → State → State) : Prop where
  l1 : ∀ l v s l1, put l v { s with m := { s.m with l1 := l1 } } = { put l v s with m := { (put l v s).m with l1 := l1 } }
  m : ∀ l v s, (put l v s).m = s.m
  d : ∀ l v s, (put l v s).d = s.d
  idn : ∀ l v s, (put l v s).g.idn = s.g.idn

theorem regPut_putS (d : SReg) (w : IW) (sx : Bool) : RegPut (putS d w sx) := by
  constructor <;> intro l v s <;> unfold putS wS <;> (try intro l1) <;> split <;> rfl

theorem regPut_putV (d : VReg) (w : IW) (sx : Bool) : RegPut (putV d w sx) :=
  ⟨fun _ _ _ _ => rfl, fun _ _ _ => rfl, fun _ _ _ => rfl, fun _ _ _ => rfl⟩

theorem isDet_congr {s t : State} (hd : t.d = s.d) (hidn : t.g.idn = s.g.idn) : isDet t t.g = isDet s s.g := by
  unfold isDet gridOf; rw [hd, hidn]

/-- Lanes that all hit write their destinations with the core's bytes as they stand before, and their sectors are used. -/
theorem loadLanes_hit {put : Nat → Nat → State → State} (hput : RegPut put) {s : State} {ls : List LaneAcc} {seg : Nat → Seg}
    (h : ∀ a ∈ ls, hitLane s a (seg a.lane)) (hdet : isDet s s.g = false) (hint : BitVec 2) :
    let w := ls.foldl (fun u a => put a.lane (hitBytes s seg a) u) s
    ∃ l1, L1Touched s.m.l1 l1 ∧ loadLanes hint put ls s = { w with m := { w.m with l1 := l1 } } := by
  have key : ∀ (xs : List LaneAcc) (u : State) (l1 : AMap L1Sec), (∀ a ∈ xs, a ∈ ls) → L1Touched s.m.l1 l1 →
      u.d = s.d → u.g.idn = s.g.idn → ∃ l1', L1Touched s.m.l1 l1' ∧
        (xs.foldl (fun (x : Images × State) a =>
          let r := laneLoad hint ls a x
          (r.2.1, if r.1.2 then notePoison a.addr 0 r.2.2 else put a.lane r.1.1 r.2.2)) (hitImages ls s, { u with m := { u.m with l1 := l1 } })).2
          = { xs.foldl (fun u a => put a.lane (hitBytes s seg a) u) u with
              m := { (xs.foldl (fun u a => put a.lane (hitBytes s seg a) u) u).m with l1 := l1' } } := by
    intro xs
    induction xs with
    | nil => intro u l1 _ hl1 _ _; exact ⟨l1, hl1, rfl⟩
    | cons a xs ih =>
      intro u l1 hx hl1 hd hidn
      have ha : a ∈ ls := hx a List.mem_cons_self
      have hload := laneLoad_of_hitLane (h a ha) hint ls (hitImages_of_hitLanes h ha) (u := { u with m := { u.m with l1 := l1 } }) hidn
        ((isDet_congr (s := s) hd hidn).trans hdet)
      obtain ⟨l1', hl1', heq⟩ := ih (put a.lane (hitBytes s seg a) u)
        (amMod l1 (l1Key s.g.idn.core ((seg a.lane).pa / 128)) (fun y => { y with used := u.tick }))
        (fun b hb => hx b (List.mem_cons_of_mem _ hb)) (hl1.trans (l1Touched_use _ _ _)) ((hput.d _ _ _).trans hd) ((hput.idn _ _ _).trans hidn)
      refine ⟨l1', hl1', ?_⟩
      rw [List.foldl_cons, List.foldl_cons, ← heq]
      dsimp only
      rw [hload]
      dsimp only
      rw [if_neg (by decide), ← hput.l1]
      rfl
  exact key ls s s.m.l1 (fun _ ha => ha) (.refl _) rfl rfl

/-- The end of such a load: what its registers' writes leave, with the sectors used. -/
theorem hitLoad_end {s w : State} (hw : regWrite s w) {l1 : AMap L1Sec} (hl1 : L1Touched s.m.l1 l1) (e : Bool) (act : Word32) :
    let t := retire act (raiseLd e { w with m := { w.m with l1 := l1 } })
    t.g.pc = nextPc s ∧ memKept s t ∧ (∀ r, rS t r = rS w r) ∧ (∀ r, rK t r = rK w r) ∧ (∀ r l, rV t r l = rV w r l)
      ∧ t.g.live = w.g.live ∧ t.g.fpstat = w.g.fpstat := by
  intro t
  have hwm : w.m = s.m := by rw [hw]
  have hm : memKept s w := memKept_of_m_tun hwm (by rw [hw])
  have htouch : memKept w { w with m := { w.m with l1 := l1 } } := memKept_of_l1Touched (by rw [hwm]; exact hl1)
  refine ⟨?_, memKept_trans (memKept_trans hm htouch) (memKept_of_m_tun rfl rfl), fun r => ?_, fun r => ?_, fun r l => ?_, ?_, ?_⟩
  · change nextPc w = nextPc s
    rw [hw]; rfl
  · simp only [t, retire, rS_retireTo, rS_raiseLd]; rfl
  · simp only [t, retire, rK_retireTo, rK_raiseLd]; rfl
  · simp only [t, retire, rV_retireTo, rV_raiseLd]; rfl
  · simp only [t, retire, retireTo_live]; rfl
  · simp only [t, retire, retireTo_fpstat]; rfl

/-- A load of the scalar thread that hits. -/
theorem hitLoad_scalar {s : State} {a : SReg} {off : BitVec 21} {n : Nat} {g : Seg} {q : MemQ} (hk : keepsL1 q) (hdet : isDet s s.g = false)
    (hg : hitLane s (globLane s 0 1 0 (rS s a + off.signExtend 64).toNat n) g)
    (hr : loadReady s q [globLane s 0 1 0 (rS s a + off.signExtend 64).toNat n]) (d : SReg) (w : IW) (sx : Bool) :
    ∃ t, loadInstr true q s.g.live (globScalar s 0 1 n a off) (putS d w sx) s = .next t ∧ t.g.pc = nextPc s
      ∧ rS t d = (if d = 0 then 0 else extW w sx (coreBytes s s.g.idn.core g.pa n)) ∧ onlyS s t d ∧ memKept s t := by
  have hmem : ∀ x ∈ globScalar s 0 1 n a off, hitLane s x g := by
    simp only [globScalar, List.mem_singleton, forall_eq]; exact hg
  obtain ⟨l1, hl1, hlanes⟩ := loadLanes_hit (seg := fun _ => g) (regPut_putS d w sx) hmem hdet q.hint
  have hlanes : loadLanes q.hint (putS d w sx) (globScalar s 0 1 n a off) s
      = { wS s d (extW w sx (coreBytes s s.g.idn.core g.pa n)) with m := { (wS s d (extW w sx (coreBytes s s.g.idn.core g.pa n))).m with l1 := l1 } } :=
    hlanes
  refine ⟨_, loadInstr_of_loadReady hk (allOk_of_hitLanes (seg := fun _ => g) hmem) hr _ _ _, ?_⟩
  rw [hlanes]
  obtain ⟨hpc, hmk, hs, hkk, hv, hl, hf⟩ := hitLoad_end (wS_form s d (extW w sx (coreBytes s s.g.idn.core g.pa n))) hl1
    (globScalar s 0 1 n a off).isEmpty s.g.live
  refine ⟨hpc, (hs d).trans (rS_wS_same _ _ _), ⟨fun r hr => (hs r).trans (rS_wS_other _ _ hr), fun k _ => (hkk k).trans (by simp),
    fun r l _ _ => (hv r l).trans (by simp), hl.trans (by simp), hf.trans (by simp)⟩, hmk⟩

/-- A load of lanes that hit: ls names the acting lanes in ascending order. -/
theorem hitLoad_lanes {s : State} {k : KReg} {q : MemQ} {mk : Nat → LaneAcc} {n : Nat} {seg : Nat → Seg} (hk : keepsL1 q)
    (hdet : isDet s s.g = false) (hlane : ∀ l, (mk l).lane = l) (hn : ∀ l, (mk l).n = n) (hr : loadReady s q ((lanesOf (actOf s k)).map mk))
    (h : ∀ a ∈ (lanesOf (actOf s k)).map mk, hitLane s a (seg a.lane)) (v : VReg) (w : IW) (sx : Bool) :
    ∃ t, loadInstr false q (actOf s k) ((lanesOf (actOf s k)).map mk) (putV v w sx) s = .next t ∧ t.g.pc = nextPc s
      ∧ (∀ l < 32, rV t v l = if (actOf s k).getLsbD l then extW w sx (coreBytes s s.g.idn.core (seg l).pa n) else rV s v l)
      ∧ onlyV s t v (actOf s k) ∧ memKept s t := by
  obtain ⟨l1, hl1, hlanes⟩ := loadLanes_hit (regPut_putV v w sx) h hdet q.hint
  have hwrite : ((lanesOf (actOf s k)).map mk).foldl (fun u a => putV v w sx a.lane (hitBytes s seg a) u) s
      = wV s v (actOf s k) (fun l => extW w sx (coreBytes s s.g.idn.core (seg l).pa n)) := by
    rw [List.foldl_map]
    simp only [hitBytes, hlane, hn]
    exact foldl_putV v w sx _ _ s
  rw [hwrite] at hlanes
  refine ⟨_, loadInstr_of_loadReady hk (allOk_of_hitLanes h) hr _ _ _, ?_⟩
  rw [hlanes]
  obtain ⟨hpc, hmk, hs, hkk, hv, hl, hf⟩ := hitLoad_end
    (wV_form s v (actOf s k) (fun l => extW w sx (coreBytes s s.g.idn.core (seg l).pa n))) hl1 ((lanesOf (actOf s k)).map mk).isEmpty (actOf s k)
  refine ⟨hpc, fun l hl32 => (hv v l).trans ?_, ⟨fun r _ => (hs r).trans (by simp), fun r _ => (hkk r).trans (by simp),
    fun r l hne hl32 => (hv r l).trans ?_, hl.trans (by simp), hf.trans (by simp)⟩, hmk⟩
  · simp [rV_wV _ _ _ _ _ _ hl32]
  · rw [rV_wV _ _ _ _ _ _ hl32, if_neg hne]

/-! ### A fill of an empty L1 -/

theorem lazyBacks_of_absent {s : State} {sec : Nat} {me : Option Nat} (h : ∀ o, some o ≠ me → l1At s o sec = none) :
    lazyBacks sec me s = s := by
  unfold lazyBacks
  have hne : ∀ o ∈ ownersOf s sec (BitVec.allOnes 16) me, some o ≠ me := fun o ho => by
    obtain ⟨_, _, _, hne⟩ := mem_ownersOf.mp ho
    exact hne
  generalize ownersOf s sec (BitVec.allOnes 16) me = l at hne
  induction l with
  | nil => rfl
  | cons o os ih =>
    have hback : lazyBack o sec s = s := by
      unfold lazyBack; rw [h o (hne o List.mem_cons_self)]
    rw [List.foldl_cons, hback, ih fun o ho => hne o (List.mem_cons_of_mem _ ho)]

/-- A core without sectors has nothing to evict. -/
theorem makeRoom_of_empty {s : State} (h : s.m.l1 = []) (core va sec : Nat) : makeRoom core va sec s = s := by
  have hof : l1Of s core = [] := by unfold l1Of; rw [h]; rfl
  have hv : victims s core va sec = [] := by unfold victims; simp [hof]
  unfold makeRoom
  rw [hv]; rfl

theorem takeAlias_of_known {s : State} {core ctx va pa : Nat} (h : aliasKnown s core ctx va pa) : takeAlias (clusterOf core) ctx va pa s = s := by
  unfold aliasKnown at h
  unfold takeAlias
  dsimp only
  rw [h]
  exact if_pos rfl

/-- Where the home has room an allocation changes the L2 alone. -/
theorem homeAlloc_form {s : State} {sec : Nat} (hroom : homeRoom s sec) : ∃ l2, homeAlloc sec s = { s with m := { s.m with l2 := l2 } } := by
  cases ht : inTable s (2 * sec) with
  | true => exact ⟨s.m.l2, homeAlloc_table ht⟩
  | false =>
    obtain ⟨l2, _, heq, -⟩ := homeAlloc_listed ht hroom
    exact ⟨l2, heq⟩

/-- Where the region table has not changed either, every home holds the same bytes and marks. -/
theorem ReadsKept.homeSector {s t : State} (h : ReadsKept s t) (hr : t.m.regions = s.m.regions) (sec : Nat) :
    (Machine.homeSector t sec).data = (Machine.homeSector s sec).data ∧ (Machine.homeSector t sec).poison = (Machine.homeSector s sec).poison := by
  cases ht : inTable s (2 * sec) with
  | false => exact ⟨h.data sec ht, h.poison sec ht⟩
  | true =>
    rw [homeSector_of_table ht, homeSector_of_table (s := t) (by rwa [inTable_congr h.tun]), tableSector_congr h.tun hr]
    exact ⟨rfl, rfl⟩

/-- The sector that a fill leaves at the core. -/
def filledSec (s : State) (core ctx va sec : Nat) (leaf : Word64) : L1Sec :=
  { fillMerge (cohSector (l1Put core sec (freshSec s core ctx va leaf) s) sec (some core)) (freshSec s core ctx va leaf) with filler := s.g.idn.gid }

/-- A fresh sector has no bytes of its own, so a fill gives it all it brings (R59). -/
theorem fillMerge_fresh_data (c : L2Sec) (s : State) (core ctx va : Nat) (leaf : Word64) :
    (fillMerge c (freshSec s core ctx va leaf)).data = c.data := by
  simp [fillMerge, freshSec, secMerge_zero]

theorem fillMerge_fresh_poison (c : L2Sec) (s : State) (core ctx va : Nat) (leaf : Word64) :
    (fillMerge c (freshSec s core ctx va leaf)).poison = c.poison := by
  ext i hi
  simp only [fillMerge, freshSec, BitVec.getElem_or, BitVec.getElem_and, BitVec.getElem_not]
  simp

/-- A change of the only entry of a table. -/
theorem amMod_singleton {α : Type} (k : Nat) (x : α) (f : α → α) : amMod [(k, x)] k f = [(k, f x)] := by
  simp [amMod, amGet?, amPut]

/-- A table with one entry has no other. -/
theorem amGet?_singleton_other {α : Type} {j k : Nat} (x : α) (h : j ≠ k) : amGet? [(k, x)] j = none := by
  simp [amGet?, h]

theorem amGet?_singleton_same {α : Type} (k : Nat) (x : α) : amGet? [(k, x)] k = some x := by
  simp [amGet?]

theorem amPut_nil {α : Type} (k : Nat) (x : α) : amPut [] k x = [(k, x)] := rfl

/-- A fill of an empty L1 lists one sector. -/
theorem fillNow_of_empty {s u : State} {core ctx va sec : Nat} (leaf : Word64) (hu : homeAlloc sec s = u) (hl1 : u.m.l1 = [])
    (halias : aliasKnown u core ctx va (128 * sec)) :
    fillNow core ctx va sec leaf s = { u with m := { u.m with l1 := [(l1Key core sec, filledSec u core ctx va sec leaf)] } } := by
  have hnone : l1At u core sec = none := by unfold l1At; rw [hl1]; rfl
  have halloc : allocSec core ctx va sec leaf u = l1Put core sec (freshSec u core ctx va leaf) u := by
    unfold allocSec
    rw [takeAlias_of_known halias]
    dsimp only
    rw [hnone]
    dsimp only
    rw [makeRoom_of_empty hl1]
  have hput : (l1Put core sec (freshSec u core ctx va leaf) u).m.l1 = [(l1Key core sec, freshSec u core ctx va leaf)] := by
    unfold l1Put; dsimp only; rw [hl1, amPut_nil]
  have hfill : l1Mod core sec (fun x => { fillMerge (cohSector (l1Put core sec (freshSec u core ctx va leaf) u) sec (some core)) x with filler := u.g.idn.gid })
      (l1Put core sec (freshSec u core ctx va leaf) u) = { u with m := { u.m with l1 := [(l1Key core sec, filledSec u core ctx va sec leaf)] } } := by
    unfold l1Mod
    rw [hput, amMod_singleton]
    rfl
  unfold fillNow
  rw [hu, halloc]
  change lazyBacks sec (some core) (l1Mod core sec _ _) = _
  refine (congrArg (lazyBacks sec (some core)) hfill).trans (lazyBacks_of_absent fun o ho => ?_)
  have hne : l1Key o sec ≠ l1Key core sec := l1Key_core_ne sec fun h => ho (congrArg some h)
  exact amGet?_singleton_other _ hne

/-- What the other owners and the home hold is what a fill reads, before the fresh sector and after. -/
theorem cohSector_l1Put_fresh {s u : State} {core ctx va sec : Nat} {leaf : Word64} (hroom : homeRoom s sec) (hu : homeAlloc sec s = u)
    (hl1 : s.m.l1 = []) : let c := cohSector (l1Put core sec (freshSec u core ctx va leaf) u) sec (some core)
    c.data = (cohSector s sec (some core)).data ∧ c.poison = (cohSector s sec (some core)).poison := by
  have hkept : ReadsKept s u := hu ▸ readsKept_homeAlloc hroom
  obtain ⟨l2, hform⟩ := homeAlloc_form hroom
  have hregions : u.m.regions = s.m.regions := by rw [← hu, hform]
  obtain ⟨hd, hp⟩ := hkept.homeSector hregions sec
  have hnone : ∀ c, l1At s c sec = none := fun c => by unfold l1At; rw [hl1]; rfl
  refine cohSector_of_answers (s := s) hkept.dir (fun c hc words => ?_) hd hp
  have hne : l1Key c sec ≠ l1Key core sec := l1Key_core_ne sec fun h => hc (congrArg some h)
  refine ownerBytes_of_clean (t := l1Put core sec (freshSec u core ctx va leaf) u) (fun x hx => absurd hx (by rw [hnone]; exact nofun))
    (fun x hx => absurd hx ?_) hkept.wbuf words
  rw [l1At_l1Put_other _ _ hne, l1At_congr hkept.l1, hnone]
  exact nofun

/-- Every byte reads at device scope as before such a fill. -/
theorem cohByte_of_filled {s u : State} {core ctx va sec : Nat} {leaf : Word64} (hroom : homeRoom s sec) (hu : homeAlloc sec s = u)
    (hl1 : s.m.l1 = []) (pa : Nat) :
    cohByte { u with m := { u.m with l1 := [(l1Key core sec, filledSec u core ctx va sec leaf)] } } pa = cohByte s pa := by
  have hkept : ReadsKept s u := hu ▸ readsKept_homeAlloc hroom
  obtain ⟨l2, hform⟩ := homeAlloc_form hroom
  have hregions : u.m.regions = s.m.regions := by rw [← hu, hform]
  obtain ⟨hd, hp⟩ := hkept.homeSector hregions (pa / 128)
  obtain ⟨t, ht⟩ : ∃ t : State, t = { u with m := { u.m with l1 := [(l1Key core sec, filledSec u core ctx va sec leaf)] } } := ⟨_, rfl⟩
  have hhome : homeSector t (pa / 128) = homeSector u (pa / 128) :=
    homeSector_of_eq (by rw [ht]) (by rw [ht]) (by rw [ht]) (by rw [ht]) (by rw [ht]) _
  rw [← ht]
  unfold cohByte
  rw [(cohSector_of_answers (s := s) (t := t) (by rw [ht]; exact hkept.dir) (fun c _ words => ?_) (hhome ▸ hd) (hhome ▸ hp)).1]
  refine ownerBytes_of_clean (fun x hx => ?_) (fun x hx => ?_) (by rw [ht]; exact hkept.wbuf) words
  · unfold l1At at hx; rw [hl1] at hx; exact absurd hx nofun
  · unfold l1At at hx
    rw [ht] at hx
    dsimp only at hx
    rw [amGet?] at hx
    split at hx
    · rw [← Option.some.inj hx]; rfl
    · exact absurd hx nofun

/-- Settles O17: a load whose lanes hit takes the L1's bytes, and a fill takes what the home and the other owners hold. -/
theorem globalHitLoadResult : Obligations.GlobalHitLoadResult := by
  unfold Obligations.GlobalHitLoadResult
  refine ⟨?_, ?_⟩
  · intro s d a v u k w sx off q seg n act core hk hdet
    refine ⟨fun hhit hr => hitLoad_scalar hk hdet hhit hr d w sx, fun p hp => ?_⟩
    simp only [List.mem_cons, List.not_mem_nil, or_false] at hp
    rcases hp with rfl | rfl
    · intro hname hr h
      have hx : exec (.ld_v v a k off q) s = loadInstr false q act (globContig s 0 1 a off act) (putV v .w64 false) s :=
        withRegs_of_canName hname _
      dsimp only
      rw [hx]
      exact hitLoad_lanes (mk := fun l => globLane s 0 1 l (rS s a + off.signExtend 64 + w64 (8 * l)).toNat 8) hk hdet (fun _ => rfl) (fun _ => rfl) hr h v .w64 false
    · intro hname hr h
      have hx : exec (.ld_g v u w sx k off q) s = loadInstr false q act (globGather s 0 1 n u off act) (putV v w sx) s :=
        withRegs_of_canName hname _
      dsimp only
      rw [hx]
      exact hitLoad_lanes (mk := fun l => globLane s 0 1 l (rV s u l + off.signExtend 64).toNat n) hk hdet (fun _ => rfl) (fun _ => rfl) hr h v w sx
  · intro s core ctx va sec leaf hl1 hroom halias t
    obtain ⟨u, hu⟩ : ∃ u, homeAlloc sec s = u := ⟨_, rfl⟩
    obtain ⟨l2, hform⟩ := homeAlloc_form hroom
    have hul1 : u.m.l1 = [] := by rw [← hu, hform]; exact hl1
    have hualias : aliasKnown u core ctx va (128 * sec) := by rw [← hu, hform]; exact halias
    have ht : t = _ := fillNow_of_empty leaf hu hul1 hualias
    obtain ⟨hd, hp⟩ := cohSector_l1Put_fresh (core := core) (ctx := ctx) (va := va) (leaf := leaf) hroom hu hl1
    rw [ht]
    refine ⟨filledSec u core ctx va sec leaf, amGet?_singleton_same _ _, rfl, ?_, ?_, rfl, rfl, ?_, cohByte_of_filled hroom hu hl1⟩
    · exact (fillMerge_fresh_data _ _ _ _ _ _).trans hd
    · exact (fillMerge_fresh_poison _ _ _ _ _ _).trans hp
    · simp [filledSec, fillMerge, freshSec, L1Sec.held]

end Sys2Proof.Machine
end

section
/-! SUPPORT. Steps of the homes that a tuning event and a scan take: they change the memory system, and waits on words see them (R73, R419). -/
namespace Sys2Proof.Machine

/-! ### Groups that a write of memory may wake -/

/-- A group as it was, or ready again after a wait. -/
def Roused (g h : Group) : Prop :=
  h = { g with status := h.status, rdy := h.rdy, watch := h.watch, woken := h.woken }
    ∧ (h.status = g.status ∨ g.status = .waiting ∧ h.status = .running)

theorem Roused.refl (g : Group) : Roused g g := ⟨rfl, .inl rfl⟩

theorem Roused.trans {g h k : Group} (hgh : Roused g h) (hhk : Roused h k) : Roused g k := by
  obtain ⟨hform, hst⟩ := hgh
  obtain ⟨kform, kst⟩ := hhk
  refine ⟨by rw [kform, hform], ?_⟩
  rcases kst with hk | ⟨hw, hr⟩
  · rw [hk]; exact hst
  · rcases hst with hh | ⟨-, hh⟩
    · exact .inr ⟨hh.symm.trans hw, hr⟩
    · rw [hh] at hw; exact absurd hw (by decide)

theorem Roused.idn {g h : Group} (hgh : Roused g h) : h.idn = g.idn := by rw [hgh.1]
theorem Roused.posn {g h : Group} (hgh : Roused g h) : h.posn = g.posn := by rw [hgh.1]
theorem Roused.tev {g h : Group} (hgh : Roused g h) : h.tev = g.tev := by rw [hgh.1]

/-! ### Steps of memory -/

/-- A step of the homes: memory changes, and groups that waited are ready again. -/
structure MemStep (s t : State) : Prop where
  form : t = { s with m := t.m, g := t.g, rest := t.rest }
  groups : GroupsStep Roused s t

section
variable {s t u : State} (h : MemStep s t)

theorem MemStep.of_m (h : t = { s with m := t.m }) : MemStep s t := by
  have hg : t.g = s.g := by rw [h]
  have hr : t.rest = s.rest := by rw [h]
  exact ⟨by rw [hg, hr]; exact h, .of_eq Roused.refl hg hr⟩

theorem MemStep.refl (s : State) : MemStep s s := .of_m rfl

theorem MemStep.trans (h : MemStep s t) (h' : MemStep t u) : MemStep s u :=
  ⟨by rw [h'.form, h.form], h.groups.trans (R := Roused) (fun a b => a.trans b) h'.groups⟩

theorem MemStep.foldl {α : Type} {f : State → α → State} (hf : ∀ s x, MemStep s (f s x)) (l : List α) (s : State) :
    MemStep s (l.foldl f s) := by
  induction l generalizing s with
  | nil => exact .refl s
  | cons x xs ih => exact (hf s x).trans (ih _)

include h
theorem MemStep.tun : t.tun = s.tun := by rw [h.form]
theorem MemStep.agenda : t.agenda = s.agenda := by rw [h.form]
theorem MemStep.d : t.d = s.d := by rw [h.form]
theorem MemStep.ctxs : t.ctxs = s.ctxs := by rw [h.form]
theorem MemStep.host : t.h = s.h := by rw [h.form]
end

theorem memStep_wakeWord (word : Nat) (s : State) : MemStep s (wakeWord word s) := by
  refine ⟨rfl, groupsStep_mapGroups Roused.refl (fun g => ?_) s⟩
  split
  · next h => exact ⟨rfl, .inr ⟨h, rfl⟩⟩
  · split <;> exact ⟨rfl, .inl rfl⟩

theorem memStep_wakeAll (s : State) : MemStep s (wakeAll s) := by
  refine ⟨rfl, groupsStep_mapGroups (p := fun _ => true) (f := wakeGroup s) Roused.refl (fun g => ?_) s⟩
  unfold wakeGroup
  split
  · next h => exact ⟨rfl, .inr ⟨by simpa using (Bool.and_eq_true_iff.1 h).1, rfl⟩⟩
  · exact .refl g

theorem memStep_homeDrop (sec : Nat) (s : State) : MemStep s (homeDrop sec s) := by
  unfold homeDrop
  split
  · dsimp only
    split <;> exact .of_m rfl
  · exact .refl s

theorem memStep_hostDrop (line : Nat) (s : State) : MemStep s (hostDrop line s) := by
  unfold hostDrop
  split
  · dsimp only
    split <;> exact .of_m rfl
  · exact .refl s

theorem memStep_l2Room (sec : Nat) (s : State) : MemStep s (l2Room sec s) := by
  unfold l2Room
  dsimp only
  split
  · exact .refl s
  · exact .foldl (fun s x => ((memStep_homeDrop x s).trans (memStep_hostDrop _ _)).trans (memStep_hostDrop _ _)) _ _

theorem memStep_homeAlloc (sec : Nat) (s : State) : MemStep s (homeAlloc sec s) := by
  unfold homeAlloc
  split
  · exact .refl s
  · split
    · exact .of_m rfl
    · exact (memStep_l2Room sec s).trans (.of_m rfl)

theorem memStep_homeMerge (sec : Nat) (m : BitVec 128) (d : BitVec 1024) (po : BitVec 128) (alloc : Bool) (s : State) :
    MemStep s (homeMerge sec m d po alloc s) := by
  unfold homeMerge
  split
  · exact .refl s
  · refine .trans ?_ (.foldl (fun _ _ => memStep_wakeWord _ _) _ _)
    cases alloc
    · simp only [Bool.false_eq_true, if_false]
      split <;> exact .of_m rfl
    · simp only [if_true]
      refine (memStep_homeAlloc sec s).trans ?_
      split <;> exact .of_m rfl

theorem memStep_revokeFrom (sec : Nat) (words : BitVec 16) (c : Nat) (s : State) : MemStep s (revokeFrom sec words c s) := by
  unfold revokeFrom
  exact (memStep_homeMerge _ _ _ _ _ s).trans (.of_m rfl)

theorem memStep_revoke (sec : Nat) (words : BitVec 16) (me : Option Nat) (s : State) : MemStep s (revoke sec words me s) :=
  .foldl (fun _ _ => memStep_revokeFrom _ _ _ _) _ _

theorem memStep_snoopNow (line : Nat) (write : Bool) (s : State) : MemStep s (snoopNow line write s) := by
  unfold snoopNow
  split
  · exact .of_m rfl
  · exact .refl s

theorem memStep_homeWrite (sec : Nat) (m : BitVec 128) (d : BitVec 1024) (po : BitVec 128) (alloc : Bool) (s : State) :
    MemStep s (homeWrite sec m d po alloc s) :=
  (memStep_revoke _ _ _ s).trans (memStep_homeMerge _ _ _ _ _ _)

theorem memStep_cohPutWord (pa : Nat) (v : Word64) (s : State) : MemStep s (cohPutWord pa v s) :=
  (memStep_snoopNow _ _ s).trans (memStep_homeWrite _ _ _ _ _ _)

theorem memStep_pegPut (pa : Nat) (v : Word64) (s : State) : MemStep s (pegPut pa v s) := by
  refine .trans ?_ (memStep_cohPutWord pa v _)
  unfold pegHome noteHome
  split
  · exact .refl s
  · exact .of_m rfl

theorem memStep_flushRange (lo n : Nat) (s : State) : MemStep s (flushRange lo n s) :=
  (MemStep.foldl (fun _ _ => memStep_revoke _ _ _ _) _ _).trans (.foldl (fun _ _ => memStep_homeDrop _ _) _ _)

theorem memStep_releaseNow (r : Nat) (s : State) : MemStep s (releaseNow r s) :=
  ((MemStep.foldl (fun _ _ => memStep_revoke _ _ _ _) _ _).trans (memStep_flushRange _ _ _)).trans (.of_m rfl)

theorem memStep_drainSlices (gone : List Nat) (s : State) : MemStep s (drainSlices gone s) := by
  unfold drainSlices
  split
  · exact .refl s
  · exact (((MemStep.foldl (fun _ _ => memStep_releaseNow _ _) _ _).trans (.foldl (fun _ _ => memStep_revoke _ _ _ _) _ _)).trans
      (.foldl (fun _ _ => memStep_homeDrop _ _) _ _)).trans (.foldl (fun _ _ => memStep_hostDrop _ _) _ _)

theorem memStep_writeTuning (s : State) : MemStep s (writeTuning s) :=
  .foldl (fun _ _ => memStep_homeWrite _ _ _ _ _ _) _ _

theorem memStep_restoreSnaps (grid : Nat) (gr : Grid) (s : State) : MemStep s (restoreSnaps grid gr s) :=
  .foldl (fun _ _ => .of_m rfl) _ _

end Sys2Proof.Machine
end

section
/-! SUPPORT. A word written at device scope, as its home holds it (R57, R59, R75). -/
namespace Sys2Proof.Machine

/-! ### Owners are left as they are, or give words up -/

theorem homeDrop_dir (sec : Nat) (s : State) : (homeDrop sec s).m.dir = s.m.dir := by
  unfold homeDrop
  split
  · dsimp only
    split <;> rfl
  · rfl

theorem hostDrop_dir (line : Nat) (s : State) : (hostDrop line s).m.dir = s.m.dir := by
  unfold hostDrop
  split
  · dsimp only
    split <;> rfl
  · rfl

theorem l2Room_dir (sec : Nat) (s : State) : (l2Room sec s).m.dir = s.m.dir := by
  unfold l2Room
  dsimp only
  split
  · rfl
  · exact foldl_eq_of_mem (fun s : State => s.m.dir) (fun x _ s => by rw [hostDrop_dir, hostDrop_dir, homeDrop_dir]) s

theorem homeAlloc_dir (sec : Nat) (s : State) : (homeAlloc sec s).m.dir = s.m.dir := by
  unfold homeAlloc
  split
  · rfl
  · split
    · rfl
    · exact l2Room_dir sec s

section
variable {s : State} {sec : Nat}

/-- An allocation lists its sector, whatever it evicts. -/
theorem homeAlloc_held (ht : inTable s (2 * sec) = false) : (amGet? (homeAlloc sec s).m.l2 sec).isSome = true := by
  unfold homeAlloc
  rw [if_neg (by simp [ht])]
  split
  · dsimp only; rw [amGet?_amPut_same]; rfl
  · dsimp only; rw [amGet?_amPut_same]; rfl

theorem inTable_homeAlloc (sec' line : Nat) (s : State) : inTable (homeAlloc sec' s) line = inTable s line :=
  inTable_congr (memStep_homeAlloc sec' s).tun line

/-- A merge with allocation merges into the sector as it is once allocated. -/
theorem homeMerge_of_alloc (ht : inTable s (2 * sec) = false) (m : BitVec 128) (d : BitVec 1024) (po : BitVec 128) :
    Merged (homeAlloc sec s) (homeMerge sec m d po true s) sec m d po := by
  have ht' : inTable (homeAlloc sec s) (2 * sec) = false := by rwa [inTable_homeAlloc]
  have heq : homeMerge sec m d po true s = homeMerge sec m d po false (homeAlloc sec s) := by
    unfold homeMerge
    rw [if_neg (show ¬inTable s (2 * sec) = true by simp [ht]), if_neg (show ¬inTable (homeAlloc sec s) (2 * sec) = true by simp [ht'])]
    rfl
  obtain ⟨x, hx⟩ := Option.isSome_iff_exists.mp (homeAlloc_held ht)
  rw [heq]
  exact homeMerge_merged m d po ht' (homeRoom_of_held hx) (fun _ => homeAlloc_held ht)

theorem homeMerge_dir (m : BitVec 128) (d : BitVec 1024) (po : BitVec 128) : (homeMerge sec m d po true s).m.dir = s.m.dir := by
  cases ht : inTable s (2 * sec) with
  | true => rw [homeMerge_table ht]
  | false => rw [(homeMerge_of_alloc ht m d po).memSys]; exact homeAlloc_dir sec s

/-- A word that is cleared among others has no owner, and each other word has the one it had. -/
theorem ownerOf_clearOwner (words : BitVec 16) (w : Nat) : ownerOf (clearOwner sec words s) w
    = if w ∈ (wordIdx words).map (fun i => 16 * sec + i) then none else ownerOf s w := by
  unfold ownerOf clearOwner
  dsimp only
  generalize wordIdx words = l
  generalize s.m.dir = dir
  induction l generalizing dir with
  | nil => simp
  | cons i is ih =>
    rw [List.foldl_cons, ih, List.map_cons]
    by_cases hmem : w ∈ is.map (fun i => 16 * sec + i)
    · rw [if_pos hmem, if_pos (List.mem_cons_of_mem _ hmem)]
    · rw [if_neg hmem]
      by_cases hw : w = 16 * sec + i
      · rw [if_pos (by rw [hw]; exact List.mem_cons_self), hw, amGet?_amDel_same]
      · rw [if_neg (by rw [List.mem_cons, not_or]; exact ⟨hw, hmem⟩), amGet?_amDel_other _ _ _ hw]

/-- A revocation takes the core's words among those named, and gives no word to anyone. -/
theorem ownerOf_revokeFrom {words : BitVec 16} {a c i : Nat} (h : ownerOf (revokeFrom sec words a s) (16 * sec + i) = some c) :
    ownerOf s (16 * sec + i) = some c ∧ (words.getLsbD i = true → c ≠ a) := by
  have hclear : ownerOf (revokeFrom sec words a s) (16 * sec + i)
      = if 16 * sec + i ∈ (wordIdx (wordsOwnedBy s sec words a)).map (fun i => 16 * sec + i) then none else ownerOf s (16 * sec + i) := by
    unfold revokeFrom
    dsimp only
    rw [ownerOf_clearOwner]
    split
    · rfl
    · exact ownerOf_congr (homeMerge_dir _ _ _) _
  rw [hclear] at h
  split at h
  · exact absurd h nofun
  · next hno =>
    refine ⟨h, fun hi hc => hno (List.mem_map.2 ⟨i, ?_, rfl⟩)⟩
    have hlt : i < 16 := BitVec.lt_of_getLsbD hi
    exact List.mem_filter.2 ⟨List.mem_range.2 hlt, getLsbD_wordsOwnedBy.mpr ⟨hi, hc ▸ h⟩⟩

/-- After every owner of the words is revoked none of them has an owner. -/
theorem ownerOf_revoke {words : BitVec 16} {i : Nat} (hi : words.getLsbD i = true) :
    ownerOf (revoke sec words none s) (16 * sec + i) = none := by
  have key : ∀ (l : List Nat) (s : State) (c : Nat), ownerOf (l.foldl (fun s c => revokeFrom sec words c s) s) (16 * sec + i) = some c →
      ownerOf s (16 * sec + i) = some c ∧ c ∉ l := by
    intro l
    induction l with
    | nil => exact fun s c h => ⟨h, List.not_mem_nil⟩
    | cons a as ih =>
      intro s c h
      obtain ⟨h, hmem⟩ := ih _ c h
      obtain ⟨h, hne⟩ := ownerOf_revokeFrom h
      exact ⟨h, by rw [List.mem_cons, not_or]; exact ⟨hne hi, hmem⟩⟩
  refine Option.eq_none_iff_forall_ne_some.2 fun c hc => ?_
  obtain ⟨h, hno⟩ := key _ s c hc
  exact hno (mem_ownersOf.2 ⟨i, hi, h, by simp⟩)

end

/-! ### A word at its home -/

/-- A word that no core owns, in a sector that its home lists. -/
structure HomeWord (s : State) (pa : Nat) (v : Word64) : Prop where
  held : (amGet? s.m.l2 (pa / 128)).isSome = true
  free : ownerOf s (16 * (pa / 128) + pa % 128 / 8) = none
  bits : ∀ k < 64, (homeSector s (pa / 128)).data.getLsbD (8 * (pa % 128) + k) = v.getLsbD k

section
variable {s t : State} {pa qa : Nat} {v u : Word64}

/-- Such a word reads as its home holds it. -/
theorem HomeWord.cohWord (hpa : pa % 8 = 0) (h : HomeWord s pa v) : cohWord s pa = v := by
  refine BitVec.eq_of_getLsbD_eq fun k hk => ?_
  unfold Machine.cohWord
  rw [BitVec.getLsbD_extractLsb', getLsbD_cohSector_data, h.bits k hk]
  · simp [hk]
  · intro c hc
    rw [show (8 * (pa % 128) + k) / 64 = pa % 128 / 8 by omega, h.free] at hc
    exact absurd hc nofun

/-- Whatever leaves the home's sector, and gives the word to no core, leaves the word. -/
theorem HomeWord.congr (h : HomeWord s pa v) (ht : t.tun = s.tun) (hl2 : t.m.l2 = s.m.l2) (hmem : t.m.mem = s.m.mem)
    (hpo : t.m.poison = s.m.poison) (hreg : t.m.regions = s.m.regions) (hfree : ownerOf t (16 * (pa / 128) + pa % 128 / 8) = none) :
    HomeWord t pa v := by
  obtain ⟨held, -, bits⟩ := h
  refine ⟨by rwa [hl2], hfree, fun k hk => ?_⟩
  rw [homeSector_of_eq ht hl2 hmem hpo hreg]
  exact bits k hk

theorem HomeWord.of_m (h : HomeWord s pa v) (hm : t.m = s.m) (ht : t.tun = s.tun) : HomeWord t pa v :=
  h.congr ht (by rw [hm]) (by rw [hm]) (by rw [hm]) (by rw [hm]) ((ownerOf_congr (congrArg MemSys.dir hm) _).trans h.free)

/-- A merge that leaves the word's bytes out leaves the word. -/
theorem HomeWord.homeMerge (h : HomeWord s qa u) (ht : inTable s (2 * (qa / 128)) = false) {m : BitVec 128}
    (hm : ∀ k < 64, m.getLsbD ((8 * (qa % 128) + k) / 8) = false) (d : BitVec 1024) (po : BitVec 128) :
    HomeWord (Machine.homeMerge (qa / 128) m d po true s) qa u := by
  obtain ⟨held, free, bits⟩ := h
  obtain ⟨x, hx⟩ := Option.isSome_iff_exists.mp held
  have hmerged := homeMerge_merged (alloc := true) m d po ht (homeRoom_of_held hx) (fun h => absurd h (by decide))
  refine ⟨by rw [hmerged.here]; rfl, by rwa [ownerOf_congr (homeMerge_dir m d po)], fun k hk => ?_⟩
  rw [hmerged.homeSector ht, L2Sec.merge, getLsbD_secMerge, if_neg (by rw [hm k hk]; decide)]
  exact bits k hk

/-- A revocation of other words of its sector leaves the word. -/
theorem HomeWord.revoke (h : HomeWord s qa u) (ht : inTable s (2 * (qa / 128)) = false) {words : BitVec 16}
    (hw : words.getLsbD (qa % 128 / 8) = false) (hqa : qa % 8 = 0) (me : Option Nat) : HomeWord (Machine.revoke (qa / 128) words me s) qa u := by
  unfold Machine.revoke
  generalize ownersOf s (qa / 128) words me = l
  induction l generalizing s with
  | nil => exact h
  | cons c cs ih =>
    rw [List.foldl_cons]
    refine ih ?_ (by rwa [inTable_congr (memStep_revokeFrom _ _ _ s).tun])
    have hmask : ∀ k < 64, (ownerBytes s c (qa / 128) (wordsOwnedBy s (qa / 128) words c)).1.mask.getLsbD ((8 * (qa % 128) + k) / 8) = false := by
      refine fun k hk => Bool.eq_false_iff.mpr fun hm => ?_
      have hword := (getLsbD_wordsOwnedBy.mp (ownerBytes_mask hm)).1
      rw [show (8 * (qa % 128) + k) / 8 / 8 = qa % 128 / 8 by omega, hw] at hword
      exact absurd hword (by decide)
    have hmerged := h.homeMerge ht hmask (ownerBytes s c (qa / 128) (wordsOwnedBy s (qa / 128) words c)).1.data
      (ownerBytes s c (qa / 128) (wordsOwnedBy s (qa / 128) words c)).2
    have hfree : ownerOf (revokeFrom (qa / 128) words c s) (16 * (qa / 128) + qa % 128 / 8) = none :=
      Option.eq_none_iff_forall_ne_some.2 fun a ha => absurd (h.free.symm.trans (ownerOf_revokeFrom ha).1) nofun
    unfold revokeFrom at hfree ⊢
    exact hmerged.congr rfl rfl rfl rfl rfl hfree

/-- The words that an aligned word's bytes touch: that word alone. -/
theorem getLsbD_maskWords_word (hpa : pa % 8 = 0) (i : Nat) : (maskWords (span128 (pa % 128) 8)).getLsbD i = decide (i = pa % 128 / 8) := by
  rw [Bool.eq_iff_iff, getLsbD_maskWords, decide_eq_true_iff]
  have hspan : ∀ k, (span128 (pa % 128) 8).getLsbD k = decide (pa % 128 ≤ k ∧ k < pa % 128 + 8) := fun k => getLsbD_span128 (by omega)
  constructor
  · rintro ⟨j, hj, h⟩
    rw [hspan, decide_eq_true_iff] at h
    omega
  · rintro rfl
    refine ⟨0, by omega, ?_⟩
    rw [hspan, decide_eq_true_iff]
    omega

/-- A word that is written is at its home. -/
theorem homeWord_cohPutWord (hpa : pa % 8 = 0) (ht : inTable s (2 * (pa / 128)) = false) (v : Word64) : HomeWord (cohPutWord pa v s) pa v := by
  unfold cohPutWord homeWrite
  generalize hr : Machine.revoke (pa / 128) (maskWords (span128 (pa % 128) 8)) none (snoopNow (pa / 64) true s) = r
  have htun : r.tun = s.tun := by rw [← hr]; exact ((memStep_snoopNow _ _ s).trans (memStep_revoke _ _ _ _)).tun
  have htr : inTable r (2 * (pa / 128)) = false := by rwa [inTable_congr htun]
  have hmerged := homeMerge_of_alloc htr (span128 (pa % 128) 8) (v.zeroExtend 1024 <<< (8 * (pa % 128))) 0
  refine ⟨by rw [hmerged.here]; rfl, ?_, fun k hk => ?_⟩
  · rw [ownerOf_congr (homeMerge_dir _ _ _), ← hr]
    exact ownerOf_revoke (by rw [getLsbD_maskWords_word hpa]; exact decide_eq_true rfl)
  · have hbit : 8 * (pa % 128) + k < 1024 := by omega
    rw [hmerged.homeSector (by rwa [inTable_homeAlloc]), L2Sec.merge, getLsbD_secMerge, if_pos, BitVec.getLsbD_shiftLeft]
    · simp [hbit, show k < 1024 by omega]
    · rw [getLsbD_span128 (by omega), decide_eq_true_iff]
      omega

/-- A word that is written leaves another of its sector. -/
theorem HomeWord.cohPutWord (h : HomeWord s qa u) (hqa : qa % 8 = 0) (hpa : pa % 8 = 0) (hsec : pa / 128 = qa / 128) (hne : qa ≠ pa)
    (ht : inTable s (2 * (qa / 128)) = false) (v : Word64) : HomeWord (cohPutWord pa v s) qa u := by
  have hsnoop : HomeWord (snoopNow (pa / 64) true s) qa u := by
    unfold snoopNow
    split
    · exact ⟨h.held, h.free, h.bits⟩
    · exact h
  have ht' : inTable (snoopNow (pa / 64) true s) (2 * (qa / 128)) = false := by rwa [inTable_congr (memStep_snoopNow _ _ s).tun]
  unfold Machine.cohPutWord homeWrite
  rw [hsec]
  refine (hsnoop.revoke ht' ?_ hqa none).homeMerge (by rwa [inTable_congr (memStep_revoke _ _ _ _).tun]) (fun k hk => ?_) _ _
  · rw [getLsbD_maskWords_word hpa]
    exact decide_eq_false (by omega)
  · rw [getLsbD_span128 (by omega)]
    exact decide_eq_false (by omega)

end

end Sys2Proof.Machine
end

section
/-! SUPPORT. What the steps of a tuning event leave, and the records and groups it tells (R175, R468 to R470, R496). -/
namespace Sys2Proof.Machine

/-! ### What a step leaves of what a tuning event tells -/

/-- The record stands, and so does what the groups and contexts have been told. -/
structure Told (s t : State) : Prop where
  tun : t.tun = s.tun
  agenda : s.agenda ⊆ t.agenda
  ctxs : ∀ k x, ctxOf s k = some x → ∃ y, ctxOf t k = some y ∧ y.tunDeadline = x.tunDeadline
  tev : (∀ h ∈ s.rest, h.tev = true) → ∀ h ∈ t.rest, h.tev = true

/-- As Told, and scans under way go on. -/
structure Retuned (s t : State) : Prop extends Told s t where
  scans : t.d.scans = s.d.scans

theorem Told.trans {s t u : State} (h : Told s t) (h' : Told t u) : Told s u where
  tun := h'.tun.trans h.tun
  agenda := List.Subset.trans h.agenda h'.agenda
  ctxs k x hx := by
    obtain ⟨y, hy, hxy⟩ := h.ctxs k x hx
    obtain ⟨z, hz, hyz⟩ := h'.ctxs k y hy
    exact ⟨z, hz, hyz.trans hxy⟩
  tev hs := h'.tev (h.tev hs)

theorem Retuned.trans {s t u : State} (h : Retuned s t) (h' : Retuned t u) : Retuned s u :=
  ⟨h.toTold.trans h'.toTold, h'.scans.trans h.scans⟩

theorem told_of_eq {s t : State} (h : (t.tun, t.agenda, t.ctxs, t.rest) = (s.tun, s.agenda, s.ctxs, s.rest)) : Told s t := by
  simp only [Prod.mk.injEq] at h
  obtain ⟨htun, ha, hc, hr⟩ := h
  exact ⟨htun, by rw [ha]; exact List.Subset.refl _, fun k x hx => ⟨x, by unfold ctxOf; rw [hc]; exact hx, rfl⟩, by rw [hr]; exact id⟩

theorem retuned_of_eq {s t : State} (h : (t.tun, t.agenda, t.ctxs, t.rest, t.d.scans) = (s.tun, s.agenda, s.ctxs, s.rest, s.d.scans)) :
    Retuned s t := by
  simp only [Prod.mk.injEq] at h
  obtain ⟨htun, ha, hc, hr, hs⟩ := h
  exact ⟨told_of_eq (by rw [htun, ha, hc, hr]), hs⟩

theorem Retuned.refl (s : State) : Retuned s s := retuned_of_eq rfl

theorem Retuned.foldl {α : Type} {f : State → α → State} (hf : ∀ s x, Retuned s (f s x)) (l : List α) (s : State) :
    Retuned s (l.foldl f s) := by
  induction l generalizing s with
  | nil => exact .refl s
  | cons x xs ih => exact (hf s x).trans (ih _)

theorem Told.foldl {α : Type} {f : State → α → State} (hf : ∀ s x, Told s (f s x)) (l : List α) (s : State) : Told s (l.foldl f s) := by
  induction l generalizing s with
  | nil => exact told_of_eq rfl
  | cons x xs ih => exact (hf s x).trans (ih _)

theorem retuned_dues (es : List Event) (s : State) : Retuned s (dues es s) :=
  ⟨⟨rfl, agenda_subset_dues _ _, fun _ x hx => ⟨x, hx, rfl⟩, id⟩, rfl⟩

theorem retuned_due (e : Event) (s : State) : Retuned s (due e s) :=
  ⟨⟨rfl, agenda_subset_due _ _, fun _ x hx => ⟨x, hx, rfl⟩, id⟩, rfl⟩

theorem retuned_timer (n : Nat) (e : Event) (s : State) : Retuned s (timer n e s) := by
  unfold timer
  split
  · exact .refl s
  · exact retuned_of_eq rfl

/-- A change of groups that leaves TEV. -/
theorem retuned_mapGroups {p : Group → Bool} {f : Group → Group} (hf : ∀ g, (f g).tev = g.tev) (s : State) : Retuned s (mapGroups p f s) := by
  refine ⟨⟨rfl, List.Subset.refl _, fun _ x hx => ⟨x, hx, rfl⟩, fun h g hg => ?_⟩, rfl⟩
  obtain ⟨g', hg', rfl⟩ := List.mem_map.1 hg
  split
  · rw [hf]; exact h g' hg'
  · exact h g' hg'

theorem retuned_modGroup {gid : Nat} {f : Group → Group} (hf : ∀ g, (f g).tev = g.tev) (s : State) : Retuned s (modGroup gid f s) := by
  unfold modGroup
  split
  · exact retuned_of_eq rfl
  · refine ⟨⟨rfl, List.Subset.refl _, fun _ x hx => ⟨x, hx, rfl⟩, fun h g hg => ?_⟩, rfl⟩
    obtain ⟨g', hg', rfl⟩ := List.mem_map.1 hg
    split
    · rw [hf]; exact h g' hg'
    · exact h g' hg'

theorem forall_tev_of_roused {l m : List Group} (h : List.Forall₂ Roused l m) (hl : ∀ g ∈ l, g.tev = true) : ∀ g ∈ m, g.tev = true := by
  induction h with
  | nil => exact hl
  | cons hab _ ih =>
    rw [List.forall_mem_cons] at hl ⊢
    exact ⟨hab.tev.trans hl.1, ih hl.2⟩

theorem MemStep.retuned {s t : State} (h : MemStep s t) : Retuned s t where
  tun := h.tun
  agenda := by rw [h.agenda]; exact List.Subset.refl _
  ctxs k x hx := ⟨x, (congrArg (fun c => amGet? c k) h.ctxs).trans hx, rfl⟩
  tev := forall_tev_of_roused h.groups.rest
  scans := congrArg DispSys.scans h.d

/-! ### The steps of a tuning event -/

theorem retuned_writePeg (id : Nat) (s : State) : Retuned s (writePeg id s) := by
  have hput : ∀ (base : Nat) (b : BitVec 1024) (s : State),
      MemStep s ((List.range 16).foldl (fun s i => pegPut (base + 8 * i) (b.extractLsb' (64 * i) 64) s) s) :=
    fun _ _ _ => .foldl (fun _ _ => memStep_pegPut _ _ _) _ _
  unfold writePeg
  split
  · split
    · exact .refl s
    · have hmod : ∀ (u : State) (f : Window → Window), Retuned u (modWin id f u) := fun _ _ => retuned_of_eq rfl
      refine .trans ?_ (hmod _ _)
      split
      · refine (MemStep.trans ?_ (hput _ _ _)).retuned
        split
        · exact hput _ _ s
        · exact .refl s
      · exact .refl s
  · exact .refl s

theorem retuned_moveEngines (u : Tuning) (s : State) : Retuned s (moveEngines u s) := by
  unfold moveEngines
  dsimp only
  refine .trans ?_ (retuned_dues _ _)
  exact .trans (Retuned.foldl (fun s i => retuned_writePeg i s) (s.w.wins.map (fun e => e.1)) s) (retuned_of_eq rfl)

theorem retuned_discardGroups (p : Group → Bool) (s : State) : Retuned s (discardGroups p s) := by
  unfold discardGroups
  dsimp only
  refine .trans ?_ (memStep_wakeAll _).retuned
  exact ⟨⟨rfl, List.Subset.refl _, fun _ x hx => ⟨x, hx, rfl⟩, fun h g hg => h g (List.mem_filter.1 hg).1⟩, rfl⟩

theorem retuned_discardTeams (p : Team → Bool) (s : State) : Retuned s (discardTeams p s) := by
  unfold discardTeams
  dsimp only
  exact .trans (retuned_discardGroups _ s) (retuned_of_eq rfl)

theorem retuned_giveBow (s : State) : Retuned s (giveBow s) := by
  unfold giveBow
  split
  · exact .refl s
  split
  · exact .refl s
  split
  · split
    · refine .trans ?_ (retuned_due _ _)
      exact retuned_of_eq rfl
    · exact .refl s
  · exact .refl s

theorem retuned_rollback (grid code : Nat) (core : Option Nat) (s : State) : Retuned s (rollback grid code core s) := by
  unfold rollback
  split
  · exact .refl s
  · extract_lets gs s1 s2 kids disp s3 s4 s5
    have h1 : Retuned s s1 := retuned_discardTeams _ s
    have h2 : Retuned s1 s2 := (memStep_restoreSnaps _ _ s1).retuned
    have h3 : Retuned s2 s3 := retuned_of_eq rfl
    have h4 : Retuned s3 s4 := by
      unfold s4
      split
      · split
        · exact retuned_of_eq rfl
        · exact .refl s3
      · exact .refl s3
    have h5 : Retuned s4 s5 := retuned_of_eq rfl
    exact (((h1.trans h2).trans (h3.trans h4)).trans (h5.trans (retuned_giveBow s5))).trans (retuned_due _ _)

theorem retuned_keepPos (t : Tuning) (teams : List Nat) (s : State) : Retuned s (keepPos t teams s) := by
  unfold keepPos
  exact retuned_mapGroups (by intro _; rfl) s

theorem retuned_forceSave (teams : List Nat) (s : State) : Retuned s (forceSave teams s) := by
  unfold forceSave
  dsimp only
  refine .trans ?_ (retuned_dues _ _)
  exact retuned_mapGroups (by intro _; rfl) s

theorem retuned_askSave (p : Group → Bool) (s : State) : Retuned s (askSave p s) := by
  unfold askSave
  dsimp only
  refine .trans ?_ (.foldl (fun s g => ?_) _ _)
  · exact retuned_mapGroups (by intro _; rfl) s
  · split
    · exact retuned_timer _ _ _
    · exact retuned_due _ _

theorem retuned_displace (c : TuneCause) (t : Tuning) (s : State) : Retuned s (displace c t s) := by
  have hteams : ∀ p q : Nat → Bool, Retuned s (displaceTeams t p q s) := fun p q =>
    ((retuned_keepPos _ _ s).trans ((Retuned.foldl (fun _ _ => retuned_rollback _ _ _ _) _ _).trans (retuned_forceSave _ _))).trans
      (retuned_askSave _ _)
  unfold displace
  split
  · exact hteams _ _
  · exact hteams _ _
  · exact .refl s

theorem retuned_losePeers (s : State) : Retuned s (losePeers s) := by
  unfold losePeers
  dsimp only
  refine .trans ?_ (retuned_dues _ _)
  refine ⟨⟨rfl, List.Subset.refl _, fun k x hx => ⟨cutPeer s.tun x, ?_, rfl⟩, id⟩, rfl⟩
  exact (amGet?_map (fun p => cutPeer s.tun p.2) s.ctxs k).trans (by rw [show amGet? s.ctxs k = some x from hx]; rfl)

/-! ### A scan ends -/

theorem told_endScan (t : Tuning) (core out : Nat) (obs : Word64) (s : State) : Told s (endScan t core out obs s) := by
  unfold endScan
  split
  · exact told_of_eq rfl
  · extract_lets s1 s2 c s3 life scans disp host s4 s5
    have hput : Told s s2 := ((memStep_cohPutWord _ _ s).trans (memStep_cohPutWord _ _ s1)).retuned.toTold
    have hrec : Told s2 s4 := told_of_eq rfl
    have hwake : Told s4 s5 := (memStep_wakeAll s4).retuned.toTold
    exact ((hput.trans hrec).trans hwake).trans (told_of_eq rfl)

theorem told_endScans (t : Tuning) (s : State) : Told s (endScans t s) := .foldl (fun _ _ => told_endScan _ _ _ _ _) _ _

/-- What the end of a scan leaves: the two words of its record, its entry in lifetime data, and the core as it is then. -/
structure ScanEnded (t : Tuning) (core out : Nat) (obs : Word64) (sc : Scan) (s u : State) : Prop where
  tun : u.tun = s.tun
  scans : amGet? u.d.scans core = none
  life : (logicalCore t core, scanRecord s.tun.tunn out obs) ∈ u.h.life.scans
  word0 : cohWord u sc.recVa.toNat = w64 (s.tun.tunn % 2 ^ 32 * 2 ^ 32 + out)
  word1 : cohWord u (sc.recVa.toNat + 8) = obs
  core : coreOf u core = { coreOf s core with closed := !coreLive s.tun core, quarantined := if out = 1 then false else (coreOf s core).quarantined }

/-- The last of a list stands when the oldest of more than 256 go. -/
theorem mem_drop_256 {α : Type} (l : List α) (x : α) : x ∈ (l ++ [x]).drop ((l ++ [x]).length - 256) := by
  rw [List.drop_append_of_le_length (by simp only [List.length_append, List.length_singleton]; omega)]
  exact List.mem_append_right _ (List.mem_singleton_self x)

theorem endScan_ended (t : Tuning) {core out : Nat} {obs : Word64} {s : State} {sc : Scan} (hsc : amGet? s.d.scans core = some sc)
    (hal : sc.recVa.toNat % 16 = 0) (htab : inTable s (2 * (sc.recVa.toNat / 128)) = false) :
    ScanEnded t core out obs sc s (endScan t core out obs s) := by
  unfold endScan
  split
  · next h => rw [hsc] at h; exact absurd h nofun
  · next sc' h =>
    obtain rfl : sc = sc' := Option.some.inj (hsc.symm.trans h)
    extract_lets s1 s2 c s3 life scans disp host s4 s5
    have hput1 : MemStep s s1 := memStep_cohPutWord _ _ s
    have hput : MemStep s s2 := hput1.trans (memStep_cohPutWord _ _ s1)
    have hwake : MemStep s4 s5 := memStep_wakeAll s4
    have hsec : (sc.recVa.toNat + 8) / 128 = sc.recVa.toNat / 128 := by omega
    have htab1 : inTable s1 (2 * (sc.recVa.toNat / 128)) = false := by rwa [inTable_congr hput1.tun]
    have hw1 : HomeWord s1 (sc.recVa.toNat + 8) obs := homeWord_cohPutWord (by omega) (by rwa [hsec]) obs
    have hw1' : HomeWord s2 (sc.recVa.toNat + 8) obs := hw1.cohPutWord (by omega) (by omega) hsec.symm (by omega) (by rwa [hsec]) _
    have hw0 : HomeWord s2 sc.recVa.toNat (w64 (s1.tun.tunn % 2 ^ 32 * 2 ^ 32 + out)) := homeWord_cohPutWord (by omega) htab1 _
    have hc : c = coreOf s core := by unfold c coreOf; rw [hput.d]
    have hm : s5.m = s2.m := rfl
    have htun : s5.tun = s2.tun := hwake.tun
    have hscans : s5.d.scans = amDel s3.d.scans core := congrArg DispSys.scans hwake.d
    have hcores : s5.d.cores = s3.d.cores := by rw [hwake.d]
    have hlife : s5.h.life.scans = scans.drop (scans.length - 256) := by
      rw [hwake.host]
    have hcore : amGet? s3.d.cores core = some { c with closed := !coreLive s2.tun core, quarantined := if out = 1 then false else c.quarantined } :=
      amGet?_amPut_same _ _ _
    have hlast : scans = life.scans ++ [(logicalCore t core, scanRecord s2.tun.tunn out obs)] := rfl
    clear_value s5 s4 scans s3 c
    refine ⟨htun.trans hput.tun, ?_, ?_, ?_, ?_, ?_⟩
    · dsimp only; rw [hscans]; exact amGet?_amDel_same _ _
    · dsimp only; rw [hlife, hlast, ← hput.tun]; exact mem_drop_256 _ _
    · rw [← hput1.tun]; exact HomeWord.cohWord (by omega) (hw0.of_m (t := { s5 with timers := _ }) hm htun)
    · exact HomeWord.cohWord (by omega) (hw1'.of_m (t := { s5 with timers := _ }) hm htun)
    · unfold coreOf; dsimp only; rw [hcores, hcore, Option.getD_some, hc, hput.tun]; rfl

end Sys2Proof.Machine
end

section
/-! SUPPORT. Tuning events, scans, pair runs and patrol scrubs; they settle O50 (R79, R88, R175, R428, R466 to R470, R492, R495, R496). -/
namespace Sys2Proof.Machine

/-! ### The new record -/

theorem getLsbD_clearBit {w : Nat} (v : BitVec w) (i : Nat) : (clearBit w v i).getLsbD i = false := by
  unfold clearBit
  rw [BitVec.getLsbD_and, BitVec.getLsbD_not, BitVec.getLsbD_shiftLeft]
  by_cases h : i < w
  · simp [h, show 0 < w by omega]
  · simp [h]

theorem getD_set_self {α : Type} (l : List α) (i : Nat) (v d : α) : (l.set i v).getD i d = if i < l.length then v else d := by
  rw [List.getD_eq_getElem?_getD, List.getElem?_set_self']
  split
  · next h => simp [h]
  · next h => simp [List.getElem?_eq_none (Nat.not_lt.1 h)]

/-- A core is not live in the record after its event. -/
theorem coreLive_newTuning_core (k : Nat) (t : Tuning) : coreLive (newTuning (.core k) t) k = false := by
  unfold coreLive newTuning
  dsimp only
  rw [getD_set_self]
  split
  · rw [getLsbD_clearBit, Bool.and_false]
  · simp

theorem clusterLive_newTuning_cluster (cl : Nat) (t : Tuning) : clusterLive (newTuning (.cluster cl) t) cl = false :=
  getLsbD_clearBit _ _

/-- No slice departs with a core. -/
theorem departing_newTuning_core (k : Nat) (t : Tuning) : departing t (newTuning (.core k) t) = [] := by
  unfold departing
  exact List.filter_eq_nil_iff.2 fun x hx => by simpa [liveSlices, liveSlicesOf, newTuning, and_assoc] using hx

/-! ### Logical numbers that stay -/

/-- An index before which nothing changes. -/
theorem idxOf_set_of_ne {l : List Nat} {a x y : Nat} (hx : a ≠ x) (hy : a ≠ y) : (l.set (l.idxOf x) y).idxOf a = l.idxOf a := by
  induction l with
  | nil => rfl
  | cons b bs ih =>
    by_cases hb : b = x
    · rw [hb, List.idxOf_cons_self, List.set_cons_zero, List.idxOf_cons_ne _ hy.symm, List.idxOf_cons_ne _ hx.symm]
    · rw [List.idxOf_cons_ne _ hb, List.set_cons_succ]
      by_cases ha : b = a
      · rw [ha, List.idxOf_cons_self, List.idxOf_cons_self]
      · rw [List.idxOf_cons_ne _ ha, List.idxOf_cons_ne _ ha, ih]

/-- Whoever stays in the order and is not the one that moves keeps its index. -/
theorem idxOf_leaveOrder {l : List Nat} {a x : Nat} (ha : a ∈ l) (hx : a ≠ x) (hmoved : movedBy l x ≠ some a) :
    (leaveOrder l x).idxOf a = l.idxOf a := by
  unfold leaveOrder
  unfold movedBy at hmoved
  split
  · next hmem =>
    rw [if_pos hmem] at hmoved
    rcases List.eq_nil_or_concat' l with rfl | ⟨ys, y, rfl⟩
    · rfl
    · rw [List.getLast?_concat] at hmoved ⊢
      dsimp only at hmoved ⊢
      by_cases hy : y = x
      · rw [if_pos hy, List.dropLast_concat]
        have hays : a ∈ ys := by
          rcases List.mem_append.1 ha with h | h
          · exact h
          · exact absurd (List.mem_singleton.1 h) (hy ▸ hx)
        rw [List.idxOf_append_of_mem hays]
      · rw [if_neg hy] at hmoved ⊢
        have hay : a ≠ y := fun h => hmoved (by rw [h])
        have hays : a ∈ ys := by
          rcases List.mem_append.1 ha with h | h
          · exact h
          · exact absurd (List.mem_singleton.1 h) hay
        have hxys : x ∈ ys := by
          rcases List.mem_append.1 (List.contains_iff_mem.1 hmem) with h | h
          · exact h
          · exact absurd (List.mem_singleton.1 h).symm hy
        rw [List.idxOf_append_of_mem hays, List.idxOf_append_of_mem hxys, List.set_append_left _ _ (List.idxOf_lt_length_iff.2 hxys),
          List.dropLast_concat, idxOf_set_of_ne hx hay]
  · rfl

/-- A core that neither leaves nor moves keeps its logical number. -/
theorem lcoreOf_newTuning_core {t : Tuning} {k a : Nat} (ha : a % 256 ∈ liveCoresOf t (a / 256)) (hne : a ≠ k)
    (hmoved : ¬(a / 256 = k / 256 ∧ movedBy (t.lorder.getD (k / 256) []) (k % 256) = some (a % 256))) :
    lcoreOf (newTuning (.core k) t) a = lcoreOf t a := by
  unfold lcoreOf liveCoresOf newTuning
  unfold liveCoresOf at ha
  dsimp only
  by_cases hcl : a / 256 = k / 256
  · by_cases hlen : k / 256 < t.lorder.length
    · rw [hcl] at ha ⊢
      rw [List.getD_eq_getElem?_getD (l := t.lorder.set _ _), List.getElem?_set_self hlen, Option.getD_some]
      exact idxOf_leaveOrder ha (fun h => hne (by omega)) fun h => hmoved ⟨hcl, h⟩
    · rw [List.set_eq_of_length_le (by omega)]
  · rw [List.getD_eq_getElem?_getD, List.getElem?_set_ne (fun h => hcl h.symm), ← List.getD_eq_getElem?_getD]

/-! ### The publication -/

/-- One context is told of the tuning number n. -/
def tellCtx (n : Nat) (s : State) (e : Nat × Ctx) : State :=
  let s := due (.fault_record (recOfCtx s 6 (w32 fTuning) (w64 n) 0 e.1)) s
  if e.2.tunDeadline then s
  else timer (ticksOf 10000000) (.tune_deadline e.1) (modCtx e.1 (fun x => { x with tunDeadline := true }) s)

/-- The record that tells it. -/
def TuneRecord (n k : Nat) (r : FaultRec) : Prop := r.src = 6 ∧ r.fcode = 0xFFFC ∧ r.fva = BitVec.ofNat 64 n ∧ r.ctx = BitVec.ofNat 6 k

theorem tellCtx_eq (n : Nat) (s : State) (e : Nat × Ctx) : ∃ r ts cs, TuneRecord n e.1 r
    ∧ tellCtx n s e = { s with agenda := s.agenda ++ [.fault_record r], timers := ts, ctxs := cs }
    ∧ cs = if e.2.tunDeadline then s.ctxs else amMod s.ctxs e.1 (fun x => { x with tunDeadline := true }) := by
  refine ⟨recOfCtx s 6 (w32 fTuning) (w64 n) 0 e.1, (tellCtx n s e).timers, _, ⟨rfl, rfl, rfl, rfl⟩, ?_, rfl⟩
  unfold tellCtx
  dsimp only
  split
  · rfl
  · unfold timer
    split <;> rfl

/-- What the telling of contexts leaves, and the record and deadline that it gives to each of them. -/
structure CtxsTold (n : Nat) (l : List (Nat × Ctx)) (s t : State) : Prop where
  form : t = { s with agenda := t.agenda, timers := t.timers, ctxs := t.ctxs }
  agenda : s.agenda ⊆ t.agenda
  record : ∀ e ∈ l, ∃ r, .fault_record r ∈ t.agenda ∧ TuneRecord n e.1 r
  kept : ∀ k x, ctxOf s k = some x → ∃ y, ctxOf t k = some y ∧ (x.tunDeadline = true → y.tunDeadline = true)
  deadline : ∀ e ∈ l, e.2.tunDeadline = false → ∀ x, ctxOf s e.1 = some x → ∃ y, ctxOf t e.1 = some y ∧ y.tunDeadline = true

theorem ctxsTold_foldl (n : Nat) (l : List (Nat × Ctx)) (s : State) : CtxsTold n l s (l.foldl (tellCtx n) s) := by
  induction l generalizing s with
  | nil => exact ⟨rfl, List.Subset.refl _, nofun, fun k x hx => ⟨x, hx, id⟩, nofun⟩
  | cons e es ih =>
    rw [List.foldl_cons]
    obtain ⟨form, agenda, record, kept, deadline⟩ := ih (tellCtx n s e)
    obtain ⟨r, ts, cs, hr, heq, hcs⟩ := tellCtx_eq n s e
    have hmem : Event.fault_record r ∈ (tellCtx n s e).agenda := by rw [heq]; exact List.mem_append_right _ (List.mem_singleton_self _)
    have hctx : ∀ k x, ctxOf s k = some x → ∃ y, ctxOf (tellCtx n s e) k = some y ∧ (x.tunDeadline = true → y.tunDeadline = true)
        ∧ (e.2.tunDeadline = false → k = e.1 → y.tunDeadline = true) := by
      intro k x hx
      have hof : ctxOf (tellCtx n s e) k = amGet? cs k := by rw [heq]; rfl
      rw [hof, hcs]
      split
      · next h => exact ⟨x, hx, id, fun h' => absurd (h.symm.trans h') (by decide)⟩
      · by_cases hk : k = e.1
        · subst hk
          refine ⟨{ x with tunDeadline := true }, ?_, fun _ => rfl, fun _ _ => rfl⟩
          rw [amGet?_amMod_same, show amGet? s.ctxs e.1 = some x from hx]; rfl
        · refine ⟨x, ?_, id, fun _ h => absurd h hk⟩
          rw [amGet?_amMod_other _ _ _ _ hk]; exact hx
    refine ⟨?_, ?_, ?_, ?_, ?_⟩
    · rw [form, heq]
    · refine List.Subset.trans ?_ agenda
      rw [heq]; exact List.subset_append_left _ _
    · rw [List.forall_mem_cons]
      exact ⟨⟨r, agenda hmem, hr⟩, record⟩
    · intro k x hx
      obtain ⟨y, hy, hxy, -⟩ := hctx k x hx
      obtain ⟨z, hz, hyz⟩ := kept k y hy
      exact ⟨z, hz, fun h => hyz (hxy h)⟩
    · rw [List.forall_mem_cons]
      refine ⟨fun he x hx => ?_, fun e' he' hdead x hx => ?_⟩
      · obtain ⟨y, hy, -, hdead⟩ := hctx e.1 x hx
        obtain ⟨z, hz, hyz⟩ := kept _ y hy
        exact ⟨z, hz, hyz (hdead he rfl)⟩
      · obtain ⟨y, hy, -⟩ := hctx e'.1 x hx
        exact deadline e' he' hdead y hy

/-! ### Groups stay where they are -/

/-- A group that has not ended and is not saved. -/
def Group.Stands (g : Group) : Prop := g.status ≠ .gone ∧ g.status ≠ .saved

/-- The same group, with the place it keeps. -/
def SamePlace (g h : Group) : Prop := h.idn = g.idn ∧ h.posn = g.posn ∧ (g.Stands → h.Stands)

theorem SamePlace.refl (g : Group) : SamePlace g g := ⟨rfl, rfl, id⟩

theorem SamePlace.trans {g h k : Group} (hgh : SamePlace g h) (hhk : SamePlace h k) : SamePlace g k := by
  obtain ⟨hi, hp, hs⟩ := hgh
  obtain ⟨ki, kp, ks⟩ := hhk
  exact ⟨ki.trans hi, kp.trans hp, fun h => ks (hs h)⟩

theorem Roused.samePlace {g h : Group} (hgh : Roused g h) : SamePlace g h := by
  refine ⟨hgh.idn, hgh.posn, fun hs => ?_⟩
  rcases hgh.2 with hst | ⟨-, hst⟩
  · unfold Group.Stands; rw [hst]; exact hs
  · unfold Group.Stands; rw [hst]; decide

/-- Every group stays where it is. -/
def PlacesKept (s t : State) : Prop := GroupsStep SamePlace s t

theorem PlacesKept.trans {s t u : State} (h : PlacesKept s t) (h' : PlacesKept t u) : PlacesKept s u :=
  GroupsStep.trans (R := SamePlace) (fun a b => a.trans b) h h'

theorem placesKept_of_eq {s t : State} (h : (t.g, t.rest) = (s.g, s.rest)) : PlacesKept s t := by
  simp only [Prod.mk.injEq] at h
  exact .of_eq SamePlace.refl h.1 h.2

theorem placesKept_foldl {α : Type} {f : State → α → State} (hf : ∀ s x, PlacesKept s (f s x)) (l : List α) (s : State) :
    PlacesKept s (l.foldl f s) := by
  induction l generalizing s with
  | nil => exact placesKept_of_eq rfl
  | cons x xs ih => exact (hf s x).trans (ih _)

theorem MemStep.placesKept {s t : State} (h : MemStep s t) : PlacesKept s t := h.groups.mono Roused.samePlace

theorem PlacesKept.mem_rest {s t : State} (h : PlacesKept s t) {g : Group} (hg : g ∈ s.rest) : ∃ h ∈ t.rest, SamePlace g h := by
  have hrest := h.rest
  generalize s.rest = l at hg hrest
  generalize t.rest = m at hrest
  induction hrest with
  | nil => exact absurd hg List.not_mem_nil
  | cons hab _ ih =>
    rcases List.mem_cons.1 hg with rfl | hg
    · exact ⟨_, List.mem_cons_self, hab⟩
    · obtain ⟨h, hh, hgh⟩ := ih hg
      exact ⟨h, List.mem_cons_of_mem _ hh, hgh⟩

theorem placesKept_mapGroups {p : Group → Bool} {f : Group → Group} (hf : ∀ g, SamePlace g (f g)) (s : State) :
    PlacesKept s (mapGroups p f s) := groupsStep_mapGroups SamePlace.refl hf s

theorem placesKept_dues (es : List Event) (s : State) : PlacesKept s (dues es s) := placesKept_of_eq rfl

theorem placesKept_askSave (p : Group → Bool) (s : State) : PlacesKept s (askSave p s) := by
  obtain ⟨ts, a, h⟩ := askSave_eq p s
  have hmap : PlacesKept s (mapGroups (fun g => p g && g.status != .gone && g.status != .saved) (fun g => { g with saveDue := true }) s) :=
    placesKept_mapGroups (by intro _; exact ⟨rfl, rfl, id⟩) s
  rw [h]
  exact hmap.trans (placesKept_of_eq rfl)

theorem placesKept_forceSave (teams : List Nat) (s : State) : PlacesKept s (forceSave teams s) := by
  unfold forceSave
  dsimp only
  refine PlacesKept.trans ?_ (placesKept_dues _ _)
  exact placesKept_mapGroups (by intro _; exact ⟨rfl, rfl, id⟩) s

theorem placesKept_losePeers (s : State) : PlacesKept s (losePeers s) := placesKept_of_eq rfl

theorem placesKept_endScan (t : Tuning) (core out : Nat) (obs : Word64) (s : State) : PlacesKept s (endScan t core out obs s) := by
  unfold endScan
  split
  · exact placesKept_of_eq rfl
  · extract_lets s1 s2 c s3 life scans disp host s4 s5
    have hput : PlacesKept s s2 := ((memStep_cohPutWord _ _ s).trans (memStep_cohPutWord _ _ s1)).placesKept
    have hrec : PlacesKept s2 s4 := placesKept_of_eq rfl
    have hwake : PlacesKept s4 s5 := (memStep_wakeAll s4).placesKept
    exact ((hput.trans hrec).trans hwake).trans (placesKept_of_eq rfl)

theorem placesKept_endScans (t : Tuning) (s : State) : PlacesKept s (endScans t s) := placesKept_foldl (fun _ _ => placesKept_endScan _ _ _ _ _) _ _

/-- Without replayable launches nothing rolls back when teams lose their place. -/
theorem placesKept_evict {s : State} (h : ∀ e ∈ s.d.grids, e.2.repl = false) (teams : List Nat) : PlacesKept s (evict teams s) := by
  have hnone : ∀ g, rollsBack s g = none := by
    intro g
    unfold rollsBack
    split
    · rfl
    · dsimp only
      split
      · next gr hgr => rw [h _ (mem_of_amGet? hgr)]; rfl
      · rfl
  have hroots : teams.filterMap (fun t => ((allGroups s).find? (fun g => g.idn.team == t && g.status != .gone)).bind (fun g => rollsBack s g)) = [] :=
    List.filterMap_eq_nil_iff.2 fun t _ => by
      rw [Option.bind_eq_none_iff]
      exact fun g _ => hnone g
  unfold evict
  rw [hroots]
  exact placesKept_forceSave _ s

/-! ### The publication as a whole -/

/-- A sleep that the publication ends (R307). -/
def endSleep (s : State) (g : Group) : State :=
  noTimer (.sleep_expiry g.idn.gid) (modGroup g.idn.gid (fun h => { h with status := .running, rdy := s.tick }) s)

theorem retuned_endSleep (s : State) (g : Group) : Retuned s (endSleep s g) := by
  unfold endSleep noTimer
  refine .trans (t := modGroup g.idn.gid (fun h => { h with status := .running, rdy := s.tick }) s) ?_ (retuned_of_eq rfl)
  exact retuned_modGroup (by intro _; rfl) s

theorem placesKept_endSleep (s : State) (g : Group) : PlacesKept s (endSleep s g) := by
  unfold endSleep noTimer
  refine .trans (t := modGroup g.idn.gid (fun h => { h with status := .running, rdy := s.tick }) s) ?_ (placesKept_of_eq rfl)
  exact groupsStep_modGroup SamePlace.refl (by intro _; exact ⟨rfl, rfl, fun _ => ⟨nofun, nofun⟩⟩) s

theorem endSleep_d (s : State) (g : Group) : (endSleep s g).d = s.d := by
  unfold endSleep noTimer modGroup
  dsimp only
  split <;> rfl

/-- What the publication of the record u leaves. -/
structure Published (u : Tuning) (s t : State) : Prop where
  tun : t.tun = { u with tunn := s.tun.tunn + 1 }
  tev : ∀ h ∈ t.rest, h.tev = true
  ctxs : ∀ k x, ctxOf s k = some x → (∃ r, .fault_record r ∈ t.agenda ∧ TuneRecord (s.tun.tunn + 1) k r)
    ∧ ∃ y, ctxOf t k = some y ∧ y.tunDeadline = true
  d : t.d = s.d
  places : PlacesKept s t

theorem publish_published (c : TuneCause) (u : Tuning) (s : State) : Published u s (publish c u s) := by
  unfold publish
  extract_lets n life host boot s1 s2 s3 s4
  have hwrite : MemStep s1 s2 := memStep_writeTuning s1
  clear_value s2
  have htold : CtxsTold n s3.ctxs s3 s4 := ctxsTold_foldl n s3.ctxs s3
  have hsleep : Retuned s4 (((allGroups s4).filter (fun g => g.status == .sleeping)).foldl endSleep s4) := .foldl retuned_endSleep _ _
  have hctxs : s3.ctxs = s2.ctxs := rfl
  have hctx : ∀ k, ctxOf s3 k = ctxOf s k := fun k => by unfold ctxOf; rw [hctxs, hwrite.ctxs]
  have htun : s3.tun = s2.tun := rfl
  have hd : s3.d = s2.d := rfl
  have hplaces : PlacesKept s s3 := by
    have h1 : PlacesKept s s1 := placesKept_of_eq rfl
    have h3 : PlacesKept s2 s3 := placesKept_mapGroups (by intro _; exact ⟨rfl, rfl, id⟩) s2
    exact (h1.trans hwrite.placesKept).trans h3
  have hg4 : s4.g = s3.g := by rw [htold.form]
  have hr4 : s4.rest = s3.rest := by rw [htold.form]
  have hd4 : s4.d = s3.d := by rw [htold.form]
  have ht4 : s4.tun = s3.tun := by rw [htold.form]
  refine ⟨hsleep.tun.trans (ht4.trans (htun.trans hwrite.tun)), hsleep.tev ?_, fun k x hx => ?_, (foldl_kept (fun s : State => s.d) endSleep_d _ _).trans (hd4.trans (hd.trans hwrite.d)), ?_⟩
  · intro h hh
    rw [hr4] at hh
    obtain ⟨g, -, rfl⟩ := List.mem_map.1 hh
    rfl
  · have hx3 : ctxOf s3 k = some x := (hctx k).trans hx
    have hmem : (k, x) ∈ s3.ctxs := mem_of_amGet? hx3
    obtain ⟨r, hr, hrec⟩ := htold.record _ hmem
    have hdead : ∃ y, ctxOf s4 k = some y ∧ y.tunDeadline = true := by
      cases hb : x.tunDeadline with
      | true =>
        obtain ⟨y, hy, hxy⟩ := htold.kept k x hx3
        exact ⟨y, hy, hxy hb⟩
      | false => exact htold.deadline _ hmem hb x hx3
    obtain ⟨y, hy, hyd⟩ := hdead
    obtain ⟨z, hz, hyz⟩ := hsleep.ctxs k y hy
    exact ⟨⟨r, hsleep.agenda hr, hrec⟩, z, hz, hyz.trans hyd⟩
  · exact (hplaces.trans (placesKept_of_eq (by rw [hg4, hr4]))).trans (placesKept_foldl placesKept_endSleep _ _)

/-! ### Tuning events -/

/-- An event that changes the record drains, publishes and displaces. -/
theorem retune_published {c : TuneCause} {s : State} (h : newTuning c s.tun ≠ s.tun) :
    ∃ v w, Retuned s v ∧ Published (newTuning c s.tun) v w ∧ Retuned w (retune c s) := by
  unfold retune
  extract_lets t u s1 s2
  rw [if_neg h]
  have h1 : Retuned s s1 := (memStep_drainSlices _ s).retuned
  have h2 : Retuned s1 s2 := by
    unfold s2
    split
    · exact .refl s1
    · exact retuned_moveEngines u s1
  exact ⟨s2, publish c u s2, h1.trans h2, publish_published c u s2, (retuned_displace c t _).trans (retuned_losePeers _)⟩

theorem retune_of_same {c : TuneCause} {s : State} (h : newTuning c s.tun = s.tun) : retune c s = s := by
  unfold retune
  dsimp only
  rw [if_pos h]

/-- A core is not live after its event, whether or not the event changes the record. -/
theorem coreLive_retune_core (k : Nat) (s : State) : coreLive (retune (.core k) s).tun k = false := by
  by_cases h : newTuning (.core k) s.tun = s.tun
  · rw [retune_of_same h, ← h]
    exact coreLive_newTuning_core k s.tun
  · obtain ⟨v, w, -, hw, hr⟩ := retune_published h
    rw [hr.tun, hw.tun]
    exact coreLive_newTuning_core k s.tun

/-- A tuning event leaves scans under way, and where the region table is. -/
theorem retune_scans (k : Nat) (s : State) : (retune (.core k) s).d.scans = s.d.scans ∧ (retune (.core k) s).tun.rgnt = s.tun.rgnt := by
  by_cases h : newTuning (.core k) s.tun = s.tun
  · rw [retune_of_same h]; exact ⟨rfl, rfl⟩
  · obtain ⟨v, w, hv, hw, hr⟩ := retune_published h
    refine ⟨hr.scans.trans ((congrArg DispSys.scans hw.d).trans hv.scans), ?_⟩
    rw [hr.tun, hw.tun]
    rfl

theorem mem_teamsOn {s : State} {p : Nat → Bool} {g : Group} (hg : g ∈ s.rest) (hid : g.idn.gid ≠ 0) (hp : p g.idn.core = true) (hs : g.Stands) :
    g.idn.team ∈ teamsOn s p := by
  obtain ⟨hgone, hsaved⟩ := hs
  refine List.mem_eraseDups.2 (List.mem_map.2 ⟨g, List.mem_filter.2 ⟨List.mem_cons_of_mem _ hg, ?_⟩, rfl⟩)
  simp [hid, hp, hgone, hsaved]

/-- A core that leaves drains no slices and moves no engines. -/
theorem retune_core {k : Nat} {s : State} (h : newTuning (.core k) s.tun ≠ s.tun) :
    retune (.core k) s = losePeers (displace (.core k) s.tun (publish (.core k) (newTuning (.core k) s.tun) s)) := by
  unfold retune
  dsimp only
  rw [if_neg h, departing_newTuning_core, if_pos (show (newTuning (.core k) s.tun).clus = s.tun.clus from rfl)]
  rfl

/-- Every group that stands keeps its place when a core leaves, until it is saved (R175, R469). -/
theorem posOf_retune_core {k : Nat} {s : State} (hrepl : ∀ e ∈ s.d.grids, e.2.repl = false) {g : Group} (hg : g ∈ s.rest) (hid : g.idn.gid ≠ 0)
    (hs : g.Stands) (hlive : g.idn.core % 256 ∈ liveCoresOf s.tun (g.idn.core / 256)) :
    ∃ h ∈ (retune (.core k) s).rest, h.idn = g.idn ∧ h.posn.getD (lclusOf (retune (.core k) s).tun (clusterOf h.idn.core),
      lcoreOf (retune (.core k) s).tun h.idn.core) = posOf s g := by
  by_cases hsame : newTuning (.core k) s.tun = s.tun
  · rw [retune_of_same hsame]; exact ⟨g, hg, rfl, rfl⟩
  obtain ⟨v, hv⟩ : ∃ v, publish (.core k) (newTuning (.core k) s.tun) s = v := ⟨_, rfl⟩
  have hpub : Published (newTuning (.core k) s.tun) s v := hv ▸ publish_published _ _ s
  obtain ⟨h1, hh1, hi1, hp1, hst1⟩ := hpub.places.mem_rest hg
  have htun : (retune (.core k) s).tun = { newTuning (.core k) s.tun with tunn := s.tun.tunn + 1 } := by
    rw [retune_core hsame, hv, ((retuned_displace _ _ v).trans (retuned_losePeers _)).tun, hpub.tun]
  rw [htun, retune_core hsame, hv]
  unfold displace displaceTeams
  dsimp only
  obtain ⟨p, hp⟩ : ∃ p : Nat → Bool, p = fun x => x == k := ⟨_, rfl⟩
  obtain ⟨q, hq⟩ : ∃ q : Nat → Bool, q = fun x => clusterOf x == k / 256 && movedBy (s.tun.lorder.getD (k / 256) []) (k % 256) == some (x % 256) := ⟨_, rfl⟩
  rw [← hp, ← hq]
  obtain ⟨teams, hteams⟩ : ∃ teams, teams = teamsOn v p ++ teamsOn v q := ⟨_, rfl⟩
  rw [← hteams]
  have hlater : PlacesKept (keepPos s.tun teams v) (losePeers (askSave (fun g => (teamsOn v q).contains g.idn.team)
      (evict (teamsOn (keepPos s.tun teams v) p) (keepPos s.tun teams v)))) :=
    ((placesKept_evict (by rw [keepPos_d, hpub.d]; exact hrepl) _).trans (placesKept_askSave _ _)).trans (placesKept_losePeers _)
  have hkept : (if teams.contains h1.idn.team && h1.posn.isNone
      then { h1 with posn := some (lclusOf s.tun (clusterOf h1.idn.core), lcoreOf s.tun h1.idn.core) } else h1) ∈ (keepPos s.tun teams v).rest :=
    List.mem_map.2 ⟨h1, hh1, rfl⟩
  obtain ⟨h, hh, hi, hpn, -⟩ := hlater.mem_rest hkept
  have hidn : h.idn = g.idn := by rw [hi]; split <;> exact hi1
  refine ⟨h, hh, hidn, ?_⟩
  rw [hpn, hidn]
  unfold posOf
  cases hpos : g.posn with
  | some x =>
    rw [if_neg (by rw [hp1, hpos]; simp), hp1, hpos]
    rfl
  | none =>
    rw [hp1, hpos]
    split
    · rw [hi1]; rfl
    · next hno =>
      have hteam : g.idn.team ∉ teams := fun hmem => hno (by rw [hi1]; simpa using hmem)
      rw [hteams, List.mem_append, not_or] at hteam
      obtain ⟨hnp, hnq⟩ := hteam
      have hne : g.idn.core ≠ k := fun hk => hnp (hi1 ▸ mem_teamsOn hh1 (by rwa [hi1]) (by rw [hp, hi1]; simpa using hk) (hst1 hs))
      have hnm : ¬(g.idn.core / 256 = k / 256 ∧ movedBy (s.tun.lorder.getD (k / 256) []) (k % 256) = some (g.idn.core % 256)) := fun ⟨hc, hm⟩ =>
        hnq (hi1 ▸ mem_teamsOn hh1 (by rwa [hi1]) (by rw [hq, hi1]; simpa [clusterOf] using ⟨hc, hm⟩) (hst1 hs))
      rw [hp1, hpos]
      exact congrArg (Prod.mk _) (lcoreOf_newTuning_core hlive hne hnm)

theorem timer_kept {n : Nat} {e : Event} {s : State} : (timer n e s).tun = s.tun ∧ (timer n e s).d = s.d ∧ (timer n e s).free = s.free := by
  unfold timer
  split <;> exact ⟨rfl, rfl, rfl⟩

section
variable {s : State}

/-- While messages are under way a tuning event waits (R88). -/
theorem tuningEvent_busy {c : TuneCause} (hev : s.ev = some (.tuning_event c)) (hbusy : loopsBusy s = true) :
    exec .tuning_event s = .next (timer 16 (.tuning_event c) s) := by
  change execTuningEvent s = _
  unfold execTuningEvent
  rw [hev]
  simp [hbusy]

/-- A tuning event whose loops are free, with no window group on a cluster that leaves. -/
theorem tuningEvent_free {c : TuneCause} (hev : s.ev = some (.tuning_event c)) (hbusy : loopsBusy s = false)
    (hwin : ∀ cl, c = .cluster cl → ∀ g ∈ allGroups s, g.idn.kind ≠ .window) :
    exec .tuning_event s = .next (endScans s.tun (retune c s)) := by
  have hwaits : ∀ cl, c = .cluster cl → (allGroups s).any (fun g => g.idn.kind == .window && clusterOf g.idn.core == cl && g.idn.gid != 0
      && g.status != .gone && g.status != .saved) = false := fun cl hc => by
    rw [List.any_eq_false]
    exact fun g hg => by simp [hwin cl hc g hg]
  change execTuningEvent s = _
  unfold execTuningEvent
  rw [hev]
  dsimp only
  rw [hbusy, Bool.false_or]
  cases c with
  | cluster cl => simp only [hwaits cl rfl, Bool.false_eq_true, if_false]
  | core _ => rfl
  | slice _ _ => rfl
  | link _ _ _ => rfl
  | expander _ => rfl
  | start => rfl

/-- A core's event leaves the core out of the live ones, whatever ends then. -/
theorem coreLive_endScans_retune (core : Nat) (tn : Tuning) : coreLive (endScans tn (retune (.core core) s)).tun core = false := by
  rw [(told_endScans tn _).tun]
  exact coreLive_retune_core core s

/-- A context told of the event, with the record it was told in. -/
theorem ctxs_endScans_retune {c : TuneCause} (h : newTuning c s.tun ≠ s.tun) (tn : Tuning) :
    let t := endScans tn (retune c s)
    t.tun = { newTuning c s.tun with tunn := s.tun.tunn + 1 } ∧ (∀ h ∈ t.rest, h.tev = true)
      ∧ ∀ k x, ctxOf s k = some x → (∃ r, .fault_record r ∈ t.agenda ∧ TuneRecord (s.tun.tunn + 1) k r) ∧ ∃ y, ctxOf t k = some y ∧ y.tunDeadline = true := by
  intro t
  obtain ⟨v, w, hv, hw, hr⟩ := retune_published h
  have hlater : Told w t := hr.toTold.trans (told_endScans tn _)
  refine ⟨by rw [hlater.tun, hw.tun, hv.tun], hlater.tev hw.tev, fun k x hx => ?_⟩
  obtain ⟨x', hx', -⟩ := hv.ctxs k x hx
  obtain ⟨⟨r, hr, hrec⟩, y, hy, hyd⟩ := hw.ctxs k x' hx'
  obtain ⟨z, hz, hyz⟩ := hlater.ctxs k y hy
  exact ⟨⟨r, hlater.agenda hr, hv.tun ▸ hrec⟩, z, hz, hyz.trans hyd⟩

/-! ### The deadline -/

/-- The policy on an escalated fault suspends or ends the context, which keeps its deadline (R454, R468). -/
theorem ctxOf_applyPolicy {k : Nat} {x : Ctx} (hx : ctxOf s k = some x) (fcmd : Option Nat) (code : Nat) :
    ∃ y, ctxOf (applyPolicy k fcmd code s) k = some y ∧ y.tunDeadline = x.tunDeadline ∧ (if x.pol then y.terminated else y.suspended) = true := by
  have hmod : ∀ f : Ctx → Ctx, ctxOf (modCtx k f s) k = some (f x) := fun f =>
    (amGet?_amMod_same _ _ _).trans (by rw [show amGet? s.ctxs k = some x from hx]; rfl)
  unfold applyPolicy
  rw [hx]
  dsimp only
  split
  · refine ⟨_, (congrArg (fun c => amGet? c k) (cancelCtx_kept _ _ _ _).2.2).trans (hmod _), rfl, rfl⟩
  · refine ⟨_, (congrArg (fun c => amGet? c k) ((dues_ctxs _ _).trans (askSave_ctxs _ _))).trans (hmod _), rfl, rfl⟩

theorem tuneDeadline_run {k : Nat} {x : Ctx} (hev : s.ev = some (.tune_deadline k)) (hx : ctxOf s k = some x) :
    exec .tune_deadline s = .next (if x.tunDeadline then applyPolicy k none fTUNE (due (.fault_record (recOfCtx s 6 (w32 fTUNE) 0 0 k)) s) else s) := by
  change execTuneDeadline s = _
  unfold execTuneDeadline
  rw [hev]
  dsimp only
  rw [hx]
  dsimp only
  cases x.tunDeadline <;> rfl

/-! ### Scans -/

section
variable {core : Nat} {sc : Scan} (hsc : amGet? s.d.scans core = some sc)
include hsc

theorem scanPatternStart_run (hev : s.ev = some (.scan_pattern_start core)) (hidle : sc.running = false) (hres : residents s core = []) :
    exec .scan_pattern_start s = .next (timer (ticksOf 200000) (.scan_compare core (drawFree s).1)
      { (drawFree s).2 with d := { s.d with scans := amPut s.d.scans core { sc with running := true } } }) := by
  change execScanPatternStart s = _
  unfold execScanPatternStart
  rw [hev]
  dsimp only
  rw [hsc]
  dsimp only
  rw [hidle, hres]
  rfl

theorem scanCompare_run {obs : Word64} (hev : s.ev = some (.scan_compare core obs)) (hrun : sc.running = true) :
    exec .scan_compare s = .next (if obs = Config.scanSignature core then endScan s.tun core 1 obs s
      else if loopsBusy s then timer 16 (.scan_compare core obs) { s with d := { s.d with scans := amPut s.d.scans core { sc with noab := true } } }
      else endScan s.tun core 2 obs (retune (.core core) s)) := by
  change execScanCompare s = _
  unfold execScanCompare
  rw [hev]
  dsimp only
  rw [hsc]
  dsimp only
  rw [hrun]
  rfl

/-- A scan that ends after its core has been retired. -/
theorem endScan_retune_ended {out : Nat} {obs : Word64} (hal : sc.recVa.toNat % 16 = 0) (htab : inTable s (2 * (sc.recVa.toNat / 128)) = false) :
    ScanEnded s.tun core out obs sc (retune (.core core) s) (endScan s.tun core out obs (retune (.core core) s)) := by
  obtain ⟨hscans, hrgnt⟩ := retune_scans core s
  refine endScan_ended s.tun (by rw [hscans]; exact hsc) hal ?_
  unfold inTable at htab ⊢
  rwa [hrgnt]

end

theorem pairMismatch_run {core : Nat} (hev : s.ev = some (.pair_mismatch core)) :
    exec .pair_mismatch s = .next (if !(coreOf s core).quarantined then s else if loopsBusy s then timer 16 (.pair_mismatch core) s
      else endScans s.tun (retune (.core core) s)) := by
  change execPairMismatch s = _
  unfold execPairMismatch
  rw [hev]

/-! ### Patrol scrubs -/

theorem free_foldl {α : Type} {f : State → α → State} (hf : ∀ s x, (f s x).free = s.free + 1) (l : List α) (s : State) :
    (l.foldl f s).free = s.free + l.length := by
  induction l generalizing s with
  | nil => rfl
  | cons x xs ih => rw [List.foldl_cons, ih, hf, List.length_cons]; omega

theorem noteErrors_free (stack : Nat) (s : State) : (noteErrors stack s).free = s.free + 16 := by
  unfold noteErrors
  exact free_foldl (by intro _ _; rfl) (List.range 16) s

theorem noteSamples_free (s : State) : (noteSamples s).free = s.free + 42 := by
  unfold noteSamples
  exact free_foldl (by intro _ _; rfl) (List.range 42) s

theorem noteErrors_kept (stack : Nat) (s : State) : (noteErrors stack s).m = s.m ∧ (noteErrors stack s).g = s.g ∧ (noteErrors stack s).timers = s.timers := by
  unfold noteErrors
  exact ⟨foldl_kept (fun s : State => s.m) (by intro _ _; rfl) _ s, foldl_kept (fun s : State => s.g) (by intro _ _; rfl) _ s,
    foldl_kept (fun s : State => s.timers) (by intro _ _; rfl) _ s⟩

theorem noteSamples_kept (s : State) : (noteSamples s).m = s.m ∧ (noteSamples s).g = s.g ∧ (noteSamples s).timers = s.timers
    ∧ (noteSamples s).h.life.correctable = s.h.life.correctable := by
  unfold noteSamples
  exact ⟨foldl_kept (fun s : State => s.m) (by intro _ _; rfl) _ s, foldl_kept (fun s : State => s.g) (by intro _ _; rfl) _ s,
    foldl_kept (fun s : State => s.timers) (by intro _ _; rfl) _ s, foldl_kept (fun s : State => s.h.life.correctable) (by intro _ _; rfl) _ s⟩

/-- The errors of a scrub are counted on the stack's own channels. -/
theorem noteErrors_correctable {stack i : Nat} (h : ¬(16 * stack ≤ i ∧ i < 16 * stack + 16)) (s : State) :
    cellGet (noteErrors stack s).h.life.correctable i = cellGet s.h.life.correctable i := by
  refine foldl_eq_of_mem (fun s : State => cellGet s.h.life.correctable i) (fun ch hch s => ?_) s
  refine cellGet_cellPut_other _ _ _ _ fun hi => h ?_
  have := List.mem_range.1 hch
  omega

theorem patrolScrub_run {stack : Nat} (hev : s.ev = some (.patrol_scrub stack)) :
    exec .patrol_scrub s = .next (noteSamples (noteErrors stack (timer scrubTicks (.patrol_scrub stack) s))) := by
  change execPatrolScrub s = _
  unfold execPatrolScrub
  rw [hev]

end

/-- Settles O50: the event's steps after the publication keep what it has told, and a scan's record is written last. -/
theorem tuningScanResult : Obligations.TuningScanResult := by
  unfold Obligations.TuningScanResult
  intro s core ran
  refine ⟨fun c hev hbusy => ?_, fun c hev hbusy hne hwin => ?_, fun k hev hbusy hrepl _ => ?_, fun k x hev hx => ?_, fun sc hsc => ⟨fun hev hidle hres => ?_, fun obs hev hrun hal htab => ?_⟩, fun hev => ?_, fun stack hev => ?_⟩
  · exact ⟨_, tuningEvent_busy hev hbusy, timer_kept.1, timer_m _ _ _, timer_set _ _ _⟩
  · obtain ⟨htun, htev, hctx⟩ := ctxs_endScans_retune hne s.tun
    refine ⟨_, tuningEvent_free hev hbusy hwin, htun, fun k hk => ?_, fun cl hcl => ?_, htev, fun k x hx => ?_⟩
    · subst hk; exact coreLive_endScans_retune k s.tun
    · subst hcl; rw [htun]; exact clusterLive_newTuning_cluster cl s.tun
    · obtain ⟨⟨r, hr, hsrc, hcode, hva, hc⟩, hdead⟩ := hctx k x hx
      exact ⟨⟨r, hr, hsrc, hcode, hva, hc⟩, hdead⟩
  · refine ⟨_, tuningEvent_free hev hbusy nofun, fun g hg hid hgone hsaved hlive => ?_⟩
    obtain ⟨h, hh, hidn, hpos⟩ := posOf_retune_core (k := k) hrepl hg hid ⟨hgone, hsaved⟩ hlive
    obtain ⟨h', hh', hidn', hposn', -⟩ := (placesKept_endScans s.tun _).mem_rest hh
    refine ⟨h', hh', hidn'.trans hidn, ?_⟩
    unfold posOf at hpos ⊢
    rw [(told_endScans s.tun _).tun, hposn', hidn']
    exact hpos
  · have hrun := tuneDeadline_run hev hx
    refine ⟨fun hd => ⟨_, hrun, by rw [hd]; rfl⟩, fun hd => ?_⟩
    rw [hd, if_pos rfl] at hrun
    obtain ⟨y, hy, hyd, hpol⟩ := ctxOf_applyPolicy (s := due (.fault_record (recOfCtx s 6 (w32 fTUNE) 0 0 k)) s) hx none fTUNE
    exact ⟨_, hrun, ⟨_, agenda_subset_applyPolicy _ _ _ _ (List.mem_append_right _ (List.mem_singleton_self _)), rfl⟩, y, hy, hyd.trans hd, hpol⟩
  · refine ⟨_, scanPatternStart_run hsc hev hidle hres, timer_m _ _ _, ?_, ?_⟩
    · rw [timer_kept.2.1]; exact amGet?_amPut_same _ _ _
    · obtain ⟨n, hn⟩ := timer_set (ticksOf 200000) (.scan_compare core (drawFree s).1)
        { (drawFree s).2 with d := { s.d with scans := amPut s.d.scans core { sc with running := true } } }
      exact ⟨n, _, hn⟩
  · have hgo := scanCompare_run hsc hev hrun
    refine ⟨fun hobs => ?_, fun hobs hbusy => ?_, fun hobs hbusy => ?_⟩
    · rw [if_pos hobs] at hgo
      obtain ⟨htun, hscans, hlife, hw0, hw1, hcore⟩ := endScan_ended s.tun (out := 1) (obs := obs) hsc hal htab
      refine ⟨_, hgo, ⟨hscans, by rw [htun]; exact hlife, by rw [htun]; exact hw0, hw1⟩, htun, by rw [hcore]; rfl, by rw [hcore]⟩
    · rw [if_neg hobs, hbusy, if_neg (by decide)] at hgo
      obtain ⟨htun, hscans, hlife, hw0, hw1, hcore⟩ := endScan_retune_ended (out := 2) (obs := obs) hsc hal htab
      have hdead := coreLive_retune_core core s
      exact ⟨_, hgo, ⟨hscans, by rw [htun]; exact hlife, by rw [htun]; exact hw0, hw1⟩, by rw [htun]; exact hdead, by rw [hcore]; dsimp only; rw [hdead]; rfl⟩
    · rw [if_neg hobs, if_pos hbusy] at hgo
      refine ⟨_, hgo, timer_kept.1, ?_, timer_set _ _ _⟩
      rw [timer_kept.2.1]; exact amGet?_amPut_same _ _ _
  · have hgo := pairMismatch_run hev
    refine ⟨fun hq hbusy => ?_, fun hq hbusy => ?_, fun hq => ?_⟩
    · rw [hq, hbusy] at hgo
      exact ⟨_, hgo, coreLive_endScans_retune core s.tun⟩
    · rw [hq, hbusy] at hgo
      exact ⟨_, hgo, timer_kept.1, timer_set _ _ _⟩
    · rw [hq] at hgo
      exact ⟨_, hgo, rfl⟩
  · obtain ⟨hm, hg, hts, hcorr⟩ := noteSamples_kept (noteErrors stack (timer scrubTicks (.patrol_scrub stack) s))
    obtain ⟨hm', hg', hts'⟩ := noteErrors_kept stack (timer scrubTicks (.patrol_scrub stack) s)
    obtain ⟨n, hn⟩ := timer_set scrubTicks (.patrol_scrub stack) s
    refine ⟨_, patrolScrub_run hev, hm.trans (hm'.trans (timer_m _ _ _)), hg.trans (hg'.trans (timer_g _ _ _)), ?_, ⟨n, by rw [hts, hts']; exact hn⟩, fun i hi => ?_⟩
    · rw [noteSamples_free, noteErrors_free, timer_kept.2.2]
    · rw [hcorr, noteErrors_correctable hi]
      unfold timer
      split <;> rfl

end Sys2Proof.Machine
end
